-- ==== Sys2Proof/Word.lean ====
section
/-! DEFINITION. The word types of the Z5180 (R3, R4, R99) and the keyed table every sparse part of the state uses. -/

namespace Sys2Proof

/-- One byte. -/
abbrev Byte := BitVec 8

/-- A 32-bit register of one lane, an instruction word, a lane mask (lane `L` at bit `L`). -/
abbrev Word := BitVec 32

/-- A uniform register, an address, a 64-bit record word. -/
abbrev DWord := BitVec 64

/-- One 32-bit value for each of the 32 lanes, lane 0 first. -/
abbrev Lanes := List Word

/-- A sparse table: keys strictly rising. What an absent key stands for is said where the table is read. -/
abbrev Tab (α : Type) := List (Nat × α)

end Sys2Proof
end

