-- ==== Sys2Proof/Syntax.lean ====
section
/-! DEFINITION. The instructions and events of spec/opcode_table.json as one inductive type, with the operand
fields of Table 7-6. Register fields keep their 5-bit codes (Table 7-2): which kind a code names is the entry's. -/

namespace Sys2Proof

/-- Comparison conditions of ICMP and SCMP, functions 0 to 5 (R155, R159). -/
inductive Cond | eq | ne | lt | le | gt | ge
  deriving DecidableEq, Repr

/-- Comparison conditions of FCMP, functions 0 to 6 (R175). -/
inductive FCond | eq | ne | lt | le | gt | ge | un
  deriving DecidableEq, Repr

/-- Sub-operations of VOTE (R189). -/
inductive VoteOp | ballot | any | all | uni
  deriving DecidableEq, Repr

/-- Modes of SHFL (R192). -/
inductive ShflMode | idx | up | down | xor
  deriving DecidableEq, Repr

/-- Operations of RED and SCAN (Table 11-6). -/
inductive RedOp | fadd | fmin | fmax | iadd | imin | imax | and | or
  deriving DecidableEq, Repr

/-- Forms of LD and ST (Table 15-2). -/
inductive MemForm | w | t | b8 | b16
  deriving DecidableEq, Repr

/-- Two vector sources, the second a block or a uniform register (R119): `k` is function bit 4. -/
structure OpU where
  d : BitVec 5
  a : BitVec 5
  b : BitVec 5
  e : BitVec 3
  h : BitVec 2
  k : Bool
  deriving DecidableEq, Repr

/-- One vector source and a destination block; `h` is the hold bit of A (R111). -/
structure OpV where
  d : BitVec 5
  a : BitVec 5
  e : BitVec 3
  h : Bool
  deriving DecidableEq, Repr

/-- Format L with one source. -/
structure OpL where
  d : BitVec 5
  a : BitVec 5
  e : BitVec 3
  l : BitVec 4
  deriving DecidableEq, Repr

/-- Format L with a B field. -/
structure OpLB where
  d : BitVec 5
  a : BitVec 5
  b : BitVec 5
  e : BitVec 3
  l : BitVec 4
  deriving DecidableEq, Repr

/-- Three uniform (or predicate) fields. -/
structure Op3 where
  d : BitVec 5
  a : BitVec 5
  b : BitVec 5
  deriving DecidableEq, Repr

/-- Operands of PICK: a uniform result, a vector source with its hold bit, a uniform lane number. -/
structure OpPick where
  d : BitVec 5
  a : BitVec 5
  b : BitVec 5
  h : Bool
  deriving DecidableEq, Repr

/-- Two uniform (or predicate) fields. -/
structure Op2 where
  d : BitVec 5
  a : BitVec 5
  deriving DecidableEq, Repr

/-- Operands of LD and ST: `k` the base kind (1 uniform). ST has lookahead 0. -/
structure OpLd where
  d : BitVec 5
  a : BitVec 5
  o : BitVec 5
  e : BitVec 3
  l : BitVec 4
  k : Bool
  f : MemForm
  deriving DecidableEq, Repr

/-- Operands of ST. -/
structure OpSt where
  d : BitVec 5
  a : BitVec 5
  o : BitVec 5
  e : BitVec 3
  k : Bool
  f : MemForm
  deriving DecidableEq, Repr

/-- Operands of LDX: `t` the team form, `f` the typed form (R250). -/
structure OpLdx where
  d : BitVec 5
  a : BitVec 5
  o : BitVec 5
  e : BitVec 3
  l : BitVec 4
  k : Bool
  t : Bool
  f : Bool
  deriving DecidableEq, Repr

/-- Operands of STX. -/
structure OpStx where
  d : BitVec 5
  a : BitVec 5
  o : BitVec 5
  e : BitVec 3
  k : Bool
  t : Bool
  f : Bool
  deriving DecidableEq, Repr

/-- Operands of PREF, CFLUSH, CINV and HINT: `k` the base kind, `s` the sub-operation (R254). -/
structure OpCache where
  k : Bool
  s : BitVec 4
  a : BitVec 5
  o : BitVec 5
  deriving DecidableEq, Repr

/-- Operands of an atomic: `n` the non-returning form, `k` the base kind, `w` 64-bit width (R255). -/
structure OpAt where
  d : BitVec 5
  a : BitVec 5
  o : BitVec 5
  l : BitVec 4
  n : Bool
  k : Bool
  w : Bool
  deriving DecidableEq, Repr

/-- Operands of a synchronisation word with a result: D, base, offset, lookahead (Table 15-8). -/
structure OpSy where
  d : BitVec 5
  a : BitVec 5
  o : BitVec 5
  l : BitVec 4
  deriving DecidableEq, Repr

/-- D, base, offset. -/
structure OpS3 where
  d : BitVec 5
  a : BitVec 5
  o : BitVec 5
  deriving DecidableEq, Repr

/-- Operands of a transfer entry: `g` the SIG bit, `s` the signal register (R302). -/
structure OpE where
  d : BitVec 5
  a : BitVec 5
  b : BitVec 5
  g : Bool
  s : BitVec 5
  deriving DecidableEq, Repr

/-- The matrix operand fields of format X. -/
structure OpX where
  x : BitVec 4
  y : BitVec 4
  z : BitVec 4
  s : BitVec 3
  w : BitVec 8
  v : BitVec 2
  deriving DecidableEq, Repr

/-- What a host request uses beside a plain read or write: options that Table 23-2 does not list for it (R381). -/
inductive HostOpt
  | plain
  | atomicOp
  | ats
  | pasid
  | srIov
  | ide
  deriving DecidableEq, Repr

/-- How the host reads: `cached` tells whether it takes a copy (and whether to own it) under CXL. -/
structure HostRead where
  cached : Option Bool
  opt : HostOpt
  deriving DecidableEq, Repr

/-- How the host writes: through BAR2, or in its own caches. -/
structure HostWrite where
  cached : Bool
  opt : HostOpt
  deriving DecidableEq, Repr

/-- A line of a peer's memory and its granule's split level at the owner (R397). -/
structure PeerGranule where
  line : Nat
  level : Nat
  deriving DecidableEq, Repr

/-- A request for power in a cluster clock (R345). -/
inductive PowerReq
  /-- a core asks for the instruction it would issue; `stalled` are the slots (crew and slot number) whose sources are not ready
  in this cluster clock, or that the steal-cycle limit holds -/
  | core (core : Nat) (stalled : List (Nat × Nat))
  /-- a Miller context or Flume queue asks for its program's next instruction -/
  | word (eng : Nat)
  /-- a Flume queue asks to move so many units of 128 B of its oldest entry -/
  | move (eng units : Nat)
  deriving DecidableEq, Repr

/-- What a fabric peer asks of this package (R397, R398, R306). -/
inductive PeerReq
  | read (pa : Nat) (len : Nat)
  | write (pa : Nat) (bytes : List Byte)
  /-- an atomic of Table 15-5, numbered in its order, of 4, 8 or 16 bytes, with the requester's MODE -/
  | atomic (op bytes : Nat) (mode : BitVec 40) (pa d d2 : Nat)
  /-- rows by offset in the receiving allotment; the signal word's offset and generation -/
  | halo (key : Word) (team : Nat) (rows : List (Nat × List Byte)) (signal : Option (Nat × Nat))
  deriving DecidableEq, Repr

/-- Where in a core's unified store an error lies (R15). -/
inductive StorePlace
  | scratch (off : Nat)
  | line (ln : Nat)
  | register (crew reg : Nat)
  /-- an entry of a crew's divergence stack, counted from the top -/
  | stack (crew entry : Nat)
  /-- a linkage record of a crew, counted from the newest -/
  | link (crew entry : Nat)
  deriving DecidableEq, Repr

/-- One constructor for each row of spec/opcode_table.json. -/
inductive Instr
  -- structure and control (R126)
  | heat
  | heatJ
  | quench
  | br (p : BitVec 3) (i : Bool) (o : BitVec 21)
  | bra (a : BitVec 5)
  | brx (a : BitVec 5) (b : BitVec 5) (h : Bool)
  | call (k : BitVec 5) (o : BitVec 20)
  | callx (k : BitVec 5) (a : BitVec 5)
  | ret
  | exit
  | tret
  | slide (n : BitVec 20)
  | nop
  | yield
  | mode (i : BitVec 20)
  | modem (i : BitVec 20)
  | trap (c : BitVec 20)
  | brk (c : BitVec 20)
  | svc (c : BitVec 20)
  | launch (o : Op2)
  | fork (o : Op3)
  | rdv (o : Op2)
  -- vector integer (Table 9-4)
  | iadd (o : OpU)
  | iaddc (o : OpU)
  | isub (o : OpU)
  | isubb (o : OpU)
  | imin (o : OpU)
  | imax (o : OpU)
  | iabs (o : OpV)
  | ineg (o : OpV)
  | lea (o : OpU)
  | imul (o : OpU)
  | imulh (o : OpU)
  | imad (o : OpU)
  | imadw (o : OpU)
  | and (o : OpU)
  | or (o : OpU)
  | xor (o : OpU)
  | andn (o : OpU)
  | not (o : OpV)
  | sel (o : OpU)
  | shl (o : OpU)
  | shr (o : OpU)
  | sar (o : OpU)
  | rot (o : OpU)
  | popc (o : OpV)
  | clz (o : OpV)
  | brev (o : OpV)
  | bfx (o : OpU)
  | bfi (o : OpU)
  | icmp (c : Cond) (o : OpU)
  | mov (o : OpV)
  | movi (d : BitVec 5) (i : BitVec 20)
  | movh (d : BitVec 5) (i : BitVec 20)
  -- vector float (Table 11-1, Table 11-2)
  | fadd (o : OpU)
  | fsub (o : OpU)
  | fmul (o : OpU)
  | fmin (o : OpU)
  | fmax (o : OpU)
  | fabs (o : OpV)
  | fneg (o : OpV)
  | fcpys (o : OpU)
  | fscale (o : OpU)
  | frnd (o : OpV)
  | ffma (o : OpU)
  | ffms (o : OpU)
  | fdot2 (o : OpU)
  | fcmp (c : FCond) (o : OpU)
  | fclass (o : OpV)
  | frcp (o : OpL)
  | frsq (o : OpL)
  | fsqrt (o : OpL)
  | fdiv (o : OpLB)
  | fexp2 (o : OpL)
  | flog2 (o : OpL)
  | fsin (o : OpL)
  | fcos (o : OpL)
  | ftanh (o : OpL)
  -- conversion and tags
  | cvt (o : OpLB)
  | cvti (o : OpLB)
  | pack (o : OpV)
  | unpack (o : OpV)
  | tag (d : BitVec 5) (f : BitVec 5) (e : BitVec 3)
  | retag (o : OpV) (f : BitVec 5)
  | qscale (o : OpLB)
  | mxscale (o : OpLB)
  -- cross-lane
  | vote (op : VoteOp) (d : BitVec 5) (a : BitVec 5) (l : BitVec 4)
  | elect (d : BitVec 5) (l : BitVec 4)
  | matchLanes (d : BitVec 5) (a : BitVec 5) (l : BitVec 4)
  | shfl (m : ShflMode) (o : OpLB)
  | permset (d : BitVec 5) (a : BitVec 5) (l : BitVec 4)
  | perm (o : OpLB)
  | red (op : RedOp) (o : OpL)
  | scan (op : RedOp) (excl : Bool) (o : OpL)
  -- uniform (Table 9-6)
  | sadd (o : Op3)
  | ssub (o : Op3)
  | smul (o : Op3)
  | smulh (o : Op3)
  | sand (o : Op3)
  | sor (o : Op3)
  | sxor (o : Op3)
  | sshl (o : Op3)
  | sshr (o : Op3)
  | ssar (o : Op3)
  | smov (o : Op2)
  | ssel (o : Op3)
  | sbfx (o : Op3)
  | spopc (o : Op2)
  | scmp (c : Cond) (o : Op3)
  | smovi (d : BitVec 5) (i : BitVec 20)
  | smovh (d : BitVec 5) (i : BitVec 20)
  | srd (d : BitVec 5) (k : BitVec 2) (s : BitVec 8)
  | bcast (d : BitVec 5) (a : BitVec 5) (e : BitVec 3)
  | pick (o : OpPick)
  | pand (o : Op3)
  | por (o : Op3)
  | pxor (o : Op3)
  | pnot (o : Op2)
  | pmov (o : Op2)
  | pcnt (o : Op2)
  -- memory
  | ld (o : OpLd)
  | st (o : OpSt)
  | ldx (o : OpLdx)
  | stx (o : OpStx)
  | sld (o : OpSy) (sx : Bool) (z : BitVec 2)
  | sst (o : OpS3) (z : BitVec 2)
  | ldc (d : BitVec 5) (a : BitVec 5) (o : BitVec 5) (e : BitVec 3) (l : BitVec 4) (t : Bool)
  | pref (o : OpCache)
  | cflush (o : OpCache)
  | cinv (o : OpCache)
  | hint (o : OpCache)
  | aadd (o : OpAt)
  | afadd (o : OpAt)
  | amin (o : OpAt)
  | amax (o : OpAt)
  | aand (o : OpAt)
  | aor (o : OpAt)
  | axor (o : OpAt)
  | aswp (o : OpAt)
  | acas (o : OpAt)
  | acas2 (d : BitVec 5) (a : BitVec 5) (o : BitVec 5) (l : BitVec 4) (n : Bool) (k : Bool)
  -- synchronisation
  | fence
  | binit (o : OpS3)
  | arrive (o : OpSy)
  | arrivex (o : OpSy)
  | wait (o : OpS3)
  | twait (o : OpSy)
  | bar (a : BitVec 5) (o : BitVec 5)
  | strike (o : Op2)
  | mwait (o : OpSy) (w : Bool)
  -- matrix (Table 17-4)
  | mma (a t u : BitVec 4) (s : BitVec 3) (w : BitVec 8) (z r : Bool)
  | mzero (a : BitVec 4) (s : BitVec 3) (w : BitVec 8)
  | mscale (a t : BitVec 4) (s : BitVec 3) (w : BitVec 8) (v : BitVec 2)
  | msta (a t : BitVec 4) (s : BitVec 3) (w : BitVec 8) (z : Bool)
  | dwait (w : BitVec 8)
  | dwaitArm (n : BitVec 4) (s : BitVec 3)
  | mexit
  | gmode (a : BitVec 5)
  | tset (o : Op3)
  | tget (o : Op3)
  | aset (o : Op3)
  | take (a : BitVec 5)
  | give (a : BitVec 5)
  -- engines (Table 17-5)
  | cpy (o : OpE)
  | cpy2 (o : OpE)
  | halo (d a b : BitVec 5) (g : Bool)
  | gath (o : OpE)
  | scat (o : OpE)
  | fill (o : OpE)
  | coll (d : BitVec 5)
  | qfence (a : BitVec 5)
  | esig (d a : BitVec 5) (k : BitVec 3)
  | eloop (d : BitVec 5) (o : BitVec 10)
  | eend
  -- system
  | csrr (d : BitVec 5) (c : BitVec 10)
  | csrw (d : BitVec 5) (c : BitVec 10)
  | tlbi (a b : BitVec 5)
  | classPage (a b : BitVec 5)
  | pwrq (o : Op3)
  | ctxq (o : Op2)
  -- events of crews and their resources (spec/95)
  | longLatencyCompletion (crew : Nat) (bad : Bool) (line : Option Nat)
  | sluiceSpill (crew : Nat)
  | sluiceRefill (crew : Nat)
  | monitorWake (crew : Nat)
  | twaitLimitExpiry (crew : Nat)
  | grantRetry (crew : Nat)
  | reservationExpiry (res : Nat)
  | strikeClusterAdmission
  | wcbAgeingExpiry (core line : Nat)
  | splitLevelDecay (block : Nat)
  | migrationStep (die : Nat)
  | classConflict (die : Nat)
  | xOperationStart (eng op : Nat)
  | xOperationCompletion (eng op : Nat)
  | engineEntryCompletion (eng : Nat)
  | qfenceMatch (eng : Nat)
  | tokenWaitTimeout (eng op : Nat)
  | engineWaitTimeout (eng : Nat)
  | crewRetirement (crew : Nat)
  | teamRetirement (rcb team : Nat)
  | regionCompletion (rcb : Nat)
  | launchMessage (off : Nat) (msg : List DWord)
  | admission
  | nodeReady (rcb : Nat)
  | teamPlacement
  | apportioningChange (core : Nat)
  | priorityPreemption (die : Nat)
  | teamPreemption (rcb team : Nat)
  | contextImageWrite (rcb team : Nat)
  | teamResumption (rcb team : Nat)
  | deferredFaultPosting (fdom : Nat)
  -- commands and registers of the host
  | resume (fdom : BitVec 12) (seq : Word)
  | skip (fdom : BitVec 12) (seq : Word)
  | trapCommand (fdom : BitVec 12) (seq : Word)
  | abort
  | evict
  | admitTeams
  | shoot (fdom : BitVec 12) (seq : Word)
  | tevict (seq : Word)
  | lostClear (v : DWord)
  | registerWrite (off width : Nat) (v : DWord)
  | poolExtentMap (e : Nat) (v : DWord)
  | extentRelease (e : Nat) (v : DWord)
  | extentReleaseRequest (e : Nat)
  | extentRemoval (e : Nat)
  | poolFatalError (port : Bool)
  | hostRead (bar off len : Nat) (how : HostRead)
  | hostWrite (off : Nat) (bytes : List Byte) (how : HostWrite)
  | hostSnoop (line : Nat) (w : List (Nat × Byte)) (poison : Bool)
  | atomicopCompletion (crew : Nat) (failed : Word)
  | hostLinkDown
  -- fabric, power, management
  | portFence (p : Nat)
  | setAsideNotice (rank us : Nat)
  | setAsideRelease (rank : Nat)
  | setAsideExpiry (rank : Nat)
  | capabilityWord (p : Nat) (v : DWord)
  | slackReport (group : Nat) (peers : List (Nat × Nat))
  | paceUpdate (group : Nat)
  | groupEnd (group : Nat)
  | powerAllowanceWrite (cluster : Nat) (pwr : Bool) (v : DWord)
  | powerFloor (cluster : Nat)
  | starvationPromotion (crew slot : Nat)
  | energyInterval (cluster nj : Nat)
  | sliceRatioChange (cluster slice : Nat)
  | bankFailureMark (core bank : Nat)
  | treeCacheCut
  | deviceReset
  | phaseAdvance
  | linkTrainingTimeout (link : Nat)
  | firmwareUpdate (which : Nat) (image : List Byte) (sig : List Byte)
  | securityVersionRaise (version : Nat) (sig : List Byte)
  | mildenReset
  | getVersion
  | getCapabilities
  | negotiateAlgorithms (eddsa sha3 : Bool)
  | getDigests
  | getCertificate (slot off len : Nat)
  | challenge (nonce : List Byte)
  | getMeasurements (index : Nat) (nonce : List Byte)
  | unsupportedRequest (code : Nat)
  | allowanceRefill (cluster : Nat) (reqs : List PowerReq)
  | softError (core bank : Nat) (place : StorePlace)
  | hostPortTrained (cxl : Bool)
  | peerAccessRequest (rank : Nat) (req : PeerReq)
  | fabricTeardown (granule : PeerGranule) (w : List (Nat × Byte))
  | peerUnreachable (rank : Nat)
  deriving DecidableEq, Repr

end Sys2Proof
end

