-- ==== Sys2Proof/Decode.lean ====
section
/-! DEFINITION. Decoding an instruction word (R114, R117, R118, Tables 7-6 and 7-7, 9-1, 11-1, 11-2, 15-8, 17-4, 17-5)
and, after it, the encoder written from the same tables. A word the decoder refuses raises ILLEGAL at issue (R118);
which registers, blocks and predicates a decoded word may name is checked at issue as well (WellFormed.lean). -/

namespace Sys2Proof

/-- Why a word is no instruction. -/
inductive Reject
  /-- fewer than four bytes -/
  | short
  /-- a reserved major (Table 7-7) -/
  | major
  /-- a function, condition or sub-operation code that the major does not list -/
  | function
  /-- a reserved field is not zero -/
  | reserved
  deriving DecidableEq, Repr

/-- Bits `lo + n - 1` to `lo` of a word (R4). -/
def fld (w : Word) (lo n : Nat) : BitVec n := w.extractLsb' lo n

/-- The opcode, bits 31 to 25. -/
def opc (w : Word) : BitVec 7 := fld w 25 7

def fD (w : Word) : BitVec 5 := fld w 20 5
def fA (w : Word) : BitVec 5 := fld w 15 5
def fB (w : Word) : BitVec 5 := fld w 10 5
def fE (w : Word) : BitVec 3 := fld w 7 3
def fH (w : Word) : BitVec 2 := fld w 5 2
def fF (w : Word) : BitVec 5 := fld w 0 5
def fL (w : Word) : BitVec 4 := fld w 3 4
def fI (w : Word) : BitVec 20 := fld w 0 20
def bitOf (w : Word) (n : Nat) : Bool := (fld w n 1) == 1#1

def opU (w : Word) : OpU := ⟨fD w, fA w, fB w, fE w, fH w, bitOf w 4⟩
def opV (w : Word) : OpV := ⟨fD w, fA w, fE w, bitOf w 5⟩
def opL (w : Word) : OpL := ⟨fD w, fA w, fE w, fL w⟩
def opLB (w : Word) : OpLB := ⟨fD w, fA w, fB w, fE w, fL w⟩
def op3 (w : Word) : Op3 := ⟨fD w, fA w, fB w⟩
def op2 (w : Word) : Op2 := ⟨fD w, fA w⟩
def opAt (w : Word) : OpAt := ⟨fD w, fA w, fB w, fL w, bitOf w 2, bitOf w 1, bitOf w 0⟩
def opSy (w : Word) : OpSy := ⟨fD w, fA w, fB w, fL w⟩
def opS3 (w : Word) : OpS3 := ⟨fD w, fA w, fB w⟩
def opCache (w : Word) : OpCache := ⟨bitOf w 24, fld w 20 4, fA w, fB w⟩
def opE (w : Word) : OpE := ⟨fD w, fA w, fB w, bitOf w 5, fF w⟩

def memForm (f : BitVec 2) : MemForm :=
  match f.toNat with
  | 0 => .w
  | 1 => .t
  | 2 => .b8
  | _ => .b16

def redOp (f : BitVec 3) : RedOp :=
  match f.toNat with
  | 0 => .fadd
  | 1 => .fmin
  | 2 => .fmax
  | 3 => .iadd
  | 4 => .imin
  | 5 => .imax
  | 6 => .and
  | _ => .or

/-- `i`, when the fields the entry does not use are zero. -/
def need (c : Bool) (i : Instr) : Except Reject Instr := if c then .ok i else .error .reserved

/-- A word with one vector source: B, the B-kind bit and the B hold are zero (R111, R150, R171). -/
def needV (w : Word) (i : OpV → Instr) : Except Reject Instr :=
  need (fB w == 0 && !bitOf w 4 && !bitOf w 6) (i (opV w))

/-- A format-A word with the extent, hold and function bit 4 zero. -/
def needS (w : Word) (i : Instr) : Except Reject Instr := need (fld w 4 6 == 0) i

/-- As `needS`, with B zero too. -/
def needS2 (w : Word) (i : Instr) : Except Reject Instr := need (fld w 4 11 == 0) i

def cond (f : Nat) : Option Cond :=
  match f with
  | 0 => some .eq
  | 1 => some .ne
  | 2 => some .lt
  | 3 => some .le
  | 4 => some .gt
  | 5 => some .ge
  | _ => none

def fcond (f : Nat) : Option FCond :=
  match f with
  | 0 => some .eq
  | 1 => some .ne
  | 2 => some .lt
  | 3 => some .le
  | 4 => some .gt
  | 5 => some .ge
  | 6 => some .un
  | _ => none

/-- Majors 0x01 to 0x0F (Table 9-1). -/
def decodeControl (w : Word) : Except Reject Instr :=
  match (opc w).toNat with
  | 0x01 =>
    match (fD w).toNat with
    | 0 => need (fI w == 0) .heat
    | 1 => need (fI w == 0) .heatJ
    | _ => .error .function
  | 0x02 => need (fld w 0 25 == 0) .quench
  | 0x03 => .ok (.br (fld w 22 3) (bitOf w 21) (fld w 0 21))
  | 0x04 => need (fD w == 0 && fld w 0 15 == 0) (.bra (fA w))
  | 0x05 => need (fD w == 0 && fld w 7 3 == 0 && fld w 0 6 == 0) (.brx (fA w) (fB w) (bitOf w 6))
  | 0x06 => .ok (.call (fD w) (fI w))
  | 0x07 => need (fld w 0 15 == 0) (.callx (fD w) (fA w))
  | 0x08 =>
    match (fF w).toNat with
    | 0 => need (fld w 5 20 == 0) .ret
    | 1 => need (fld w 5 20 == 0) .exit
    | 2 => need (fld w 5 20 == 0) .tret
    | _ => .error .function
  | 0x09 => need (fD w == 0) (.slide (fI w))
  | 0x0A =>
    match (fF w).toNat with
    | 0 => need (fld w 5 20 == 0) .nop
    | 1 => need (fld w 5 20 == 0) .yield
    | _ => .error .function
  | 0x0B => need (fD w == 0) (.mode (fI w))
  | 0x0C => need (fD w == 0) (.modem (fI w))
  | 0x0D =>
    match (fD w).toNat with
    | 0 => .ok (.trap (fI w))
    | 1 => .ok (.brk (fI w))
    | 2 => .ok (.svc (fI w))
    | _ => .error .function
  | 0x0E => need (fld w 0 15 == 0) (.launch (op2 w))
  | 0x0F =>
    match (fF w).toNat with
    | 0 => need (fld w 5 5 == 0) (.fork (op3 w))
    | 1 => need (fld w 5 10 == 0) (.rdv (op2 w))
    | _ => .error .function
  | _ => .error .major

/-- Majors 0x10 to 0x18 (Table 9-4, R156). -/
def decodeInteger (w : Word) : Except Reject Instr :=
  let fn := (fld w 0 4).toNat
  match (opc w).toNat with
  | 0x10 =>
    match fn with
    | 0 => .ok (.iadd (opU w))
    | 1 => .ok (.iaddc (opU w))
    | 2 => .ok (.isub (opU w))
    | 3 => .ok (.isubb (opU w))
    | 4 => .ok (.imin (opU w))
    | 5 => .ok (.imax (opU w))
    | 6 => needV w .iabs
    | 7 => needV w .ineg
    | 8 => .ok (.lea (opU w))
    | _ => .error .function
  | 0x11 =>
    match fn with
    | 0 => .ok (.imul (opU w))
    | 1 => .ok (.imulh (opU w))
    | 2 => .ok (.imad (opU w))
    | 3 => .ok (.imadw (opU w))
    | _ => .error .function
  | 0x12 =>
    match fn with
    | 0 => .ok (.and (opU w))
    | 1 => .ok (.or (opU w))
    | 2 => .ok (.xor (opU w))
    | 3 => .ok (.andn (opU w))
    | 4 => needV w .not
    | 5 => .ok (.sel (opU w))
    | _ => .error .function
  | 0x13 =>
    match fn with
    | 0 => .ok (.shl (opU w))
    | 1 => .ok (.shr (opU w))
    | 2 => .ok (.sar (opU w))
    | 3 => .ok (.rot (opU w))
    | 4 => needV w .popc
    | 5 => needV w .clz
    | 6 => needV w .brev
    | _ => .error .function
  | 0x14 =>
    match fn with
    | 0 => .ok (.bfx (opU w))
    | 1 => .ok (.bfi (opU w))
    | _ => .error .function
  | 0x15 =>
    match cond fn with
    | some c => .ok (.icmp c (opU w))
    | none => .error .function
  | 0x16 => if fn = 0 then needV w .mov else .error .function
  | 0x17 => .ok (.movi (fD w) (fI w))
  | 0x18 => .ok (.movh (fD w) (fI w))
  | _ => .error .major

/-- Majors 0x19 to 0x21 (Tables 11-1 and 11-2, R180 to R187). -/
def decodeFloat (w : Word) : Except Reject Instr :=
  let fn := (fld w 0 4).toNat
  let f3 := (fld w 0 3).toNat
  let one : (OpL → Instr) → Except Reject Instr := fun i => need (fB w == 0) (i (opL w))
  match (opc w).toNat with
  | 0x19 =>
    match fn with
    | 0 => .ok (.fadd (opU w))
    | 1 => .ok (.fsub (opU w))
    | 2 => .ok (.fmul (opU w))
    | 3 => .ok (.fmin (opU w))
    | 4 => .ok (.fmax (opU w))
    | 5 => needV w .fabs
    | 6 => needV w .fneg
    | 7 => .ok (.fcpys (opU w))
    | 8 => .ok (.fscale (opU w))
    | 9 => needV w .frnd
    | _ => .error .function
  | 0x1A =>
    match fn with
    | 0 => .ok (.ffma (opU w))
    | 1 => .ok (.ffms (opU w))
    | 2 => .ok (.fdot2 (opU w))
    | _ => .error .function
  | 0x1B =>
    match fcond fn with
    | some c => .ok (.fcmp c (opU w))
    | none => if fn = 8 then needV w .fclass else .error .function
  | 0x1C =>
    match f3 with
    | 0 => one .frcp
    | 1 => one .frsq
    | 2 => one .fsqrt
    | 3 => .ok (.fdiv (opLB w))
    | _ => .error .function
  | 0x1D =>
    match f3 with
    | 0 => one .fexp2
    | 1 => one .flog2
    | 2 => one .fsin
    | 3 => one .fcos
    | 4 => one .ftanh
    | _ => .error .function
  | 0x1E =>
    match f3 with
    | 0 => .ok (.cvt (opLB w))
    | 1 => .ok (.cvti (opLB w))
    | _ => .error .function
  | 0x1F =>
    match (fF w).toNat with
    | 0 => needV w .pack
    | 1 => needV w .unpack
    | _ => .error .function
  | 0x20 =>
    match (fF w).toNat with
    | 0 => need (fB w == 0 && fH w == 0) (.tag (fD w) (fA w) (fE w))
    | 1 => need (!bitOf w 6) (.retag (opV w) (fB w))
    | _ => .error .function
  | 0x21 =>
    match f3 with
    | 0 => .ok (.qscale (opLB w))
    | 1 => .ok (.mxscale (opLB w))
    | _ => .error .function
  | _ => .error .major

/-- Majors 0x22 to 0x26 (R189 to R196). -/
def decodeCross (w : Word) : Except Reject Instr :=
  let f3 := (fld w 0 3).toNat
  match (opc w).toNat with
  | 0x22 =>
    match f3 with
    | 0 =>
      match (fB w).toNat with
      | 0 => need (fE w == 0) (.vote .ballot (fD w) (fA w) (fL w))
      | 1 => need (fE w == 0) (.vote .any (fD w) (fA w) (fL w))
      | 2 => need (fE w == 0) (.vote .all (fD w) (fA w) (fL w))
      | 3 => need (fE w == 0) (.vote .uni (fD w) (fA w) (fL w))
      | _ => .error .function
    | 1 => need (fA w == 0 && fB w == 0 && fE w == 0) (.elect (fD w) (fL w))
    | 2 => need (fB w == 0 && fE w == 0) (.matchLanes (fD w) (fA w) (fL w))
    | _ => .error .function
  | 0x23 =>
    match f3 with
    | 0 => .ok (.shfl .idx (opLB w))
    | 1 => .ok (.shfl .up (opLB w))
    | 2 => .ok (.shfl .down (opLB w))
    | 3 => .ok (.shfl .xor (opLB w))
    | _ => .error .function
  | 0x24 =>
    match f3 with
    | 0 => need (fB w == 0 && fE w == 0) (.permset (fD w) (fA w) (fL w))
    | 1 => .ok (.perm (opLB w))
    | _ => .error .function
  | 0x25 => need (fB w == 0) (.red (redOp (fld w 0 3)) (opL w))
  | 0x26 =>
    match (fB w).toNat with
    | 0 => .ok (.scan (redOp (fld w 0 3)) false (opL w))
    | 1 => .ok (.scan (redOp (fld w 0 3)) true (opL w))
    | _ => .error .function
  | _ => .error .major

/-- Majors 0x28 to 0x2E (Tables 9-6 to 9-9). -/
def decodeUniform (w : Word) : Except Reject Instr :=
  let fn := (fld w 0 4).toNat
  match (opc w).toNat with
  | 0x28 =>
    match fn with
    | 0 => needS w (.sadd (op3 w))
    | 1 => needS w (.ssub (op3 w))
    | 2 => needS w (.smul (op3 w))
    | 3 => needS w (.smulh (op3 w))
    | 4 => needS w (.sand (op3 w))
    | 5 => needS w (.sor (op3 w))
    | 6 => needS w (.sxor (op3 w))
    | 7 => needS w (.sshl (op3 w))
    | 8 => needS w (.sshr (op3 w))
    | 9 => needS w (.ssar (op3 w))
    | 10 => needS2 w (.smov (op2 w))
    | 11 => needS w (.ssel (op3 w))
    | 12 => needS w (.sbfx (op3 w))
    | 13 => needS2 w (.spopc (op2 w))
    | _ => .error .function
  | 0x29 =>
    match cond fn with
    | some c => needS w (.scmp c (op3 w))
    | none => .error .function
  | 0x2A => .ok (.smovi (fD w) (fI w))
  | 0x2B => .ok (.smovh (fD w) (fI w))
  | 0x2C => need (fld w 8 10 == 0) (.srd (fD w) (fld w 18 2) (fld w 0 8))
  | 0x2D =>
    match fn with
    | 0 => need (fB w == 0 && fH w == 0 && !bitOf w 4) (.bcast (fD w) (fA w) (fE w))
    | 1 => need (fE w == 0 && !bitOf w 6 && !bitOf w 4) (.pick ⟨fD w, fA w, fB w, bitOf w 5⟩)
    | _ => .error .function
  | 0x2E =>
    match fn with
    | 0 => needS w (.pand (op3 w))
    | 1 => needS w (.por (op3 w))
    | 2 => needS w (.pxor (op3 w))
    | 3 => needS2 w (.pnot (op2 w))
    | 4 => needS2 w (.pmov (op2 w))
    | 5 => needS2 w (.pcnt (op2 w))
    | _ => .error .function
  | _ => .error .major

/-- Majors 0x30 to 0x47 (Tables 15-2, 15-4, 15-5, 15-8). -/
def decodeMemory (w : Word) : Except Reject Instr :=
  let at_ : (OpAt → Instr) → Except Reject Instr := fun i => need (fE w == 0) (i (opAt w))
  match (opc w).toNat with
  | 0x30 => .ok (.ld ⟨fD w, fA w, fB w, fE w, fL w, bitOf w 2, memForm (fld w 0 2)⟩)
  | 0x31 => need (fL w == 0) (.st ⟨fD w, fA w, fB w, fE w, bitOf w 2, memForm (fld w 0 2)⟩)
  | 0x32 => .ok (.ldx ⟨fD w, fA w, fB w, fE w, fL w, bitOf w 2, bitOf w 1, bitOf w 0⟩)
  | 0x33 => need (fL w == 0) (.stx ⟨fD w, fA w, fB w, fE w, bitOf w 2, bitOf w 1, bitOf w 0⟩)
  | 0x34 => need (fE w == 0) (.sld (opSy w) (bitOf w 2) (fld w 0 2))
  | 0x35 => need (fE w == 0 && fL w == 0 && !bitOf w 2) (.sst (opS3 w) (fld w 0 2))
  | 0x36 => need (fld w 1 2 == 0) (.ldc (fD w) (fA w) (fB w) (fE w) (fL w) (bitOf w 0))
  | 0x37 =>
    match (fld w 0 3).toNat with
    | 0 => need (fE w == 0 && fL w == 0) (.pref (opCache w))
    | 1 => need (fE w == 0 && fL w == 0) (.cflush (opCache w))
    | 2 => need (fE w == 0 && fL w == 0) (.cinv (opCache w))
    | 3 => need (fE w == 0 && fL w == 0) (.hint (opCache w))
    | _ => .error .function
  | 0x38 => at_ .aadd
  | 0x39 => at_ .afadd
  | 0x3A => at_ .amin
  | 0x3B => at_ .amax
  | 0x3C => at_ .aand
  | 0x3D => at_ .aor
  | 0x3E => at_ .axor
  | 0x3F => at_ .aswp
  | 0x40 => at_ .acas
  | 0x41 => need (fE w == 0 && !bitOf w 0) (.acas2 (fD w) (fA w) (fB w) (fL w) (bitOf w 2) (bitOf w 1))
  | 0x42 => need (fld w 0 25 == 0) .fence
  | 0x43 => need (fld w 0 10 == 0) (.binit (opS3 w))
  | 0x44 =>
    match (fld w 0 3).toNat with
    | 0 => need (fE w == 0) (.arrive (opSy w))
    | 1 => need (fE w == 0) (.arrivex (opSy w))
    | _ => .error .function
  | 0x45 =>
    match (fld w 0 3).toNat with
    | 0 => need (fE w == 0 && fL w == 0) (.wait (opS3 w))
    | 1 => need (fE w == 0) (.twait (opSy w))
    | 2 => need (fD w == 0 && fE w == 0 && fL w == 0) (.bar (fA w) (fB w))
    | _ => .error .function
  | 0x46 => need (fld w 0 15 == 0) (.strike (op2 w))
  | 0x47 => need (fE w == 0 && fld w 1 2 == 0) (.mwait (opSy w) (bitOf w 0))
  | _ => .error .major

/-- Majors 0x50 to 0x58 (Table 17-4, R281, R293, R294). -/
def decodeMatrix (w : Word) : Except Reject Instr :=
  let x : BitVec 4 := fld w 21 4
  let y : BitVec 4 := fld w 17 4
  let z : BitVec 4 := fld w 13 4
  let s : BitVec 3 := fld w 10 3
  let m : BitVec 8 := fld w 2 8
  let v : BitVec 2 := fld w 0 2
  match (opc w).toNat with
  | 0x50 => .ok (.mma x y z s m (bitOf w 1) (bitOf w 0))
  | 0x51 => need (y == 0 && z == 0 && v == 0) (.mzero x s m)
  | 0x52 => if v.toNat = 3 then .error .function else need (z == 0) (.mscale x y s m v)
  | 0x53 => need (z == 0 && !bitOf w 1) (.msta x y s m (bitOf w 0))
  | 0x54 =>
    match v.toNat with
    | 0 => need (x == 0 && y == 0 && z == 0 && s == 0) (.dwait m)
    | 1 => need (y == 0 && z == 0 && m == 0) (.dwaitArm x s)
    | _ => .error .function
  | 0x55 => need (fld w 0 25 == 0) .mexit
  | 0x56 => need (fD w == 0 && fld w 0 15 == 0) (.gmode (fA w))
  | 0x57 =>
    match (fF w).toNat with
    | 0 => need (fld w 5 5 == 0) (.tset (op3 w))
    | 1 => need (fld w 5 5 == 0) (.tget (op3 w))
    | 2 => need (fld w 5 5 == 0) (.aset (op3 w))
    | _ => .error .function
  | 0x58 =>
    match (fF w).toNat with
    | 0 => need (fD w == 0 && fld w 5 10 == 0) (.take (fA w))
    | 1 => need (fD w == 0 && fld w 5 10 == 0) (.give (fA w))
    | _ => .error .function
  | _ => .error .major

/-- Majors 0x60 to 0x75 (Table 17-5, R313 to R318). -/
def decodeEngine (w : Word) : Except Reject Instr :=
  let tr : (OpE → Instr) → Except Reject Instr := fun i => need (fld w 6 4 == 0) (i (opE w))
  match (opc w).toNat with
  | 0x60 => tr .cpy
  | 0x61 => tr .cpy2
  | 0x62 => need (fld w 6 4 == 0 && fld w 0 5 == 0) (.halo (fD w) (fA w) (fB w) (bitOf w 5))
  | 0x63 => tr .gath
  | 0x64 => tr .scat
  | 0x65 => tr .fill
  | 0x66 => need (fld w 0 20 == 0) (.coll (fD w))
  | 0x67 => need (fD w == 0 && fld w 0 15 == 0) (.qfence (fA w))
  | 0x68 => need (fld w 3 12 == 0) (.esig (fD w) (fA w) (fld w 0 3))
  | 0x69 => need (fld w 10 10 == 0) (.eloop (fD w) (fld w 0 10))
  | 0x6A => need (fld w 0 25 == 0) .eend
  | 0x70 => need (fld w 0 10 == 0) (.csrr (fD w) (fld w 10 10))
  | 0x71 => need (fld w 0 10 == 0) (.csrw (fD w) (fld w 10 10))
  | 0x72 => need (fD w == 0 && fld w 0 10 == 0) (.tlbi (fA w) (fB w))
  | 0x73 => need (fD w == 0 && fld w 0 10 == 0) (.classPage (fA w) (fB w))
  | 0x74 => need (fld w 0 10 == 0) (.pwrq (op3 w))
  | 0x75 => need (fld w 0 15 == 0) (.ctxq (op2 w))
  | _ => .error .major

/-- The instruction a word holds, or why it holds none. -/
def decodeWord (w : Word) : Except Reject Instr :=
  let n := (opc w).toNat
  if n < 0x10 then decodeControl w
  else if n < 0x19 then decodeInteger w
  else if n < 0x22 then decodeFloat w
  else if n < 0x28 then decodeCross w
  else if n < 0x30 then decodeUniform w
  else if n < 0x50 then decodeMemory w
  else if n < 0x60 then decodeMatrix w
  else decodeEngine w

/-- Four bytes as a word, the byte at the lowest address first (R4). -/
def wordOfBytes (b0 b1 b2 b3 : Byte) : Word := b3 ++ b2 ++ b1 ++ b0

/-- The instruction at the head of a list of bytes. -/
def decode (bs : List Byte) : Except Reject Instr :=
  match bs with
  | b0 :: b1 :: b2 :: b3 :: _ => decodeWord (wordOfBytes b0 b1 b2 b3)
  | _ => .error .short

/-- The little-endian bytes of a number. -/
def leBytes : Nat → Nat → List Byte
  | 0, _ => []
  | n + 1, v => BitVec.ofNat 8 v :: leBytes n (v / 256)

/-- The decoder on a row of the opcode table, its bits numbered from the first word's bit 0. -/
def decodeTableWord (_nbits w : Nat) : Option Instr :=
  match decode (leBytes 4 w) with
  | .ok i => some i
  | .error _ => none

-- The encoder.

/-- Format A of Table 7-6. -/
def packA (op : BitVec 7) (d a b : BitVec 5) (e : BitVec 3) (h : BitVec 2) (f : BitVec 5) : Word :=
  op ++ d ++ a ++ b ++ e ++ h ++ f

/-- Formats L and M. -/
def packL (op : BitVec 7) (d a b : BitVec 5) (e : BitVec 3) (l : BitVec 4) (f : BitVec 3) : Word :=
  op ++ d ++ a ++ b ++ e ++ l ++ f

/-- Format I. -/
def packI (op : BitVec 7) (d : BitVec 5) (i : BitVec 20) : Word := op ++ d ++ i

/-- Format J. -/
def packJ (op : BitVec 7) (p : BitVec 3) (i : Bool) (o : BitVec 21) : Word :=
  op ++ p ++ BitVec.ofBool i ++ o

/-- Format X. -/
def packX (op : BitVec 7) (x y z : BitVec 4) (s : BitVec 3) (m : BitVec 8) (v : BitVec 2) : Word :=
  op ++ x ++ y ++ z ++ s ++ m ++ v

/-- Format E. -/
def packE (op : BitVec 7) (d a b : BitVec 5) (i : BitVec 10) : Word := op ++ d ++ a ++ b ++ i

/-- A word of a U major: function bits 3 to 0 in `f`. -/
def encU (op : BitVec 7) (f : BitVec 4) (o : OpU) : Word :=
  packA op o.d o.a o.b o.e o.h (BitVec.ofBool o.k ++ f)

def encV (op : BitVec 7) (f : BitVec 4) (o : OpV) : Word :=
  packA op o.d o.a 0 o.e (0#1 ++ BitVec.ofBool o.h) (0#1 ++ f)

def encL (op : BitVec 7) (f : BitVec 3) (o : OpL) : Word := packL op o.d o.a 0 o.e o.l f

def encLB (op : BitVec 7) (f : BitVec 3) (o : OpLB) : Word := packL op o.d o.a o.b o.e o.l f

def enc3 (op : BitVec 7) (f : BitVec 5) (o : Op3) : Word := packA op o.d o.a o.b 0 0 f

def enc2 (op : BitVec 7) (f : BitVec 5) (o : Op2) : Word := packA op o.d o.a 0 0 0 f

def encAt (op : BitVec 7) (o : OpAt) : Word :=
  packL op o.d o.a o.o 0 o.l (BitVec.ofBool o.n ++ BitVec.ofBool o.k ++ BitVec.ofBool o.w)

def encSy (op : BitVec 7) (f : BitVec 3) (o : OpSy) : Word := packL op o.d o.a o.o 0 o.l f

def encCache (f : BitVec 3) (o : OpCache) : Word :=
  packL 0x37 (BitVec.ofBool o.k ++ o.s) o.a o.o 0 0 f

def encE (op : BitVec 7) (o : OpE) : Word :=
  packE op o.d o.a o.b (0#4 ++ BitVec.ofBool o.g ++ o.s)

def condCode (c : Cond) : BitVec 4 :=
  match c with
  | .eq => 0
  | .ne => 1
  | .lt => 2
  | .le => 3
  | .gt => 4
  | .ge => 5

def fcondCode (c : FCond) : BitVec 4 :=
  match c with
  | .eq => 0
  | .ne => 1
  | .lt => 2
  | .le => 3
  | .gt => 4
  | .ge => 5
  | .un => 6

def voteCode (o : VoteOp) : BitVec 5 :=
  match o with
  | .ballot => 0
  | .any => 1
  | .all => 2
  | .uni => 3

def shflCode (o : ShflMode) : BitVec 3 :=
  match o with
  | .idx => 0
  | .up => 1
  | .down => 2
  | .xor => 3

def redCode (o : RedOp) : BitVec 3 :=
  match o with
  | .fadd => 0
  | .fmin => 1
  | .fmax => 2
  | .iadd => 3
  | .imin => 4
  | .imax => 5
  | .and => 6
  | .or => 7

def formCode (f : MemForm) : BitVec 2 :=
  match f with
  | .w => 0
  | .t => 1
  | .b8 => 2
  | .b16 => 3

/-- The word of an instruction; the events of the table have none. -/
def encode (i : Instr) : Option Word :=
  match i with
  | .heat => some (packI 0x01 0 0)
  | .heatJ => some (packI 0x01 1 0)
  | .quench => some (packI 0x02 0 0)
  | .br p i o => some (packJ 0x03 p i o)
  | .bra a => some (packA 0x04 0 a 0 0 0 0)
  | .brx a b h => some (packA 0x05 0 a b 0 (BitVec.ofBool h ++ 0#1) 0)
  | .call k o => some (packI 0x06 k o)
  | .callx k a => some (packA 0x07 k a 0 0 0 0)
  | .ret => some (packA 0x08 0 0 0 0 0 0)
  | .exit => some (packA 0x08 0 0 0 0 0 1)
  | .tret => some (packA 0x08 0 0 0 0 0 2)
  | .slide n => some (packI 0x09 0 n)
  | .nop => some (packA 0x0A 0 0 0 0 0 0)
  | .yield => some (packA 0x0A 0 0 0 0 0 1)
  | .mode i => some (packI 0x0B 0 i)
  | .modem i => some (packI 0x0C 0 i)
  | .trap c => some (packI 0x0D 0 c)
  | .brk c => some (packI 0x0D 1 c)
  | .svc c => some (packI 0x0D 2 c)
  | .launch o => some (enc2 0x0E 0 o)
  | .fork o => some (enc3 0x0F 0 o)
  | .rdv o => some (enc2 0x0F 1 o)
  | .iadd o => some (encU 0x10 0 o)
  | .iaddc o => some (encU 0x10 1 o)
  | .isub o => some (encU 0x10 2 o)
  | .isubb o => some (encU 0x10 3 o)
  | .imin o => some (encU 0x10 4 o)
  | .imax o => some (encU 0x10 5 o)
  | .iabs o => some (encV 0x10 6 o)
  | .ineg o => some (encV 0x10 7 o)
  | .lea o => some (encU 0x10 8 o)
  | .imul o => some (encU 0x11 0 o)
  | .imulh o => some (encU 0x11 1 o)
  | .imad o => some (encU 0x11 2 o)
  | .imadw o => some (encU 0x11 3 o)
  | .and o => some (encU 0x12 0 o)
  | .or o => some (encU 0x12 1 o)
  | .xor o => some (encU 0x12 2 o)
  | .andn o => some (encU 0x12 3 o)
  | .not o => some (encV 0x12 4 o)
  | .sel o => some (encU 0x12 5 o)
  | .shl o => some (encU 0x13 0 o)
  | .shr o => some (encU 0x13 1 o)
  | .sar o => some (encU 0x13 2 o)
  | .rot o => some (encU 0x13 3 o)
  | .popc o => some (encV 0x13 4 o)
  | .clz o => some (encV 0x13 5 o)
  | .brev o => some (encV 0x13 6 o)
  | .bfx o => some (encU 0x14 0 o)
  | .bfi o => some (encU 0x14 1 o)
  | .icmp c o => some (encU 0x15 (condCode c) o)
  | .mov o => some (encV 0x16 0 o)
  | .movi d i => some (packI 0x17 d i)
  | .movh d i => some (packI 0x18 d i)
  | .fadd o => some (encU 0x19 0 o)
  | .fsub o => some (encU 0x19 1 o)
  | .fmul o => some (encU 0x19 2 o)
  | .fmin o => some (encU 0x19 3 o)
  | .fmax o => some (encU 0x19 4 o)
  | .fabs o => some (encV 0x19 5 o)
  | .fneg o => some (encV 0x19 6 o)
  | .fcpys o => some (encU 0x19 7 o)
  | .fscale o => some (encU 0x19 8 o)
  | .frnd o => some (encV 0x19 9 o)
  | .ffma o => some (encU 0x1A 0 o)
  | .ffms o => some (encU 0x1A 1 o)
  | .fdot2 o => some (encU 0x1A 2 o)
  | .fcmp c o => some (encU 0x1B (fcondCode c) o)
  | .fclass o => some (encV 0x1B 8 o)
  | .frcp o => some (encL 0x1C 0 o)
  | .frsq o => some (encL 0x1C 1 o)
  | .fsqrt o => some (encL 0x1C 2 o)
  | .fdiv o => some (encLB 0x1C 3 o)
  | .fexp2 o => some (encL 0x1D 0 o)
  | .flog2 o => some (encL 0x1D 1 o)
  | .fsin o => some (encL 0x1D 2 o)
  | .fcos o => some (encL 0x1D 3 o)
  | .ftanh o => some (encL 0x1D 4 o)
  | .cvt o => some (encLB 0x1E 0 o)
  | .cvti o => some (encLB 0x1E 1 o)
  | .pack o => some (encV 0x1F 0 o)
  | .unpack o => some (encV 0x1F 1 o)
  | .tag d f e => some (packA 0x20 d f 0 e 0 0)
  | .retag o f => some (packA 0x20 o.d o.a f o.e (0#1 ++ BitVec.ofBool o.h) 1)
  | .qscale o => some (encLB 0x21 0 o)
  | .mxscale o => some (encLB 0x21 1 o)
  | .vote op d a l => some (packL 0x22 d a (voteCode op) 0 l 0)
  | .elect d l => some (packL 0x22 d 0 0 0 l 1)
  | .matchLanes d a l => some (packL 0x22 d a 0 0 l 2)
  | .shfl m o => some (encLB 0x23 (shflCode m) o)
  | .permset d a l => some (packL 0x24 d a 0 0 l 0)
  | .perm o => some (encLB 0x24 1 o)
  | .red op o => some (encL 0x25 (redCode op) o)
  | .scan op x o => some (packL 0x26 o.d o.a (0#4 ++ BitVec.ofBool x) o.e o.l (redCode op))
  | .sadd o => some (enc3 0x28 0 o)
  | .ssub o => some (enc3 0x28 1 o)
  | .smul o => some (enc3 0x28 2 o)
  | .smulh o => some (enc3 0x28 3 o)
  | .sand o => some (enc3 0x28 4 o)
  | .sor o => some (enc3 0x28 5 o)
  | .sxor o => some (enc3 0x28 6 o)
  | .sshl o => some (enc3 0x28 7 o)
  | .sshr o => some (enc3 0x28 8 o)
  | .ssar o => some (enc3 0x28 9 o)
  | .smov o => some (enc2 0x28 10 o)
  | .ssel o => some (enc3 0x28 11 o)
  | .sbfx o => some (enc3 0x28 12 o)
  | .spopc o => some (enc2 0x28 13 o)
  | .scmp c o => some (enc3 0x29 (0#1 ++ condCode c) o)
  | .smovi d i => some (packI 0x2A d i)
  | .smovh d i => some (packI 0x2B d i)
  | .srd d k s => some (packI 0x2C d (k ++ 0#10 ++ s))
  | .bcast d a e => some (packA 0x2D d a 0 e 0 0)
  | .pick o => some (packA 0x2D o.d o.a o.b 0 (0#1 ++ BitVec.ofBool o.h) 1)
  | .pand o => some (enc3 0x2E 0 o)
  | .por o => some (enc3 0x2E 1 o)
  | .pxor o => some (enc3 0x2E 2 o)
  | .pnot o => some (enc2 0x2E 3 o)
  | .pmov o => some (enc2 0x2E 4 o)
  | .pcnt o => some (enc2 0x2E 5 o)
  | .ld o => some (packL 0x30 o.d o.a o.o o.e o.l (BitVec.ofBool o.k ++ formCode o.f))
  | .st o => some (packL 0x31 o.d o.a o.o o.e 0 (BitVec.ofBool o.k ++ formCode o.f))
  | .ldx o => some (packL 0x32 o.d o.a o.o o.e o.l (BitVec.ofBool o.k ++ BitVec.ofBool o.t ++ BitVec.ofBool o.f))
  | .stx o => some (packL 0x33 o.d o.a o.o o.e 0 (BitVec.ofBool o.k ++ BitVec.ofBool o.t ++ BitVec.ofBool o.f))
  | .sld o sx z => some (encSy 0x34 (BitVec.ofBool sx ++ z) o)
  | .sst o z => some (packL 0x35 o.d o.a o.o 0 0 (0#1 ++ z))
  | .ldc d a o e l t => some (packL 0x36 d a o e l (0#2 ++ BitVec.ofBool t))
  | .pref o => some (encCache 0 o)
  | .cflush o => some (encCache 1 o)
  | .cinv o => some (encCache 2 o)
  | .hint o => some (encCache 3 o)
  | .aadd o => some (encAt 0x38 o)
  | .afadd o => some (encAt 0x39 o)
  | .amin o => some (encAt 0x3A o)
  | .amax o => some (encAt 0x3B o)
  | .aand o => some (encAt 0x3C o)
  | .aor o => some (encAt 0x3D o)
  | .axor o => some (encAt 0x3E o)
  | .aswp o => some (encAt 0x3F o)
  | .acas o => some (encAt 0x40 o)
  | .acas2 d a o l n k => some (packL 0x41 d a o 0 l (BitVec.ofBool n ++ BitVec.ofBool k ++ 0#1))
  | .fence => some (packA 0x42 0 0 0 0 0 0)
  | .binit o => some (packL 0x43 o.d o.a o.o 0 0 0)
  | .arrive o => some (encSy 0x44 0 o)
  | .arrivex o => some (encSy 0x44 1 o)
  | .wait o => some (packL 0x45 o.d o.a o.o 0 0 0)
  | .twait o => some (encSy 0x45 1 o)
  | .bar a o => some (packL 0x45 0 a o 0 0 2)
  | .strike o => some (enc2 0x46 0 o)
  | .mwait o w => some (encSy 0x47 (0#2 ++ BitVec.ofBool w) o)
  | .mma a t u s w z r => some (packX 0x50 a t u s w (BitVec.ofBool z ++ BitVec.ofBool r))
  | .mzero a s w => some (packX 0x51 a 0 0 s w 0)
  | .mscale a t s w v => some (packX 0x52 a t 0 s w v)
  | .msta a t s w z => some (packX 0x53 a t 0 s w (0#1 ++ BitVec.ofBool z))
  | .dwait w => some (packX 0x54 0 0 0 0 w 0)
  | .dwaitArm n s => some (packX 0x54 n 0 0 s 0 1)
  | .mexit => some (packX 0x55 0 0 0 0 0 0)
  | .gmode a => some (packA 0x56 0 a 0 0 0 0)
  | .tset o => some (enc3 0x57 0 o)
  | .tget o => some (enc3 0x57 1 o)
  | .aset o => some (enc3 0x57 2 o)
  | .take a => some (packA 0x58 0 a 0 0 0 0)
  | .give a => some (packA 0x58 0 a 0 0 0 1)
  | .cpy o => some (encE 0x60 o)
  | .cpy2 o => some (encE 0x61 o)
  | .halo d a b g => some (packE 0x62 d a b (0#4 ++ BitVec.ofBool g ++ 0#5))
  | .gath o => some (encE 0x63 o)
  | .scat o => some (encE 0x64 o)
  | .fill o => some (encE 0x65 o)
  | .coll d => some (packE 0x66 d 0 0 0)
  | .qfence a => some (packE 0x67 0 a 0 0)
  | .esig d a k => some (packE 0x68 d a 0 (0#7 ++ k))
  | .eloop d o => some (packE 0x69 d 0 0 o)
  | .eend => some (packE 0x6A 0 0 0 0)
  | .csrr d c => some (0x70#7 ++ d ++ c ++ 0#10)
  | .csrw d c => some (0x71#7 ++ d ++ c ++ 0#10)
  | .tlbi a b => some (packA 0x72 0 a b 0 0 0)
  | .classPage a b => some (packA 0x73 0 a b 0 0 0)
  | .pwrq o => some (enc3 0x74 0 o)
  | .ctxq o => some (enc2 0x75 0 o)
  | .longLatencyCompletion _ _ _ => none
  | .sluiceSpill _ => none
  | .sluiceRefill _ => none
  | .monitorWake _ => none
  | .twaitLimitExpiry _ => none
  | .grantRetry _ => none
  | .reservationExpiry _ => none
  | .strikeClusterAdmission => none
  | .wcbAgeingExpiry _ _ => none
  | .splitLevelDecay _ => none
  | .migrationStep _ => none
  | .classConflict _ => none
  | .xOperationStart _ _ => none
  | .xOperationCompletion _ _ => none
  | .engineEntryCompletion _ => none
  | .qfenceMatch _ => none
  | .tokenWaitTimeout _ _ => none
  | .engineWaitTimeout _ => none
  | .crewRetirement _ => none
  | .teamRetirement _ _ => none
  | .regionCompletion _ => none
  | .launchMessage _ _ => none
  | .admission => none
  | .nodeReady _ => none
  | .teamPlacement => none
  | .apportioningChange _ => none
  | .priorityPreemption _ => none
  | .teamPreemption _ _ => none
  | .contextImageWrite _ _ => none
  | .teamResumption _ _ => none
  | .deferredFaultPosting _ => none
  | .resume _ _ => none
  | .skip _ _ => none
  | .trapCommand _ _ => none
  | .abort => none
  | .evict => none
  | .admitTeams => none
  | .shoot _ _ => none
  | .tevict _ => none
  | .lostClear _ => none
  | .registerWrite _ _ _ => none
  | .poolExtentMap _ _ => none
  | .extentRelease _ _ => none
  | .extentReleaseRequest _ => none
  | .extentRemoval _ => none
  | .poolFatalError _ => none
  | .hostRead _ _ _ _ => none
  | .hostWrite _ _ _ => none
  | .hostSnoop _ _ _ => none
  | .atomicopCompletion _ _ => none
  | .hostLinkDown => none
  | .portFence _ => none
  | .setAsideNotice _ _ => none
  | .setAsideRelease _ => none
  | .setAsideExpiry _ => none
  | .capabilityWord _ _ => none
  | .slackReport _ _ => none
  | .paceUpdate _ => none
  | .groupEnd _ => none
  | .powerAllowanceWrite _ _ _ => none
  | .powerFloor _ => none
  | .starvationPromotion _ _ => none
  | .energyInterval _ _ => none
  | .sliceRatioChange _ _ => none
  | .bankFailureMark _ _ => none
  | .treeCacheCut => none
  | .deviceReset => none
  | .phaseAdvance => none
  | .linkTrainingTimeout _ => none
  | .firmwareUpdate _ _ _ => none
  | .securityVersionRaise _ _ => none
  | .mildenReset => none
  | .getVersion => none
  | .getCapabilities => none
  | .negotiateAlgorithms _ _ => none
  | .getDigests => none
  | .getCertificate _ _ _ => none
  | .challenge _ => none
  | .getMeasurements _ _ => none
  | .unsupportedRequest _ => none
  | .allowanceRefill _ _ => none
  | .softError _ _ _ => none
  | .hostPortTrained _ => none
  | .peerAccessRequest _ _ => none
  | .fabricTeardown _ _ => none
  | .peerUnreachable _ => none

/-- The four bytes of an instruction in memory, or none for an event. -/
def encodeBytes (i : Instr) : List Byte :=
  match encode i with
  | some w => leBytes 4 w.toNat
  | none => []

end Sys2Proof
end

