-- ==== Sys2Proof/Machine/Tab.lean ====
section
/-! DEFINITION. Operations on the sparse tables and lane values of the state. A table's keys rise strictly. -/

namespace Sys2Proof.Machine

variable {α : Type}

/-- The entry of a key. -/
def Tab.find (t : Tab α) (k : Nat) : Option α :=
  match t with
  | [] => none
  | (k', v) :: r => if k' = k then some v else Tab.find r k

/-- The entry of a key, or `d`. -/
def Tab.get (t : Tab α) (k : Nat) (d : α) : α := (Tab.find t k).getD d

/-- Writes an entry, keeping the keys rising. -/
def Tab.put (t : Tab α) (k : Nat) (v : α) : Tab α :=
  match t with
  | [] => [(k, v)]
  | (k', v') :: r =>
    if k < k' then (k, v) :: (k', v') :: r
    else if k' = k then (k, v) :: r
    else (k', v') :: Tab.put r k v

/-- Removes an entry. -/
def Tab.del (t : Tab α) (k : Nat) : Tab α :=
  match t with
  | [] => []
  | (k', v') :: r => if k' = k then r else (k', v') :: Tab.del r k

/-- Keys rise strictly and every one lies above `lo`. -/
def Tab.above (lo : Nat) (t : Tab α) : Bool :=
  match t with
  | [] => true
  | (k, _) :: r => decide (lo ≤ k) && Tab.above (k + 1) r

/-- Writes several entries. -/
def Tab.puts (t : Tab α) (kvs : List (Nat × α)) : Tab α := kvs.foldl (fun t kv => Tab.put t kv.1 kv.2) t

/-- Removes every entry whose key satisfies `p`. -/
def Tab.drop (t : Tab α) (p : Nat → Bool) : Tab α := t.filter (fun kv => !p kv.1)

/-- The word of one lane. -/
def lane (x : Lanes) (l : Nat) : Word := x.getD l 0

/-- The value whose lane `L` holds `f L`. -/
def lanesOf (f : Nat → Word) : Lanes := (List.range 32).map f

/-- Thirty-two zero words. -/
def zeroLanes : Lanes := lanesOf (fun _ => 0)

/-- The lanes of `m` from `new`, the others from `old` (R113). -/
def mergeLanes (m : Word) (old new : Lanes) : Lanes :=
  lanesOf (fun l => if m.getLsbD l then lane new l else lane old l)

/-- The mask of the lanes that satisfy `f`. -/
def maskOf (f : Nat → Bool) : Word :=
  (List.range 32).foldl (fun m l => if f l then m ||| (1#32 <<< l) else m) 0

/-- The lanes of a mask, ascending. -/
def lanesIn (m : Word) : List Nat := (List.range 32).filter (fun l => m.getLsbD l)

/-- The lowest lane of a mask, or 0. -/
def lowest (m : Word) : Nat := (lanesIn m).headD 0

/-- The number of one bits of a number's low `n` bits. -/
def popcount (n : Nat) (v : Nat) : Nat :=
  match n with
  | 0 => 0
  | n + 1 => v % 2 + popcount n (v / 2)

/-- Bits `lo + n - 1` to `lo` of a number. -/
def bits (v lo n : Nat) : Nat := (v >>> lo) % 2 ^ n

/-- One bit of a number. -/
def bitN (v n : Nat) : Bool := v.testBit n

/-- A field of a register word, as a number (R4). -/
def fieldOf (v : DWord) (lo n : Nat) : Nat := bits v.toNat lo n

/-- A two's-complement reading of the low `n` bits. -/
def signed (n v : Nat) : Int := if v % 2 ^ n < 2 ^ (n - 1) then (v % 2 ^ n : Nat) else (v % 2 ^ n : Nat) - (2 ^ n : Nat)

/-- The low `n` bits of an integer, as a number. -/
def wrapInt (n : Nat) (v : Int) : Nat := (v % (2 ^ n : Nat)).toNat

end Sys2Proof.Machine
end

