-- ==== Sys2Proof/Machine/Shape.lean ====
section
/-! DEFINITION. Shapes of operands: extents, block legality, derived operands and format codes
(R66 to R68, R103 to R106, R167, R169). -/

namespace Sys2Proof.Machine

/-- Height and width of an extent code (Table 7-3). -/
def extHW (e : BitVec 3) : Nat × Nat :=
  match e.toNat with
  | 0 => (1, 1)
  | 1 => (1, 2)
  | 2 => (1, 4)
  | 3 => (1, 8)
  | 4 => (2, 2)
  | 5 => (2, 4)
  | 6 => (2, 8)
  | _ => (3, 8)

/-- Registers of an extent. -/
def extN (e : BitVec 3) : Nat := (extHW e).1 * (extHW e).2

/-- A block of `h` rows and `w` columns from origin code `c` is legal (R104). -/
def blockHW (c h w : Nat) : Bool :=
  decide (c % 8 + w ≤ 8) && (decide (c / 8 + h ≤ 3) || (decide (c / 8 = 3) && decide (h = 1)))

/-- A vector block operand is legal (R104, R105). -/
def blockOk (c : BitVec 5) (e : BitVec 3) : Bool := blockHW c.toNat (extHW e).1 (extHW e).2

/-- The codes of a block, row by row (R105). -/
def codesHW (c h w : Nat) : List Nat :=
  (List.range h).flatMap (fun i => (List.range w).map (fun j => c + 8 * i + j))

def blockCodes (c : BitVec 5) (e : BitVec 3) : List Nat := codesHW c.toNat (extHW e).1 (extHW e).2

/-- The extent's width is even (R68). -/
def evenWidth (e : BitVec 3) : Bool := (extHW e).2 % 2 == 0

/-- A derived operand of `m` registers is legal (R169). -/
def derivedOk (is64 : Bool) (c m : Nat) : Bool :=
  (decide (c + m ≤ 24) || (decide (24 ≤ c) && decide (c + m ≤ 32)))
    && (!is64 || (c % 2 == 0 && m % 2 == 0))

def derivedCodes (c m : Nat) : List Nat := (List.range m).map (fun i => c + i)

/-- A predicate field names p0 to p7 (R103). -/
def predOk (p : BitVec 5) : Bool := decide (p.toNat < 8)

/-- A predicate destination: p1 to p7 (R102, R103). -/
def predDst (p : BitVec 5) : Bool := decide (0 < p.toNat) && decide (p.toNat < 8)

/-- A descriptor field names 0 to 15 (R103). -/
def descOk (p : BitVec 5) : Bool := decide (p.toNat < 16)

-- Format codes (Table 5-1).

abbrev fmtBITS : Nat := 0x00
abbrev fmtINT8 : Nat := 0x01
abbrev fmtINT16 : Nat := 0x02
abbrev fmtINT32 : Nat := 0x03
abbrev fmtINT64 : Nat := 0x04
abbrev fmtFP64 : Nat := 0x08
abbrev fmtFP32 : Nat := 0x09
abbrev fmtFP16 : Nat := 0x0A
abbrev fmtBF16 : Nat := 0x0B
abbrev fmtE4M3 : Nat := 0x10
abbrev fmtE5M2 : Nat := 0x11
abbrev fmtE2M3 : Nat := 0x12
abbrev fmtE3M2 : Nat := 0x13
abbrev fmtE2M1 : Nat := 0x14
abbrev fmtE8M0 : Nat := 0x15
abbrev fmtG2 : Nat := 0x18
abbrev fmtG4 : Nat := 0x19
abbrev fmtG7 : Nat := 0x1A

/-- The codes that Table 5-1 gives a name. -/
def fmtListed (f : Nat) : Bool :=
  decide (f ≤ 4) || (decide (8 ≤ f) && decide (f ≤ 0xB)) || (decide (0x10 ≤ f) && decide (f ≤ 0x15))
    || (decide (0x18 ≤ f) && decide (f ≤ 0x1A))

/-- Reserved codes: a MODE, TAG, RETAG or TSET that names one is refused (R66, R290). -/
def fmtReserved (f : Nat) : Bool := !fmtListed f

def fmtIsInt (f : Nat) : Bool := decide (1 ≤ f) && decide (f ≤ 4)

/-- The float operating formats: FP64, FP32, FP16, BF16. -/
def fmtIsFloat (f : Nat) : Bool := decide (8 ≤ f) && decide (f ≤ 0xB)

/-- The OCP element formats, E8M0 not among them. -/
def fmtIsOcp (f : Nat) : Bool := decide (0x10 ≤ f) && decide (f ≤ 0x14)

def fmtIsGrist (f : Nat) : Bool := decide (0x18 ≤ f) && decide (f ≤ 0x1A)

def fmtIs64 (f : Nat) : Bool := f == fmtINT64 || f == fmtFP64

/-- Elements in one register (R167); 0 for the 64-bit and Grist codes. -/
def epr (f : Nat) : Nat :=
  if f == fmtBITS || f == fmtINT32 || f == fmtFP32 then 1
  else if f == fmtINT16 || f == fmtFP16 || f == fmtBF16 then 2
  else if f == fmtE2M1 then 8
  else if fmtIs64 f || fmtIsGrist f then 0
  else 4

/-- Bits of one element's slot in a register image (Table 5-1). -/
def slotBits (f : Nat) : Nat := if fmtIs64 f then 64 else if epr f == 0 then 32 else 32 / epr f

/-- Bits of one element. -/
def elemBits (f : Nat) : Nat :=
  if f == fmtE2M3 || f == fmtE3M2 then 6 else slotBits f

/-- The block size in bytes of a Grist format, and k (Table 5-4). -/
def gristBytes (f : Nat) : Nat := if f == fmtG2 then 8 else if f == fmtG4 then 12 else 18

def gristK (f : Nat) : Nat := if f == fmtG2 then 2 else if f == fmtG4 then 4 else 7

/-- Elements that `m` registers of format `f` hold (R167). -/
def capOf (f m : Nat) : Nat :=
  if fmtIs64 f then m / 2 else if fmtIsGrist f then 16 * (4 * m / gristBytes f) else m * epr f

def ceilDiv (a b : Nat) : Nat := (a + b - 1) / b

/-- Registers that `n` elements of format `f` need (R167). -/
def regsOf (f n : Nat) : Nat :=
  if fmtIs64 f then 2 * n
  else if fmtIsGrist f then ceilDiv (n / 16 * gristBytes f) 4
  else ceilDiv n (epr f)

/-- The integer code of an IW field (R67). -/
def intTag (iw : Nat) : Nat := 1 + iw

/-- The width in bits of an IW field. -/
def iwBits (iw : Nat) : Nat := 8 * 2 ^ iw

end Sys2Proof.Machine
end

