-- ==== Sys2Proof/Machine/Num.lean ====
section
/-! DEFINITION. Exact values, the float and OCP formats, rounding, overflow, flushing and status (R69 to R74, R84 to R86,
R89, R182). A value is exact; a sticky bit stands for a non-zero remainder below the last place kept. -/

namespace Sys2Proof.Machine

/-- The exact value of an operand. `fin neg m e st` is `±m·2^e`, or lies strictly between `m·2^e` and `(m+1)·2^e` in
magnitude when `st` holds. A zero keeps its sign. -/
inductive Val
  | nan (signalling : Bool)
  | inf (neg : Bool)
  | fin (neg : Bool) (m : Nat) (e : Int) (st : Bool)
  deriving DecidableEq, Repr

/-- The five flags of ASW [4:0] (Table 5-7). -/
abbrev Flags := BitVec 5

def flNV : Flags := 16
def flDZ : Flags := 8
def flOF : Flags := 4
def flUF : Flags := 2
def flNX : Flags := 1
def flIf (b : Bool) (f : Flags) : Flags := if b then f else 0

/-- The arithmetic half of MODE that a rounding reads: mode code of Table 5-5, saturate and flush. -/
structure Rnd where
  mode : Nat
  sat : Bool
  ftz : Bool
  deriving DecidableEq, Repr

def rndRNE : Nat := 0
def rndRTZ : Nat := 1
def rndRUP : Nat := 2
def rndRDN : Nat := 3
def rndRNA : Nat := 4
def rndSR : Nat := 5

/-- Number of bits of a natural. -/
def bitLen (n : Nat) : Nat := if n = 0 then 0 else Nat.log2 n + 1

/-- Fields of a float or OCP format: exponent bits, fraction bits, bias, greatest exponent of a finite value and greatest
significand at that exponent (Tables 5-2 and 5-3). -/
structure FFmt where
  ebits : Nat
  fbits : Nat
  bias : Nat
  emax : Int
  maxN : Nat
  deriving DecidableEq, Repr

def ffmt (f : Nat) : FFmt :=
  if f = fmtFP64 then ⟨11, 52, 1023, 1023, 2 ^ 53 - 1⟩
  else if f = fmtFP32 then ⟨8, 23, 127, 127, 2 ^ 24 - 1⟩
  else if f = fmtFP16 then ⟨5, 10, 15, 15, 2 ^ 11 - 1⟩
  else if f = fmtBF16 then ⟨8, 7, 127, 127, 2 ^ 8 - 1⟩
  else if f = fmtE4M3 then ⟨4, 3, 7, 8, 14⟩
  else if f = fmtE5M2 then ⟨5, 2, 15, 15, 7⟩
  else if f = fmtE2M3 then ⟨2, 3, 1, 2, 15⟩
  else if f = fmtE3M2 then ⟨3, 2, 3, 4, 7⟩
  else ⟨2, 1, 1, 2, 3⟩

/-- IEEE 754 formats and BF16: the ones R71 flushes. -/
def fmtIeee (f : Nat) : Bool := fmtIsFloat f

/-- Formats with infinities. -/
def fmtHasInf (f : Nat) : Bool := fmtIsFloat f || f == fmtE5M2

def FFmt.signAt (t : FFmt) : Nat := t.ebits + t.fbits
def FFmt.emin (t : FFmt) : Int := 1 - (t.bias : Int)
/-- Precision p. -/
def FFmt.prec (t : FFmt) : Nat := t.fbits + 1

/-- The canonical NaN (Tables 5-2 and 5-3); +0 for the formats without one (Table 5-8). -/
def canonNaN (f : Nat) : Nat :=
  if f = fmtFP64 then 0x7FF8000000000000
  else if f = fmtFP32 then 0x7FC00000
  else if f = fmtFP16 then 0x7E00
  else if f = fmtBF16 then 0x7FC0
  else if f = fmtE4M3 then 0x7F
  else if f = fmtE5M2 then 0x7E
  else if f = fmtE8M0 then 0xFF
  else 0

/-- The sign bit of an element. -/
def signOf (f x : Nat) : Bool := x.testBit (ffmt f).signAt

def withSign (f : Nat) (neg : Bool) (mag : Nat) : Nat := if neg then mag + 2 ^ (ffmt f).signAt else mag

/-- The bits of a finite magnitude `n·2^q`, `n ≤ 2^p`, `q ≥ emin − fbits`. -/
def magBits (t : FFmt) (n : Nat) (q : Int) : Nat :=
  let (n, q) := if n = 2 ^ t.prec then (2 ^ t.fbits, q + 1) else (n, q)
  if n < 2 ^ t.fbits then n
  else (q + t.fbits + t.bias).toNat * 2 ^ t.fbits + (n - 2 ^ t.fbits)

/-- ±largest finite. -/
def largest (f : Nat) (neg : Bool) : Nat :=
  let t := ffmt f
  withSign f neg (magBits t t.maxN (t.emax - t.fbits))

/-- ±∞, for a format that has infinities. -/
def infBits (f : Nat) (neg : Bool) : Nat :=
  let t := ffmt f
  withSign f neg ((2 ^ t.ebits - 1) * 2 ^ t.fbits)

/-- An infinite value in a format (R85). -/
def encInf (f : Nat) (sat neg : Bool) : Nat :=
  if sat then largest f neg
  else if fmtHasInf f then infBits f neg
  else if f = fmtE4M3 then 0x7F
  else largest f neg

/-- The exact value of element bits `x` read in a float, OCP or E8M0 format, without flush (R69, R72, R73). -/
def decodeVal (f x : Nat) : Val :=
  if f = fmtE8M0 then (if x % 256 = 255 then .nan false else .fin false 1 ((x % 256 : Nat) - 127) false)
  else
    let t := ffmt f
    let s := x.testBit t.signAt
    let fr := x % 2 ^ t.fbits
    let ex := bits x t.fbits t.ebits
    let top := 2 ^ t.ebits - 1
    if fmtHasInf f && ex == top then
      if fr = 0 then .inf s else .nan (fmtIsFloat f && !fr.testBit (t.fbits - 1))
    else if f == fmtE4M3 && ex == top && fr == 7 then .nan false
    else if ex = 0 then .fin s fr (t.emin - t.fbits) false
    else .fin s (fr + 2 ^ t.fbits) ((ex : Int) - t.bias - t.fbits) false

/-- A zero exponent with a non-zero fraction. -/
def isSubnormal (f x : Nat) : Bool :=
  let t := ffmt f
  bits x t.fbits t.ebits == 0 && x % 2 ^ t.fbits != 0

/-- Element bits after the input flush of R71. -/
def flushIn (f : Nat) (ftz : Bool) (x : Nat) : Nat :=
  if ftz && fmtIeee f && isSubnormal f x then withSign f (signOf f x) 0 else x

/-- Val(f, x) of R167. -/
def valOf (f : Nat) (ftz : Bool) (x : Nat) : Val := decodeVal f (flushIn f ftz x)

def Val.isNaN : Val → Bool
  | .nan _ => true
  | _ => false

def Val.isSNaN : Val → Bool
  | .nan s => s
  | _ => false

def Val.isInf : Val → Bool
  | .inf _ => true
  | _ => false

def Val.isZero : Val → Bool
  | .fin _ m _ st => m == 0 && !st
  | _ => false

def Val.neg : Val → Val
  | .nan s => .nan s
  | .inf n => .inf (!n)
  | .fin n m e st => .fin (!n) m e st

def Val.isNeg : Val → Bool
  | .nan _ => false
  | .inf n => n
  | .fin n _ _ _ => n

/-- Rounds `|x| = m·2^e` to a whole number of `2^q` (R84, R86); `d` is the draw of RoundSR. The second component says
whether the result differs from the value. -/
def roundQ (mode : Nat) (neg : Bool) (m : Nat) (e : Int) (st : Bool) (q : Int) (d : Nat) : Nat × Bool :=
  if q ≤ e then (m * 2 ^ (e - q).toNat, st)
  else
    let s := (q - e).toNat
    let t := m / 2 ^ s
    let r := m % 2 ^ s
    let half := 2 ^ (s - 1)
    let up :=
      if mode = rndRNE then decide (half < r) || (r == half && (st || t % 2 == 1))
      else if mode = rndRNA then decide (half ≤ r)
      else if mode = rndRUP then !neg && (decide (0 < r) || st)
      else if mode = rndRDN then neg && (decide (0 < r) || st)
      else if mode = rndSR then decide (2 ^ 32 ≤ r * 2 ^ 32 / 2 ^ s + d)
      else false
    (if up then t + 1 else t, decide (0 < r) || st)

/-- The result of an overflow in a float or OCP format (Table 5-6). -/
def overflowBits (f : Nat) (c : Rnd) (neg : Bool) : Nat :=
  if c.sat then largest f neg
  else if fmtHasInf f then
    if c.mode = rndRTZ || (c.mode = rndRUP && neg) || (c.mode = rndRDN && !neg) then largest f neg
    else infBits f neg
  else if f = fmtE4M3 then 0x7F
  else largest f neg

/-- Floor of the binary logarithm of a non-zero magnitude. -/
def expOf (m : Nat) (e : Int) : Int := e + (bitLen m : Int) - 1

/-- Whether a non-zero value is tiny after rounding, the exponent taken as unbounded below. -/
def tinyAfter (t : FFmt) (mode : Nat) (neg : Bool) (m : Nat) (e : Int) (st : Bool) (d : Nat) : Bool :=
  let e0 := expOf m e
  if t.emin ≤ e0 then false
  else if e0 < t.emin - 1 then true
  else (roundQ mode neg m e st (e0 - t.fbits) d).1 != 2 ^ t.prec

/-- RoundTo of R167 for a finite value: one rounding, then R71 and R85. -/
def roundFin (f : Nat) (c : Rnd) (d : Nat) (neg : Bool) (m : Nat) (e : Int) (st : Bool) : Nat × Flags :=
  let t := ffmt f
  if m = 0 && !st then (withSign f neg 0, 0)
  else
    -- a sticky value below every place kept counts as a magnitude far below the last place
    let (m, e) := if m = 0 then (1, e - 1) else (m, e)
    let q := max (expOf m e) t.emin - t.fbits
    let (n, ix) := roundQ c.mode neg m e st q d
    let tiny := tinyAfter t c.mode neg m e st d
    if tiny && c.ftz && fmtIeee f then (withSign f neg 0, flUF ||| flNX)
    else if t.emax - t.fbits < q || (t.emax - t.fbits = q && t.maxN < n) then
      (overflowBits f c neg, flOF ||| flNX)
    else (withSign f neg (magBits t n q), flIf (tiny && ix) flUF ||| flIf ix flNX)

/-- RoundTo of R167 for a float or OCP element format; a NaN written to a format without one is +0 and sets NV
(Table 5-8). -/
def roundTo (f : Nat) (c : Rnd) (d : Nat) (v : Val) : Nat × Flags :=
  match v with
  | .nan s => (canonNaN f, flIf (s || (fmtIsOcp f && f != fmtE4M3 && f != fmtE5M2)) flNV)
  | .inf n => (encInf f c.sat n, 0)
  | .fin n m e st => roundFin f c d n m e st

/-- Conversion to E8M0 (R182): between `2^k` and `2^(k+1)` the two codes are the neighbours. -/
def roundE8M0 (c : Rnd) (d : Nat) (v : Val) : Nat × Flags :=
  match v with
  | .nan _ => (0xFF, flNV)
  | .inf true => (0xFF, flNV)
  | .inf false => (if c.sat then 0xFE else 0xFF, 0)
  | .fin neg m e st =>
    if neg || (m = 0 && !st) then (0xFF, flNV)
    else
      let (m, e) := if m = 0 then (1, e - 1) else (m, e)
      let k := expOf m e
      let frac := m - 2 ^ (bitLen m - 1)
      let half := 2 ^ (bitLen m - 1)          -- frac ranges over 0 .. half-1; the tie is at half/2
      let up :=
        if c.mode = rndRNE then
          decide (half < 2 * frac) || (2 * frac == half && (st || ((k + 127) % 2 != 0)))
        else if c.mode = rndRNA then decide (half ≤ 2 * frac)
        else if c.mode = rndRUP then decide (0 < frac) || st
        else if c.mode = rndSR then decide (2 ^ 32 ≤ frac * 2 ^ 32 / half + d)
        else false
      let ix := decide (0 < frac) || st
      let r := if up then k + 1 else k
      if k < -127 then (0x00, flUF ||| flNX)
      else if 127 < r then (if c.sat then 0xFE else 0xFF, flOF ||| flNX)
      else ((r + 127).toNat, flIf ix flNX)

/-- A value rounded to an integer of `w` bits (Table 5-8): out of range the nearest bound with NV, a NaN 0 with NV. -/
def roundInt (w : Nat) (sgn : Bool) (c : Rnd) (d : Nat) (v : Val) : Nat × Flags :=
  let lo : Int := if sgn then -(2 ^ (w - 1) : Nat) else 0
  let hi : Int := if sgn then (2 ^ (w - 1) : Nat) - 1 else (2 ^ w : Nat) - 1
  match v with
  | .nan _ => (0, flNV)
  | .inf n => (wrapInt w (if n then lo else hi), flNV)
  | .fin neg m e st =>
    let (n, ix) := roundQ c.mode neg m e st 0 d
    let r : Int := if neg then -(n : Int) else n
    if r < lo then (wrapInt w lo, flNV)
    else if hi < r then (wrapInt w hi, flNV)
    else (wrapInt w r, flIf ix flNX)

/-- An integer's exact value; zero is +0. -/
def ofInt (i : Int) : Val := .fin (decide (i < 0)) i.natAbs 0 false

/-- Product of two values and whether it is invalid (R172). -/
def mulVal (a b : Val) : Val × Flags :=
  match a, b with
  | .nan s, y => (.nan false, flIf (s || y.isSNaN) flNV)
  | x, .nan s => (.nan false, flIf (s || x.isSNaN) flNV)
  | .inf n, .inf n' => (.inf (n != n'), 0)
  | .inf n, .fin n' m _ _ => if m = 0 then (.nan false, flNV) else (.inf (n != n'), 0)
  | .fin n m _ _, .inf n' => if m = 0 then (.nan false, flNV) else (.inf (n != n'), 0)
  | .fin n m e _, .fin n' m' e' _ => (.fin (n != n') (m * m') (e + e') false, 0)

/-- The exact signed sum of finite terms, as `s·2^e`. -/
def sumFin (ts : List Val) : Int × Int :=
  let lo := ts.foldl (fun a v => match v with
    | .fin _ m e _ => if m = 0 then a else min a e
    | _ => a) (4000 : Int)
  (ts.foldl (fun a v => match v with
    | .fin n m e _ => if m = 0 then a else
        let x : Int := (m * 2 ^ (e - lo).toNat : Nat)
        if n then a - x else a + x
    | _ => a) 0, lo)

/-- The exact sum of terms (R70, R94, R173): NaN if a term is NaN or infinities of both signs occur, and the latter and a
signalling NaN set NV. `rdn` gives the sign of an exact zero sum that is not a sum of zeros of one sign. -/
def sumVals (rdn : Bool) (ts : List Val) : Val × Flags :=
  let pinf := ts.any (fun v => v == .inf false)
  let ninf := ts.any (fun v => v == .inf true)
  let nv := flIf ((pinf && ninf) || ts.any Val.isSNaN) flNV
  if ts.any Val.isNaN || (pinf && ninf) then (.nan false, nv)
  else if pinf then (.inf false, nv)
  else if ninf then (.inf true, nv)
  else
    let (s, e) := sumFin ts
    if s = 0 then
      let z := if ts.all (fun v => v.isZero && v.isNeg) then true
        else if ts.all (fun v => v.isZero && !v.isNeg) then false else rdn
      (.fin z 0 0 false, nv)
    else (.fin (decide (s < 0)) s.natAbs e false, nv)

def valAdd (rdn : Bool) (a b : Val) : Val × Flags := sumVals rdn [a, b]

/-- A value scaled by a power of two. -/
def scaleVal (v : Val) (n : Int) : Val :=
  match v with
  | .fin s m e st => .fin s m (e + n) st
  | x => x

/-- Order of two values that are no NaN: −1, 0 or 1; −0 equals +0. -/
def cmpVal (a b : Val) : Int :=
  match a, b with
  | .inf n, .inf n' => if n = n' then 0 else if n then -1 else 1
  | .inf n, _ => if n then -1 else 1
  | _, .inf n => if n then 1 else -1
  | x, y => let s := (sumFin [x, y.neg]).1
    if s < 0 then -1 else if s = 0 then 0 else 1

/-- One step of the Galois register of R86. -/
def lfsrStep (s : Word) : Word := if s.getLsbD 0 then (s >>> 1) ^^^ 0x80200003#32 else s >>> 1

def lfsrSteps (n : Nat) (s : Word) : Word :=
  match n with
  | 0 => s
  | n + 1 => lfsrSteps n (lfsrStep s)

/-- LfsrDraw: 32 steps; the new state is the draw. -/
def lfsrDraw (s : Word) : Word := lfsrSteps 32 s

/-- A zero seed is replaced by 1 (R87). -/
def seedOf (s : Word) : Word := if s = 0 then 1 else s

/-- Crew seeding of R87. -/
def crewSeed (team crew lane : Nat) : Word :=
  seedOf (0x9E3779B9#32 ^^^ BitVec.ofNat 32 ((team % 2 ^ 22) * 1024) ^^^ BitVec.ofNat 32 (crew * 32)
    ^^^ BitVec.ofNat 32 lane)

/-- Draws before a rounding when the mode is SR: the draw and the state after it. -/
def drawFor (c : Rnd) (s : Word) : Nat × Word :=
  if c.mode = rndSR then ((lfsrDraw s).toNat, lfsrDraw s) else (0, s)

/-- An element's value by Signed. -/
def intVal (w : Nat) (sgn : Bool) (x : Nat) : Int := if sgn then signed w x else (x % 2 ^ w : Nat)

end Sys2Proof.Machine
end

