-- ==== Sys2Proof/Config.lean ====
section
/-! DEFINITION. What the spec leaves to the part or to other parties: free values (nothing in Lean can evaluate them),
and the constants of the modelled part. Each is named in the assumption log. -/

namespace Sys2Proof.Config

/-- A value the spec does not state; the argument is the counter `State.freeCount`. -/
opaque freeByte : Nat → Byte

/-- A 64-bit value the spec does not state. -/
opaque freeDWord : Nat → DWord

/-- A byte of the telemetry window: its offset, and what the machine reports there (R24, R117). The spec gives no layout. -/
opaque telemetryByte : Nat → List (List Nat) → Byte

/-- An access count that enters a die's hint log at a cluster clock: die, 64 KiB place and count (R390). -/
opaque accessSample : Nat → Option (Nat × Nat × Nat)

/-- The DevID secret, a fused value (R404). -/
opaque deviceSecret : List Byte

/-- The alias secret derived from the DevID secret and the digest of measurements 1 to 5 (R404). -/
opaque aliasSecret : List Byte → List Byte → List Byte

/-- The certificates of the chain below the alias one: root CA, device CA, DevID (R404). -/
opaque certChain : List Byte

/-- The nonce a response carries; the spec does not state it. -/
opaque freeNonce : Nat → List Byte

/-- Security version carried by a firmware image (R403): the spec gives no image layout. -/
opaque imageVersion : List Byte → Nat

/-- The public key carried by a firmware image (R403): the spec gives no image layout. -/
opaque imageKey : List Byte → List Byte

/-- The MSI-X vector of the driver that R392 names and does not number. -/
opaque driverVector : Nat

/-- The fused configuration that measurement 5 covers (R405): minimum version, form, stepping. -/
opaque fusedConfig : Nat → Bool → Nat → List Byte

/-- The signed message that raises the minimum version (R403). -/
opaque raiseMessage : Nat → List Byte

/-- The DevID key derived from the fused secret (R404). -/
opaque devIdKey : List Byte → List Byte

/-- The body of the alias certificate for a public key, which the DevID key signs (R404). -/
opaque aliasBody : List Byte → List Byte

/-- An SPDM message on the wire: its code and its operands (R405; the encodings are the SPDM standard's). -/
opaque spdmBytes : Nat → List Byte → List Byte

/-- The part is the carrier-module form (R1): either form, log 4. -/
opaque cmForm : Bool

/-- Largest physical address of package memory of KIND 0, plus one (Table 23-3). -/
def packageTop : Nat := 0x080000000000

/-- First address of the pool window (Table 23-3). -/
def poolBase : Nat := 0x050000000000

/-- First address of DDR-5 (Table 23-3). -/
def ddrBase : Nat := 0x010000000000

/-- Silicon stepping (Table 17-7). -/
def stepping : Nat := 1

end Sys2Proof.Config
end

