-- ==== Sys2Proof/Machine/State.lean ====
section
/-! DEFINITION. The state of one package as plain data, and its value right after reset (R99, R109, R40, R44, R45, R135,
R207, R211, R261, R281, R286 to R293, R322, R339, R343, R362, R373 to R376, R380, R388, R400). INVENTORY.md lists each
piece with its rule and reset value. -/

namespace Sys2Proof.Machine

/-- Bytes by address: addresses strictly rising, no entry equal to 0, which an unlisted address reads as. -/
abbrev Memory := List Host.Cell

-- Crews.

/-- A linkage record (Table 9-2); `uid` tells shared records from equal ones (R417). -/
structure LinkRec where
  uid : Nat
  ret : DWord
  caller : Nat
  k : Nat
  moved : Bool
  callee : Nat
  /-- its store words hold an uncorrectable error (R15) -/
  bad : Bool
  deriving DecidableEq, Repr

/-- A PC slot (R40): free when `mask` is 0; `parked` at a HEAT.J (R42). -/
structure PcSlot where
  pc : DWord
  mask : Word
  base : Nat
  chain : List LinkRec
  parked : Bool
  deriving DecidableEq, Repr

/-- A divergence-stack entry or lane group (R41, R417); `src` is the address of the branch that led to its target; `bad` when
its words of the store hold an uncorrectable error (R15). -/
structure StackEntry where
  pc : DWord
  mask : Word
  base : Nat
  chain : List LinkRec
  src : DWord
  bad : Bool
  deriving DecidableEq, Repr

/-- What R99 and R100 hold with the commit buffer: window registers by absolute number, temporary N under key 1024 + N;
absent registers read zero and carry BITS. -/
structure Regs where
  v : Tab Lanes
  tag : Tab Nat
  s : Tab DWord
  p : Tab Word
  mode : BitVec 40
  asw : BitVec 16
  lfsr : Lanes
  watch : Tab DWord
  tretpc : DWord
  tretctl : DWord
  /-- vector registers whose store words hold an uncorrectable error (R15, R203); 2048 stands for all of them -/
  errs : List Nat
  deriving DecidableEq, Repr

/-- One register result. -/
inductive RegW
  | v (key : Nat) (mask : Word) (x : Lanes) (tag : Nat)
  | s (n : Nat) (x : DWord)
  | p (n : Nat) (mask : Word) (x : Word)
  deriving DecidableEq, Repr

/-- POISON or EXTENT met by the data of an access (R243): cause, address, and the lane of a word checked by lanes. -/
structure Met where
  cause : Nat
  addr : Nat
  lane : Option Nat
  deriving DecidableEq, Repr

/-- Where a byte lies: scratch of a core, package memory, a peer's memory, EXTERNAL storage (`k3` the non-coherent kind, `port` 0
the host port, 1 and 2 the pool ports, whose storage stands apart, R384), or a crew register of the team (R60). -/
inductive Space
  | scr
  | pkg
  | peer
  | ext (k3 : Bool) (port : Nat)
  | reg (crew : Nat)
  deriving DecidableEq, Repr

/-- What a lane of an access has read: its address, and the lines outside the package's own memory, whose loss R392 to R394
describe. -/
structure LaneRead where
  lane : Option Nat
  va : Nat
  lines : List (Space × Nat)
  deriving DecidableEq, Repr

/-- What the data of an access met. -/
structure Got where
  bad : Option Met
  reads : List LaneRead
  deriving DecidableEq, Repr

def Got.clean : Got := ⟨none, []⟩

/-- A long-latency result (R116, R129): `left` window words still to issue; its word's address and offset, with the heat's
GIVEs and group members before it; what its data met. -/
structure Pend where
  ws : List RegW
  left : Nat
  pc : DWord
  off : Nat
  gives : Nat
  members : Nat
  got : Got
  deriving DecidableEq, Repr

/-- One byte of a store; `tree` is false for pages classed private or read-only, whose lines join no tree (R218). -/
structure MemCell where
  sp : Space
  a : Nat
  b : Byte
  tree : Bool
  deriving DecidableEq, Repr

/-- A member of the heat's buffered memory work, in program order (R48, R222, R254, R260). -/
inductive BufOp
  | store (cells : List MemCell) (mode : BitVec 40)
  | release (scope store : Nat)
  /-- `tree` as in MemCell -/
  | flush (pa : Nat) (home tree : Bool)
  | inval (pa : Nat)
  deriving DecidableEq, Repr

/-- Read-modify-write functions of Table 15-5. -/
inductive AtOp | add | fadd | min | max | and | or | xor | swp | cas
  deriving DecidableEq, Repr

/-- One lane's atomic: virtual address, place, operands as numbers. -/
structure AtLane where
  lane : Nat
  va : Nat
  sp : Space
  a : Nat
  d : Nat
  d2 : Nat
  deriving DecidableEq, Repr

/-- A held QUANTUM member (R231). -/
structure QMember where
  grp : Nat
  op : AtOp
  bytes : Nat
  lanes : List AtLane
  dest : List Nat
  mask : Word
  tag : Nat
  mode : BitVec 40
  pc : DWord
  off : Nat
  deriving DecidableEq, Repr

/-- The crew's open heat (R45 to R51). `wrk` is the commit buffer over the committed state. -/
structure Heat where
  slot : Nat
  entry : DWord
  off : Nat
  sealed : Bool
  wrk : Regs
  base : Nat
  dests : List Nat
  temps : List Nat
  pend : List Pend
  buf : List BufOp
  group : List QMember
  tret : Bool
  gives : List DWord
  yielded : Bool
  skip : Option Nat
  /-- the commit buffer's entries with their lane enables (R47), by the names of `RegW.name`, and 9000 ASW, 9001 the LFSRs,
  9002 TRETPC, 9003 TRETCTL, 9016 + n WATCHn -/
  en : Tab Word
  /-- holds accesses translated before a TLBI or SHOOT that has not completed (R377) -/
  old : Bool
  /-- the transfers of the heat's SLIDE, made after its commit (R367) -/
  owed : List Nat
  deriving DecidableEq, Repr

/-- Why a crew or engine does not go on (R340, R56). Times are cluster clocks. -/
inductive Wait
  | none
  /-- holds a barrier-table entry; `gen` is the token, or 2^32 once woken; `bar` marks the wait of a BAR -/
  | barrier (word gen t0 : Nat) (bar : Bool)
  /-- refused by a resource (R273) -/
  | ticket (res gen t0 : Nat) (bar : Bool)
  /-- a BAR that has arrived and holds no entry (R266) -/
  | arrived (gen : Nat)
  | monitor
  /-- TAKE of the block at a base -/
  | take (base : Nat)
  /-- RDV on a program: the context of its FORK, and its generation -/
  | rdv (home gen : Nat)
  /-- LDX or STX of a team that is held in an image or being pre-empted (R251) -/
  | team (key : Nat)
  /-- an arrival at a word of such a team (R265) -/
  | word (key : Nat)
  | refill (slot : Nat) (items : List Nat)
  | reg (crew block : Nat)
  /-- engine entries that a STRIKE waits for: context, entry (R234) -/
  | strike (items : List (Nat × Nat))
  | token
  | engine
  /-- TLBI: accesses translated before it are still to be performed (R377) -/
  | drain
  | other
  deriving DecidableEq, Repr

/-- Trap state (Table 9-8, R356): cause 0 outside a handler. -/
structure TrapSt where
  slot : Nat
  cause : Nat
  info : Nat
  saveMode : BitVec 40
  saveDepth : Nat
  /-- the sealed heat the trap interrupted -/
  heat : Option Heat
  deriving DecidableEq, Repr

/-- A raised fault (Table 21-4); `seq` is none while it waits unposted (R361). -/
structure FaultRec where
  kind : Nat
  sealed : Bool
  nested : Bool
  image : Bool
  cause : Nat
  flane : Option Nat
  lanes : Word
  rcb : Nat
  teamn : Nat
  core : Nat
  crew : Nat
  slot : Nat
  eidx : Nat
  off : Nat
  heatpc : DWord
  wordpc : DWord
  addr : DWord
  info : Nat
  deriving DecidableEq, Repr

/-- The fault a parked crew or engine stands on. `late` marks the faults of R419. -/
structure Park where
  fr : FaultRec
  seq : Option Nat
  late : Bool
  slot : Nat
  /-- a command recorded while the crew is held in an image (R364) -/
  cmd : Option Nat
  /-- the branch, call, return or trap return that led to the bad target (R419) -/
  src : DWord
  deriving DecidableEq, Repr

/-- A raised fault that waits for ring space: its domain, and the crew or engine that raised it (R361). -/
structure Unposted where
  fdom : Nat
  key : Nat
  eng : Bool
  fr : FaultRec
  deriving DecidableEq, Repr

/-- A token entry (R281): away, or returned. -/
structure Token where
  word : DWord
  returned : Bool
  deriving DecidableEq, Repr

/-- A pending split (R44): the group the slot keeps, the others with the lowest lane first, and what its STACK record
names: the branching heat's entry, the branch and its offset. -/
structure Split where
  slot : Nat
  keep : StackEntry
  groups : List StackEntry
  entry : DWord
  word : DWord
  off : Nat
  deriving DecidableEq, Repr

/-- The Sluice's view of a crew's frame space (R44, R57, R59, R65, R410): blocks of the ring, resident blocks, what each
1 KiB place of the spill area holds (block B as B, linkage unit U as 200 + U, stack unit U as 400 + U), the transfers a
committed CALL still owes, the spilled records and entries, and blocks refilled for the word that waits. -/
structure Ring where
  cap : Nat
  resident : List Nat
  spilled : Tab Nat
  todo : List Nat
  links : Nat
  entries : Nat
  touched : List Nat
  /-- the place of the crew's request in its core's queue (R64), while it has one -/
  asked : Option Nat
  deriving DecidableEq, Repr

/-- A crew (R36 to R64): `rk` the region key, registers in `com`, its open heat's copy in `heat`; `latch` the operand latch
(R111), newest first: keys with the instructions left; `toks` the token entries. -/
structure Crew where
  rk : Nat
  team : Nat
  no : Nat
  launched : Word
  exited : Word
  s0 : PcSlot
  s1 : PcSlot
  last : Nat
  com : Regs
  heat : Option Heat
  stack : List StackEntry
  split : Option Split
  trap : TrapSt
  park : Option Park
  wait : Wait
  named : List Pend
  toks : List Token
  ring : Ring
  /-- COMMUTATIVE atomics issued and not yet performed, oldest first (R229) -/
  later : List QMember
  latch : List (Nat × Nat)
  /-- a SKIP of the slot's next heat, kept until that heat commits (R145, R363): slot × 32 + offset, and 64 more when TRET
  gave it -/
  skip : Option Nat
  /-- the slot whose RET has committed and waits for a TAKE (R284) -/
  ret : Option Nat
  yield0 : Bool
  yield1 : Bool
  since0 : Nat
  since1 : Nat
  promoted : List Nat
  /-- a fault of a named result, raised at the next heat boundary (R129) -/
  bad : Option FaultRec
  /-- lanes whose AtomicOps the host completer turns away, as the completions of the crew's next KIND 3 atomic report (R387,
  log 88) -/
  aopBad : Word
  /-- resumed after a pre-emption, with no heat committed since (R56) -/
  kept : Bool
  /-- stores of other crews that wait for the end of the crew's heat (R60, log 86) -/
  inbox : List MemCell
  deriving DecidableEq, Repr

-- Engines.

/-- A result of a context inside its lookahead window: register, value, words left, its word and offset, and what it read. -/
structure EngPend where
  reg : Nat
  x : DWord
  left : Nat
  pc : DWord
  off : Nat
  got : Got
  deriving DecidableEq, Repr

/-- An X operation (R287, R288), with the descriptors as they stood at its issue. -/
structure XOp where
  id : Nat
  op : Instr
  tiles : Tab DWord
  accs : Tab DWord
  slot : Nat
  mode : BitVec 40
  started : Bool
  pc : DWord
  heat : DWord
  off : Nat
  since : Nat
  deriving DecidableEq, Repr

/-- A queued engine entry (R303): the operand values it was issued with. -/
structure Entry where
  id : Nat
  op : Instr
  d : DWord
  a : DWord
  b : DWord
  b1 : DWord
  sg : DWord
  mode : BitVec 40
  blk : List DWord
  pc : DWord
  heat : DWord
  off : Nat
  since : Nat
  /-- units of 128 B that the power allowance has granted (R344) -/
  paid : Nat
  deriving DecidableEq, Repr

/-- A team that left its core with a Miller context (R285): the core and placement index that the context's descriptors name,
and those where the team stands again. -/
structure Saved where
  key : Nat
  core : Nat
  idx : Nat
  back : Option (Nat × Nat)
  deriving DecidableEq, Repr

/-- A Miller context, Flume queue or Tailrace context (R109, R286); it waits with `.team` while saved with a team (R285). -/
structure Eng where
  /-- the pre-empted teams it was saved with; the context is away until all are back -/
  saved : List Saved
  gen : Nat
  /-- the context of the FORK, which the handle names (R413) -/
  home : Nat
  running : Bool
  rk : Nat
  team : Nat
  crew : Nat
  core : Nat
  pc : DWord
  s : Tab DWord
  p : Tab Word
  mode : BitVec 40
  entry : Option DWord
  off : Nat
  rets : List DWord
  tiles : Tab DWord
  accs : Tab DWord
  deps : Tab Nat
  lfsr : Tab Word
  xops : List XOp
  ents : List Entry
  fences : Tab Nat
  park : Option Park
  wait : Wait
  last : Nat
  /-- results inside a lookahead window (R116) -/
  pend : List EngPend
  deriving DecidableEq, Repr

-- Cores, teams, regions.

/-- A core's apportioning and grid mode (R16, R197, R276); a core that was never apportioned has no units. -/
structure CoreSt where
  regu : Nat
  l1u : Nat
  scru : Nat
  fused : Bool
  grid : Option Nat
  /-- marked for draining for a team of a region (R330) -/
  mark : Option (Nat × Nat)
  failed : List Nat
  /-- corrected errors: bank and clock (R203) -/
  errs : List (Nat × Nat)
  /-- issue order of crew slots (R341): crew key × 2 + slot, head first -/
  order : List Nat
  /-- slots whose next instruction's sources were not ready when the core last asked to issue, or that the steal-cycle limit
  held (R340), numbered as in `order` -/
  stalled : List Nat
  deriving DecidableEq, Repr

inductive TeamSt | pending | placed | held | imaged | retired
  deriving DecidableEq, Repr

/-- A team that is or has been placed (R36, R327, R368). Teams without an entry are pending and were never placed. -/
structure Team where
  st : TeamSt
  core : Nat
  idx : Nat
  stamp : Nat
  /-- saved scratch allotment while imaged (R198) -/
  scr : Memory
  image : Option Nat
  evicted : Bool
  pre : Bool
  preStep : Nat
  die : Option Nat
  engs : List Nat
  deriving DecidableEq, Repr

/-- A region's strike (R269): fixed scope, generation per instance, the crews that have struck. -/
structure StrikeInst where
  gen : Nat
  struck : List Nat
  words : List Nat
  deriving DecidableEq, Repr

/-- A pending admission of a cluster to a released strike (R348). -/
structure StrikeAdm where
  rk : Nat
  cluster : Nat
  gen : Nat
  cc : Nat
  words : List Nat
  deriving DecidableEq, Repr

/-- An admitted region (R31, R32, R339). -/
structure Region where
  rcb : Nat
  w : List DWord
  kind : Nat
  parent : Option Nat
  root : Nat
  maxc : Nat
  pri : Nat
  fdom : Nat
  state : Nat
  err : Nat
  ready : Bool
  readySeq : Nat
  evicted : Bool
  tag : Word
  note : Bool
  vec : Nat
  cbit : Nat
  caddr : Nat
  tadm : Nat
  tend : Nat
  energy : Nat
  heats : Nat
  discards : Nat
  faults : Nat
  preempts : Nat
  retired : Nat
  /-- dependency maps (Table 19-4), and tile operands: output, first and last byte (Table 19-5), as read at admission -/
  maps : List (List DWord)
  ops : List (Bool × Nat × Nat)
  strikeScope : Option Nat
  strikes : Tab StrikeInst
  deriving DecidableEq, Repr

-- Memory system.

inductive LineSt | M | O | E | S | L
  deriving DecidableEq, Repr

/-- A cached line (R207; an L2 line is kept so too, with the state L): byte `j` of `data` in bits [8j+7:8j]; valid and dirty
masks; replacement stamp. -/
structure Line where
  st : LineSt
  data : BitVec 1024
  valid : BitVec 128
  dirty : BitVec 128
  stamp : Nat
  /-- holds an uncorrectable error of the store (R203) -/
  bad : Bool
  /-- held without a tree: a line of a page classed private or read-only (R218) -/
  solo : Bool
  /-- replacement mark of a cache policy (R209, R244): 0 none, 1 first, 2 last -/
  mark : Nat
  deriving DecidableEq, Repr

/-- A tree entry (Table 13-3), VALID while it is listed. UP: 0 north, 1 east, 2 south, 3 west, 4 root. CHILD: bit 3 north to
bit 0 west. STATE: 0 stable, 1 teardown, 2 evicting. -/
structure TreeEnt where
  loc : BitVec 12
  gbase : Nat
  level : Nat
  up : Nat
  child : BitVec 4
  state : Nat
  stamp : Nat
  deriving DecidableEq, Repr

/-- A translation held in a TLB (R376): domain, page base, page bits, leaf entry, its address. -/
structure Xl where
  fdom : Nat
  va : Nat
  nbits : Nat
  leaf : DWord
  at_ : Nat
  deriving DecidableEq, Repr

/-- A write-combining entry (R235): line of a peer, its bytes and the time it was taken. -/
structure Wcb where
  line : Nat
  bytes : List (Nat × Byte)
  t0 : Nat
  age : Nat
  deriving DecidableEq, Repr

/-- An armed monitor (R270): its crew, the point that holds it (an L1 holder, or 4000 for the home slice or scratch ALU),
its word, and whether an event of R271 has fired it. -/
structure Monitor where
  crew : Nat
  point : Nat
  sp : Space
  a : Nat
  bytes : Nat
  fired : Bool
  deriving DecidableEq, Repr

/-- A resource that refuses (R272, R273): next ticket, ticket served, outstanding requests (crew, ticket), reservations
(crew, clock), requests refused so far. -/
structure Ticket where
  next : BitVec 24
  served : BitVec 24
  queue : List (Nat × Nat)
  reserved : List (Nat × Nat)
  refused : Nat
  deriving DecidableEq, Repr

/-- A page being moved (R219). -/
structure Move where
  old : Nat
  new : Nat
  nbits : Nat
  line : Nat
  leafAt : Nat
  tier : Nat
  deriving DecidableEq, Repr

/-- A conflict that waits for the class engine (R378): domain, address, and the crew or engine. -/
structure ClassReq where
  fdom : Nat
  va : Nat
  crew : Nat
  deriving DecidableEq, Repr

structure MemSys where
  pkg : Memory
  /-- bytes of package memory in an arrangement of the device's own (R369): base, size, argument of the first free value -/
  arranged : List (Nat × Nat × Nat)
  ext : Memory
  peer : Memory
  /-- scratch shares: core × 2^24 + offset -/
  scr : Memory
  /-- core L1s (holder 0 to 3071), fused L1s (3072 to 3103), cluster L1s (3104 to 3135), constant caches (3136 to 3167),
  I/O-die coherent caches (3168, 3169), the host's copies (3170): holder × 2^45 + line -/
  lines : Tab Line
  /-- L2 lines of the home slices (R13, R20), by line -/
  l2 : Tab Line
  /-- router × 2^50 + granule base × 16 + level -/
  tree : Tab TreeEnt
  /-- split level of a 64 KiB block and the time of its last change or conflict (R217) -/
  split : Tab (Nat × Nat)
  /-- fabric tree: lines of local memory that other packages share (R397) -/
  fabShare : List Nat
  /-- the region that wrote a byte of pool storage last (R392), by its place in the package's map or its port's storage -/
  wrote : Tab Nat
  /-- first-level TLBs by core, last-level TLBs at 3072 + die -/
  tlb : Tab (List Xl)
  wcb : Tab (List Wcb)
  monitors : List Monitor
  tickets : Tab Ticket
  moves : Tab Move
  classq : Tab (List ClassReq)
  poison : List Nat
  freeFrames : Tab (List Nat)
  /-- widest scope at which transfers have lowered a barrier word's counts, by its place (R233) -/
  lowered : Tab Nat
  /-- barrier-table entries in use, by cluster: crew keys -/
  barTab : Tab (List Nat)
  stampCtr : Nat
  deriving DecidableEq, Repr

-- Control plane, power, pool, fabric, management.

/-- Launch port, commands and host-port registers (Tables 19-2, 21-3, 23-4). -/
structure Port where
  queue : List (List DWord)
  ldrop : Word
  fdtb : Nat
  ctxb : Nat
  ctxn : Nat
  farg : DWord
  done : Word
  lost : Bool
  busy : Bool
  phase : Nat
  /-- clock at which the phase began, and links that failed to train (R400): 0 to 15 stacks, 16 to 31 DDR-5 channels, 32 the
  host port, 33 and 34 pool ports A and B, 64 + p Weine port p -/
  phaseAt : Nat
  failed : List Nat
  ready : Bool
  ddrok : BitVec 16
  hbmok : BitVec 16
  aopcap : BitVec 3
  windows : Tab DWord
  bindings : Tab DWord
  up : Bool
  cxl : Bool
  /-- MSI-X notices sent, newest first -/
  notices : List Nat
  msix : Tab DWord
  /-- faults waiting for ring space, oldest first (R361): crew or engine key, engine or crew -/
  unposted : List Unposted
  /-- image slots in use: slot, team key -/
  images : Tab Nat
  nextRk : Nat
  readyCtr : Nat
  unsupported : Nat
  lastRead : List Byte
  abortReq : List Nat
  /-- cluster clocks that a pending team has waited without a fitting core (R331) -/
  waits : Tab Nat
  /-- pre-empted teams, each with the team that it makes room for (R331) -/
  roomFor : Tab Nat
  deriving DecidableEq, Repr

/-- An active collective group (R349, R350). -/
structure Group where
  /-- the other members' ranks with their latest reports -/
  members : List (Nat × Nat)
  rk : Nat
  q : Nat
  /-- the throttle level last sent -/
  sent : Nat
  /-- clock of the last change of `q`, 0 before the first -/
  changed : Nat
  period : Nat
  /-- when the last report was due -/
  report : Nat
  ends : Option Nat
  deriving DecidableEq, Repr

/-- Who issues an instruction: a PC slot of a crew, or an engine context. -/
inductive Agent
  | crew (id slot : Nat)
  | eng (key : Nat)
  deriving DecidableEq, Repr

/-- What a request of a cluster clock was granted (R345). -/
inductive Grant
  | issue (a : Agent)
  /-- a cluster clock of an X operation: context and operation -/
  | xop (eng op : Nat)
  /-- 128-byte units of a queue's oldest entry -/
  | move (eng units : Nat)
  deriving DecidableEq, Repr

/-- Power allowance, ratios and energy (R343 to R353). -/
structure Power where
  allow : Tab Nat
  pwa : Tab DWord
  pwr : Tab DWord
  req : Tab Nat
  ratio : Tab Nat
  lastWrite : Tab Nat
  floor : Tab Nat
  cycles : Tab (Tab Nat)
  idle : Tab Nat
  /-- the last interval charged in each cluster, counted from reset (R347) -/
  intervals : Tab Nat
  groups : Tab Group
  /-- requests that the last cluster clock withheld (R345) -/
  withheld : List PowerReq
  /-- this cluster clock's grants -/
  granted : List Grant
  /-- clusters whose requests of this cluster clock have been taken -/
  asked : List Nat
  deriving DecidableEq, Repr

structure Extent where
  valid : Bool
  shared : Bool
  port : Bool
  wbase : Nat
  len : Nat
  dpa : Nat
  tag : Word
  st : Nat
  deriving DecidableEq, Repr

/-- A row of a die's hint log: what a HINT advised for a 64 KiB place, or a sampled access count (R254, R390). -/
inductive Advice
  | hint (page code : Nat)
  | sampled (page count : Nat)
  deriving DecidableEq, Repr

structure Pool where
  exts : Tab Extent
  trainedA : Bool
  trainedB : Bool
  errlog : List (Nat × Nat)
  hints : Tab (List Advice)
  notices : List Nat
  migrMiss : Nat
  /-- contents of the pool's memory devices: port × 2^52 + device address -/
  dev : Memory
  deriving DecidableEq, Repr

/-- Weine ports and the fabric (R394 to R401). -/
structure Fab where
  rvalid : Bool
  frank : Nat
  ports : List Nat
  fenced : List Nat
  /-- capability words received, by port (R401) -/
  words : Tab DWord
  reach : Tab (List Nat)
  setAside : Tab Nat
  unreachable : List Nat
  lostLog : List Nat
  /-- answer to the last request of a peer; none where it is refused -/
  answer : Option (List Byte)
  /-- the bytes of that answer carry poison -/
  answerBad : Bool
  deriving DecidableEq, Repr

/-- An answer of the SPDM responder (R405). -/
inductive SpdmAnswer
  | version (vs : List Nat)
  | capabilities (cert chal meas : Bool)
  | algorithms (eddsa sha3 : Bool)
  | digests (ds : List (List Byte))
  | certificate (part : List Byte) (left : Nat)
  | challengeAuth (chain nonce sig : List Byte)
  | measurements (count : Nat) (blocks : List (Nat × List Byte)) (nonce sig : List Byte)
  | invalidRequest
  | unsupportedRequest (code : Nat)
  deriving DecidableEq, Repr

/-- Milden: images, fused values, SPDM (R402 to R406), cut tree caches (R11), system registers of Table 17-7. -/
structure Milden where
  /-- boot flash: image and signature; 0 Milden firmware, 1 I/O-die microcode, 2 C-die microcode -/
  flash : Tab (List Byte × List Byte)
  /-- images in use -/
  running : Tab (List Byte)
  bootRom : List Byte
  keyDigest : List Byte
  minVersion : Nat
  debug : Nat
  /-- the alias key that the last boot derived (R404) -/
  alias_ : List Byte
  /-- the mailbox reports that an image failed its check -/
  mailFail : Bool
  /-- answers sent, newest first -/
  answers : List SpdmAnswer
  transcript : List Byte
  treeCut : Bool
  wcbage : Nat
  millto : Nat
  engto : Nat
  deriving DecidableEq, Repr

/-- What happens next (log 1). -/
inductive Turn
  /-- the agent issues its next instruction -/
  | issue (a : Agent)
  /-- a slice clock of a core: the issue logic picks (R341, R342) -/
  | core (c : Nat)
  /-- an event or command of the opcode table -/
  | event (e : Instr)
  /-- a crew's deferred COMMUTATIVE atomics are performed (R229) -/
  | combine (crew : Nat)
  /-- a cache, tree cache or TLB replaces an entry (R210, R215, R376) -/
  | evict (holder line : Nat)
  | evictTree (router gran level : Nat)
  | evictTlb (holder n : Nat)
  /-- a cluster clock passes -/
  | tick
  deriving DecidableEq, Repr

structure State where
  turns : List Turn
  cur : Agent
  clock : Nat
  freeCount : Nat
  uid : Nat
  crews : Tab Crew
  engs : Tab Eng
  /-- by context: start count modulo 2^24, and how its last program stands: 0 running, 1 ended, 2 ended by a fault (R147, R149) -/
  forks : Tab (Nat × Nat)
  cores : Tab CoreSt
  teams : Tab Team
  regions : Tab Region
  strikeq : List StrikeAdm
  /-- clusters admitted to strikes in this cluster clock (R348) -/
  admits : Nat
  mem : MemSys
  port : Port
  power : Power
  pool : Pool
  fab : Fab
  mil : Milden
  deriving DecidableEq, Repr

/-- Faults of the model itself; the machine's own faults are next states. -/
inductive Fault
  /-- an instruction word was given to an agent that does not exist; raised by every meaning. Safe: no such run exists. -/
  | noAgent
  deriving DecidableEq, Repr

/-- Refusals. -/
inductive Refusal
  /-- the instruction has no meaning yet; raised by the dispatch table. Safe. -/
  | notModelled (mnemonic : String)
  deriving DecidableEq, Repr

-- Reset.

def Regs.start : Regs :=
  { v := [], tag := [], s := [], p := [], mode := 0, asw := 0, lfsr := [], watch := [], tretpc := 0, tretctl := 0, errs := [] }

def MemSys.reset : MemSys :=
  { pkg := [], arranged := [], ext := [], peer := [], scr := [], lines := [], l2 := [], tree := [], split := [], fabShare := [], wrote := [], tlb := [],
    wcb := [], monitors := [], tickets := [], moves := [], classq := [], poison := [], freeFrames := [],
    lowered := [], barTab := [], stampCtr := 0 }

def Port.reset : Port :=
  { queue := [], ldrop := 0, fdtb := 0, ctxb := 0, ctxn := 0, farg := 0, done := 0, lost := false, busy := false,
    phase := 0, phaseAt := 0, failed := [], ready := false, ddrok := 0, hbmok := 0, aopcap := 0, windows := [], bindings := [], up := false,
    cxl := false, notices := [], msix := [], unposted := [], images := [], nextRk := 1, readyCtr := 0,
    unsupported := 0, lastRead := [], abortReq := [], waits := [], roomFor := [] }

def Power.reset : Power :=
  { allow := [], pwa := [], pwr := [], req := [], ratio := [], lastWrite := [], floor := [], cycles := [], idle := [],
    intervals := [], groups := [], granted := [], asked := [], withheld := [] }

def Pool.reset : Pool :=
  { exts := [], trainedA := false, trainedB := false, errlog := [], hints := [], notices := [], migrMiss := 0, dev := [] }

def Fab.reset : Fab :=
  { rvalid := false, frank := 0, ports := [], fenced := [], words := [], reach := [], setAside := [],
    unreachable := [], lostLog := [], answer := none, answerBad := false }

def Milden.reset : Milden :=
  { flash := [], running := [], bootRom := [], keyDigest := [], minVersion := 0, debug := 0, alias_ := [], mailFail := false, answers := [],
    transcript := [], treeCut := false, wcbage := 2000, millto := 0x01000000, engto := 0 }

/-- The machine right after reset: no work, phase 0 of bring-up (R400). -/
def State.reset : State :=
  { turns := [], cur := .crew 0 0, clock := 0, freeCount := 0, uid := 0, crews := [], engs := [], forks := [], cores := [],
    teams := [], regions := [], strikeq := [], admits := 0, mem := .reset, port := .reset, power := .reset, pool := .reset,
    fab := .reset, mil := .reset }

end Sys2Proof.Machine
end

