-- ==== Sys2Proof/Machine/Mem.lean ====
section
/-! DEFINITION. Memory and caches: bytes, L1 lines, sharer trees, loads and stores by scope, releases, acquires and atomics
at their perform points (R206 to R217, R221 to R228, R235, R239, R407, R408, R416). -/

namespace Sys2Proof.Machine

-- Bytes.

/-- A byte of memory; an unlisted address reads 0 (log 3). -/
def Memory.get (m : Memory) (a : Nat) : Byte := Tab.get m a 0

/-- A write that keeps the canonical form. -/
def Memory.put (m : Memory) (a : Nat) (b : Byte) : Memory := if b = 0 then Tab.del m a else Tab.put m a b

/-- Addresses rise strictly and no entry is 0. -/
def Memory.wf (m : Memory) : Bool := Tab.above 0 m && m.all (fun c => c.2 != 0)

def Memory.putBytes (m : Memory) (a : Nat) (bs : List Byte) : Memory :=
  match bs with
  | [] => m
  | b :: r => Memory.putBytes (Memory.put m a b) (a + 1) r

def Memory.getBytes (m : Memory) (a n : Nat) : List Byte := (List.range n).map (fun i => Memory.get m (a + i))

/-- Little-endian number of bytes (R4). -/
def leNat (bs : List Byte) : Nat :=
  match bs with
  | [] => 0
  | b :: r => b.toNat + 256 * leNat r

/-- Little-endian bytes of a number. -/
def leOf (n v : Nat) : List Byte :=
  match n with
  | 0 => []
  | n + 1 => BitVec.ofNat 8 v :: leOf n (v / 256)

-- Holders of lines.

def lineOf (pa : Nat) : Nat := pa / 128
def holderKey (h ln : Nat) : Nat := h * 2 ^ 45 + ln
def fusedHolder (cluster : Nat) : Nat := 3072 + cluster
def clusterHolder (cluster : Nat) : Nat := 3104 + cluster
def constHolder (cluster : Nat) : Nat := 3136 + cluster
def ioHolder (die : Nat) : Nat := 3168 + die
def hostHolder : Nat := 3170
/-- The home slice, as a point of atomics and monitors. -/
def homePoint : Nat := 4000

/-- Where an agent's GLOBAL accesses go: its own L1 (a core's or the fused one), the cluster L1, and the router at which they
enter the mesh. -/
structure Port1 where
  l1 : Option Nat
  cl1 : Option Nat
  router : Nat
  deriving DecidableEq, Repr

def MemSys.line (m : MemSys) (h ln : Nat) : Option Line := Tab.find m.lines (holderKey h ln)
def MemSys.setLine (m : MemSys) (h ln : Nat) (l : Line) : MemSys :=
  { m with lines := Tab.put m.lines (holderKey h ln) { l with stamp := m.stampCtr }, stampCtr := m.stampCtr + 1 }
def MemSys.delLine (m : MemSys) (h ln : Nat) : MemSys := { m with lines := Tab.del m.lines (holderKey h ln) }

def Line.byte (l : Line) (j : Nat) : Byte := l.data.extractLsb' (8 * j) 8
def Line.put (l : Line) (j : Nat) (b : Byte) (dirty : Bool) : Line :=
  let one : BitVec 128 := 1#128 <<< j
  { l with
    data := (l.data &&& ~~~((0xFF#1024) <<< (8 * j))) ||| ((b.setWidth 1024) <<< (8 * j))
    valid := l.valid ||| one
    dirty := if dirty then l.dirty ||| one else l.dirty }

def Line.empty (st : LineSt) : Line :=
  { st := st, data := 0, valid := 0, dirty := 0, stamp := 0, bad := false, solo := false, mark := 0 }

def byteIdx : List Nat := List.range 128

/-- The line with its missing bytes filled in, clean. -/
def Line.fill (l : Line) (f : Nat → Byte) : Line :=
  byteIdx.foldl (fun l j => if l.valid.getLsbD j then l else l.put j (f j) false) l

/-- The dirty bytes of `l` laid over another line, dirty there. -/
def Line.over (l o : Line) : Line :=
  { byteIdx.foldl (fun o j => if l.dirty.getLsbD j then o.put j (l.byte j) true else o) o with
    bad := o.bad || (l.bad && l.dirty != 0) }

/-- A copy in M, O, E or S (R207). -/
def Line.tracked (l : Line) : Bool := l.st != .L

/-- A copy that its tree knows: lines of private and read-only pages join none (R218). -/
def Line.inTree (l : Line) : Bool := l.tracked && !l.solo

def LineSt.owner (st : LineSt) : Bool := st == .M || st == .O

/-- The line was used: it is the latest in replacement order. -/
def MemSys.use (m : MemSys) (h ln : Nat) : MemSys :=
  match m.line h ln with
  | some l => m.setLine h ln l
  | none => m

/-- A replacement mark for a line. -/
def MemSys.remark (m : MemSys) (h ln mark : Nat) : MemSys :=
  match m.line h ln with
  | some l => m.setLine h ln { l with mark := mark }
  | none => m

/-- The L1 holders of a line with their copies. -/
def MemSys.holders (m : MemSys) (ln : Nat) : List (Nat × Line) :=
  (m.lines.filter (fun kv => kv.1 % 2 ^ 45 == ln && decide (kv.1 / 2 ^ 45 < 3136))).map (fun kv => (kv.1 / 2 ^ 45, kv.2))

-- Memory and its L2 (R13, R20).

/-- A byte of package memory itself: a free value where the device has arranged its own (R369). -/
def MemSys.memByte (m : MemSys) (pa : Nat) : Byte :=
  match m.arranged.find? (fun r => decide (r.1 ≤ pa) && decide (pa < r.1 + r.2.1)) with
  | some r => Config.freeByte (r.2.2 + (pa - r.1))
  | none => Memory.get m.pkg pa

/-- Ranges without the bytes of another range. -/
def cutRanges (rs : List (Nat × Nat × Nat)) (base size : Nat) : List (Nat × Nat × Nat) :=
  rs.flatMap (fun r =>
    let lo := max r.1 base
    let hi := min (r.1 + r.2.1) (base + size)
    if hi ≤ lo then [r]
    else [(r.1, lo - r.1, r.2.2), (hi, r.1 + r.2.1 - hi, r.2.2 + (hi - r.1))].filter (fun x => x.2.1 != 0))

/-- A byte of package memory itself is written. -/
def MemSys.memPut (m : MemSys) (pa : Nat) (b : Byte) : MemSys :=
  { m with pkg := Memory.put m.pkg pa b, arranged := cutRanges m.arranged pa 1 }

def MemSys.setL2 (m : MemSys) (ln : Nat) (l : Line) : MemSys :=
  { m with l2 := Tab.put m.l2 ln { l with stamp := m.stampCtr }, stampCtr := m.stampCtr + 1 }

/-- A byte as the home slice holds it: in its L2, else in memory. -/
def MemSys.rawByte (m : MemSys) (pa : Nat) : Byte :=
  match Tab.find m.l2 (lineOf pa) with
  | some l => if l.valid.getLsbD (pa % 128) then l.byte (pa % 128) else m.memByte pa
  | none => m.memByte pa

/-- A byte written at the home slice: into its L2. -/
def MemSys.putRaw (m : MemSys) (pa : Nat) (b : Byte) : MemSys :=
  m.setL2 (lineOf pa) ((Tab.get m.l2 (lineOf pa) (Line.empty .L)).put (pa % 128) b true)

/-- A line read from its memory tier into the L2. -/
def MemSys.fillL2 (m : MemSys) (ln : Nat) : MemSys :=
  m.setL2 ln ((Tab.get m.l2 ln (Line.empty .L)).fill (fun j => m.memByte (ln * 128 + j)))

/-- The dirty bytes of an L2 line go to its memory tier. -/
def MemSys.writeL2 (m : MemSys) (ln : Nat) : MemSys :=
  match Tab.find m.l2 ln with
  | none => m
  | some l =>
    (byteIdx.foldl (fun m j => if l.dirty.getLsbD j then m.memPut (ln * 128 + j) (l.byte j) else m) m).setL2 ln { l with dirty := 0 }

/-- An L2 line is replaced. -/
def MemSys.dropL2 (m : MemSys) (ln : Nat) : MemSys :=
  let m := m.writeL2 ln
  { m with l2 := Tab.del m.l2 ln }

/-- The L2 lines of a range. -/
def MemSys.l2In (m : MemSys) (base size : Nat) : List Nat :=
  (m.l2.filter (fun kv => decide (base ≤ kv.1 * 128) && decide (kv.1 * 128 < base + size))).map Prod.fst

/-- The L2 lines of a range, written to memory and invalidated. -/
def MemSys.clearL2 (m : MemSys) (base size : Nat) : MemSys := (m.l2In base size).foldl MemSys.dropL2 m

/-- The byte that the home slice answers with: an owner's copy, else its own (R213). -/
def MemSys.homeByte (m : MemSys) (pa : Nat) : Byte :=
  match (m.holders (lineOf pa) ++ (match m.line hostHolder (lineOf pa) with
      | some l => [(hostHolder, l)]
      | none => [])).find? (fun hl => hl.2.inTree && hl.2.st.owner) with
  | some (_, l) => l.byte (pa % 128)
  | none => m.rawByte pa

/-- A whole line as the home slice answers, in a state. -/
def MemSys.granted (m : MemSys) (ln : Nat) (st : LineSt) : Line := (Line.empty st).fill (fun j => m.homeByte (ln * 128 + j))

-- Routers and trees.

/-- Home slice of a physical address (R206). -/
def homeSlice (pa : Nat) : Nat :=
  ((bits pa 16 9) ^^^ (bits pa 25 9) ^^^ (bits pa 34 9) ^^^ (bits pa 43 9)) % 512

def routerAt (x y : Nat) : Nat := y * 16 + x

/-- Origin of a C-die's routers (R407). -/
def dieX (d : Nat) : Nat := 8 * ((d / 2) % 2)
def dieY (d : Nat) : Nat := 8 * (d / 4) + 4 * (d % 2)

/-- Home router of a physical address (R407). -/
def homeRouter (pa : Nat) : Nat :=
  let s := homeSlice pa
  let m := (s % 64) / 2
  routerAt (dieX (s / 64) + m % 8) (dieY (s / 64) + m / 8)

/-- Router of a core, and its index among the router's twelve cores (R211, R407). -/
def coreRouter (core : Nat) : Nat :=
  let g := core / 96
  routerAt (dieX (g / 4) + (core % 96) / 12) (dieY (g / 4) + g % 4)

/-- Split level of a 64 KiB block (R217). -/
def MemSys.level (m : MemSys) (pa : Nat) : Nat := (Tab.get m.split (pa / 65536) (0, 0)).1

/-- Size of a block's granules. -/
def granSize (level : Nat) : Nat := 65536 / 2 ^ level

def MemSys.granBase (m : MemSys) (pa : Nat) : Nat := pa / granSize (m.level pa) * granSize (m.level pa)

def treeKey (r gran level : Nat) : Nat := r * 2 ^ 50 + gran / 128 * 16 + level

/-- The tree cache's set of a granule; a cut cache has one (R212, R11). -/
def treeSet (cut : Bool) (pa : Nat) : Nat := if cut then 0 else (bits pa 16 8) ^^^ (bits pa 24 8)

/-- Ways of a set of a tree cache. -/
def treeWays (cut : Bool) : Nat := if cut then 2 else 16

/-- The next router from `r` towards `t`, first in x and then in y (R213), with the link taken: 0 north, 1 east, 2 south,
3 west. -/
def hop (r t : Nat) : Nat × Nat :=
  if r % 16 < t % 16 then (r + 1, 1)
  else if t % 16 < r % 16 then (r - 1, 3)
  else if r / 16 < t / 16 then (r + 16, 2)
  else (r - 16, 0)

/-- The routers from `r` to `t`. -/
def pathTo (t : Nat) : Nat → Nat → List Nat
  | 0, _ => []
  | fuel + 1, r => if r = t then [r] else r :: pathTo t fuel (hop r t).1

def hops (r t : Nat) : Nat := (max (r % 16) (t % 16) - min (r % 16) (t % 16)) + (max (r / 16) (t / 16) - min (r / 16) (t / 16))

def opposite (link : Nat) : Nat := (link + 2) % 4
def childBit (link : Nat) : BitVec 4 := 8#4 >>> link

/-- The router at the far end of a link. -/
def acrossLink (r link : Nat) : Nat :=
  if link = 0 then r - 16 else if link = 1 then r + 1 else if link = 2 then r + 16 else r - 1

/-- Core in whose share of the store an L1 holder keeps a line: a fused L1 keeps it in that of core n mod 96 (R204). -/
def shareCore (h ln : Nat) : Nat := if h < 3072 then h else if h < 3104 then (h - 3072) * 96 + ln % 96 else 0

/-- Core at whose place an L1 holder stands in the trees: a fused L1 is one holder, at its cluster's first core (R204, log 19). -/
def holderCore (h : Nat) : Nat := if h < 3072 then h else if h < 3104 then (h - 3072) * 96 else 0

/-- Router and local index of an L1 holder. -/
def holderPlace (h : Nat) : Nat × Nat := (coreRouter (holderCore h), holderCore h % 96 % 12)

/-- Whether a holder has a line of a granule in the tree. -/
def MemSys.holdsGran (m : MemSys) (h base size : Nat) : Bool :=
  m.lines.any (fun kv => kv.1 / 2 ^ 45 == h && kv.2.inTree && decide (base ≤ kv.1 % 2 ^ 45 * 128)
    && decide (kv.1 % 2 ^ 45 * 128 < base + size))

/-- Creates the tree entries of a read's path and adds the requester (R213). -/
def joinPath (gran level home : Nat) (loc : BitVec 12) (child : BitVec 4) :
    Nat → Nat → MemSys → MemSys
  | 0, _, m => m
  | fuel + 1, r, m =>
    let k := treeKey r gran level
    match Tab.find m.tree k with
    | some t =>
      { m with tree := Tab.put m.tree k { t with loc := t.loc ||| loc, child := t.child ||| child, stamp := m.stampCtr }
               stampCtr := m.stampCtr + 1 }
    | none =>
      if r = home then
        { m with tree := Tab.put m.tree k ⟨loc, gran, level, 4, child, 0, m.stampCtr⟩, stampCtr := m.stampCtr + 1 }
      else
        let (n, link) := hop r home
        let m' := { m with tree := Tab.put m.tree k ⟨loc, gran, level, link, child, 0, m.stampCtr⟩
                           stampCtr := m.stampCtr + 1 }
        joinPath gran level home 0 (childBit (opposite link)) fuel n m'

/-- A holder of a line joins its granule's tree. -/
def MemSys.join (m : MemSys) (h ln : Nat) : MemSys :=
  let pa := ln * 128
  joinPath (m.granBase pa) (m.level pa) (homeRouter pa) (1#12 <<< (holderPlace h).2) 0 40 (holderPlace h).1 m

/-- Prunes upward from a router that lost a holder or a child (R215). -/
def prunePath (gran level : Nat) : Nat → Nat → BitVec 12 → BitVec 4 → MemSys → MemSys
  | 0, _, _, _, m => m
  | fuel + 1, r, loc, child, m =>
    let k := treeKey r gran level
    match Tab.find m.tree k with
    | none => m
    | some t =>
      let t' := { t with loc := t.loc &&& ~~~loc, child := t.child &&& ~~~child }
      if t'.loc = 0 && t'.child = 0 then
        let m := { m with tree := Tab.del m.tree k }
        if t.up = 4 then m else prunePath gran level fuel (acrossLink r t.up) 0 (childBit (opposite t.up)) m
      else { m with tree := Tab.put m.tree k t' }

/-- A holder that dropped a line tells its router (R215). -/
def MemSys.leave (m : MemSys) (h ln : Nat) : MemSys :=
  let pa := ln * 128
  let base := m.granBase pa
  if m.holdsGran h base (granSize (m.level pa)) then m
  else prunePath base (m.level pa) 40 (holderPlace h).1 (1#12 <<< (holderPlace h).2) 0 m

/-- Writes a line's dirty bytes home. -/
def MemSys.writeHome (m : MemSys) (ln : Nat) (l : Line) : MemSys :=
  byteIdx.foldl (fun m j => if l.dirty.getLsbD j then m.putRaw (ln * 128 + j) (l.byte j) else m)
    { m with poison := if l.bad && l.dirty != 0 then ln :: m.poison else m.poison }

/-- A tracked copy is written home if dirty, dropped, and leaves its tree (R210, R215). -/
def MemSys.dropTracked (m : MemSys) (h ln : Nat) : MemSys :=
  match m.line h ln with
  | some l =>
    if !l.tracked then m
    else
      let m := (m.writeHome ln l).delLine h ln
      if l.solo then m else m.leave h ln
  | none => m

/-- Copies written home if dirty, and invalidated. -/
def MemSys.invalidate (m : MemSys) (hit : Nat × Line → Bool) : MemSys :=
  let m' := (m.lines.filter hit).foldl (fun m kv => m.writeHome (kv.1 % 2 ^ 45) kv.2) m
  { m' with lines := m.lines.filter (fun kv => !hit kv) }

/-- A key of `lines` lies in a range of memory. -/
def keyIn (base size k : Nat) : Bool := decide (base ≤ k % 2 ^ 45 * 128) && decide (k % 2 ^ 45 * 128 < base + size)

/-- The holders that the home slice keeps in its trees: the L1s, and the host as one more (R382). -/
def treeHolder (h : Nat) : Bool := decide (h < 3136) || h == hostHolder

/-- The fabric granule of a line of package memory, the split level clipped at level 5 (R397), meets a range. -/
def MemSys.fabMeets (m : MemSys) (ln base size : Nat) : Bool :=
  let n := granSize (min (m.level (ln * 128)) 5)
  let b := ln * 128 / n * n
  decide (b < base + size) && decide (base < b + n)

/-- Invalidates every copy that the trees of a range know, dirty bytes home, and frees their entries (R214). -/
def MemSys.tearRange (m : MemSys) (base size : Nat) : MemSys :=
  let m := m.invalidate (fun kv => keyIn base size kv.1 && kv.2.inTree && treeHolder (kv.1 / 2 ^ 45))
  { m with
    tree := m.tree.filter (fun kv => !(decide (base ≤ kv.2.gbase) && decide (kv.2.gbase < base + size)))
    fabShare := m.fabShare.filter (fun ln => !m.fabMeets ln base size) }

-- Eviction by a router (R215, R216).

/-- The routers of the subtree below a router that holds an entry of the granule. -/
def subtree (m : MemSys) (gran level : Nat) : Nat → Nat → List Nat
  | 0, _ => []
  | fuel + 1, r =>
    match Tab.find m.tree (treeKey r gran level) with
    | none => []
    | some t => r :: (List.range 4).flatMap (fun d =>
        if (t.child &&& childBit d) != 0 then subtree m gran level fuel (acrossLink r d) else [])

/-- An eviction completes: the router's subtree is torn down with dirty data home, and its parent is pruned. -/
def MemSys.evictEntry (m : MemSys) (r gran level : Nat) : MemSys :=
  match Tab.find m.tree (treeKey r gran level) with
  | none => m
  | some t =>
    let rs := subtree m gran level 40 r
    let m := m.invalidate (fun kv => keyIn gran (granSize level) kv.1 && kv.2.inTree && decide (kv.1 / 2 ^ 45 < 3104)
      && rs.contains (holderPlace (kv.1 / 2 ^ 45)).1)
    let m := { m with
      tree := m.tree.filter (fun kv => !(kv.2.gbase == gran && kv.2.level == level && rs.contains (kv.1 / 2 ^ 50))) }
    if t.up = 4 then m else prunePath gran level 40 (acrossLink r t.up) 0 (childBit (opposite t.up)) m

/-- A read or a teardown of a granule waits for the evictions in progress there: they complete first (R213, R216). -/
def MemSys.quiet (m : MemSys) (ln : Nat) : MemSys :=
  (m.tree.filter (fun kv => kv.2.state == 2 && kv.2.gbase == m.granBase (ln * 128))).foldl
    (fun m kv => m.evictEntry (kv.1 / 2 ^ 50) kv.2.gbase kv.2.level) m

-- Teardowns and monitors.

/-- Fires the monitors that satisfy `p` (R271). -/
def MemSys.fireIf (m : MemSys) (p : Monitor → Bool) : MemSys :=
  { m with monitors := m.monitors.map (fun w => if p w then { w with fired := true } else w) }

/-- Fires the monitors of a line of package memory at a point. -/
def MemSys.fire (m : MemSys) (point ln : Nat) : MemSys :=
  m.fireIf (fun w => w.point == point && w.sp == .pkg && lineOf w.a == ln)

/-- Fires the monitors of a line of package memory at every point. -/
def MemSys.fireAll (m : MemSys) (ln : Nat) : MemSys := m.fireIf (fun w => w.sp == .pkg && lineOf w.a == ln)

/-- Fires the monitors of a peer's line. -/
def MemSys.firePeer (m : MemSys) (ln : Nat) : MemSys := m.fireIf (fun w => w.sp == .peer && lineOf w.a == ln)

/-- A teardown for a write of a line, with the split rule of R217; `t` is the clock. -/
def MemSys.teardown (m : MemSys) (t ln : Nat) : MemSys :=
  let m := m.quiet ln
  let pa := ln * 128
  let base := m.granBase pa
  let size := granSize (m.level pa)
  let hs := (m.lines.filter (fun kv => kv.2.inTree && treeHolder (kv.1 / 2 ^ 45) && keyIn base size kv.1)).map
    (fun kv => kv.1 / 2 ^ 45)
  let conflict := hs.any (fun h => match m.line h ln with
    | some l => !l.inTree
    | none => true)
  let m := (m.tearRange base size).fire homePoint ln
  if conflict then
    let blk := pa / 65536
    let m := m.tearRange (blk * 65536) 65536
    { m with split := Tab.put m.split blk (min 9 ((Tab.get m.split blk (0, 0)).1 + 1), t) }
  else m

-- L lines.

/-- The copies of a line in the core L1s of a cluster whose cluster L1 has published bytes `pub` of it: a core reads those
bytes before its own clean ones (R209), so its clean ones at their places go, and a copy that no tree knows goes home (R223). -/
def MemSys.dropMates (m : MemSys) (h ln : Nat) (pub : BitVec 128) : MemSys :=
  (m.lines.filter (fun kv => kv.1 % 2 ^ 45 == ln && decide (kv.1 / 2 ^ 45 < 3072) && clusterHolder (kv.1 / 2 ^ 45 / 96) == h)).foldl
    (fun m kv =>
      let v := kv.2.valid &&& ~~~(pub &&& ~~~kv.2.dirty)
      if kv.2.tracked then m.dropTracked (kv.1 / 2 ^ 45) ln
      else if v = 0 then m.delLine (kv.1 / 2 ^ 45) ln
      else { m with lines := Tab.put m.lines kv.1 { kv.2 with valid := v } }) m

/-- Publishes the dirty bytes of an L line, which is then no longer held (R210, R224). -/
def MemSys.publish (m : MemSys) (t h ln : Nat) : MemSys :=
  match m.line h ln with
  | some l =>
    if l.tracked || l.dirty == 0 then m
    else (((((m.teardown t ln).writeHome ln l).dropMates h ln l.dirty).delLine h ln).fire homePoint ln).fire h ln
  | none => m

/-- The lines that a holder holds in L. -/
def MemSys.lLines (m : MemSys) (h : Nat) : List Nat :=
  (m.lines.filter (fun kv => kv.1 / 2 ^ 45 == h && kv.2.st == .L)).map (fun kv => kv.1 % 2 ^ 45)

/-- Moves dirty L bytes of a line from a core L1 into the cluster L1, the moving bytes winning (R224 step 1). -/
def MemSys.moveL (m : MemSys) (h g ln : Nat) : MemSys :=
  match m.line h ln with
  | some l =>
    if l.st != .L || l.dirty == 0 then m
    else
      let left := { l with valid := l.valid &&& ~~~l.dirty, dirty := 0 }
      let m := (m.setLine g ln (l.over ((m.line g ln).getD (Line.empty .L)))).fire g ln
      if left.valid = 0 then m.delLine h ln else m.setLine h ln left
  | none => m

/-- The cluster L1 that takes a core L1's bytes before they are published. -/
def clusterOver (h : Nat) : Option Nat := if h < 3072 then some (clusterHolder (h / 96)) else none

/-- Publishes a holder's L line; a core L1's bytes go over those of its cluster L1 and are published with them (R224 step 2). -/
def MemSys.publishOver (m : MemSys) (t h ln : Nat) : MemSys :=
  match clusterOver h with
  | some g => if (m.line h ln).any (fun l => !l.tracked && l.dirty != 0) then (m.moveL h g ln).publish t g ln else m
  | none => m.publish t h ln

/-- An L1 holder gives a line up (R210). -/
def MemSys.evictL1 (m : MemSys) (t h ln : Nat) : MemSys := ((m.publishOver t h ln).dropTracked h ln).delLine h ln

/-- Lines of peer memory are held under line numbers above every local line. -/
def peerLine (pa : Nat) : Nat := 2 ^ 44 + pa / 128 % 2 ^ 44

/-- Lines of a fabric granule: the owner's split level, clipped at level 5, 2 KiB (R397). -/
def fabLines (level : Nat) : Nat := granSize (min level 5) / 128

/-- A teardown takes every copy that this package holds of the granule of a peer line (R397). -/
def MemSys.dropPeer (m : MemSys) (ln level : Nat) : MemSys :=
  { m with lines := m.lines.filter (fun kv => kv.1 % 2 ^ 45 / fabLines level != peerLine (ln * 128) / fabLines level) }

/-- Bytes of one line of a peer's memory are written, at the peer's home slice: the monitors of the line wake (R271). The split
level is the owner's; the smallest granule that it can have is torn down here at once, a larger one by the owner's teardown. -/
def MemSys.putPeer (m : MemSys) (ln : Nat) (bs : List (Nat × Byte)) : MemSys :=
  let m := (m.dropPeer ln 5).firePeer ln
  { m with peer := bs.foldl (fun g kv => Memory.put g (ln * 128 + kv.1) kv.2) m.peer }

/-- Drains a write-combining entry into the peer's memory (R235, R397, R398). -/
def MemSys.drainOne (m : MemSys) (w : Wcb) : MemSys := m.putPeer w.line w.bytes

def MemSys.drainAll (m : MemSys) (core : Nat) : MemSys :=
  let ws := Tab.get m.wcb core []
  let m := ws.foldl MemSys.drainOne m
  { m with wcb := Tab.del m.wcb core }

/-- Drains the core's entry of one line (R235). -/
def MemSys.drainLine (m : MemSys) (core : Option Nat) (ln : Nat) : MemSys :=
  match core with
  | none => m
  | some c =>
    let ws := Tab.get m.wcb c []
    let m := (ws.filter (fun (x : Wcb) => x.line == ln)).foldl MemSys.drainOne m
    { m with wcb := Tab.put m.wcb c (ws.filter (fun (x : Wcb) => x.line != ln)) }

/-- A core L1's dirty L bytes of a line move into the cluster L1 to be published: the line is no longer held L (R224 step 2). -/
def MemSys.moveOut (m : MemSys) (h g ln : Nat) : MemSys :=
  if (m.line h ln).any (fun l => l.st == .L && l.dirty != 0) then (m.moveL h g ln).delLine h ln else m

/-- The dirty L bytes of the agent's L1 move into its cluster L1 (R224 step 1); `out` when they are published from there. -/
def MemSys.moveAll (m : MemSys) (p : Port1) (out : Bool) : MemSys :=
  match p.l1, p.cl1 with
  | some h, some g => (m.lLines h).foldl (fun m ln => if out then m.moveOut h g ln else m.moveL h g ln) m
  | _, _ => m

/-- The dirty L bytes of a holder are published. -/
def MemSys.pubAll (m : MemSys) (t : Nat) (h : Option Nat) : MemSys :=
  match h with
  | some h => (m.lLines h).foldl (fun m ln => m.publish t h ln) m
  | none => m

/-- A release at a scope code of Table 7-5 (R224). -/
def MemSys.release (m : MemSys) (t : Nat) (p : Port1) (core : Option Nat) (scope : Nat) : MemSys :=
  let m := if 2 ≤ scope then m.moveAll p (decide (3 ≤ scope)) else m
  let m := if 3 ≤ scope then (m.pubAll t p.cl1).pubAll t p.l1 else m
  if 5 ≤ scope then
    match core with
    | some c => m.drainAll c
    | none => m
  else m

/-- Clean bytes of every L line of a holder become invalid (R225). -/
def MemSys.cleanL (m : MemSys) (h : Nat) : MemSys :=
  let ls := m.lines.map (fun kv =>
    if kv.1 / 2 ^ 45 == h && kv.2.st == .L then (kv.1, { kv.2 with valid := kv.2.dirty }) else kv)
  { m with lines := ls.filter (fun kv => kv.2.valid != 0) }

/-- An acquire at a scope (R225). -/
def MemSys.acquire (m : MemSys) (p : Port1) (scope : Nat) : MemSys :=
  if scope < 3 then m
  else
    let f : Option Nat → MemSys → MemSys := fun h m =>
      match h with
      | some h => m.cleanL h
      | none => m
    f p.l1 (f p.cl1 m)

-- Loads (R209, R213, R408).

/-- The byte of R209 from step 2 on. -/
def MemSys.seeByte (m : MemSys) (p : Port1) (pa : Nat) : Byte :=
  let j := pa % 128
  let at_ : Option Nat → Option Line := fun h => h.bind (fun h => m.line h (lineOf pa))
  match at_ p.l1, at_ p.cl1 with
  | some l, some g =>
    if l.dirty.getLsbD j then l.byte j
    else if g.valid.getLsbD j then g.byte j
    else if l.valid.getLsbD j then l.byte j
    else m.homeByte pa
  | some l, none => if l.valid.getLsbD j then l.byte j else m.homeByte pa
  | none, some g => if g.valid.getLsbD j then g.byte j else m.homeByte pa
  | none, none => m.homeByte pa

/-- The byte of R209 from step 3 on, the core's own line apart: the cluster L1's L byte, else the home slice's. -/
def MemSys.lowByte (m : MemSys) (p : Port1) (pa : Nat) : Byte :=
  match p.cl1.bind (fun g => m.line g (lineOf pa)) with
  | some g => if g.valid.getLsbD (pa % 128) then g.byte (pa % 128) else m.homeByte pa
  | none => m.homeByte pa

/-- The cluster L1 holds a line with an uncorrectable error. -/
def MemSys.clusterBad (m : MemSys) (p : Port1) (ln : Nat) : Bool := (p.cl1.bind (fun g => m.line g ln)).any (fun l => l.bad)

/-- Whether a load of a byte reaches the home slice. -/
def MemSys.misses (m : MemSys) (p : Port1) (pa : Nat) : Bool :=
  let j := pa % 128
  let has : Option Nat → Bool := fun h => match h.bind (fun h => m.line h (lineOf pa)) with
    | some l => l.valid.getLsbD j
    | none => false
  !(has p.l1 || has p.cl1)

/-- The routers of a tree from `r` along its UP links to the root. -/
def MemSys.upPath (m : MemSys) (gran level : Nat) : Nat → Nat → List Nat
  | 0, _ => []
  | fuel + 1, r =>
    match Tab.find m.tree (treeKey r gran level) with
    | none => []
    | some t => if t.up = 4 then [r] else r :: m.upPath gran level fuel (acrossLink r t.up)

/-- The link between neighbouring routers. -/
def linkTo (r q : Nat) : Nat := if q = r + 1 then 1 else if q + 1 = r then 3 else if q = r + 16 then 2 else 0

/-- The way through a tree between two routers, given their ways to the root: its links, and the place of its first one in
R213's order, 0 when there is none. -/
def treeWay (us qs : List Nat) : Option (Nat × Nat) :=
  match us.find? qs.contains with
  | none => none
  | some x =>
    let i := us.idxOf x
    let j := qs.idxOf x
    let next := if i = 0 then (qs.take j).getLast? else us[1]?
    some (i + j, match next with
      | none => 0
      | some q => linkTo (us.headD 0) q + 1)

/-- The order of R213 among holders seen from the router that steers: hops, LOCAL before the links north, east, south, west,
lowest core. -/
def MemSys.nearKey (m : MemSys) (gran level r h : Nat) : Option Nat :=
  (treeWay (m.upPath gran level 40 r) (m.upPath gran level 40 (holderPlace h).1)).map
    (fun w => (w.1 * 8 + w.2) * 4096 + holderCore h)

/-- The holder that supplies a read from router `r`: the first entry on the way home steers it to the nearest (R213). -/
def MemSys.supplier (m : MemSys) (r ln : Nat) : Option (Nat × Line) :=
  let pa := ln * 128
  let gran := m.granBase pa
  let level := m.level pa
  match (pathTo (homeRouter pa) 40 r).find? (fun x => (Tab.find m.tree (treeKey x gran level)).isSome) with
  | none => none
  | some x => (((m.holders ln).filter (fun hl => hl.2.inTree)).foldl (fun (o : Option (Nat × Nat × Line)) hl =>
    match m.nearKey gran level x hl.1, o with
    | none, _ => o
    | some k, none => some (k, hl)
    | some k, some b => if k < b.1 then some (k, hl) else o) none).map Prod.snd

/-- The supplier of a line holds it with an uncorrectable error. -/
def MemSys.homeBad (m : MemSys) (r ln : Nat) : Bool := (m.supplier r ln).any (fun hl => hl.2.bad)

/-- A read at home meets an uncorrectable error or a pool line that came back with poison (R203, R391). -/
def MemSys.homePoisoned (m : MemSys) (r ln : Nat) : Bool := m.poison.contains ln || m.homeBad r ln

/-- The byte that a load takes lies in a line with an uncorrectable error (R203). -/
def MemSys.badByte (m : MemSys) (p : Port1) (pa : Nat) : Bool :=
  let at_ : Option Nat → Option Line := fun h => (h.bind (fun h => m.line h (lineOf pa))).filter (fun l => l.valid.getLsbD (pa % 128))
  match at_ p.l1, at_ p.cl1 with
  | some l, some g => if l.dirty.getLsbD (pa % 128) then l.bad else g.bad
  | some l, none => l.bad
  | none, some g => g.bad
  | none, none => m.homeBad p.router (lineOf pa)

/-- A copy that has supplied a read: M becomes O, E becomes S. -/
def Line.lent (l : Line) : Line :=
  { l with st := match l.st with
    | .M => .O
    | .E => .S
    | x => x }

/-- The holder that answers a read from router `r`, or the host's own copy, is no longer the sole one (R213). -/
def MemSys.downgrade (m : MemSys) (r ln : Nat) : MemSys :=
  let one : MemSys → Nat → Line → MemSys := fun m h l =>
    { m with lines := Tab.put m.lines (holderKey h ln) l.lent }
  let m := match m.supplier r ln with
    | some (h, l) => one m h l
    | none => m
  match m.line hostHolder ln with
  | some l => one m hostHolder l
  | none => m

/-- Policies of Table 7-5 that fill nothing. -/
def fillsNone (cache : Nat) : Bool := cache == 1 || cache == 3

/-- The mark that a load's policy leaves on the line it fills (R209). -/
def loadMark (cache : Nat) : Nat := if cache = 2 then 2 else 0

/-- The mark that a store's or atomic's policy leaves (R244). -/
def storeMark (cache : Nat) : Nat := if fillsNone cache then 1 else loadMark cache

/-- A read miss of a policy: steering, and the fill that the policy and the page's class allow; `tree` is false for private
and read-only pages (R218). -/
def MemSys.readMiss (m : MemSys) (p : Port1) (ln cache : Nat) (tree : Bool) : MemSys :=
  let m := m.quiet ln
  let m := if (m.supplier p.router ln).isNone then m.fillL2 ln else m
  let bad := m.homeBad p.router ln
  match p.l1 with
  | none => m.downgrade p.router ln
  | some h =>
    if fillsNone cache then m.downgrade p.router ln
    else
      match m.line h ln with
      | some l =>
        -- an L line: missing bytes become clean and valid; nothing joins the tree
        if l.st == .L then
          (m.setLine h ln { l.fill (fun j => m.lowByte p (ln * 128 + j)) with
            bad := l.bad || bad || m.clusterBad p ln, mark := loadMark cache }).downgrade p.router ln
        else m.downgrade p.router ln
      | none =>
        let alone := (m.holders ln).all (fun hl => !hl.2.tracked) && (m.line hostHolder ln).isNone && !m.fabShare.contains ln
          && (Tab.find m.tree (treeKey (homeRouter (ln * 128)) (m.granBase (ln * 128)) (m.level (ln * 128)))).isNone
        let l := { m.granted ln (if alone then .E else .S) with bad := bad, solo := !tree, mark := loadMark cache }
        let m := (m.downgrade p.router ln).setLine h ln l
        if tree then m.join h ln else m

/-- The lines that an access touches. -/
def linesOf (pa n : Nat) : List Nat :=
  if n = 0 then [] else (List.range ((pa + n - 1) / 128 - pa / 128 + 1)).map (fun i => pa / 128 + i)

/-- A load of bytes of one line leaves the caches so: a miss fills, a hit is a use. -/
def MemSys.touchLine (m : MemSys) (p : Port1) (ln cache : Nat) (tree miss : Bool) : MemSys :=
  if miss then m.readMiss p ln cache tree
  else [p.l1, p.cl1].foldl (fun m h => match h with
    | some h => m.use h ln
    | none => m) m

-- Stores (R208).

/-- Gives the core L1's copy of a line up before a CLUSTER or DIE store (R208). -/
def MemSys.giveUp (m : MemSys) (h g ln : Nat) : MemSys :=
  match m.line h ln with
  | some l => if l.tracked then m.dropTracked h ln else ((m.moveL h g ln).delLine h ln)
  | none => m

/-- A tracked copy in S or O leaves its tree and stays as an L line of clean bytes (R208). -/
def MemSys.toL (m : MemSys) (h ln : Nat) : MemSys :=
  match m.line h ln with
  | some l =>
    let gone : MemSys → MemSys := fun m =>
      let m := m.setLine h ln { l with st := .L, dirty := 0, solo := false }
      if l.solo then m else m.leave h ln
    match l.st with
    | .S => gone m
    | .O => gone (m.writeHome ln l)
    | _ => m
  | none => m

/-- M for a line at a holder, by a teardown: an L line's dirty bytes lie over the data granted (R208, R214). -/
def MemSys.obtainM (m : MemSys) (t h ln : Nat) (tree : Bool) : MemSys :=
  let keep := ((m.line h ln).filter (fun l => !l.tracked)).getD (Line.empty .L)
  let m := (m.teardown t ln).fillL2 ln
  let m := (m.setLine h ln { keep.over (m.granted ln .M) with solo := !tree }).fire h ln
  if tree then m.join h ln else m

/-- Brings a line to the state from which a store of the scope writes, and names the holder written:
none is home memory. At DEVICE and wider scope every line but one in M obtains M by a teardown (log 71). -/
def MemSys.prepStore (m : MemSys) (t : Nat) (p : Port1) (scope ln : Nat) (tree : Bool) : MemSys × Option Nat :=
  if scope < 2 || (scope < 4 && p.l1.isSome && p.cl1.isNone) then
    match p.l1, p.cl1 with
    | some h, _ => ((m.toL h ln).fire h ln, some h)
    | none, some g => (m.fire g ln, some g)
    | none, none => ((m.teardown t ln), none)
  else if scope < 4 then
    match p.l1, p.cl1 with
    | some h, some g => ((m.giveUp h g ln).fire g ln, some g)
    | none, some g => (m.fire g ln, some g)
    | _, none => ((m.teardown t ln), none)
  else
    match p.l1 with
    | none => (m.teardown t ln, none)
    | some h =>
      if (m.line h ln).any (fun l => l.st == .M) then ((m.fire homePoint ln).fire h ln, some h)
      else (m.obtainM t h ln tree, some h)

/-- Writes bytes of one line at the holder that `prepStore` named. -/
def MemSys.putAt (m : MemSys) (h : Option Nat) (ln : Nat) (bs : List (Nat × Byte)) : MemSys :=
  match h with
  | none => bs.foldl (fun m kv => m.putRaw (ln * 128 + kv.1) kv.2) m
  | some h =>
    let l := (m.line h ln).getD (Line.empty .L)
    let l := if l.tracked then { l with st := .M } else l
    let l := if 128 ≤ (bs.map Prod.fst).eraseDups.length then { l with bad := false } else l
    m.setLine h ln (bs.foldl (fun l kv => l.put kv.1 kv.2 true) l)

/-- The mark of a store's policy on the line written. -/
def MemSys.markAt (m : MemSys) (h : Option Nat) (ln cache : Nat) : MemSys :=
  match h with
  | some h => m.remark h ln (storeMark cache)
  | none => m

/-- A write that covers a whole line clears its poison mark (R391). -/
def MemSys.unpoison (m : MemSys) (ln n : Nat) : MemSys :=
  if 128 ≤ n then { m with poison := m.poison.filter (· != ln) } else m

/-- A store of package memory at a scope with a cache policy, line by line (R208, R244). -/
def MemSys.storePkg (m : MemSys) (t : Nat) (p : Port1) (scope cache : Nat) (tree : Bool) (cells : List (Nat × Byte)) : MemSys :=
  let lns := (cells.map (fun c => lineOf c.1)).eraseDups
  lns.foldl (fun m ln =>
    let mine := (cells.filter (fun c => lineOf c.1 == ln)).map (fun c => (c.1 % 128, c.2))
    let (m, h) := m.prepStore t p scope ln tree
    ((m.putAt h ln mine).markAt h ln cache).unpoison ln (mine.map Prod.fst).eraseDups.length) m

-- Scratch and EXTERNAL storage.

/-- Where the error marks of scratch words stand (R203). -/
def scrMark (a : Nat) : Nat := 2 ^ 46 + a / 4

/-- Scratch words written whole lose their error marks. -/
def MemSys.clearMarks (m : MemSys) (f : Nat → Bool) : MemSys :=
  { m with poison := m.poison.filter (fun p => !(decide (2 ^ 46 ≤ p) && f (p - 2 ^ 46))) }

/-- Scratch bytes written at the bank; a monitor of the word fires (R271). -/
def MemSys.putScratch (m : MemSys) (bs : List (Nat × Byte)) : MemSys :=
  { (m.clearMarks (fun w => (List.range 4).all (fun i => bs.any (fun kv => kv.1 == 4 * w + i)))) with
    scr := bs.foldl (fun g kv => Memory.put g kv.1 kv.2) m.scr
    monitors := m.monitors.map (fun w =>
      if w.sp == .scr && bs.any (fun kv => decide (w.a ≤ kv.1) && decide (kv.1 < w.a + w.bytes))
      then { w with fired := true } else w) }

/-- Where the poison marks of EXTERNAL lines stand (R391). -/
def extMark (ln : Nat) : Nat := 2 ^ 44 + ln

/-- The I/O die of a port (Table 1-2). -/
def portDie (p : Nat) : Nat := if p = 2 then 1 else 0

/-- Where a port's storage keeps a byte. -/
def extAddr (p a : Nat) : Nat := a + p * 2 ^ 52

/-- A byte of a KIND 2 page as the coherent cache of its port's I/O die gives it (R386). -/
def MemSys.extByte (m : MemSys) (p pa : Nat) : Byte :=
  match m.line (ioHolder (portDie p)) (lineOf pa) with
  | some l => l.byte (pa % 128)
  | none => Memory.get m.ext (extAddr p pa)

/-- A KIND 2 line is fetched from its owner when absent. -/
def MemSys.extFetch (m : MemSys) (p ln : Nat) (own : Bool) : MemSys :=
  let h := ioHolder (portDie p)
  match m.line h ln with
  | some l => m.setLine h ln (if own then { l with st := .M } else l)
  | none => m.setLine h ln ((Line.empty (if own then .M else .S)).fill (fun j => Memory.get m.ext (extAddr p (ln * 128 + j))))

/-- A KIND 2 store: ownership, then the write in the cache (R386). -/
def MemSys.putExt (m : MemSys) (p : Nat) (bs : List (Nat × Byte)) : MemSys :=
  bs.foldl (fun m kv =>
    let m := m.extFetch p (lineOf kv.1) true
    match m.line (ioHolder (portDie p)) (lineOf kv.1) with
    | some l => m.setLine (ioHolder (portDie p)) (lineOf kv.1) (l.put (kv.1 % 128) kv.2 true)
    | none => m) m

/-- The owner's snoop, or a replacement, takes a line out of the coherent cache of die `d` with its data, to a port (R386). -/
def MemSys.extSnoop (m : MemSys) (d p ln : Nat) : MemSys :=
  match m.line (ioHolder d) ln with
  | some l =>
    { (m.delLine (ioHolder d) ln) with
      ext := byteIdx.foldl (fun g j => if l.dirty.getLsbD j then Memory.put g (extAddr p (ln * 128 + j)) (l.byte j) else g) m.ext }
  | none => m

/-- Stored bytes of one place of EXTERNAL storage: a KIND 3 page is written itself. -/
def MemSys.storeExt (m : MemSys) (k3 : Bool) (p : Nat) (bs : List (Nat × Byte)) : MemSys :=
  if k3 then { m with ext := bs.foldl (fun g kv => Memory.put g (extAddr p kv.1) kv.2) m.ext } else m.putExt p bs

/-- The cells of a store that lie in EXTERNAL storage; a line written whole loses its poison mark (R391). -/
def MemSys.storeExts (m : MemSys) (cells : List MemCell) : MemSys :=
  let pas := (cells.filterMap (fun x => match x.sp with
    | .ext _ _ => some x.a
    | _ => none)).eraseDups
  (pas.map lineOf).eraseDups.foldl (fun m ln =>
    m.unpoison (extMark ln) (pas.filter (fun a => lineOf a == ln)).length) (cells.foldl (fun m x => match x.sp with
    | .ext k3 p => m.storeExt k3 p [(x.a, x.b)]
    | _ => m) m)

/-- The place of a byte of pool storage. -/
def poolPlace (sp : Space) (a : Nat) : Option Nat :=
  match sp with
  | .pkg => if a < Config.poolBase then none else some a
  | .ext _ p => if p = 0 then none else some (extAddr p a)
  | _ => none

/-- Notes the region whose write of pool bytes is the last; 0 stands for no region (R392). -/
def MemSys.wroteBy (m : MemSys) (rk : Nat) (ps : List (Space × Nat)) : MemSys :=
  { m with wrote := (ps.filterMap (fun x => poolPlace x.1 x.2)).foldl (fun t a => Tab.put t a rk) m.wrote }

-- Fabric peers (R235, R397, R398).

def MemSys.wcbPut (m : MemSys) (core t age ln : Nat) (bs : List (Nat × Byte)) : MemSys :=
  let ws := Tab.get m.wcb core []
  let merge : List (Nat × Byte) → List (Nat × Byte) := fun o => bs.foldl (fun o kv => Tab.put o kv.1 kv.2) o
  let (m, ws) :=
    if ws.any (fun w => w.line == ln) then
      (m, ws.map (fun w => if w.line == ln then { w with bytes := merge w.bytes } else w))
    else if ws.length < 64 then (m, ws ++ [⟨ln, merge [], t, age⟩])
    else
      match ws with
      | w :: r => (m.drainOne w, r ++ [⟨ln, merge [], t, age⟩])
      | [] => (m, [⟨ln, merge [], t, age⟩])
  let full := ws.filter (fun w => decide (128 ≤ w.bytes.length))
  let m := full.foldl MemSys.drainOne m
  { m with wcb := Tab.put m.wcb core (ws.filter (fun w => decide (w.bytes.length < 128))) }

/-- A load of a peer byte: the core's buffered bytes, then the copy in its L1, then the peer (R235, R397). -/
def MemSys.seePeer (m : MemSys) (core l1 : Option Nat) (pa : Nat) : Byte :=
  let far : Byte := match l1.bind (fun h => m.line h (peerLine pa)) with
    | some l => l.byte (pa % 128)
    | none => Memory.get m.peer pa
  match core with
  | some c =>
    match (Tab.get m.wcb c []).find? (fun w => w.line == lineOf pa) with
    | some w => (Tab.find w.bytes (pa % 128)).getD far
    | none => far
  | none => far

/-- A byte of a peer that lies in an L1 line with an uncorrectable error (R15); the core's buffered bytes are not there. -/
def MemSys.badPeer (m : MemSys) (core l1 : Option Nat) (pa : Nat) : Bool :=
  (l1.bind (fun h => m.line h (peerLine pa))).any (fun l => l.bad)
    && !(core.any (fun c => (Tab.get m.wcb c []).any (fun w => w.line == lineOf pa && (Tab.find w.bytes (pa % 128)).isSome)))

/-- A load of a peer line fills the L1 in S (R397). -/
def MemSys.fillPeer (m : MemSys) (l1 : Option Nat) (pa mark : Nat) : MemSys :=
  match l1 with
  | none => m
  | some h =>
    if (m.line h (peerLine pa)).isSome then m.use h (peerLine pa)
    else
      m.setLine h (peerLine pa) { (Line.empty .S).fill (fun j => Memory.get m.peer (pa / 128 * 128 + j)) with mark := mark }

-- Atomics at their perform points (R228, R239).

/-- The agent's own copy of a line that no tree knows goes home (R218): its atomics at the home slice act on those bytes. -/
def MemSys.homeSolo (m : MemSys) (p : Port1) (ln : Nat) : MemSys :=
  match p.l1 with
  | some h => if (m.line h ln).any (fun l => l.tracked && l.solo) then m.dropTracked h ln else m
  | none => m

/-- Brings a line to the perform point of an atomic of `n` bytes at `pa`: where the bytes are then read and written. An L line
that lacks some of them is filled, as a load fills it, without joining the tree; bytes that a release has moved into the
cluster L1 come from there (log 84). In a fused cluster a line held M or E is written in place at CLUSTER scope too (log 84). -/
def MemSys.prepAtomic (m : MemSys) (t : Nat) (p : Port1) (scope pa n : Nat) : MemSys × Option Nat :=
  let ln := lineOf pa
  if 3 ≤ scope then ((m.homeSolo p ln).teardown t ln, none)
  else
    match m.prepStore t p scope ln true with
    | (m, none) => (m, none)
    | (m, some h) =>
      let l := (m.line h ln).getD (Line.empty .L)
      if (List.range n).all (fun i => l.valid.getLsbD ((pa + i) % 128)) then (m, some h)
      else
        let m := m.quiet ln
        let m := if (m.supplier p.router ln).isNone then m.fillL2 ln else m
        ((m.setLine h ln { l.fill (fun j => m.lowByte p (ln * 128 + j)) with
          bad := l.bad || m.homeBad p.router ln || m.clusterBad p ln }).downgrade p.router ln, some h)

def MemSys.readAt (m : MemSys) (h : Option Nat) (pa n : Nat) : Nat :=
  leNat ((List.range n).map (fun i =>
    match h with
    | some h => match m.line h (lineOf (pa + i)) with
      | some l => l.byte ((pa + i) % 128)
      | none => m.homeByte (pa + i)
    | none => m.homeByte (pa + i)))

end Sys2Proof.Machine
end

