-- ==== Sys2Proof/Machine/Xlate.lean ====
section
/-! DEFINITION. Translation (R373 to R378), the physical map (Table 23-3, R384, R388, R394), page classes (R218) and the
checks of one data access (R241, R243, R246). -/

namespace Sys2Proof.Machine

-- Causes (Table 21-1).

def cILLEGAL : Nat := 1
def cFORMAT : Nat := 2
def cTOKEN : Nat := 3
def cALIGN : Nat := 4
def cPAGE : Nat := 5
def cACCESS : Nat := 6
def cWINDOW : Nat := 7
def cSTACK : Nat := 8
def cPOISON : Nat := 9
def cEXTENT : Nat := 0x0A
def cSCOPE : Nat := 0x0B
def cWATCH : Nat := 0x0C
def cBREAK : Nat := 0x0D
def cARITH : Nat := 0x0E
def cTIMEOUT : Nat := 0x0F
def cSVC : Nat := 0x10

/-- A failed check of one lane or transfer: cause, INFO, address. -/
structure Fail where
  cause : Nat
  info : Nat
  addr : Nat
  deriving DecidableEq, Repr

/-- The order of R243. -/
def Fail.rank (f : Fail) : Nat :=
  if f.cause = cILLEGAL then 1 else if f.cause = cFORMAT then 2 else if f.cause = cALIGN then 3
  else if f.cause = cSCOPE then 4 else if f.cause = cPAGE then 5 else if f.cause = cACCESS then 6
  else if f.cause = cEXTENT then 7 else 8

-- Kinds of access, as INFO [2:0] numbers them (Table 21-4).

def aRead : Nat := 0
def aWrite : Nat := 1
def aAtomic : Nat := 2
def aFetch : Nat := 3
def aWalk : Nat := 6

/-- Who accesses: domain, region, the core whose private pages are its own, its die, its ports to the caches. -/
structure Who where
  fdom : Nat
  rk : Nat
  core : Option Nat
  die : Nat
  port : Port1
  crew : Option Nat
  deriving DecidableEq, Repr

/-- A 64-bit word read at its home slice (R375). -/
def MemSys.homeWord (m : MemSys) (pa : Nat) : Nat := leNat ((List.range 8).map (fun i => m.homeByte (pa + i)))

/-- A word written at home by the device at DEVICE scope. -/
def MemSys.homeWrite (m : MemSys) (t pa : Nat) (bs : List Byte) : MemSys :=
  m.storePkg t ⟨none, none, 0⟩ 4 0 true ((List.range bs.length).map (fun i => (pa + i, bs.getD i 0)))

/-- PTROOT of a domain (Table 21-2). -/
def State.ptroot (s : State) (fdom : Nat) : Nat := s.mem.homeWord (s.port.fdtb + 32 * fdom + 16) % 2 ^ 57

-- Fields of a table entry (Table 21-9).

def pteV (e : Nat) : Bool := e.testBit 0
def pteW (e : Nat) : Bool := e.testBit 1
def pteX (e : Nat) : Bool := e.testBit 2
def pteKind (e : Nat) : Nat := bits e 3 2
def pteClass (e : Nat) : Nat := bits e 5 2
def pteSE (e : Nat) : Bool := e.testBit 7
def pteOwner (e : Nat) : Nat := bits e 52 12
def pteA (e : Nat) : Bool := e.testBit 9
def pteD (e : Nat) : Bool := e.testBit 10
def pteTier (e : Nat) : Nat := bits e 12 2
def pteFrame (e : Nat) (nbits : Nat) : Nat := bits e nbits (52 - nbits) * 2 ^ nbits

/-- Must-be-zero bits of a leaf of `nbits` page bits, or of a table entry whose next table has `al` alignment bits. -/
def leafBad (e nbits : Nat) : Bool :=
  bits e 14 2 != 0 || e.testBit 11 || e.testBit 8 || bits e 16 (nbits - 16) != 0
def tableBad (e al : Nat) : Bool :=
  pteOwner e != 0 || pteSE e || pteKind e != 0 || pteX e || pteW e || bits e 8 (al - 8) != 0

/-- The walk of R375 from a level's table. -/
def walkFrom (m : MemSys) (va : Nat) : Nat → Nat → Except Fail (Nat × Nat × Nat)
  | 0, _ => .error ⟨cACCESS, aWalk, va⟩
  | left + 1, base =>
    -- levels 0, 1, 2, 3 have left = 3, 2, 1, 0
    let (idx, nbits, al) :=
      if left = 3 then (bits va 39 18, 0, 12)
      else if left = 2 then (bits va 30 9, 30, 12)
      else if left = 1 then (bits va 21 9, 21, 8)
      else (bits va 16 5, 16, 8)
    let at_ := base + 8 * idx
    let e := m.homeWord at_
    if !pteV e then .error ⟨cPAGE, 0, va⟩
    else if pteClass e = 3 then
      if left = 0 || tableBad e al then .error ⟨cACCESS, aWalk, va⟩
      else walkFrom m va left (bits e 8 44 * 256)
    else if left = 3 then .error ⟨cPAGE, 0, va⟩
    else if leafBad e nbits then .error ⟨cACCESS, aWalk, va⟩
    else .ok (e, at_, nbits)

/-- A walk in a domain; a domain without a table has no address space (R378). -/
def State.walk (s : State) (fdom va : Nat) : Except Fail (Nat × Nat × Nat) :=
  let r := s.ptroot fdom
  if r = 0 then .error ⟨cPAGE, 0, va⟩ else walkFrom s.mem va 4 r

/-- A translation held by a TLB. -/
def tlbHit (l : List Xl) (fdom va : Nat) : Option Xl :=
  l.find? (fun x => x.fdom == fdom && va / 2 ^ x.nbits == x.va / 2 ^ x.nbits)

def State.tlbKeys (w : Who) : List Nat :=
  match w.core with
  | some c => [c, 3072 + w.die]
  | none => [3072 + w.die]

/-- The TLBs' answer, or a walk that fills them (R376). -/
def State.lookup (s : State) (w : Who) (va : Nat) : State × Except Fail Xl :=
  let hit := (State.tlbKeys w).findSome? (fun k => tlbHit (Tab.get s.mem.tlb k []) w.fdom va)
  match hit with
  | some x => (s, .ok x)
  | none =>
    match s.walk w.fdom va with
    | .error f => (s, .error f)
    | .ok (e, at_, nb) =>
      let x : Xl := ⟨w.fdom, va / 2 ^ nb * 2 ^ nb, nb, BitVec.ofNat 64 e, at_⟩
      let tlb := (State.tlbKeys w).foldl (fun t k => Tab.put t k (x :: Tab.get t k [])) s.mem.tlb
      ({ s with mem := { s.mem with tlb := tlb } }, .ok x)

/-- Sets A or D in a leaf by an AOR at DEVICE scope: once for a translation, whose entries in the agent's TLBs then show the
bits set (R375). -/
def State.orLeaf (s : State) (w : Who) (x : Xl) (mask : Nat) : State :=
  if x.leaf.toNat &&& mask = mask then s
  else
    let m := s.mem.homeWrite s.clock x.at_ (leOf 8 (s.mem.homeWord x.at_ ||| mask))
    let upd : Xl → Xl := fun y => if y.at_ == x.at_ then { y with leaf := y.leaf ||| BitVec.ofNat 64 mask } else y
    { s with mem := { m with tlb := m.tlb.map (fun kv => if (State.tlbKeys w).contains kv.1 then (kv.1, kv.2.map upd) else kv) } }

/-- Where a byte lies after translation. -/
structure Hit where
  sp : Space
  pa : Nat
  se : Bool
  cls : Nat
  deriving DecidableEq, Repr

/-- A place on a KIND 3 page. -/
def Hit.k3 (h : Hit) : Bool :=
  match h.sp with
  | .ext k3 _ => k3
  | _ => false

/-- What a translation gives: a place, a failure, or a class conflict at a place, which waits for the class engine (R218). -/
inductive XR
  | ok (h : Hit)
  | fail (f : Fail)
  | conflict (h : Hit)
  deriving DecidableEq, Repr

/-- The extent that holds an address of the pool window or of external space. -/
def State.extentAt (s : State) (shared : Bool) (pa : Nat) : Option Extent :=
  (s.pool.exts.find? (fun kv => kv.2.valid && kv.2.shared == shared && decide (kv.2.wbase ≤ pa)
    && decide (pa < kv.2.wbase + kv.2.len * 2 ^ 28))).map Prod.snd

/-- External window `i` (Table 23-4): valid, port, first and last address. -/
def State.window (s : State) (i : Nat) : Bool × Nat × Nat × Nat :=
  let b := (Tab.get s.port.windows (2 * i) 0).toNat
  let l := (Tab.get s.port.windows (2 * i + 1) 0).toNat
  let p := bits b 60 3
  (b.testBit 63, if p ≤ 2 then p else 0, bits b 21 31 * 2 ^ 21, bits l 21 31 * 2 ^ 21 + 2 ^ 21 - 1)

/-- The port an EXTERNAL address goes to: 0 host, 1 pool A, 2 pool B (R384). -/
def State.extPort (s : State) (pa : Nat) : Nat :=
  match (List.range 8).find? (fun i =>
    let w := s.window i
    w.1 && decide (w.2.2.1 ≤ pa) && decide (pa ≤ w.2.2.2)
      && (w.2.1 == 0 || (s.extentAt true pa).any (fun e => 1 + e.port.toNat == w.2.1))) with
  | some i => (s.window i).2.1
  | none => 0

/-- A moving page sends its lines below the boundary to the new frame (R219). -/
def State.redirect (s : State) (pa : Nat) : Nat :=
  match s.mem.moves.find? (fun kv => decide (kv.2.old ≤ pa) && decide (pa < kv.2.old + 2 ^ kv.2.nbits)
      && decide ((pa - kv.2.old) / 128 < kv.2.line)) with
  | some (_, mv) => mv.new + (pa - mv.old)
  | none => pa

/-- The trained ports that reach a rank, ascending (R395). -/
def State.planes (s : State) (rank : Nat) : List Nat :=
  if s.fab.unreachable.contains rank then []
  else (List.range 72).filter (fun p => s.fab.ports.contains p && (match Tab.find s.fab.reach p with
    | some l => l.contains rank
    | none => true))

/-- The plane of an access to a peer: the port at position PA[42:7] mod n of the ports that reach it; none where no port does
(R394, R395). -/
def State.plane (s : State) (rank pa : Nat) : Option Nat :=
  let ps := s.planes rank
  ps[bits pa 7 36 % ps.length]?

/-- Whether a trained port reaches a rank (R394). -/
def State.reaches (s : State) (rank : Nat) : Bool := !(s.planes rank).isEmpty

/-- Physical checks after the leaf (Table 23-3, R384, R388, R389, R392 to R394). Each trained DDR-5 channel holds 256 GiB (log
70); a KIND 3 leaf whose address a pool window holds raises ACCESS (DESIGN CHOICE, log 84). -/
def State.physical (s : State) (kind pa k va : Nat) (se : Bool) (cls : Nat) : XR :=
  if kind = 0 then
    if Config.packageTop ≤ pa then .fail ⟨cACCESS, k, va⟩
    else if Config.poolBase ≤ pa then
      match s.extentAt false pa with
      | none => .fail ⟨cEXTENT, k, va⟩
      | some e =>
        if e.st = 3 then .fail ⟨cEXTENT, k, va⟩
        else if e.st = 4 then .fail ⟨cPOISON, 2 ^ 23 + k, va⟩
        else .ok ⟨.pkg, pa, se, cls⟩
    else if Config.ddrBase ≤ pa then
      if Config.cmForm && s.port.ddrok.getLsbD ((pa - Config.ddrBase) / 2 ^ 38) then .ok ⟨.pkg, pa, se, cls⟩
      else .fail ⟨cACCESS, k, va⟩
    else .ok ⟨.pkg, pa, se, cls⟩
  else if kind = 1 then
    let rank := pa / 2 ^ 43
    if !s.fab.rvalid || rank == s.fab.frank || (s.plane rank pa).isNone then .fail ⟨cACCESS, k, va⟩
    else .ok ⟨.peer, pa, se, cls⟩
  else
    let port := s.extPort pa
    if port = 0 then (if s.port.up then .ok ⟨.ext (kind == 3) 0, pa, se, cls⟩ else .fail ⟨cACCESS, k, va⟩)
    -- a shared extent is reached as KIND 2 alone (R389)
    else if kind = 3 then .fail ⟨cACCESS, k, va⟩
    else match s.extentAt true pa with
      | some e =>
        if e.st = 3 then .fail ⟨cEXTENT, k, va⟩
        else if e.st = 4 then .fail ⟨cPOISON, 2 ^ 23 + k, va⟩
        else .ok ⟨.ext false port, pa, se, cls⟩
      | none => .fail ⟨cEXTENT, k, va⟩

/-- The page's class sends the access to the class engine (R218). -/
def classConflict (w : Who) (e : Nat) (store : Bool) : Bool :=
  (pteClass e == 2 && store) || (pteClass e == 1 && w.core != some (pteOwner e))

/-- One translation of a data access or fetch of kind `k`: permission, class, place; the first sets A, a store's sets D. An
access that its place refuses is no conflict. -/
def State.translateC (s : State) (w : Who) (va k : Nat) (chk : Bool) : State × XR :=
  if 2 ^ 57 ≤ va then (s, .fail ⟨cACCESS, k, va⟩)
  else
    match s.lookup w va with
    | (s, .error f) => (s, .fail { f with info := if f.cause = cPAGE then k else f.info })
    | (s, .ok x) =>
      let e := x.leaf.toNat
      let store := k == aWrite || k == aAtomic
      let pa := s.redirect (pteFrame e x.nbits + va % 2 ^ x.nbits)
      if store && !pteW e then (s, .fail ⟨cACCESS, k, va⟩)
      else if k == aFetch && !pteX e then (s, .fail ⟨cACCESS, k, va⟩)
      else
        match s.physical (pteKind e) pa k va (pteSE e) (pteClass e) with
        | .ok h =>
          if chk && classConflict w e store then (s, .conflict h)
          else (s.orLeaf w x (if store then 0x600 else 0x200), .ok h)
        | r => (s.orLeaf w x 0x200, r)

/-- The same with the class checked (R218). -/
def State.translate (s : State) (w : Who) (va k : Nat) : State × XR := s.translateC w va k true

/-- Drops translations from every TLB of the package (R315, R377). -/
def State.invalTlb (s : State) (p : Xl → Bool) : State :=
  { s with mem := { s.mem with tlb := s.mem.tlb.map (fun kv => (kv.1, kv.2.filter (fun x => !p x))) } }

/-- Writes back and invalidates every copy of a range of package memory, LDC constant caches included (R218, R378): L bytes
published, core L1s before the cluster L1s they go over, then the copies that no tree knows, then those of the trees. -/
def MemSys.flushRange (m : MemSys) (t base size : Nat) : MemSys :=
  let ls := m.lines.filter (fun kv => keyIn base size kv.1 && kv.2.st == .L && decide (kv.1 / 2 ^ 45 < 3136))
  let m := ls.foldl (fun m kv => m.publishOver t (kv.1 / 2 ^ 45) (kv.1 % 2 ^ 45)) m
  let m := m.invalidate (fun kv => keyIn base size kv.1 && decide (kv.1 / 2 ^ 45 < 3136) && (!kv.2.tracked || kv.2.solo))
  let m := m.tearRange base size
  { m with lines := m.lines.filter (fun kv => !(keyIn base size kv.1 && decide (3136 ≤ kv.1 / 2 ^ 45) && decide (kv.1 / 2 ^ 45 < 3168))) }

/-- Writes back and invalidates every copy of a range of peers' memory: buffered bytes drain, shared lines go (R378, R397). -/
def MemSys.flushPeer (m : MemSys) (base size : Nat) : MemSys :=
  let mine : Nat → Bool := fun ln => decide (base ≤ ln * 128) && decide (ln * 128 < base + size)
  let ls := m.wcb.flatMap (fun kv => ((kv.2.map Wcb.line).filter mine).map (fun ln => (kv.1, ln)))
  let m := ls.foldl (fun m x => m.drainLine (some x.1) x.2) m
  { m with lines := m.lines.filter (fun kv => !(decide (2 ^ 44 ≤ kv.1 % 2 ^ 45)
      && (List.range 2).any (fun i => mine (kv.1 % 2 ^ 45 - 2 ^ 44 + i * 2 ^ 44)))) }

/-- Writes back and invalidates every line of a range of EXTERNAL storage that the I/O dies hold, to the port of its address. -/
def MemSys.flushExt (m : MemSys) (port : Nat → Nat) (base size : Nat) : MemSys :=
  let ks := (m.lines.filter (fun kv => (kv.1 / 2 ^ 45 == ioHolder 0 || kv.1 / 2 ^ 45 == ioHolder 1)
    && keyIn base size kv.1)).map Prod.fst
  ks.foldl (fun m k => m.extSnoop (k / 2 ^ 45 - ioHolder 0) (port (k % 2 ^ 45 * 128)) (k % 2 ^ 45)) m

/-- Every copy of a page's lines is written back and invalidated, by the kind of its leaf; of a page that moves, those at its
new frame too. -/
def MemSys.flushPage (m : MemSys) (port : Nat → Nat) (t e at_ nb : Nat) : MemSys :=
  if pteKind e = 0 then
    ((m.moves.filter (fun kv => kv.2.leafAt == at_ && kv.2.line != 0)).map (fun kv => kv.2.new)).foldl
      (fun m f => m.flushRange t f (2 ^ nb)) (m.flushRange t (pteFrame e nb) (2 ^ nb))
  else if pteKind e = 1 then m.flushPeer (pteFrame e nb) (2 ^ nb)
  else m.flushExt port (pteFrame e nb) (2 ^ nb)

/-- A member of a heat's buffered work whose page has become shared, or is shared no more (R218). -/
def BufOp.reclass (mine : Nat → Bool) (tree : Bool) (o : BufOp) : BufOp :=
  match o with
  | .store cells mode => .store (cells.map (fun x => if x.sp == .pkg && mine x.a then { x with tree := tree } else x)) mode
  | .flush pa home t => .flush pa home (if mine pa then tree else t)
  | o => o

/-- What open heats hold for a page follows its class. -/
def State.reclass (s : State) (base size : Nat) (tree : Bool) : State :=
  let mine : Nat → Bool := fun a => decide (base ≤ a) && decide (a < base + size)
  { s with crews := s.crews.map (fun kv => (kv.1, { kv.2 with
      heat := kv.2.heat.map (fun h => { h with buf := h.buf.map (BufOp.reclass mine tree) }) })) }

/-- The frames of package memory that a page's lines stand in: the leaf's, and while the page moves its new one (R219). -/
def MemSys.frames (m : MemSys) (e at_ nb : Nat) : List Nat :=
  pteFrame e nb :: (m.moves.filter (fun kv => kv.2.leafAt == at_)).map (fun kv => kv.2.new)

/-- A table entry that cannot be written: its line holds an uncorrectable error, or the memory that holds it is lost (R378). -/
def State.tableLost (s : State) (at_ : Nat) : Bool :=
  s.mem.poison.contains (lineOf at_) || (match s.physical 0 at_ aWrite 0 false 0 with
    | .ok _ => false
    | _ => true)

/-- The class engine's work on one page (R378): the page's copies, its entry's CLASS and OWNER, its translations. An entry
that cannot be written is left unchanged. -/
def State.classFix (s : State) (fdom va cls owner : Nat) : State × Option Fail :=
  match s.walk fdom va with
  | .error f => (s, some f)
  | .ok (e, at_, nb) =>
    if s.tableLost at_ then (s, some ⟨cPAGE, 0, va⟩)
    else
      let m := s.mem.flushPage s.extPort s.clock e at_ nb
      let e' := e % 2 ^ 5 + cls * 2 ^ 5 + (if e.testBit 7 then 2 ^ 7 else 0) + bits e 8 44 * 2 ^ 8
        + (if cls = 1 then owner else pteOwner e) * 2 ^ 52
      let s := { s with mem := m.homeWrite s.clock at_ (leOf 8 e') }
      let s := if pteKind e = 0 then (m.frames e at_ nb).foldl (fun s f => s.reclass f (2 ^ nb) (cls == 0)) s else s
      (s.invalTlb (fun x => x.at_ == at_), none)

/-- A watchpoint register (Table 17-7) hits an access. -/
def watchHit (r : DWord) (va n : Nat) (wr rd : Bool) : Bool :=
  let v := r.toNat
  let len := 2 ^ (min 7 (bits v 60 4))
  let base := bits v 0 57 / len * len
  let kind := bits v 58 2
  v.testBit 57 && decide (va < base + len) && decide (base < va + n)
    && ((kind == 0 && rd) || (kind == 1 && wr) || decide (2 ≤ kind))

/-- The largest power of two that divides an access size, capped at 16 (R246). -/
def alignOf (n : Nat) : Nat :=
  if n % 16 = 0 then 16 else if n % 8 = 0 then 8 else if n % 4 = 0 then 4 else if n % 2 = 0 then 2 else 1

end Sys2Proof.Machine
end

