-- ==== Sys2Proof/Machine/Wait.lean ====
section
/-! DEFINITION. Crews in the state; what a blocked crew holds: barrier words and their events, the tables that refuse,
and the end of a wait without its event (R56, R261, R262, R266, R271 to R273). -/

namespace Sys2Proof.Machine

def State.crew (s : State) (id : Nat) : Option Crew := Tab.find s.crews id
def State.setCrew (s : State) (id : Nat) (c : Crew) : State := { s with crews := Tab.put s.crews id c }
def State.updCrew (s : State) (id : Nat) (f : Crew → Crew) : State :=
  match s.crew id with
  | some c => s.setCrew id (f c)
  | none => s

-- Resources that refuse (R272, R273, R378). Keys: barrier table of a cluster; monitor tables of a home slice, an L1, a scratch
-- ALU; a die's class engine; the atomic queue of a home slice.

def resBarrier (cluster : Nat) : Nat := cluster
def resSlice (slice : Nat) : Nat := 100 + slice
def resL1 (h : Nat) : Nat := 1000 + h
def resScratch (core : Nat) : Nat := 10000 + core
def resClass (die : Nat) : Nat := 20000 + die
def resAtomic (slice : Nat) : Nat := 30000 + slice

/-- The monitor table that serves a monitor; a core's own L1 has none of Table 15-10. -/
def Monitor.res (m : Monitor) : Nat :=
  if m.sp == .scr then resScratch (m.a / 2 ^ 24)
  else if m.point = homePoint then resSlice (homeSlice m.a)
  else resL1 m.point

/-- Entries of a resource (Table 15-10). -/
def resCap (r : Nat) : Option Nat :=
  if r < 100 then some 512
  else if r < 1000 then some 64
  else if r < 10000 then (if r < 4072 then none else some 32)
  else if r < 20000 then some 16
  else if r < 30000 then some 64
  else some 32

/-- The home slices whose queues hold a deferred atomic (R229, Table 15-10): those of its lanes at DIE scope and wider. -/
def QMember.slices (q : QMember) : List Nat :=
  if bits q.mode.toNat 20 3 < 3 then [] else
  ((q.lanes.filter (fun l => l.sp == .pkg)).map (fun l => homeSlice l.a)).eraseDups

/-- Entries in use. -/
def State.resUsed (s : State) (r : Nat) : Nat :=
  if r < 100 then (Tab.get s.mem.barTab r []).length
  else if 30000 ≤ r then (s.crews.flatMap (fun kv => kv.2.later.filter (fun q => q.slices.contains (r - 30000)))).length
  else if 20000 ≤ r then (Tab.get s.mem.classq (r - 20000) []).length
  else (s.mem.monitors.filter (fun m => m.res == r)).length

def State.ticketOf (s : State) (r : Nat) : Ticket := Tab.get s.mem.tickets r ⟨0, 0, [], [], 0⟩
def State.setTicket (s : State) (r : Nat) (t : Ticket) : State :=
  { s with mem := { s.mem with tickets := Tab.put s.mem.tickets r t } }

/-- An entry has become free: it is reserved for the next ticket, and a grant is sent. -/
def State.grantNext (s : State) (r : Nat) : State :=
  let t := s.ticketOf r
  match t.queue with
  | [] => s
  | (c, n) :: q => s.setTicket r { t with served := BitVec.ofNat 24 n, queue := q, reserved := t.reserved ++ [(c, s.clock)] }

/-- A request finds a free entry. -/
def State.roomFor (s : State) (r : Nat) : Bool :=
  match resCap r with
  | none => true
  | some n => decide (s.resUsed r + (s.ticketOf r).reserved.length < n)

/-- A refusal carries the next ticket. -/
def State.refuse (s : State) (r id : Nat) : State :=
  let t := s.ticketOf r
  s.setTicket r { t with next := t.next + 1, queue := t.queue ++ [(id, t.next.toNat)], refused := t.refused + 1 }

def State.granted (s : State) (r id : Nat) : Bool := (s.ticketOf r).reserved.any (fun x => x.1 == id)
def State.queued (s : State) (r id : Nat) : Bool := (s.ticketOf r).queue.any (fun x => x.1 == id)

/-- The reserved entry is claimed. -/
def State.claim (s : State) (r id : Nat) : State :=
  let t := s.ticketOf r
  if s.granted r id then s.setTicket r { t with reserved := t.reserved.filter (fun x => x.1 != id) } else s

/-- An entry is there for a request: one reserved for it, or a free one. -/
def State.admitted (s : State) (r id : Nat) : Bool := s.granted r id || s.roomFor r

/-- A request meets a full table: refused once, it keeps its ticket. -/
def State.refuseOnce (s : State) (r id : Nat) : State := if s.queued r id then s else s.refuse r id

/-- A cancelled ticket is skipped. -/
def State.cancel (s : State) (r id : Nat) : State :=
  let t := s.ticketOf r
  s.setTicket r { t with queue := t.queue.filter (fun x => x.1 != id) }

-- Barrier words (Table 15-7).

/-- The fields of a barrier word. -/
structure BarW where
  arr : Nat
  exp : Nat
  gen : Nat
  pend : Nat
  pendn : Nat
  pexp : Nat
  wait : Nat
  bsc : Nat
  deriving DecidableEq, Repr

def BarW.num (b : BarW) : Nat :=
  b.arr + b.exp * 2 ^ 16 + b.gen * 2 ^ 32 + b.pend * 2 ^ 64 + b.pendn * 2 ^ 128 + b.pexp * 2 ^ 192 + b.wait * 2 ^ 256
    + b.bsc * 2 ^ 272

def BarW.ofNum (x : Nat) : BarW :=
  ⟨bits x 0 16, bits x 16 16, bits x 32 32, bits x 64 48, bits x 128 48, bits x 192 48, bits x 256 16, bits x 272 3⟩

/-- Places from here on name bytes of the saved allotment of a team held in an image: team key × 2^24 + offset. -/
def imgBase : Nat := 2 ^ 120
def imgPlace (key rel : Nat) : Nat := imgBase + key * 2 ^ 24 + rel

/-- Sixty-four bytes at a word's place. -/
def State.barBytes (s : State) (w : Nat) : List Byte :=
  if w < imgBase then Memory.getBytes s.mem.scr w 64
  else match Tab.find s.teams ((w - imgBase) / 2 ^ 24) with
    | some t => Memory.getBytes t.scr (w % 2 ^ 24) 64
    | none => []

def State.bar (s : State) (w : Nat) : BarW := BarW.ofNum (leNat (s.barBytes w))

/-- Writes the bytes of a word that `all` or a change selects. -/
def State.putBar (s : State) (w : Nat) (b : BarW) (all : Bool) : State :=
  let old := s.barBytes w
  let new := leOf 64 b.num
  let ix := (List.range 64).filter (fun i =>
    (all && (decide (i < 4) || decide (8 ≤ i))) || old.getD i 0 != new.getD i 0)
  if w < imgBase then { s with mem := s.mem.putScratch (ix.map (fun i => (w + i, new.getD i 0))) }
  else
    let k := (w - imgBase) / 2 ^ 24
    match Tab.find s.teams k with
    | some t =>
      let scr := ix.foldl (fun m i => Memory.put m (w % 2 ^ 24 + i) (new.getD i 0)) t.scr
      { s with teams := Tab.put s.teams k { t with scr := scr } }
    | none => s

/-- Every waiter of a word is woken. -/
def State.wakeWord (s : State) (w : Nat) : State :=
  { s with crews := s.crews.map (fun kv => match kv.2.wait with
      | .barrier w' _ t b => if w' = w then (kv.1, { kv.2 with wait := .barrier w' (2 ^ 32) t b }) else kv
      | _ => kv) }

/-- The test after an event (R262). -/
def BarW.test (b : BarW) : BarW × Bool :=
  if (b.bsc == 1 || b.bsc == 2) && decide (b.exp ≤ b.arr) && b.pend == 0 then
    ({ b with gen := (b.gen + 1) % 2 ^ 32, arr := b.arr - b.exp, pend := (b.pexp + b.pendn) % 2 ^ 48, pendn := 0 }, true)
  else (b, false)

/-- An event on a word. -/
def State.barEvent (s : State) (w : Nat) (b : BarW) : State :=
  let r := b.test
  let s := s.putBar w r.1 false
  if r.2 then s.wakeWord w else s

/-- The widest scope at which transfers have lowered a word's counts: its waiters acquire there (R233). -/
def State.noteScope (s : State) (w scope : Nat) : State :=
  { s with mem := { s.mem with lowered := Tab.put s.mem.lowered w (max scope (Tab.get s.mem.lowered w 0)) } }

/-- A transfer lowers a count of a word by generation (R262); false when it names neither generation. -/
def State.barLower (s : State) (w n gen : Nat) : State × Bool :=
  let b := s.bar w
  let sub : Nat → Nat := fun x => (x + 2 ^ 48 - n % 2 ^ 48) % 2 ^ 48
  if gen = b.gen then (s.barEvent w { b with pend := sub b.pend }, true)
  else if gen = (b.gen + 1) % 2 ^ 32 then (s.barEvent w { b with pendn := sub b.pendn }, true)
  else (s, false)

/-- A waiter frees its barrier-table entry and leaves the word's count. -/
def State.freeBar (s : State) (id w : Nat) : State :=
  let b := s.bar w
  let s := s.putBar w { b with wait := b.wait - 1 } false
  match s.mem.barTab.find? (fun kv => kv.2.contains id) with
  | some (g, l) =>
    { s with mem := { s.mem with barTab := Tab.put s.mem.barTab g (l.filter (· != id)) } }.grantNext (resBarrier g)
  | none => s

/-- Waiters on words of an allotment follow it: `f` moves a word's place. -/
def State.moveWaiters (s : State) (f : Nat → Nat) : State :=
  { s with
    mem := { s.mem with lowered := s.mem.lowered.foldl (fun t kv => Tab.put t (f kv.1) kv.2) [] }
    crews := s.crews.map (fun kv => match kv.2.wait with
      | .barrier w g t b => (kv.1, { kv.2 with wait := .barrier (f w) g t b })
      | _ => kv) }

/-- A crew's monitor leaves its table. -/
def State.dropMonitor (s : State) (id : Nat) : State :=
  match s.mem.monitors.find? (fun m => m.crew == id) with
  | some m => { s with mem := { s.mem with monitors := s.mem.monitors.filter (fun x => x.crew != id) } }.grantNext m.res
  | none => s

-- Waits that end without their event.

/-- A blocked crew gives up its entries (R56, R266, R271); the arrival of a BAR stays. -/
def State.unwait (s : State) (id : Nat) : State :=
  match s.crew id with
  | none => s
  | some c =>
    match c.wait with
    | .barrier w g _ b => (s.freeBar id w).updCrew id (fun c => { c with wait := if b then .arrived g else .none })
    | .ticket _ g _ b => s.updCrew id (fun c => { c with wait := if b then .arrived g else .none })
    | .monitor => (s.dropMonitor id).updCrew id (fun c => { c with wait := .none })
    | .arrived _ => s
    | _ => s.updCrew id (fun c => { c with wait := .none })

end Sys2Proof.Machine
end

