-- ==== Sys2Proof/Machine/Ops.lean ====
section
/-! DEFINITION. Operations shared by every meaning: crew registers, the commit buffer and lookahead (R47 to R50, R100, R116),
regions and domains, raising a fault and posting its record (R55, R358 to R361, R418, R419), delivering a trap and
returning from it (R356, R357), performing buffered stores (R50, R222) and committing a heat. -/

namespace Sys2Proof.Machine

-- Crews and slots.

def teamKey (rk team : Nat) : Nat := rk * 2 ^ 48 + team
def crewKey (rk team no : Nat) : Nat := teamKey rk team * 16 + no

def Crew.slot (c : Crew) (n : Nat) : PcSlot := if n = 0 then c.s0 else c.s1
def Crew.setSlot (c : Crew) (n : Nat) (x : PcSlot) : Crew := if n = 0 then { c with s0 := x } else { c with s1 := x }
def PcSlot.free (x : PcSlot) : Bool := x.mask == 0
def PcSlot.none : PcSlot := { pc := 0, mask := 0, base := 0, chain := [], parked := false }

def State.setMem (s : State) (m : MemSys) : State := { s with mem := m }
def State.region (s : State) (rk : Nat) : Option Region := Tab.find s.regions rk
def State.team (s : State) (rk t : Nat) : Option Team := Tab.find s.teams (teamKey rk t)
def State.updRegion (s : State) (rk : Nat) (f : Region → Region) : State :=
  match Tab.find s.regions rk with
  | some r => { s with regions := Tab.put s.regions rk (f r) }
  | none => s

/-- Words of a region's RCB (Table 3-1). -/
def Region.word (r : Region) (n : Nat) : Nat := (r.w.getD n 0).toNat
def Region.lanes (r : Region) : Nat := bits (r.word 5) 52 6
def Region.crews (r : Region) : Nat := bits (r.word 5) 48 4 + 1
def Region.gx (r : Region) : Nat := bits (r.word 5) 0 16
def Region.gy (r : Region) : Nat := bits (r.word 5) 16 16
def Region.gz (r : Region) : Nat := bits (r.word 5) 32 16
def Region.grid (r : Region) : Nat := r.gx * r.gy * r.gz
def Region.barw (r : Region) : Nat := bits (r.word 6) 48 8
def Region.dstk (r : Region) : Nat := bits (r.word 6) 44 4 * 8
def Region.allot (r : Region) : Nat := bits (r.word 6) 32 9
def Region.fuse (r : Region) : Bool := (r.word 6).testBit 24
def Region.scru (r : Region) : Nat := bits (r.word 6) 16 6
def Region.l1u (r : Region) : Nat := bits (r.word 6) 8 6
def Region.regu (r : Region) : Nat := bits (r.word 6) 0 6
def Region.entry (r : Region) : DWord := r.w.getD 7 0
def Region.trape (r : Region) : DWord := r.w.getD 8 0
def Region.spill (r : Region) : Nat := r.word 9
def Region.tscr (r : Region) : Nat := bits (r.word 10) 32 16
def Region.spillc (r : Region) : Nat := bits (r.word 10) 0 32

-- Registers.

def Regs.rdV (r : Regs) (k : Nat) : Lanes := Tab.get r.v k zeroLanes
def Regs.rdTag (r : Regs) (k : Nat) : Nat := Tab.get r.tag k fmtBITS
def Regs.rdS (r : Regs) (n : Nat) : DWord := Tab.get r.s n 0
/-- p0 reads 1 in every lane (R99). -/
def Regs.rdP (r : Regs) (n : Nat) : Word := if n = 0 then BitVec.allOnes 32 else Tab.get r.p n 0

/-- Writes one register result; a lane outside the mask keeps its bits, the tag is written whatever the mask (R81). A write of
every lane removes an error of the store's words. -/
def Regs.put (r : Regs) (w : RegW) : Regs :=
  match w with
  | .v k m x t => { r with
      v := Tab.put r.v k (mergeLanes m (r.rdV k) x)
      tag := Tab.put r.tag k t
      errs := if m = BitVec.allOnes 32 then r.errs.filter (· != k) else r.errs }
  | .s n x => { r with s := Tab.put r.s n x }
  | .p n m x => { r with p := Tab.put r.p n ((Tab.get r.p n 0 &&& ~~~m) ||| (x &&& m)) }

/-- A vector register whose store words hold an uncorrectable error. -/
def Regs.bad (r : Regs) (k : Nat) : Bool := r.errs.contains k || (decide (k < 1024) && r.errs.contains 2048)

def Regs.puts (r : Regs) (ws : List RegW) : Regs := ws.foldl Regs.put r

/-- Fields of MODE (Table 7-5). -/
def modeGuard (m : BitVec 40) : Nat := bits m.toNat 0 3
def modeGinv (m : BitVec 40) : Bool := m.getLsbD 3
def modeFmt (m : BitVec 40) : Nat := bits m.toNat 4 5
def modeRnd (m : BitVec 40) : Rnd := ⟨bits m.toNat 9 3, m.getLsbD 12, m.getLsbD 13⟩
def modeSgn (m : BitVec 40) : Bool := m.getLsbD 14
def modeIw (m : BitVec 40) : Nat := bits m.toNat 15 2
def modeScope (m : BitVec 40) : Nat := bits m.toNat 20 3
def modeStore (m : BitVec 40) : Nat := bits m.toNat 23 2
def modeUse (m : BitVec 40) : Nat := bits m.toNat 25 3
def modeOrd (m : BitVec 40) : Nat := bits m.toNat 28 2
def modeCache (m : BitVec 40) : Nat := bits m.toNat 30 2
def modeQgrp (m : BitVec 40) : Nat := bits m.toNat 33 3

/-- The registers an instruction of the crew sees: the open heat's, else the committed ones (R49). -/
def Crew.regs (c : Crew) : Regs :=
  match c.heat with
  | some h => h.wrk
  | none => c.com

/-- The heat's window base, SLIDE included (R138). -/
def Heat.key (h : Heat) (code : Nat) : Nat := if code < 24 then h.base + code else 1000 + code

/-- Active lanes of a slot. -/
def Crew.active (c : Crew) (h : Heat) : Word := (c.slot h.slot).mask

/-- Guard over the lanes (R113, R125). -/
def Regs.guard (r : Regs) : Word :=
  let p := r.rdP (modeGuard r.mode)
  if modeGinv r.mode then ~~~p else p

/-- Contributing lanes: active with the guard true (R167). -/
def Crew.lanes (c : Crew) (h : Heat) : Word := c.active h &&& h.wrk.guard

/-- Lanes whose register slice is allocated (R38, R61): some launched lane of the slice has not exited, or a token entry
keeps it (R284). -/
def Crew.alloc (c : Crew) (l : Nat) : Bool :=
  let s := l / 8 * 8
  (List.range 8).any (fun i => c.launched.getLsbD (s + i) && (!c.exited.getLsbD (s + i) || !c.toks.isEmpty))

/-- Registers in use by a slot: lowest and highest (R59). -/
def PcSlot.inUse (x : PcSlot) : Nat × Nat := (x.chain.foldl (fun a r => min a r.caller) (if x.chain.isEmpty then 0 else 1023), x.base + 23)

def Crew.usesReg (c : Crew) (r : Nat) : Bool :=
  [c.s0, c.s1].any (fun x => !x.free && decide (x.inUse.1 ≤ r) && decide (r ≤ x.inUse.2))

-- Token blocks (Table 17-1).

def tokBase (w : DWord) : Nat := fieldOf w 0 10
def tokCount (w : DWord) : Nat := fieldOf w 10 9
def tokFmt (w : DWord) : Nat := fieldOf w 24 5
def Token.holds (t : Token) (r : Nat) : Bool := decide (tokBase t.word ≤ r) && decide (r < tokBase t.word + tokCount t.word)

/-- A register of a block whose token is away or returned (R284), or that a GIVE of the open heat has named (R282). -/
def Crew.away (c : Crew) (r : Nat) : Bool :=
  c.toks.any (fun t => t.holds r) || (match c.heat with
    | some h => h.gives.any (fun w => (Token.mk w false).holds r)
    | none => false)

/-- The token blocks of a crew, with those that its open heat gives. -/
def Crew.tokWords (c : Crew) : List DWord := c.toks.map (fun t => t.word) ++ (match c.heat with
    | some h => h.gives
    | none => [])

/-- Lowest and highest register in use by a slot, its open heat's base included (R59, R138). -/
def Crew.useRange (c : Crew) (n : Nat) : Option (Nat × Nat) :=
  let x := c.slot n
  if x.free then none
  else
    let hb := match c.heat with
      | some h => if h.slot = n then h.base else x.base
      | none => x.base
    some ((x.inUse).1, max x.base hb + 23)

/-- The crew as other crews' register accesses find it: what its open heat holds is not seen (R54, R108). -/
def Crew.seen (c : Crew) (own : Bool) : Crew := if own then c else { c with heat := none }

-- Ways an instruction does not complete.

/-- Why an instruction stops short: a fault, a synchronous trap, a wait, a class conflict, another agent's turn. -/
inductive Stop
  | fault (f : Fail) (lane : Option Nat)
  | trap (cause code : Nat)
  | wait (w : Wait)
  | conflict (va : Nat)
  /-- the state an instruction leaves that does not complete: it waits after part of its effect -/
  | held (s : State)
  /-- a failure, and the state that the translations before it leave (R54, R375) -/
  | after (s : State) (f : Fail)
  deriving DecidableEq, Repr

def stopIllegal : Stop := .fault ⟨cILLEGAL, 0, 0⟩ none
def stopFormat : Stop := .fault ⟨cFORMAT, 0, 0⟩ none
def stopAccess : Stop := .fault ⟨cACCESS, 0, 0⟩ none

/-- The first condition that holds gives the stop. -/
def firstStop : List (Bool × Stop) → Option Stop
  | [] => none
  | (b, s) :: r => if b then some s else firstStop r

-- Who a crew is.

def State.coreSt (s : State) (core : Nat) : CoreSt :=
  Tab.get s.cores core ⟨0, 0, 0, false, none, none, [], [], [], []⟩

def State.coreOf (s : State) (c : Crew) : Nat :=
  match s.team c.rk c.team with
  | some t => t.core
  | none => 0

def State.port1 (s : State) (core : Nat) : Port1 :=
  if (s.coreSt core).fused then ⟨some (fusedHolder (core / 96)), none, coreRouter (core / 96 * 96)⟩
  else ⟨some core, some (clusterHolder (core / 96)), coreRouter core⟩

def State.whoCrew (s : State) (id : Nat) (c : Crew) : Who :=
  let core := s.coreOf c
  let fdom := match s.region c.rk with
    | some r => r.fdom
    | none => 0
  ⟨fdom, c.rk, some core, core / 384, s.port1 core, some id⟩

/-- An engine key: kind 0 Miller, 1 Flume, 2 Tailrace; unit a cluster or a Tailrace engine. -/
def engKey (kind unit idx : Nat) : Nat := kind * 65536 + unit * 256 + idx
def engKind (k : Nat) : Nat := k / 65536
def engUnit (k : Nat) : Nat := k / 256 % 256
def engIdx (k : Nat) : Nat := k % 256

def Eng.start : Eng :=
  { saved := [], gen := 0, home := 0, running := false, rk := 0, team := 0, crew := 0, core := 0, pc := 0, s := [], p := [],
    mode := 0, entry := none, off := 0, rets := [], tiles := [], accs := [], deps := [], lfsr := [],
    xops := [], ents := [], fences := [], park := none, wait := .none, last := 0, pend := [] }

def State.eng (s : State) (k : Nat) : Option Eng := Tab.find s.engs k
def State.setEng (s : State) (k : Nat) (e : Eng) : State := { s with engs := Tab.put s.engs k e }

/-- An engine's ports (R416): the cluster L1, or the fused L1; a Tailrace has none, and enters the mesh at router 0 of die 0,
as the Headrace does (DESIGN CHOICE, log 84). -/
def State.whoEng (s : State) (k : Nat) (e : Eng) : Who :=
  let fdom := match s.region e.rk with
    | some r => r.fdom
    | none => 0
  let g := engUnit k
  if engKind k = 2 then ⟨fdom, e.rk, none, 0, ⟨none, none, 0⟩, none⟩
  else if (s.coreSt (g * 96)).fused then ⟨fdom, e.rk, none, g / 4, ⟨some (fusedHolder g), none, coreRouter (g * 96)⟩, none⟩
  else ⟨fdom, e.rk, none, g / 4, ⟨none, some (clusterHolder g), coreRouter (g * 96)⟩, none⟩

-- Fault records.

/-- The eight words of a record (Table 21-4). -/
def FaultRec.words (r : FaultRec) (seq : Nat) : List Nat :=
  [ seq % 2 ^ 32 * 2 ^ 32 + r.kind % 16 * 2 ^ 12 + r.sealed.toNat * 2 ^ 11 + r.nested.toNat * 2 ^ 10
      + r.image.toNat * 2 ^ 9 + r.cause % 256,
    (match r.flane with
      | some l => 2 ^ 37 + l % 32 * 2 ^ 32
      | none => 0) + r.lanes.toNat,
    r.rcb,
    r.teamn % 2 ^ 32 * 2 ^ 32 + r.core % 4096 * 2 ^ 20 + r.crew % 16 * 2 ^ 16 + r.slot % 2 * 2 ^ 15
      + r.eidx % 256 * 2 ^ 5 + r.off % 32,
    r.heatpc.toNat, r.wordpc.toNat, r.addr.toNat, r.info % 2 ^ 24 ]

/-- Ring of a domain: base, size in records, CONS, PROD, NOTE, VEC (Table 21-2). -/
def State.ring (s : State) (fdom : Nat) : Nat × Nat × Nat × Nat × Bool × Nat :=
  let d := s.port.fdtb + 32 * fdom
  let w0 := s.mem.homeWord d
  let w1 := s.mem.homeWord (d + 8)
  let w3 := s.mem.homeWord (d + 24)
  (bits w0 12 45 * 4096, 2 ^ (bits w0 0 4 + 6), bits w1 32 32, bits w1 0 32, w3.testBit 11, bits w3 0 11)

/-- Sends an MSI-X vector; none is sent while the host port is down (R393). -/
def State.notice (s : State) (vec : Nat) : State :=
  if s.port.up then { s with port := { s.port with notices := vec :: s.port.notices } } else s

/-- Posts a record: record, PROD as a release, then the notice (R361); none when the ring is full. -/
def State.postRec (s : State) (fdom : Nat) (r : FaultRec) : State × Option Nat :=
  let (base, size, cons, prod, note, vec) := s.ring fdom
  if (prod + 2 ^ 32 - cons) % 2 ^ 32 = size then (s, none)
  else
    let m := s.mem.homeWrite s.clock (base + 64 * (prod % size)) ((r.words prod).flatMap (leOf 8))
    let m := m.homeWrite s.clock (s.port.fdtb + 32 * fdom + 8) (leOf 4 ((prod + 1) % 2 ^ 32))
    let s := { s with mem := m }
    (if note then s.notice vec else s, some prod)

/-- A fault raised by a crew (key) or engine: posted, or queued behind the domain's waiting faults. -/
def State.post (s : State) (fdom key : Nat) (eng : Bool) (r : FaultRec) : State × Option Nat :=
  let s := match (s.regions.find? (fun kv => kv.2.rcb == r.rcb)) with
    | some kv => s.updRegion kv.1 (fun g => { g with faults := g.faults + 1 })
    | none => s
  -- a fatal error of the pool aborts the region (R391)
  let s := if r.info.testBit 23 then
      { s with port := { s.port with abortReq := s.port.abortReq
          ++ ((s.regions.filter (fun kv => kv.2.rcb == r.rcb && decide (kv.2.state < 2))).map Prod.fst) } }
    else s
  if s.port.unposted.any (fun u => u.fdom == fdom) then
    ({ s with port := { s.port with unposted := s.port.unposted ++ [⟨fdom, key, eng, r⟩] } }, none)
  else
    match s.postRec fdom r with
    | (s, some q) => (s, some q)
    | (s, none) => ({ s with port := { s.port with unposted := s.port.unposted ++ [⟨fdom, key, eng, r⟩] } }, none)

-- Discard, resume points, faults, traps.

/-- A crew's record fields that do not depend on the fault. -/
def State.crewRec (s : State) (c : Crew) (slot : Nat) (f : Fail) (lane : Option Nat) : FaultRec :=
  { kind := 0, sealed := false, nested := false, image := false, cause := f.cause, flane := lane,
    lanes := (c.slot slot).mask,
    rcb := match s.region c.rk with
      | some r => r.rcb
      | none => 0
    teamn := c.team, core := s.coreOf c, crew := c.no, slot := slot, eidx := 0, off := 0,
    heatpc := (c.slot slot).pc, wordpc := (c.slot slot).pc, addr := BitVec.ofNat 64 f.addr, info := f.info }

/-- An unsealed heat vanishes: the slot stands at the heat's entry (R54). -/
def Crew.discard (c : Crew) : Crew :=
  match c.heat with
  | some h => { c.setSlot h.slot { c.slot h.slot with pc := h.entry } with
      heat := none, latch := [], ring := { c.ring with todo := [], touched := [] } }
  | none => c

/-- Parks a crew on a fault (R55, R358): its blocked wait stops. `late` faults leave no heat behind (R419). -/
def State.parkCrew (s : State) (id slot : Nat) (r : FaultRec) (late : Bool) : State :=
  match s.crew id with
  | none => s
  | some c =>
    let (s, q) := (s.unwait id).post (s.whoCrew id c).fdom id false r
    s.updCrew id (fun c => { c with park := some ⟨r, q, late, slot, none, 0⟩, kept := false })

/-- A fault met in the slot's heat: an unsealed heat is discarded, a sealed one keeps its resume point (R55). `g` completes
the record. -/
def State.raiseWith (s : State) (id slot : Nat) (f : Fail) (lane : Option Nat) (g : FaultRec → FaultRec) : State :=
  match s.crew id with
  | none => s
  | some c =>
    let r := g (s.crewRec c slot f lane)
    match c.heat with
    | none => s.parkCrew id slot r false
    | some h =>
      let r := { r with sealed := h.sealed, off := h.off, heatpc := h.entry }
      if h.sealed then s.parkCrew id slot r false
      else
        let s := s.updRegion c.rk (fun g => { g with discards := g.discards + 1 })
        (s.setCrew id c.discard).parkCrew id slot r false

/-- A fault met by the slot's next instruction. -/
def State.raise (s : State) (id slot : Nat) (f : Fail) (lane : Option Nat) (nested : Bool) : State :=
  s.raiseWith id slot f lane (fun r => { r with nested := nested })

/-- The heat as it stood before the word of a result: a sealed one continues there (R55, R363, log 76). -/
def Heat.back (h : Heat) (p : Pend) : Heat :=
  { h with
    off := p.off
    pend := (h.pend.filter (fun q => decide (q.off < p.off))).map (fun q => { q with left := q.left + (h.off - p.off) })
    gives := h.gives.take p.gives
    group := h.group.take p.members }

/-- What the data of a waited result met, raised at the word that asked for them (R129, R243, R391). -/
def State.raiseMet (s : State) (id slot : Nat) (p : Pend) (m : Met) : State :=
  (s.updCrew id (fun c => { c.setSlot slot { c.slot slot with pc := p.pc } with heat := c.heat.map (fun h => h.back p) })).raise
    id slot ⟨m.cause, 0, m.addr⟩ m.lane false

/-- An error of an access's data, raised at the word that issues; the access stays performed (R243). -/
def State.metNow (s : State) (id : Nat) (m : Met) : Stop :=
  .held (s.raise id (((s.crew id).bind (fun c => c.heat)).elim 0 (fun h => h.slot)) ⟨m.cause, 0, m.addr⟩ m.lane false)

/-- A fault after the heat has committed (R419): the slot's PC already stands at `HEATPC`. -/
def State.raiseLate (s : State) (id slot : Nat) (f : Fail) (wordpc : DWord) : State :=
  match s.crew id with
  | none => s
  | some c => s.parkCrew id slot { s.crewRec c slot f none with wordpc := wordpc } true

/-- Taking a synchronous trap (R355, R356). `code` is the BRK or SVC code, or ARITH's flags; `svc` gives the resume
address after a committed heat. TRAPINFO holds the word's offset for every cause (Table 9-8, log 36). -/
def State.trap (s : State) (id slot cause code : Nat) (svc : Option (DWord × Nat)) : State :=
  match s.crew id with
  | none => s
  | some c =>
    let trape : DWord := match s.region c.rk with
      | some r => r.trape
      | none => 0
    let off := match svc, c.heat with
      | some x, _ => x.2
      | none, some h => h.off
      | none, none => 0
    if trape = 0 || c.trap.cause != 0 then
      match svc with
      | some x => s.parkCrew id slot { s.crewRec c slot ⟨cause, code, 0⟩ none with nested := true, wordpc := x.1 - 4 } true
      | none => s.raise id slot ⟨cause, code, 0⟩ none true
    else
      let depth := (c.slot slot).chain.length
      let info := code + off * 2 ^ 20
      let ctl : DWord := BitVec.ofNat 64 (off * 256 + (if cause = cBREAK then 1 else 0))
      let enter : Crew → BitVec 40 → Option Heat → DWord → Crew := fun c m h pc =>
        { c.setSlot slot { c.slot slot with pc := trape, parked := false } with
          com := { c.com with mode := 0, tretpc := pc, tretctl := ctl }
          trap := ⟨slot, cause, info, m, depth, h⟩
          heat := none, wait := .none, last := 1 - slot, skip := none }
      match c.heat with
      | none => s.setCrew id (enter c c.com.mode none ((svc.map Prod.fst).getD (c.slot slot).pc))
      | some h =>
        if h.sealed then s.setCrew id (enter c h.wrk.mode (some h) c.com.tretpc)
        else
          let s := s.updRegion c.rk (fun g => { g with discards := g.discards + 1 })
          s.setCrew id (enter c.discard c.com.mode none h.entry)

/-- The lanes that a commit-buffer entry enables. -/
def Heat.enables (h : Heat) (name : Nat) : Word := Tab.get h.en name 0

/-- The commit-buffer entries of an interrupted sealed heat, as recorded, over the committed state its handler left (R145). -/
def Heat.rebase (h : Heat) (new : Regs) : Regs :=
  let on : Nat → Bool := fun n => (Tab.find h.en n).isSome
  let v := (h.wrk.v.filter (fun kv => on kv.1)).foldl (fun t kv =>
    Tab.put t kv.1 (mergeLanes (h.enables kv.1) (new.rdV kv.1) kv.2)) new.v
  let tag := (h.wrk.tag.filter (fun kv => on kv.1)).foldl (fun t kv => Tab.put t kv.1 kv.2) new.tag
  let sr := (h.wrk.s.filter (fun kv => on (4096 + kv.1))).foldl (fun t kv => Tab.put t kv.1 kv.2) new.s
  let p := (h.wrk.p.filter (fun kv => on (8192 + kv.1))).foldl (fun t kv =>
    let m := h.enables (8192 + kv.1)
    Tab.put t kv.1 ((new.rdP kv.1 &&& ~~~m) ||| (kv.2 &&& m))) new.p
  let watch := (h.wrk.watch.filter (fun kv => on (9016 + kv.1))).foldl (fun t kv => Tab.put t kv.1 kv.2) new.watch
  { v := v, tag := tag, s := sr, p := p, watch := watch
    mode := h.wrk.mode
    asw := if on 9000 then h.wrk.asw else new.asw
    lfsr := mergeLanes (h.enables 9001) new.lfsr h.wrk.lfsr
    tretpc := if on 9002 then h.wrk.tretpc else new.tretpc
    tretctl := if on 9003 then h.wrk.tretctl else new.tretctl
    errs := new.errs }

-- Memory that the device arranges.

/-- The areas that the device arranges itself hold free values (R366, R369). -/
def State.devArea (s : State) (pa n : Nat) : State :=
  let m := (s.mem.flushRange s.clock pa n).clearL2 pa n
  { s with
    freeCount := s.freeCount + n
    mem := { m with
      pkg := m.pkg.filter (fun c => !(decide (pa ≤ c.1) && decide (c.1 < pa + n)))
      arranged := cutRanges m.arranged pa n ++ [(pa, n, s.freeCount)]
      monitors := m.monitors.map (fun (w : Monitor) =>
        if w.sp == .pkg && decide (pa ≤ w.a) && decide (w.a < pa + n) then { w with fired := true } else w) } }

/-- Bytes of a team's allotment. -/
def Region.allotBytes (r : Region) : Nat := r.tscr * 1024

/-- The placed team of a region whose allotment holds a byte of a core's scratch share (R200). -/
def State.allotOf (s : State) (rk core off : Nat) : Option (Nat × Team) :=
  match s.region rk with
  | none => none
  | some r =>
    s.teams.find? (fun kv => kv.1 / 2 ^ 48 == rk && kv.2.st == .placed && kv.2.core == core
      && decide (kv.2.idx * r.allotBytes ≤ off) && decide (off < kv.2.idx * r.allotBytes + r.allotBytes))

def scrAddr (core off : Nat) : Nat := core * 2 ^ 24 + off

/-- The barrier word that a byte of a core's scratch share lies in (R36). -/
def State.barWord (s : State) (rk core off : Nat) : Option Nat :=
  match s.allotOf rk core off, s.region rk with
  | some (_, t), some r =>
    if off - t.idx * r.allotBytes < r.barw * 64 then some (scrAddr core (off / 64 * 64)) else none
  | _, _ => none

/-- Bits of a barrier word that stores may change: WAITERS and the reserved fields are read-only (Table 15-7). -/
def barKeep : Nat :=
  (2 ^ 64 - 1) + (2 ^ 48 - 1) * 2 ^ 64 + (2 ^ 48 - 1) * 2 ^ 128 + (2 ^ 48 - 1) * 2 ^ 192 + 7 * 2 ^ 272

/-- Scratch bytes as a plain store or atomic of a region writes them: in a barrier word only the writable bits (R261). -/
def State.scrCells (s : State) (rk : Nat) (bs : List (Nat × Byte)) : List (Nat × Byte) :=
  bs.map (fun x => match s.barWord rk (x.1 / 2 ^ 24) (x.1 % 2 ^ 24) with
    | none => x
    | some w =>
      let k : Byte := BitVec.ofNat 8 (bits barKeep (8 * (x.1 - w)) 8)
      (x.1, (Memory.get s.mem.scr x.1 &&& ~~~k) ||| (x.2 &&& k)))

-- Read-modify-writes (R228, R229, R257).

/-- NewValue of Table 15-5, with AFADD as R257 gives it. -/
def AtOp.apply (o : AtOp) (bytes : Nat) (mode : BitVec 40) (old d d2 : Nat) : Nat :=
  let w := 8 * bytes
  let sgn := modeSgn mode
  match o with
  | .add => (old + d) % 2 ^ w
  | .fadd =>
    let f := modeFmt mode
    let c := modeRnd mode
    (roundTo f c 0 (valAdd (c.mode == rndRDN) (valOf f c.ftz old) (valOf f c.ftz d)).1).1
  | .min => if intVal w sgn d < intVal w sgn old then d else old
  | .max => if intVal w sgn old < intVal w sgn d then d else old
  | .and => old &&& d
  | .or => old ||| d
  | .xor => old ^^^ d
  | .swp => d
  | .cas => if old = d then d2 else old

/-- One read-modify-write at its perform point (Table 13-6): the old value. -/
def State.rmw (s : State) (w : Who) (scope cache : Nat) (sp : Space) (a n : Nat) (f : Nat → Nat) : State × Nat :=
  let cells : Nat → List (Nat × Byte) := fun x =>
    (List.range n).map (fun i => (a + i, (leOf n x).getD i 0))
  match sp with
  | .pkg =>
    let (m, hd) := s.mem.prepAtomic s.clock w.port scope a n
    let old := m.readAt hd a n
    let m := (m.putAt hd (lineOf a) ((cells (f old)).map (fun x => (x.1 % 128, x.2)))).markAt hd (lineOf a) cache
    ({ s with mem := m.wroteBy w.rk ((cells 0).map (fun x => (Space.pkg, x.1))) }, old)
  | .scr =>
    let old := leNat (Memory.getBytes s.mem.scr a n)
    ({ s with mem := s.mem.putScratch (s.scrCells w.rk (cells (f old))) }, old)
  | .peer =>
    -- the core's own buffered bytes of the line drain first (R235)
    let m := s.mem.drainLine w.core (lineOf a)
    let old := leNat (Memory.getBytes m.peer a n)
    ({ s with mem := m.putPeer (lineOf a) ((cells (f old)).map (fun x => (x.1 % 128, x.2))) }, old)
  | .ext k3 p =>
    if k3 then
      let old := leNat (Memory.getBytes s.mem.ext (extAddr p a) n)
      let m := { s.mem with ext := Memory.putBytes s.mem.ext (extAddr p a) (leOf n (f old)) }
      ({ s with mem := m.wroteBy w.rk ((cells 0).map (fun x => (sp, x.1))) }, old)
    else
      let m := s.mem.extFetch p (lineOf a) true
      let old := leNat ((List.range n).map (fun i => m.extByte p (a + i)))
      ({ s with mem := (m.putExt p (cells (f old))).wroteBy w.rk ((cells 0).map (fun x => (sp, x.1))) }, old)
  | .reg _ => (s, 0)

/-- The crew's deferred atomics are performed, in their order (R229); their places in the atomic queues become free (R272). -/
def State.performLater (s : State) (id : Nat) : State :=
  match s.crew id with
  | none => s
  | some c =>
    let w := s.whoCrew id c
    let s := c.later.foldl (fun s q => q.lanes.foldl (fun s l =>
      (s.rmw w (modeScope q.mode) (modeCache q.mode) l.sp l.a q.bytes (fun v => q.op.apply q.bytes q.mode v l.d l.d2)).1) s)
      (s.setCrew id { c with later := [] })
    (c.later.flatMap QMember.slices).foldl (fun s x => s.grantNext (resAtomic x)) s

/-- A deferred atomic of the crew lies in the line of one of these places of package memory. -/
def Crew.owes (c : Crew) (ps : List (Space × Nat)) : Bool :=
  c.later.any (fun q => q.lanes.any (fun l => ps.any (fun x => x.1 == .pkg && lineOf x.2 == lineOf l.a)))

/-- An access of a crew to a line of its own deferred atomics comes after them. -/
def State.ownFirst (s : State) (w : Who) (ps : List (Space × Nat)) : State :=
  match w.crew with
  | none => s
  | some id => if (s.crew id).any (fun c => c.owes ps) then s.performLater id else s

/-- Every crew's deferred atomics are performed: before translations or places of memory change (R219, R377). -/
def State.performLaters (s : State) : State :=
  ((s.crews.filter (fun kv => !kv.2.later.isEmpty)).map Prod.fst).foldl State.performLater s

-- Engine contexts that stop.

/-- INDEX as Table 9-3 gives it. -/
def engIndexField (k : Nat) : Nat := if engKind k = 2 then engUnit k * 16 + engIdx k else engIdx k

/-- The cores a context holds in grid mode go back to lane mode (R294). -/
def State.laneMode (s : State) (k : Nat) : State :=
  { s with cores := s.cores.map (fun kv => if kv.2.grid == some k then (kv.1, { kv.2 with grid := none }) else kv) }

/-- A context's record (R418). -/
def State.engRec (s : State) (k : Nat) (e : Eng) (f : Fail) (heatpc wordpc : DWord) (off : Nat) : FaultRec :=
  { kind := engKind k + 1, sealed := false, nested := false, image := false, cause := f.cause, flane := none, lanes := 0,
    rcb := (match s.region e.rk with
      | some r => r.rcb
      | none => 0),
    teamn := e.team, core := e.core, crew := engIndexField k % 16, slot := 0, eidx := engIndexField k, off := off,
    heatpc := heatpc, wordpc := wordpc, addr := BitVec.ofNat 64 f.addr, info := f.info }

/-- How the program that a context runs stands, as its handle tells (R149). -/
def State.setFork (s : State) (e : Eng) (st : Nat) : State :=
  if (Tab.get s.forks e.home (0, 0)).1 = e.gen then { s with forks := Tab.put s.forks e.home (e.gen, st) } else s

/-- A stopped context whose running operations are over: its cores leave grid mode, and its program has ended by a fault
(R289, R294, R149). -/
def State.engStopped (s : State) (k : Nat) : State :=
  match s.eng k with
  | some e => if e.park.isSome && !e.xops.any (fun x => x.started) then (s.laneMode k).setFork e 2 else s
  | none => s

/-- A fault is posted and stops the context (R289); a later one of its running work is posted alone (R361). `late` marks a
fault met after its heat closed. -/
def State.stopEng (s : State) (k : Nat) (fr : FaultRec) (late : Bool) : State :=
  match s.eng k with
  | none => s
  | some e =>
    let fdom := match s.region e.rk with
      | some r => r.fdom
      | none => 0
    let (s, q) := s.post fdom k true fr
    if e.park.isSome then s
    else (s.setEng k { e with park := some ⟨fr, q, late, 0, none, 0⟩, wait := .none }).engStopped k

/-- A fault met by the context's next word. -/
def State.raiseEng (s : State) (k : Nat) (f : Fail) : State :=
  match s.eng k with
  | none => s
  | some e => s.stopEng k (s.engRec k e f (e.entry.getD e.pc) e.pc (if e.entry.isSome then e.off else 0)) false

-- The class engine (R218, R378).

/-- Puts a class conflict before the die's class engine, 64 at a time; a full queue refuses with a ticket (R273). -/
def State.classAsk (s : State) (die fdom va id : Nat) : State :=
  let q := Tab.get s.mem.classq die []
  if q.any (fun r => r.crew == id && r.va == va) then s
  else if s.admitted (resClass die) id then
    let s := s.claim (resClass die) id
    { s with mem := { s.mem with classq := Tab.put s.mem.classq die (q ++ [⟨fdom, va, id⟩]) } }
  else s.refuseOnce (resClass die) id

/-- What a request that was put before the class engine waits for. -/
def State.classWait (s : State) (die id : Nat) : Wait :=
  if s.queued (resClass die) id then .ticket (resClass die) 0 s.clock false else .other

/-- The access that a class request held goes on. -/
def State.classDone (s : State) (key : Nat) : State :=
  let s := s.updCrew key (fun c => match c.wait with
    | .other => { c with wait := .none }
    | _ => c)
  match s.eng key with
  | some e => (match e.wait with
    | .other => s.setEng key { e with wait := .none }
    | _ => s)
  | none => s

/-- A class request whose entry cannot be written: the access raises PAGE. -/
def State.classFail (s : State) (key : Nat) (f : Fail) : State :=
  match s.crew key with
  | some c => if c.park.isSome then s else s.raise key (c.heat.elim c.last Heat.slot) f none false
  | none => s.raiseEng key f

/-- The class engine takes the oldest conflict of its die. A walk that now fails is met again by the access itself. -/
def State.classRun (s : State) (die : Nat) : State :=
  match Tab.get s.mem.classq die [] with
  | [] => s
  | r :: q =>
    let s := { s with mem := { s.mem with classq := Tab.put s.mem.classq die q } }.grantNext (resClass die)
    match s.walk r.fdom r.va with
    | .error _ =>
      (s.invalTlb (fun x => x.fdom == r.fdom && decide (x.va ≤ r.va) && decide (r.va < x.va + 2 ^ x.nbits))).classDone r.crew
    | .ok _ =>
      match s.performLaters.classFix r.fdom r.va 0 0 with
      | (s, none) => s.classDone r.crew
      | (s, some f) => (s.classDone r.crew).classFail r.crew f

/-- Every request that came before (R378: in arrival order). -/
def State.classServe (s : State) (die : Nat) : State :=
  (List.range (Tab.get s.mem.classq die []).length).foldl (fun s _ => s.classRun die) s

/-- A request that the class engine serves within the step, after those that came before (log 57). -/
def State.classNow (s : State) (w : Who) (va cls owner : Nat) : State × Option Fail :=
  (s.classServe w.die).performLaters.classFix w.fdom va cls owner

/-- A translation of a fetch, of the Sluice or of the Headrace: its class conflict is resolved within the step. -/
def State.translateNow (s : State) (w : Who) (va k : Nat) : State × XR :=
  match s.translate w va k with
  | (s, .conflict _) =>
    (match s.classNow w va 0 0 with
    | (s, some f) => (s, .fail { f with info := if f.cause = cPAGE then k else f.info })
    | (s, none) => s.translate w va k)
  | r => r

-- Fetch and transfers.

/-- A data bank of the core failed after another bank (R203). -/
def State.deadCore (s : State) (core : Nat) : Bool :=
  (Tab.find s.cores core).any (fun c => (c.failed.drop 1).any (fun b => decide (b < 16)))

/-- Lines of package memory that a request at home meets with an error. -/
def State.homePoisoned (s : State) (pas : List Nat) : Bool :=
  pas.any (fun pa => s.mem.homePoisoned (homeRouter pa) (lineOf pa))

/-- The word at a virtual address, fetched as code (R375): X is checked, A is set. A KIND 3 page is read without the coherent
cache (R385), and bytes with an uncorrectable error raise POISON (R15, R391). -/
def State.fetchWord (s : State) (w : Who) (pc : DWord) : State × Except Fail Word :=
  match s.translateNow w pc.toNat aFetch with
  | (s, .ok h) =>
    let b : Nat → Byte := fun i => match h.sp with
      | .pkg => s.mem.homeByte (h.pa + i)
      | .peer => Memory.get s.mem.peer (h.pa + i)
      | .ext k3 p => if k3 then Memory.get s.mem.ext (extAddr p (h.pa + i)) else s.mem.extByte p (h.pa + i)
      | _ => 0
    let bad := match h.sp with
      | .pkg => s.mem.homePoisoned (homeRouter h.pa) (lineOf h.pa)
      | .ext false _ => s.mem.poison.contains (extMark (lineOf h.pa))
      | _ => false
    (s, if bad then .error ⟨cPOISON, 0, pc.toNat⟩ else .ok (wordOfBytes (b 0) (b 1) (b 2) (b 3)))
  | (s, .fail f) => (s, .error f)
  | (s, .conflict _) => (s, .error ⟨cACCESS, aFetch, pc.toNat⟩)

/-- HEAT or HEAT.J. -/
def opensHeat (w : Word) : Bool :=
  match decodeWord w with
  | .ok .heat => true
  | .ok .heatJ => true
  | _ => false

/-- The check of a transfer (R45, R131): the slot's PC must address a HEAT or HEAT.J word; the record names the word and the
address that led there, which a parked crew keeps for the check at RESUME (R419). -/
def State.checkTarget (s : State) (id slot : Nat) (src : DWord) : State :=
  match s.crew id with
  | none => s
  | some c =>
    let x := c.slot slot
    if x.free || c.park.isSome then s
    else
      match s.fetchWord (s.whoCrew id c) x.pc with
      | (s, .error f) => (s.raiseLate id slot f x.pc).updCrew id (fun c => { c with park := c.park.map (fun p => { p with src := src }) })
      | (s, .ok w) =>
        if opensHeat w && x.pc.toNat % 4 == 0 then s
        else (s.raiseLate id slot ⟨cILLEGAL, 0, src.toNat⟩ x.pc).updCrew id
          (fun c => { c with park := c.park.map (fun p => { p with src := src }) })

-- Performing buffered work.

/-- The absolute register of a register-space place: KIND in bits [18:17], REG in bits [16:7] (Table 7-4). -/
def Crew.regAbs (c : Crew) (a : Nat) : Option Nat :=
  let reg := bits a 7 10
  match bits a 17 2 with
  | 0 => some reg
  | n + 1 =>
    let x := c.slot n
    let base := match c.heat with
      | some h => if h.slot = n then h.base else x.base
      | none => x.base
    if x.free then none else some (base + reg)

/-- A byte stored to a register-space place: the tag becomes BITS (R81). A window-relative register is resolved now (R108);
when its slot has become free the byte is dropped (log 62). -/
def Crew.putReg (c : Crew) (a : Nat) (b : Byte) : Crew :=
  match c.regAbs a with
  | none => c
  | some r =>
    let l := a / 4 % 32
    let sh := 8 * (a % 4)
    let old := lane (c.com.rdV r) l
    let nw : Word := (old &&& ~~~(0xFF#32 <<< sh)) ||| (b.setWidth 32 <<< sh)
    { c with
      com := { c.com with
        v := Tab.put c.com.v r (lanesOf (fun i => if i = l then nw else lane (c.com.rdV r) i))
        tag := Tab.put c.com.tag r fmtBITS }
      latch := c.latch.filter (fun e => e.1 != r) }

/-- Stores that waited for the end of the crew's heat (R60). -/
def Crew.drain (c : Crew) : Crew :=
  if c.heat.isSome then c else c.inbox.foldl (fun c x => c.putReg x.a x.b) { c with inbox := [] }

/-- Adds a buffered operation to the open heat. -/
def State.buffer (s : State) (id : Nat) (o : BufOp) : State :=
  s.updCrew id (fun c => { c with heat := c.heat.map (fun h => { h with buf := h.buf ++ [o] }) })

/-- Results named by an earlier closer reach the registers at the latest here (log 9). -/
def Crew.settle (c : Crew) : Crew :=
  let c := c.drain
  if c.named.isEmpty then c
  else
    let put : Regs → Regs := fun r => c.named.foldl (fun r p => r.puts p.ws) r
    { c with com := put c.com, named := []
             heat := c.heat.map (fun h => { h with wrk := put h.wrk }) }

/-- Writes cells of one store at their places (Table 13-5). Stores to the storing crew's own registers stay buffered while
its heat is open: they are applied at its commit (R60); those to a crew that is inside a heat wait for its end (log 86). A
register with a named result outstanding receives it first (R129). -/
def State.performStore (s : State) (id : Nat) (cells : List MemCell) (mode : BitVec 40) : State :=
  match s.crew id with
  | none => s
  | some c =>
    let w := s.whoCrew id c
    let s := s.ownFirst w (cells.map (fun x => (x.sp, x.a)))
    let core := s.coreOf c
    let of : (Space → Bool) → List (Nat × Byte) := fun p =>
      (cells.filter (fun x => p x.sp)).map (fun x => (x.a, x.b))
    let pk : Bool → List (Nat × Byte) := fun tr =>
      (cells.filter (fun x => x.sp == .pkg && x.tree == tr)).map (fun x => (x.a, x.b))
    let pr := of (fun sp => sp == .peer)
    let sc := of (fun sp => sp == .scr)
    let m := s.mem
    let m := m.storePkg s.clock w.port (modeScope mode) (modeCache mode) true (pk true)
    let m := m.storePkg s.clock w.port (modeScope mode) (modeCache mode) false (pk false)
    let m := m.putScratch (s.scrCells c.rk sc)
    let m := (m.storeExts cells).wroteBy c.rk (cells.map (fun x => (x.sp, x.a)))
    let lns := (pr.map (fun kv => lineOf kv.1)).eraseDups
    let m := lns.foldl (fun m ln =>
      let m := m.wcbPut core s.clock s.mil.wcbage ln ((pr.filter (fun kv => lineOf kv.1 == ln)).map (fun kv => (kv.1 % 128, kv.2)))
      match w.port.l1 with
      | some h => m.delLine h (peerLine (ln * 128))
      | none => m) m
    let s := { s with mem := m }
    let own := c.heat.isSome && cells.any (fun x => x.sp == .reg id)
    let s := (cells.filter (fun x => !(own && x.sp == .reg id))).foldl (fun s x => match x.sp with
      | .reg k => s.updCrew k (fun c =>
          if c.heat.isSome then { c with inbox := c.inbox ++ [x] } else c.settle.putReg x.a x.b)
      | _ => s) s
    if own then s.buffer id (.store (cells.filter (fun x => x.sp == .reg id)) 0) else s

/-- Drops or writes back what CFLUSH and CINV name (Table 15-4). -/
def State.flushLine (s : State) (w : Who) (ln : Nat) (home : Bool) : State :=
  let m := s.mem
  let one : MemSys → Option Nat → MemSys := fun m h =>
    match h with
    | some h => m.evictL1 s.clock h ln
    | none => m
  let m := one (one m w.port.l1) w.port.cl1
  let m := if home then (((m.quiet ln).tearRange (m.granBase (ln * 128)) (granSize (m.level (ln * 128)))).writeL2 ln) else m
  { s with mem := m }

def State.invalLine (s : State) (w : Who) (ln : Nat) : State :=
  let one : MemSys → Option Nat → MemSys := fun m h =>
    match h with
    | some h =>
      match m.line h ln with
      | some l => if l.tracked then m.dropTracked h ln
        else if l.dirty = 0 then m.delLine h ln else m.setLine h ln { l with valid := l.dirty }
      | none => m
    | none => m
  let m := one (one s.mem w.port.l1) w.port.cl1
  let m := match w.core with
    | some c => m.delLine (constHolder (c / 96)) ln
    | none => m
  { s with mem := m }

/-- A release of the crew at a scope (R224); `store` limits what a FENCE performs (R260). -/
def State.releaseCrew (s : State) (id scope store : Nat) : State :=
  match s.crew id with
  | none => s
  | some c =>
    if store = 0 || store = 2 then s
    else
      let s := s.performLater id
      { s with mem := s.mem.release s.clock (s.whoCrew id c).port (some (s.coreOf c)) scope }

def State.acquireCrew (s : State) (id scope store : Nat) : State :=
  match s.crew id with
  | none => s
  | some c => if store = 0 || store = 2 then s else { s with mem := s.mem.acquire (s.whoCrew id c).port scope }

/-- One buffered operation, in program order (R50, R51, R222). -/
def State.performOp (id : Nat) (s : State) (o : BufOp) : State :=
  match o with
  | .store cells mode =>
    let s := if modeOrd mode = 2 then s.releaseCrew id (modeScope mode) 3 else s
    s.performStore id cells mode
  | .release scope st => s.releaseCrew id scope st
  | .flush pa home tree => match s.crew id with
    | some c => s.flushLine (s.whoCrew id c) (lineOf pa) (home && tree)
    | none => s
  | .inval pa => match s.crew id with
    | some c => s.invalLine (s.whoCrew id c) (lineOf pa)
    | none => s

/-- The heat holds accesses that have been translated and are still to be performed. -/
def Heat.owes (h : Heat) : Bool :=
  let xl : Space → Bool := fun sp => match sp with
    | .scr => false
    | .reg _ => false
    | _ => true
  h.group.any (fun q => q.lanes.any (fun l => xl l.sp)) || h.buf.any (fun o => match o with
    | .store cells _ => cells.any (fun x => xl x.sp)
    | .flush _ _ _ => true
    | .inval _ => true
    | .release _ _ => false)

/-- The heat with an empty buffer. -/
def Heat.emptied (h : Heat) : Heat := { h with buf := [], old := h.old && Heat.owes { h with buf := [] } }

/-- Performs the heat's buffered work so far and empties the buffer. -/
def State.performBuf (s : State) (id : Nat) : State :=
  match s.crew id with
  | none => s
  | some c =>
    match c.heat with
    | none => s
    | some h => h.buf.foldl (State.performOp id) (s.setCrew id { c with heat := some h.emptied })

/-- Seals the heat: buffered stores first, then no discard (R51). -/
def State.seal (s : State) (id : Nat) : State :=
  (s.performBuf id).updCrew id (fun c => match c.heat with
    | some h => { c with heat := some { h with sealed := true } }
    | none => c)

-- Shootdown (R315, R377): accesses translated before a TLBI or SHOOT are performed before it completes.

/-- A store to the crew's own registers, which waits for the commit. -/
def BufOp.keeps (o : BufOp) : BufOp :=
  match o with
  | .store cells mode => .store (cells.filter (fun x => match x.sp with
      | .reg _ => true
      | _ => false)) mode
  | o => o

/-- What is left of an operation without its register cells. -/
def BufOp.leaves (o : BufOp) : BufOp :=
  match o with
  | .store cells mode => .store (cells.filter (fun x => match x.sp with
      | .reg _ => false
      | _ => true)) mode
  | o => o

def BufOp.isStore : BufOp → Bool
  | .store _ _ => true
  | _ => false

/-- The buffered work of the sealed heat that a trap has interrupted. -/
def State.performTrap (s : State) (id : Nat) : State :=
  match s.crew id with
  | none => s
  | some c =>
    match c.trap.heat with
    | none => s
    | some h =>
      let h' := { h.emptied with buf := (h.buf.filter BufOp.isStore).map BufOp.keeps }
      (h.buf.map BufOp.leaves).foldl (State.performOp id) (s.setCrew id { c with trap := { c.trap with heat := some h' } })

/-- A heat that cannot go on of itself: its crew is parked, or its team is away. -/
def State.standsStill (s : State) (c : Crew) : Bool :=
  c.park.isSome || !(match s.team c.rk c.team with
    | some t => t.st == .placed
    | none => false)

/-- The accesses still to be performed are marked; those of heats that cannot go on are performed now (log 85). -/
def State.markOld (s : State) (but : Option Nat) : State :=
  let s := (s.crews.map Prod.fst).foldl State.performTrap s
  let s := ((s.crews.filter (fun kv => s.standsStill kv.2)).map Prod.fst).foldl State.performBuf s
  { s with crews := s.crews.map (fun kv =>
      if but == some kv.1 || s.standsStill kv.2 then kv
      else (kv.1, { kv.2 with heat := kv.2.heat.map (fun h => { h with old := h.old || h.owes }) })) }

/-- Accesses that were marked are still to be performed; a heat that itself waits in a TLBI is not waited for (log 85). -/
def State.oldLeft (s : State) : Bool :=
  s.crews.any (fun kv => kv.2.wait != .drain && kv.2.heat.any (fun h => h.old))

-- Lookahead (R116).

/-- Registers a result names. -/
def RegW.name : RegW → Nat
  | .v k _ _ _ => k
  | .s n _ => 4096 + n
  | .p n _ _ => 8192 + n

/-- The lane enables of results that become visible (R47). -/
def enablePuts (t : Tab Word) (ws : List RegW) : Tab Word :=
  ws.foldl (fun t w => Tab.put t w.name (Tab.get t w.name 0 ||| (match w with
    | .v _ m _ _ => m
    | .p _ m _ => m
    | .s _ _ => BitVec.allOnes 32))) t

/-- Records a result: visible at once, or held for `la` further words. -/
def Heat.emit (h : Heat) (ws : List RegW) (la : Nat) (pc : DWord) (g : Got) : Heat :=
  let ks := ws.filterMap (fun w => match w with
    | .v k _ _ _ => some k
    | _ => none)
  let h := { h with
    dests := (h.dests ++ ks.filter (· < 1024)).eraseDups
    temps := (h.temps ++ ks.filter (fun k => decide (1024 ≤ k))).eraseDups }
  if la = 0 then { h with wrk := h.wrk.puts ws, en := enablePuts h.en ws } else
    { h with pend := h.pend ++ [⟨ws, la + 1, pc, h.off, h.gives.length, h.group.length, g⟩] }

/-- One more word of the heat has issued: windows shrink and the results whose window ended become visible. -/
def Heat.age (h : Heat) : Heat :=
  let ps := h.pend.map (fun p => { p with left := p.left - 1 })
  { h with
    wrk := (ps.filter (fun p => p.left == 0)).foldl (fun r p => r.puts p.ws) h.wrk
    en := (ps.filter (fun p => p.left == 0)).foldl (fun t p => enablePuts t p.ws) h.en
    pend := ps.filter (fun p => p.left != 0) }

/-- Registers whose results become visible when the word that issues now has issued. -/
def Heat.visible (h : Heat) : List Nat := (h.pend.filter (fun p => decide (p.left ≤ 1))).flatMap (fun p => p.ws.map RegW.name)

/-- The heat as its closer reads it: a closer waits for a pending result that it reads (R116). -/
def Heat.ahead (h : Heat) : Heat := { h with wrk := h.pend.foldl (fun r p => r.puts p.ws) h.wrk }

/-- The operand latch (R111) after a word: each entry serves one word less, and those of `gone` registers are dropped. -/
def ageLatch (gone : List Nat) (l : List (Nat × Nat)) : List (Nat × Nat) :=
  (l.filter (fun e => decide (1 < e.2) && !gone.contains e.1)).map (fun e => (e.1, e.2 - 1))

/-- The oldest pending result of some kind whose data met an error. -/
def Heat.met (h : Heat) (f : Pend → Bool) : Option (Pend × Met) :=
  (h.pend.filter f).findSome? (fun p => p.got.bad.map (fun m => (p, m)))

/-- A result of the crew's word enters its heat; one that is visible at once drops its latch entries (R111). -/
def Crew.emit (c : Crew) (h : Heat) (ws : List RegW) (la : Nat) (pc : DWord) (g : Got) : Crew :=
  { c with
    heat := some (h.emit ws la pc g)
    latch := if la = 0 then c.latch.filter (fun e => !(ws.map RegW.name).contains e.1) else c.latch }

-- Requests to the Sluice (R64).

/-- A request of the crew is outstanding: transfers are owed, or an instruction waits for blocks. -/
def Crew.asking (c : Crew) : Bool :=
  c.park.isNone && (!c.ring.todo.isEmpty || (match c.wait with
    | .refill _ _ => true
    | .reg _ _ => true
    | _ => false))

/-- The place after every request made so far. -/
def State.lastAsk (s : State) : Nat := s.crews.foldl (fun n kv => max n (kv.2.ring.asked.getD 0 + 1)) 0

/-- The crew `c` as `new`: a request that is new goes to the end of its core's queue. -/
def State.ask (s : State) (c new : Crew) : Crew :=
  if new.asking && !c.asking then { new with ring := { new.ring with asked := some s.lastAsk } } else new

-- Commit (R50).

/-- The committed registers: the commit buffer without temporaries. -/
def Regs.commit (r : Regs) : Regs :=
  { r with v := r.v.filter (fun kv => decide (kv.1 < 1024)), tag := r.tag.filter (fun kv => decide (kv.1 < 1024)) }

/-- Steps 1 to 4 of R50 for the crew itself: results (named when `names`), registers, window base, GIVE, marks. -/
def Crew.commitRegs (c : Crew) (h : Heat) (names : Bool) : Crew :=
  let wrk := if names then h.wrk else h.ahead.wrk
  let com := wrk.commit
  -- a SKIP of TRET whose word was not reached clears here (R145)
  let mine := c.skip.any (fun k => k / 32 % 2 == h.slot)
  let com := if mine && h.skip.isSome && c.skip.any (fun k => decide (64 ≤ k)) then
    { com with tretctl := com.tretctl &&& ~~~(1 : DWord) } else com
  let com := h.gives.foldl (fun r w =>
    { r with tag := (List.range (tokCount w)).foldl (fun t i => Tab.put t (tokBase w + i) (tokFmt w)) r.tag }) com
  let toks := c.toks ++ h.gives.map (fun w => Token.mk w false)
  let sl := c.slot h.slot
  let c := c.setSlot h.slot { sl with base := h.base }
  { c with
    com := com, heat := none, toks := toks, last := h.slot
    named := if names then c.named ++ h.pend.map (fun p =>
      { p with ws := p.ws.filter (fun w => match w with
        | .v k _ _ _ => decide (k < 1024)
        | _ => true) }) else c.named
    latch := (ageLatch (if names then [] else h.pend.flatMap (fun p => p.ws.map RegW.name)) c.latch).filter
      (fun e => decide (e.1 < 1024 || 4096 ≤ e.1))
    skip := if mine then none else c.skip
    ring := { c.ring with touched := [], todo := h.owed }
    yield0 := if h.yielded && h.slot == 0 then true else c.yield0
    yield1 := if h.yielded && h.slot == 1 then true else c.yield1
    kept := false }

/-- Commits the open heat and leaves the slot at the next word. -/
def State.commit (s : State) (id : Nat) (names : Bool) : State :=
  match s.crew id with
  | none => s
  | some c =>
    match c.heat with
    | none => s
    | some h =>
      -- stores to the crew's own registers follow its commit buffer (R60)
      let ops := h.buf
      let s := s.setCrew id (s.ask c (c.commitRegs h names))
      let s := (ops.foldl (State.performOp id) s).updCrew id Crew.drain
      s.updRegion c.rk (fun g => { g with heats := g.heats + 1 })

/-- Register cells of the heat's stores: crew and place. -/
def Heat.regCells (h : Heat) : List (Nat × Nat) :=
  h.buf.flatMap (fun o => match o with
    | .store cells _ => cells.filterMap (fun x => match x.sp with
      | .reg k => some (k, x.a)
      | _ => none)
    | _ => [])

def State.inHeat (s : State) (k : Nat) : Bool := (s.crew k).any (fun c => c.heat.isSome)

/-- The crew `k` may in turn wait for another crew's heat: of crews that wait for one another, the lowest gives its stores
to the other's inbox and goes on (R64, log 86). -/
def State.defers (s : State) (id k : Nat) : Bool :=
  decide (id < k) && (s.crew k).any (fun c => c.heat.any (fun h => h.regCells.any (fun x => x.1 != k && s.inHeat x.1)))

/-- The heat's stores name a register of a crew that is inside a heat: a word that performs them waits (R60). -/
def State.regBusy (s : State) (id : Nat) (h : Heat) : Bool :=
  h.regCells.any (fun x => x.1 != id && s.inHeat x.1 && !s.defers id x.1)

/-- The virtual address of a register-space place (Table 7-4). -/
def regVa (no a : Nat) : Nat := 0xFF * 2 ^ 24 + no * 2 ^ 20 + a / 2 ^ 17 * 2 ^ 18 + a % 2 ^ 17

/-- What has come over a register between a store's issue and its performance (R60): its block has been spilled, or given. -/
def State.regStop (s : State) (id : Nat) (h : Heat) : Option Stop :=
  h.regCells.findSome? (fun x => match s.crew x.1 with
    | none => none
    | some c => match (c.seen (x.1 == id)).regAbs x.2 with
      | none => none
      | some r =>
        if x.1 != id && (c.seen false).away r then some (.fault ⟨cTOKEN, 0, regVa c.no x.2⟩ none)
        else if !c.ring.resident.contains (r / 8) then some (.wait (.reg x.1 (r / 8)))
        else none)

/-- What holds a word that performs the heat's register stores. -/
def State.regHold (s : State) (id : Nat) (h : Heat) : Option Stop :=
  if s.regBusy id h then some (.held s) else s.regStop id h

-- Issue.

/-- Moves the slot past its word, ages the windows and counts the word. -/
def Crew.advance (c : Crew) : Crew :=
  match c.heat with
  | none => c
  | some h =>
    let c := c.setSlot h.slot { c.slot h.slot with pc := (c.slot h.slot).pc + 4 }
    { c with
      heat := some { h.age with off := h.off + 1 }, wait := .none, latch := ageLatch h.visible c.latch
      ring := { c.ring with touched := [] } }

/-- The word that SKIP names is performed as NOP (R145, R363); TRET's SKIP clears with the heat. -/
def Crew.passed (c : Crew) : Crew :=
  (match c.heat with
    | some h => { c with heat := some { h with
        skip := none
        wrk := if c.skip.any (fun k => decide (64 ≤ k)) then { h.wrk with tretctl := h.wrk.tretctl &&& ~~~(1 : DWord) } else h.wrk } }
    | none => c).advance

/-- ASW after an instruction that set `f` (R89). -/
def Heat.flag (h : Heat) (f : Flags) : Heat :=
  { h with wrk := { h.wrk with asw := h.wrk.asw ||| f.setWidth 16 }
           en := if f = 0 then h.en else Tab.put h.en 9000 (BitVec.allOnes 32) }

/-- The flags that an enable turns into ARITH (R90). -/
def arithFlags (asw : BitVec 16) (f : Flags) : Flags := f &&& asw.extractLsb' 5 5

/-- An instruction's effect on the machine, given the crew and its heat. -/
abbrev Eff := State → Nat → Crew → Heat → Except Stop (State × Flags)

/-- What a stop leaves behind. -/
def State.stopCrew (s : State) (id slot : Nat) (st : Stop) : State :=
  match st with
  | .fault f l => s.raise id slot f l false
  | .trap cause code => s.trap id slot cause code none
  | .wait w => s.updCrew id (fun c => s.ask c { c with wait := w })
  | .held s' => s'
  | .after s' f => s'.raise id slot f none false
  | .conflict va =>
    match s.crew id with
    | some c =>
      let w := s.whoCrew id c
      let s := s.classAsk w.die w.fdom va id
      s.updCrew id (fun c => { c with wait := s.classWait w.die id })
    | none => s

/-- Buffered stores of the open heat `h` have been performed; those of a discarded heat have not. -/
def State.tookBuf (s : State) (id : Nat) (h : Heat) : Bool :=
  match (s.crew id).bind (fun c => c.heat) with
  | some h' => !h.buf.isPrefixOf h'.buf
  | none => false

/-- A word has performed buffered stores. -/
def effTook (id : Nat) (h : Heat) (r : Except Stop (State × Flags)) : Bool :=
  match r with
  | .ok (s', _) => s'.tookBuf id h
  | .error (.held s') => s'.tookBuf id h
  | .error _ => false

/-- A word of the crew's open heat that is no closer: decoding checks, SKIP, the effect, then the next word. `wf` is the
word's own legality. -/
def State.issueCrew (s : State) (id slot : Nat) (c : Crew) (wf : Bool) (eff : Eff) : State :=
  match c.heat with
  | none => s.raise id slot ⟨cILLEGAL, 0, 0⟩ none false
  | some h =>
    if h.slot != slot then s
    else if 23 ≤ h.off then s.raise id slot ⟨cILLEGAL, 0, 0⟩ none false
    else if h.skip == some h.off then s.setCrew id c.passed
    else if !wf then s.raise id slot ⟨cILLEGAL, 0, 0⟩ none false
    else match (if effTook id h (eff s id c h) then s.regHold id h else none) with
    | some st => s.stopCrew id slot st
    | none =>
      match eff s id c h with
      | .error st => s.stopCrew id slot st
      | .ok (s', f) =>
        if arithFlags h.wrk.asw f != 0 then s.trap id slot cARITH f.toNat none
        else
          match (s'.crew id).bind (fun c => c.heat.bind (fun h => h.met (fun p => decide (p.left ≤ 1)))) with
          | some (p, m) => s'.raiseMet id slot p m
          | none => s'.updCrew id (fun c => (match c.heat with
            | some h => { c with heat := some (h.flag f) }
            | none => c).advance)

/-- A crew and its slot issue: the crew with its named results settled, and the state that holds it so. -/
def State.issuer (s : State) (id : Nat) : Option (State × Crew) :=
  (s.crew id).map (fun c => (s.setCrew id c.settle, c.settle))

end Sys2Proof.Machine
end

