-- ==== Sys2Proof/Machine/Flags.lean ====
section
/-! DEFINITION. Results and flags of integer operations, the conditions of comparisons, and the collection of flags over
lanes and elements (R67, R89, R150, R155, R175). -/

namespace Sys2Proof.Machine

/-- The bounds of a width and reading. -/
def intLo (w : Nat) (sgn : Bool) : Int := if sgn then -(2 ^ (w - 1) : Nat) else 0
def intHi (w : Nat) (sgn : Bool) : Int := if sgn then (2 ^ (w - 1) : Nat) - 1 else (2 ^ w : Nat) - 1

/-- IntResult of R150: wraps, or saturates with OF when `sat`. -/
def intResult (w : Nat) (sgn sat : Bool) (x : Int) : Nat × Flags :=
  if sat && decide (x < intLo w sgn) then (wrapInt w (intLo w sgn), flOF)
  else if sat && decide (intHi w sgn < x) then (wrapInt w (intHi w sgn), flOF)
  else (wrapInt w x, 0)


/-- A condition on two integers. -/
def condHolds (c : Cond) (a b : Int) : Bool :=
  match c with
  | .eq => decide (a = b)
  | .ne => decide (a ≠ b)
  | .lt => decide (a < b)
  | .le => decide (a ≤ b)
  | .gt => decide (b < a)
  | .ge => decide (b ≤ a)

/-- A float condition: whether it holds, and NV (R175). -/
def fcondHolds (c : FCond) (a b : Val) : Bool × Flags :=
  let nan := a.isNaN || b.isNaN
  let o := cmpVal a b
  let snan := a.isSNaN || b.isSNaN
  match c with
  | .eq => (!nan && o == 0, flIf snan flNV)
  | .ne => (nan || o != 0, flIf snan flNV)
  | .lt => (!nan && o == -1, flIf nan flNV)
  | .le => (!nan && o != 1, flIf nan flNV)
  | .gt => (!nan && o == 1, flIf nan flNV)
  | .ge => (!nan && o != -1, flIf nan flNV)
  | .un => (nan, flIf snan flNV)

/-- Every flag that some element set. -/
def orFlags (fs : List Flags) : Flags := fs.foldl (· ||| ·) 0

end Sys2Proof.Machine
end

