-- ==== Sys2Proof/Machine/Operands.lean ====
section
/-! DEFINITION. Operands of crew instructions: naming registers, the checks before an instruction acts (R47, R49, R68, R82,
R116, R168, R284, R410), elements of a lane (R66, R68, R170), uniform B operands (R67, R119), the hold latch (R111), and
results put back into the heat. -/

namespace Sys2Proof.Machine

-- Naming.

def Heat.keys (h : Heat) (c : BitVec 5) (e : BitVec 3) : List Nat := (blockCodes c e).map h.key
/-- A derived operand of `m` registers (R169). -/
def Heat.dkeys (h : Heat) (c : BitVec 5) (m : Nat) : List Nat := (derivedCodes c.toNat m).map h.key

/-- Names of predicate and uniform results, as `RegW.name` numbers them. -/
def nameS (d : BitVec 5) : Nat := 4096 + d.toNat
def nameP (d : BitVec 5) : Nat := 8192 + d.toNat

-- Checks.

/-- A temporary that no word of the heat has named as destination (R49). -/
def Heat.unread (h : Heat) (src : List Nat) : Bool := src.any (fun k => decide (1024 ≤ k) && !h.temps.contains k)

/-- A destination inside an earlier word's lookahead window (R116). -/
def Heat.windowed (h : Heat) (names : List Nat) : Bool := h.pend.any (fun p => p.ws.any (fun w => names.contains w.name))

/-- The heat would name a 33rd window register as destination (R47). -/
def Heat.tooMany (h : Heat) (dst : List Nat) : Bool :=
  decide (32 < ((h.dests ++ dst.filter (· < 1024)).eraseDups).length)

/-- A list of numbers in falling order. -/
def fallingInsert (n : Nat) (xs : List Nat) : List Nat :=
  match xs with
  | [] => [n]
  | x :: r => if x ≤ n then n :: x :: r else x :: fallingInsert n r
def falling (xs : List Nat) : List Nat := xs.foldr fallingInsert []

/-- Blocks of the frame space that registers lie in. -/
def blocksOf (ks : List Nat) : List Nat := ((ks.filter (· < 1024)).map (· / 8)).eraseDups

/-- Blocks that hold a named register and are not resident, highest first (R59, R410). -/
def Crew.absentIn (c : Crew) (ks : List Nat) : List Nat :=
  falling ((blocksOf ks).filter (fun b => !c.ring.resident.contains b))

/-- The checks before an instruction acts: what it reads and writes, extra conditions for ILLEGAL and FORMAT. -/
def Crew.check (c : Crew) (h : Heat) (src dst other : List Nat) (legal fmtOk : Bool) : Except Stop Unit :=
  match firstStop
    [ (!legal || h.unread src || h.windowed (dst ++ other) || h.tooMany dst, stopIllegal),
      (!fmtOk, stopFormat),
      ((src ++ dst).any c.away, .fault ⟨cTOKEN, 0, 0⟩ none),
      (decide (c.ring.cap < (blocksOf (src ++ dst)).length), .fault ⟨cSTACK, 0, 0⟩ none),
      (src.any h.wrk.bad || (h.wrk.errs.contains 2048 && dst.any (fun k => decide (k < 1024))), .fault ⟨cPOISON, 0, 0⟩ none),
      (!(c.absentIn (src ++ dst)).isEmpty, .wait (.refill h.slot (falling (blocksOf (src ++ dst))))) ] with
  | some s => .error s
  | none => .ok ()

/-- The checks of a word that R243 checks by lanes: ILLEGAL and FORMAT are met by every contributing lane. -/
def Crew.laneCheck (c : Crew) (h : Heat) (src dst other : List Nat) (legal fmtOk : Bool) : Except Stop Unit :=
  match c.check h src dst other legal fmtOk with
  | .error (.fault f none) =>
    .error (.fault f (if f.cause = cILLEGAL || f.cause = cFORMAT then (lanesIn (c.lanes h)).head? else none))
  | r => r

/-- An even origin and an even width (R68). -/
def pairOk (c : BitVec 5) (e : BitVec 3) : Bool := c.toNat % 2 == 0 && evenWidth e

/-- Every tag is among the accepted ones. -/
def Regs.tagsIn (r : Regs) (ks ok : List Nat) : Bool := ks.all (fun k => ok.contains (r.rdTag k))

/-- The halves of every pair carry one tag (R68). -/
def Regs.pairsAgree (r : Regs) (ks : List Nat) : Bool :=
  match ks with
  | a :: b :: t => r.rdTag a == r.rdTag b && r.pairsAgree t
  | _ => true

/-- A source is accepted in a format (R82): its tag, or BITS; pairs agree in a 64-bit format. -/
def Regs.accepts (r : Regs) (f : Nat) (ks : List Nat) : Bool :=
  r.tagsIn ks [f, fmtBITS] && (!fmtIs64 f || r.pairsAgree ks)

-- Elements.

/-- Pairs of registers as 64-bit elements. -/
def pairUp (rs : List Nat) : List Nat :=
  match rs with
  | a :: b :: t => (a + 2 ^ 32 * b) :: pairUp t
  | _ => []

/-- The elements of registers, with slots of `sb` bits (R170). -/
def elemsOf (sb : Nat) (rs : List Nat) : List Nat :=
  if sb = 64 then pairUp rs
  else rs.flatMap (fun r => (List.range (32 / sb)).map (fun i => bits r (sb * i) sb))

/-- Registers of elements, the inverse of `elemsOf`; a last partial register is filled with zeros. -/
def regsOfElems (sb : Nat) (es : List Nat) : List Nat :=
  if sb = 64 then es.flatMap (fun e => [e % 2 ^ 32, e / 2 ^ 32 % 2 ^ 32])
  else
    let n := 32 / sb
    (List.range (ceilDiv es.length n)).map (fun i =>
      (List.range n).foldl (fun a j => a + es.getD (i * n + j) 0 % 2 ^ sb * 2 ^ (sb * j)) 0)

/-- The registers of a block in one lane. -/
def Regs.at_ (r : Regs) (ks : List Nat) (l : Nat) : List Nat := ks.map (fun k => (lane (r.rdV k) l).toNat)

/-- A uniform B operand as registers, one value or pair for each of `n` registers (R67, R119). -/
def uniformRegs (w64 : Bool) (n : Nat) (x : DWord) : List Nat :=
  if w64 then (List.range (n / 2)).flatMap (fun _ => [x.toNat % 2 ^ 32, x.toNat / 2 ^ 32])
  else (List.range n).map (fun _ => x.toNat % 2 ^ 32)

/-- The B operand of a U-major word in one lane. -/
def Regs.opB (r : Regs) (o : OpU) (w64 : Bool) (ks : List Nat) (l : Nat) : List Nat :=
  if o.k then uniformRegs w64 (extN o.e) (r.rdS o.b.toNat) else r.at_ ks l

-- Results.

/-- What a register instruction does: results, flags, LFSR states after its draws. -/
structure Res where
  ws : List RegW
  fl : Flags
  lfsr : Option Lanes
  deriving DecidableEq, Repr

/-- Vector results from each lane's destination registers; lanes outside the mask keep their bits (R113), tags are set in
every register (R81). -/
def vecW (ks : List Nat) (m : Word) (outs : List (List Nat)) (tag : Nat → Nat) : List RegW :=
  (List.range ks.length).map (fun i =>
    .v (ks.getD i 0) m (outs.map (fun o => BitVec.ofNat 32 (o.getD i 0))) (tag i))

/-- Each lane's outcome for the contributing lanes, and an empty one for the others. -/
def perLane {α : Type} (m : Word) (d : α) (f : Nat → α) : List α :=
  (List.range 32).map (fun l => if m.getLsbD l then f l else d)

/-- The operand latch when a word that holds `held` issues: the word itself and the next two see the entries (R111). Each new
entry replaces the least recently latched one. -/
def Crew.latched (c : Crew) (held : List Nat) : Crew :=
  { c with latch := held.foldl (fun l k => ((k, 3) :: l.filter (fun e => e.1 != k)).take 3) c.latch }

/-- The LFSR states after an instruction's draws: a draw changes a lane's state (R86). -/
def Heat.drew (h : Heat) (x : Lanes) : Heat :=
  { h with wrk := { h.wrk with lfsr := x }
           en := Tab.put h.en 9001 (h.enables 9001 ||| maskOf (fun l => lane x l != lane h.wrk.lfsr l)) }

/-- A register instruction: its results enter the heat with lookahead `la`. -/
def regEff (la : Nat) (held : Heat → List Nat) (f : Crew → Heat → Except Stop Res) : Eff := fun s id c h =>
  match f c h with
  | .error e => .error e
  | .ok r =>
    let h1 := match r.lfsr with
      | some x => h.drew x
      | none => h
    .ok (s.setCrew id ((c.latched (held h)).emit h1 r.ws la (c.slot h.slot).pc .clean), r.fl)

/-- Keys that a hold names: the block of A with bit 5, of B with bit 6 (R111). -/
def heldU (o : OpU) (h : Heat) : List Nat :=
  (if o.h.getLsbD 0 then (h.keys o.a o.e).take 3 else []) ++ (if o.h.getLsbD 1 then (h.keys o.b o.e).take 3 else [])

/-- The same for a word with one vector source. -/
def heldV (o : OpV) (h : Heat) : List Nat := if o.h then (h.keys o.a o.e).take 3 else []

def heldNone (_ : Heat) : List Nat := []

end Sys2Proof.Machine
end

