-- ==== Sys2Proof/Machine/Engine.lean ====
section
/-! DEFINITION. Engine contexts: issue, closers, stops (R137, R286, R416). -/

namespace Sys2Proof.Machine

/-- An engine's effect. -/
abbrev EngEff := State → Nat → Eng → Except Stop State

/-- What a stop leaves behind in an engine. -/
def State.stopEngAt (s : State) (k : Nat) (st : Stop) : State :=
  match st with
  | .fault f _ => s.raiseEng k f
  | .trap cause code => s.raiseEng k ⟨cause, code, 0⟩
  | .held s' => s'
  | .after s' f => s'.raiseEng k f
  | .wait w =>
    match s.eng k with
    | some e => s.setEng k { e with wait := w }
    | none => s
  | .conflict va =>
    match s.eng k with
    | some e =>
      let w := s.whoEng k e
      (s.classAsk w.die w.fdom va k).setEng k { e with wait := .other }
    | none => s

/-- Results whose lookahead window has ended reach the registers; `all` at a closer (R116). -/
def Eng.age (e : Eng) (all : Bool) : Eng :=
  let ps := e.pend.map (fun p => { p with left := p.left - 1 })
  { e with
    s := (ps.filter (fun p => all || p.left == 0)).foldl (fun t p => Tab.put t p.reg p.x) e.s
    pend := ps.filter (fun p => !all && p.left != 0) }

/-- Moves a context past its word. -/
def Eng.advance (e : Eng) : Eng := { e.age false with pc := e.pc + 4, off := e.off + 1, wait := .none }

/-- A word of an open engine heat that is no closer. -/
def State.issueEng (s : State) (k : Nat) (e : Eng) (ok : Bool) (eff : EngEff) : State :=
  if !ok || e.entry.isNone || decide (23 ≤ e.off) then s.raiseEng k ⟨cILLEGAL, 0, 0⟩
  else
    match eff s k e with
    | .error st => s.stopEngAt k st
    | .ok s' =>
      match s'.eng k with
      | some e' => s'.setEng k e'.advance
      | none => s'

/-- An effect on the context's own state. -/
def ownEff (f : Eng → Except Stop Eng) : EngEff := fun s k e =>
  match f e with
  | .ok e' => .ok (s.setEng k e')
  | .error st => .error st

def Eng.rdS (e : Eng) (n : Nat) : DWord := Tab.get e.s n 0
def Eng.putS (e : Eng) (n : Nat) (x : DWord) : Eng := { e with s := Tab.put e.s n x }
/-- A register result: one inside a lookahead window may not be named again (R116). -/
def Eng.setS (e : Eng) (n : Nat) (x : DWord) : Except Stop Eng :=
  if e.pend.any (fun p => p.reg == n) then .error stopIllegal else .ok (e.putS n x)
/-- A result with lookahead. -/
def Eng.setLater (e : Eng) (n la : Nat) (x : DWord) (g : Got) : Except Stop Eng :=
  if la = 0 then e.setS n x
  else if e.pend.any (fun p => p.reg == n) then .error stopIllegal
  else .ok { e with pend := e.pend ++ [⟨n, x, la + 1, e.pc, e.off, g⟩] }
/-- A context's predicates are single bits; p0 reads 1 (R102). -/
def Eng.rdP (e : Eng) (n : Nat) : Bool := if n = 0 then true else (Tab.get e.p n 0).getLsbD 0
def Eng.putP (e : Eng) (n : Nat) (b : Bool) : Eng := { e with p := Tab.put e.p n (if b then 1 else 0) }
/-- p[GUARD] xor GINV (R160). -/
def Eng.guard (e : Eng) : Bool := e.rdP (modeGuard e.mode) != modeGinv e.mode

/-- The transfer of a closed engine heat: the next word must open a heat (R45, R286). -/
def State.engGo (s : State) (k : Nat) (src target : DWord) : State :=
  match s.eng k with
  | none => s
  | some e =>
    let s := s.setEng k { e with pc := target, entry := none, off := 0, wait := .none }
    match s.fetchWord (s.whoEng k e) target with
    | (s, .error f) => s.stopEng k (s.engRec k e f target target 0) true
    | (s, .ok w) => if opensHeat w then s else s.stopEng k (s.engRec k e ⟨cILLEGAL, 0, src.toNat⟩ target target 0) true

/-- A closer of an engine heat: it waits for the results still inside their windows, and its effect gives the state and the
target (R116). -/
def State.closeEng (s : State) (k : Nat) (e : Eng) (ok : Bool) (f : Eng → Except Stop (Eng × DWord)) : State :=
  if !ok || e.entry.isNone || decide (24 ≤ e.off) then s.raiseEng k ⟨cILLEGAL, 0, 0⟩
  else
    match f (e.age true) with
    | .error st => s.stopEngAt k st
    | .ok (e', t) => (s.setEng k e').engGo k e.pc t

end Sys2Proof.Machine
end

