-- ==== Sys2Proof/Machine/Issue.lean ====
section
/-! DEFINITION. Who may issue, which slot a core takes, fetching, and the frame of every instruction's meaning
(R40, R42, R56, R118, R340 to R342, R356). -/

namespace Sys2Proof.Machine

-- Joins (R42, R417).

/-- Two chains are the same when their tops are the same record, or when both are empty (R417). -/
def sameChain (a b : List LinkRec) : Bool :=
  match a, b with
  | [], [] => true
  | x :: _, y :: _ => x.uid == y.uid
  | _, _ => false

/-- Table 3-2 for a slot that stands at a HEAT.J word: the crew after it, and whether the slot executes its heat. -/
def Crew.resolveJ : Nat → Crew → Nat → Crew × Bool
  | 0, c, _ => (c, false)
  | fuel + 1, c, n =>
    let x := c.slot n
    let o := c.slot (1 - n)
    if !o.free && o.parked && o.pc == x.pc && o.base == x.base && sameChain o.chain x.chain then
      Crew.resolveJ fuel ((c.setSlot n { x with mask := x.mask ||| o.mask }).setSlot (1 - n) PcSlot.none) n
    else if !o.free && !o.parked then (c.setSlot n { x with parked := true }, false)
    else if o.free then
      match c.stack with
      | e :: r =>
        ({ (c.setSlot n { x with parked := true }).setSlot (1 - n)
            { pc := e.pc, mask := e.mask, base := e.base, chain := e.chain, parked := false } with stack := r }, false)
      | [] => (c.setSlot n { x with parked := false }, true)
    else if x.pc.toNat ≤ o.pc.toNat then (c.setSlot n { x with parked := false }, true)
    else (c.setSlot n { x with parked := true }, false)

/-- The slot after its top record is popped leaves a register of a token block out of use (R284). -/
def Crew.retToken (c : Crew) (n : Nat) : Bool :=
  match (c.slot n).chain with
  | [] => false
  | top :: r =>
    let lo := r.foldl (fun a x => min a x.caller) (if r.isEmpty then 0 else 1023)
    c.tokWords.any (fun w => (List.range (tokCount w)).any (fun i =>
      let g := tokBase w + i
      !(decide (lo ≤ g) && decide (g ≤ top.caller + 23)) && (match c.useRange (1 - n) with
        | some (a, b) => !(decide (a ≤ g) && decide (g ≤ b))
        | none => true)))

/-- A TAKE can be reached: the other slot holds lanes, is not parked, and does not itself wait in a RET. -/
def Crew.canTake (c : Crew) (n : Nat) : Bool :=
  !(c.slot (1 - n)).free && !(c.slot (1 - n)).parked && c.ret != some (1 - n)

/-- A slot could open a heat: it holds lanes, does not wait in a RET, and is not held at a join; a handler holds the other slot
(R356). -/
def Crew.canOpen (c : Crew) (n : Nat) : Bool :=
  !(c.slot n).free && c.ret != some n && (!(c.slot n).parked || (Crew.resolveJ 4 c n).2) && (c.trap.cause == 0 || c.trap.slot == n)

/-- A crew's slot may issue (R40, R340): in its open heat, to open one in its turn, or to end its RET's wait (R284). -/
def State.crewReady (s : State) (id n : Nat) : Bool :=
  match s.crew id with
  | none => false
  | some c =>
    c.park.isNone && c.split.isNone && c.ring.todo.isEmpty && decide (n < 2) &&
      (match s.team c.rk c.team with
        | some t =>
          t.st == .placed && (match c.heat with
            | some h => h.slot == n && t.preStep == 0
            | none => (!t.pre || c.kept) && t.preStep == 0 &&
              (if c.ret == some n then !c.retToken n || !c.canTake n
                else c.canOpen n && (!c.canOpen (1 - n) || c.last != n)))
        | none => false)

/-- What RDV writes: none while the program runs (R149). -/
def State.joined (s : State) (home gen : Nat) : Option Nat :=
  match Tab.find s.forks home with
  | none => some 2
  | some (g, st) =>
    if g != gen then some 2
    else match st with
      | 0 => none
      | 1 => some 0
      | _ => some 1

/-- An entry of a context's queue has not been performed. -/
def State.entryPending (s : State) (x : Nat × Nat) : Bool :=
  match s.eng x.1 with
  | some e => e.ents.any (fun t => t.id == x.2)
  | none => false

/-- A crew is blocked in a wait, a refill, a TAKE or an RDV (R340): what it waits for has not come about. -/
def State.blocked (s : State) (id : Nat) (c : Crew) : Bool :=
  match c.wait with
  | .none => false
  | .barrier _ g _ _ => g != 2 ^ 32
  | .ticket r _ _ _ => s.queued r id
  | .arrived _ => false
  | .monitor => s.mem.monitors.any (fun m => m.crew == id && !m.fired)
  | .take b => c.toks.any (fun t => tokBase t.word == b && !t.returned)
  | .rdv home gen => (s.joined home gen).isNone
  | .team k => (match Tab.find s.teams k with
    | some t => t.st == .imaged || (t.st == .placed && t.pre)
    | none => false)
  | .refill _ _ => true
  | .reg _ _ => true
  | .strike xs => xs.any s.entryPending
  | .token => c.toks.any (fun t => !t.returned)
  | .engine => false
  | .word k => (match Tab.find s.teams k with
    | some t => t.st == .imaged || (t.st == .placed && t.pre)
    | none => false)
  | .drain => s.oldLeft
  | .other => s.mem.classq.any (fun kv => kv.2.any (fun r => r.crew == id))

/-- The sources of a slot's next instruction may lack results (R116, R129), or the steal-cycle limit may hold it (R279): results
of its crew are on their way, or a matrix operation runs on its core. -/
def State.mayStall (s : State) (c : Crew) : Bool :=
  !c.named.isEmpty || c.heat.any (fun h => !h.pend.isEmpty)
    || (s.coreSt (s.coreOf c)).grid.any (fun k => (s.eng k).any (fun e => e.xops.any (fun x => x.started)))

/-- A slot is eligible (R340): it may issue, its crew is not blocked, and neither its sources nor the steal-cycle limit hold it. -/
def State.slotEligible (s : State) (id n : Nat) : Bool :=
  s.crewReady id n && (match s.crew id with
    | some c => !s.blocked id c && !((s.coreSt (s.coreOf c)).stalled.contains (2 * id + n) && s.mayStall c)
    | none => false)

def State.eligible (s : State) (a : Agent) : Bool :=
  match a with
  | .crew id n => s.crewReady id n
  | .eng k =>
    match s.eng k with
    | some e => e.running && e.park.isNone && e.saved.isEmpty
    | none => false

-- The issue logic of a core (R341, R342).

def Crew.since (c : Crew) (n : Nat) : Nat := if n = 0 then c.since0 else c.since1
def Crew.yield (c : Crew) (n : Nat) : Bool := if n = 0 then c.yield0 else c.yield1
def Crew.setYield (c : Crew) (n : Nat) (b : Bool) : Crew := if n = 0 then { c with yield0 := b } else { c with yield1 := b }
def Crew.setSince (c : Crew) (n t : Nat) : Crew := if n = 0 then { c with since0 := t } else { c with since1 := t }

def State.priOf (s : State) (id : Nat) : Nat :=
  match s.crew id with
  | some c => (match s.region c.rk with
    | some r => r.pri
    | none => 0)
  | none => 0

/-- Before a promoted slot: longer waiting, then the lower crew number, then slot 0 (R342). -/
def State.waitedLonger (s : State) (a b : Nat) : Bool :=
  match s.crew (a / 2), s.crew (b / 2) with
  | some x, some y =>
    let tx := x.since (a % 2)
    let ty := y.since (b % 2)
    decide (tx < ty) || (tx == ty && (decide (x.no < y.no) || (x.no == y.no && decide (a % 2 < b % 2))))
  | _, _ => false

/-- A slot has been eligible for 4,096 cc without issuing (R342). -/
def State.overdue (s : State) (id n : Nat) : Bool :=
  match s.crew id with
  | some c => c.promoted.contains n || decide (c.since n + 4096 ≤ s.clock)
  | none => false

/-- The slot a core issues in a slice clock, with the marks and the list as they stand after it. -/
def State.pick (s : State) (core : Nat) : Option (State × Agent) :=
  let cs := s.coreSt core
  let es := cs.order.filter (fun x => s.slotEligible (x / 2) (x % 2))
  let ps := es.filter (fun x => s.overdue (x / 2) (x % 2))
  let take : State → Nat → Option (State × Agent) := fun s x =>
    let s := { s with cores := Tab.put s.cores core { cs with order := cs.order.filter (· != x) ++ [x] } }
    let s := s.updCrew (x / 2) (fun c => ({ c with promoted := c.promoted.filter (· != x % 2) }).setSince (x % 2) s.clock)
    some (s, .crew (x / 2) (x % 2))
  match ps with
  | p :: r => take s (r.foldl (fun a b => if s.waitedLonger b a then b else a) p)
  | [] =>
    let top := es.foldl (fun a x => max a (s.priOf (x / 2))) 0
    let mine := es.filter (fun x => s.priOf (x / 2) == top)
    let marked : Nat → Bool := fun x => match s.crew (x / 2) with
      | some c => c.yield (x % 2)
      | none => false
    let unmark : State → Nat → State := fun s x => s.updCrew (x / 2) (fun c => c.setYield (x % 2) false)
    match mine with
    | [] => none
    | x :: r =>
      if r.isEmpty || !marked x then take s x
      else
        let passed := mine.takeWhile marked
        take (passed.foldl unmark s) ((mine.drop passed.length).headD x)

-- The frame of a meaning.

/-- A crew word that is no closer. -/
def State.crewWord (s : State) (wf : Bool) (eff : Eff) : Host.Outcome State Fault Refusal :=
  match s.cur with
  | .crew id n =>
    match s.issuer id with
    | some (s, c) => .next (s.issueCrew id n c wf eff)
    | none => .fault .noAgent
  | .eng k =>
    match s.eng k with
    | some _ => .next (s.raiseEng k ⟨cILLEGAL, 0, 0⟩)
    | none => .fault .noAgent

/-- A word of crews and of the engine kinds that `kinds` admits (R117). -/
def State.sharedWord (s : State) (wf : Bool) (eff : Eff) (kinds : Nat → Bool) (wfE : Bool) (effE : EngEff) :
    Host.Outcome State Fault Refusal :=
  match s.cur with
  | .crew id n =>
    match s.issuer id with
    | some (s, c) => .next (s.issueCrew id n c wf eff)
    | none => .fault .noAgent
  | .eng k =>
    match s.eng k with
    | some e => .next (s.issueEng k e (kinds (engKind k) && wfE) effE)
    | none => .fault .noAgent

/-- The effect of a word that crews may not execute. -/
def noEff : Eff := fun _ _ _ _ => .error stopIllegal

/-- A word of engine contexts alone. -/
def State.engWord (s : State) (kinds : Nat → Bool) (wf : Bool) (eff : EngEff) : Host.Outcome State Fault Refusal :=
  s.sharedWord false noEff kinds wf eff

def kindM (k : Nat) : Bool := k == 0
def kindF (k : Nat) : Bool := k == 1
def kindT (k : Nat) : Bool := k == 2
def kindFT (k : Nat) : Bool := k == 1 || k == 2
def kindAll (_ : Nat) : Bool := true

-- Fetch.

/-- Where an agent fetches its next word. -/
def State.pcOf (s : State) (a : Agent) : DWord :=
  match a with
  | .crew id n => (match s.crew id with
    | some c => (c.slot n).pc
    | none => 0)
  | .eng k => (match s.eng k with
    | some e => e.pc
    | none => 0)

def State.whoOf (s : State) (a : Agent) : Who :=
  match a with
  | .crew id _ => (match s.crew id with
    | some c => s.whoCrew id c
    | none => ⟨0, 0, none, 0, ⟨none, none, 0⟩, none⟩)
  | .eng k => (match s.eng k with
    | some e => s.whoEng k e
    | none => ⟨0, 0, none, 0, ⟨none, none, 0⟩, none⟩)

/-- A fetch that failed. -/
def State.fetchFault (s : State) (a : Agent) (f : Fail) : State :=
  match a with
  | .crew id n => s.raise id n f none false
  | .eng k => s.raiseEng k f

/-- A word that no instruction has (R118); a SKIP still passes over it (R145). -/
def State.undecoded (s : State) (a : Agent) : State :=
  match a with
  | .crew id n =>
    match s.issuer id with
    | some (s, c) => s.issueCrew id n c false noEff
    | none => s
  | .eng k => s.raiseEng k ⟨cILLEGAL, 0, 0⟩

-- What caches do on their own (R210, R215, R376).

/-- A holder gives a line up. -/
def State.evictLine (s : State) (h ln : Nat) : State :=
  match s.mem.line h ln with
  | none => s
  | some l =>
    if decide (3136 ≤ h) && decide (h < 3168) then { s with mem := s.mem.delLine h ln }
    else if h = ioHolder 0 || h = ioHolder 1 then { s with mem := s.mem.extSnoop (h - ioHolder 0) (s.extPort (ln * 128)) ln }
    else if h = hostHolder then { s with mem := (s.mem.writeHome ln l).delLine h ln }
    else { s with mem := s.mem.evictL1 s.clock h ln }

/-- A router starts to evict a stable tree entry; an eviction under way completes (R215). -/
def State.evictTree (s : State) (r gran level : Nat) : State :=
  match Tab.find s.mem.tree (treeKey r gran level) with
  | none => s
  | some t =>
    if t.state = 0 then { s with mem := { s.mem with tree := Tab.put s.mem.tree (treeKey r gran level) { t with state := 2 } } }
    else { s with mem := s.mem.evictEntry r gran level }

/-- A TLB drops its `n`-th entry. -/
def State.evictTlb (s : State) (h n : Nat) : State :=
  { s with mem := { s.mem with tlb := Tab.put s.mem.tlb h ((Tab.get s.mem.tlb h []).eraseIdx n) } }

end Sys2Proof.Machine
end

