-- ==== Sys2Proof/Machine/Boot.lean ====
section
/-! DEFINITION. An agent's turn to issue, and the placing of one instruction for the next step (log 2). -/

namespace Sys2Proof

/-- The events of the table: every row without a word. -/
def Instr.isEvent (i : Instr) : Bool := (encode i).isNone

namespace Machine

/-- An eligible agent fetches, decodes and executes its next word; an agent that is not eligible lets its turn pass. -/
def State.run (s : State) (ex : Instr → State → Host.Outcome State Fault Refusal) (a : Agent) :
    Host.Outcome State Fault Refusal :=
  if s.eligible a then
    let s := { s with cur := a }
    match s.fetchWord (s.whoOf a) (s.pcOf a) with
    | (s, .error f) => .next (s.fetchFault a f)
    | (s, .ok w) =>
      match decodeWord w with
      | .ok i => ex i s
      | .error _ => .next (s.undecoded a)
  else .next s

-- Placing one instruction.

/-- Address the placed word is fetched from. -/
def placeAddr : Nat := 0x1000

def Team.placedOn (core : Nat) : Team :=
  { st := .placed, core := core, idx := 0, stamp := 0, scr := [], image := none, evicted := false, pre := false,
    preStep := 0, die := none, engs := [] }

/-- A region of one team of one crew of 32 lanes, in the driver's domain. -/
def Region.plain : Region :=
  { rcb := 0x80000
    w := [0x0001_1E00_0000_0000, 0, 0, 0, 1, 0x0200_0001_0001_0001, 0x0001_0040_0006_1C0E, 0x1000, 0, 0x10_0000,
          0x0001_0000_0000, 0, 0, 0, 0, 1]
    kind := 1, parent := none, root := 1, maxc := 1, pri := 0, fdom := 0, state := 1, err := 0, ready := true, readySeq := 0,
    evicted := false, tag := 0, note := false, vec := 0, cbit := 0, caddr := 0, tadm := 0, tend := 0, energy := 0, heats := 0,
    discards := 0, faults := 0, preempts := 0, retired := 0, maps := [], ops := [],
    strikeScope := none, strikes := [] }

/-- A crew as R34 starts it, in slot 0 at an address. -/
def Crew.fresh_ (rk team no lanes cap : Nat) (pc args : DWord) : Crew :=
  let m := maskOf (fun l => decide (l < lanes))
  { rk := rk, team := team, no := no, launched := m, exited := 0,
    s0 := { pc := pc, mask := m, base := 0, chain := [], parked := false }, s1 := PcSlot.none, last := 1,
    com := { Regs.start with
      s := if args = 0 then [] else [(0, args)], lfsr := lanesOf (fun l => crewSeed team no l) },
    heat := none, stack := [], split := none,
    trap := ⟨0, 0, 0, 0, 0, none⟩, park := none, wait := .none, named := [], toks := [],
    ring := ⟨cap, [0, 1, 2], [], [], 0, 0, [], none⟩, later := [], latch := [], skip := none, ret := none, yield0 := false, yield1 := false, since0 := 0,
    since1 := 0, promoted := [], bad := none, aopBad := 0, kept := false, inbox := [] }

/-- An open heat at its second word. -/
def Heat.openAt (slot base : Nat) (entry : DWord) (com : Regs) : Heat :=
  { slot := slot, entry := entry, off := 1, sealed := false, wrk := com, base := base, dests := [], temps := [], pend := [],
    buf := [], group := [], tret := false, gives := [], yielded := false, skip := none, en := [], old := false, owed := [] }

/-- Opcodes whose words belong to a Miller context alone, a Flume queue, a Tailrace context (Table 7-7). -/
def placeFor (w : Nat) : Agent :=
  let op := bits w 25 7
  if decide (0x50 ≤ op) && decide (op ≤ 0x57) then .eng (engKey 0 0 0)
  else if op = 0x66 then .eng (engKey 2 0 0)
  else if decide (0x60 ≤ op) && decide (op ≤ 0x6A) then .eng (engKey 1 0 0)
  else .crew (crewKey 1 0 0) 0

/-- Page tables of domain 0 that map virtual to physical memory one to one for 1 GiB, code and stores permitted. -/
def placeTables (m : Memory) : Memory :=
  let m := Memory.putBytes m 0x10 (leOf 8 0x200000)
  let m := Memory.putBytes m 0x200000 (leOf 8 0x400061)
  Memory.putBytes m 0x400000 (leOf 8 0x607)

/-- A crew, or an engine context it started, with an open heat that continues at the placed word; a HEAT word is placed as
the first word of a heat. -/
def State.place (s : State) (nbits w : Nat) : State :=
  let a := placeFor w
  let bs := leOf 4 (if nbits ≤ 32 then w % 2 ^ 32 else w)
  let m := { s.mem with
    pkg := Memory.putBytes (placeTables s.mem.pkg) placeAddr bs, arranged := [], lines := [], l2 := [], tlb := [] }
  let opening := opensHeat (BitVec.ofNat 32 w)
  let pc : DWord := BitVec.ofNat 64 placeAddr
  let c := Crew.fresh_ 1 0 0 32 8 pc 0
  let c := if opening then c else { c with heat := some (Heat.openAt 0 0 (pc - 4) c.com) }
  let home := match a with
    | .eng k => k
    | .crew _ _ => 0
  let e := { Eng.start with gen := 1, home := home, running := true, rk := 1, pc := pc, entry := some (pc - 4), off := 1, last := 0 }
  { s with
    turns := [.issue a], cur := a, mem := m
    port := { s.port with fdtb := 0 }
    crews := Tab.put s.crews (crewKey 1 0 0) c
    engs := (match a with
      | .eng k => Tab.put s.engs k e
      | .crew _ _ => s.engs)
    forks := (match a with
      | .eng k => Tab.put s.forks k (1, 0)
      | .crew _ _ => s.forks)
    cores := Tab.put s.cores 0 ⟨14, 28, 6, false, none, none, [], [], [crewKey 1 0 0 * 2, crewKey 1 0 0 * 2 + 1], []⟩
    teams := Tab.put s.teams (teamKey 1 0) (Team.placedOn 0)
    regions := Tab.put s.regions 1 Region.plain
    power := { s.power with granted := [.issue a] } }

end Machine

end Sys2Proof
end

