-- ==== Sys2Proof/Machine/Capacity.lean ====
section
/-! DEFINITION. What caches, tree caches and TLBs hold at most, and what they replace (R11, R13, R16, R17, R205, R212, R253,
R376, R386). -/

namespace Sys2Proof.Machine

/-- The set that a held line stands in, and its ways. An L1 share, and a constant cache, is one set: the spec gives them no
other (log 18). -/
def State.lineSet (s : State) (k : Nat) : Nat × Nat × Nat :=
  let h := k / 2 ^ 45
  let ln := k % 2 ^ 45
  let share := (s.coreSt (shareCore h ln)).l1u * 64
  if h < 3072 then (h, 0, share)
  else if h < 3104 then (h, ln % 96, share)
  else if h < 3136 then (h, ln % 128, 16)
  else if h < 3168 then (h, 0, 512)
  else if h < 3170 then (h, ln % 4096, 16)
  else (h, ln, 1)

/-- The set of an L2 line: its slice, and line number mod 512 (log 18). -/
def l2Set (ln : Nat) : Nat × Nat := (homeSlice (ln * 128), ln % 512)

/-- Replaced before another line: by mark, then the least recently used (R209, R244). -/
def Line.before (a b : Line) : Bool :=
  let rank : Line → Nat := fun l => if l.mark = 1 then 0 else if l.mark = 2 then 2 else 1
  decide (rank a < rank b) || (rank a == rank b && decide (a.stamp < b.stamp))

/-- The first line of a list in replacement order. -/
def victim (ls : List (Nat × Line)) : Option Nat :=
  (ls.foldl (fun o x => match o with
    | none => some x
    | some y => if x.2.before y.2 then some x else o) (none : Option (Nat × Line))).map Prod.fst

/-- One line leaves the set of a held line when the set holds more than its ways. -/
def State.trimSet (s : State) (k : Nat) : State :=
  let mine := s.mem.lines.filter (fun x => s.lineSet x.1 == s.lineSet k)
  if mine.length ≤ (s.lineSet k).2.2 then s
  else match victim mine with
    | some v => s.evictLine (v / 2 ^ 45) (v % 2 ^ 45)
    | none => s

/-- One L2 line leaves the set of a line when it holds more than 16. -/
def MemSys.trimL2 (m : MemSys) (ln : Nat) : MemSys :=
  let mine := m.l2.filter (fun x => l2Set x.1 == l2Set ln)
  if mine.length ≤ 16 then m
  else match victim mine with
    | some v => m.dropL2 v
    | none => m

/-- Granule base that a key of the tree entries names. -/
def treeGran (k : Nat) : Nat := k % 2 ^ 50 / 16 * 128

/-- The entry of a list with the lowest stamp. -/
def oldest (xs : List (Nat × TreeEnt)) : Option (Nat × TreeEnt) :=
  xs.foldl (fun o x => match o with
    | none => some x
    | some y => if x.2.stamp < y.2.stamp then some x else o) none

/-- The entry that makes room in a set of a tree cache: the least recently used stable one besides the newest, which asks for
the way; without one the newest waits, until an eviction under way completes (R212). -/
def treeVictim (xs : List (Nat × TreeEnt)) : Option (Nat × TreeEnt) :=
  let last := xs.foldl (fun n x => max n x.2.stamp) 0
  let stable := xs.filter (fun x => x.2.state == 0 && x.2.stamp != last)
  oldest (if stable.isEmpty then xs.filter (fun x => x.2.state != 0) else stable)

/-- One entry leaves the tree cache's set of an entry when the set holds more than its ways (R212). -/
def MemSys.trimTree (cut : Bool) (m : MemSys) (k : Nat) : MemSys :=
  let mine := m.tree.filter (fun x => x.1 / 2 ^ 50 == k / 2 ^ 50 && treeSet cut x.2.gbase == treeSet cut (treeGran k))
  if mine.length ≤ treeWays cut then m
  else match treeVictim mine with
    | some x => m.evictEntry (x.1 / 2 ^ 50) x.2.gbase x.2.level
    | none => m

/-- The newest 64 translations of a first-level TLB; the newest eight of each set of a last-level TLB, by page number (log 18). -/
def trimTlb (key : Nat) (l : List Xl) : List Xl :=
  if key < 3072 then l.take 64
  else
    let set : Xl → Nat := fun x => x.va / 2 ^ x.nbits % 2048
    (List.range l.length).filterMap (fun i => (l[i]?).bind (fun x =>
      if ((l.take i).filter (fun y => set y == set x)).length < 8 then some x else none))

/-- The words of a core's store in a data bank that failed after another one: its L1 lines, its crews' registers and their
stacks, each of which has words in every bank (R15, R203, log 77). -/
def State.deadStores (s : State) : State :=
  let dead := (s.cores.map Prod.fst).filter s.deadCore
  if dead.isEmpty then s
  else
    let regs : Regs → Regs := fun r => { r with errs := (2048 :: r.errs).eraseDups }
    { s with
      mem := { s.mem with lines := s.mem.lines.map (fun (kv : Nat × Line) =>
        if decide (kv.1 / 2 ^ 45 < 3104) && dead.contains (shareCore (kv.1 / 2 ^ 45) (kv.1 % 2 ^ 45)) then
          (kv.1, { kv.2 with bad := true }) else kv) }
      crews := s.crews.map (fun (kv : Nat × Crew) =>
        if (s.team kv.2.rk kv.2.team).any (fun t => t.st == .placed && dead.contains t.core) then
          (kv.1, { kv.2 with
            com := regs kv.2.com, heat := kv.2.heat.map (fun h => { h with wrk := regs h.wrk })
            stack := kv.2.stack.map (fun e => { e with bad := true }) })
        else kv) }

/-- Caches and tables give up what they cannot hold. -/
def State.tidy (s : State) : State :=
  let s := s.deadStores
  let s := (s.mem.lines.map Prod.fst).foldl State.trimSet s
  let m := (s.mem.tree.map Prod.fst).foldl (MemSys.trimTree s.mil.treeCut) s.mem
  let m := (m.l2.map Prod.fst).foldl MemSys.trimL2 m
  { s with mem := { m with tlb := m.tlb.map (fun kv => (kv.1, trimTlb kv.1 kv.2)) } }

/-- The outcome of a turn, with the caches within their capacity. -/
def tidied (o : Host.Outcome State Fault Refusal) : Host.Outcome State Fault Refusal :=
  match o with
  | .next s => .next s.tidy
  | o => o

end Sys2Proof.Machine
end

