-- ==== Sys2Proof/Machine/Grist.lean ====
section
/-! DEFINITION. Grist blocks (R75, R76, R79) and MX blocks with a computed scale (R73, R92). -/

namespace Sys2Proof.Machine

/-- Largest magnitude code of a Grist element. -/
def gristMax (k : Nat) : Nat := 2 ^ k - 1

/-- Exponent of q(E, µ) (R79). -/
def gristQ (k E mu : Nat) : Int := (E : Int) - 127 - mu - (k - 1 : Nat)

/-- The sixteen values of a block (R76). -/
def gristDecode (f blk : Nat) : List Val :=
  let k := gristK f
  let E := blk % 256
  (List.range 16).map (fun i =>
    if E = 0 then .fin false 0 0 false
    else if E = 255 then .nan false
    else
      let fld := bits blk (16 + (k + 1) * i) (k + 1)
      .fin (fld.testBit k) (fld % 2 ^ k) (gristQ k E ((blk.testBit (8 + i / 2)).toNat)) false)

/-- `Near(|x| / 2^q)`: ties away from zero. -/
def nearQ (x : Val) (q : Int) : Nat :=
  match x with
  | .fin _ m e st => (roundQ rndRNA false m e st q 0).1
  | _ => 0

/-- The larger of two magnitudes. -/
def maxMag (a b : Val) : Val :=
  let abs : Val → Val := fun v => if v.isNeg then v.neg else v
  if cmpVal (abs a) (abs b) < 0 then abs b else abs a

/-- The least block exponent from `E` on for which the largest magnitude fits. -/
def gristExp (k : Nat) (mx : Val) (fuel E : Nat) : Option Nat :=
  match fuel with
  | 0 => none
  | n + 1 => if nearQ mx (gristQ k E 0) ≤ gristMax k then some E else gristExp k mx n (E + 1)

/-- One element of step 6: sign, magnitude, inexact, lost. -/
def gristElem (k : Nat) (c : Rnd) (q : Int) (d : Nat) (x : Val) : Bool × Nat × Bool × Bool :=
  match x with
  | .fin neg m e st =>
    let (n, ix) := roundQ c.mode neg m e st q d
    let n' := min n (gristMax k)
    (neg, n', ix || decide (n' < n), decide (n' = 0) && !x.isZero)
  | _ => (false, 0, false, false)

/-- Sixteen values into one block with sixteen draws (R79). -/
def gristEncode (f : Nat) (c : Rnd) (ds : List Nat) (xs : List Val) : Nat × Flags :=
  let k := gristK f
  let snan := flIf (xs.any Val.isSNaN) flNV
  if xs.any Val.isNaN then (255, snan)
  else if xs.any Val.isInf && !c.sat then (255, flOF)
  else
    let big : Bool → Val := fun n => .fin n (gristMax k) (gristQ k 254 0) false
    let xs := xs.map (fun x => match x with
      | .inf n => big n
      | y => y)
    let mx := xs.foldl maxMag (.fin false 0 0 false)
    if mx.isZero then (0, 0)
    else
      let e := gristExp k mx 254 1
      if e.isNone && !c.sat then (255, flOF)
      else
        let E := e.getD 254
        let mu := (List.range 8).map (fun j =>
          let p := maxMag (xs.getD (2 * j) (.inf false)) (xs.getD (2 * j + 1) (.inf false))
          decide (nearQ p (gristQ k E 1) ≤ gristMax k))
        let els := (List.range 16).map (fun i =>
          gristElem k c (gristQ k E (mu.getD (i / 2) false).toNat) (ds.getD i 0) (xs.getD i (.inf false)))
        let fl := flIf e.isNone flOF ||| flIf (els.any (fun r => r.2.2.1)) flNX
          ||| flIf (els.any (fun r => r.2.2.2)) flUF
        if els.all (fun r => r.2.1 == 0) then (0, fl)
        else
          let hdr := E + (List.range 8).foldl (fun a j => a + (mu.getD j false).toNat * 2 ^ (8 + j)) 0
          let body := (List.range 16).foldl (fun a i =>
            let r := els.getD i (false, 0, false, false)
            a + (r.2.1 + r.1.toNat * 2 ^ k) * 2 ^ (16 + (k + 1) * i)) 0
          (hdr + body, fl)

/-- Exponent of an element format's largest normal (R92). -/
def mxEF (f : Nat) : Int :=
  if f = fmtE4M3 then 8 else if f = fmtE5M2 then 15 else if f = fmtE2M3 then 2 else if f = fmtE3M2 then 4 else 2

/-- A block of values into an OCP format with a computed scale (R92): scale code, element codes, flags (R185). -/
def mxEncode (f : Nat) (c : Rnd) (ds : List Nat) (xs : List Val) : Nat × List Nat × Flags :=
  if xs.any (fun x => x.isNaN || x.isInf) then
    (0xFF, xs.map (fun _ => 0), flIf (xs.any Val.isSNaN) flNV)
  else
    let mx := xs.foldl maxMag (.fin false 0 0 false)
    let X : Int := match mx with
      | .fin _ m e _ => if m = 0 then -127 else max (-127) (min 127 (expOf m e - mxEF f))
      | _ => -127
    let c' : Rnd := { c with sat := true }
    let els := (List.range xs.length).map (fun i =>
      let x := xs.getD i (.inf false)
      let (b, fl) := roundTo f c' (ds.getD i 0) (scaleVal x (-X))
      let zero := decide (b % 2 ^ (ffmt f).signAt = 0)
      (b, (fl &&& (flOF ||| flNX)) ||| flIf (zero && !x.isZero) flUF))
    ((X + 127).toNat, els.map Prod.fst, els.foldl (fun a r => a ||| r.2) 0)

end Sys2Proof.Machine
end

