-- ==== Sys2Proof/WellFormed.lean ====
section
/-! DEFINITION. What an instruction must satisfy whatever MODE and the state hold (R102 to R106, R111, R118, R152, R254).
An instruction that does not satisfy it raises ILLEGAL at issue. -/

namespace Sys2Proof

open Machine

/-- Blocks and holds of a U-major word: a uniform B has no block and no hold. -/
def OpU.vecOk (o : OpU) : Bool :=
  blockOk o.a o.e && (o.k || blockOk o.b o.e) && (!o.k || !o.h.getLsbD 1)

def OpU.wf (o : OpU) : Bool := blockOk o.d o.e && o.vecOk

def OpV.wf (o : OpV) : Bool := blockOk o.d o.e && blockOk o.a o.e

def OpL.wf (o : OpL) : Bool := blockOk o.d o.e && blockOk o.a o.e

/-- A vector base is an even register pair (R240). -/
def baseOk (k : Bool) (a : BitVec 5) : Bool := k || (a.toNat % 2 == 0 && derivedOk false a.toNat 2)

/-- Well-formed instructions. -/
def Instr.wf (i : Instr) : Bool :=
  match i with
  | .brx _ b _ => blockOk b 0
  | .call k _ => decide (k.toNat ≤ 23)
  | .callx k _ => decide (k.toNat ≤ 23)
  | .slide n => decide (-23 ≤ n.toInt) && decide (n.toInt ≤ 23)
  | .iadd o => o.wf
  | .iaddc o => o.wf
  | .isub o => o.wf
  | .isubb o => o.wf
  | .imin o => o.wf
  | .imax o => o.wf
  | .iabs o => o.wf
  | .ineg o => o.wf
  | .lea o => o.wf
  | .imul o => o.wf
  | .imulh o => o.wf
  | .imad o => o.wf
  | .imadw o =>
    o.vecOk && blockHW o.d.toNat (extHW o.e).1 (2 * (extHW o.e).2) && (o.d.toNat % 2 == 0)
  | .and o => o.wf
  | .or o => o.wf
  | .xor o => o.wf
  | .andn o => o.wf
  | .not o => o.wf
  | .sel o => o.wf
  | .shl o => o.wf
  | .shr o => o.wf
  | .sar o => o.wf
  | .rot o => o.wf
  | .popc o => o.wf
  | .clz o => o.wf
  | .brev o => o.wf
  | .bfx o => o.wf
  | .bfi o => o.wf
  | .icmp _ o => predDst o.d && o.vecOk
  | .mov o => o.wf
  | .fadd o => o.wf
  | .fsub o => o.wf
  | .fmul o => o.wf
  | .fmin o => o.wf
  | .fmax o => o.wf
  | .fabs o => o.wf
  | .fneg o => o.wf
  | .fcpys o => o.wf
  | .fscale o => o.wf
  | .frnd o => o.wf
  | .ffma o => o.wf
  | .ffms o => o.wf
  | .fdot2 o => o.wf
  | .fcmp _ o => predDst o.d && o.vecOk
  | .fclass o => o.wf
  | .frcp o => o.wf
  | .frsq o => o.wf
  | .fsqrt o => o.wf
  | .fdiv o => blockOk o.d o.e && blockOk o.a o.e && blockOk o.b o.e
  | .fexp2 o => o.wf
  | .flog2 o => o.wf
  | .fsin o => o.wf
  | .fcos o => o.wf
  | .ftanh o => o.wf
  | .cvt o => !fmtReserved o.b.toNat && o.b.toNat != 0 && !fmtIsInt o.b.toNat
  | .cvti o => !fmtReserved o.b.toNat && o.b.toNat != 0
  | .pack o => blockOk o.a o.e
  | .unpack o => blockOk o.a o.e
  | .tag d f e =>
    blockOk d e && !fmtReserved f.toNat && (!fmtIs64 f.toNat || (d.toNat % 2 == 0 && evenWidth e))
  -- under a 64-bit code A's origin must be even as D's is (log 67)
  | .retag o f =>
    o.wf && !fmtReserved f.toNat
      && (!fmtIs64 f.toNat || (o.d.toNat % 2 == 0 && o.a.toNat % 2 == 0 && evenWidth o.e))
  | .qscale o => blockOk o.a o.e
  | .mxscale o => blockOk o.a o.e
  | .vote _ _ a _ => predOk a
  | .elect d _ => predDst d
  | .shfl _ o => blockOk o.d o.e && blockOk o.a o.e
  | .permset d _ _ => decide (d.toNat < 30)
  | .perm o => blockOk o.d o.e && blockOk o.a o.e && decide (o.b.toNat < 30)
  | .red _ o => o.wf
  | .scan _ _ o => o.wf
  | .scmp _ o => predDst o.d
  | .bcast d _ e => blockOk d e
  | .pand o => predDst o.d && predOk o.a && predOk o.b
  | .por o => predDst o.d && predOk o.a && predOk o.b
  | .pxor o => predDst o.d && predOk o.a && predOk o.b
  | .pnot o => predDst o.d && predOk o.a
  | .pmov o => predDst o.d && predOk o.a
  | .pcnt o => predOk o.a
  | .ld o => blockOk o.d o.e && baseOk o.k o.a
  | .st o => blockOk o.d o.e && baseOk o.k o.a
  | .ldx o => blockOk o.d o.e && baseOk o.k o.a
  | .stx o => blockOk o.d o.e && baseOk o.k o.a
  | .ldc d _ _ e _ _ => blockOk d e
  | .pref o => baseOk o.k o.a && decide (o.s.toNat ≤ 2)
  | .cflush o => baseOk o.k o.a && decide (o.s.toNat ≤ 1)
  | .cinv o => baseOk o.k o.a && decide (o.s.toNat = 0)
  | .hint o => baseOk o.k o.a && decide (o.s.toNat ≤ 3)
  | .aadd o => atWf o 1
  | .afadd o => atWf o 1
  | .amin o => atWf o 1
  | .amax o => atWf o 1
  | .aand o => atWf o 1
  | .aor o => atWf o 1
  | .axor o => atWf o 1
  | .aswp o => atWf o 1
  | .acas o => atWf o 2
  | .acas2 d a _ l n k => baseOk k a && (d.toNat % 2 == 0) && derivedOk false d.toNat 8 && (!n || l == 0)
  | .tset o => descOk o.d && decide (o.b.toNat ≤ 4)
  | .tget o => descOk o.a && (decide (o.b.toNat ≤ 4) || (decide (16 ≤ o.b.toNat) && decide (o.b.toNat ≤ 19)))
  | .aset o => descOk o.d && decide (o.b.toNat ≤ 3)
  | .cpy2 o => o.b.toNat != 31
  | .halo _ _ b _ => b.toNat != 31
  | .gath o => o.b.toNat != 31
  | .scat o => o.b.toNat != 31
  | .esig _ _ k => decide (k.toNat ≤ 2)
  | _ => true
where
  /-- An atomic with `c` data values: base, data registers, and lookahead 0 in the non-returning form (R255). -/
  atWf (o : OpAt) (c : Nat) : Bool :=
    baseOk o.k o.a && derivedOk o.w o.d.toNat (c * (if o.w then 2 else 1)) && (!o.n || o.l == 0)

end Sys2Proof
end

