-- ==== Sys2Proof/Machine/Integer.lean ====
section
/-! DEFINITION. Vector integer instructions (R150 to R156, Table 9-4). -/

namespace Sys2Proof.Machine

/-- Width, reading and saturation of MODE (R67, R125). -/
structure IntMode where
  w : Nat
  sgn : Bool
  sat : Bool
  deriving DecidableEq, Repr

def intModeOf (m : BitVec 40) : IntMode := ⟨iwBits (modeIw m), modeSgn m, (modeRnd m).sat⟩

/-- Operands of a word with one vector source, as a word with an unused B. -/
def vAsU (o : OpV) : OpU := ⟨o.d, o.a, 0, o.e, if o.h then 1 else 0, false⟩

/-- Which of B and D an operation reads. -/
structure Reads where
  b : Bool
  d : Bool
  deriving DecidableEq, Repr

def readsB : Reads := ⟨true, false⟩
def readsBD : Reads := ⟨true, true⟩
def readsA : Reads := ⟨false, false⟩

/-- Element results and the flags they set. -/
abbrev ElemOp := IntMode → Nat → Nat → Nat → Nat × Flags

/-- The checks of an integer operation with blocks of the extent (R68, R82, R153); `g` gives one lane's registers and flags
from the registers of A, B and D. -/
def intLanes (o : OpU) (rd : Reads) (g : IntMode → List Nat → List Nat → List Nat → List Nat × Flags) :
    Crew → Heat → Except Stop Res := fun c h =>
  let r := h.wrk
  let q := intModeOf r.mode
  let tag := intTag (modeIw r.mode)
  let ka := h.keys o.a o.e
  let kb := if rd.b && !o.k then h.keys o.b o.e else []
  let kd := h.keys o.d o.e
  let legal := q.w != 64 || (pairOk o.a o.e && (!rd.b || o.k || pairOk o.b o.e) && pairOk o.d o.e)
  let fmtOk := r.accepts tag ka && r.accepts tag kb && (!rd.d || r.accepts tag kd)
  match c.check h (ka ++ kb ++ (if rd.d then kd else [])) kd [] legal fmtOk with
  | .error e => .error e
  | .ok () =>
    let m := c.lanes h
    let out := perLane m ([], 0) (fun l =>
      g q (r.at_ ka l) (if rd.b then r.opB o (q.w == 64) kb l else []) (if rd.d then r.at_ kd l else []))
    .ok ⟨vecW kd m (out.map Prod.fst) (fun _ => tag), orFlags (out.map Prod.snd), none⟩

/-- Elements, each on its own (R150). -/
def eachElem (op : ElemOp) : IntMode → List Nat → List Nat → List Nat → List Nat × Flags := fun q as bs ds =>
  let ea := elemsOf q.w as
  let eb := elemsOf q.w bs
  let ed := elemsOf q.w ds
  let es := (List.range ea.length).map (fun i => op q (ea.getD i 0) (eb.getD i 0) (ed.getD i 0))
  (regsOfElems q.w (es.map Prod.fst), orFlags (es.map Prod.snd))

def IntMode.val (q : IntMode) (x : Nat) : Int := intVal q.w q.sgn x

/-- IntResult by MODE where Table 9-4 uses Sat, else a wrap. -/
def IntMode.res (q : IntMode) (x : Int) : Nat × Flags := intResult q.w q.sgn q.sat x
def IntMode.wrap (q : IntMode) (x : Int) : Nat × Flags := (wrapInt q.w x, 0)

def opIadd : ElemOp := fun q a b _ => q.res (q.val a + q.val b)
def opIsub : ElemOp := fun q a b _ => q.res (q.val a - q.val b)
def opImin : ElemOp := fun q a b _ => q.wrap (min (q.val a) (q.val b))
def opImax : ElemOp := fun q a b _ => q.wrap (max (q.val a) (q.val b))
def opIabs : ElemOp := fun q a _ _ => q.res (if q.val a < 0 then -(q.val a) else q.val a)
def opIneg : ElemOp := fun q a _ _ => q.res (-(q.val a))
/-- The B of LEA is unsigned. -/
def opLea : ElemOp := fun q a b _ => q.res (q.val a + (b * (q.w / 8) : Nat))
def opImul : ElemOp := fun q a b _ => q.res (q.val a * q.val b)
def opImulh : ElemOp := fun q a b _ => q.wrap (q.val a * q.val b / (2 ^ q.w : Nat))
def opImad : ElemOp := fun q a b d => q.res (q.val a * q.val b + q.val d)
/-- Shift amounts are unsigned and not wrapped. -/
def opShl : ElemOp := fun q a b _ => (if q.w ≤ b then 0 else a * 2 ^ b % 2 ^ q.w, 0)
def opShr : ElemOp := fun q a b _ => (if q.w ≤ b then 0 else a / 2 ^ b, 0)
def opSar : ElemOp := fun q a b _ => q.wrap (signed q.w a / (2 ^ (min b q.w) : Nat))
def opRot : ElemOp := fun q a b _ => ((a * 2 ^ (b % q.w) + a / 2 ^ (q.w - b % q.w)) % 2 ^ q.w, 0)
def opPopc : ElemOp := fun q a _ _ => (popcount q.w a, 0)
def opClz : ElemOp := fun q a _ _ => (q.w - bitLen a, 0)
def opBrev : ElemOp := fun q a _ _ =>
  ((List.range q.w).foldl (fun x i => if a.testBit i then x + 2 ^ (q.w - 1 - i) else x) 0, 0)

/-- BFX of one element by a control word (R154). -/
def bfxElem (w : Nat) (sgn : Bool) (a ctl : Nat) : Nat :=
  let pos := bits ctl 0 8
  let len := bits ctl 8 8
  if len = 0 || w ≤ pos then 0
  else
    let n := min len (w - pos)
    let x := a / 2 ^ pos % 2 ^ n
    if sgn then wrapInt w (signed n x) else x

/-- BFI of one element. -/
def bfiElem (w a ctl d : Nat) : Nat :=
  let pos := bits ctl 0 8
  let len := bits ctl 8 8
  if len = 0 || w ≤ pos then d
  else
    let n := min len (w - pos)
    d % 2 ^ pos + a % 2 ^ n * 2 ^ pos + d / 2 ^ (pos + n) * 2 ^ (pos + n)

/-- One control word for every element of a register, taken from each register of B, or the low one of a pair (R154). -/
def eachCtl (op : IntMode → Nat → Nat → Nat → Nat) : IntMode → List Nat → List Nat → List Nat → List Nat × Flags :=
  fun q as bs ds =>
    let ea := elemsOf q.w as
    let ed := elemsOf q.w ds
    let per := if q.w = 64 then 1 else 32 / q.w
    let es := (List.range ea.length).map (fun i =>
      let ctl := if q.w = 64 then bs.getD (2 * i) 0 else bs.getD (i / per) 0
      op q (ea.getD i 0) ctl (ed.getD i 0))
    (regsOfElems q.w es, 0)

/-- The carry chain of R151: digits in ascending order, `sub` for a borrow; a uniform B is digit 0 alone. -/
def chain (w : Nat) (sub : Bool) : Int → List Nat → List Nat → List Nat
  | _, [], _ => []
  | cy, a :: as, bs =>
    let b : Int := (bs.headD 0 : Nat)
    let s : Int := if sub then (a : Nat) - b - cy else (a : Nat) + b + cy
    let cy' : Int := if sub then (if s < 0 then 1 else 0) else (if (2 ^ w : Nat) ≤ s then 1 else 0)
    wrapInt w s :: chain w sub cy' as (bs.tailD [])

def chained (sub uniform : Bool) : IntMode → List Nat → List Nat → List Nat → List Nat × Flags := fun q as bs _ =>
  let eb := elemsOf q.w bs
  let eb := if uniform then eb.take 1 else eb
  (regsOfElems q.w (chain q.w sub 0 (elemsOf q.w as) eb), 0)

/-- Logic on whole registers, whatever IW; each register takes A's tag (R150, R82). In major 0x12 (`wide`) IW = 64 asks for
pairs (R153, log 64). -/
def logicCalc (wide : Bool) (o : OpU) (rd : Reads) (op : Nat → Nat → Nat → Nat) : Crew → Heat → Except Stop Res := fun c h =>
  let r := h.wrk
  let legal := !wide || (intModeOf r.mode).w != 64 || (pairOk o.a o.e && (!rd.b || o.k || pairOk o.b o.e) && pairOk o.d o.e)
  let ka := h.keys o.a o.e
  let kb := if rd.b && !o.k then h.keys o.b o.e else []
  let kd := h.keys o.d o.e
  match c.check h (ka ++ kb ++ (if rd.d then kd else [])) kd [] legal true with
  | .error e => .error e
  | .ok () =>
    let m := c.lanes h
    let out := perLane m [] (fun l =>
      let as := r.at_ ka l
      let bs := if rd.b then r.opB o false kb l else []
      let ds := if rd.d then r.at_ kd l else []
      (List.range as.length).map (fun i => op (as.getD i 0) (bs.getD i 0) (ds.getD i 0)))
    .ok ⟨vecW kd m out (fun i => r.rdTag (ka.getD i 0)), 0, none⟩

def notWord (a : Nat) : Nat := (~~~(BitVec.ofNat 32 a)).toNat

/-- IMADW (R152): 32-bit A and B, D pairs of twice the width. -/
def imadwCalc (o : OpU) : Crew → Heat → Except Stop Res := fun c h =>
  let r := h.wrk
  let q := intModeOf r.mode
  let ka := h.keys o.a o.e
  let kb := if o.k then [] else h.keys o.b o.e
  let kd := (codesHW o.d.toNat (extHW o.e).1 (2 * (extHW o.e).2)).map h.key
  let fmtOk := r.accepts fmtINT32 ka && r.accepts fmtINT32 kb && r.accepts fmtINT64 kd
  match c.check h (ka ++ kb ++ kd) kd [] (q.w == 32) fmtOk with
  | .error e => .error e
  | .ok () =>
    let m := c.lanes h
    let out := perLane m ([], 0) (fun l =>
      let as := r.at_ ka l
      let bs := r.opB o false kb l
      let ds := pairUp (r.at_ kd l)
      let es := (List.range as.length).map (fun i =>
        intResult 64 q.sgn q.sat (q.val (as.getD i 0) * q.val (bs.getD i 0) + intVal 64 q.sgn (ds.getD i 0)))
      (regsOfElems 64 (es.map Prod.fst), orFlags (es.map Prod.snd)))
    .ok ⟨vecW kd m (out.map Prod.fst) (fun _ => fmtINT64), orFlags (out.map Prod.snd), none⟩

/-- ICMP (R155). -/
def icmpCalc (cc : Cond) (o : OpU) : Crew → Heat → Except Stop Res := fun c h =>
  let r := h.wrk
  let q := intModeOf r.mode
  let tag := intTag (modeIw r.mode)
  let ka := h.keys o.a o.e
  let kb := if o.k then [] else h.keys o.b o.e
  let legal := q.w != 64 || (pairOk o.a o.e && (o.k || pairOk o.b o.e))
  match c.check h (ka ++ kb) [] [nameP o.d] legal (r.accepts tag ka && r.accepts tag kb) with
  | .error e => .error e
  | .ok () =>
    let x := maskOf (fun l =>
      let ea := elemsOf q.w (r.at_ ka l)
      let eb := elemsOf q.w (r.opB o (q.w == 64) kb l)
      (List.range ea.length).all (fun i => condHolds cc (q.val (ea.getD i 0)) (q.val (eb.getD i 0))))
    .ok ⟨[.p o.d.toNat (c.lanes h) x], 0, none⟩

/-- MOVI and MOVH: one register tagged BITS (R156); MOVH reads vD whatever its tag (log 65). -/
def immCalc (d : BitVec 5) (readsD : Bool) (f : Nat → Nat) : Crew → Heat → Except Stop Res := fun c h =>
  let kd := [h.key d.toNat]
  match c.check h (if readsD then kd else []) kd [] true true with
  | .error e => .error e
  | .ok () =>
    let m := c.lanes h
    let out := perLane m [] (fun l => [f (h.wrk.at_ kd l).head!])
    .ok ⟨vecW kd m out (fun _ => fmtBITS), 0, none⟩

/-- A vector instruction with operands of format A. -/
def vecWord (i : Instr) (o : OpU) (f : Crew → Heat → Except Stop Res) (s : State) : Host.Outcome State Fault Refusal :=
  s.crewWord i.wf (regEff 0 (heldU o) f)

def execIadd (o : OpU) (s : State) : Host.Outcome State Fault Refusal :=
  vecWord (.iadd o) o (intLanes o readsB (eachElem opIadd)) s
def execIaddc (o : OpU) (s : State) : Host.Outcome State Fault Refusal :=
  vecWord (.iaddc o) o (intLanes o readsB (chained false o.k)) s
def execIsub (o : OpU) (s : State) : Host.Outcome State Fault Refusal :=
  vecWord (.isub o) o (intLanes o readsB (eachElem opIsub)) s
def execIsubb (o : OpU) (s : State) : Host.Outcome State Fault Refusal :=
  vecWord (.isubb o) o (intLanes o readsB (chained true o.k)) s
def execImin (o : OpU) (s : State) : Host.Outcome State Fault Refusal :=
  vecWord (.imin o) o (intLanes o readsB (eachElem opImin)) s
def execImax (o : OpU) (s : State) : Host.Outcome State Fault Refusal :=
  vecWord (.imax o) o (intLanes o readsB (eachElem opImax)) s
def execIabs (o : OpV) (s : State) : Host.Outcome State Fault Refusal :=
  vecWord (.iabs o) (vAsU o) (intLanes (vAsU o) readsA (eachElem opIabs)) s
def execIneg (o : OpV) (s : State) : Host.Outcome State Fault Refusal :=
  vecWord (.ineg o) (vAsU o) (intLanes (vAsU o) readsA (eachElem opIneg)) s
def execLea (o : OpU) (s : State) : Host.Outcome State Fault Refusal :=
  vecWord (.lea o) o (intLanes o readsB (eachElem opLea)) s
def execImul (o : OpU) (s : State) : Host.Outcome State Fault Refusal :=
  vecWord (.imul o) o (intLanes o readsB (eachElem opImul)) s
def execImulh (o : OpU) (s : State) : Host.Outcome State Fault Refusal :=
  vecWord (.imulh o) o (intLanes o readsB (eachElem opImulh)) s
def execImad (o : OpU) (s : State) : Host.Outcome State Fault Refusal :=
  vecWord (.imad o) o (intLanes o readsBD (eachElem opImad)) s
def execImadw (o : OpU) (s : State) : Host.Outcome State Fault Refusal :=
  vecWord (.imadw o) o (imadwCalc o) s
def execAnd (o : OpU) (s : State) : Host.Outcome State Fault Refusal :=
  vecWord (.and o) o (logicCalc true o readsB (fun a b _ => a &&& b)) s
def execOr (o : OpU) (s : State) : Host.Outcome State Fault Refusal :=
  vecWord (.or o) o (logicCalc true o readsB (fun a b _ => a ||| b)) s
def execXor (o : OpU) (s : State) : Host.Outcome State Fault Refusal :=
  vecWord (.xor o) o (logicCalc true o readsB (fun a b _ => a ^^^ b)) s
def execAndn (o : OpU) (s : State) : Host.Outcome State Fault Refusal :=
  vecWord (.andn o) o (logicCalc true o readsB (fun a b _ => a &&& notWord b)) s
def execNot (o : OpV) (s : State) : Host.Outcome State Fault Refusal :=
  vecWord (.not o) (vAsU o) (logicCalc true (vAsU o) readsA (fun a _ _ => notWord a)) s
def execSel (o : OpU) (s : State) : Host.Outcome State Fault Refusal :=
  vecWord (.sel o) o (logicCalc true o readsBD (fun a b d => (a &&& d) ||| (b &&& notWord d))) s
def execShl (o : OpU) (s : State) : Host.Outcome State Fault Refusal :=
  vecWord (.shl o) o (intLanes o readsB (eachElem opShl)) s
def execShr (o : OpU) (s : State) : Host.Outcome State Fault Refusal :=
  vecWord (.shr o) o (intLanes o readsB (eachElem opShr)) s
def execSar (o : OpU) (s : State) : Host.Outcome State Fault Refusal :=
  vecWord (.sar o) o (intLanes o readsB (eachElem opSar)) s
def execRot (o : OpU) (s : State) : Host.Outcome State Fault Refusal :=
  vecWord (.rot o) o (intLanes o readsB (eachElem opRot)) s
def execPopc (o : OpV) (s : State) : Host.Outcome State Fault Refusal :=
  vecWord (.popc o) (vAsU o) (intLanes (vAsU o) readsA (eachElem opPopc)) s
def execClz (o : OpV) (s : State) : Host.Outcome State Fault Refusal :=
  vecWord (.clz o) (vAsU o) (intLanes (vAsU o) readsA (eachElem opClz)) s
def execBrev (o : OpV) (s : State) : Host.Outcome State Fault Refusal :=
  vecWord (.brev o) (vAsU o) (intLanes (vAsU o) readsA (eachElem opBrev)) s
def execBfx (o : OpU) (s : State) : Host.Outcome State Fault Refusal :=
  vecWord (.bfx o) o (intLanes o readsB (eachCtl (fun q a ctl _ => bfxElem q.w q.sgn a ctl))) s
def execBfi (o : OpU) (s : State) : Host.Outcome State Fault Refusal :=
  vecWord (.bfi o) o (intLanes o readsBD (eachCtl (fun q a ctl d => bfiElem q.w a ctl d))) s
def execIcmp (cc : Cond) (o : OpU) (s : State) : Host.Outcome State Fault Refusal :=
  vecWord (.icmp cc o) o (icmpCalc cc o) s
def execMov (o : OpV) (s : State) : Host.Outcome State Fault Refusal :=
  vecWord (.mov o) (vAsU o) (logicCalc false (vAsU o) readsA (fun a _ _ => a)) s
def execMovi (d : BitVec 5) (i : BitVec 20) (s : State) : Host.Outcome State Fault Refusal :=
  s.crewWord true (regEff 0 heldNone (immCalc d false (fun _ => (i.signExtend 32).toNat)))
def execMovh (d : BitVec 5) (i : BitVec 20) (s : State) : Host.Outcome State Fault Refusal :=
  s.crewWord true (regEff 0 heldNone (immCalc d true (fun v => i.toNat * 2 ^ 12 + v % 2 ^ 12)))

end Sys2Proof.Machine
end

