-- ==== Sys2Proof/Machine/Special.lean ====
section
/-! DEFINITION. Division, roots and the fixed algorithm of R179: f(x) rounded to nearest even to p + 12 bits, then once
to the format. The irrational functions are enclosed in integers of growing width until the enclosure rounds one way. -/

namespace Sys2Proof.Machine

/-- Integer square root, one bit at a time. -/
def isqrtLoop (n : Nat) : Nat → Nat → Nat
  | 0, r => r
  | k + 1, r =>
    let r' := r + 2 ^ k
    isqrtLoop n k (if r' * r' ≤ n then r' else r)

def isqrt (n : Nat) : Nat := isqrtLoop n (bitLen n / 2 + 1) 0

/-- Quotient of two non-zero finite magnitudes to at least 128 bits, with its sticky bit. -/
def divFin (neg : Bool) (m : Nat) (e : Int) (m' : Nat) (e' : Int) : Val :=
  let s := 128 + bitLen m'
  .fin neg (m * 2 ^ s / m') (e - e' - s) (m * 2 ^ s % m' != 0)

/-- Square root of a non-zero finite magnitude to at least 64 bits beyond the widest precision. -/
def sqrtFin (m : Nat) (e : Int) : Val :=
  let odd := (e % 2 != 0 : Bool)
  let m := if odd then 2 * m else m
  let e := if odd then e - 1 else e
  let n := m * 2 ^ 256
  let r := isqrt n
  .fin false r (e / 2 - 128) (r * r != n)

/-- Reciprocal square root: the root of `2^(2k) / m`. -/
def rsqFin (m : Nat) (e : Int) : Val :=
  let odd := (e % 2 != 0 : Bool)
  let m := if odd then 2 * m else m
  let e := if odd then e - 1 else e
  let k := 160 + bitLen m
  let r := isqrt (2 ^ (2 * k) / m)
  .fin false r (-(e / 2) - k) (r * r * m != 2 ^ (2 * k))

/-- Rounds to `n` significant bits, to nearest, ties to even, exponent unbounded (R179 step 2). -/
def roundSig (n : Nat) (neg : Bool) (m : Nat) (e : Int) (st : Bool) : Nat × Int × Bool :=
  let q := expOf m e - (n - 1 : Nat)
  if q ≤ e then (m, e, st)
  else
    let (r, ix) := roundQ rndRNE neg m e st q 0
    (r, q, ix)

-- Fixed point: `a` stands for `a / 2^P`.

/-- `2·Σ z^(2i+1)/(2i+1)`-style series: the sum of `pw/(2i+1)` while the power, divided by `den` each time, lasts. -/
def atanhLoop (den : Nat) : Nat → Nat → Nat → Nat → Nat
  | 0, _, _, s => s
  | n + 1, pw, i, s => if pw = 0 then s else atanhLoop den n (pw / den) (i + 2) (s + pw / i)

/-- ln 2 = 2·atanh(1/3). -/
def ln2Fix (P : Nat) : Nat := atanhLoop 9 P (2 * 2 ^ P / 3) 1 0

/-- Alternating arctangent series of `1/k`. -/
def atanLoop (kk : Nat) : Nat → Nat → Nat → Bool → Int → Int
  | 0, _, _, _, s => s
  | n + 1, pw, i, neg, s =>
    if pw = 0 then s
    else atanLoop kk n (pw / kk) (i + 2) (!neg) (if neg then s - (pw / i : Nat) else s + (pw / i : Nat))

/-- π = 16·atan(1/5) − 4·atan(1/239). -/
def piFix (P : Nat) : Nat :=
  (16 * atanLoop 25 P (2 ^ P / 5) 1 false 0 - 4 * atanLoop (239 * 239) P (2 ^ P / 239) 1 false 0).toNat

/-- Σ t^i/i!. -/
def expLoop (P t : Nat) : Nat → Nat → Nat → Nat → Nat
  | 0, _, _, s => s
  | n + 1, term, i, s => if term = 0 then s else expLoop P t n (term * t / 2 ^ P / i) (i + 1) (s + term)

def expFix (P t : Nat) : Nat := expLoop P t P (2 ^ P) 1 0

/-- Alternating sine or cosine series from its first term; `i` is the next divisor. -/
def trigLoop (P tt : Nat) : Nat → Nat → Nat → Bool → Int → Int
  | 0, _, _, _, s => s
  | n + 1, term, i, neg, s =>
    if term = 0 then s
    else trigLoop P tt n (term * tt / 2 ^ P / (i * (i + 1))) (i + 2) (!neg) (if neg then s - term else s + term)

def sinFix (P t : Nat) : Nat := (trigLoop P (t * t / 2 ^ P) P t 2 false 0).toNat
def cosFix (P t : Nat) : Nat := (trigLoop P (t * t / 2 ^ P) P (2 ^ P) 1 false 0).toNat

/-- atanh of a fixed-point fraction below 1/4. -/
def atanhFixLoop (P zz : Nat) : Nat → Nat → Nat → Nat → Nat
  | 0, _, _, s => s
  | n + 1, pw, i, s => if pw = 0 then s else atanhFixLoop P zz n (pw * zz / 2 ^ P) (i + 2) (s + pw / i)

def atanhFix (P z : Nat) : Nat := atanhFixLoop P (z * z / 2 ^ P) P z 1 0

/-- `m·2^e` in fixed point. -/
def toFix (P m : Nat) (e : Int) : Nat :=
  if 0 ≤ e + P then m * 2 ^ (e + P).toNat else m / 2 ^ (-(e + P)).toNat

/-- Widens the fixed point until the enclosure `approx ± err` rounds one way to `n` bits. The log names the fuel. -/
def ziv (n : Nat) (approx : Nat → Nat) : Nat → Nat → Nat × Int
  | 0, P =>
    let r := roundSig n false (approx P) (-(P : Int)) true
    (r.1, r.2.1)
  | fuel + 1, P =>
    let a := approx P
    let err := 64 * P
    let lo := roundSig n false (a - err) (-(P : Int)) true
    let hi := roundSig n false (a + err) (-(P : Int)) true
    if err < a && lo.1 * 2 ^ (lo.2.1 + P).toNat = hi.1 * 2 ^ (hi.2.1 + P).toNat then (lo.1, lo.2.1)
    else ziv n approx fuel (2 * P)

/-- Fuel of `ziv`. -/
def zivFuel : Nat := 6

/-- The intermediate y of R179: a value to p + 12 bits, and whether it differs from f(x). -/
structure Mid where
  v : Val
  ix : Bool
  deriving DecidableEq, Repr

def Mid.ofZiv (neg : Bool) (r : Nat × Int) : Mid := ⟨.fin neg r.1 r.2 false, true⟩

/-- Rounds an exact or sticky value to p + 12 bits. -/
def Mid.ofVal (n : Nat) (v : Val) : Mid :=
  match v with
  | .fin neg m e st =>
    if m = 0 then ⟨v, st⟩
    else
      let r := roundSig n neg m e st
      ⟨.fin neg r.1 r.2.1 false, r.2.2⟩
  | x => ⟨x, false⟩

/-- 2^x of a finite non-zero x. -/
def exp2Mid (n : Nat) (neg : Bool) (m : Nat) (e : Int) : Mid :=
  let e0 := expOf m e
  if 15 ≤ e0 then ⟨.fin false 1 (if neg then -40000 else 40000) false, decide (e < 0)⟩
  else if 0 ≤ e then
    let k : Int := (m * 2 ^ e.toNat : Nat)
    ⟨.fin false 1 (if neg then -k else k) false, false⟩
  else if e0 < -80 then ⟨.fin false 1 0 false, true⟩
  else
    let s := (-e).toNat
    let q : Int := (m / 2 ^ s : Nat)
    let r := m % 2 ^ s
    if r = 0 then ⟨.fin false 1 (if neg then -q else q) false, false⟩
    else
      let k := if neg then -q - 1 else q
      let r := if neg then 2 ^ s - r else r
      let (a, ae) := ziv n (fun P => expFix P (toFix P r e * ln2Fix P / 2 ^ P)) zivFuel 192
      ⟨.fin false a (ae + k) false, true⟩

/-- log2 x of a finite positive x. -/
def log2Mid (n : Nat) (m : Nat) (e : Int) : Mid :=
  let b := bitLen m
  if m = 2 ^ (b - 1) then ⟨ofInt (e + (b : Int) - 1), false⟩
  else
    -- z = m / 2^s lies in [3/4, 3/2)
    let s := if 3 * 2 ^ (b - 1) ≤ 2 * m then b else b - 1
    let k := e + (s : Int)
    let num : Int := (m : Int) - (2 ^ s : Nat)
    let den := m + 2 ^ s
    -- 2·atanh(num/den) / ln 2, signed
    let part : Nat → Nat := fun P => 2 * atanhFix P (num.natAbs * 2 ^ P / den) * 2 ^ P / ln2Fix P
    let total : Nat → Int := fun P =>
      let t : Int := part P
      k * (2 ^ P : Nat) + (if num < 0 then -t else t)
    let neg := decide (total 256 < 0)
    Mid.ofZiv neg (ziv n (fun P => (total P).natAbs) zivFuel 256)

/-- sin(π·x) for `0 < x ≤ 1/4` given as `m·2^e`, or cos(π·x) with `c`. -/
def trigPart (n : Nat) (c : Bool) (m : Nat) (e : Int) : Nat × Int :=
  let e0 := expOf m e
  if c then
    if e0 < -80 then (1, 0)
    else ziv n (fun P => cosFix P (toFix P m e * piFix P / 2 ^ P)) zivFuel 256
  else
    -- scale the argument so that small ones keep their bits
    let base := 192 + (-e0).toNat
    ziv n (fun P => sinFix P (toFix P m e * piFix P / 2 ^ P)) zivFuel base

/-- sin(π·x), or cos with `c`, of a finite x. -/
def trigMid (n : Nat) (c : Bool) (neg : Bool) (m : Nat) (e : Int) : Mid :=
  -- |x| = i/2 + r with 0 ≤ r < 1/2
  let (i, rn, re) : Nat × Nat × Int :=
    if 0 ≤ e + 1 then (m * 2 ^ (e + 1).toNat, 0, 0)
    else let s := (-(e + 1)).toNat; (m / 2 ^ s, m % 2 ^ s, e)
  let quad := i % 4
  if rn = 0 then
    -- multiples of one half
    if c then
      if quad % 2 = 1 then ⟨.fin false 0 0 false, false⟩ else ⟨.fin (quad == 2) 1 0 false, false⟩
    else if quad % 2 = 0 then ⟨.fin neg 0 0 false, false⟩
    else ⟨.fin (neg != (quad == 3)) 1 0 false, false⟩
  else
    let odd := quad % 2 = 1
    let useCos := if odd then !c else c
    let sgn :=
      if c then quad == 1 || quad == 2
      else neg != (decide (2 ≤ quad))
    -- fold r > 1/4 onto 1/2 − r
    let half := 2 ^ (-(re + 1)).toNat
    let (r', cc) := if half < 2 * rn then (half - rn, !useCos) else (rn, useCos)
    let (a, ae) := trigPart n cc r' re
    ⟨.fin sgn a ae false, true⟩

/-- tanh of a finite non-zero x. -/
def tanhMid (n : Nat) (neg : Bool) (m : Nat) (e : Int) : Mid :=
  let e0 := expOf m e
  if 5 ≤ e0 then ⟨.fin neg 1 0 false, true⟩
  else if e0 < -1 then
    -- (exp(2x) − 1) / (exp(2x) + 1) with the leading 1 kept apart
    let base := 256 + 2 * (-e0).toNat
    Mid.ofZiv neg (ziv n (fun P =>
      let w := expFix P (2 * toFix P m e)
      (w - 2 ^ P) * 2 ^ P / (w + 2 ^ P)) zivFuel base)
  else
    Mid.ofZiv neg (ziv n (fun P =>
      -- exp(2x) as the 128th power of exp(x/64)
      let w := (List.range 7).foldl (fun a _ => a * a / 2 ^ P) (expFix P (toFix P m e / 64))
      (w - 2 ^ P) * 2 ^ P / (w + 2 ^ P)) zivFuel 512)

/-- The long-latency functions of Table 11-2. -/
inductive SFn | rcp | rsq | sqrt | exp2 | log2 | sin | cos | tanh
  deriving DecidableEq, Repr

/-- Step 3 of R179 on an intermediate. -/
def finishMid (f : Nat) (c : Rnd) (d : Nat) (y : Mid) : Nat × Flags :=
  let (b, fl) := roundTo f c d y.v
  (b, fl ||| flIf y.ix flNX)

/-- One element of FRCP to FTANH (R178, R179); FSQRT rounds once. -/
def specialFn (fn : SFn) (f : Nat) (c : Rnd) (d : Nat) (x : Val) : Nat × Flags :=
  let n := (ffmt f).prec + 12
  let nan : Nat × Flags := (canonNaN f, flNV)
  match x with
  | .nan s => (canonNaN f, flIf s flNV)
  | .inf neg =>
    match fn with
    | .rcp => (withSign f neg 0, 0)
    | .rsq => if neg then nan else (0, 0)
    | .sqrt => if neg then nan else roundTo f c d x
    | .exp2 => if neg then (0, 0) else roundTo f c d x
    | .log2 => if neg then nan else roundTo f c d x
    | .sin => nan
    | .cos => nan
    | .tanh => roundTo f c d (.fin neg 1 0 false)
  | .fin neg m e _ =>
    if m = 0 then
      match fn with
      | .rcp => (infBits f neg, flDZ)
      | .rsq => (infBits f neg, flDZ)
      | .sqrt => (withSign f neg 0, 0)
      | .exp2 => roundTo f c d (.fin false 1 0 false)
      | .log2 => (infBits f true, flDZ)
      | .sin => (withSign f neg 0, 0)
      | .cos => roundTo f c d (.fin false 1 0 false)
      | .tanh => (withSign f neg 0, 0)
    else
      match fn with
      | .rcp => finishMid f c d (Mid.ofVal n (divFin neg 1 0 m e))
      | .rsq => if neg then nan else finishMid f c d (Mid.ofVal n (rsqFin m e))
      | .sqrt => if neg then nan else roundTo f c d (sqrtFin m e)
      | .exp2 => finishMid f c d (exp2Mid n neg m e)
      | .log2 => if neg then nan else finishMid f c d (log2Mid n m e)
      | .sin => finishMid f c d (trigMid n false neg m e)
      | .cos => finishMid f c d (trigMid n true neg m e)
      | .tanh => finishMid f c d (tanhMid n neg m e)

/-- One element of FDIV (R178). -/
def divide (f : Nat) (c : Rnd) (d : Nat) (a b : Val) : Nat × Flags :=
  let sg := a.isNeg != b.isNeg
  match a, b with
  | .nan s, y => (canonNaN f, flIf (s || y.isSNaN) flNV)
  | _, .nan s => (canonNaN f, flIf s flNV)
  | .inf _, .inf _ => (canonNaN f, flNV)
  | .inf _, .fin _ _ _ _ => roundTo f c d (.inf sg)
  | .fin _ _ _ _, .inf _ => (withSign f sg 0, 0)
  | .fin _ m e _, .fin _ m' e' _ =>
    if m' = 0 then (if m = 0 then (canonNaN f, flNV) else (infBits f sg, flDZ))
    else if m = 0 then (withSign f sg 0, 0)
    else roundTo f c d (divFin sg m e m' e')

end Sys2Proof.Machine
end

