-- ==== Sys2Proof/Machine/Float.lean ====
section
/-! DEFINITION. Vector float, long-latency float, conversion and tag instructions (R167 to R187). -/

namespace Sys2Proof.Machine

/-- Results of one lane, threading its LFSR: each element draws once under SR (R86), also one whose special result is not
rounded (log 69). -/
def drawEach {α : Type} (c : Rnd) (g : α → Nat → Nat × Flags) : List α → Word → List Nat × Flags × Word
  | [], s => ([], 0, s)
  | x :: r, s =>
    let (d, s1) := drawFor c s
    let (b, fl) := g x d
    let (bs, fl', s2) := drawEach c g r s1
    (b :: bs, fl ||| fl', s2)

/-- The result of a register instruction whose lanes draw. -/
def drawLanes (c : Crew) (h : Heat) (ws : List (List Nat) → List RegW) (g : Nat → Word → List Nat × Flags × Word) : Res :=
  let m := c.lanes h
  let out := (List.range 32).map (fun l =>
    if m.getLsbD l then g l (lane h.wrk.lfsr l) else ([], 0, lane h.wrk.lfsr l))
  ⟨ws (out.map Prod.fst), orFlags (out.map (fun o => o.2.1)),
    if (modeRnd h.wrk.mode).mode = rndSR then some (out.map (fun o => o.2.2)) else none⟩

/-- One element: format, rounding half of MODE, draw, bits of A, B and D. -/
abbrev FElem := Nat → Rnd → Nat → Nat → Nat → Nat → Nat × Flags

/-- Pair legality of R68 for the operating format. -/
def pairsLegal (is64 : Bool) (os : List (BitVec 5)) (e : BitVec 3) : Bool := !is64 || os.all (fun o => pairOk o e)

/-- Float arithmetic by R172: `tag` the destination's format, `bTag` the format of B. -/
def floatCalc (o : OpU) (rd : Reads) (draws : Bool) (bTag tag : Nat → Nat) (op : FElem) : Crew → Heat → Except Stop Res :=
  fun c h =>
  let r := h.wrk
  let f := modeFmt r.mode
  let rn := modeRnd r.mode
  let ka := h.keys o.a o.e
  let kb := if rd.b && !o.k then h.keys o.b o.e else []
  let kd := h.keys o.d o.e
  let legal := pairsLegal (f == fmtFP64) ([o.d, o.a] ++ (if rd.b && !o.k then [o.b] else [])) o.e
  let fmtOk := fmtIsFloat f && r.accepts f ka && r.accepts (bTag f) kb && (!rd.d || r.accepts f kd)
  match c.check h (ka ++ kb ++ (if rd.d then kd else [])) kd [] legal fmtOk with
  | .error e => .error e
  | .ok () =>
    let w := slotBits f
    .ok (drawLanes c h (fun out => vecW kd (c.lanes h) out (fun _ => tag f)) (fun l st =>
      let ea := elemsOf w (r.at_ ka l)
      let eb := elemsOf w (if rd.b then r.opB o (w == 64) kb l else [])
      let ed := elemsOf w (if rd.d then r.at_ kd l else [])
      let (bs, fl, st') := drawEach (if draws then rn else { rn with mode := rndRNE })
        (fun i d => op f rn d (ea.getD i 0) (eb.getD i 0) (ed.getD i 0)) (List.range ea.length) st
      (regsOfElems w bs, fl, st')))

def sameFmt (f : Nat) : Nat := f

/-- A rounded result of exact values. -/
def opRound (g : Bool → Val → Val → Val → Val × Flags) : FElem := fun f c d a b x =>
  let v := g (c.mode == rndRDN) (valOf f c.ftz a) (valOf f c.ftz b) (valOf f c.ftz x)
  let r := roundTo f c d v.1
  (r.1, r.2 ||| v.2)

def valFma (rdn neg : Bool) (a b d : Val) : Val × Flags :=
  let p := mulVal a b
  let s := sumVals rdn [d, if neg then p.1.neg else p.1]
  (s.1, p.2 ||| s.2)

/-- An exact operation gives a NaN in canonical form (R172), and saturates an infinity of its operand (R85). -/
def exactOf (f : Nat) (c : Rnd) (v : Val) (b : Nat) : Nat × Flags :=
  match v with
  | .nan s => (canonNaN f, flIf s flNV)
  | .inf _ => (encInf f c.sat (signOf f b), 0)
  | .fin _ _ _ _ => (b, 0)

def magOf (f x : Nat) : Nat := x % 2 ^ (ffmt f).signAt

def opFabs : FElem := fun f c _ a _ _ => exactOf f c (valOf f c.ftz a) (magOf f (flushIn f c.ftz a))
def opFneg : FElem := fun f c _ a _ _ =>
  exactOf f c (valOf f c.ftz a) (withSign f (!signOf f a) (magOf f (flushIn f c.ftz a)))
/-- FCPYS: a signalling NaN of either operand sets NV (R70). -/
def opFcpys : FElem := fun f c _ a b _ =>
  let r := exactOf f c (valOf f c.ftz a) (withSign f (signOf f b) (magOf f (flushIn f c.ftz a)))
  (r.1, r.2 ||| flIf (valOf f c.ftz b).isSNaN flNV)

/-- FMIN and FMAX: −0 is below +0. -/
def minMax (mx : Bool) (f : Nat) (ftz : Bool) (a b : Nat) : Nat × Flags :=
  let x := valOf f ftz a
  let y := valOf f ftz b
  let nv := flIf (x.isSNaN || y.isSNaN) flNV
  let o := cmpVal x y
  let less := o == -1 || (o == 0 && x.isNeg && !y.isNeg)
  if x.isNaN && y.isNaN then (canonNaN f, nv)
  else if x.isNaN then (flushIn f ftz b, nv)
  else if y.isNaN then (flushIn f ftz a, nv)
  else (flushIn f ftz (if less != mx then a else b), nv)

/-- FSCALE: infinities and zeros pass through; a scale beyond every exponent of the formats acts as the bound. -/
def opFscale : FElem := fun f c d a b _ =>
  let n := max (-9000) (min 9000 (signed (slotBits f) b))
  match valOf f c.ftz a with
  | .fin s m e st => if m = 0 then (withSign f s 0, 0) else roundTo f c d (.fin s m (e + n) st)
  | .inf s => (infBits f s, 0)
  | v => roundTo f c d v

/-- FRND. -/
def opFrnd : FElem := fun f c d a _ _ =>
  match valOf f c.ftz a with
  | .nan s => (canonNaN f, flIf s flNV)
  | .inf s => (infBits f s, 0)
  | .fin s m e st =>
    if m = 0 || ((ffmt f).prec : Int) - 1 ≤ expOf m e then (flushIn f c.ftz a, 0)
    else
      let (n, ix) := roundQ c.mode s m e st 0 d
      ((roundFin f { c with mode := rndRNE } 0 s n 0 false).1, flIf ix flNX)

/-- The class mask of FCLASS (R176). -/
def classMask (f x : Nat) : Nat :=
  let neg := signOf f x
  match decodeVal f x with
  | .nan s => if s then 2 ^ 8 else 2 ^ 9
  | .inf _ => if neg then 2 ^ 0 else 2 ^ 7
  | .fin _ m _ _ =>
    if m = 0 then (if neg then 2 ^ 3 else 2 ^ 4)
    else if isSubnormal f x then (if neg then 2 ^ 2 else 2 ^ 5)
    else (if neg then 2 ^ 1 else 2 ^ 6)

def intOfFloat (f : Nat) : Nat := if f = fmtFP64 then fmtINT64 else if f = fmtFP32 then fmtINT32 else fmtINT16

/-- FDOT2 (R173). A source tagged BITS beside a uniform B is read as BF16, as two BITS sources are (DESIGN CHOICE, log 84). -/
def fdot2Calc (o : OpU) : Crew → Heat → Except Stop Res := fun c h =>
  let r := h.wrk
  let rn := modeRnd r.mode
  let ka := h.keys o.a o.e
  let kb := if o.k then [] else h.keys o.b o.e
  let kd := h.keys o.d o.e
  let tags := ((ka ++ kb).map r.rdTag).filter (· != fmtBITS)
  let g := tags.headD fmtBF16
  let fmtOk := modeFmt r.mode == fmtFP32 && (g == fmtFP16 || g == fmtBF16) && tags.all (· == g) && r.accepts fmtFP32 kd
  match c.check h (ka ++ kb ++ kd) kd [] true fmtOk with
  | .error e => .error e
  | .ok () =>
    .ok (drawLanes c h (fun out => vecW kd (c.lanes h) out (fun _ => fmtFP32)) (fun l st =>
      let as := r.at_ ka l
      let bs := r.opB o false kb l
      let ds := r.at_ kd l
      drawEach rn (fun i d =>
        let v : Nat → Nat → Val := fun x j => valOf g rn.ftz (bits x (16 * j) 16)
        let p0 := mulVal (v (as.getD i 0) 0) (v (bs.getD i 0) 0)
        let p1 := mulVal (v (as.getD i 0) 1) (v (bs.getD i 0) 1)
        let t := sumVals (rn.mode == rndRDN) [valOf fmtFP32 rn.ftz (ds.getD i 0), p0.1, p1.1]
        let q := roundTo fmtFP32 rn d t.1
        (q.1, q.2 ||| t.2 ||| p0.2 ||| p1.2)) (List.range as.length) st))

/-- FCMP (R175). -/
def fcmpCalc (cc : FCond) (o : OpU) : Crew → Heat → Except Stop Res := fun c h =>
  let r := h.wrk
  let f := modeFmt r.mode
  let ftz := (modeRnd r.mode).ftz
  let ka := h.keys o.a o.e
  let kb := if o.k then [] else h.keys o.b o.e
  let legal := pairsLegal (f == fmtFP64) ([o.a] ++ (if o.k then [] else [o.b])) o.e
  match c.check h (ka ++ kb) [] [nameP o.d] legal (fmtIsFloat f && r.accepts f ka && r.accepts f kb) with
  | .error e => .error e
  | .ok () =>
    let w := slotBits f
    let m := c.lanes h
    let out := perLane m ([] : List (Bool × Flags)) (fun l =>
      let ea := elemsOf w (r.at_ ka l)
      let eb := elemsOf w (r.opB o (w == 64) kb l)
      (List.range ea.length).map (fun i => fcondHolds cc (valOf f ftz (ea.getD i 0)) (valOf f ftz (eb.getD i 0))))
    .ok ⟨[.p o.d.toNat m (maskOf (fun l => (out.getD l []).all Prod.fst))],
      orFlags (out.flatMap (fun x => x.map Prod.snd)), none⟩

def floatWord (i : Instr) (o : OpU) (rd : Reads) (draws : Bool) (op : FElem) (s : State) : Host.Outcome State Fault Refusal :=
  vecWord i o (floatCalc o rd draws sameFmt sameFmt op) s

def execFadd (o : OpU) (s : State) : Host.Outcome State Fault Refusal :=
  floatWord (.fadd o) o readsB true (opRound (fun z a b _ => valAdd z a b)) s
def execFsub (o : OpU) (s : State) : Host.Outcome State Fault Refusal :=
  floatWord (.fsub o) o readsB true (opRound (fun z a b _ => valAdd z a b.neg)) s
def execFmul (o : OpU) (s : State) : Host.Outcome State Fault Refusal :=
  floatWord (.fmul o) o readsB true (opRound (fun _ a b _ => mulVal a b)) s
def execFmin (o : OpU) (s : State) : Host.Outcome State Fault Refusal :=
  floatWord (.fmin o) o readsB false (fun f c _ a b _ => minMax false f c.ftz a b) s
def execFmax (o : OpU) (s : State) : Host.Outcome State Fault Refusal :=
  floatWord (.fmax o) o readsB false (fun f c _ a b _ => minMax true f c.ftz a b) s
def execFabs (o : OpV) (s : State) : Host.Outcome State Fault Refusal :=
  floatWord (.fabs o) (vAsU o) readsA false opFabs s
def execFneg (o : OpV) (s : State) : Host.Outcome State Fault Refusal :=
  floatWord (.fneg o) (vAsU o) readsA false opFneg s
def execFcpys (o : OpU) (s : State) : Host.Outcome State Fault Refusal :=
  floatWord (.fcpys o) o readsB false opFcpys s
def execFscale (o : OpU) (s : State) : Host.Outcome State Fault Refusal :=
  vecWord (.fscale o) o (floatCalc o readsB true intOfFloat sameFmt opFscale) s
def execFrnd (o : OpV) (s : State) : Host.Outcome State Fault Refusal :=
  floatWord (.frnd o) (vAsU o) readsA true opFrnd s
def execFfma (o : OpU) (s : State) : Host.Outcome State Fault Refusal :=
  floatWord (.ffma o) o readsBD true (opRound (fun z a b d => valFma z false a b d)) s
def execFfms (o : OpU) (s : State) : Host.Outcome State Fault Refusal :=
  floatWord (.ffms o) o readsBD true (opRound (fun z a b d => valFma z true a b d)) s
def execFdot2 (o : OpU) (s : State) : Host.Outcome State Fault Refusal :=
  vecWord (.fdot2 o) o (fdot2Calc o) s
def execFcmp (cc : FCond) (o : OpU) (s : State) : Host.Outcome State Fault Refusal :=
  vecWord (.fcmp cc o) o (fcmpCalc cc o) s
def execFclass (o : OpV) (s : State) : Host.Outcome State Fault Refusal :=
  vecWord (.fclass o) (vAsU o) (floatCalc (vAsU o) readsA false sameFmt intOfFloat (fun f _ _ a _ _ => (classMask f a, 0))) s

-- Long-latency functions (R177 to R179).

def lAsU (o : OpL) : OpU := ⟨o.d, o.a, 0, o.e, 0, false⟩

def longFloat (i : Instr) (o : OpL) (fn : SFn) (s : State) : Host.Outcome State Fault Refusal :=
  s.crewWord i.wf (regEff o.l.toNat heldNone (floatCalc (lAsU o) readsA true sameFmt sameFmt
    (fun f c d a _ _ => specialFn fn f c d (valOf f c.ftz a))))

def execFrcp (o : OpL) (s : State) : Host.Outcome State Fault Refusal := longFloat (.frcp o) o .rcp s
def execFrsq (o : OpL) (s : State) : Host.Outcome State Fault Refusal := longFloat (.frsq o) o .rsq s
def execFsqrt (o : OpL) (s : State) : Host.Outcome State Fault Refusal := longFloat (.fsqrt o) o .sqrt s
def execFexp2 (o : OpL) (s : State) : Host.Outcome State Fault Refusal := longFloat (.fexp2 o) o .exp2 s
def execFlog2 (o : OpL) (s : State) : Host.Outcome State Fault Refusal := longFloat (.flog2 o) o .log2 s
def execFsin (o : OpL) (s : State) : Host.Outcome State Fault Refusal := longFloat (.fsin o) o .sin s
def execFcos (o : OpL) (s : State) : Host.Outcome State Fault Refusal := longFloat (.fcos o) o .cos s
def execFtanh (o : OpL) (s : State) : Host.Outcome State Fault Refusal := longFloat (.ftanh o) o .tanh s

def execFdiv (o : OpLB) (s : State) : Host.Outcome State Fault Refusal :=
  s.crewWord (Instr.wf (.fdiv o)) (regEff o.l.toNat heldNone
    (floatCalc ⟨o.d, o.a, o.b, o.e, 0, false⟩ readsB true sameFmt sameFmt
      (fun f c d a b _ => divide f c d (valOf f c.ftz a) (valOf f c.ftz b))))

-- Conversion (R180 to R183).

/-- A value encoded into a format by Table 5-8, Grist apart. -/
def convertTo (f : Nat) (sgn : Bool) (c : Rnd) (d : Nat) (v : Val) : Nat × Flags :=
  if fmtIsInt f then roundInt (slotBits f) sgn c d v
  else if f = fmtE8M0 then roundE8M0 c d v
  else roundTo f c d v

/-- Registers as one number, the first lowest, and back. -/
def joinRegs (rs : List Nat) : Nat :=
  match rs with
  | [] => 0
  | r :: t => r + 2 ^ 32 * joinRegs t
def splitRegs (m n : Nat) : List Nat := (List.range m).map (fun i => bits n (32 * i) 32)

/-- The exact values of `n` elements of format `f` held in registers. -/
def valuesOf (f : Nat) (sgn ftz : Bool) (n : Nat) (rs : List Nat) : List Val :=
  if fmtIsGrist f then
    let sb := 8 * gristBytes f
    (List.range (n / 16)).flatMap (fun i => gristDecode f (bits (joinRegs rs) (sb * i) sb))
  else
    ((elemsOf (slotBits f) rs).take n).map (fun x =>
      if fmtIsInt f then ofInt (intVal (slotBits f) sgn x) else valOf f ftz x)

/-- Sixteen draws. -/
def draws16 (c : Rnd) : Nat → Word → List Nat × Word
  | 0, s => ([], s)
  | n + 1, s =>
    let (d, s1) := drawFor c s
    let (ds, s2) := draws16 c n s1
    (d :: ds, s2)

/-- Values into Grist blocks of sixteen, as one number. -/
def gristStream (f : Nat) (c : Rnd) : Nat → List Val → Word → Nat × Flags × Word
  | 0, _, s => (0, 0, s)
  | n + 1, vs, s =>
    let (ds, s1) := draws16 c 16 s
    let (b, fl) := gristEncode f c ds (vs.take 16)
    let (r, fl', s2) := gristStream f c n (vs.drop 16) s1
    (b + 2 ^ (8 * gristBytes f) * r, fl ||| fl', s2)

/-- CVT and CVTI. -/
def cvtCalc (int : Bool) (o : OpLB) : Crew → Heat → Except Stop Res := fun c h =>
  let r := h.wrk
  let rn := modeRnd r.mode
  let sgn := modeSgn r.mode
  let b := o.b.toNat
  let f := modeFmt r.mode
  let m := extN o.e
  let n := if fmtIsGrist b then capOf f m else capOf b m
  let na := if fmtIsGrist b then regsOf b n else m
  let nd := if fmtIsGrist b then m else regsOf f n
  let legal :=
    (if fmtIsGrist b then blockOk o.d o.e && (!fmtIs64 f || pairOk o.d o.e) && derivedOk false o.a.toNat na
     else blockOk o.a o.e && (!fmtIs64 b || pairOk o.a o.e) && derivedOk (fmtIs64 f) o.d.toNat nd)
    && (!(fmtIsGrist f || fmtIsGrist b) || (n != 0 && n % 16 == 0))
  let ka := if fmtIsGrist b then h.dkeys o.a na else h.keys o.a o.e
  let kd := if fmtIsGrist b then h.keys o.d o.e else h.dkeys o.d nd
  let fmtOk := f != fmtBITS && (if int then fmtIsInt b || fmtIsInt f else !fmtIsInt f) && r.accepts b ka
  match c.check h ka kd [] legal fmtOk with
  | .error e => .error e
  | .ok () =>
    .ok (drawLanes c h (fun out => vecW kd (c.lanes h) out (fun _ => f)) (fun l st =>
      let rs := r.at_ ka l
      if fmtIsInt b && fmtIsInt f then
        let es := ((elemsOf (slotBits b) rs).take n).map (fun x =>
          intResult (slotBits f) sgn rn.sat (intVal (slotBits b) sgn x))
        (regsOfElems (slotBits f) (es.map Prod.fst), orFlags (es.map Prod.snd), st)
      else
        let vs := valuesOf b sgn rn.ftz n rs
        if fmtIsGrist f then
          let (x, fl, st') := gristStream f rn (n / 16) vs st
          (splitRegs nd x, fl, st')
        else
          let (bs, fl, st') := drawEach rn (fun v d => convertTo f sgn rn d v) vs st
          (regsOfElems (slotBits f) bs, fl, st')))

def execCvt (o : OpLB) (s : State) : Host.Outcome State Fault Refusal :=
  s.crewWord (Instr.wf (.cvt o)) (regEff o.l.toNat heldNone (cvtCalc false o))
def execCvti (o : OpLB) (s : State) : Host.Outcome State Fault Refusal :=
  s.crewWord (Instr.wf (.cvti o)) (regEff o.l.toNat heldNone (cvtCalc true o))

-- Packing and tags (R186, R187).

/-- Formats that PACK and UNPACK take. -/
def packFmt (f : Nat) : Bool :=
  f == fmtINT8 || f == fmtINT16 || f == fmtFP16 || f == fmtBF16 || fmtIsOcp f || f == fmtE8M0

/-- PACK and UNPACK; a format that the entry refuses gives FORMAT, whatever its derived block (log 68). -/
def packCalc (un : Bool) (o : OpV) : Crew → Heat → Except Stop Res := fun c h =>
  let r := h.wrk
  let f := modeFmt r.mode
  let m := extN o.e
  let nd := if un then m * epr f else ceilDiv m (epr f)
  let ka := h.keys o.a o.e
  let kd := h.dkeys o.d nd
  let tags := [f, fmtBITS] ++ (if !un && fmtIsInt f then [fmtINT8, fmtINT16, fmtINT32, fmtINT64] else [])
  match c.check h ka kd [] (!packFmt f || derivedOk false o.d.toNat nd) (packFmt f && r.tagsIn ka tags) with
  | .error e => .error e
  | .ok () =>
    let ew := elemBits f
    let out := perLane (c.lanes h) [] (fun l =>
      let rs := r.at_ ka l
      if un then (elemsOf (slotBits f) rs).map (· % 2 ^ ew)
      else regsOfElems (slotBits f) (rs.map (· % 2 ^ ew)))
    .ok ⟨vecW kd (c.lanes h) out (fun _ => f), 0, none⟩

def execPack (o : OpV) (s : State) : Host.Outcome State Fault Refusal :=
  vecWord (.pack o) (vAsU o) (packCalc false o) s
def execUnpack (o : OpV) (s : State) : Host.Outcome State Fault Refusal :=
  vecWord (.unpack o) (vAsU o) (packCalc true o) s

def execTag (d f : BitVec 5) (e : BitVec 3) (s : State) : Host.Outcome State Fault Refusal :=
  s.crewWord (Instr.wf (.tag d f e)) (regEff 0 heldNone (fun c h =>
    let kd := h.keys d e
    match c.check h [] kd [] true true with
    | .error x => .error x
    | .ok () => .ok ⟨kd.map (fun k => .v k 0 zeroLanes f.toNat), 0, none⟩))

def execRetag (o : OpV) (f : BitVec 5) (s : State) : Host.Outcome State Fault Refusal :=
  s.crewWord (Instr.wf (.retag o f)) (regEff 0 (heldV o) (fun c h =>
    let ka := h.keys o.a o.e
    let kd := h.keys o.d o.e
    match c.check h ka kd [] true true with
    | .error x => .error x
    | .ok () =>
      .ok ⟨vecW kd (c.lanes h) (perLane (c.lanes h) [] (h.wrk.at_ ka)) (fun _ => f.toNat), 0, none⟩))

-- Scaled blocks (R184, R185).

/-- Byte `b mod 4` of register `b div 4`. -/
def scaleByte (rs : List Nat) (b : Nat) : Nat := bits (rs.getD (b / 4) 0) (8 * (b % 4)) 8

/-- QSCALE; a format that the entry refuses gives FORMAT, whatever its derived blocks (log 68). -/
def qscaleCalc (o : OpLB) : Crew → Heat → Except Stop Res := fun c h =>
  let r := h.wrk
  let rn := modeRnd r.mode
  let f := modeFmt r.mode
  let n := extN o.e * epr f
  let nb := ceilDiv (ceilDiv n 32) 4
  let ka := h.keys o.a o.e
  let kb := h.dkeys o.b nb
  let kd := h.dkeys o.d n
  let ok := fmtIsOcp f
  match c.check h (ka ++ kb) kd [] (!ok || (derivedOk false o.d.toNat n && derivedOk false o.b.toNat nb))
      (ok && r.accepts f ka && r.accepts fmtE8M0 kb) with
  | .error e => .error e
  | .ok () =>
    .ok (drawLanes c h (fun out => vecW kd (c.lanes h) out (fun _ => fmtFP32)) (fun l st =>
      let es := elemsOf (slotBits f) (r.at_ ka l)
      let sc := r.at_ kb l
      drawEach rn (fun j d =>
        let s := scaleByte sc (j / 32)
        roundTo fmtFP32 rn d (if s = 255 then .nan false else scaleVal (valOf f rn.ftz (es.getD j 0)) ((s : Int) - 127)))
        (List.range n) st))

/-- Blocks of 32 values: scale bytes, elements, flags. -/
def mxBlocks (f : Nat) (c : Rnd) : Nat → List Val → List Nat → List Nat × List Nat × Flags
  | 0, _, _ => ([], [], 0)
  | n + 1, vs, ds =>
    let (sc, es, fl) := mxEncode f c (ds.take 32) (vs.take 32)
    let (scs, es', fl') := mxBlocks f c n (vs.drop 32) (ds.drop 32)
    (sc :: scs, es ++ es', fl ||| fl')

/-- MXSCALE; a format or tag that the entry refuses gives FORMAT, whatever its derived blocks (log 68). -/
def mxscaleCalc (o : OpLB) : Crew → Heat → Except Stop Res := fun c h =>
  let r := h.wrk
  let rn := modeRnd r.mode
  let f := modeFmt r.mode
  let ka := h.keys o.a o.e
  let read : Nat → Nat := fun k => if r.rdTag k = fmtBITS then fmtFP32 else r.rdTag k
  let n := (ka.map (fun k => epr (read k))).sum
  let nb := ceilDiv (ceilDiv n 32) 4
  let nd := regsOf f n
  let kb := h.dkeys o.b nb
  let kd := h.dkeys o.d nd
  let ok := fmtIsOcp f && r.tagsIn ka [fmtFP32, fmtFP16, fmtBF16, fmtBITS]
  let legal := derivedOk false o.d.toNat nd && derivedOk false o.b.toNat nb && !(kd.any kb.contains)
  match c.check h ka (kd ++ kb) [] (!ok || legal) ok with
  | .error e => .error e
  | .ok () =>
    .ok (drawLanes c h (fun out => vecW kd (c.lanes h) (out.map (fun x => x.take nd)) (fun _ => f)
        ++ vecW kb (c.lanes h) (out.map (fun x => x.drop nd)) (fun _ => fmtE8M0)) (fun l st =>
      let vs := (List.range ka.length).flatMap (fun i =>
        let k := ka.getD i 0
        (elemsOf (slotBits (read k)) (r.at_ [k] l)).map (valOf (read k) rn.ftz))
      let (ds, st') := draws16 rn n st
      let (scs, es, fl) := mxBlocks f rn (ceilDiv n 32) vs ds
      (regsOfElems (slotBits f) es ++ splitRegs nb (joinRegs (regsOfElems 8 scs)), fl, st')))

def execQscale (o : OpLB) (s : State) : Host.Outcome State Fault Refusal :=
  s.crewWord (Instr.wf (.qscale o)) (regEff o.l.toNat heldNone (qscaleCalc o))
def execMxscale (o : OpLB) (s : State) : Host.Outcome State Fault Refusal :=
  s.crewWord (Instr.wf (.mxscale o)) (regEff o.l.toNat heldNone (mxscaleCalc o))

end Sys2Proof.Machine
end

