-- ==== Sys2Proof/Machine/Sluice.lean ====
section
/-! DEFINITION. The Sluice: residency of frame blocks, spills and refills, linkage and divergence-stack units
(R44, R57 to R59, R65, R320, R366, R367, R410). Register values do not move with their blocks (log 8). -/

namespace Sys2Proof.Machine

-- What is in use.

/-- Blocks of a range of registers. -/
def blockRange (lo hi : Nat) : List Nat := (List.range (hi / 8 + 1 - lo / 8)).map (fun i => lo / 8 + i)

def Crew.useBlocks (c : Crew) : List Nat :=
  (([0, 1] : List Nat).flatMap (fun n => match c.useRange n with
    | some (lo, hi) => blockRange lo hi
    | none => [])).eraseDups

/-- Blocks of a slot's current window. -/
def Crew.winBlocks (c : Crew) (n : Nat) : List Nat :=
  match c.useRange n with
  | some (_, hi) => blockRange (hi - 23) hi
  | none => []

/-- A block that holds a register of a token block (R284, R410), or of one that the open heat gives (R282). -/
def Crew.tokBlock (c : Crew) (b : Nat) : Bool :=
  c.tokWords.any (fun w => decide (tokBase w < 8 * b + 8) && decide (8 * b < tokBase w + tokCount w))

/-- Linkage records held by some slot, entry or pending group, shared ones once (R417). -/
def Crew.records (c : Crew) : List Nat :=
  (((c.s0.chain ++ c.s1.chain) ++ c.stack.flatMap (fun e => e.chain)
    ++ (match c.split with
      | some sp => sp.groups.flatMap (fun e => e.chain)
      | none => [])).map (fun r => r.uid)).eraseDups

-- The spill area.

def linkItem (n : Nat) : Nat := 200 + n
def stackItem (n : Nat) : Nat := 400 + n

/-- Places of a crew's area (R366). -/
def State.spillPlaces (s : State) (c : Crew) : Nat := match s.region c.rk with
  | some r => r.spillc / 1024
  | none => 0

def State.spillAddr (s : State) (c : Crew) (place : Nat) : Nat := match s.region c.rk with
  | some r => r.spill + (c.team * r.crews + c.no) * r.spillc + 1024 * place
  | none => 0

/-- The lowest free place. -/
def State.freePlace (s : State) (c : Crew) : Option Nat :=
  (List.range (s.spillPlaces c)).find? (fun p => (Tab.find c.ring.spilled p).isNone)

def Crew.placeOf (c : Crew) (item : Nat) : Option Nat := (c.ring.spilled.find? (fun kv => kv.2 == item)).map Prod.fst

/-- The Sluice translates a place; its faults are WINDOW, with INFO 4 for a spill and 5 for a refill (R367). -/
def State.sluiceXlate (s : State) (id place kind : Nat) : State × Except Fail Hit :=
  match s.crew id with
  | none => (s, .error ⟨cWINDOW, kind, 0⟩)
  | some c =>
    let va := s.spillAddr c place
    let w := s.whoCrew id c
    let k := if kind = 4 then aWrite else aRead
    let bad : Fail := ⟨cWINDOW, kind, va⟩
    match s.translateNow w va k with
    | (s, .ok h) => (s, .ok h)
    | (s, _) => (s, .error bad)

/-- The bytes of a place after a spill: an arrangement of the device's own (R366), so free values (log 8). -/
def State.spillBytes (s : State) (h : Hit) : State :=
  let m := s.mem
  let free : Memory → Nat → Memory := fun g a => Memory.putBytes g a ((List.range 1024).map (fun i => Config.freeByte (s.freeCount + i)))
  match h.sp with
  | .pkg => s.devArea h.pa 1024
  | .peer => { s with mem := { m with peer := free m.peer h.pa }, freeCount := s.freeCount + 1024 }
  | .ext _ p => { s with mem := { m with ext := free m.ext (extAddr p h.pa) }, freeCount := s.freeCount + 1024 }
  | _ => s

def Crew.updRing (c : Crew) (f : Ring → Ring) : Crew := { c with ring := f c.ring }

/-- A block dropped without being written (R410): what its registers hold afterwards is a free value. -/
def State.dropBlock (s : State) (id b : Nat) : State :=
  let put : Regs → Regs := fun r => { r with
    v := (List.range 8).foldl (fun t i =>
      Tab.put t (8 * b + i) (lanesOf (fun l => (Config.freeDWord (s.freeCount + 32 * i + l)).setWidth 32))) r.v }
  let s' := s.updCrew id (fun c =>
    { (c.updRing (fun r => { r with resident := r.resident.filter (· != b) })) with
      com := put c.com, heat := c.heat.map (fun h => { h with wrk := put h.wrk }) })
  { s' with freeCount := s'.freeCount + 256 }

/-- Writes an item to a place. -/
def State.spillItem (s : State) (id item : Nat) : State × Option Stop :=
  match s.crew id with
  | none => (s, none)
  | some c =>
    match s.freePlace c with
    | none => (s, some (.fault ⟨cSTACK, 0, 0⟩ none))
    | some p =>
      match s.sluiceXlate id p 4 with
      | (s, .error f) => (s, some (.fault f none))
      | (s, .ok h) =>
        ((s.spillBytes h).updCrew id (fun c => c.updRing (fun r =>
          { r with resident := r.resident.filter (· != item), spilled := Tab.put r.spilled p item })), none)

/-- The block the Sluice gives up next (R410): dropped, or spilled. `named` are blocks that the transfer in progress names. -/
def Crew.victim (c : Crew) (named : List Nat) (slot : Nat) : Option (Bool × Nat) :=
  let use := c.useBlocks
  let res := (falling c.ring.resident).reverse
  let dead := res.filter (fun b => !use.contains b && !c.tokBlock b)
  let free := res.filter (fun b => !c.tokBlock b && !named.contains b)
  let w := c.winBlocks 0 ++ c.winBlocks 1
  match dead with
  | b :: _ => some (true, b)
  | [] =>
    match free.filter (fun b => !w.contains b) ++ free.filter (fun b => (c.winBlocks (1 - slot)).contains b) ++ free with
    | b :: _ => some (false, b)
    | [] => none

/-- Frees places until the ring has one. -/
def State.sluiceRoom (id : Nat) (named : List Nat) (slot : Nat) : Nat → State → State × Option Stop
  | 0, s => (s, none)
  | fuel + 1, s =>
    match s.crew id with
    | none => (s, none)
    | some c =>
      if c.ring.resident.length < c.ring.cap then (s, none)
      else
        match c.victim named slot with
        | some (true, b) => State.sluiceRoom id named slot fuel (s.dropBlock id b)
        | some (false, b) =>
          match s.spillItem id b with
          | (s, some e) => (s, some e)
          | (s, none) => State.sluiceRoom id named slot fuel s
        | none =>
          -- only blocks of token entries remain (R320)
          if c.toks.any (fun t => !t.returned) then (s, some (.wait .token)) else (s, some (.fault ⟨cTOKEN, 0, 0⟩ none))

/-- Units of the spill area that a refill reads and leaves in use. -/
def linkRead (n : Nat) : Nat := 600 + n
def stackRead (n : Nat) : Nat := 800 + n

/-- The entries that stay spilled when the top one is refilled to be popped: the store holds DSTK × 8 of the rest (R44). -/
def Crew.stackLeft (c : Crew) (dstk : Nat) : Nat := min c.ring.entries (c.stack.length - 1 - dstk)

def State.dstkOf (s : State) (c : Crew) : Nat :=
  match s.region c.rk with
  | some r => r.dstk
  | none => 0

/-- Makes a block resident, or refills a unit: `linkItem` and `stackItem` leave the spill area, `linkRead` and `stackRead`
are read there and stay in use. -/
def State.bring (s : State) (id item slot : Nat) (named : List Nat) : State × Option Stop :=
  match s.crew id with
  | none => (s, none)
  | some c =>
    if item < 200 && c.ring.resident.contains item then (s, none)
    else
      match (if item < 200 then State.sluiceRoom id (item :: named) slot 140 s else (s, none)) with
      | (s, some e) => (s, some e)
      | (s, none) =>
        match c.placeOf (if 600 ≤ item then item - 400 else item) with
        | none =>
          (if item < 200 then s.updCrew id (fun c => c.updRing (fun r => { r with resident := item :: r.resident })) else s, none)
        | some p =>
          match s.sluiceXlate id p 5 with
          | (s, .error f) => (s, some (.fault f none))
          | (s, .ok _) =>
            (s.updCrew id (fun c => c.updRing (fun r =>
              { r with
                spilled := if 600 ≤ item then r.spilled else Tab.del r.spilled p
                resident := if item < 200 then item :: r.resident else r.resident
                links := if 200 ≤ item && item < 400 then min r.links (64 * (item - 200)) else r.links
                entries := if (400 ≤ item && item < 600) || 800 ≤ item then c.stackLeft (s.dstkOf c) else r.entries })), none)

-- Planning (R65, R367).

def Ring.linkUnits (r : Ring) : Nat := ceilDiv r.links 64
def Ring.stackUnits (r : Ring) : Nat := ceilDiv r.entries 64

/-- New units that `n` more records and `m` more entries need, and the counts after them; what has come back from the spill
area goes there again only with a push. -/
def Crew.unitPlan (c : Crew) (dstk n m : Nat) : List Nat × Nat × Nat :=
  let l := if n = 0 then c.ring.links else max c.ring.links (64 * ceilDiv (c.records.length + n - 64) 64)
  let e := if m = 0 then c.ring.entries else max c.ring.entries (c.stack.length + m - dstk)
  let lu := (List.range (ceilDiv l 64 - c.ring.linkUnits)).map (fun i => linkItem (c.ring.linkUnits + i))
  let eu := (List.range (ceilDiv e 64 - c.ring.stackUnits)).map (fun i => stackItem (c.ring.stackUnits + i))
  (lu ++ eu, l, e)

/-- Spilled linkage units from unit `keep` up, the last first. -/
def Crew.linksFrom (c : Crew) (keep : Nat) : List Nat :=
  (((List.range c.ring.linkUnits).filter (fun u => decide (keep ≤ u))).map linkItem).reverse

/-- Spilled linkage units that the crew's records no longer need (R65): none where no record is left. -/
def Crew.linksOver (c : Crew) : List Nat :=
  if c.records.isEmpty then [] else c.linksFrom (ceilDiv (c.records.length - 64) 64)

/-- Units of a crew without records leave the spill area. -/
def Crew.dropLinks (c : Crew) : Crew :=
  if c.records.isEmpty then c.updRing (fun r =>
    { r with links := 0, spilled := r.spilled.filter (fun kv => decide (kv.2 < 200) || decide (400 ≤ kv.2)) })
  else c

/-- What a new base of a slot needs: the blocks that come in, and a stop when the spill area or the free frames do not
allow it. `copy` are registers that a copy reads or writes. -/
def State.framePlan (s : State) (c : Crew) (slot base : Nat) (copy : List Nat) (newLinks : Nat) : Except Stop (List Nat) :=
  let dstk := s.dstkOf c
  let x := c.slot slot
  let c' := (c.setSlot slot { x with base := base, chain := x.chain }).updRing id
  let c' := { c' with heat := none }
  let lo := min (match c.useRange slot with
    | some (a, _) => a
    | none => base) base
  let after := (blockRange lo (base + 23) ++ (match c'.useRange (1 - slot) with
    | some (a, b) => blockRange a b
    | none => [])).eraseDups
  let sp := c.ring.spilled.map Prod.snd
  let new := (falling (after.filter (fun b => !c.ring.resident.contains b && !sp.contains b))).reverse
  let live := c.ring.resident.filter (fun b => after.contains b || c.tokBlock b)
  let refill := (blocksOf copy).filter (fun b => sp.contains b && !c.ring.resident.contains b)
  let excess := live.length + new.length + refill.length - c.ring.cap
  let units := (c.unitPlan dstk newLinks 0).1
  if excess != 0 && decide (c.ring.cap ≤ (live.filter c.tokBlock).length) then
    .error (if c.toks.any (fun t => !t.returned) then .wait .token else .fault ⟨cTOKEN, 0, 0⟩ none)
  else if (excess != 0 || !units.isEmpty) && decide (s.spillPlaces c < c.ring.spilled.length + units.length + excess) then
    .error (.fault ⟨cSTACK, 0, 0⟩ none)
  else .ok (falling refill ++ new ++ units)

-- Events.

/-- No request before the crew's waits in its core's queue (R64). -/
def State.firstAsker (s : State) (id : Nat) (c : Crew) : Bool :=
  !s.crews.any (fun kv => kv.1 != id && kv.2.asking && s.coreOf kv.2 == s.coreOf c
    && (match s.team kv.2.rk kv.2.team with
      | some t => t.st == .placed
      | none => false)
    && decide (kv.2.ring.asked.getD 0 < c.ring.asked.getD 0))

/-- A request that must wait for a token lets the others pass. -/
def State.askAgain (s : State) (id : Nat) : State :=
  s.updCrew id (fun c => c.updRing (fun r => { r with asked := some s.lastAsk }))

/-- A transfer that a CALL, CALLX, SLIDE, split or exit owes: a block comes in, a new unit goes out, a spilled one returns. -/
def State.transfer (s : State) (id item slot : Nat) : State × Option Stop :=
  match s.crew id with
  | none => (s, none)
  | some c => if item < 200 || (c.placeOf item).isSome then s.bring id item slot [] else s.spillItem id item

/-- SLUICE_SPILL: the crew's next transfer, when its core's earlier requests are served. -/
def State.sluiceSpill (s : State) (id : Nat) : State :=
  match s.crew id with
  | none => s
  | some c =>
    match c.ring.todo with
    | [] => s
    | item :: rest =>
      if c.park.isSome || !s.firstAsker id c then s
      else
        let slot := match c.heat with
          | some h => h.slot
          | none => c.last
        let (s, r) := s.transfer id item slot
        match r with
        | none => s.updCrew id (fun c => c.updRing (fun g => { g with todo := rest }))
        | some (.fault f _) => s.raiseLate id slot f (c.slot slot).pc
        | some _ => s.askAgain id

/-- SLUICE_REFILL: what a crew's instruction waits for, highest block first (R59), when its core's earlier requests are
served. -/
def State.sluiceRefill (s : State) (id : Nat) : State :=
  match s.crew id with
  | none => s
  | some c =>
    if c.park.isSome || !s.firstAsker id c then s
    else match c.wait with
    | .refill slot items =>
      let go := items.foldl (fun (acc : State × Option Stop) b =>
        match acc with
        | (s, none) => s.bring id b slot items
        | r => r) (s, none)
      match go with
      | (s, none) => s.updCrew id (fun c =>
          { c with wait := .none, ring := { c.ring with touched := (items ++ c.ring.touched).eraseDups } })
      | (s, some (.fault f l)) => s.raise id slot f l false
      | (s, some _) => s.askAgain id
    | .reg k b =>
      let n := match c.heat with
        | some h => h.slot
        | none => c.last
      match s.bring k b 2 [] with
      | (s, none) => s.updCrew id (fun c => { c with wait := .none })
      | (s, some (.fault f l)) => s.raise id n f l false
      | (s, some _) => s.askAgain id
    | _ => s

end Sys2Proof.Machine
end

