-- ==== Sys2Proof/Machine/Access.lean ====
section
/-! DEFINITION. Data accesses: resolving addresses (R107, R108, R199 to R201, R240, R241, R251), the checks of R243 over the
lanes, reading bytes (R49, R202, R209, R235, R385, R386) and buffering stores (R48, R51, R249). -/

namespace Sys2Proof.Machine

-- Sites and places.

/-- For whom a scratch address is resolved: region, team, core of a crew, cluster, the crew itself. -/
structure Site where
  rk : Nat
  team : Nat
  core : Option Nat
  cluster : Nat
  crew : Option Nat
  deriving DecidableEq, Repr

def State.siteCrew (s : State) (id : Nat) (c : Crew) : Site :=
  let core := s.coreOf c
  ⟨c.rk, c.team, some core, core / 96, some id⟩

def State.siteEng (k : Nat) (e : Eng) : Site := ⟨e.rk, e.team, none, engUnit k, none⟩

/-- WAITERS of a barrier word (Table 15-7). -/
def State.waiters (s : State) (word : Nat) : Nat := leNat (Memory.getBytes s.mem.scr (word + 32) 2)

/-- A scratch word in a bank that failed after another one (R202, R203). -/
def State.deadBank (s : State) (a : Nat) : Bool :=
  match Tab.find s.cores (a / 2 ^ 24) with
  | some c => (c.failed.drop 1).contains (a % 2 ^ 24 / 4 % 16)
  | none => false

/-- A store into package memory that an L1 would take whose store has a data bank that failed after another one (R203). -/
def State.deadL1 (s : State) (p : Port1) (scope pa : Nat) : Bool :=
  match p.l1 with
  | some h => (p.cl1.isNone || decide (scope < 2) || decide (4 ≤ scope)) && s.deadCore (shareCore h (lineOf pa))
  | none => false

/-- A scratch byte whose word holds an uncorrectable error. -/
def State.badScratch (s : State) (a : Nat) : Bool := s.mem.poison.contains (scrMark a) || s.deadBank a

/-- The place of `n` bytes at a scratch address of Table 13-1 (R200, R201); a store may not touch a barrier word that has
waiters (R261). -/
def State.scrPlace (s : State) (x : Site) (va n k : Nat) : Except Fail Nat :=
  let bad : Except Fail Nat := .error ⟨cACCESS, k, va⟩
  let sel := va / 2 ^ 24
  let off := va % 2 ^ 24
  if 2 ^ 32 ≤ va then bad
  else
    let core := if sel = 0 then x.core else if sel ≤ 0x60 then some (x.cluster * 96 + sel - 1) else none
    match core with
    | none => bad
    | some core =>
      if (s.coreSt core).scru * 8192 < off + n then bad
      else if (List.range n).any (fun i => (s.allotOf x.rk core (off + i)).isNone) then bad
      else if k != aRead && (List.range n).any (fun i => match s.barWord x.rk core (off + i) with
        | some w => s.waiters w != 0
        | none => false) then bad
      -- a store to a bank that failed after another one (R203)
      else if k == aWrite && (List.range n).any (fun i => s.deadBank (scrAddr core (off + i))) then .error ⟨cPOISON, 0, va⟩
      else .ok (scrAddr core off)

/-- What resolving one lane's access gives. -/
inductive LaneRes
  | ok (hs : List Hit)
  | fail (f : Fail)
  | conflict (va : Nat)
  | wait (w : Wait)
  deriving DecidableEq, Repr

/-- One lane's access: address, size, kind, storage code, scope, alignment, team form, whether its atomic is barred from
KIND 3 pages (R259, R387), and what its page must be: 1 classed read-only (R253), 2 not EXTERNAL, or SCOPE (R270), 0 anything. -/
structure Acc where
  va : Nat
  n : Nat
  k : Nat
  storage : Nat
  scope : Nat
  align : Nat
  team : Bool
  noK3 : Bool
  page : Nat
  deriving DecidableEq, Repr

def hitsAt (sp : Space) (pa n : Nat) : List Hit := (List.range n).map (fun i => ⟨sp, pa + i, false, 0⟩)

/-- The team address of Table 15-3. -/
def State.teamPlace (s : State) (x : Site) (a : Acc) : LaneRes :=
  let bad : LaneRes := .fail ⟨cACCESS, a.k, a.va⟩
  let t := bits a.va 32 32
  let off := a.va % 2 ^ 24
  match s.region x.rk with
  | none => bad
  | some r =>
    if bits a.va 24 8 != 0 || decide (r.grid ≤ t) || decide (r.allotBytes < off + a.n) then bad
    else
      match s.team x.rk t with
      | none => bad
      | some tm =>
        match tm.st with
        | .imaged => .wait (.team (teamKey x.rk t))
        | .placed =>
          if tm.pre then .wait (.team (teamKey x.rk t))
          else if tm.core / 96 != x.cluster then bad
          else
            match s.scrPlace { x with core := some tm.core } (tm.idx * r.allotBytes + off) a.n a.k with
            | .ok p => .ok (hitsAt .scr p a.n)
            | .error f => if f.cause = cPOISON then .fail { f with addr := a.va } else bad
        | _ => bad

/-- A register-space access of the site's crew (R107, R108); ALIGN for a size that is none of 1 to 128 by doubling (log 66). -/
def State.regPlace (s : State) (x : Site) (a : Acc) : LaneRes :=
  let bad : LaneRes := .fail ⟨cACCESS, a.k, a.va⟩
  let cn := bits a.va 20 4
  let reg := bits a.va 7 10
  let kind := bits a.va 18 2
  if x.crew.isNone then bad
  else if !([1, 2, 4, 8, 16, 32, 64, 128].contains a.n) || a.va % a.n != 0 then .fail ⟨cALIGN, 0, a.va⟩
  else if 2 ^ 32 ≤ a.va || a.k == aAtomic || a.va.testBit 17 || kind == 3 then bad
  else
    let key := crewKey x.rk x.team cn
    match (s.crew key).map (fun t => t.seen (x.crew == some key)) with
    | none => bad
    | some t =>
      let place := kind * 2 ^ 17 + a.va % 2 ^ 17
      match t.regAbs place with
      | none => bad
      | some r =>
        let used := ([0, 1] : List Nat).any (fun n => match t.useRange n with
          | some (lo, hi) => decide (lo ≤ r) && decide (r ≤ hi)
          | none => false)
        if kind != 0 && decide (23 < reg) then bad
        else if !used then bad
        else if (List.range a.n).any (fun i => !t.alloc ((a.va + i) / 4 % 32)) then bad
        else if t.away r then .fail ⟨cTOKEN, 0, a.va⟩
        else if !t.ring.resident.contains (r / 8) then .wait (.reg key (r / 8))
        else .ok (hitsAt (.reg key) place a.n)

/-- A store that would be performed into a dead L1 (R203). -/
def State.deadStop (s : State) (w : Who) (a : Acc) (h : Hit) : List Fail :=
  if h.sp == .pkg && a.k != aRead && s.deadL1 w.port a.scope h.pa then [⟨cPOISON, 0, a.va⟩] else []

/-- Storage of a translated byte (R241). -/
def Acc.allows (a : Acc) (h : Hit) : Option Fail :=
  let bad := match h.sp with
    | .ext k3 _ => a.storage == 1 || (k3 && a.noK3)
    | _ => a.storage == 2
  if bad then some ⟨cACCESS, a.k, a.va⟩ else none

/-- What a leaf alone refuses, whatever else the access meets: the scope of a store (R241) and MWAIT's EXTERNAL page (R270),
the class of LDC's page (R253). -/
def State.leafFails (s : State) (w : Who) (a : Acc) (va : Nat) : List Fail :=
  match (s.lookup w va).2 with
  | .error _ => []
  | .ok x =>
    let e := x.leaf.toNat
    -- the scope that a store needs in the storage its page maps; a page of the other storage raises ACCESS
    let need := if pteKind e = 0 then 0 else if pteKind e = 1 then (if a.storage = 2 then 0 else 5) else if a.storage = 1 then 0 else 6
    (if (a.k != aRead && decide (a.scope < need)) || (a.page == 2 && decide (2 ≤ pteKind e)) then [⟨cSCOPE, 0, a.va⟩] else [])
      ++ (if a.page == 1 && pteClass e != 2 then [⟨cACCESS, a.k, a.va⟩] else [])

/-- An EXTERNAL store or atomic narrower than SYSTEM raises SCOPE, whatever its page (R241). -/
def Acc.narrow (a : Acc) : List Fail :=
  if a.storage == 2 && a.k != aRead && decide (a.scope < 6) then [⟨cSCOPE, 0, a.va⟩] else []

/-- The spill area of the region, which loads and stores cannot address (R57, R366, log 63). -/
def State.inSpill (s : State) (rk va n : Nat) : Bool :=
  match s.region rk with
  | some r => decide (r.spill < va + n) && decide (va < r.spill + r.grid * r.crews * r.spillc)
  | none => false

/-- The first failure in the order of R243. -/
def minFail (fs : List Fail) : Option Fail :=
  fs.foldl (fun o f => match o with
    | none => some f
    | some g => if f.rank < g.rank then some f else some g) none

/-- Pieces of an access within 64 KiB pages. -/
def pieces (va n : Nat) : List (Nat × Nat) :=
  if n = 0 then [] else
  (List.range ((va % 65536 + n - 1) / 65536 + 1)).map (fun i =>
    let lo := if i = 0 then va else (va / 65536 + i) * 65536
    (lo, min (va + n) ((va / 65536 + i + 1) * 65536) - lo))

/-- A virtual access: every piece is translated and every failure collected (R243). -/
def State.vaPlace (s : State) (w : Who) (a : Acc) (watch : Option Fail) (chk : Bool) : State × LaneRes :=
  let (s, hs, fs, cf) := (pieces a.va a.n).foldl (fun (x : State × List Hit × List Fail × Bool) p =>
    let (s, hs, fs, cf) := x
    let fs := fs ++ (if p.1 < 2 ^ 57 then s.leafFails w a p.1 else [])
    match s.translateC w p.1 a.k chk with
    | (s, .ok h) =>
      match a.allows h with
      | some f => (s, hs, fs ++ [f], cf)
      | none => (s, hs ++ (List.range p.2).map (fun j => { h with pa := h.pa + j }), fs ++ s.deadStop w a h, cf)
    | (s, .fail f) => (s, hs, fs ++ [f], cf)
    | (s, .conflict h) => (s, hs, fs ++ (a.allows h).toList, true)) (s, [], [], false)
  let fs := fs ++ a.narrow ++ (if s.inSpill w.rk a.va a.n then [⟨cACCESS, a.k, a.va⟩] else [])
  match minFail (fs ++ watch.toList) with
  | some f => (s, .fail f)
  | none => if cf then (s, .conflict a.va) else (s, .ok hs)

/-- One access, resolved. -/
def State.resolve (s : State) (w : Who) (x : Site) (watch : Option Fail) (a : Acc) : State × LaneRes :=
  if a.va % a.align != 0 then (s, .fail ⟨cALIGN, 0, a.va⟩)
  else if a.team then (s, s.teamPlace x a)
  else if a.storage = 0 then
    if a.va / 2 ^ 24 = 0xFF then (s, s.regPlace x a)
    else match s.scrPlace x a.va a.n a.k with
      | .ok p => (s, .ok (hitsAt .scr p a.n))
      | .error f => (s, .fail f)
  else s.vaPlace w a watch true

/-- A watchpoint hit of a crew's virtual access (R379). -/
def Regs.watchFail (r : Regs) (a : Acc) : Option Fail :=
  if a.storage = 0 || a.team then none
  else if ([0, 1, 2, 3] : List Nat).any (fun i => watchHit (Tab.get r.watch i 0) a.va a.n (a.k != aRead) (a.k != aWrite))
    then some ⟨cWATCH, a.k, a.va⟩ else none

/-- What the lanes of an instruction together give: the lowest lane of the first failure, else a conflict or a wait. -/
def laneOutcome (lv : Bool) (rs : List (Nat × LaneRes)) : Except Stop (List (Nat × List Hit)) :=
  let worst := rs.foldl (fun (o : Option (Nat × Fail)) r => match r.2, o with
    | .fail f, none => some (r.1, f)
    | .fail f, some g => if f.rank < g.2.rank then some (r.1, f) else some g
    | _, o => o) none
  match worst with
  | some (l, f) => .error (.fault f (if lv then some l else none))
  | none =>
    match rs.findSome? (fun r => match r.2 with
      | .conflict va => some (Stop.conflict va)
      | .wait w => some (Stop.wait w)
      | _ => none) with
    | some st => .error st
    | none => .ok (rs.map (fun r => (r.1, match r.2 with
      | .ok hs => hs
      | _ => [])))

/-- Checks every lane before any is performed (R243). -/
def State.checkLanes (s : State) (w : Who) (x : Site) (watch : Acc → Option Fail) (lv : Bool) (as : List (Nat × Acc)) :
    State × Except Stop (List (Nat × List Hit)) :=
  let (s, rs) := as.foldl (fun (a : State × List (Nat × LaneRes)) la =>
    let (s, r) := a.1.resolve w x (watch la.2) la.2
    (s, a.2 ++ [(la.1, r)])) (s, [])
  (s, laneOutcome lv rs)

/-- A stop of a crew's word that has translated: what translations leave stays (R54, R375). -/
def State.stopIn (s : State) (id : Nat) (st : Stop) : Stop :=
  .held (s.stopCrew id (((s.crew id).bind (fun c => c.heat)).elim 0 (fun h => h.slot)) st)

-- Reading.

/-- The heat's latest buffered store to a byte (R49); a register-space load returns the committed value instead (R60, log 61). -/
def Heat.forward (h : Heat) (sp : Space) (pa : Nat) : Option Byte :=
  if (match sp with
    | .reg _ => true
    | _ => false) then none else
  h.buf.foldl (fun o b => match b with
    | .store cells _ => cells.foldl (fun o x => if x.sp == sp && x.a == pa then some x.b else o) o
    | _ => o) none

/-- A byte as its holder gives it, the heat's buffers apart. -/
def State.seeHit (s : State) (w : Who) (h : Hit) : Byte :=
  match h.sp with
  | .pkg => s.mem.seeByte w.port h.pa
  | .peer => s.mem.seePeer w.core w.port.l1 h.pa
  | .scr => Memory.get s.mem.scr h.pa
  | .ext k3 p => if k3 then Memory.get s.mem.ext (extAddr p h.pa) else s.mem.extByte p h.pa
  | .reg k =>
    match s.crew k with
    | none => 0
    | some c => match (c.seen (w.crew == some k)).regAbs h.pa with
      | none => 0
      | some r => (lane (c.settle.com.rdV r) (h.pa / 4 % 32)).extractLsb' (8 * (h.pa % 4)) 8

/-- The caches after a load of these bytes: fills by policy and class (R209, R218, R386, R397). -/
def State.touchHits (s : State) (w : Who) (cache : Nat) (hs : List Hit) : State :=
  let pk := hs.filter (fun h => h.sp == .pkg)
  let lns := (pk.map (fun h => (lineOf h.pa, h.cls == 0))).eraseDups
  let m := lns.foldl (fun m ln =>
    m.touchLine w.port ln.1 cache ln.2 (pk.any (fun h => lineOf h.pa == ln.1 && m.misses w.port h.pa))) s.mem
  let m := if fillsNone cache then m else ((hs.filter (fun h => h.sp == .peer)).map (fun h => h.pa / 128 * 128)).eraseDups.foldl
    (fun m pa => m.fillPeer w.port.l1 pa (loadMark cache)) m
  let m := (hs.filterMap (fun h => match h.sp with
    | .ext false p => some (p, lineOf h.pa)
    | _ => none)).eraseDups.foldl (fun m x => m.extFetch x.1 x.2 false) m
  { s with mem := m }

/-- Data with an uncorrectable error (R15, R203, R391). -/
def State.poisoned (s : State) (w : Who) (hs : List Hit) : Bool :=
  hs.any (fun h => match h.sp with
    | .pkg => s.mem.poison.contains (lineOf h.pa) || s.mem.badByte w.port h.pa
    | .ext false _ => s.mem.poison.contains (extMark (lineOf h.pa))
    | .peer => s.mem.badPeer w.core w.port.l1 h.pa
    | .scr => s.badScratch h.pa
    | .reg k => (match s.crew k with
      | some c => (match (c.seen (w.crew == some k)).regAbs h.pa with
        | some r => c.com.bad r
        | none => false)
      | none => false)
    | _ => false)

/-- Bytes of each lane read, heat buffers first, and the caches afterwards. A deferred atomic of the crew to a line read is
performed before. -/
def State.readLanes (s : State) (w : Who) (cache : Nat) (h : Option Heat) (ls : List (Nat × List Hit)) :
    State × List (Nat × List Byte) :=
  let s := s.ownFirst w (ls.flatMap (fun l => l.2.map (fun x => (x.sp, x.pa))))
  let vs := ls.map (fun l => (l.1, l.2.map (fun x =>
    match h.bind (fun h => h.forward x.sp x.pa) with
    | some b => b
    | none => s.seeHit w x)))
  (s.touchHits w cache (ls.flatMap Prod.snd), vs)

-- Storing.

/-- Cells of bytes at their places. -/
def cellsOf (hs : List Hit) (bs : List Byte) : List MemCell :=
  (List.range hs.length).map (fun i =>
    let h := hs.getD i ⟨.scr, 0, false, 0⟩
    ⟨h.sp, h.pa, bs.getD i 0, h.cls == 0⟩)

/-- Line entries that buffered stores and new cells need together (R48). -/
def bufLines (buf : List BufOp) (cells : List MemCell) : Nat :=
  (((buf.flatMap (fun b => match b with
    | .store cs _ => cs
    | _ => [])) ++ cells).map (fun x => (x.sp, x.a / 128))).eraseDups.length

/-- A store whose cells need a 33rd line entry (R48): the cells are buffered up to it, the heat is sealed, which performs them,
and so on. The parts after the first have no order of their own. -/
def State.bufferLong (s : State) (id : Nat) (h : Heat) (cells : List MemCell) (mode : BitVec 40) : State :=
  let key : MemCell → Space × Nat := fun x => (x.sp, x.a / 128)
  let have_ := ((h.buf.flatMap (fun b => match b with
    | .store cs _ => cs
    | _ => [])).map key).eraseDups
  let plain := mode &&& ~~~((3 : BitVec 40) <<< 28)
  let r := cells.foldl (fun (a : State × List MemCell × List (Space × Nat) × BitVec 40) x =>
    let (s, now, lines, md) := a
    if lines.contains (key x) then (s, now ++ [x], lines, md)
    else if lines.length < 32 then (s, now ++ [x], key x :: lines, md)
    else
      let s := (if now.isEmpty then s else s.buffer id (.store now md)).seal id
      (s, [x], [key x], if now.isEmpty then md else plain)) (s, [], have_, mode)
  r.1.buffer id (.store r.2.1 r.2.2.2)

/-- A store of a crew: buffered, or performed at once when it leaves the package (R51, R249). -/
def State.storeCells (s : State) (id : Nat) (h : Heat) (now : Bool) (cells : List MemCell) (mode : BitVec 40) : State :=
  if now || cells.any (fun x => match x.sp with
      | .ext _ _ => true
      | _ => false) then
    let regs : MemCell → Bool := fun x => match x.sp with
      | .reg _ => true
      | _ => false
    let s := State.performOp id (s.seal id) (.store (cells.filter (fun x => !regs x)) mode)
    if cells.any regs then s.buffer id (.store (cells.filter regs) 0) else s
  else if cells.isEmpty && modeOrd mode != 2 then s
  else if 32 < bufLines h.buf cells then s.bufferLong id h cells mode
  else s.buffer id (.store cells mode)

/-- Cells of an engine's store, performed at once (R286, R416). -/
def State.engStore (s : State) (w : Who) (scope cache : Nat) (cells : List MemCell) : State :=
  let pk : Bool → List (Nat × Byte) := fun tr =>
    (cells.filter (fun (x : MemCell) => x.sp == Space.pkg && x.tree == tr)).map (fun x => (x.a, x.b))
  let m := s.mem
  let m := m.storePkg s.clock w.port scope cache true (pk true)
  let m := m.storePkg s.clock w.port scope cache false (pk false)
  let m := m.putScratch (s.scrCells w.rk ((cells.filter (fun (x : MemCell) => x.sp == Space.scr)).map (fun x => (x.a, x.b))))
  let m := (m.storeExts cells).wroteBy w.rk (cells.map (fun x => (x.sp, x.a)))
  let pr := cells.filter (fun (x : MemCell) => x.sp == Space.peer)
  { s with mem := pr.foldl (fun m (x : MemCell) => m.putPeer (lineOf x.a) [(x.a % 128, x.b)]) m }

-- Buffered work whose places move (R219, R321).

def MemCell.moved (sp : Space) (f : Nat → Nat) (x : MemCell) : MemCell := if x.sp = sp then { x with a := f x.a } else x
def BufOp.moved (sp : Space) (f : Nat → Nat) (o : BufOp) : BufOp :=
  match o with
  | .store cells mode => .store (cells.map (MemCell.moved sp f)) mode
  | .flush pa home tree => .flush (if sp = .pkg then f pa else pa) home tree
  | .inval pa => .inval (if sp = .pkg then f pa else pa)
  | o => o
def QMember.moved (sp : Space) (f : Nat → Nat) (m : QMember) : QMember :=
  { m with lanes := m.lanes.map (fun l => if l.sp = sp then { l with a := f l.a } else l) }
def Heat.moved (sp : Space) (f : Nat → Nat) (h : Heat) : Heat :=
  { h with buf := h.buf.map (BufOp.moved sp f), group := h.group.map (QMember.moved sp f) }

-- Bases.

/-- Registers of a vector base. -/
def Heat.baseKeys (h : Heat) (k : Bool) (a : BitVec 5) : List Nat := if k then [] else h.dkeys a 2

/-- A lane's base address (R240). -/
def Heat.baseAt (h : Heat) (k : Bool) (a : BitVec 5) (l : Nat) : Nat :=
  if k then (h.wrk.rdS a.toNat).toNat
  else (lane (h.wrk.rdV (h.key a.toNat)) l).toNat + 2 ^ 32 * (lane (h.wrk.rdV (h.key (a.toNat + 1))) l).toNat

def addrOf (base off size : Nat) : Nat := (base + off * size) % 2 ^ 64

/-- What the data of the lanes' accesses met: the lowest lane with an error, and the lines read outside the package's own
memory. -/
def State.got (s : State) (w : Who) (lv : Bool) (as : List (Nat × Acc)) (ls : List (Nat × List Hit)) : Got :=
  let va : Nat → Nat := fun l => (as.find? (fun a => a.1 == l)).elim 0 (fun a => a.2.va)
  let at_ : Nat → Option Nat := fun l => if lv then some l else none
  { bad := (ls.find? (fun l => s.poisoned w l.2)).map (fun l => ⟨cPOISON, va l.1, at_ l.1⟩)
    reads := ls.map (fun l => ⟨at_ l.1, va l.1, (l.2.filterMap (fun x => match x.sp with
      | .ext _ _ => some (x.sp, lineOf x.pa)
      | .peer => some (x.sp, lineOf x.pa)
      | .pkg => if x.pa < Config.poolBase then none else some (x.sp, lineOf x.pa)
      | _ => none)).eraseDups⟩) }

/-- A result with zero data. -/
def RegW.zero (w : RegW) : RegW :=
  match w with
  | .v k m _ t => .v k m zeroLanes t
  | .s n _ => .s n 0
  | .p n m _ => .p n m 0

/-- The access behind a pending result that has read one of some lines. -/
def Got.readOf (g : Got) (gone : Space × Nat → Bool) : Option LaneRead := g.reads.find? (fun r => r.lines.any gone)

/-- A load in flight to lines that are taken away returns zero and raises `cause` (R392 to R394). -/
def Pend.lose (p : Pend) (gone : Space × Nat → Bool) (cause : Nat) : Pend :=
  match p.got.readOf gone with
  | none => p
  | some r => { p with ws := p.ws.map RegW.zero, got := { p.got with bad := some (p.got.bad.getD ⟨cause, r.va, r.lane⟩) } }

/-- The loads in flight of a crew to lines that are taken away: a named one raises its fault at the next heat boundary. -/
def State.loseLoads (s : State) (gone : Space × Nat → Bool) (cause : Nat) (c : Crew) : Crew :=
  { c with
    heat := c.heat.map (fun h => { h with pend := h.pend.map (fun p => p.lose gone cause) })
    named := c.named.map (fun p => p.lose gone cause)
    bad := match c.bad with
      | some b => some b
      | none => c.named.findSome? (fun p => (p.got.readOf gone).map (fun r =>
          { s.crewRec c c.last ⟨cause, 0, r.va⟩ r.lane with wordpc := p.pc })) }

/-- The loads in flight of every context to lines that are taken away: zero, with the fault at the load's word. -/
def State.loseEngs (s : State) (gone : Space × Nat → Bool) (cause : Nat) : State :=
  s.engs.foldl (fun s kv =>
    let s := s.setEng kv.1 { kv.2 with pend := kv.2.pend.map (fun p => if (p.got.readOf gone).isSome then { p with x := 0 } else p) }
    kv.2.pend.foldl (fun s p => match p.got.readOf gone with
      | some r => s.stopEng kv.1 (s.engRec kv.1 kv.2 ⟨cause, 0, r.va⟩ (kv.2.entry.getD p.pc) p.pc p.off) false
      | none => s) s) s

/-- Every load in flight to lines that are taken away (R392 to R394). -/
def State.loseReads (s : State) (gone : Space × Nat → Bool) (cause : Nat) : State :=
  { s with crews := s.crews.map (fun (kv : Nat × Crew) => (kv.1, s.loseLoads gone cause kv.2)) }.loseEngs gone cause

/-- A crew's stores to lines that are taken away, still buffered, leave its heat; held atomics lose their lanes, which give
zero, and a fault is raised at the next heat boundary. The addresses lost. -/
def Crew.dropCells (c : Crew) (mine : Space → Nat → Bool) (fr : QMember → AtLane → FaultRec) : Crew × List Nat :=
  let at_ : AtLane → Bool := fun l => mine l.sp l.a
  let owed := c.later.flatMap (fun q => (q.lanes.filter at_).map (fun l => l.a))
  let c : Crew := { c with later := c.later.map (fun (q : QMember) => { q with lanes := q.lanes.filter (fun l => !at_ l) }) }
  match c.heat with
  | none => (c, owed)
  | some h =>
    let lost := h.buf.flatMap (fun o => match o with
      | .store cs _ => (cs.filter (fun d => mine d.sp d.a)).map (fun d => d.a)
      | _ => [])
    let buf := h.buf.map (fun o => match o with
      | .store cs m => .store (cs.filter (fun d => !mine d.sp d.a)) m
      | o => o)
    let held := h.group.flatMap (fun q => (q.lanes.filter at_).map (fun l => (q, l)))
    let grp := h.group.map (fun q => { q with lanes := q.lanes.filter (fun l => !at_ l) })
    let c := { c with heat := some { h with buf := buf, group := grp } }
    ({ c with bad := if c.bad.isSome then c.bad else held.head?.map (fun y => fr y.1 y.2) }, owed ++ lost ++ held.map (fun y => y.2.a))

/-- Every crew's stores in flight to lines that are taken away are dropped: their addresses, each with its region (R392 to
R394). -/
def State.loseStores (s : State) (mine : Space → Nat → Bool) (cause : Nat) : State × List (Nat × Nat) :=
  s.crews.foldl (fun (a : State × List (Nat × Nat)) kv =>
    let (c, l) := kv.2.dropCells mine (fun q y => { a.1.crewRec kv.2 kv.2.last ⟨cause, 0, y.va⟩ (some y.lane) with wordpc := q.pc })
    (a.1.setCrew kv.1 c, a.2 ++ l.map (fun pa => (pa, kv.2.rk)))) (s, [])

/-- Results of a word that reads memory: emitted with its lookahead. An error of the data is raised at once, the access
performed, when the result is waited for; otherwise zeros enter the window (R129, R243). -/
def State.emitLoad (s : State) (id : Nat) (ws : List RegW) (la : Nat) (g : Got) : Except Stop State :=
  let put : List RegW → State := fun ws => s.updCrew id (fun c => match c.heat with
    | some h => c.emit h ws la (c.slot h.slot).pc g
    | none => c)
  match g.bad with
  | none => .ok (put ws)
  | some m =>
    if la = 0 then .error (s.metNow id m) else .ok (put (ws.map RegW.zero))

end Sys2Proof.Machine
end

