-- ==== Sys2Proof/Machine/Memory.lean ====
section
/-! DEFINITION. Loads, stores and cache operations (R242 to R254). -/

namespace Sys2Proof.Machine

-- Images (Table 15-2, R247).

/-- Lane access size of a form; 0 when a Grist access covers no whole block. -/
def formBytes (f : MemForm) (fmt n : Nat) : Nat :=
  match f with
  | .w => 4 * n
  | .b8 => n
  | .b16 => 2 * n
  | .t =>
    if fmt = fmtE2M3 || fmt = fmtE3M2 then 3 * n
    else if fmtIsGrist fmt then 4 * n / gristBytes fmt * gristBytes fmt
    else 4 * n

/-- Extent rules of the typed form (R68, R247). -/
def formOk (f : MemForm) (fmt : Nat) (d : BitVec 5) (e : BitVec 3) : Bool :=
  match f with
  | .t => formBytes .t fmt (extN e) != 0 && (!fmtIs64 fmt || pairOk d e)
  | _ => true

def isSix (f : MemForm) (fmt : Nat) : Bool :=
  match f with
  | .t => fmt == fmtE2M3 || fmt == fmtE3M2
  | _ => false

/-- Registers from loaded bytes. -/
def loadImage (f : MemForm) (fmt n : Nat) (sgn : Bool) (bs : List Byte) : List Nat :=
  let le : Nat → Nat → Nat := fun i k => leNat ((List.range k).map (fun j => bs.getD (k * i + j) 0))
  let ext : Nat → Nat → Nat := fun w v => if sgn then wrapInt 32 (signed w v) else v
  (List.range n).map (fun i =>
    match f with
    | .b8 => ext 8 (le i 1)
    | .b16 => ext 16 (le i 2)
    | _ =>
      if isSix f fmt then
        let x := le i 3
        (List.range 4).foldl (fun a j => a + bits x (6 * j) 6 * 2 ^ (8 * j)) 0
      else le i 4)

/-- Bytes stored from registers. -/
def storeImage (f : MemForm) (fmt : Nat) (rs : List Nat) (size : Nat) : List Byte :=
  let k := match f with
    | .b8 => 1
    | .b16 => 2
    | _ => if isSix f fmt then 3 else 4
  (rs.flatMap (fun r => leOf k (if isSix f fmt then (List.range 4).foldl (fun a j => a + bits r (8 * j) 6 * 2 ^ (6 * j)) 0 else r))).take size

def formTag (f : MemForm) (fmt : Nat) : Nat :=
  match f with
  | .w => fmtBITS
  | .t => fmt
  | _ => fmtINT32

/-- Orders of Table 15-1. -/
def loadOrd (m : BitVec 40) : Bool := decide (modeOrd m ≤ 1)
def storeOrd (m : BitVec 40) : Bool := modeOrd m == 0 || modeOrd m == 2

/-- A load or store: fields, form, whether it is a scratch access, and its team form. -/
structure MemOp where
  d : BitVec 5
  a : BitVec 5
  o : BitVec 5
  e : BitVec 3
  l : BitVec 4
  k : Bool
  f : MemForm
  x : Bool
  t : Bool
  deriving DecidableEq, Repr

def MemOp.storage (m : MemOp) (mode : BitVec 40) : Nat := if m.x then 0 else modeStore mode

/-- The lanes' accesses. -/
def MemOp.accs (m : MemOp) (c : Crew) (h : Heat) (size kind : Nat) : List (Nat × Acc) :=
  (lanesIn (c.lanes h)).map (fun l =>
    (l, ⟨addrOf (h.baseAt m.k m.a l) m.o.toNat size, size, kind, m.storage h.wrk.mode, modeScope h.wrk.mode, alignOf size, m.t, false, 0⟩))

/-- The heat of a crew in a state. -/
def State.heatOf (s : State) (id : Nat) : Option Heat := (s.crew id).bind (fun c => c.heat)

/-- LD and LDX (R248, R250, R251). -/
def loadEff (m : MemOp) : Eff := fun s id c h =>
  let mode := h.wrk.mode
  let fmt := modeFmt mode
  let n := extN m.e
  let size := formBytes m.f fmt n
  let kd := h.keys m.d m.e
  match c.laneCheck h (h.baseKeys m.k m.a) kd [] (loadOrd mode && formOk m.f fmt m.d m.e) true with
  | .error e => .error e
  | .ok () =>
    let w := s.whoCrew id c
    let as := m.accs c h size aRead
    match s.checkLanes w (s.siteCrew id c) c.com.watchFail true as with
    | (s', .error st) => .error (s'.stopIn id st)
    | (s, .ok ls) =>
      let s := if ls.any (fun l => l.2.any (fun x => x.se)) then s.seal id else s
      let (s, vs) := s.readLanes w (modeCache mode) (s.heatOf id) ls
      let s := if modeOrd mode = 1 then s.acquireCrew id (modeScope mode) 3 else s
      let out := (List.range 32).map (fun l => match vs.find? (fun v => v.1 == l) with
        | some v => loadImage m.f fmt n (modeSgn mode) v.2
        | none => [])
      match s.emitLoad id (vecW kd (c.lanes h) out (fun _ => formTag m.f fmt)) m.l.toNat (s.got w true as ls) with
      | .error st => .error st
      | .ok s => .ok (s, 0)

/-- Stored data that is tagged Grist, or stored under a Grist format of MODE, covers whole blocks at a block boundary, or
ALIGN (R77, R78, R247). -/
def gristAlign (r : Regs) (ks : List Nat) (va size : Nat) : Bool :=
  (modeFmt r.mode :: ks.map r.rdTag).all (fun f => !fmtIsGrist f || (va % gristBytes f == 0 && size % gristBytes f == 0))

/-- The first lane whose Grist data breaks R77. -/
def gristStop (r : Regs) (ks : List Nat) (as : List (Nat × Acc)) : Option Stop :=
  (as.find? (fun a => !gristAlign r ks a.2.va a.2.n || a.2.va % a.2.align != 0)).map
    (fun a => .fault ⟨cALIGN, 0, a.2.va⟩ (some a.1))

/-- ST and STX (R249, R250). -/
def storeEff (m : MemOp) : Eff := fun s id c h =>
  let mode := h.wrk.mode
  let fmt := modeFmt mode
  let n := extN m.e
  let size := formBytes m.f fmt n
  let kd := h.keys m.d m.e
  match c.laneCheck h (h.baseKeys m.k m.a ++ kd) [] [] (storeOrd mode && formOk m.f fmt m.d m.e) true with
  | .error e => .error e
  | .ok () =>
    let as := m.accs c h size aWrite
    match gristStop h.wrk kd as with
    | some st => .error st
    | none =>
      match s.checkLanes (s.whoCrew id c) (s.siteCrew id c) c.com.watchFail true as with
      | (s', .error st) => .error (s'.stopIn id st)
      | (s, .ok ls) =>
        let cells := ls.flatMap (fun l => cellsOf l.2 (storeImage m.f fmt (h.wrk.at_ kd l.1) size))
        let now := !m.x && (modeStore mode == 2 || decide (5 ≤ modeScope mode))
        .ok (s.storeCells id h now cells mode, 0)

def execLd (o : OpLd) (s : State) : Host.Outcome State Fault Refusal :=
  s.crewWord (Instr.wf (.ld o)) (loadEff ⟨o.d, o.a, o.o, o.e, o.l, o.k, o.f, false, false⟩)
def execSt (o : OpSt) (s : State) : Host.Outcome State Fault Refusal :=
  s.crewWord (Instr.wf (.st o)) (storeEff ⟨o.d, o.a, o.o, o.e, 0, o.k, o.f, false, false⟩)
def execLdx (o : OpLdx) (s : State) : Host.Outcome State Fault Refusal :=
  s.crewWord (Instr.wf (.ldx o)) (loadEff ⟨o.d, o.a, o.o, o.e, o.l, o.k, if o.f then .t else .w, true, o.t⟩)
def execStx (o : OpStx) (s : State) : Host.Outcome State Fault Refusal :=
  s.crewWord (Instr.wf (.stx o)) (storeEff ⟨o.d, o.a, o.o, o.e, 0, o.k, if o.f then .t else .w, true, o.t⟩)

-- Uniform loads and stores (R252).

def slBytes (z : BitVec 2) : Nat := 8 / 2 ^ z.toNat

/-- One access for the slot. -/
def uniAcc (base : DWord) (off size kind : Nat) (mode : BitVec 40) : List (Nat × Acc) :=
  [(0, ⟨addrOf base.toNat off size, size, kind, modeStore mode, modeScope mode, alignOf size, false, false, 0⟩)]

/-- An access of an engine context; engines are not watched (R379). -/
def State.engAccess (s : State) (k : Nat) (e : Eng) (as : List (Nat × Acc)) : Except Stop (State × List (Nat × List Hit)) :=
  match s.checkLanes (s.whoEng k e) (State.siteEng k e) (fun _ => none) false as with
  | (s', .error (.fault f _)) => .error (.after s' f)
  | (_, .error st) => .error st
  | (s, .ok ls) => .ok (s, ls)

def State.engRelease (s : State) (w : Who) (scope : Nat) : State := { s with mem := s.mem.release s.clock w.port none scope }
def State.engAcquire (s : State) (w : Who) (scope : Nat) : State := { s with mem := s.mem.acquire w.port scope }

def extendTo64 (sx : Bool) (size v : Nat) : DWord :=
  BitVec.ofNat 64 (if sx then wrapInt 64 (signed (8 * size) v) else v)

def execSld (o : OpSy) (sx : Bool) (z : BitVec 2) (s : State) : Host.Outcome State Fault Refusal :=
  let size := slBytes z
  s.sharedWord true
    (fun s id c h =>
      let mode := h.wrk.mode
      match c.check h [] [] [nameS o.d] (loadOrd mode) true with
      | .error e => .error e
      | .ok () =>
        let w := s.whoCrew id c
        let as := uniAcc (h.wrk.rdS o.a.toNat) o.o.toNat size aRead mode
        match s.checkLanes w (s.siteCrew id c) c.com.watchFail false as with
        | (s', .error st) => .error (s'.stopIn id st)
        | (s, .ok ls) =>
          let s := if ls.any (fun l => l.2.any (fun x => x.se)) then s.seal id else s
          let (s, vs) := s.readLanes w (modeCache mode) (s.heatOf id) ls
          let s := if modeOrd mode = 1 then s.acquireCrew id (modeScope mode) 3 else s
          let x := extendTo64 sx size (leNat (vs.flatMap Prod.snd))
          match s.emitLoad id [.s o.d.toNat x] o.l.toNat (s.got w false as ls) with
          | .error st => .error st
          | .ok s => .ok (s, 0))
    kindM true
    (fun s k e =>
      if !loadOrd e.mode then .error stopIllegal
      else
        let as := uniAcc (e.rdS o.a.toNat) o.o.toNat size aRead e.mode
        match s.engAccess k e as with
        | .error st => .error st
        | .ok (s, ls) =>
          let w := s.whoEng k e
          let (s, vs) := s.readLanes w (modeCache e.mode) none ls
          let s := if modeOrd e.mode = 1 then s.engAcquire w (modeScope e.mode) else s
          match (s.got w false as ls).bad with
          | some m => .error (.held (s.raiseEng k ⟨m.cause, 0, m.addr⟩))
          | none =>
            match e.setLater o.d.toNat o.l.toNat (extendTo64 sx size (leNat (vs.flatMap Prod.snd))) (s.got w false as ls) with
            | .error st => .error st
            | .ok e' => .ok (s.setEng k e'))

def execSst (o : OpS3) (z : BitVec 2) (s : State) : Host.Outcome State Fault Refusal :=
  let size := slBytes z
  s.sharedWord true
    (fun s id c h =>
      let mode := h.wrk.mode
      match c.check h [] [] [] (storeOrd mode) true with
      | .error e => .error e
      | .ok () =>
        match s.checkLanes (s.whoCrew id c) (s.siteCrew id c) c.com.watchFail false
            (uniAcc (h.wrk.rdS o.a.toNat) o.o.toNat size aWrite mode) with
        | (s', .error st) => .error (s'.stopIn id st)
        | (s, .ok ls) =>
          let cells := ls.flatMap (fun l => cellsOf l.2 (leOf size (h.wrk.rdS o.d.toNat).toNat))
          .ok (s.storeCells id h (modeStore mode == 2 || decide (5 ≤ modeScope mode)) cells mode, 0))
    kindM true
    (fun s k e =>
      if !storeOrd e.mode then .error stopIllegal
      else
        match s.engAccess k e (uniAcc (e.rdS o.a.toNat) o.o.toNat size aWrite e.mode) with
        | .error st => .error st
        | .ok (s, ls) =>
          let w := s.whoEng k e
          let s := if modeOrd e.mode = 2 then s.engRelease w (modeScope e.mode) else s
          .ok (s.engStore w (modeScope e.mode) (modeCache e.mode) (ls.flatMap (fun l => cellsOf l.2 (leOf size (e.rdS o.d.toNat).toNat)))))

-- Constant loads (R253).

/-- The line under which a constant cache holds a byte. -/
def constLine (x : Hit) : Option Nat :=
  match x.sp with
  | .pkg => some (lineOf x.pa)
  | .peer => some (peerLine x.pa)
  | _ => none

/-- A byte read through the cluster's constant cache. -/
def State.constByte (s : State) (w : Who) (cluster : Nat) (x : Hit) : Byte :=
  match (constLine x).bind (s.mem.line (constHolder cluster)) with
  | some l => l.byte (x.pa % 128)
  | none => match x.sp with
    | .pkg => s.mem.homeByte x.pa
    | _ => s.seeHit w x

def State.constFill (s : State) (cluster : Nat) (hs : List Hit) : State :=
  let h := constHolder cluster
  let ls := ((hs.filter (fun x => (constLine x).isSome)).map (fun x => (x.sp == .peer, x.pa / 128 * 128))).eraseDups
  { s with mem := ls.foldl (fun m x =>
      if x.1 then m.fillPeer (some h) x.2 0
      else if (m.line h (lineOf x.2)).isSome then m.use h (lineOf x.2)
      else m.setLine h (lineOf x.2) (m.granted (lineOf x.2) .S)) s.mem }

def execLdc (d a o : BitVec 5) (e : BitVec 3) (l : BitVec 4) (t : Bool) (s : State) : Host.Outcome State Fault Refusal :=
  s.crewWord (Instr.wf (.ldc d a o e l t)) (fun s id c h =>
    let mode := h.wrk.mode
    let fmt := modeFmt mode
    let f : MemForm := if t then .t else .w
    let n := extN e
    let size := formBytes f fmt n
    let kd := h.keys d e
    match c.check h [] kd [] (loadOrd mode && formOk f fmt d e) true with
    | .error x => .error x
    | .ok () =>
      let as := (uniAcc (h.wrk.rdS a.toNat) o.toNat size aRead mode).map (fun x => (x.1, { x.2 with page := 1 }))
      if as.any (fun x => x.2.va % x.2.align == 0) && (modeStore mode == 0 || modeStore mode == 2) then
        .error (.fault ⟨cACCESS, aRead, addrOf (h.wrk.rdS a.toNat).toNat o.toNat size⟩ none)
      else
        let w := s.whoCrew id c
        match s.checkLanes w (s.siteCrew id c) c.com.watchFail false as with
        | (s', .error st) => .error (s'.stopIn id st)
        | (s, .ok ls) =>
          let hs := ls.flatMap Prod.snd
          let g := s.coreOf c / 96
          let s := if hs.any (fun x => x.se) then s.seal id else s
          let bs := hs.map (fun x => match (s.heatOf id).bind (fun h => h.forward x.sp x.pa) with
            | some b => b
            | none => s.constByte w g x)
          let s := (s.constFill g hs).touchHits w (modeCache mode) (hs.filter (fun x => constLine x == none))
          let s := if modeOrd mode = 1 then s.acquireCrew id (modeScope mode) 3 else s
          let img := loadImage f fmt n (modeSgn mode) bs
          match s.emitLoad id (vecW kd (c.lanes h) ((List.range 32).map (fun _ => img)) (fun _ => formTag f fmt)) l.toNat
              (s.got w false as ls) with
          | .error st => .error st
          | .ok s => .ok (s, 0))

-- Cache and placement operations (R254).

/-- Line addresses of the contributing lanes. -/
def cacheAddrs (o : OpCache) (c : Crew) (h : Heat) : List (Nat × Nat) :=
  (lanesIn (c.lanes h)).map (fun l => (l, addrOf (h.baseAt o.k o.a l) o.o.toNat 128 / 128 * 128))

/-- The access of one line, for the storage rules of R241. -/
def lineAcc (va k : Nat) (mode : BitVec 40) : Acc := ⟨va, 128, k, modeStore mode, modeScope mode, 1, false, false, 0⟩

/-- PREF and HINT drop a lane whose translation is missing or forbidden; on a page that is private to another core too, and
reclassify nothing (log 84). -/
def State.lineHit (s : State) (w : Who) (va : Nat) (mode : BitVec 40) : State × Option Hit :=
  match s.vaPlace w (lineAcc va aRead mode) none true with
  | (s', .ok (h :: _)) => (s', some h)
  | _ => (s, none)

/-- M obtained for a line as a DEVICE store obtains it, no byte written (R214, Table 15-4). -/
def State.ownLine (s : State) (w : Who) (va : Nat) (h : Hit) : State :=
  match s.lookup w va with
  | (s, .ok x) =>
    if pteW x.leaf.toNat && h.sp == .pkg && h.cls != 2 then
      let (m, hd) := s.mem.prepStore s.clock w.port 4 (lineOf h.pa) (h.cls == 0)
      { s with mem := m.putAt hd (lineOf h.pa) [] }
    else s
  | (s, .error _) => s

def prefLine (sub : Nat) (w : Who) (mode : BitVec 40) (s : State) (la : Nat × Nat) : State :=
  match s.lineHit w la.2 mode with
  | (s, none) => s
  | (s, some h) =>
    if sub = 0 then s.touchHits w 0 ((List.range 128).map (fun i => { h with pa := h.pa + i }))
    else if sub = 1 then (if h.sp == .pkg then { s with mem := s.mem.fillL2 (lineOf h.pa) } else s)
    else s.ownLine w la.2 h

def execPref (o : OpCache) (s : State) : Host.Outcome State Fault Refusal :=
  s.crewWord (Instr.wf (.pref o)) (fun s id c h =>
    match c.laneCheck h (h.baseKeys o.k o.a) [] [] true true with
    | .error e => .error e
    | .ok () =>
      if modeStore h.wrk.mode = 0 then .ok (s, 0)
      else .ok ((cacheAddrs o c h).foldl (prefLine o.s.toNat (s.whoCrew id c) h.wrk.mode) s, 0))

/-- CFLUSH and CINV are checked as a load, are no class conflict, and are performed with the heat's stores; on a private or
read-only page CFLUSH acts on the copies that CINV names (R254). -/
def flushEff (o : OpCache) (watched : Bool) (op : Nat → Bool → BufOp) : Eff := fun s id c h =>
  let mode := h.wrk.mode
  match c.laneCheck h (h.baseKeys o.k o.a) [] [] true true with
  | .error e => .error e
  | .ok () =>
    if modeStore mode = 0 then .ok (s, 0)
    else
      let w := s.whoCrew id c
      let (s, rs) := (cacheAddrs o c h).foldl (fun (x : State × List (Nat × LaneRes)) la =>
        let a := lineAcc la.2 aRead mode
        let wf := if watched then c.com.watchFail { a with k := aWrite } else none
        let (s, r) := x.1.vaPlace w a wf false
        (s, x.2 ++ [(la.1, r)])) (s, [])
      match laneOutcome true rs with
      | .error st => .error st
      | .ok ls =>
        .ok (ls.foldl (fun s l => match l.2 with
          | x :: _ => if x.sp == .pkg then s.buffer id (op x.pa (x.cls == 0))
            else if x.sp == .peer then s.buffer id (op (peerLine x.pa * 128) true) else s
          | [] => s) s, 0)

def execCflush (o : OpCache) (s : State) : Host.Outcome State Fault Refusal :=
  s.crewWord (Instr.wf (.cflush o)) (flushEff o false (fun pa tree => .flush pa (o.s == 1) tree))
def execCinv (o : OpCache) (s : State) : Host.Outcome State Fault Refusal :=
  s.crewWord (Instr.wf (.cinv o)) (flushEff o true (fun pa _ => .inval pa))

/-- HINT: the advice reaches the die's migration engine (R254, R390). -/
def execHint (o : OpCache) (s : State) : Host.Outcome State Fault Refusal :=
  s.crewWord (Instr.wf (.hint o)) (fun s id c h =>
    match c.laneCheck h (h.baseKeys o.k o.a) [] [] true true with
    | .error e => .error e
    | .ok () =>
      if modeStore h.wrk.mode = 0 then .ok (s, 0)
      else
        let w := s.whoCrew id c
        .ok ((cacheAddrs o c h).foldl (fun s la =>
          match s.lineHit w la.2 h.wrk.mode with
          | (s, some x) =>
            let q := Tab.get s.pool.hints w.die []
            { s with pool := { s.pool with hints := Tab.put s.pool.hints w.die (q ++ [.hint (x.pa / 65536) o.s.toNat]) } }
          | (s, none) => s) s, 0))

end Sys2Proof.Machine
end

