-- ==== Sys2Proof/Machine/Tile.lean ====
section
/-! DEFINITION. Tile and accumulator descriptors, the elements of tiles in memory and of accumulators in registers
(R73, R74, R77, R80, R88, R95, R276 to R278, R290 to R292). -/

namespace Sys2Proof.Machine

-- Descriptors (Tables 17-2 and 17-3).

/-- Field `f` of tile `n`; TSCALE is 1.0 at a context's start. -/
def tileField (t : Tab DWord) (n f : Nat) : Nat := (Tab.get t (n * 8 + f) (if f = 3 then 0x3F800000 else 0)).toNat
def accField (t : Tab DWord) (n f : Nat) : Nat := (Tab.get t (n * 8 + f) 0).toNat

/-- A tile descriptor's fields. -/
structure TileD where
  sto : Bool
  addr : Nat
  pitch : Nat
  cols : Nat
  rows : Nat
  tr : Bool
  fmt : Nat
  scale : Nat
  msto : Bool
  mx : Nat
  deriving DecidableEq, Repr

def TileD.of (t : Tab DWord) (n : Nat) : TileD :=
  let f := tileField t n
  { sto := (f 0).testBit 63, addr := bits (f 0) 0 57, pitch := bits (f 1) 32 32, cols := bits (f 1) 16 16,
    rows := bits (f 1) 0 16, tr := (f 2).testBit 8, fmt := bits (f 2) 0 5, scale := bits (f 3) 0 32,
    msto := (f 4).testBit 63, mx := bits (f 4) 0 57 }

/-- An accumulator descriptor's fields; `no` is its number. -/
structure AccD where
  no : Nat
  crew : Nat
  tslot : Nat
  base : Nat
  rnd : Rnd
  fmt : Nat
  n : Nat
  m : Nat
  seed : Nat
  gcnt : Nat
  gfirst : Nat
  gslice : Nat
  deriving DecidableEq, Repr

def AccD.of (t : Tab DWord) (no : Nat) : AccD :=
  let f := accField t no
  { no := no, crew := bits (f 0) 20 4, tslot := bits (f 0) 16 4, base := bits (f 0) 0 10,
    rnd := ⟨bits (f 1) 16 3, (f 1).testBit 19, (f 1).testBit 20⟩, fmt := bits (f 1) 8 5, n := 8 * 2 ^ bits (f 1) 4 2,
    m := 16 * 2 ^ bits (f 1) 0 2, seed := bits (f 2) 0 32, gcnt := bits (f 3) 8 4 + 1, gfirst := bits (f 3) 4 4,
    gslice := bits (f 3) 0 3 }

/-- Registers of the block (R278). -/
def AccD.regs (a : AccD) : Nat := (if a.fmt = fmtFP64 then 2 else 1) * (a.m * a.n / 32)

/-- Local cores of a slice's positions, ascending; none for a gang that no slice has (R276). -/
def gangCores (cluster slice first count : Nat) : List Nat :=
  if decide (slice ≤ 5) && decide (first + count ≤ 16) then
    (List.range count).map (fun g => cluster * 96 + 16 * slice + first + g)
  else []

def AccD.cores (a : AccD) (cluster : Nat) : List Nat := gangCores cluster a.gslice a.gfirst a.gcnt

/-- The three accumulator formats. -/
def accFmt (f : Nat) : Bool := f == fmtFP64 || f == fmtFP32 || f == fmtFP16

-- Rows in memory (R291).

def TileD.sRows (t : TileD) : Nat := if t.tr then t.cols else t.rows
def TileD.sCols (t : TileD) : Nat := if t.tr then t.rows else t.cols
def TileD.rowBytes (t : TileD) : Nat :=
  if fmtIsGrist t.fmt then t.sCols / 16 * gristBytes t.fmt else t.sCols * elemBits t.fmt / 8

/-- The ACCESS conditions of R291. -/
def TileD.bad (t : TileD) : Bool :=
  let unit :=
    if fmtIsGrist t.fmt then 16
    else if fmtIsOcp t.fmt && t.mx != 0 then 32
    else if t.fmt = fmtE2M3 || t.fmt = fmtE3M2 then 4
    else if t.fmt = fmtE2M1 then 2 else 1
  t.rows == 0 || t.cols == 0 || decide (t.pitch < t.rowBytes) || t.sCols % unit != 0
    || (fmtIsGrist t.fmt && (t.addr % gristBytes t.fmt != 0 || t.pitch % gristBytes t.fmt != 0))

/-- Table 5-9. -/
def mmaFmts (a b acc : Nat) : Bool :=
  if (fmtIsGrist a && fmtIsGrist b) || (fmtIsOcp a && fmtIsOcp b) || (a == fmtBF16 && b == fmtBF16)
    || (a == fmtFP32 && b == fmtFP32) then acc == fmtFP32
  else if a == fmtFP16 && b == fmtFP16 then acc == fmtFP32 || acc == fmtFP16
  else a == fmtFP64 && b == fmtFP64 && acc == fmtFP64

/-- The accesses of a tile's stored rows, and of an OCP tile's scale array. -/
def tileAcc (mode : BitVec 40) (sto : Bool) (addr n k : Nat) : Acc :=
  ⟨addr, n, k, if sto then 0 else 3, modeScope mode, 1, false, false, 0⟩

def TileD.rowAccs (t : TileD) (mode : BitVec 40) (k : Nat) : List (Nat × Acc) :=
  (List.range t.sRows).map (fun i => (0, tileAcc mode t.sto ((t.addr + i * t.pitch) % 2 ^ 64) t.rowBytes k))

def TileD.hasScales (t : TileD) : Bool := fmtIsOcp t.fmt && t.mx != 0

def TileD.scaleAccs (t : TileD) (mode : BitVec 40) (k : Nat) : List (Nat × Acc) :=
  if t.hasScales then
    (List.range t.sRows).map (fun i =>
      (0, tileAcc mode t.msto ((t.mx + i * (t.sCols / 32)) % 2 ^ 64) (t.sCols / 32) k))
  else []

/-- The values of one stored row, before scales. -/
def rowVals (f : Nat) (ftz : Bool) (n : Nat) (bs : List Byte) : List Val :=
  let x := leNat bs
  if fmtIsGrist f then
    (List.range (n / 16)).flatMap (fun b => gristDecode f (bits x (8 * gristBytes f * b) (8 * gristBytes f)))
  else (List.range n).map (fun j => valOf f ftz (bits x (elemBits f * j) (elemBits f)))

/-- An MX scale on an element (R73). -/
def mxScaled (code : Nat) (v : Val) : Val := if code = 0xFF then .nan false else scaleVal v ((code : Int) - 127)

/-- The tile scale on an element (R80): a zero scale keeps the element's sign. -/
def tileScaled (scale : Nat) (v : Val) : Val :=
  let s := decodeVal fmtFP32 scale
  match s, v with
  | .fin _ 0 _ _, .fin neg _ _ _ => .fin neg 0 0 false
  | _, _ => (mulVal v s).1

/-- Reads a context's bytes for each access. -/
def State.engRead (s : State) (k : Nat) (e : Eng) (mode : BitVec 40) (as : List (Nat × Acc)) :
    Except Stop (State × List (List Byte)) :=
  match s.engAccess k e as with
  | .error st => .error st
  | .ok (s, ls) =>
    let (s, vs) := s.readLanes (s.whoEng k e) (modeCache mode) none ls
    let s := if modeOrd mode = 1 then s.engAcquire (s.whoEng k e) (modeScope mode) else s
    match (ls.zip as).find? (fun x => s.poisoned (s.whoEng k e) x.1.2) with
    | some x => .error (.after s ⟨cPOISON, 0, x.2.2.va⟩)
    | none => .ok (s, vs.map Prod.snd)

/-- The elements of a tile by stored row. -/
def State.readTile (s : State) (k : Nat) (e : Eng) (mode : BitVec 40) (t : TileD) (ftz : Bool) :
    Except Stop (State × List (List Val)) :=
  match s.engRead k e mode (t.rowAccs mode aRead) with
  | .error st => .error st
  | .ok (s, rows) =>
    match s.engRead k e mode (t.scaleAccs mode aRead) with
    | .error st => .error st
    | .ok (s, sc) =>
      .ok (s, (List.range rows.length).map (fun i =>
        let vs := rowVals t.fmt ftz t.sCols (rows.getD i [])
        (List.range vs.length).map (fun j =>
          let v := vs.getD j (.nan false)
          let v := if t.hasScales then mxScaled ((sc.getD i []).getD (j / 32) 0).toNat v else v
          tileScaled t.scale v)))

/-- Element (i, j) of a tile. -/
def TileD.at_ (t : TileD) (rows : List (List Val)) (i j : Nat) : Val :=
  if t.tr then (rows.getD j []).getD i (.nan false) else (rows.getD i []).getD j (.nan false)

-- Accumulators in registers (R276, R277).

/-- Elements in register order, the lanes of one index together: index, lane, row, local column. -/
def AccD.elems (a : AccD) : List (Nat × Nat × Nat × Nat) :=
  let w := a.n / 8
  let h := a.m / 4
  (List.range (h * w)).flatMap (fun i => (List.range 32).map (fun l =>
    (i, l, l / 8 * h + i / w, l % 8 * w + i % w)))

/-- A register of the crew, as the matrix unit writes it: the committed copy and every copy that stands over it. -/
def Regs.setAbs (r : Regs) (k : Nat) (x : Lanes) (tag : Nat) : Regs :=
  { r with v := Tab.put r.v k x, tag := Tab.put r.tag k tag }

def Crew.setAbs (c : Crew) (k : Nat) (x : Lanes) (tag : Nat) : Crew :=
  { c with
    com := c.com.setAbs k x tag
    heat := c.heat.map (fun h => { h with wrk := h.wrk.setAbs k x tag })
    trap := { c.trap with heat := c.trap.heat.map (fun h => { h with wrk := h.wrk.setAbs k x tag }) } }

/-- The bits of the block's elements, in the order of `elems`. -/
def AccD.load (a : AccD) (c : Crew) : List Nat :=
  (List.range (a.m * a.n / 32)).flatMap (fun i => (List.range 32).map (fun l =>
    let reg : Nat → Nat := fun r => (lane (c.com.rdV r) l).toNat
    if a.fmt = fmtFP64 then reg (a.base + 2 * i) + 2 ^ 32 * reg (a.base + 2 * i + 1)
    else if a.fmt = fmtFP16 then reg (a.base + i) % 2 ^ 16 else reg (a.base + i)))

/-- A register of the accumulator holds an uncorrectable error in a crew (R15, R203). -/
def AccD.lost (a : AccD) (c : Crew) : Bool := (List.range a.regs).any (fun i => c.com.bad (a.base + i))

/-- Writes the elements, in the order of `elems`; the tag is the accumulator's (R83). -/
def AccD.save (a : AccD) (c : Crew) (xs : List Nat) : Crew :=
  (List.range (a.m * a.n / 32)).foldl (fun c i =>
    let lo : Lanes := lanesOf (fun l => BitVec.ofNat 32 (xs.getD (32 * i + l) 0))
    let hi : Lanes := lanesOf (fun l => BitVec.ofNat 32 (xs.getD (32 * i + l) 0 / 2 ^ 32))
    if a.fmt = fmtFP64 then (c.setAbs (a.base + 2 * i) lo a.fmt).setAbs (a.base + 2 * i + 1) hi a.fmt
    else c.setAbs (a.base + i) lo a.fmt) c

-- Draws (R88).

/-- The draw of lane `l` at gang position `g`. -/
def AccD.draw (a : AccD) (g l : Nat) (t : Tab Word) : Nat × Tab Word :=
  if a.rnd.mode = rndSR then
    let key := (a.no * 16 + g) * 32 + l
    let x := lfsrDraw (Tab.get t key (seedOf (BitVec.ofNat 32 (a.seed ^^^ (32 * g + l)))))
    (x.toNat, Tab.put t key x)
  else (0, t)

/-- Each element of a list is replaced with its draw. -/
def AccD.eachElem (a : AccD) (g : Nat) (t : Tab Word) (xs : List Nat) (f : Nat → Nat → Nat → Nat → Nat) :
    List Nat × Tab Word :=
  let es := a.elems
  (List.range es.length).foldl (fun (acc : List Nat × Tab Word) i =>
    let (_, l, r, c) := es.getD i (0, 0, 0, 0)
    let (d, t) := a.draw g l acc.2
    (acc.1 ++ [f d (xs.getD i 0) r c], t)) ([], t)

-- Owners (R292, R296).

/-- The crew that a descriptor names on a core, with its number in the state. -/
def State.accCrew (s : State) (e : Eng) (a : AccD) (core : Nat) : Option (Nat × Crew) :=
  match s.teams.find? (fun kv => kv.1 / 2 ^ 48 == e.rk && kv.2.st == .placed && kv.2.core == core && kv.2.idx == a.tslot) with
  | some kv => (s.crew (kv.1 * 16 + a.crew)).map (fun c => (kv.1 * 16 + a.crew, c))
  | none => none

/-- An AWAY entry of exactly the block. -/
def AccD.heldBy (a : AccD) (c : Crew) : Bool :=
  c.toks.any (fun t => !t.returned && tokBase t.word == a.base && tokCount t.word == a.regs && tokFmt t.word == a.fmt)

/-- The owning crews in gang order; none while some core's crew does not hold the entry. -/
def State.owners (s : State) (k : Nat) (e : Eng) (a : AccD) : Option (List (Nat × Crew)) :=
  (a.cores (engUnit k)).foldl (fun o core => match o, s.accCrew e a core with
    | some l, some p => if a.heldBy p.2 then some (l ++ [p]) else none
    | _, _ => none) (some [])

/-- Sets the AWAY entries that a descriptor names to RETURNED (R296, R301). -/
def State.returnBlock (s : State) (k : Nat) (e : Eng) (a : AccD) : State :=
  (a.cores (engUnit k)).foldl (fun s core => match s.accCrew e a core with
    | some (id, _) => s.updCrew id (fun c => { c with
        toks := c.toks.map (fun t => if tokBase t.word = a.base then { t with returned := true } else t) })
    | none => s) s

end Sys2Proof.Machine
end

