-- ==== Sys2Proof/Machine/Matrix.lean ====
section
/-! DEFINITION. Miller contexts: dependency slots, descriptors, grid mode, the matrix operations from issue to completion
(R276 to R280, R285, R287 to R301, R411). -/

namespace Sys2Proof.Machine

-- Dependency slots (R287).

def Eng.dep (e : Eng) (n : Nat) : Nat := Tab.get e.deps n 0
def Eng.setDep (e : Eng) (n v : Nat) : Eng := { e with deps := Tab.put e.deps n v }

/-- Some slot of a wait-mask is not complete. -/
def Eng.waits (e : Eng) (w : BitVec 8) : Bool := (List.range 8).any (fun i => w.getLsbD i && e.dep i != 0)

-- Operations in flight.

/-- The accumulator that an X operation names, and the tiles it reads or writes. -/
def xNames (op : Instr) : Option (Nat × List Nat) :=
  match op with
  | .mma a t u _ _ _ _ => some (a.toNat, [t.toNat, u.toNat])
  | .mzero a _ _ => some (a.toNat, [])
  | .mscale a t _ _ _ => some (a.toNat, [t.toNat])
  | .msta a t _ _ _ => some (a.toNat, [t.toNat])
  | _ => none

def XOp.acc (x : XOp) : AccD := AccD.of x.accs (((xNames x.op).map Prod.fst).getD 0)
def XOp.tile (x : XOp) (i : Nat) : TileD := TileD.of x.tiles ((((xNames x.op).map Prod.snd).getD []).getD i 0)

/-- An unfinished operation names a tile, or an accumulator (R288). -/
def Eng.usesTile (e : Eng) (n : Nat) : Bool := e.xops.any (fun x => match xNames x.op with
  | some (_, ts) => ts.contains n
  | none => false)
def Eng.usesAcc (e : Eng) (n : Nat) : Bool := e.xops.any (fun x => match xNames x.op with
  | some (a, _) => a == n
  | none => false)

/-- The checks of R296 to R299 at issue. -/
def State.xCheck (s : State) (k : Nat) (x : XOp) : Option Stop :=
  let a := x.acc
  let t := x.tile 0
  let u := x.tile 1
  let wide := a.gcnt * a.n
  let (fmtBad, shapeBad) := match x.op with
    | .mma _ _ _ _ _ _ _ =>
      (!mmaFmts t.fmt u.fmt a.fmt,
        t.rows != a.m || u.rows != t.cols || u.cols != wide || t.bad || u.bad)
    | .mscale _ _ _ _ v =>
      if v = 2 then (false, false)
      else (t.fmt != fmtFP32,
        (if v = 0 then t.rows != a.m || t.cols != 1 else t.rows != 1 || t.cols != wide) || t.bad)
    | .msta _ _ _ _ _ =>
      let sc := decodeVal fmtFP32 t.scale
      (!(fmtIsFloat t.fmt || fmtIsOcp t.fmt || fmtIsGrist t.fmt) || sc.isNaN || sc.isInf || sc.isZero,
        t.rows != a.m || t.cols != wide || t.bad || (fmtIsOcp t.fmt && t.mx == 0))
    | _ => (false, false)
  let cores := a.cores (engUnit k)
  firstStop
    [ (!accFmt a.fmt || fmtBad, stopFormat),
      (shapeBad || decide (256 < a.regs) || decide (1023 < a.base + a.regs - 1), stopAccess),
      (cores.isEmpty || cores.any (fun c => (s.coreSt c).grid != some k), stopAccess) ]

/-- The record of an operation, with the descriptors as they stand. -/
def Eng.xop (e : Eng) (uid : Nat) (op : Instr) (slot now : Nat) : XOp :=
  { id := uid, op := op, tiles := e.tiles, accs := e.accs, slot := slot, mode := e.mode, started := false, pc := e.pc,
    heat := e.entry.getD e.pc, off := e.off, since := now }

/-- An X operation issues: its descriptors are read, it is checked, and it adds 1 to its set-slot (R287, R288). -/
def xIssue (op : Instr) (slot : BitVec 3) (w : BitVec 8) : EngEff := fun s k e =>
  if e.waits w || decide (255 ≤ e.dep slot.toNat) then .error (.wait .engine)
  else
    let x := e.xop s.uid op slot.toNat s.clock
    match s.xCheck k x with
    | some st => .error st
    | none =>
      let e := e.setDep slot.toNat (e.dep slot.toNat + 1)
      .ok ({ s with uid := s.uid + 1 }.setEng k { e with xops := e.xops ++ [x] })

def execMma (a t u : BitVec 4) (slot : BitVec 3) (w : BitVec 8) (z r : Bool) (s : State) : Host.Outcome State Fault Refusal :=
  s.engWord kindM true (xIssue (.mma a t u slot w z r) slot w)
def execMzero (a : BitVec 4) (slot : BitVec 3) (w : BitVec 8) (s : State) : Host.Outcome State Fault Refusal :=
  s.engWord kindM true (xIssue (.mzero a slot w) slot w)
def execMscale (a t : BitVec 4) (slot : BitVec 3) (w : BitVec 8) (v : BitVec 2) (s : State) : Host.Outcome State Fault Refusal :=
  s.engWord kindM (v != 3) (xIssue (.mscale a t slot w v) slot w)
def execMsta (a t : BitVec 4) (slot : BitVec 3) (w : BitVec 8) (z : Bool) (s : State) : Host.Outcome State Fault Refusal :=
  s.engWord kindM true (xIssue (.msta a t slot w z) slot w)

/-- DWAIT (R300). -/
def execDwait (w : BitVec 8) (s : State) : Host.Outcome State Fault Refusal :=
  s.engWord kindM true (fun s _ e => if e.waits w then .error (.wait .engine) else .ok s)

/-- DWAIT.arm (R287, R300). -/
def execDwaitArm (n : BitVec 4) (slot : BitVec 3) (s : State) : Host.Outcome State Fault Refusal :=
  s.engWord kindM true (ownEff (fun e =>
    if 255 < e.dep slot.toNat + n.toNat + 1 then .error (.wait .engine)
    else .ok (e.setDep slot.toNat (e.dep slot.toNat + n.toNat + 1))))

-- Descriptors (R290, R292, R293).

/-- Bits that a descriptor field may hold. -/
def tileMask (f : Nat) : Nat :=
  match f with
  | 0 => 2 ^ 63 + (2 ^ 57 - 1)
  | 1 => 2 ^ 64 - 1
  | 2 => 0x11F
  | 3 => 2 ^ 32 - 1
  | _ => 2 ^ 63 + (2 ^ 57 - 1)
def accMask (f : Nat) : Nat :=
  match f with
  | 0 => 0xFF03FF
  | 1 => 0x1F1F33
  | 2 => 2 ^ 32 - 1
  | _ => 0xFF7

def execTset (o : Op3) (s : State) : Host.Outcome State Fault Refusal :=
  s.engWord kindM (Instr.wf (.tset o)) (ownEff (fun e =>
    let x := (e.rdS o.a.toNat).toNat
    let f := o.b.toNat
    if e.usesTile o.d.toNat then .error (.wait .engine)
    else if x &&& tileMask f != x || (f == 2 && fmtReserved (bits x 0 5)) then .error stopAccess
    else .ok { e with tiles := Tab.put e.tiles (o.d.toNat * 8 + f) (e.rdS o.a.toNat) }))

/-- ASET; a write of the seed restarts the draws. -/
def execAset (o : Op3) (s : State) : Host.Outcome State Fault Refusal :=
  s.engWord kindM (Instr.wf (.aset o)) (ownEff (fun e =>
    let x := (e.rdS o.a.toNat).toNat
    let f := o.b.toNat
    if e.usesAcc o.d.toNat then .error (.wait .engine)
    else if f == 1 && decide (6 ≤ bits x 16 3) then .error stopAccess
    else .ok { e with
      accs := Tab.put e.accs (o.d.toNat * 8 + f) (BitVec.ofNat 64 (x &&& accMask f))
      lfsr := if f = 2 then Tab.drop e.lfsr (fun key => key / 512 == o.d.toNat) else e.lfsr }))

def execTget (o : Op3) (s : State) : Host.Outcome State Fault Refusal :=
  s.engWord kindM (Instr.wf (.tget o)) (ownEff (fun e =>
    let b := o.b.toNat
    e.setS o.d.toNat (BitVec.ofNat 64
      (if b < 16 then tileField e.tiles o.a.toNat b else accField e.accs o.a.toNat (b - 16)))))

-- Grid mode (R280, R294).

/-- The gang word's cores. -/
def gmodeCores (k : Nat) (x : DWord) : List Nat :=
  gangCores (engUnit k) (fieldOf x 0 3) (fieldOf x 4 4) (fieldOf x 8 4 + 1)

/-- A core holds a crew of another region. -/
def State.foreignCrew (s : State) (rk core : Nat) : Bool :=
  s.teams.any (fun kv => kv.2.st == .placed && kv.2.core == core && kv.1 / 2 ^ 48 != rk)

/-- A crew of the core has results in flight (R280). -/
def State.vectorBusy (s : State) (core : Nat) : Bool :=
  s.crews.any (fun kv => s.coreOf kv.2 == core && ((match kv.2.heat with
    | some h => !h.pend.isEmpty
    | none => false) || !kv.2.named.isEmpty))

/-- A started operation occupies a core. -/
def Eng.occupies (e : Eng) (k core : Nat) : Bool :=
  e.xops.any (fun x => x.started && (x.acc.cores (engUnit k)).contains core)

def execGmode (a : BitVec 5) (s : State) : Host.Outcome State Fault Refusal :=
  s.engWord kindM true (fun s k e =>
    let x := e.rdS a.toNat
    let cores := gmodeCores k x
    let grid := x.getLsbD 16
    let turn := cores.filter (fun c => (s.coreSt c).grid.isSome != grid)
    if x.toNat &&& 0x10FF7 != x.toNat || cores.isEmpty || cores.any (fun c =>
        s.foreignCrew e.rk c || (match (s.coreSt c).grid with
          | some k' => k' != k
          | none => false)) then .error stopAccess
    else if grid && turn.any s.vectorBusy then .error (.wait .engine)
    else if !grid && turn.any (e.occupies k) then .error (.wait .engine)
    else .ok { s with cores := turn.foldl (fun t c =>
      Tab.put t c { s.coreSt c with grid := if grid then some k else none }) s.cores })

-- Start (R296, R411).

/-- Operations of one block on one gang. -/
def XOp.sameBlock (k : Nat) (x y : XOp) : Bool :=
  x.acc.base == y.acc.base && x.acc.crew == y.acc.crew && x.acc.tslot == y.acc.tslot
    && x.acc.cores (engUnit k) == y.acc.cores (engUnit k)

/-- An operation may start: nothing of its block stands before it, its cores are free, and every owner holds the entry. -/
def State.xReady (s : State) (k : Nat) (e : Eng) (x : XOp) : Bool :=
  !x.started && !(e.xops.takeWhile (fun y => y.id != x.id)).any (fun y => y.sameBlock k x)
    && !(x.acc.cores (engUnit k)).any (e.occupies k) && (s.owners k e x.acc).isSome

/-- The context's work goes on: it has not stopped and is not saved with a team. -/
def Eng.live (e : Eng) : Bool := e.running && e.park.isNone && e.saved.isEmpty

/-- A context that a pre-emption drains: its operations go on until all have completed (R285, R288). -/
def State.draining (s : State) (e : Eng) : Bool :=
  e.running && e.park.isNone && e.saved.any (fun v => match Tab.find s.teams v.key with
    | some t => v.back.isNone && t.st == .placed && t.pre && t.preStep == 0
    | none => false)

def State.xGoes (s : State) (e : Eng) : Bool := e.live || s.draining e

/-- An operation starts, with the acquire of R411. -/
def execXOperationStart (eng op : Nat) (s : State) : Host.Outcome State Fault Refusal :=
  match s.eng eng with
  | none => .next s
  | some e =>
    match e.xops.find? (fun x => x.id == op) with
    | none => .next s
    | some x =>
      if s.xGoes e && s.xReady eng e x then
        .next ((s.setEng eng { e with xops := e.xops.map (fun y => if y.id = op then { y with started := true } else y) }).engAcquire
          (s.whoEng eng e) 2)
      else .next s

-- Completion.

/-- Writes the elements of every gang position. -/
def State.saveBlocks (s : State) (a : AccD) (ids : List Nat) (xs : List (List Nat)) : State :=
  (List.range ids.length).foldl (fun s g => s.updCrew (ids.getD g 0) (fun c => a.save c (xs.getD g []))) s

/-- A sum of two values. -/
def addVals (c : Rnd) (x y : Val) : Val := (sumVals (c.mode == rndRDN) [x, y]).1

/-- The exact sum of one chunk of sixteen products (R94); a short chunk is padded with products +0. -/
def chunkSum (c : Rnd) (n t : Nat) (va vb : Nat → Val) : Val :=
  let ks := (List.range 16).map (fun i => 16 * t + i)
  (sumVals (c.mode == rndRDN) (ks.map (fun i => if i < n then (mulVal (va i) (vb i)).1 else .fin false 0 0 false))).1

/-- MMA on one gang position. -/
def mmaPosition (a : AccD) (z : Bool) (n g : Nat) (va vb : Nat → Nat → Val) (c : Crew) (t : Tab Word) :
    List Nat × Tab Word :=
  let xs := if z then a.elems.map (fun _ => 0) else a.load c
  (List.range (ceilDiv n 16)).foldl (fun (acc : List Nat × Tab Word) ch =>
    a.eachElem g acc.2 acc.1 (fun d x r col =>
      let sum := chunkSum a.rnd n ch (fun i => va r i) (fun i => vb i (g * a.n + col))
      (roundTo a.fmt a.rnd d (addVals a.rnd (valOf a.fmt a.rnd.ftz x) sum)).1)) (xs, t)

/-- What an operation does to each gang position's elements. -/
def State.eachPosition (s : State) (k : Nat) (e : Eng) (x : XOp) (ps : List (Nat × Crew))
    (f : Nat → Crew → Tab Word → List Nat × Tab Word) : State :=
  let (xs, t) := (List.range ps.length).foldl (fun (acc : List (List Nat) × Tab Word) g =>
    match ps[g]? with
    | some p => let (v, t) := f g p.2 acc.2; (acc.1 ++ [v], t)
    | none => acc) ([], e.lfsr)
  let s := match s.eng k with
    | some e => s.setEng k { e with lfsr := t }
    | none => s
  s.saveBlocks x.acc (ps.map Prod.fst) xs

/-- An accumulator value over a tile scale, exact but for a sticky bit (R299). -/
def quotVal (v sc : Val) : Val :=
  match v, sc with
  | .fin n m e _, .fin n' m' e' _ => if m = 0 then .fin (n != n') 0 0 false else divFin (n != n') m e m' e'
  | .inf n, .fin n' _ _ _ => .inf (n != n')
  | x, _ => x

/-- One stored row of encoded elements: its bytes and its scale bytes. -/
def encodeRow (f : Nat) (c : Rnd) (xs : List (Val × Nat)) : List Byte × List Byte :=
  let part : Nat → Nat → List (Val × Nat) := fun n b => (xs.drop (n * b)).take n
  if fmtIsGrist f then
    ((List.range (xs.length / 16)).flatMap (fun b =>
      leOf (gristBytes f) (gristEncode f c ((part 16 b).map Prod.snd) ((part 16 b).map Prod.fst)).1), [])
  else
    let (codes, scales) :=
      if fmtIsOcp f then
        let bs := (List.range (xs.length / 32)).map (fun b =>
          mxEncode f c ((part 32 b).map Prod.snd) ((part 32 b).map Prod.fst))
        (bs.flatMap (fun r => r.2.1), bs.map (fun r => BitVec.ofNat 8 r.1))
      else (xs.map (fun p => (roundTo f c p.2 p.1).1), [])
    let sb := elemBits f
    let num := (List.range codes.length).foldl (fun acc j => acc + codes.getD j 0 % 2 ^ sb * 2 ^ (sb * j)) 0
    (leOf (xs.length * sb / 8) num, scales)

/-- MSTA's stored rows (R299): the elements with their draws, by stored position. -/
def mstaRows (a : AccD) (t : TileD) (vals : List (List (Val × Nat))) : List (List Byte × List Byte) :=
  let es := a.elems
  let at_ : Nat → Nat → Val × Nat := fun r col =>
    match es.findIdx? (fun x => x.2.2.1 == r && x.2.2.2 == col % a.n) with
    | some i => (vals.getD (col / a.n) []).getD i (.nan false, 0)
    | none => (.nan false, 0)
  (List.range t.sRows).map (fun i =>
    encodeRow t.fmt a.rnd ((List.range t.sCols).map (fun j => if t.tr then at_ j i else at_ i j)))

/-- The values of one gang position over the tile scale, with their draws in register order. -/
def mstaPosition (a : AccD) (sc : Val) (g : Nat) (c : Crew) (t : Tab Word) : List (Val × Nat) × Tab Word :=
  let xs := a.load c
  let es := a.elems
  (List.range es.length).foldl (fun (acc : List (Val × Nat) × Tab Word) i =>
    let (_, l, _, _) := es.getD i (0, 0, 0, 0)
    let (d, t) := a.draw g l acc.2
    (acc.1 ++ [(quotVal (valOf a.fmt a.rnd.ftz (xs.getD i 0)) sc, d)], t)) ([], t)

/-- Stores of a context at its MODE; every access is checked before any is performed. -/
def State.engWrite (s : State) (k : Nat) (e : Eng) (mode : BitVec 40) (as : List (Nat × Acc)) (bs : List (List Byte)) :
    Except Stop State :=
  match s.engAccess k e as with
  | .error st => .error st
  | .ok (s, ls) =>
    let w := s.whoEng k e
    let cells := (List.range ls.length).flatMap (fun i => cellsOf ((ls.getD i (0, [])).2) (bs.getD i []))
    let s := if modeOrd mode = 2 then s.engRelease w (modeScope mode) else s
    .ok (s.engStore w (modeScope mode) (modeCache mode) cells)

/-- The effect of a started operation, given its owners. -/
def State.xEffect (s : State) (k : Nat) (e : Eng) (x : XOp) (ps : List (Nat × Crew)) : Except Stop State :=
  let a := x.acc
  let zeros : State → State := fun s => s.saveBlocks a (ps.map Prod.fst) (ps.map (fun _ => a.elems.map (fun _ => 0)))
  match x.op with
  | .mma _ _ _ _ _ z _ =>
    let t := x.tile 0
    let u := x.tile 1
    match s.readTile k e x.mode t a.rnd.ftz with
    | .error st => .error st
    | .ok (s, ra) =>
      match s.readTile k e x.mode u a.rnd.ftz with
      | .error st => .error st
      | .ok (s, rb) =>
        .ok (s.eachPosition k e x ps (fun g c l => mmaPosition a z t.cols g (t.at_ ra) (u.at_ rb) c l))
  | .mscale _ _ _ _ v =>
    let t := x.tile 0
    let go : State → (Nat → Nat → Nat → Val) → State := fun s f =>
      s.eachPosition k e x ps (fun g c l => a.eachElem g l (a.load c) (fun d y r col =>
        (roundTo a.fmt a.rnd d (mulVal (valOf a.fmt a.rnd.ftz y) (f g r col)).1).1))
    if v = 2 then .ok (go s (fun _ _ _ => decodeVal fmtFP32 t.scale))
    else
      match s.readTile k e x.mode t a.rnd.ftz with
      | .error st => .error st
      | .ok (s, rows) => .ok (go s (fun g r col => if v = 0 then t.at_ rows r 0 else t.at_ rows 0 (g * a.n + col)))
  | .msta _ _ _ _ z =>
    let t := x.tile 0
    let sc := decodeVal fmtFP32 t.scale
    let (vals, l) := (List.range ps.length).foldl (fun (acc : List (List (Val × Nat)) × Tab Word) g =>
      match ps[g]? with
      | some p => let (v, t) := mstaPosition a sc g p.2 acc.2; (acc.1 ++ [v], t)
      | none => acc) ([], e.lfsr)
    let rows := mstaRows a t vals
    let sc := if t.hasScales then rows.map Prod.snd else []
    match s.engWrite k e x.mode (t.rowAccs x.mode aWrite ++ t.scaleAccs x.mode aWrite) (rows.map Prod.fst ++ sc) with
    | .error st => .error st
    | .ok s =>
      let s := match s.eng k with
        | some e => s.setEng k { e with lfsr := l }
        | none => s
      .ok (if z then zeros s else s)
  | _ => .ok (zeros s)

/-- The operation reads its accumulator. -/
def XOp.loads (x : XOp) : Bool :=
  match x.op with
  | .mma _ _ _ _ _ z _ => !z
  | .mscale _ _ _ _ _ => true
  | .msta _ _ _ _ _ => true
  | _ => false

/-- The operation leaves the context: its slot is lowered (R287). -/
def State.xRemove (s : State) (k id : Nat) : State :=
  match s.eng k with
  | none => s
  | some e =>
    match e.xops.find? (fun x => x.id == id) with
    | none => s
    | some x => (s.setEng k { e.setDep x.slot (e.dep x.slot - 1) with xops := e.xops.filter (fun y => y.id != id) }).engStopped k

/-- A fault of an operation, recorded with the word that issued it (R418). -/
def State.xFault (s : State) (k : Nat) (x : XOp) (f : Fail) : State :=
  match s.eng k with
  | none => s
  | some e => (s.xRemove k x.id).stopEng k (s.engRec k e f x.heat x.pc x.off) false

/-- MMA.rt: the release, then the entries go back (R296). -/
def State.xReturn (s : State) (k : Nat) (e : Eng) (x : XOp) : State :=
  match x.op with
  | .mma _ _ _ _ _ _ true => (s.engRelease (s.whoEng k e) 2).returnBlock k e x.acc
  | _ => s

/-- A started operation completes. -/
def State.xFinish (s : State) (eng op : Nat) : State :=
  match s.eng eng with
  | none => s
  | some e =>
    match e.xops.find? (fun x => x.id == op && x.started) with
    | none => s
    | some x =>
      match s.owners eng e x.acc with
      | none => s
      | some ps =>
        if x.loads && ps.any (fun p => x.acc.lost p.2) then s.xFault eng x ⟨cPOISON, 0, 0⟩
        else
        match s.xEffect eng e x ps with
        | .ok s => (s.xReturn eng e x).xRemove eng op
        | .error (.fault f _) => s.xFault eng x f
        | .error (.after s f) => s.xFault eng x f
        | .error (.conflict va) =>
          let w := s.whoEng eng e
          s.classAsk w.die w.fdom va eng
        | .error _ => s

/-- X_OPERATION_COMPLETION: in a cluster clock that was not withheld (R345). -/
def execXOperationCompletion (eng op : Nat) (s : State) : Host.Outcome State Fault Refusal :=
  if s.power.granted.contains (.xop eng op) then .next (s.xFinish eng op) else .next s

/-- An operation that has waited for a token longer than MILLTO (R289). -/
def execTokenWaitTimeout (eng op : Nat) (s : State) : Host.Outcome State Fault Refusal :=
  match s.eng eng with
  | none => .next s
  | some e =>
    match e.xops.find? (fun x => x.id == op && !x.started) with
    | none => .next s
    | some x =>
      if s.xGoes e && s.mil.millto != 0 && decide (x.since + s.mil.millto < s.clock) && (s.owners eng e x.acc).isNone then
        .next (s.xFault eng x ⟨cTIMEOUT, 0, 0⟩)
      else .next s

-- The end of a program (R301).

/-- A context's program ends: what its handle tells is written. -/
def State.endEng (s : State) (k : Nat) : State :=
  match s.eng k with
  | none => s
  | some e => ((s.setFork e 1).laneMode k).setEng k { e with
      running := false, entry := none, off := 0, deps := [], xops := [], ents := [], wait := .none, pend := [] }

/-- MEXIT: closes the heat and ends the program. -/
def execMexit (s : State) : Host.Outcome State Fault Refusal :=
  match s.cur with
  | .crew id n =>
    match s.issuer id with
    | some (s, c) => .next (s.issueCrew id n c false noEff)
    | none => .fault .noAgent
  | .eng k =>
    match s.eng k with
    | none => .fault .noAgent
    | some e =>
      if engKind k != 0 || e.entry.isNone || decide (24 ≤ e.off) then .next (s.raiseEng k ⟨cILLEGAL, 0, 0⟩)
      else if !e.xops.isEmpty then .next (s.setEng k { e with wait := .engine })
      else
        let s := (s.setEng k (e.age true)).laneMode k
        let s := (List.range 16).foldl (fun s n => s.returnBlock k e (AccD.of e.accs n)) s
        .next ((s.engRelease (s.whoEng k e) 2).endEng k)

end Sys2Proof.Machine
end

