-- ==== Sys2Proof/Machine/Sync.lean ====
section
/-! DEFINITION. Fences, barrier words, strikes, monitored waits and the resources that refuse (R233, R234, R260 to R275,
R348). -/

namespace Sys2Proof.Machine

-- Fences (R260).

/-- FENCE: the acquire at issue, the release with the heat's stores; a Miller context performs both at once. -/
def execFence (s : State) : Host.Outcome State Fault Refusal :=
  s.sharedWord true
    (fun s id c h =>
      let mode := h.wrk.mode
      let o := modeOrd mode
      match c.check h [] [] [] (o != 0) true with
      | .error e => .error e
      | .ok () =>
        -- an acquire waits until every earlier atomic has been performed
        let s := if o = 2 then s else (s.performLater id).acquireCrew id (modeScope mode) (modeStore mode)
        .ok (if o = 1 then s else s.buffer id (.release (modeScope mode) (modeStore mode)), 0))
    kindM true
    (fun s k e =>
      let o := modeOrd e.mode
      let glob := modeStore e.mode == 1 || modeStore e.mode == 3
      if o = 0 then .error stopIllegal
      else
        let w := s.whoEng k e
        let s := if glob && o != 2 then s.engAcquire w (modeScope e.mode) else s
        .ok (if glob && o != 1 then s.engRelease w (modeScope e.mode) else s))

-- Barrier operands.

/-- The place of the barrier word at a scratch address (R263). -/
def State.barPlace (s : State) (x : Site) (va k : Nat) : Except Stop Nat :=
  let bad : Except Stop Nat := .error (.fault ⟨cACCESS, k, va⟩ none)
  if va % 64 != 0 then .error (.fault ⟨cALIGN, 0, va⟩ none)
  else if va / 2 ^ 24 = 0xFF then bad
  else match s.scrPlace x va 64 aRead with
    | .error _ => bad
    | .ok p => match s.barWord x.rk (p / 2 ^ 24) (p % 2 ^ 24) with
      | some _ =>
        if (List.range 64).any (fun i => s.badScratch (p + i)) then .error (.fault ⟨cPOISON, 0, va⟩ none) else .ok p
      | none => bad

/-- The team whose allotment holds a place. -/
def State.teamAt (s : State) (rk p : Nat) : Option Nat := (s.allotOf rk (p / 2 ^ 24) (p % 2 ^ 24)).map (fun t => t.1 % 2 ^ 48)

/-- A held team of the region whose allotment stood at a scratch address of another core (R265). -/
def State.heldAt (s : State) (x : Site) (va : Nat) : Option Nat :=
  let sel := va / 2 ^ 24
  let off := va % 2 ^ 24
  if sel = 0 || decide (0x60 < sel) then none
  else
    let core := x.cluster * 96 + sel - 1
    let ab := match s.region x.rk with
      | some r => r.allotBytes
      | none => 0
    if (s.allotOf x.rk core off).isSome then none
    else (s.teams.find? (fun kv => kv.1 / 2 ^ 48 == x.rk && (kv.2.st == .imaged || (kv.2.st == .placed && kv.2.pre))
      && kv.2.core == core && decide (kv.2.idx * ab ≤ off) && decide (off < kv.2.idx * ab + ab))).map Prod.fst

/-- Address of a barrier operand. -/
def barAddr (h : Heat) (a o : BitVec 5) : Nat := addrOf (h.wrk.rdS a.toNat).toNat o.toNat 64

/-- A uniform result with its lookahead. -/
def State.emitS (s : State) (id : Nat) (d : BitVec 5) (x : Nat) (la : Nat) : Except Stop (State × Flags) :=
  match s.emitLoad id [.s d.toNat (BitVec.ofNat 64 x)] la .clean with
  | .ok s => .ok (s, 0)
  | .error e => .error e

/-- BINIT (R264): the word as it stands after the stores that sealing performs. -/
def execBinit (o : OpS3) (s : State) : Host.Outcome State Fault Refusal :=
  s.crewWord true (fun s id c h =>
    let va := barAddr h o.a o.o
    let sc := modeScope h.wrk.mode
    let v := (h.wrk.rdS o.d.toNat).toNat
    match c.check h [] [] [] true true with
    | .error e => .error e
    | .ok () =>
      if va % 64 = 0 && (sc == 0 || decide (5 ≤ sc)) then .error (.fault ⟨cSCOPE, 0, va⟩ none)
      else match s.barPlace (s.siteCrew id c) va aWrite with
        | .error e => .error e
        | .ok w =>
          let s := s.seal id
          let b := s.bar w
          if (decide (3 ≤ sc) && v != 0) || b.wait != 0 || b.arr != 0 then .error (.fault ⟨cACCESS, aWrite, va⟩ none)
          else
            let p := bits v 16 48
            let s := { s with mem := { s.mem with lowered := Tab.del s.mem.lowered w } }
            .ok (s.putBar w { b with bsc := sc, exp := bits v 0 16, pexp := p, pend := p, pendn := 0, arr := 0 } true, 0))

/-- An arrival (R265): the state after the event and the generation. It seals at issue (R51), also where it waits for a team
that is held. -/
def State.arrival (s : State) (id : Nat) (c : Crew) (va add : Nat) : Except Stop (State × Nat × Nat) :=
  let x := s.siteCrew id c
  let bad : Stop := .fault ⟨cACCESS, aAtomic, va⟩ none
  match (if va % 64 = 0 then s.heldAt x va else none) with
  | some k => .error (.held ((s.seal id).updCrew id (fun c => { c with wait := .word k })))
  | none =>
    match s.barPlace x va aAtomic with
    | .error e => .error e
    | .ok w =>
      let s := s.seal id
      let b := s.bar w
      if !(b.bsc == 1 || b.bsc == 2) || (b.bsc == 1 && s.teamAt c.rk w != some c.team) || decide (65535 ≤ b.arr) then .error bad
      else
        let s := s.releaseCrew id b.bsc 3
        let b := s.bar w
        .ok (s.barEvent w { b with arr := b.arr + 1, pend := (b.pend + add) % 2 ^ 48 }, w, b.gen)

/-- ARRIVE and ARRIVEX. -/
def arriveEff (o : OpSy) (ext : Bool) : Eff := fun s id c h =>
  match c.check h [] [] [nameS o.d] true true with
  | .error e => .error e
  | .ok () =>
    match s.arrival id c (barAddr h o.a o.o) (if ext then fieldOf (h.wrk.rdS o.d.toNat) 0 48 else 0) with
    | .error e => .error e
    | .ok (s, _, g) => s.emitS id o.d g o.l.toNat

def execArrive (o : OpSy) (s : State) : Host.Outcome State Fault Refusal := s.crewWord true (arriveEff o false)
def execArrivex (o : OpSy) (s : State) : Host.Outcome State Fault Refusal := s.crewWord true (arriveEff o true)

/-- The acquire of a completed wait: at the word's scope, and at that of the transfers that lowered it (R233, R266). -/
def State.wakeAcquire (s : State) (id w : Nat) : State :=
  s.acquireCrew id (max (s.bar w).bsc (Tab.get s.mem.lowered w 0)) 3

/-- The limit of a TWAIT has elapsed since its issue. -/
def State.overLimit (s : State) (limit : Option Nat) (t0 : Nat) : Bool :=
  match limit with
  | some n => decide (t0 + n ≤ s.clock)
  | none => false

/-- A wait that has an entry or an unserved ticket (R266, R275), wherever its word now stands: status 0 once woken, with the
acquire, 1 when the limit has elapsed, or the wait goes on. None: the compare is made. -/
def State.waitAgain (s : State) (id : Nat) (c : Crew) (limit : Option Nat) : Option (Except Stop (State × Nat)) :=
  match c.wait with
  | .barrier w g t0 _ =>
    if g = 2 ^ 32 then some (.ok ((s.freeBar id w).wakeAcquire id w, 0))
    else if s.overLimit limit t0 then some (.ok (s.freeBar id w, 1))
    else some (.error (.wait c.wait))
  | .ticket r _ t0 _ =>
    if s.granted r id || !s.queued r id then none
    else if s.overLimit limit t0 then some (.ok (s.cancel r id, 1))
    else some (.error (.wait c.wait))
  | _ => none

/-- A wait takes an entry of the barrier table. -/
def State.takeBar (s : State) (id : Nat) (c : Crew) (w tok t0 : Nat) (bar : Bool) : State :=
  let b := s.bar w
  let g := s.coreOf c / 96
  let s := s.putBar w { b with wait := b.wait + 1 } false
  let s := { s with mem := { s.mem with barTab := Tab.put s.mem.barTab g (Tab.get s.mem.barTab g [] ++ [id]) } }
  s.updCrew id (fun c => { c with wait := .barrier w tok t0 bar })

/-- The compare of WAIT, TWAIT and BAR (R266, R267): status 0 with the acquire, 1 when the limit has elapsed, or the state in
which the crew waits. A wait sent again on a grant compares before it takes the reserved entry (R275). -/
def State.waitWord (s : State) (id : Nat) (c : Crew) (w tok : Nat) (limit : Option Nat) (bar : Bool) (va : Nat) :
    Except Stop (State × Nat) :=
  let b := s.bar w
  let res := resBarrier (s.coreOf c / 96)
  let t0 := match c.wait with
    | .ticket _ _ t _ => t
    | _ => s.clock
  if b.bsc == 0 || decide (5 ≤ b.bsc) then .error (.fault ⟨cACCESS, aRead, va⟩ none)
  else
    let granted := s.granted res id
    let s := s.claim res id
    let pass : State → State := fun s => if granted then s.grantNext res else s
    if b.gen != tok then .ok ((pass s).wakeAcquire id w, 0)
    else if s.overLimit limit t0 then .ok (pass s, 1)
    else if granted || s.roomFor res then .error (.held (s.takeBar id c w tok t0 bar))
    else .error (.held ((s.refuse res id).updCrew id (fun c => { c with wait := .ticket res tok s.clock bar })))

/-- A wait on the barrier word at an address: from where it stands, else by the compare. -/
def State.waitAt (s : State) (id : Nat) (c : Crew) (va k tok : Nat) (limit : Option Nat) (bar : Bool) :
    Except Stop (State × Nat) :=
  match s.waitAgain id c limit with
  | some r => r
  | none =>
    match s.barPlace (s.siteCrew id c) va k with
    | .error e => .error e
    | .ok w => s.waitWord id c w tok limit bar va

/-- WAIT. -/
def execWait (o : OpS3) (s : State) : Host.Outcome State Fault Refusal :=
  s.crewWord true (fun s id c h =>
    match c.check h [] [] [] true true with
    | .error e => .error e
    | .ok () =>
      match s.waitAt id c (barAddr h o.a o.o) aRead (fieldOf (h.wrk.rdS o.d.toNat) 0 32) none false with
      | .error e => .error e
      | .ok (s, _) => .ok (s, 0))

/-- TWAIT. -/
def execTwait (o : OpSy) (s : State) : Host.Outcome State Fault Refusal :=
  s.crewWord true (fun s id c h =>
    let v := h.wrk.rdS o.d.toNat
    match c.check h [] [] [nameS o.d] true true with
    | .error e => .error e
    | .ok () =>
      match s.waitAt id c (barAddr h o.a o.o) aRead (fieldOf v 0 32) (some (fieldOf v 32 32)) false with
      | .error e => .error e
      | .ok (s, st) => s.emitS id o.d st o.l.toNat)

/-- BAR: the arrival once, then its wait. -/
def execBar (a o : BitVec 5) (s : State) : Host.Outcome State Fault Refusal :=
  s.crewWord true (fun s id c h =>
    let va := barAddr h a o
    let plain : Except Stop (State × Nat) → Except Stop (State × Flags) := fun r =>
      match r with
      | .error e => .error e
      | .ok (s, _) => .ok (s, 0)
    match c.check h [] [] [] true true with
    | .error e => .error e
    | .ok () =>
      match c.wait with
      | .barrier _ g _ _ => plain (s.waitAt id c va aAtomic g none true)
      | .ticket _ g _ _ => plain (s.waitAt id c va aAtomic g none true)
      | .arrived g => plain (s.waitAt id c va aAtomic g none true)
      | _ => match s.arrival id c va 0 with
        | .error e => .error e
        | .ok (s, w, g) => plain (s.waitWord id c w g none true va))

-- Strikes (R268, R269, R348).

/-- The instance of a crew's team: its first die, or the package. -/
def State.strikeInst (s : State) (c : Crew) (scope : Nat) : Nat :=
  if scope = 3 then ((s.team c.rk c.team).bind (fun t => t.die)).getD 0 else 0

/-- The crews that a strike of an instance waits for; none while a team of a DEVICE strike was never placed. -/
def State.strikers (s : State) (rk scope inst : Nat) : Option (List Nat) :=
  let ts := s.teams.filter (fun kv => kv.1 / 2 ^ 48 == rk && (kv.2.st == .placed || kv.2.st == .imaged || kv.2.st == .retired))
  let grid := match s.region rk with
    | some r => r.grid
    | none => 0
  if scope = 4 && decide (ts.length < grid) then none
  else some ((s.crews.filter (fun kv => kv.2.rk == rk && (scope == 4 || s.strikeInst kv.2 scope == inst))).map Prod.fst)

/-- The place of a strike word kept as team × 2^24 + offset in the allotment. -/
def State.strikePlace (s : State) (rk word : Nat) : Option Nat :=
  match s.region rk, s.team rk (word / 2 ^ 24) with
  | some r, some t =>
    if t.st = .placed then some (scrAddr t.core (t.idx * r.allotBytes + word % 2 ^ 24))
    else if t.st = .imaged then some (imgPlace (teamKey rk (word / 2 ^ 24)) (word % 2 ^ 24))
    else none
  | _, _ => none

/-- Writes a new generation to a strike word, an event that wakes its waiters. -/
def State.strikeWrite (rk gen : Nat) (s : State) (word : Nat) : State :=
  match s.strikePlace rk word with
  | some w => (s.barEvent w { s.bar w with gen := gen }).wakeWord w
  | none => s

/-- Releases every strike of a region whose participants have all struck. -/
def State.strikeCheck (s : State) (rk : Nat) : State :=
  match s.region rk with
  | none => s
  | some r =>
    match r.strikeScope with
    | none => s
    | some scope =>
      r.strikes.foldl (fun s kv =>
        let i := kv.2
        match s.strikers rk scope kv.1 with
        | none => s
        | some ids =>
          if i.struck.isEmpty || !(ids.all i.struck.contains) then s
          else
            let g := (i.gen + 1) % 2 ^ 32
            let clusterOf : Nat → Nat := fun w => match s.team rk (w / 2 ^ 24) with
              | some t => t.core / 96
              | none => 0
            let cls := (i.words.map clusterOf).eraseDups
            let adm := cls.map (fun cl => (⟨rk, cl, g, s.clock, i.words.filter (fun w => clusterOf w == cl)⟩ : StrikeAdm))
            let s := s.updRegion rk (fun r => { r with strikes := Tab.put r.strikes kv.1 ⟨g, [], []⟩ })
            { s with strikeq := s.strikeq ++ adm }) s

/-- Before another admission: the cycle of the release, the key of R348, the region's admission. -/
def StrikeAdm.before (a b : StrikeAdm) : Bool :=
  let ka := (a.cluster + a.gen) % 32
  let kb := (b.cluster + b.gen) % 32
  decide (a.cc < b.cc) || (a.cc == b.cc && (decide (ka < kb) || (ka == kb && decide (a.rk < b.rk))))

/-- The first pending admission. -/
def State.firstAdm (s : State) : Option StrikeAdm :=
  match s.strikeq with
  | [] => none
  | a :: r => some (r.foldl (fun x y => if y.before x then y else x) a)

/-- One cluster is admitted, at most 4 in a cluster clock; its words in ascending core order. -/
def State.admitOne (s : State) : State :=
  match (if s.admits < 4 then s.firstAdm else none) with
  | none => s
  | some a =>
    let core : Nat → Nat := fun w => match s.team a.rk (w / 2 ^ 24) with
      | some t => t.core
      | none => 0
    let cores := (falling (a.words.map core)).reverse.eraseDups
    let ws := cores.flatMap (fun n => a.words.filter (fun w => core w == n))
    ws.foldl (State.strikeWrite a.rk a.gen) { s with strikeq := s.strikeq.erase a, admits := s.admits + 1 }

/-- Engine entries that the crew's programs have queued and that are not yet performed. -/
def State.crewEntries (s : State) (c : Crew) : List (Nat × Nat) :=
  s.engs.flatMap (fun kv =>
    if engKind kv.1 != 0 && kv.2.rk == c.rk && kv.2.team == c.team && kv.2.crew == c.no
    then kv.2.ents.map (fun e => (kv.1, e.id)) else [])

/-- STRIKE. -/
def execStrike (o : Op2) (s : State) : Host.Outcome State Fault Refusal :=
  s.crewWord true (fun s id c h =>
    let va := (h.wrk.rdS o.a.toNat).toNat
    let sc := modeScope h.wrk.mode
    let fail : Nat → Except Stop (State × Flags) := fun cause =>
      .error (.fault ⟨cause, if cause = cACCESS then aAtomic else 0, va⟩ none)
    match c.check h [] [] [nameS o.d] true true with
    | .error e => .error e
    | .ok () =>
      if va % 64 = 0 && !(sc == 3 || sc == 4) then fail cSCOPE
      else match s.barPlace (s.siteCrew id c) va aAtomic with
        | .error e => .error e
        | .ok w =>
          match s.region c.rk, s.team c.rk c.team with
          | some r, some t =>
            let inst := s.strikeInst c sc
            let i := Tab.get r.strikes inst ⟨0, [], []⟩
            let s1 := s.seal id
            if s.teamAt c.rk w != some c.team then fail cACCESS
            else if (s1.bar w).bsc != sc || (match r.strikeScope with
              | some x => x != sc
              | none => false) then fail cSCOPE
            else if i.struck.contains id then fail cACCESS
            else
              let items := match c.wait with
                | .strike xs => xs
                | _ => s1.crewEntries c
              let left := items.filter s1.entryPending
              if !left.isEmpty then .error (.held (s1.updCrew id (fun c => { c with wait := .strike left })))
              else
                let s2 := s1.releaseCrew id sc 3
                let word := c.team * 2 ^ 24 + (w % 2 ^ 24 - t.idx * r.allotBytes)
                let s2 := s2.updRegion c.rk (fun r => { r with
                  strikeScope := some sc
                  strikes := Tab.put r.strikes inst ⟨i.gen, id :: i.struck, (word :: i.words).eraseDups⟩ })
                match s2.emitS id o.d i.gen 0 with
                | .error e => .error e
                | .ok (s3, f) => .ok (s3.strikeCheck c.rk, f)
          | _, _ => fail cACCESS)

-- Monitored waits (R270, R271).

/-- The point of MWAIT's word, and the state and value there; no monitor is woken by a compare. -/
def State.monitorRead (s : State) (w : Who) (scope : Nat) (x : Hit) (n : Nat) : State × Nat × Nat :=
  match x.sp with
  | .pkg =>
    let (m, hd) := s.mem.prepAtomic s.clock w.port scope x.pa n
    ({ s with mem := { m with monitors := s.mem.monitors } }, hd.getD homePoint, m.readAt hd x.pa n)
  | .peer =>
    let m := s.mem.drainLine w.core (lineOf x.pa)
    ({ s with mem := m }, homePoint, leNat (Memory.getBytes m.peer x.pa n))
  | _ => (s, homePoint, leNat ((List.range n).map (fun i => s.seeHit w { x with pa := x.pa + i })))

/-- MWAIT. -/
def execMwait (o : OpSy) (wd : Bool) (s : State) : Host.Outcome State Fault Refusal :=
  let n := if wd then 8 else 4
  s.crewWord true (fun s id c h =>
    let mode := h.wrk.mode
    let va := addrOf (h.wrk.rdS o.a.toNat).toNat o.o.toNat n
    let expd := (h.wrk.rdS o.d.toNat).toNat % 2 ^ (8 * n)
    let a : Acc := ⟨va, n, aRead, modeStore mode, modeScope mode, n, false, false, 2⟩
    match c.check h [] [] [nameS o.d] (loadOrd mode) true with
    | .error e => .error e
    | .ok () =>
      if va % n = 0 && modeStore mode == 2 then .error (.fault ⟨cSCOPE, 0, va⟩ none)
      else if va % n = 0 && modeStore mode == 0 && va / 2 ^ 24 == 0xFF then .error (.fault ⟨cACCESS, aRead, va⟩ none)
      else
        let w := s.whoCrew id c
        match s.checkLanes w (s.siteCrew id c) c.com.watchFail false [(0, a)] with
        | (s', .error st) => .error (s'.stopIn id st)
        | (s, .ok ls) =>
          let hs := ls.flatMap Prod.snd
          let x := hs.headD ⟨.scr, 0, false, 0⟩
          let ext := match x.sp with
            | .ext _ _ => true
            | _ => false
          let finish : State → Nat → Except Stop (State × Flags) := fun s v =>
            let s := if modeOrd mode = 1 then s.acquireCrew id (modeScope mode) 3 else s
            match s.emitLoad id [.s o.d.toNat (BitVec.ofNat 64 v)] o.l.toNat (s.got w false [(0, a)] ls) with
            | .error e => .error e
            | .ok s => .ok (s, 0)
          let arm : State → Nat → Except Stop (State × Flags) := fun s pt =>
            let m : Monitor := ⟨id, pt, x.sp, x.pa, n, false⟩
            .error (.held ({ s with mem := { s.mem with monitors := s.mem.monitors ++ [m] } }.updCrew id
              (fun c => { c with wait := .monitor })))
          let compare : State → Bool → Except Stop (State × Flags) := fun s claimed =>
            let (s, pt, v) := s.monitorRead w (modeScope mode) x n
            let r := (Monitor.mk id pt x.sp x.pa n false).res
            if v != expd then finish (if claimed then s.grantNext r else s) v
            else if claimed || s.roomFor r then arm s pt
            else .error (.held ((s.refuse r id).updCrew id (fun c => { c with wait := .ticket r 0 s.clock false })))
          if ext then .error (.fault ⟨cSCOPE, 0, va⟩ none)
          else match c.wait with
            | .monitor =>
              match s.mem.monitors.find? (fun m => m.crew == id) with
              | some m =>
                if !m.fired then .error (.wait .monitor)
                else
                  let (s, vs) := (s.dropMonitor id).readLanes w (modeCache mode) (s.heatOf id) ls
                  finish s (leNat (vs.flatMap Prod.snd))
              | none => compare s false
            | .ticket r _ _ _ =>
              if s.granted r id then compare (s.claim r id) true
              else if s.queued r id then .error (.wait c.wait)
              else compare s false
            | _ => compare s false)

end Sys2Proof.Machine
end

