-- ==== Sys2Proof/Machine/Flume.lean ====
section
/-! DEFINITION. Flume queues and Tailrace contexts: transfer entries, halos, collectives, QFENCE, ESIG, ELOOP, EEND and the
performing of entries in queue order (R98, R232, R233, R262, R289, R302 to R311, R396, R413). -/

namespace Sys2Proof.Machine

-- Issue of entries (R302, R303).

/-- An entry as its instruction queues it. -/
def Eng.entryOf (e : Eng) (id : Nat) (op : Instr) (d a b : BitVec 5) (sg : DWord) (blk : List DWord) (now : Nat) : Entry :=
  { id := id, op := op, d := e.rdS d.toNat, a := e.rdS a.toNat, b := e.rdS b.toNat, b1 := e.rdS (b.toNat + 1), sg := sg,
    mode := e.mode, blk := blk, pc := e.pc, heat := e.entry.getD e.pc, off := e.off, since := now, paid := 0 }

/-- No entry may issue now: 16 stand ahead of the oldest one not yet performed (R303). -/
def Eng.full (e : Eng) : Bool := decide (17 ≤ e.ents.length)

/-- Queues an entry. `chk` gives the stop of its issue. -/
def queueEntry (mk : State → Eng → Entry) (chk : Eng → Entry → Option Stop) : EngEff := fun s k e =>
  if e.full then .error (.wait .engine)
  else
    let n := mk s e
    match chk e n with
    | some st => .error st
    | none => .ok ({ s with uid := s.uid + 1 }.setEng k { e with ents := e.ents ++ [n] })

/-- A transfer entry. -/
def transfer (op : Instr) (o : OpE) (kinds : Nat → Bool) (chk : Entry → Option Stop) (s : State) :
    Host.Outcome State Fault Refusal :=
  match s.cur with
  | .eng k =>
    s.engWord kinds (op.wf && !(o.g && engKind k == 2))
      (queueEntry (fun s e => e.entryOf s.uid op o.d o.a o.b (if o.g then e.rdS o.s.toNat else 0) [] s.clock) (fun _ n => chk n))
  | _ => s.engWord kinds false (fun s _ _ => .ok s)

/-- Entries that move more than 2^40 bytes are refused (R304). -/
def tooLong (n : Nat) : Option Stop := if 2 ^ 40 < n then some stopAccess else none

def execCpy (o : OpE) (s : State) : Host.Outcome State Fault Refusal :=
  transfer (.cpy o) o kindFT (fun n => tooLong n.b.toNat) s
def execFill (o : OpE) (s : State) : Host.Outcome State Fault Refusal :=
  transfer (.fill o) o kindFT (fun n => tooLong n.b.toNat) s
def execCpy2 (o : OpE) (s : State) : Host.Outcome State Fault Refusal :=
  transfer (.cpy2 o) o kindFT (fun n => tooLong (fieldOf n.b 32 32 * fieldOf n.b 0 32)) s

/-- The index pair's own limits (R305). A size exponent above 8 raises ILLEGAL at issue (DESIGN CHOICE, log 84). -/
def pairBad (n : Entry) : Option Stop :=
  if fieldOf n.b1 41 23 != 0 || decide (8 < fieldOf n.b1 32 8) then some stopIllegal else none

def execGath (o : OpE) (s : State) : Host.Outcome State Fault Refusal := transfer (.gath o) o kindF pairBad s
def execScat (o : OpE) (s : State) : Host.Outcome State Fault Refusal := transfer (.scat o) o kindF pairBad s

def execHalo (d a b : BitVec 5) (g : Bool) (s : State) : Host.Outcome State Fault Refusal :=
  s.engWord kindF (Instr.wf (.halo d a b g))
    (queueEntry (fun s e => e.entryOf s.uid (.halo d a b g) d a b 0 [] s.clock) (fun _ _ => none))

def execEsig (d a : BitVec 5) (kd : BitVec 3) (s : State) : Host.Outcome State Fault Refusal :=
  match s.cur with
  | .eng k =>
    s.engWord kindFT (Instr.wf (.esig d a kd) && !(engKind k == 2 && kd != 2))
      (queueEntry (fun s e => e.entryOf s.uid (.esig d a kd) d a 0 0 [] s.clock) (fun _ _ => none))
  | _ => s.engWord kindFT false (fun s _ _ => .ok s)

/-- The mask of a QFENCE. -/
def fenceMask (k : Nat) (x : DWord) : Nat := if engKind k = 2 then fieldOf x 0 16 else fieldOf x 0 32

/-- QFENCE (R309): the entry keeps its mask and its count among the program's QFENCEs of that mask. -/
def execQfence (a : BitVec 5) (s : State) : Host.Outcome State Fault Refusal :=
  s.engWord kindFT true (fun s k e =>
    let x := e.rdS a.toNat
    let m := fenceMask k x
    if e.full then .error (.wait .engine)
    else if (engKind k == 2 && fieldOf x 16 48 != 0) || !m.testBit (engIdx k) then .error stopAccess
    else
      let n := Tab.get e.fences m 0
      let en := { e.entryOf s.uid (.qfence a) 0 a 0 0 [] s.clock with a := BitVec.ofNat 64 m, b := BitVec.ofNat 64 n }
      .ok ({ s with uid := s.uid + 1 }.setEng k { e with ents := e.ents ++ [en], fences := Tab.put e.fences m (n + 1) }))

-- Collectives (R307, R308).

/-- The formats of a collective. -/
def collFmt (f : Nat) : Bool := fmtIsFloat f || f == fmtINT32 || f == fmtINT64

/-- A collective's fields (Table 17-6). -/
structure Coll where
  send : DWord
  recv : DWord
  op : Nat
  rnd : Nat
  fmt : Nat
  count : Nat
  group : Nat
  rank : Nat
  p : Nat
  peers : DWord
  steam : Nat
  soff : Nat
  sen : Bool
  sgen : Nat
  deriving DecidableEq, Repr

def Coll.of (w : List DWord) : Coll :=
  let f : Nat → Nat → Nat → Nat := fun n lo len => fieldOf (w.getD n 0) lo len
  { send := w.getD 0 0, recv := w.getD 1 0, op := f 2 56 4, rnd := f 2 53 3, fmt := f 2 48 5, count := f 2 0 40,
    group := f 3 32 32, rank := f 3 16 16, p := f 3 0 16, peers := w.getD 4 0, steam := f 5 32 32, soff := f 5 0 24,
    sen := f 6 32 1 == 1, sgen := f 6 0 32 }

/-- A block that breaks Table 17-6, or an RSSUM whose COUNT is no multiple of P. A RANK not below P breaks it too (DESIGN CHOICE,
log 84). -/
def collBad (w : List DWord) : Bool :=
  let c := Coll.of w
  let f : Nat → Nat → Nat → Nat := fun n lo len => fieldOf (w.getD n 0) lo len
  f 2 60 4 != 0 || f 2 40 8 != 0 || f 5 24 8 != 0 || f 6 33 31 != 0 || f 7 0 64 != 0 || decide (5 < c.op) || decide (4 < c.rnd)
    || !collFmt c.fmt || c.p == 0 || decide (512 < c.p) || decide (c.p ≤ c.rank) || (c.op == 3 && c.count % c.p != 0)

/-- The slack group of a collective starts or goes on (R349). -/
def State.collGroup (s : State) (e : Eng) (c : Coll) (ranks : List Nat) : State :=
  let g := Tab.get s.power.groups c.group ⟨[], e.rk, 1024, 1024, 0, s.clock, s.clock, none⟩
  let ms := (ranks.filter (· != s.fab.frank)).map (fun r =>
    match g.members.find? (fun m => m.1 == r) with
    | some m => m
    | none => (r, 1024))
  { s with power := { s.power with groups := Tab.put s.power.groups c.group { g with members := ms, ends := none } } }

/-- COLL. A block address off its 64-byte boundary or in scratch raises ACCESS (DESIGN CHOICE, log 84). -/
def execColl (d : BitVec 5) (s : State) : Host.Outcome State Fault Refusal :=
  s.engWord kindT true (fun s k e =>
    let x := e.rdS d.toNat
    if e.full then .error (.wait .engine)
    else if x.getLsbD 63 || x.toNat % 64 != 0 then .error stopAccess
    else
      match s.engRead k e 0 [(0, ⟨x.toNat, 64, aRead, 1, modeScope e.mode, 64, false, false, 0⟩)] with
      | .error st => .error st
      | .ok (s, bs) =>
        let b := bs.flatten
        let w := (List.range 8).map (fun i => BitVec.ofNat 64 (leNat ((b.drop (8 * i)).take 8)))
        let c := Coll.of w
        if collBad w then .error stopAccess
        else
          match s.engRead k e 0 [(0, ⟨c.peers.toNat, 8 * c.p, aRead, 3, modeScope e.mode, 1, false, false, 0⟩)] with
          | .error st => .error st
          | .ok (s, ps) =>
            let t := ps.flatten
            let ranks := (List.range c.p).map (fun q => leNat ((t.drop (8 * q)).take 8) % 1024)
            let en := e.entryOf s.uid (.coll d) d 0 0 0 w s.clock
            .ok (({ s with uid := s.uid + 1 }.collGroup e c ranks).setEng k { e with ents := e.ents ++ [en] }))

-- Closers (R286, R311).

/-- ELOOP. -/
def execEloop (d : BitVec 5) (o : BitVec 10) (s : State) : Host.Outcome State Fault Refusal :=
  match s.cur with
  | .crew id n =>
    match s.issuer id with
    | some (s, c) => .next (s.issueCrew id n c false noEff)
    | none => .fault .noAgent
  | .eng k =>
    match s.eng k with
    | none => .fault .noAgent
    | some e =>
      .next (s.closeEng k e (kindFT (engKind k)) (fun e =>
        let x := e.rdS d.toNat
        if x = 0 then .ok (e, e.pc + 4)
        else .ok (e.putS d.toNat (x - 1), if x - 1 = 0 then e.pc + 4 else e.pc + (o.signExtend 64 <<< 2))))

/-- EEND. -/
def execEend (s : State) : Host.Outcome State Fault Refusal :=
  match s.cur with
  | .crew id n =>
    match s.issuer id with
    | some (s, c) => .next (s.issueCrew id n c false noEff)
    | none => .fault .noAgent
  | .eng k =>
    match s.eng k with
    | none => .fault .noAgent
    | some e =>
      if !kindFT (engKind k) || e.entry.isNone || decide (24 ≤ e.off) then .next (s.raiseEng k ⟨cILLEGAL, 0, 0⟩)
      else if !e.ents.isEmpty then .next (s.setEng k { e with wait := .engine })
      else .next ((s.engRelease (s.whoEng k e) (if engKind k = 2 then 4 else 2)).endEng k)

-- Addresses and signals.

/-- An access at an engine address word (R302); a Tailrace has no scratch. -/
def engAcc (mode : BitVec 40) (x n k : Nat) : Nat × Acc :=
  (0, ⟨x % 2 ^ 63, n, k, if x.testBit 63 then 0 else 3, modeScope mode, 1, false, false, 0⟩)

/-- A Tailrace names scratch. -/
def tailScratch (k : Nat) (xs : List (Nat × Acc)) : Bool := engKind k == 2 && xs.any (fun a => a.2.storage == 0)

/-- The signal word at a place: one of the BARW words of a team of the region, TEAM or CLUSTER (R302). -/
def State.signalAt (s : State) (rk p : Nat) : Option Nat :=
  if p % 64 != 0 then none
  else match s.barWord rk (p / 2 ^ 24) (p % 2 ^ 24) with
    | some w => if (s.bar w).bsc == 1 || (s.bar w).bsc == 2 then some w else none
    | none => none

/-- A signal word named by a scratch address of the Flume's cluster. -/
def State.signalWord (s : State) (k : Nat) (e : Eng) (va : Nat) : Option Nat :=
  match s.scrPlace (State.siteEng k e) va 64 aRead with
  | .ok p => s.signalAt e.rk p
  | .error _ => none

/-- What performing an entry leaves: the state, and a fault that it posts although its bytes are written. -/
abbrev Performed := Except Stop (State × Option Fail)

/-- Lowers a signal word after the bytes: the release, then the count; another generation lowers nothing and posts ACCESS
(R233, R262). -/
def State.lowerWord (s : State) (k : Nat) (e : Eng) (mode : BitVec 40) (w n gen : Nat) : State × Option Fail :=
  let s := s.engRelease (s.whoEng k e) (modeScope mode)
  match (s.noteScope w (modeScope mode)).barLower w n gen with
  | (s', true) => (s', none)
  | (_, false) => (s, some ⟨cACCESS, 0, 0⟩)

-- Transfers.

/-- What a transfer reads and writes, each in order, when its operands alone tell. -/
def Entry.plan (n : Entry) (idx : List Nat) : List (Nat × Acc) × List (Nat × Acc) :=
  let d := n.d.toNat
  let a := n.a.toNat
  let rd : Nat → Nat → Nat × Acc := fun x len => engAcc n.mode (x % 2 ^ 64) len aRead
  let wr : Nat → Nat → Nat × Acc := fun x len => engAcc n.mode (x % 2 ^ 64) len aWrite
  match n.op with
  | .cpy _ => ([rd a n.b.toNat], [wr d n.b.toNat])
  | .fill _ => ([], [wr d n.b.toNat])
  | .cpy2 _ =>
    let rows := List.range (fieldOf n.b 32 32)
    let len := fieldOf n.b 0 32
    (rows.map (fun i => rd (a + i * fieldOf n.b1 0 32) len), rows.map (fun i => wr (d + i * fieldOf n.b1 32 32) len))
  | .gath _ =>
    let sz := 2 ^ fieldOf n.b1 32 8
    ((List.range idx.length).map (fun i => rd (a + idx.getD i 0 * sz) sz), (List.range idx.length).map (fun i => wr (d + i * sz) sz))
  | .scat _ =>
    let sz := 2 ^ fieldOf n.b1 32 8
    ((List.range idx.length).map (fun i => rd (a + i * sz) sz), (List.range idx.length).map (fun i => wr (d + idx.getD i 0 * sz) sz))
  | _ => ([], [])

/-- Bytes that an entry moves. -/
def Entry.count (n : Entry) : Nat :=
  match n.op with
  | .cpy _ => n.b.toNat
  | .fill _ => n.b.toNat
  | .cpy2 _ => fieldOf n.b 32 32 * fieldOf n.b 0 32
  | .gath _ => fieldOf n.b1 0 32 * 2 ^ fieldOf n.b1 32 8
  | .scat _ => fieldOf n.b1 0 32 * 2 ^ fieldOf n.b1 32 8
  | .halo _ _ _ _ => fieldOf n.b 0 16 * fieldOf n.b 16 16
  | _ => 0

/-- The SIG bit of a transfer. -/
def Entry.signals (n : Entry) : Bool :=
  match n.op with
  | .cpy o => o.g
  | .cpy2 o => o.g
  | .gath o => o.g
  | .scat o => o.g
  | .fill o => o.g
  | _ => false

/-- A pair of words as indices. -/
def indexWords (wide : Bool) (bs : List Byte) : List Nat :=
  let sz := if wide then 8 else 4
  (List.range (bs.length / sz)).map (fun i => leNat ((bs.drop (sz * i)).take sz))

/-- The index array of an entry, read. -/
def State.readIndex (s : State) (k : Nat) (e : Eng) (n : Entry) : Except Stop (State × List Nat) :=
  let wide := n.b1.getLsbD 40
  match s.engRead k e 0 [engAcc n.mode n.b.toNat (fieldOf n.b1 0 32 * (if wide then 8 else 4)) aRead] with
  | .error st => .error st
  | .ok (s, bs) => .ok (s, indexWords wide bs.flatten)

/-- The index array of GATH and SCAT; no other entry has one. -/
def State.entryIndex (s : State) (k : Nat) (e : Eng) (n : Entry) : Except Stop (State × List Nat) :=
  match n.op with
  | .gath _ => s.readIndex k e n
  | .scat _ => s.readIndex k e n
  | _ => .ok (s, [])

/-- MODE without its order: a transfer's bytes take the scope alone (R303). -/
def scopeOnly (m : BitVec 40) : BitVec 40 := m &&& ~~~(3#40 <<< 28)

/-- CPY, CPY2, FILL, GATH and SCAT: the signal word is checked, the source is read whole, the bytes are written, the word
is lowered. -/
def State.doTransfer (s : State) (k : Nat) (e : Eng) (n : Entry) : Performed :=
  let count := n.count
  let sig := if n.signals && count != 0 then some (s.signalWord k e (fieldOf n.sg 0 32)) else none
  if count = 0 then .ok (s, none)
  else if sig == some none then .error stopAccess
  else
    match s.entryIndex k e n with
    | .error st => .error st
    | .ok (s, idx) =>
      let (rs, ws) := n.plan idx
      if tailScratch k (rs ++ ws) then .error stopAccess
      else
        match s.engRead k e (scopeOnly n.mode) rs with
        | .error st => .error st
        | .ok (s, bs) =>
          let data := match n.op with
            | .fill _ => [(List.range count).map (fun j => BitVec.ofNat 8 (n.a.toNat / 2 ^ (8 * (j % 8))))]
            | _ => bs
          match s.engWrite k e (scopeOnly n.mode) ws data with
          | .error st => .error st
          | .ok s =>
            match sig with
            | some (some w) => .ok (s.lowerWord k e n.mode w count (fieldOf n.sg 32 32))
            | _ => .ok (s, none)

-- Halos (R306, R396).

/-- Rows of a halo: source accesses, and offsets in the receiving allotment. -/
def Entry.haloRows (n : Entry) : List (Nat × Acc) × List Nat :=
  let rows := List.range (fieldOf n.b 0 16)
  let len := fieldOf n.b 16 16
  (rows.map (fun i => engAcc n.mode ((n.a.toNat + i * fieldOf n.b 32 16) % 2 ^ 64) len aRead),
    rows.map (fun i => fieldOf n.d 0 24 + i * fieldOf n.b 48 16))

def Entry.haloSig (n : Entry) : Bool :=
  match n.op with
  | .halo _ _ _ g => g
  | _ => false

/-- Rows or a signal word lie beyond an allotment. -/
def Entry.haloBeyond (n : Entry) (allot : Nat) : Bool :=
  (n.count != 0 && n.haloRows.2.any (fun o => decide (allot < o + fieldOf n.b 16 16)))
    || (n.haloSig && decide (allot < fieldOf n.b1 0 24 + 64))

/-- The receiving team of a halo inside the package. -/
def State.haloTeam (s : State) (e : Eng) (n : Entry) : Option Team :=
  if fieldOf n.d 24 8 = 0 then s.team e.rk (fieldOf n.d 32 32) else none

/-- A halo waits while its team is not placed. -/
def State.haloWaits (s : State) (e : Eng) (n : Entry) : Bool :=
  match s.region e.rk with
  | none => false
  | some r =>
    fieldOf n.d 24 8 == 0 && decide (fieldOf n.d 32 32 < r.grid) && (match s.haloTeam e n with
      | some t => !(t.st == .retired) && !(t.st == .placed && !t.pre)
      | none => true)

/-- The bindings that a halo to a peer needs on this package, and whether its peer can be reached (R394, R396). -/
def State.peerHaloBad (s : State) (e : Eng) (n : Entry) : Bool :=
  let rank := fieldOf n.d 54 10
  let rcb := match s.region e.rk with
    | some r => r.rcb
    | none => 0
  let bound := (List.range 64).any (fun j =>
    let b := (Tab.get s.port.bindings (2 * j) 0)
    b.getLsbD 63 && fieldOf b 0 57 == rcb)
  !bound || !s.fab.rvalid || rank == s.fab.frank || !s.reaches rank

/-- HALO. The peer's own checks are another package's: a free value stands for them. -/
def State.doHalo (s : State) (k : Nat) (e : Eng) (n : Entry) : Performed :=
  let (rs, offs) := n.haloRows
  let kind := fieldOf n.d 24 8
  match s.region e.rk with
  | none => .error stopAccess
  | some r =>
    if kind = 1 then
      if s.peerHaloBad e n || (Config.freeDWord s.freeCount).getLsbD 0 then .error stopAccess
      else
        match s.engRead k e (scopeOnly n.mode) (if n.count = 0 then [] else rs) with
        | .error st => .error st
        | .ok (s, _) => .ok ({ s with freeCount := s.freeCount + 1 }, none)
    else
      match s.haloTeam e n with
      | none => .error stopAccess
      | some t =>
        let home := scrAddr t.core (t.idx * r.allotBytes)
        let word := if n.haloSig && n.count != 0 then some (s.signalAt e.rk (home + fieldOf n.b1 0 24)) else none
        if t.st != .placed || n.haloBeyond r.allotBytes || word == some none then .error stopAccess
        else if n.count = 0 then .ok (s, none)
        else
          match s.engRead k e (scopeOnly n.mode) rs with
          | .error st => .error st
          | .ok (s, bs) =>
            let cells := (List.range bs.length).flatMap (fun i =>
              (List.range (bs.getD i []).length).map (fun j => (home + offs.getD i 0 + j, (bs.getD i []).getD j 0)))
            let s := { s with mem := s.mem.putScratch cells }
            match word with
            | some (some w) => .ok (s.lowerWord k e n.mode w n.count (fieldOf n.b1 32 32))
            | _ => .ok (s, none)

-- ESIG (R310).

/-- The team that an arrival waits for: its allotment held the word and the team has been pre-empted (R265). -/
def State.esigTeam (s : State) (k : Nat) (e : Eng) (n : Entry) : Option Nat :=
  if fieldOf n.a 32 32 != 0 || n.a.toNat % 64 != 0 then none else s.heldAt (State.siteEng k e) n.a.toNat

def State.doEsig (s : State) (k : Nat) (e : Eng) (n : Entry) (kd : Nat) : Except Stop State :=
  let x := n.a
  let w := s.whoEng k e
  if kd = 0 then
    if fieldOf x 32 32 = 0 && x.toNat % 64 != 0 then .error (.fault ⟨cALIGN, 0, x.toNat⟩ none)
    else match s.esigTeam k e n with
    | some t => .error (.wait (.team t))
    | none =>
      match (if fieldOf x 32 32 != 0 then none else s.signalWord k e x.toNat) with
      | none => .error stopAccess
      | some p =>
        let b := s.bar p
        if 65535 ≤ b.arr then .error stopAccess
        else
          let s := s.engRelease w (modeScope n.mode)
          let b := s.bar p
          .ok (s.barEvent p { b with arr := b.arr + 1 })
  else if kd = 1 then
    let key := engKey 0 (engUnit k) (fieldOf x 0 4)
    let slot := fieldOf x 8 3
    if x.toNat &&& 0x70F != x.toNat || decide (11 < fieldOf x 0 4) then .error stopAccess
    else match s.eng key with
      | none => .error stopAccess
      | some m => if m.dep slot = 0 then .error stopAccess else .ok (s.setEng key (m.setDep slot (m.dep slot - 1)))
  else
    let ws := [engAcc n.mode x.toNat 8 aWrite]
    if tailScratch k ws then .error stopAccess
    else s.engWrite k e (scopeOnly n.mode ||| (2#40 <<< 28)) ws [leOf 8 n.d.toNat]

-- Collectives performed (R98, R308).

/-- An element at a node of the tree: one rounding (R98, R172). -/
def collNode (c : Coll) (a b : Nat) : Nat :=
  let w := slotBits c.fmt
  if fmtIsInt c.fmt then
    let x := intVal w true a
    let y := intVal w true b
    wrapInt w (if c.op = 1 then max x y else if c.op = 2 then min x y else x + y)
  else
    let r : Rnd := ⟨c.rnd, false, false⟩
    let x := decodeVal c.fmt a
    let y := decodeVal c.fmt b
    if c.op = 1 || c.op = 2 then (minMax (c.op == 1) c.fmt false a b).1
    else (roundTo c.fmt r 0 (addVals r x y)).1

/-- One level of the tree. -/
def collLevel (c : Coll) (xs : List Nat) : List Nat :=
  match xs with
  | a :: b :: r => collNode c a b :: collLevel c r
  | xs => xs

/-- The tree over the ranks: an absent rank leaves the other exactly unchanged. -/
def collTree (c : Coll) : Nat → List Nat → Nat
  | 0, xs => xs.headD 0
  | fuel + 1, xs => collTree c fuel (collLevel c xs)

/-- Bytes of a collective's element. -/
def Coll.size (c : Coll) : Nat := slotBits c.fmt / 8

/-- Element `i` of rank `q`'s SEND: the package's own, or a free value of another package. -/
def State.collElem (s : State) (c : Coll) (own : List Byte) (q i : Nat) : Nat :=
  if q = c.rank then leNat ((own.drop (c.size * i)).take c.size)
  else (Config.freeDWord (s.freeCount + 1 + q * c.count + i)).toNat % 2 ^ slotBits c.fmt

/-- The elements that this rank receives. -/
def State.collResult (s : State) (c : Coll) (own : List Byte) : List Nat :=
  let red : Nat → Nat := fun i => collTree c 10 ((List.range c.p).map (fun q => s.collElem c own q i))
  match c.op with
  | 3 => (List.range (c.count / c.p)).map (fun i => red (c.rank * (c.count / c.p) + i))
  | 4 => (List.range c.p).flatMap (fun q => (List.range c.count).map (fun i => s.collElem c own q i))
  | 5 => (List.range c.count).map (fun i => s.collElem c own 0 i)
  | _ => (List.range c.count).map red

/-- The receiving word's place; none where the team is not placed. -/
def State.collWord (s : State) (e : Eng) (c : Coll) : Option Nat :=
  match s.region e.rk, s.team e.rk c.steam with
  | some r, some t =>
    if t.st = .placed && decide (c.soff + 64 ≤ r.allotBytes) then
      s.signalAt e.rk (scrAddr t.core (t.idx * r.allotBytes + c.soff))
    else none
  | _, _ => none

/-- The signalled team is on its way to be placed again: the entry waits for it, and a team never placed or retired gives
ACCESS (DESIGN CHOICE, log 84: R308 does not say). -/
def State.collWaits (s : State) (e : Eng) (c : Coll) : Bool :=
  c.sen && (match s.team e.rk c.steam with
    | some t => t.st == .imaged || t.pre
    | none => false)

/-- COLL: a free value says whether the other members' blocks agree. -/
def State.doColl (s : State) (k : Nat) (e : Eng) (n : Entry) : Performed :=
  let c := Coll.of n.blk
  let agree := c.p == 1 || !(Config.freeDWord s.freeCount).getLsbD 0
  -- a broadcast uses rank 0's SEND alone
  let rs := if c.op = 5 && c.rank != 0 then [] else [engAcc n.mode c.send.toNat (c.count * c.size) aRead]
  let need := c.sen && c.count != 0
  let out := (if c.op = 3 then c.count / c.p else if c.op = 4 then c.count * c.p else c.count) * c.size
  let ws := [engAcc n.mode c.recv.toNat out aWrite]
  if !agree || tailScratch k (rs ++ ws) || (need && (s.collWord e c).isNone) then .error stopAccess
  else
    match s.engRead k e (scopeOnly n.mode) rs with
    | .error st => .error st
    | .ok (s, bs) =>
      let data := (s.collResult c bs.flatten).flatMap (leOf c.size)
      match s.engWrite k e (scopeOnly n.mode) ws [data] with
      | .error st => .error st
      | .ok s =>
        match (if need then s.collWord e c else none) with
        | some w => .ok (s.lowerWord k e n.mode w data.length c.sgen)
        | none => .ok (s, none)

-- The oldest entry of a queue is performed.

/-- An entry that must wait for a placement or a rendezvous. -/
def State.entryWaits (s : State) (k : Nat) (e : Eng) (n : Entry) : Bool :=
  match n.op with
  | .esig _ _ kd => kd == 0 && (s.esigTeam k e n).isSome
  | .halo _ _ _ _ => s.haloWaits e n
  | .coll _ => s.collWaits e (Coll.of n.blk)
  | .qfence _ => true
  | _ => false

/-- An entry that other packages' parts complete: while it is the oldest of its queue it waits for a peer (R289). -/
def Entry.waitsPeer (n : Entry) : Bool :=
  match n.op with
  | .coll _ => decide (1 < (Coll.of n.blk).p)
  | .halo _ _ _ _ => fieldOf n.d 24 8 == 1
  | _ => false

def State.doEntry (s : State) (k : Nat) (e : Eng) (n : Entry) : Performed :=
  match n.op with
  | .halo _ _ _ _ => s.doHalo k e n
  | .coll _ => s.doColl k e n
  | .esig _ _ kd => (s.doEsig k e n kd.toNat).map (fun s => (s, none))
  | _ => s.doTransfer k e n

/-- The group of a collective entry. -/
def Entry.group (n : Entry) : Option Nat :=
  match n.op with
  | .coll _ => some (Coll.of n.blk).group
  | _ => none

/-- A collective's group lasts for 200 µs after its last COLL (R349). -/
def State.groupLeft (s : State) (g : Nat) : State :=
  if s.engs.any (fun kv => kv.2.ents.any (fun n => n.group == some g)) then s
  else { s with power := { s.power with groups := s.power.groups.map (fun kv =>
    if kv.1 = g then (kv.1, { kv.2 with ends := some (s.clock + 280000) }) else kv) } }

/-- The oldest entry leaves its queue; the next one comes to the head. -/
def State.popEntry (s : State) (k : Nat) : State :=
  match s.eng k with
  | none => s
  | some e =>
    let es := match e.ents with
      | _ :: n :: r => { n with since := s.clock } :: r
      | _ => []
    let s := s.setEng k { e with ents := es }
    match e.ents.head?.bind Entry.group with
    | some g => s.groupLeft g
    | none => s

/-- A fault of an entry, recorded with the word that queued it (R418); the entry is gone. -/
def State.entryFault (s : State) (k : Nat) (n : Entry) (f : Fail) : State :=
  match s.eng k with
  | none => s
  | some e => (s.popEntry k).stopEng k (s.engRec k e f n.heat n.pc n.off) false

/-- An entry is a transfer of bytes. -/
def Entry.moves (n : Entry) : Bool :=
  match n.op with
  | .esig _ _ _ => false
  | .qfence _ => false
  | _ => true

/-- The units of 128 B that a Flume entry moves have been granted (R344). -/
def Entry.unpaid (n : Entry) (k : Nat) : Bool := engKind k == 1 && n.moves && decide (n.paid < (n.count + 127) / 128)

/-- ENGINE_ENTRY_COMPLETION (R232, R303). -/
def execEngineEntryCompletion (eng : Nat) (s : State) : Host.Outcome State Fault Refusal :=
  match s.eng eng with
  | none => .next s
  | some e =>
    match e.ents with
    | [] => .next s
    | n :: _ =>
      if !e.live || s.entryWaits eng e n || n.unpaid eng then .next s
      else
        let used := (1 + 512 * 2 ^ 40)
        match s.doEntry eng e n with
        | .ok (s', none) => .next ({ s' with freeCount := s'.freeCount + used }.popEntry eng)
        | .ok (s', some f) => .next ({ s' with freeCount := s'.freeCount + used }.entryFault eng n f)
        | .error (.fault f _) => .next ({ s with freeCount := s.freeCount + used }.entryFault eng n f)
        | .error (.after s f) => .next ({ s with freeCount := s.freeCount + used }.entryFault eng n f)
        | .error (.conflict va) =>
          let w := s.whoEng eng e
          .next (s.classAsk w.die w.fdom va eng)
        | .error _ => .next s

/-- The queues that a QFENCE names, as contexts. -/
def fenceKeys (k mask : Nat) : List Nat :=
  ((List.range 32).filter (fun i => mask.testBit i)).map (fun i => engKey (engKind k) (engUnit k) i)

/-- The oldest entry of a queue is the QFENCE of a mask and count. -/
def State.atFence (s : State) (n : Entry) (k : Nat) : Bool :=
  match s.eng k with
  | some e => (match e.ents with
    | m :: _ => (match m.op with
      | .qfence _ => m.a == n.a && m.b == n.b
      | _ => false)
    | [] => false) && e.live
  | none => false

/-- QFENCE_MATCH (R309): the named queues pass together. -/
def execQfenceMatch (eng : Nat) (s : State) : Host.Outcome State Fault Refusal :=
  match s.eng eng with
  | none => .next s
  | some e =>
    match e.ents with
    | [] => .next s
    | n :: _ =>
      let ks := fenceKeys eng n.a.toNat
      if s.atFence n eng && ks.all (s.atFence n) then .next (ks.foldl State.popEntry s) else .next s

/-- ENGINE_WAIT_TIMEOUT (R289). -/
def execEngineWaitTimeout (eng : Nat) (s : State) : Host.Outcome State Fault Refusal :=
  match s.eng eng with
  | none => .next s
  | some e =>
    match e.ents with
    | [] => .next s
    | n :: _ =>
      if e.live && (s.entryWaits eng e n || n.waitsPeer) && s.mil.engto != 0 && decide (n.since + s.mil.engto * 1400 < s.clock) then
        .next (s.entryFault eng n ⟨cTIMEOUT, 0, 0⟩)
      else .next s

/-- Waiting times of engine work that does not wait start anew: for a token, a rendezvous, a placement or a peer (R289). -/
def State.engWaits (s : State) : State :=
  { s with engs := s.engs.map (fun (kv : Nat × Eng) =>
    let e := kv.2
    let xops := e.xops.map (fun x => if s.xGoes e && !x.started && (s.owners kv.1 e x.acc).isNone then x else { x with since := s.clock })
    let ents := match e.ents with
      | n :: r => if e.live && (s.entryWaits kv.1 e n || n.waitsPeer) then n :: r else { n with since := s.clock } :: r
      | [] => []
    (kv.1, { e with xops := xops, ents := ents })) }

-- Entries that address an allotment (R61, R413).

/-- Ranges of scratch addresses that an entry reads or writes: each access of a transfer, its index array, the rows of a halo,
the words of signals. -/
def Entry.scratch (n : Entry) (idx : List Nat) : List (Nat × Nat) :=
  let rng : DWord → Nat → List (Nat × Nat) := fun x len => if x.getLsbD 63 then [(fieldOf x 0 63, len)] else []
  let sig : List (Nat × Nat) := if n.signals then [(fieldOf n.sg 0 32, 64)] else []
  let ps := n.plan idx
  let moved := (ps.1 ++ ps.2).filterMap (fun a => if a.2.storage = 0 then some (a.2.va, a.2.n) else none)
  let index := rng n.b (fieldOf n.b1 0 32 * (if n.b1.getLsbD 40 then 8 else 4))
  moved ++ sig ++ (match n.op with
    | .gath _ => index
    | .scat _ => index
    | .halo _ _ _ _ => (List.range (fieldOf n.b 0 16)).flatMap (fun i =>
        rng (n.a + BitVec.ofNat 64 (i * fieldOf n.b 32 16)) (fieldOf n.b 16 16))
    | .esig _ _ kd => if kd = 0 then [(fieldOf n.a 0 32, 64)] else if kd = 2 then rng n.a 8 else []
    | _ => [])

/-- A halo names a team of the region by a team word. -/
def Entry.halosTo (n : Entry) (team : Nat) : Bool :=
  match n.op with
  | .halo _ _ _ _ => fieldOf n.d 24 8 == 0 && fieldOf n.d 32 32 == team
  | _ => false

/-- An entry names bytes of a core's allotment by core-form addresses, in whichever row they lie. -/
def State.entryTouches (s : State) (k : Nat) (e : Eng) (n : Entry) (core lo hi : Nat) : Bool :=
  let idx := match s.entryIndex k e n with
    | .ok (_, l) => l
    | .error _ => []
  let at_ := (core % 96 + 1) * 2 ^ 24
  (n.scratch idx).any (fun r => decide (r.1 < at_ + hi) && decide (at_ + lo < r.1 + r.2))

/-- Entries that a team's share must wait for (R413). -/
def State.teamEntries (s : State) (rk team : Nat) : Bool :=
  match s.region rk, s.team rk team with
  | some r, some t =>
    let lo := t.idx * r.allotBytes
    s.engs.any (fun kv => engKind kv.1 == 1 && kv.2.rk == rk && engUnit kv.1 == t.core / 96
      && kv.2.ents.any (fun n => s.entryTouches kv.1 kv.2 n t.core lo (lo + r.allotBytes)))
  | _, _ => false

/-- A halo addressed to a team is issued and not yet performed (R61). -/
def State.haloPending (s : State) (rk team : Nat) : Bool :=
  s.engs.any (fun kv => kv.2.rk == rk && kv.2.ents.any (fun n => n.halosTo team))

end Sys2Proof.Machine
end

