-- ==== Sys2Proof/Machine/Weight.lean ====
section
/-! DEFINITION. What an issue, a matrix operation and a transfer weigh in the power allowance (R344, Table 19-8). -/

namespace Sys2Proof

open Machine

/-- Registers of the larger operand of a conversion from or to `b`, for an extent `e` (R167, R169, R181). -/
def cvtRegs (f b : Nat) (e : BitVec 3) : Nat :=
  if fmtIsGrist b then max (extN e) (regsOf b (capOf f (extN e))) else max (extN e) (regsOf f (capOf b (extN e)))

/-- Registers of PACK's, UNPACK's and the scaling words' largest operand. -/
def spreadRegs (f : Nat) (e : BitVec 3) : Nat := max (extN e) (extN e * epr f)

/-- A float instruction of `n` registers under an operating format. -/
def floatWeight (f n : Nat) : Nat := (if f == fmtFP64 then 12 else 6) * n

/-- Registers of an atomic's data operand. -/
def OpAt.regs (o : OpAt) (c : Nat) : Nat := c * (if o.w then 2 else 1)

/-- The weight of a word under MODE's operating format. Matrix operations weigh by the cluster clocks they occupy, and transfers
by what they move (log 78). -/
def Instr.weight (f : Nat) (i : Instr) : Nat :=
  match i with
  | .iadd o | .iaddc o | .isub o | .isubb o | .imin o | .imax o | .lea o | .imul o | .imulh o | .imad o => 4 * extN o.e
  | .and o | .or o | .xor o | .andn o | .sel o | .shl o | .shr o | .sar o | .rot o | .bfx o | .bfi o => 4 * extN o.e
  | .imadw o => 8 * extN o.e
  | .icmp _ o => 4 * extN o.e
  | .iabs o | .ineg o | .not o | .popc o | .clz o | .brev o | .mov o => 4 * extN o.e
  | .retag o _ => 4 * extN o.e
  | .tag _ _ e | .bcast _ _ e => 4 * extN e
  | .movi _ _ | .movh _ _ | .vote _ _ _ _ | .elect _ _ | .matchLanes _ _ _ | .permset _ _ _ => 4
  | .shfl _ o => 4 * extN o.e
  | .perm o => 4 * extN o.e
  | .red _ o | .scan _ _ o => 4 * extN o.e
  | .fadd o | .fsub o | .fmul o | .fmin o | .fmax o | .fcpys o | .fscale o | .ffma o | .ffms o | .fdot2 o => floatWeight f (extN o.e)
  | .fcmp _ o => floatWeight f (extN o.e)
  | .fabs o | .fneg o | .frnd o | .fclass o => floatWeight f (extN o.e)
  | .frcp o | .frsq o | .fsqrt o | .fexp2 o | .flog2 o | .fsin o | .fcos o | .ftanh o => 10 * extN o.e
  | .fdiv o => 10 * extN o.e
  | .cvt o | .cvti o => 10 * cvtRegs f o.b.toNat o.e
  | .pack o | .unpack o => 10 * spreadRegs f o.e
  | .qscale o | .mxscale o => 10 * spreadRegs f o.e
  | .ld o => 8 * extN o.e
  | .st o => 8 * extN o.e
  | .ldx o => 8 * extN o.e
  | .stx o => 8 * extN o.e
  | .ldc _ _ _ e _ _ => 8 * extN e
  | .aadd o | .afadd o | .amin o | .amax o | .aand o | .aor o | .axor o | .aswp o => 8 * o.regs 1
  | .acas o => 8 * o.regs 2
  | .acas2 _ _ _ _ _ _ => 64
  | .sld _ _ _ | .sst _ _ | .pref _ | .cflush _ | .cinv _ | .hint _ | .fence | .binit _ | .arrive _ | .arrivex _ => 8
  | .wait _ | .twait _ | .bar _ _ | .strike _ | .mwait _ _ => 8
  | .mma _ _ _ _ _ _ _ | .mzero _ _ _ | .mscale _ _ _ _ _ | .msta _ _ _ _ _ => 0
  | .cpy _ | .cpy2 _ | .halo _ _ _ _ | .gath _ | .scat _ | .fill _ => 0
  | _ => 1

namespace Machine

/-- The weight of one gang core's cluster clock in a format. -/
def fmtWeight (f : Nat) : Nat :=
  if f == fmtG2 || f == fmtE2M1 then 40
  else if f == fmtG4 || f == fmtE4M3 || f == fmtE5M2 || f == fmtE2M3 || f == fmtE3M2 then 36
  else if f == fmtG7 || f == fmtBF16 || f == fmtFP16 then 32
  else 28

/-- The weight of a cluster clock of an X operation, over its gang: by its tiles, or by the accumulator where it names none. -/
def XOp.weight (x : XOp) (k : Nat) : Nat :=
  let one := match x.op with
    | .mma _ _ _ _ _ _ _ => max (fmtWeight (x.tile 0).fmt) (fmtWeight (x.tile 1).fmt)
    | .mscale _ _ _ _ v => if v = 2 then fmtWeight x.acc.fmt else fmtWeight (x.tile 0).fmt
    | .msta _ _ _ _ _ => fmtWeight (x.tile 0).fmt
    | _ => fmtWeight x.acc.fmt
  one * (x.acc.cores (engUnit k)).length

/-- MODE's operating format for an agent's next word. -/
def State.fmtOf (s : State) (a : Agent) : Nat :=
  match a with
  | .crew id _ => (match s.crew id with
    | some c => modeFmt (match c.heat with
      | some h => h.wrk.mode
      | none => c.com.mode)
    | none => 0)
  | .eng k => (match s.eng k with
    | some e => modeFmt e.mode
    | none => 0)

/-- An agent's next word goes on from a wait: it has issued before. -/
def State.goesOn (s : State) (a : Agent) : Bool :=
  match a with
  | .crew id _ => (match s.crew id with
    | some c => c.wait != .none || !c.ring.touched.isEmpty
    | none => false)
  | .eng k => (match s.eng k with
    | some e => e.wait != .none
    | none => false)

/-- The weight of an agent's next issue; a word that no instruction has, or that cannot be fetched, has none (log 78). -/
def State.weightOf (s : State) (a : Agent) : Nat :=
  if s.goesOn a then 0
  else match (s.fetchWord (s.whoOf a) (s.pcOf a)).2 with
    | .ok w => (match decodeWord w with
      | .ok i => i.weight (s.fmtOf a)
      | .error _ => 0)
    | .error _ => 0

end Machine

end Sys2Proof
end

