-- ==== Sys2Proof/Machine/Grants.lean ====
section
/-! DEFINITION. The allowance of a cluster clock: refill, pace, requests in their order, grants (R25, R345, R351, R353). -/

namespace Sys2Proof.Machine

-- Registers of a cluster (Table 19-7).

def State.pwaOf (s : State) (g : Nat) : DWord := Tab.get s.power.pwa g (BitVec.ofNat 64 (16 * 2 ^ 56 + 1048576 * 2 ^ 32 + 4096))
def pwaThr (x : DWord) : Nat := fieldOf x 56 8
def pwaCap (x : DWord) : Nat := fieldOf x 32 24
def pwaRefill (x : DWord) : Nat := fieldOf x 0 16

def State.setPower (s : State) (p : Power) : State := { s with power := p }

/-- The refill amount in use. -/
def State.refillOf (s : State) (g : Nat) : Nat := Tab.get s.power.floor g (pwaRefill (s.pwaOf g))

-- Pace (R351).

/-- The region of a group has a crew on a cluster. -/
def State.onCluster (s : State) (rk g : Nat) : Bool :=
  s.crews.any (fun kv => kv.2.rk == rk && s.coreOf kv.2 / 96 == g && (match s.team kv.2.rk kv.2.team with
    | some t => t.st == .placed
    | none => false))

/-- A cluster's pace over every group but one. -/
def State.paceOf (s : State) (g : Nat) (out : Option Nat) : Nat :=
  (s.power.groups.filter (fun kv => out != some kv.1 && s.onCluster kv.2.rk g)).foldl (fun q kv => min q kv.2.q) 1024

-- Requests (R345, R353).

/-- A request as it is ordered: position, place among the requests of one position, priority, whether its slot has waited too
long, weight, and what it asks. -/
structure PowerAsk where
  pos : Nat
  sub : Nat
  pri : Nat
  overdue : Bool
  weight : Nat
  ask : Grant
  deriving DecidableEq, Repr

/-- The effective priority of an engine's region. -/
def State.priEng (s : State) (e : Eng) : Nat :=
  match s.region e.rk with
  | some r => r.pri
  | none => 0

/-- A request of a cluster. Its engines share position 96, Miller contexts first, then Flume queues. -/
def State.askOf (s : State) (cluster : Nat) (r : PowerReq) : Option PowerAsk :=
  match r with
  | .core c _ =>
    if c / 96 != cluster then none
    else match s.pick c with
      | some (_, .crew id n) =>
        some ⟨c % 96, 0, s.priOf id, s.overdue id n, s.weightOf (.crew id n), .issue (.crew id n)⟩
      | _ => none
  | .word k =>
    match s.eng k with
    | some e =>
      if engUnit k == cluster && decide (engKind k < 2) && s.eligible (.eng k) then
        some ⟨96, k, s.priEng e, false, s.weightOf (.eng k), .issue (.eng k)⟩
      else none
    | none => none
  | .move k n =>
    match s.eng k with
    | some e =>
      if engUnit k == cluster && engKind k == 1 && e.live && e.ents.any Entry.moves then
        some ⟨96, k, s.priEng e, false, 2 * n, .move k n⟩
      else none
    | none => none

/-- The X operations that run on gangs of a cluster ask in every cluster clock. -/
def State.xopAsks (s : State) (cluster : Nat) : List PowerAsk :=
  s.engs.flatMap (fun kv =>
    if engKind kv.1 == 0 && engUnit kv.1 == cluster && s.xGoes kv.2 then
      (kv.2.xops.filter (fun x => x.started)).map (fun x =>
        ⟨96, kv.1, s.priEng kv.2, false, x.weight kv.1, .xop kv.1 x.id⟩)
    else [])

/-- Before another request of the same cc. -/
def askBefore (clock : Nat) (a b : PowerAsk) : Bool :=
  let turn : PowerAsk → Nat := fun r => (r.pos + 97 - clock % 97) % 97
  if a.overdue != b.overdue then a.overdue
  else if a.pri != b.pri then decide (b.pri < a.pri)
  else if turn a != turn b then decide (turn a < turn b)
  else decide (a.sub < b.sub)

/-- Requests in order; equal ones keep the order in which they are listed. -/
def insertAsk (clock : Nat) (x : PowerAsk) (l : List PowerAsk) : List PowerAsk :=
  match l with
  | [] => [x]
  | y :: r => if askBefore clock y x then y :: insertAsk clock x r else x :: y :: r

/-- The allowance after the requests, and the grants. -/
def grantAll (thr : Nat) : List PowerAsk → Nat → Nat × List Grant
  | [], a => (a, [])
  | r :: rs, a =>
    if a < r.weight + (7 - r.pri) * thr then grantAll thr rs a
    else
      let (a, gs) := grantAll thr rs (a - r.weight)
      (a, r.ask :: gs)

/-- Granted units count for the oldest entry of their queue. -/
def State.payMoves (s : State) (gs : List Grant) : State :=
  gs.foldl (fun s g => match g with
    | .move k n => (match s.eng k with
      | some e => (match e.ents with
        | x :: r => s.setEng k { e with ents := { x with paid := x.paid + n } :: r }
        | [] => s)
      | none => s)
    | _ => s) s

/-- The allowance of a cluster before a cluster clock's requests. -/
def State.refilled (s : State) (g : Nat) : Nat :=
  min (pwaCap (s.pwaOf g)) (Tab.get s.power.allow g 0 + s.refillOf g * s.paceOf g none / 1024)

/-- Who asks: a core, a program, a transfer. -/
def reqKey (r : PowerReq) : Nat × Nat :=
  match r with
  | .core c _ => (0, c)
  | .word k => (1, k)
  | .move k _ => (2, k)

/-- The cluster that a request belongs to. -/
def reqCluster (r : PowerReq) : Nat :=
  match r with
  | .core c _ => c / 96
  | .word k => engUnit k
  | .move k _ => engUnit k

def addReq (l : List PowerReq) (r : PowerReq) : List PowerReq := if l.any (fun x => reqKey x == reqKey r) then l else l ++ [r]

/-- A core's stalled slots in this cluster clock (R340). -/
def State.holdSlots (s : State) (core : Nat) (l : List (Nat × Nat)) : State :=
  let st := l.map (fun x => 2 * x.1 + x.2)
  if (s.coreSt core).stalled = st then s else { s with cores := Tab.put s.cores core { s.coreSt core with stalled := st } }

def State.holdAll (s : State) (g : Nat) (reqs : List PowerReq) : State :=
  reqs.foldl (fun s r => match r with
    | .core c l => if c / 96 = g then s.holdSlots c l else s
    | _ => s) s

/-- Cores of a cluster with a slot that is to be issued ahead of every other (R342): they ask in every cluster clock. -/
def State.overdueCores (s : State) (g : Nat) : List PowerReq :=
  (s.cores.filter (fun kv => kv.1 / 96 == g
    && kv.2.order.any (fun x => s.slotEligible (x / 2) (x % 2) && s.overdue (x / 2) (x % 2)))).map (fun kv => .core kv.1 [])

/-- The requests of a cluster clock: those that arise in it, those withheld in the last one, and overdue slots. -/
def State.standing (s : State) (g : Nat) (reqs : List PowerReq) : List PowerReq :=
  (reqs ++ s.power.withheld.filter (fun r => reqCluster r == g) ++ s.overdueCores g).foldl addReq []

/-- The requests of a cluster clock, in order. -/
def State.asks (s : State) (g : Nat) (reqs : List PowerReq) : List PowerAsk :=
  (s.xopAsks g ++ reqs.filterMap (s.askOf g)).foldr (insertAsk s.clock) []

/-- Requests that were withheld: they are made again in the next cluster clock. -/
def State.leftOf (s : State) (g : Nat) (rs : List PowerReq) (gs : List Grant) : List PowerReq :=
  rs.filter (fun r => match s.askOf g r with
    | some a => !gs.contains a.ask
    | none => false)

/-- A cluster's allowance passes a cluster clock, once in each. -/
def State.clusterClock (s : State) (g : Nat) (reqs : List PowerReq) : State :=
  if decide (32 ≤ g) || s.power.asked.contains g then s
  else
    let s := s.holdAll g reqs
    let rs := s.standing g reqs
    let r := grantAll (pwaThr (s.pwaOf g)) (s.asks g rs) (s.refilled g)
    let p := s.power
    (s.setPower { p with
      allow := Tab.put p.allow g r.1, granted := p.granted ++ r.2, asked := g :: p.asked
      withheld := p.withheld.filter (fun x => reqCluster x != g) ++ s.leftOf g rs r.2 }).payMoves r.2

/-- A cluster clock ends: grants that were not used lapse. A cluster that no event asked for is refilled, and what was withheld
there asks again; those grants hold in the clock that begins. -/
def State.powerTick (s : State) : State :=
  let s := s.setPower { s.power with granted := [] }
  let s := (List.range 32).foldl (fun s g => s.clusterClock g []) s
  s.setPower { s.power with asked := [] }

-- Issues.

/-- An issue has its grant; those of a Tailrace context need none. -/
def State.mayIssue (s : State) (a : Agent) : Bool :=
  s.power.granted.contains (.issue a) || (match a with
    | .eng k => engKind k == 2
    | .crew _ _ => false)

/-- The grant of an issue is used. -/
def State.useGrant (s : State) (a : Agent) : State :=
  s.setPower { s.power with granted := s.power.granted.filter (fun g => g != .issue a) }

end Sys2Proof.Machine
end

