-- ==== Sys2Proof/Machine/Atomic.lean ====
section
/-! DEFINITION. Atomics: new values, perform points, permissions by use, QUANTUM groups (R52, R228 to R231, R239, R255 to R259,
R387). -/

namespace Sys2Proof.Machine

/-- An atomic of Table 15-5: function, width in bytes, and whether Table 15-6 lets it reach a KIND 3 page. -/
structure AtOpd where
  op : AtOp
  bytes : Nat
  k3 : Bool
  deriving DecidableEq, Repr

def AtOp.int (o : AtOp) : Bool := o == .add || o == .min || o == .max

/-- The order of an atomic: NONORDERING has none of its own (R229). -/
def atRelease (mode : BitVec 40) : Bool := decide (2 ≤ modeOrd mode) && modeUse mode != 2
def atAcquire (mode : BitVec 40) : Bool := (modeOrd mode == 1 || modeOrd mode == 3) && modeUse mode != 2

/-- R257 for one instruction: the lanes in ascending order, each with its old value. Deferred atomics of the crew to the same
lines come first. -/
def State.atomicLanes (s : State) (id : Nat) (w : Who) (op : AtOp) (bytes : Nat) (mode : BitVec 40) (ls : List AtLane) :
    State × List (Nat × Nat) :=
  let s := if atRelease mode then s.releaseCrew id (modeScope mode) 3 else s
  let s := s.ownFirst w (ls.map (fun l => (l.sp, l.a)))
  let (s, olds) := ls.foldl (fun (x : State × List (Nat × Nat)) l =>
    let (s, old) := x.1.rmw w (modeScope mode) (modeCache mode) l.sp l.a bytes (fun v => op.apply bytes mode v l.d l.d2)
    (s, x.2 ++ [(l.lane, old)])) (s, [])
  (if atAcquire mode then s.acquireCrew id (modeScope mode) 3 else s, olds)

/-- Results of the returning form: the old values in the first registers. -/
def atResult (keys : List Nat) (lanes : Word) (tag : Nat) (olds : List (Nat × Nat)) : List RegW :=
  vecW keys lanes ((List.range 32).map (fun l => match olds.find? (fun o => o.1 == l) with
    | some o => (List.range keys.length).map (fun i => bits o.2 (32 * i) 32)
    | none => [])) (fun _ => tag)

/-- The members of the open heat's group with a QGRP value. -/
def Heat.members (h : Heat) (g : Nat) : List QMember := h.group.filter (fun m => m.grp == g)

/-- A line of scratch or of virtual memory. -/
def quantumLine (mode : BitVec 40) (va : Nat) : Nat := va / 128 * 2 + (modeStore mode == 0).toNat

/-- The line a QUANTUM group stands on. -/
def Heat.groupLine (h : Heat) (g : Nat) : Option Nat :=
  (h.members g).findSome? (fun m => m.lanes.head?.map (fun l => quantumLine m.mode l.va))

/-- The limits of R231 for a lane's address: at most four members, one line, no FABRIC or SYSTEM scope. -/
def Heat.quantumFail (h : Heat) (line : Option Nat) (va : Nat) : Option Fail :=
  let mode := h.wrk.mode
  if modeUse mode != 3 then none
  else if decide (5 ≤ modeScope mode) || decide (4 ≤ (h.members (modeQgrp mode)).length)
      || (match line with
        | some l => quantumLine mode va != l
        | none => false) then some ⟨cSCOPE, 0, va⟩
  else none

/-- Checks the lanes of an atomic (R243): ALIGN, the group's SCOPE, then the place. -/
def State.atomicPlaces (s : State) (id : Nat) (c : Crew) (h : Heat) (as : List (Nat × Acc)) :
    State × Except Stop (List (Nat × List Hit)) :=
  let line := match h.groupLine (modeQgrp h.wrk.mode) with
    | some l => some l
    | none => as.head?.map (fun a => quantumLine h.wrk.mode a.2.va)
  let (s, rs) := as.foldl (fun (x : State × List (Nat × LaneRes)) la =>
    let (s, r) := match (if la.2.va % la.2.align = 0 then h.quantumFail line la.2.va else none) with
      | some f => (x.1, LaneRes.fail f)
      | none => x.1.resolve (s.whoCrew id c) (s.siteCrew id c) (c.com.watchFail la.2) la.2
    (s, x.2 ++ [(la.1, r)])) (s, [])
  (s, laneOutcome true rs)

/-- The data of a lane: `n` registers as one value, or compare and new (R255). -/
def atData (k : AtOpd) (rs : List Nat) : Nat × Nat :=
  let m := k.bytes / 4
  let num : List Nat → Nat := fun xs => xs.foldr (fun x a => x % 2 ^ 32 + 2 ^ 32 * a) 0
  (num (rs.take m), num ((rs.drop m).take m))

/-- Lanes whose AtomicOp to a KIND 3 page the host completer turns away, as its last completion said (R387, log 88). -/
def Crew.turnsAway (c : Crew) (ls : List (Nat × List Hit)) (l : Nat) : Bool :=
  ls.any (fun l => l.2.any (fun x => x.k3)) && c.aopBad.getLsbD l

/-- The first lane turned away makes the result's fault ACCESS. -/
def Got.turned (g : Got) (as : List (Nat × Acc)) (away : Nat → Bool) : Got :=
  match as.find? (fun x => away x.1) with
  | some x => { g with bad := some (g.bad.getD ⟨cACCESS, x.2.va, some x.1⟩) }
  | none => g

/-- An atomic of a KIND 3 page uses what the completion said up. -/
def State.aopTaken (s : State) (id : Nat) (ls : List (Nat × List Hit)) : State :=
  if ls.any (fun l => l.2.any (fun x => x.k3)) then s.updCrew id (fun c => { c with aopBad := 0 }) else s

/-- An atomic of the crew: `d` the derived operand, `nr` the non-returning form. A relaxed COMMUTATIVE one of package memory
that returns nothing is deferred (R229). The queue of each home slice that its lanes need has room, or refuses it (R272). -/
def atomicEff (k : AtOpd) (d a o : BitVec 5) (la : Nat) (nr kb : Bool) : Eff := fun s id c h =>
  let mode := h.wrk.mode
  let use := modeUse mode
  let m := k.bytes / 4
  let ks := h.dkeys d (if k.op == .cas then 2 * m else m)
  let dst := if nr then [] else ks.take m
  let f := modeFmt mode
  let itag := if k.bytes = 8 then fmtINT64 else fmtINT32
  let fadd := k.op == .fadd
  let legal := (use != 4 || modeOrd mode == 0) && !(fadd && (modeRnd mode).mode == rndSR)
    && !(use == 3 && dst.any (fun x => decide (1024 ≤ x)))
  let fmtOk := (!k.op.int || h.wrk.accepts itag ks)
    && (!fadd || (f == (if k.bytes = 8 then fmtFP64 else fmtFP32) && h.wrk.accepts f ks))
  match c.laneCheck h (h.baseKeys kb a ++ ks) dst [] legal fmtOk with
  | .error e => .error e
  | .ok () =>
    let noK3 := !(k.k3 && s.port.aopcap.getLsbD (if k.bytes = 4 then 0 else if k.bytes = 8 then 1 else 2))
    let as := (lanesIn (c.lanes h)).map (fun l => (l, (⟨addrOf (h.baseAt kb a l) o.toNat k.bytes, k.bytes, aAtomic,
      modeStore mode, modeScope mode, k.bytes, false, noK3, 0⟩ : Acc)))
    match s.atomicPlaces id c h as with
    | (s', .error st) => .error (s'.stopIn id st)
    | (s, .ok ls) =>
      if as.isEmpty && use == 3 && (decide (4 ≤ (h.members (modeQgrp mode)).length) || decide (5 ≤ modeScope mode)) then
        .error (.fault ⟨cSCOPE, 0, 0⟩ none)
      else
        let away := c.turnsAway ls
        let g := (s.got (s.whoCrew id c) true as ls).turned as away
        let s := s.aopTaken id ls
        let lanes := ls.map (fun l =>
          let x := l.2.headD ⟨.scr, 0, false, 0⟩
          let v := atData k (h.wrk.at_ ks l.1)
          (⟨l.1, (as.find? (fun y => y.1 == l.1)).elim 0 (fun y => y.2.va), x.sp, x.pa, v.1, v.2⟩ : AtLane))
        let tag := if k.op.int then itag else if fadd then f else fmtBITS
        let s := if use = 4 then s else s.seal id
        if use = 3 then
          .ok (s.updCrew id (fun c => match c.heat with
            | some h => { c with heat := some { h with
                dests := (h.dests ++ dst).eraseDups
                group := h.group ++ [⟨modeQgrp mode, k.op, k.bytes, lanes, dst, c.lanes h, tag, mode, (c.slot h.slot).pc, h.off⟩] } }
            | none => c), 0)
        else
          let q : QMember := ⟨0, k.op, k.bytes, lanes, [], c.lanes h, tag, mode, (c.slot h.slot).pc, h.off⟩
          match (q.slices.map resAtomic).find? (fun r => !s.admitted r id) with
          | some r => .error (.held ((s.refuseOnce r id).updCrew id (fun c => { c with wait := .ticket r 0 s.clock false })))
          | none =>
          let s := q.slices.foldl (fun s x => s.claim (resAtomic x) id) s
          if nr && use == 1 && modeOrd mode == 0 && g.bad.isNone && lanes.all (fun l => l.sp == .pkg) then
            .ok (s.updCrew id (fun c => { c with later := c.later ++ [q] }), 0)
          else
          let (s, olds) := s.atomicLanes id (s.whoCrew id c) k.op k.bytes mode (lanes.filter (fun l => !away l.lane))
          if nr then (match g.bad with
            | some m => .error (s.metNow id m)
            | none => .ok (s, 0))
          else
            match s.emitLoad id (atResult dst (c.lanes h) tag (olds ++ (lanes.filter (fun l => away l.lane)).map (fun l => (l.lane, 0)))) la g with
            | .error st => .error st
            | .ok s => .ok (s, 0)

/-- The access of a held lane. -/
def QMember.acc (q : QMember) (l : AtLane) : Acc := ⟨l.va, q.bytes, aAtomic, modeStore q.mode, modeScope q.mode, q.bytes, false, false, 0⟩

/-- The group of the heat performed at its closer, in program order (R231): the results as R129 names them. -/
def State.performGroup (s : State) (id : Nat) : State :=
  match s.crew id with
  | none => s
  | some c =>
    match c.heat with
    | none => s
    | some h =>
      let w := s.whoCrew id c
      let (s, ps) := h.group.foldl (fun (x : State × List Pend) q =>
        let g := x.1.got w true (q.lanes.map (fun l => (l.lane, q.acc l))) (q.lanes.map (fun l => (l.lane, hitsAt l.sp l.a q.bytes)))
        let (s, olds) := x.1.atomicLanes id w q.op q.bytes q.mode q.lanes
        let ws := if q.dest.isEmpty then [] else atResult q.dest q.mask q.tag olds
        (s, x.2 ++ [⟨if g.bad.isSome then ws.map RegW.zero else ws, 0, q.pc, q.off, 0, 0, g⟩])) (s, [])
      let met := ps.findSome? (fun p => p.got.bad.map (fun m =>
        { s.crewRec c h.slot ⟨m.cause, 0, m.addr⟩ m.lane with wordpc := p.pc }))
      s.updCrew id (fun c => { c with
        named := c.named ++ ps.filter (fun p => !p.ws.isEmpty), heat := c.heat.map (fun h => { h with group := [] })
        bad := if c.bad.isSome then c.bad else met })

/-- A word of the 32-bit and 64-bit atomics. -/
def atomicWord (i : Instr) (op : AtOp) (k3 : Bool) (o : OpAt) (s : State) : Host.Outcome State Fault Refusal :=
  s.crewWord i.wf (atomicEff ⟨op, if o.w then 8 else 4, k3⟩ o.d o.a o.o o.l.toNat o.n o.k)

def execAadd (o : OpAt) (s : State) : Host.Outcome State Fault Refusal := atomicWord (.aadd o) .add true o s
def execAfadd (o : OpAt) (s : State) : Host.Outcome State Fault Refusal := atomicWord (.afadd o) .fadd false o s
def execAmin (o : OpAt) (s : State) : Host.Outcome State Fault Refusal := atomicWord (.amin o) .min false o s
def execAmax (o : OpAt) (s : State) : Host.Outcome State Fault Refusal := atomicWord (.amax o) .max false o s
def execAand (o : OpAt) (s : State) : Host.Outcome State Fault Refusal := atomicWord (.aand o) .and false o s
def execAor (o : OpAt) (s : State) : Host.Outcome State Fault Refusal := atomicWord (.aor o) .or false o s
def execAxor (o : OpAt) (s : State) : Host.Outcome State Fault Refusal := atomicWord (.axor o) .xor false o s
def execAswp (o : OpAt) (s : State) : Host.Outcome State Fault Refusal := atomicWord (.aswp o) .swp true o s
def execAcas (o : OpAt) (s : State) : Host.Outcome State Fault Refusal := atomicWord (.acas o) .cas true o s
def execAcas2 (d a o : BitVec 5) (l : BitVec 4) (n k : Bool) (s : State) : Host.Outcome State Fault Refusal :=
  s.crewWord (Instr.wf (.acas2 d a o l n k)) (atomicEff ⟨.cas, 16, true⟩ d a o l.toNat n k)

end Sys2Proof.Machine
end

