-- ==== Sys2Proof/Machine/Control.lean ====
section
/-! DEFINITION. Heats, closers, branches and splits, calls and returns, exits, hints, MODE, traps (R40 to R50, R58, R59, R65,
R101, R113, R126 to R145, R284, R357, R367, R410, R417). -/

namespace Sys2Proof.Machine

-- Opening a heat.

/-- The slot opens a heat at its word (R45, R127). -/
def State.openHeat (s : State) (id n : Nat) (c : Crew) : State :=
  let x := c.slot n
  let mine := c.skip.any (fun k => k / 32 % 2 == n)
  let h := { Heat.openAt n x.base x.pc c.com with skip := if mine then c.skip.map (· % 32) else none }
  s.setCrew id { c.setSlot n { x with pc := x.pc + 4 } with heat := some h, wait := .none, latch := ageLatch [] c.latch }

/-- POISON of a named result is raised at the crew's next heat boundary (R129, R391). -/
def State.raiseNamed (s : State) (id n : Nat) (c : Crew) (f : FaultRec) : State :=
  (s.setCrew id { c with bad := none }).parkCrew id n
    { f with slot := n, lanes := (c.slot n).mask, heatpc := (c.slot n).pc } true

/-- HEAT and HEAT.J of a crew: `f` opens the heat. -/
def State.heatCrew (s : State) (id n : Nat) (c : Crew) (f : State → State) : State :=
  match c.heat with
  | some h =>
    if h.slot != n then s
    else if h.skip == some h.off && decide (h.off < 23) then s.setCrew id c.passed
    else s.raise id n ⟨cILLEGAL, 0, 0⟩ none false
  | none =>
    match c.bad with
    | some b => s.raiseNamed id n c b
    | none => f s

/-- HEAT and HEAT.J of an engine context. -/
def State.heatEng (s : State) (k : Nat) (e : Eng) : State :=
  if e.entry.isSome then s.raiseEng k ⟨cILLEGAL, 0, 0⟩
  else s.setEng k { e with entry := some e.pc, pc := e.pc + 4, off := 1, wait := .none }

/-- A crew's or an engine's turn. -/
def State.bothWord (s : State) (f : State → Nat → Nat → Crew → State) (g : State → Nat → Eng → State) :
    Host.Outcome State Fault Refusal :=
  match s.cur with
  | .crew id n =>
    match s.issuer id with
    | some (s, c) => .next (f s id n c)
    | none => .fault .noAgent
  | .eng k =>
    match s.eng k with
    | some e => .next (g s k e)
    | none => .fault .noAgent

def execHeat (s : State) : Host.Outcome State Fault Refusal :=
  s.bothWord (fun s id n c => s.heatCrew id n c (fun s => s.openHeat id n c)) State.heatEng

/-- Units of spilled divergence-stack entries that a pop refills when the top entry lies in them (R44): those that no entry
needs afterwards leave the spill area, the one that is left in part is read. -/
def Crew.stackRefill (c : Crew) (dstk : Nat) : List Nat :=
  let left := c.stackLeft dstk
  if decide (c.stack.length ≤ c.ring.entries) && !c.stack.isEmpty then
    ((List.range (c.ring.stackUnits - ceilDiv left 64)).map (fun i => stackItem (ceilDiv left 64 + i))).reverse
      ++ (if left % 64 = 0 || c.ring.entries ≤ left then [] else [stackRead (left / 64)])
  else []

/-- Resolution at a join (Table 3-2): a popped entry is refilled first, and its target is checked as it enters the slot. -/
def State.joinHeat (s : State) (id n : Nat) (c : Crew) : State :=
  let (c', run) := Crew.resolveJ 4 c n
  if c'.stack.length < c.stack.length then
    let refill := c.stackRefill (s.dstkOf c)
    if !refill.isEmpty then s.setCrew id (s.ask c { c with wait := .refill n refill })
    else if c.stack.head?.any (fun e => e.bad) then s.raise id n ⟨cPOISON, 0, 0⟩ none false
    else (s.setCrew id c').checkTarget id (1 - n) ((c.stack.head?.map (fun e => e.src)).getD 0)
  else if run then s.openHeat id n c'
  else s.setCrew id c'

def execHeatJ (s : State) : Host.Outcome State Fault Refusal :=
  s.bothWord (fun s id n c => s.heatCrew id n c (fun s => s.joinHeat id n c)) State.heatEng

-- Closing a heat.

/-- The slot continues at an address, which is checked (R45, R131). -/
def State.goto (s : State) (id n : Nat) (pc src : DWord) : State :=
  (s.updCrew id (fun c => c.setSlot n { c.slot n with pc := pc })).checkTarget id n src

/-- What a closer does after its commit, once its checks before the commit have passed. -/
abbrev Plan := State → Nat → Crew → Heat → Except Stop (State × (State → State))

/-- Blocks that the heat gives and that are not resident (R282). -/
def Crew.giveRefill (c : Crew) (h : Heat) : List Nat :=
  c.absentIn (h.gives.flatMap (fun w => (List.range (tokCount w)).map (fun i => tokBase w + i)))

/-- The commit of a closer: the QUANTUM group, the results it names, R50; then its transfer. -/
def State.finishClose (s : State) (id n : Nat) (names : Bool) (go : State → State) : State :=
  let s := s.performGroup id
  let s := s.updCrew id (fun c => match c.heat.bind (fun h => h.met (fun _ => true)), c.bad with
    | some (p, m), none => { c with bad := some { s.crewRec c n ⟨m.cause, 0, m.addr⟩ m.lane with wordpc := p.pc } }
    | _, _ => c)
  -- GIVE waits for every result that is still to come (R282)
  let gave := match (s.crew id).bind (fun c => c.heat) with
    | some h => !h.gives.isEmpty
    | none => false
  let s := if gave then s.updCrew id Crew.settle else s
  go (s.commit id (names && !gave))

/-- A closer of a crew: `quench` for QUENCH, which alone may close a heat that holds TRET; `names` when it names results. -/
def State.closeCrew (s : State) (id n : Nat) (c : Crew) (wf quench names : Bool) (plan : Plan) : State :=
  match c.heat with
  | none => s.raise id n ⟨cILLEGAL, 0, 0⟩ none false
  | some h =>
    let pc := (c.slot n).pc
    if h.slot != n then s
    else if h.skip == some h.off then
      (match s.regHold id h with
      | some st => s.stopCrew id n st
      | none => s.finishClose id n true (fun s => s.goto id n (pc + 4) pc))
    else if !wf || (h.tret && !quench) then s.raise id n ⟨cILLEGAL, 0, 0⟩ none false
    else
      match plan s id c h.ahead with
      | .error st => s.stopCrew id n st
      | .ok (s', go) =>
        match s.regHold id h with
        | some st => s.stopCrew id n st
        | none =>
        if !(c.giveRefill h).isEmpty then s.setCrew id (s.ask c { c with wait := .refill n (c.giveRefill h) })
        else
          match (if names then none else h.met (fun _ => true)) with
          | some (p, m) => s.raiseMet id n p m
          | none => s'.finishClose id n names go

/-- A closer of crews and engine contexts. -/
def State.closer (s : State) (wf quench names : Bool) (plan : Plan) (eng : State → Nat → Eng → State) :
    Host.Outcome State Fault Refusal :=
  s.bothWord (fun s id n c => s.closeCrew id n c wf quench names plan) eng

-- QUENCH and the return from a trap (R128, R145, R357).

/-- The return: MODE, the end of the handler, SKIP, and where the slot continues. -/
def State.trapReturn (s : State) (id n : Nat) (src : DWord) : State :=
  match s.crew id with
  | none => s
  | some c =>
    let ctl := c.com.tretctl
    let skip := if ctl.getLsbD 0 then some (fieldOf ctl 8 5) else none
    let com := { c.com with mode := c.trap.saveMode }
    let held := skip.map (· + 32 * n + 64)
    let trap : TrapSt := ⟨0, 0, c.trap.info, c.trap.saveMode, c.trap.saveDepth, none⟩
    match c.trap.heat with
    | some h =>
      let w := h.rebase com
      let c := c.setSlot n { c.slot n with pc := h.entry + BitVec.ofNat 64 (4 * h.off), base := (c.slot n).base }
      s.setCrew id { c with com := com, trap := trap, heat := some { h with wrk := w, skip := skip }, skip := held }
    | none =>
      (s.setCrew id { c with com := com, trap := trap, skip := held }).goto id n c.com.tretpc src

def execQuench (s : State) : Host.Outcome State Fault Refusal :=
  s.closer true true true
    (fun s id c h =>
      let pc := (c.slot h.slot).pc
      if h.tret then
        if (c.slot h.slot).chain.length != c.trap.saveDepth then
          .error (.held (s.raise id h.slot ⟨cILLEGAL, 0, 0⟩ none true))
        else .ok (s, fun s => s.trapReturn id h.slot pc)
      else .ok (s, fun s => s.goto id h.slot (pc + 4) pc))
    (fun s k e => s.closeEng k e true (fun e => .ok (e, e.pc + 4)))

-- Splits (R41, R44, R417).

/-- Entries pushed need units of the spill area. -/
def State.pushPlan (s : State) (c : Crew) (m : Nat) : Option (List Nat × Nat × Nat) :=
  let p := c.unitPlan (s.dstkOf c) 0 m
  if !p.1.isEmpty && decide (s.spillPlaces c < c.ring.spilled.length + p.1.length) then none else some p

/-- Makes a pending split: the slot keeps its group, a free slot takes the next, the others are pushed. -/
def State.makeSplit (s : State) (id : Nat) (sp : Split) : State :=
  match s.crew id with
  | none => s
  | some c =>
    let n := sp.slot
    let free := (c.slot (1 - n)).free
    let pushed := if free then sp.groups.drop 1 else sp.groups
    match s.pushPlan c pushed.length with
    | none =>
      let r := { s.crewRec c n ⟨cSTACK, 0, 0⟩ none with heatpc := sp.entry, wordpc := sp.word, off := sp.off }
      (s.setCrew id { c with split := some sp }).parkCrew id n r true
    | some (units, _, e) =>
      let c := c.setSlot n { c.slot n with pc := sp.keep.pc, mask := sp.keep.mask }
      let c := match (if free then sp.groups.head? else none) with
        | some g => c.setSlot (1 - n) { pc := g.pc, mask := g.mask, base := g.base, chain := g.chain, parked := false }
        | none => c
      let c := s.ask c { c with
        stack := pushed ++ c.stack, split := none
        ring := { c.ring with todo := c.ring.todo ++ units, entries := e } }
      let s := (s.setCrew id c).checkTarget id n sp.word
      if free && !sp.groups.isEmpty then s.checkTarget id (1 - n) sp.word else s

/-- Lanes by target, the group of the lowest lane first. -/
def groupBy (f : Nat → DWord) (m : Word) : List (DWord × Word) :=
  ((lanesIn m).map f).eraseDups.map (fun t => (t, maskOf (fun l => m.getLsbD l && f l == t)))

/-- The slot's lanes continue at the targets of `groups`, whose first stays in the slot. -/
def State.branchTo (s : State) (id n : Nat) (h : Heat) (src : DWord) (groups : List (DWord × Word)) : State :=
  match s.crew id, groups with
  | some c, g :: r =>
    let x := c.slot n
    let ent : DWord × Word → StackEntry := fun g => ⟨g.1, g.2, x.base, x.chain, src, false⟩
    s.makeSplit id ⟨n, ent g, r.map ent, h.entry, src, h.off⟩
  | _, _ => s

/-- BR (R131). -/
def execBr (p : BitVec 3) (i : Bool) (o : BitVec 21) (s : State) : Host.Outcome State Fault Refusal :=
  let target : DWord → DWord := fun pc => pc + (o.signExtend 64 <<< 2)
  s.closer true false true
    (fun s id c h =>
      let pc := (c.slot h.slot).pc
      let pr := h.wrk.rdP p.toNat
      let taken := c.lanes h &&& (if i then ~~~pr else pr)
      let fall := c.active h &&& ~~~taken
      let groups := (if fall = 0 then [] else [(pc + 4, fall)]) ++ (if taken = 0 then [] else [(target pc, taken)])
      .ok (s, fun s => s.branchTo id h.slot h pc groups))
    (fun s k e => s.closeEng k e true (fun e =>
      .ok (e, if e.guard && (e.rdP p.toNat != i) then target e.pc else e.pc + 4)))

/-- A target from a register (R132): ACCESS for bits [63:57], ALIGN for bits [1:0]. -/
def badTarget (t : DWord) : Option Stop :=
  if fieldOf t 57 7 != 0 then some (.fault ⟨cACCESS, aFetch, t.toNat⟩ none)
  else if fieldOf t 0 2 != 0 then some (.fault ⟨cALIGN, 0, t.toNat⟩ none)
  else none

/-- BRA (R132). -/
def execBra (a : BitVec 5) (s : State) : Host.Outcome State Fault Refusal :=
  s.closer true false true
    (fun s id c h =>
      let t := h.wrk.rdS a.toNat
      let pc := (c.slot h.slot).pc
      match badTarget t with
      | some st => .error st
      | none => .ok (s, fun s => s.goto id h.slot t pc))
    (fun s k e => s.closeEng k e true (fun e =>
      match badTarget (e.rdS a.toNat) with
      | some st => .error st
      | none => .ok (e, e.rdS a.toNat)))

/-- BRX (R133). -/
def execBrx (a b : BitVec 5) (hb : Bool) (s : State) : Host.Outcome State Fault Refusal :=
  s.closer (Instr.wf (.brx a b hb)) false true
    (fun s id c h =>
      let pc := (c.slot h.slot).pc
      let k := h.key b.toNat
      let base := h.wrk.rdS a.toNat
      let dest : Nat → DWord := fun l =>
        if (c.lanes h).getLsbD l then base + ((lane (h.wrk.rdV k) l).signExtend 64 <<< 2) else pc + 4
      let ts := (lanesIn (c.lanes h)).map dest
      match c.check h [k] [] [] true (h.wrk.tagsIn [k] [fmtINT32, fmtBITS]) with
      | .error e => .error e
      | .ok () =>
        match ts.find? (fun t => fieldOf t 0 2 != 0), ts.find? (fun t => fieldOf t 57 7 != 0) with
        | some t, _ => .error (.fault ⟨cALIGN, 0, t.toNat⟩ none)
        | none, some t => .error (.fault ⟨cACCESS, aFetch, t.toNat⟩ none)
        | none, none =>
          .ok (s.setCrew id (c.latched (if hb then [k] else [])),
            fun s => s.branchTo id h.slot h pc (groupBy dest (c.active h))))
    (fun s k _ => s.raiseEng k ⟨cILLEGAL, 0, 0⟩)

-- Calls and returns (R58, R134 to R137).

/-- Copies registers with their tags for some lanes; every source is read before a destination is written. -/
def Crew.copyRegs (c : Crew) (src dst n : Nat) (m : Word) : Crew :=
  { c with com := c.com.puts ((List.range n).map (fun i => .v (dst + i) m (c.com.rdV (src + i)) (c.com.rdTag (src + i)))) }

/-- CALL and CALLX of a crew with slide `k`. -/
def callPlan (k : Nat) (target : Heat → DWord → DWord) (indirect : Bool) : Plan := fun s id c h =>
  let n := h.slot
  let pc := (c.slot n).pc
  let t := target h pc
  let b := h.base
  let callee := match c.useRange (1 - n) with
    | some (lo, hi) => if b + k ≤ hi && lo ≤ b + k + 23 then hi + 1 else b + k
    | none => b + k
  let moved := callee != b + k
  let copy := if moved then (List.range (24 - k)).flatMap (fun i => [b + k + i, callee + i]) else []
  if k = 0 then .error stopIllegal
  else match (if indirect then badTarget t else none) with
    | some st => .error st
    | none =>
      if 1000 < callee then .error (.fault ⟨cSTACK, 0, 0⟩ none)
      else match s.framePlan (c.setSlot n { c.slot n with base := b }) n callee copy 1 with
        | .error st => .error st
        | .ok todo =>
          let links := (c.unitPlan (s.dstkOf c) 1 0).2.1
          .ok (s, fun s =>
            let s := s.updCrew id (fun c =>
              let c := if moved then c.copyRegs (b + k) callee (24 - k) (c.slot n).mask else c
              let x := c.slot n
              let rec_ : LinkRec := ⟨s.uid, pc + 4, b, k, moved, callee, false⟩
              let c := c.setSlot n { x with base := callee, chain := rec_ :: x.chain }
              s.ask c { c with ring := { c.ring with todo := todo, links := links } })
            { s with uid := s.uid + 1 }.goto id n t pc)

/-- A call of an engine context: slide 0, a return stack of eight addresses (R137). -/
def engCall (k : Nat) (target : Eng → DWord) (indirect : Bool) (e : Eng) : Except Stop (Eng × DWord) :=
  if k != 0 then .error stopIllegal
  else match (if indirect then badTarget (target e) else none) with
    | some st => .error st
    | none =>
      if 8 ≤ e.rets.length then .error (.fault ⟨cSTACK, 0, 0⟩ none)
      else .ok ({ e with rets := (e.pc + 4) :: e.rets }, target e)

def execCall (k : BitVec 5) (o : BitVec 20) (s : State) : Host.Outcome State Fault Refusal :=
  let off : DWord := o.signExtend 64 <<< 2
  s.closer (Instr.wf (.call k o)) false false (callPlan k.toNat (fun _ pc => pc + off) false)
    (fun s key e => s.closeEng key e true (engCall k.toNat (fun e => e.pc + off) false))

def execCallx (k a : BitVec 5) (s : State) : Host.Outcome State Fault Refusal :=
  s.closer (Instr.wf (.callx k a)) false false (callPlan k.toNat (fun h _ => h.wrk.rdS a.toNat) true)
    (fun s key e => s.closeEng key e true (engCall k.toNat (fun e => e.rdS a.toNat) true))

/-- Lanes leave the slot for good; an emptied slot takes the top entry of the stack (R43, R61, R139). -/
def State.exitLanes (s : State) (id n : Nat) (m : Word) (pc : DWord) : State :=
  match s.crew id with
  | none => s
  | some c =>
    let c := { c with exited := c.exited ||| m }
    let go : Crew → State := fun c => s.setCrew id c.dropLinks
    let left := (c.slot n).mask &&& ~~~m
    if left != 0 then (s.setCrew id (c.setSlot n { c.slot n with mask := left })).goto id n (pc + 4) pc
    else
      match c.stack with
      | e :: r =>
        let c := { c.setSlot n { pc := e.pc, mask := e.mask, base := e.base, chain := e.chain, parked := false } with stack := r }
        (go c).checkTarget id n e.src
      | [] => go (c.setSlot n PcSlot.none)

/-- What an exit that empties the slot refills: a spilled top entry, and linkage units beyond the remaining records' need. -/
def Crew.exitRefill (c : Crew) (n dstk : Nat) : List Nat := c.stackRefill dstk ++ (c.setSlot n PcSlot.none).linksOver

/-- The plan of an exit: what it pops is refilled first. -/
def exitPlan (lanes : Crew → Heat → Word) : Plan := fun s id c h =>
  let n := h.slot
  let pc := (c.slot n).pc
  let m := lanes c h
  let refill := c.exitRefill n (s.dstkOf c)
  if (c.slot n).mask &&& ~~~m = 0 && !refill.isEmpty then .error (.wait (.refill n refill))
  else if (c.slot n).mask &&& ~~~m = 0 && c.stack.head?.any (fun e => e.bad) then .error (.fault ⟨cPOISON, 0, 0⟩ none)
  else .ok (s, fun s => s.exitLanes id n m pc)

def execExit (s : State) : Host.Outcome State Fault Refusal :=
  s.closer true false false (exitPlan Crew.lanes) (fun s k _ => s.raiseEng k ⟨cILLEGAL, 0, 0⟩)

/-- The return itself: the record popped, the copies back, the caller's base, the transfer. -/
def State.doReturn (s : State) (id n : Nat) (src : DWord) : State :=
  match s.crew id with
  | none => s
  | some c =>
    match (c.slot n).chain with
    | [] => s
    | top :: r =>
      let c := if top.moved then c.copyRegs top.callee (top.caller + top.k) (24 - top.k) (c.slot n).mask else c
      let c := c.setSlot n { c.slot n with base := top.caller, chain := r }
      (s.setCrew id { c with ret := none }).goto id n top.ret src

/-- What a RET refills before it pops (R59, R65): the units that the records left no longer need, the unit of its record, then
the blocks of its copies, one at a time (R410). -/
def Crew.retRefill (c : Crew) (n : Nat) : List Nat :=
  match (c.slot n).chain with
  | [] => []
  | top :: r =>
    let unit := (((c.records).filter (fun u => decide (u ≤ top.uid))).length - 1) / 64
    let keep := ceilDiv ((c.setSlot n { c.slot n with chain := r }).records.length - 64) 64
    let extra := c.linksFrom keep
    if !extra.isEmpty then extra
    else if decide (unit < c.ring.linkUnits) && !c.ring.touched.contains (linkRead unit) then [linkRead unit]
    else if top.moved then
      ((c.absentIn ((List.range (24 - top.k)).flatMap (fun i => [top.callee + i, top.caller + top.k + i]))).filter
        (fun b => !c.ring.touched.contains b)).take 1
    else []

/-- RET (R136). -/
def retPlan : Plan := fun s id c h =>
  let n := h.slot
  let pc := (c.slot n).pc
  if (c.slot n).chain.isEmpty then exitPlan Crew.active s id c h
  else if !(c.retRefill n).isEmpty then .error (.wait (.refill n (c.retRefill n)))
  else if (c.slot n).chain.head?.any (fun r => r.bad) then .error (.fault ⟨cPOISON, 0, 0⟩ none)
  else if c.retToken n then
    if c.canTake n then .ok (s, fun s => s.updCrew id (fun c => { c with ret := some n }))
    else .error (.fault ⟨cTOKEN, 0, 0⟩ none)
  else .ok (s, fun s => s.doReturn id n pc)

/-- A RET whose heat has committed looks at its block's tokens again. -/
def State.retAgain (s : State) (id n : Nat) (c : Crew) : State :=
  let pc := (c.slot n).pc
  if !c.retToken n then
    if (c.retRefill n).isEmpty then s.doReturn id n pc
    else s.setCrew id (s.ask c { c with wait := .refill n (c.retRefill n) })
  else if c.canTake n then s
  else s.raiseLate id n ⟨cTOKEN, 0, 0⟩ pc

def execRet (s : State) : Host.Outcome State Fault Refusal :=
  s.bothWord
    (fun s id n c =>
      if c.heat.isNone && c.ret == some n then s.retAgain id n c
      else s.closeCrew id n c true false false retPlan)
    (fun s k e => s.closeEng k e true (fun e => match e.rets with
      | [] => .error stopIllegal
      | t :: r => .ok ({ e with rets := r }, t)))

/-- SLIDE (R138). Its transfers follow the commit (R367); a word of the heat that names a register of the new window waits for
its block. -/
def execSlide (n : BitVec 20) (s : State) : Host.Outcome State Fault Refusal :=
  s.crewWord (Instr.wf (.slide n)) (fun s id c h =>
    let b : Int := (h.base : Int) + n.toInt
    let floor : Int := match (c.slot h.slot).chain with
      | r :: _ => (r.callee : Int)
      | [] => 0
    if b < floor || 1000 < b then .error (.fault ⟨cSTACK, 0, 0⟩ none)
    else
      match s.framePlan c h.slot b.toNat [] 0 with
      | .error st => .error st
      | .ok todo =>
        .ok (s.setCrew id { c with heat := some { h with base := b.toNat, owed := todo } }, 0))

-- Hints and MODE (R113, R140, R141).

/-- An effect on the open heat alone. -/
def heatEff (f : Crew → Heat → Except Stop Heat) : Eff := fun s id c h =>
  match f c h with
  | .error e => .error e
  | .ok h => .ok (s.setCrew id { c with heat := some h }, 0)

def execNop (s : State) : Host.Outcome State Fault Refusal :=
  s.sharedWord true (heatEff (fun _ h => .ok h)) kindAll true (ownEff (fun e => .ok e))

def execYield (s : State) : Host.Outcome State Fault Refusal :=
  s.sharedWord true (heatEff (fun _ h => .ok { h with yielded := true })) kindAll true (ownEff (fun e => .ok e))

/-- MODE as R113 changes it; none where the value is refused. -/
def newMode (low : Bool) (i : BitVec 20) (m : BitVec 40) : Option (BitVec 40) :=
  let v := i.toNat
  if low then
    if bits v 17 3 != 0 || fmtReserved (bits v 4 5) || decide (6 ≤ bits v 9 3) then none
    else some ((m &&& ~~~(0xFFFFF#40)) ||| i.setWidth 40)
  else
    if bits v 16 4 != 0 || bits v 0 3 == 7 || decide (5 ≤ bits v 5 3) then none
    else some ((m &&& 0xFFFFF#40) ||| (i.setWidth 40 <<< 20))

def setMode (low : Bool) (i : BitVec 20) (s : State) : Host.Outcome State Fault Refusal :=
  s.sharedWord true
    (heatEff (fun _ h => match newMode low i h.wrk.mode with
      | some m => .ok { h with wrk := { h.wrk with mode := m } }
      | none => .error stopIllegal))
    kindAll true
    (ownEff (fun e => match newMode low i e.mode with
      | some m => .ok { e with mode := m }
      | none => .error stopIllegal))

def execMode (i : BitVec 20) (s : State) : Host.Outcome State Fault Refusal := setMode true i s
def execModem (i : BitVec 20) (s : State) : Host.Outcome State Fault Refusal := setMode false i s

-- Traps (R142 to R145).

def execBrk (code : BitVec 20) (s : State) : Host.Outcome State Fault Refusal :=
  s.sharedWord true (fun _ _ _ _ => .error (.trap cBREAK code.toNat)) kindAll true
    (fun _ _ _ => .error (.trap cBREAK code.toNat))

/-- TRAP and SVC of an engine context: the heat closes, and the fault stops the context at the next word. -/
def State.engTrap (s : State) (k : Nat) (e : Eng) (cause code : Nat) : State :=
  if e.entry.isNone || decide (24 ≤ e.off) then s.raiseEng k ⟨cILLEGAL, 0, 0⟩
  else
    let e' := { e.age true with pc := e.pc + 4, entry := none, off := 0 }
    (s.setEng k e').stopEng k (s.engRec k e' ⟨cause, code, 0⟩ (e.pc + 4) e.pc 0) true

def execSvc (code : BitVec 20) (s : State) : Host.Outcome State Fault Refusal :=
  s.closer true false false
    (fun s id c h =>
      let pc := (c.slot h.slot).pc
      .ok (s, fun s =>
        (s.updCrew id (fun c => c.setSlot h.slot { c.slot h.slot with pc := pc + 4 })).trap id h.slot cSVC code.toNat
          (some (pc + 4, h.off))))
    (fun s k e => s.engTrap k e cSVC code.toNat)

def execTrap (code : BitVec 20) (s : State) : Host.Outcome State Fault Refusal :=
  s.closer true false false
    (fun s id c h =>
      let pc := (c.slot h.slot).pc
      .ok (s, fun s =>
        (s.updCrew id (fun c => c.setSlot h.slot { c.slot h.slot with pc := pc + 4 })).raiseLate id h.slot
          ⟨cBREAK, code.toNat, 0⟩ pc))
    (fun s k e => s.engTrap k e cBREAK code.toNat)

def execTret (s : State) : Host.Outcome State Fault Refusal :=
  s.sharedWord true
    (heatEff (fun c h => if c.trap.cause = 0 then .error stopIllegal else .ok { h with tret := true }))
    kindAll false (fun _ _ _ => .error stopIllegal)

end Sys2Proof.Machine
end

