-- ==== Sys2Proof/Machine/System.lean ====
section
/-! DEFINITION. System registers, TLBI, CLASS, PWRQ and CTXQ (R312 to R318, R346, R377, R378). -/

namespace Sys2Proof.Machine

/-- A crew is privileged when its region's effective fault domain is 0 (R312). -/
def State.privileged (s : State) (rk : Nat) : Bool :=
  match s.region rk with
  | some r => r.fdom == 0
  | none => false

-- System registers (Table 17-7).

def csrListed (n : Nat) : Bool := [0, 1, 2, 3, 0x10, 0x11, 0x12, 0x20, 0x21, 0x22, 0x23].contains n
def csrRO (n : Nat) : Bool := decide (n ≤ 3)
def csrPriv (n : Nat) : Bool := decide (0x10 ≤ n) && decide (n ≤ 0x12)

/-- A register of the package. -/
def State.csr (s : State) (n : Nat) : Nat :=
  match n with
  | 0 => 0x4B5A * 2 ^ 48 + 0x5180 * 2 ^ 32 + Config.stepping * 2 ^ 16
  | 1 => (if s.fab.rvalid then 2 ^ 10 else 0) + s.fab.frank % 2 ^ 10
  | 2 => s.fab.ports.length % 128 * 2 ^ 8 + s.pool.trainedB.toNat * 4 + s.pool.trainedA.toNat * 2 + Config.cmForm.toNat
  | 3 => 1400
  | 0x10 => s.mil.wcbage
  | 0x11 => s.mil.millto
  | 0x12 => s.mil.engto
  | _ => 0

/-- CSRR (R313). -/
def execCsrr (d : BitVec 5) (c : BitVec 10) (s : State) : Host.Outcome State Fault Refusal :=
  let n := c.toNat
  s.sharedWord true
    (fun s id cr h =>
      if !csrListed n then .error stopIllegal
      else match cr.check h [] [] [nameS d] true true with
      | .error e => .error e
      | .ok () =>
        if csrPriv n && !s.privileged cr.rk then .error stopAccess
        else
          let x : DWord := if 0x20 ≤ n then Tab.get h.wrk.watch (n - 0x20) 0 else BitVec.ofNat 64 (s.csr n)
          match s.emitLoad id [.s d.toNat x] 0 .clean with
          | .error e => .error e
          | .ok s => .ok (s, 0))
    kindM true
    (fun s k e =>
      if !csrListed n then .error stopIllegal
      else if csrPriv n && !s.privileged e.rk then .error stopAccess
      else
        -- watch registers belong to crews: an engine context reads a free value there
        let x : DWord := if 0x20 ≤ n then Config.freeDWord s.freeCount else BitVec.ofNat 64 (s.csr n)
        match e.setS d.toNat x with
        | .error st => .error st
        | .ok e => .ok ({ s with freeCount := s.freeCount + 1 }.setEng k e))

/-- A register of the package is written. -/
def State.csrPut (s : State) (n : Nat) (x : DWord) : State :=
  match n with
  | 0x10 => { s with mil := { s.mil with wcbage := max 250 (fieldOf x 0 16) } }
  | 0x11 => { s with mil := { s.mil with millto := fieldOf x 0 32 } }
  | 0x12 => { s with mil := { s.mil with engto := fieldOf x 0 32 } }
  | _ => s

/-- What a watchpoint register keeps: WKIND 3 reads as 2. -/
def watchKeep (x : DWord) : DWord := if fieldOf x 58 2 = 3 then x &&& ~~~((1 : DWord) <<< 58) else x

/-- CSRW (R313). -/
def execCsrw (d : BitVec 5) (c : BitVec 10) (s : State) : Host.Outcome State Fault Refusal :=
  let n := c.toNat
  s.crewWord true (fun s id cr h =>
    let x := h.wrk.rdS d.toNat
    if !csrListed n || csrRO n then .error stopIllegal
    else if 0x20 ≤ n then
      let wrk := { h.wrk with watch := Tab.put h.wrk.watch (n - 0x20) (watchKeep x) }
      .ok (s.setCrew id { cr with heat := some { h with wrk := wrk, en := Tab.put h.en (9016 + (n - 0x20)) (BitVec.allOnes 32) } }, 0)
    else if !s.privileged cr.rk then .error stopAccess
    else .ok ((s.seal id).csrPut n x, 0))

-- TLBI (R315, R377); SHOOT names the same entries.

/-- Page bits of a SIZE field. -/
def tlbBits (size : Nat) : Nat := if size = 0 then 16 else if size = 1 then 21 else 30

/-- The entries that a TLBI or SHOOT names: RANGE, SIZE, address, domain. -/
def tlbNames (range size va fdom : Nat) (x : Xl) : Bool :=
  let lo := va / 2 ^ tlbBits size * 2 ^ tlbBits size
  range == 2 || (x.fdom == fdom && (range == 1
    || (decide (x.va < lo + 2 ^ tlbBits size) && decide (lo < x.va + 2 ^ x.nbits))))

def execTlbi (a b : BitVec 5) (s : State) : Host.Outcome State Fault Refusal :=
  s.crewWord true (fun s id c h =>
    let v := (h.wrk.rdS b.toNat).toNat
    let range := bits v 0 2
    if !s.privileged c.rk || range == 3 || bits v 4 60 != 0 || (range == 0 && bits v 2 2 == 3) then .error stopAccess
    else
      match c.wait with
      | .drain => if s.oldLeft then .error (.wait .drain) else .ok (s, 0)
      | _ =>
        let s := ((s.seal id).performLaters.markOld (some id)).invalTlb
          (tlbNames range (bits v 2 2) (h.wrk.rdS a.toNat).toNat 0)
        if s.oldLeft then .error (.held (s.updCrew id (fun c => { c with wait := .drain }))) else .ok (s, 0))

-- CLASS (R316, R378).

/-- The tier of a frame, by where it lies (Table 23-3). -/
def frameTier (pa : Nat) : Nat := if pa < Config.ddrBase then 1 else if pa < Config.poolBase then 2 else 3

/-- The tier a page is in, or will be in once its moves are over. -/
def State.tierOf (s : State) (e at_ nb : Nat) : Nat :=
  (s.mem.moves.filter (fun kv => kv.2.leafAt == at_)).foldl (fun (a : Nat × Nat) kv =>
    if a.1 ≤ kv.1 % 2 ^ 32 then (kv.1 % 2 ^ 32, kv.2.tier) else a) (0, frameTier (pteFrame e nb)) |>.2

/-- A tier request of a page starts a migration (R219, R316): a free frame of the tier, and a move in the die's queue. -/
def State.askTier (s : State) (die fdom va tier : Nat) : State :=
  match s.walk fdom va with
  | .error _ => s
  | .ok (e, at_, nb) =>
    if tier = 0 || s.tierOf e at_ nb = tier || pteKind e != 0 then s
    else
      match Tab.get s.mem.freeFrames (tier * 64 + nb) [] with
      | [] => { s with pool := { s.pool with migrMiss := s.pool.migrMiss + 1 } }
      | f :: r =>
        let mv : Move := ⟨pteFrame e nb, f, nb, 0, at_, tier⟩
        let m := { s.mem with
          freeFrames := Tab.put s.mem.freeFrames (tier * 64 + nb) r
          moves := Tab.put s.mem.moves (die * 2 ^ 32 + s.uid) mv }
        { s with mem := m, uid := s.uid + 1 }

/-- CLASS. A value with other bits set raises ACCESS (log 84). A full class engine refuses it by R273. -/
def execClassPage (a b : BitVec 5) (s : State) : Host.Outcome State Fault Refusal :=
  s.crewWord true (fun s id c h =>
    let v := (h.wrk.rdS b.toNat).toNat
    let va := (h.wrk.rdS a.toNat).toNat
    let cls := bits v 0 2
    let w := s.whoCrew id c
    if !s.privileged c.rk || cls == 3 || v &&& 0x303 != v then .error stopAccess
    else if 2 ^ 57 ≤ va then .error (.fault ⟨cACCESS, 0, va⟩ none)
    else if !s.admitted (resClass w.die) id then
      let s := (s.seal id).refuseOnce (resClass w.die) id
      .error (.held (s.updCrew id (fun c => { c with wait := s.classWait w.die id })))
    else
      match ((s.seal id).claim (resClass w.die) id).classNow w va cls (s.coreOf c) with
      | (s', some f) => .error (s'.stopIn id (.fault f none))
      | (s, none) => .ok (s.askTier w.die w.fdom va (bits v 8 2), 0))

-- PWRQ and CTXQ (R317, R318, R346).

/-- The issue slice of a core: cluster × 8 + slice. -/
def sliceKey (core : Nat) : Nat := core / 96 * 8 + core % 96 / 16

/-- A slice's ceiling: values below 3 act as 3, values above 8 as 8 (Table 19-7). -/
def State.ceilOf (s : State) (key : Nat) : Nat :=
  let x := Tab.get s.power.pwr (key / 8) 0x88888888
  max 3 (min 8 (fieldOf x (4 * (key % 8)) 4))

def execPwrq (o : Op3) (s : State) : Host.Outcome State Fault Refusal :=
  s.crewWord true (fun s id c h =>
    let op := fieldOf (h.wrk.rdS o.a.toNat) 0 4
    let core := s.coreOf c
    let want := fieldOf (h.wrk.rdS o.b.toNat) 0 4
    match c.check h [] [] [nameS o.d] true true with
    | .error e => .error e
    | .ok () =>
      if 3 < op || (op == 3 && !s.privileged c.rk) then .error stopAccess
      else
        let s := s.seal id
        let ok := decide (3 ≤ want) && decide (want ≤ 8) && decide (want ≤ s.ceilOf (sliceKey core))
        let r := match op with
          | 0 => Tab.get s.power.allow (core / 96) 0
          | 1 => (match s.region c.rk with
            | some r => r.energy / 1000
            | none => 0)
          | 2 => Tab.get s.power.ratio (sliceKey core) 8
          | _ => ok.toNat
        let s := if op = 3 && ok then { s with power := { s.power with req := Tab.put s.power.req (sliceKey core) want } } else s
        match s.emitLoad id [.s o.d.toNat (BitVec.ofNat 64 r)] 0 .clean with
        | .error e => .error e
        | .ok s => .ok (s, 0))

/-- The state of a team as CTXQ tells it. -/
def State.teamWord (s : State) (rk t : Nat) : Nat :=
  match s.team rk t with
  | none => 0
  | some t => match t.st with
    | .placed => 1 + t.core * 2 ^ 16
    | .imaged => 2
    | .held => if t.image.isSome then 2 else 0
    | .retired => 4
    | .pending => 0

def execCtxq (o : Op2) (s : State) : Host.Outcome State Fault Refusal :=
  s.crewWord true (fun s id c h =>
    let t := (h.wrk.rdS o.a.toNat).toNat
    match c.check h [] [] [nameS o.d] true true with
    | .error e => .error e
    | .ok () =>
      match s.region c.rk with
      | none => .error stopAccess
      | some r =>
        if r.grid ≤ t then .error stopAccess
        else match s.emitLoad id [.s o.d.toNat (BitVec.ofNat 64 (s.teamWord c.rk t))] 0 .clean with
          | .error e => .error e
          | .ok s => .ok (s, 0))

end Sys2Proof.Machine
end

