-- ==== Sys2Proof/Machine/Events.lean ====
section
/-! DEFINITION. Events of crews and of the resources they wait for (R59, R129, R217, R219, R235, R266, R271, R273, R275,
R348, R378, R387, R410). An event whose condition does not hold changes nothing. -/

namespace Sys2Proof.Machine

-- Long-latency results (R129, R387).

/-- The oldest named result of a crew arrives; an error makes it zero and is raised at the next heat boundary. -/
def State.arrive (s : State) (id cause : Nat) (bad : Bool) (line : Option Nat) : State :=
  match s.crew id with
  | none => s
  | some c =>
    match c.named with
    | [] => s
    | p :: r =>
      let ws := if bad then p.ws.map RegW.zero else p.ws
      -- the lowest lane whose access read the line; any lane's when no line is told
      let at_ := match line.bind (fun ln => p.got.readOf (fun x => x.2 == ln)) with
        | some r => some r
        | none => p.got.reads.head?
      let fr := { s.crewRec c c.last ⟨cause, 0, at_.elim 0 (fun r => r.va)⟩ (at_.bind (fun r => r.lane)) with wordpc := p.pc }
      let c := { c with
        com := c.com.puts ws, named := r
        heat := c.heat.map (fun h => { h with wrk := h.wrk.puts ws }) }
      s.setCrew id (if bad && c.bad.isNone then { c with bad := some fr } else c)

def execLongLatencyCompletion (crew : Nat) (bad : Bool) (line : Option Nat) (s : State) : Host.Outcome State Fault Refusal :=
  -- a pool line that returned with poison is held so marked (R391)
  let s := match line with
    | some ln =>
      if bad && decide (Config.poolBase ≤ ln * 128) && (s.extentAt false (ln * 128)).isSome then
        { s with mem := { s.mem with poison := (ln :: s.mem.poison).eraseDups } }
      else s
    | none => s
  .next (s.arrive crew cPOISON bad line)

/-- The completions of a KIND 3 atomic's AtomicOps, one for each lane (R259, R387). Where all of them return data, the oldest named
result arrives; lanes that report an error are kept for the crew's next KIND 3 atomic, which then performs nothing there, returns
zero and raises ACCESS as R129 raises POISON (log 88). -/
def execAtomicopCompletion (crew : Nat) (failed : Word) (s : State) : Host.Outcome State Fault Refusal :=
  .next (if failed = 0 then s.arrive crew cACCESS false none else s.updCrew crew (fun c => { c with aopBad := failed }))

-- The Sluice.

def execSluiceSpill (crew : Nat) (s : State) : Host.Outcome State Fault Refusal := .next (s.sluiceSpill crew)
def execSluiceRefill (crew : Nat) (s : State) : Host.Outcome State Fault Refusal := .next (s.sluiceRefill crew)

-- Waits that go on (R266, R271, R275).

/-- The meanings of the words that block on a monitor, a barrier word or a ticket. -/
def waitWordMeaning (i : Instr) (s : State) : Host.Outcome State Fault Refusal :=
  match i with
  | .mwait o w => execMwait o w s
  | .wait o => execWait o s
  | .twait o => execTwait o s
  | .bar a o => execBar a o s
  | _ => .next s

/-- A blocked crew's word is performed again from its wait. -/
def State.again (s : State) (id : Nat) (p : Crew → Bool) : Host.Outcome State Fault Refusal :=
  match s.crew id with
  | some c =>
    match c.heat with
    | some h => if p c then s.run waitWordMeaning (.crew id h.slot) else .next s
    | none => .next s
  | none => .next s

def execMonitorWake (crew : Nat) (s : State) : Host.Outcome State Fault Refusal :=
  s.again crew (fun c => c.wait == .monitor && s.mem.monitors.any (fun m => m.crew == crew && m.fired))

def execGrantRetry (crew : Nat) (s : State) : Host.Outcome State Fault Refusal :=
  s.again crew (fun c => match c.wait with
    | .ticket r _ _ _ => s.granted r crew
    | _ => false)

/-- The limit of the blocked TWAIT, which the word tells, has elapsed or has not: the word's own meaning decides. -/
def execTwaitLimitExpiry (crew : Nat) (s : State) : Host.Outcome State Fault Refusal :=
  s.again crew (fun c => match c.wait with
    | .barrier _ g _ false => g != 2 ^ 32
    | .ticket r _ _ false => s.queued r crew
    | _ => false)

/-- A reserved entry that was not claimed within 256 cc (R273). -/
def execReservationExpiry (res : Nat) (s : State) : Host.Outcome State Fault Refusal :=
  let t := s.ticketOf res
  let gone : Nat × Nat → Bool := fun x => decide (x.2 + 256 ≤ s.clock) && (match s.crew x.1 with
    | some c => (match c.wait with
      | .ticket r _ _ _ => r != res || c.park.isSome
      | _ => true)
    | none => true)
  match t.reserved.find? gone with
  | none => .next s
  | some x => .next ((s.setTicket res { t with reserved := t.reserved.erase x }).grantNext res)

/-- Up to four clusters are admitted in one cluster clock (R348). -/
def execStrikeClusterAdmission (s : State) : Host.Outcome State Fault Refusal :=
  .next s.admitOne.admitOne.admitOne.admitOne

-- Memory (R217, R219, R235).

/-- An entry of a core's write-combining buffer has aged (R235). -/
def execWcbAgeingExpiry (core line : Nat) (s : State) : Host.Outcome State Fault Refusal :=
  let ws := Tab.get s.mem.wcb core []
  match ws.find? (fun w => w.line == line && decide (w.t0 * 5 + w.age * 7 ≤ s.clock * 5)) with
  | none => .next s
  | some w =>
    let m := s.mem.drainOne w
    .next { s with mem := { m with wcb := Tab.put m.wcb core (ws.erase w) } }

/-- A block without a conflict for 2^20 cc (R217). -/
def execSplitLevelDecay (block : Nat) (s : State) : Host.Outcome State Fault Refusal :=
  let l := Tab.get s.mem.split block (0, 0)
  if l.1 = 0 || decide (s.clock < l.2 + 2 ^ 20) then .next s
  else
    let m := s.mem.tearRange (block * 65536) 65536
    .next { s with mem := { m with split := Tab.put m.split block (l.1 - 1, s.clock) } }

/-- The migration in progress on a die: the oldest of its moves, but a page's later move waits for its earlier ones. -/
def State.dieMove (s : State) (die : Nat) : Option (Nat × Move) :=
  s.mem.moves.find? (fun kv => kv.1 / 2 ^ 32 == die
    && !s.mem.moves.any (fun x => x.2.leafAt == kv.2.leafAt && decide (x.1 % 2 ^ 32 < kv.1 % 2 ^ 32)))

/-- One line is torn down and copied; its monitors wake (R219, R271). -/
def MemSys.moveLine (m : MemSys) (t : Nat) (mv : Move) : MemSys :=
  let src := mv.old / 128 + mv.line
  let dst := mv.new / 128 + mv.line
  let m := (m.quiet src).tearRange (m.granBase (src * 128)) (granSize (m.level (src * 128)))
  let m := (m.flushRange t (src * 128) 128).fireAll src
  let m := byteIdx.foldl (fun m j => m.putRaw (dst * 128 + j) (m.rawByte (src * 128 + j))) m
  { m with poison := (m.poison.filter (fun l => l != dst)) ++ (if m.poison.contains src then [dst] else []) }

/-- The translation is switched to the new frame, and the leaf's TIER to the new tier (R219, R390). The free frames are those
that the driver gives. -/
def State.switchPage (s : State) (key : Nat) (mv : Move) : State :=
  let e := s.mem.homeWord mv.leafAt
  let e' := e % 2 ^ 12 + mv.tier * 2 ^ 12 + mv.new + pteOwner e * 2 ^ 52
  let m := s.mem.homeWrite s.clock mv.leafAt (leOf 8 e')
  let m := { m with
    -- a later move of the page starts where this one ended
    moves := (Tab.del m.moves key).map (fun kv => if kv.2.leafAt == mv.leafAt then (kv.1, { kv.2 with old := mv.new }) else kv) }
  { s with mem := m }.invalTlb (fun x => x.at_ == mv.leafAt)

def execMigrationStep (die : Nat) (s : State) : Host.Outcome State Fault Refusal :=
  match s.dieMove die with
  | none => .next s
  | some (key, mv) =>
    let mv' := { mv with line := mv.line + 1 }
    let s := s.performLaters
    let m := s.mem.moveLine s.clock mv
    -- what open heats hold for the line goes to its new home
    let f : Nat → Nat := fun a => if a / 128 = mv.old / 128 + mv.line then a - mv.old + mv.new else a
    let s := { s with
      mem := { m with moves := Tab.put m.moves key mv' }
      crews := s.crews.map (fun (kv : Nat × Crew) => (kv.1, { kv.2 with heat := kv.2.heat.map (Heat.moved .pkg f) })) }
    .next (if 2 ^ mv.nbits ≤ mv'.line * 128 then s.switchPage key mv' else s)

-- The class engine (R378).

/-- The class engine takes the oldest conflict of its die (R378). -/
def execClassConflict (die : Nat) (s : State) : Host.Outcome State Fault Refusal := .next (s.classRun die)

end Sys2Proof.Machine
end

