-- ==== Sys2Proof/Machine/Token.lean ====
section
/-! DEFINITION. GIVE and TAKE, FORK and RDV (R147 to R149, R281 to R284, R411 to R413). -/

namespace Sys2Proof.Machine

-- Tokens.

/-- Two blocks share a register. -/
def tokOverlap (a b : DWord) : Bool :=
  decide (tokBase a < tokBase b + tokCount b) && decide (tokBase b < tokBase a + tokCount a)

/-- The ACCESS cases of R282. -/
def Crew.giveBad (c : Crew) (h : Heat) (w : DWord) : Bool :=
  let held := c.toks.map Token.word ++ h.gives
  fieldOf w 29 35 != 0 || fieldOf w 19 5 != 0 || !accFmt (tokFmt w) || tokCount w == 0 || decide (256 < tokCount w)
    || decide (1023 < tokBase w + tokCount w - 1)
    || (match c.useRange h.slot with
      | some (lo, hi) => !(decide (lo ≤ tokBase w) && decide (tokBase w + tokCount w - 1 ≤ hi))
      | none => true)
    || held.any (tokOverlap w) || decide (4 ≤ held.length) || !(List.range 32).all c.alloc

def execGive (a : BitVec 5) (s : State) : Host.Outcome State Fault Refusal :=
  s.crewWord true (fun s id c h =>
    let w := h.wrk.rdS a.toNat
    if c.giveBad h w then .error stopAccess
    else
      let s := (s.seal id).releaseCrew id 2 3
      .ok (s.updCrew id (fun c => { c with heat := c.heat.map (fun h => { h with gives := h.gives ++ [w] }) }), 0))

def execTake (a : BitVec 5) (s : State) : Host.Outcome State Fault Refusal :=
  s.crewWord true (fun s id c h =>
    let b := tokBase (h.wrk.rdS a.toNat)
    match c.toks.find? (fun t => tokBase t.word == b) with
    | none => .error stopAccess
    | some t =>
      let s := s.seal id
      if t.returned then
        let s := s.updCrew id (fun c => { c with toks := c.toks.filter (fun t => tokBase t.word != b) })
        .ok (s.acquireCrew id 2 3, 0)
      else .error (.held (s.updCrew id (fun c => { c with wait := .take b }))))

-- Programs of engine contexts.

/-- KIND and INDEX of a target word or handle lie in the ranges of Table 9-3. -/
def targetOk (w : DWord) : Bool :=
  let kind := fieldOf w 16 4
  let idx := fieldOf w 0 8
  fieldOf w 48 15 == 0 && fieldOf w 20 4 == 0 && fieldOf w 8 8 == 0
    && ((kind == 0 && decide (idx ≤ 11)) || ((kind == 1 || kind == 2) && decide (idx ≤ 31)))

/-- The context that a target word names from a cluster. -/
def targetKey (cluster : Nat) (w : DWord) : Nat :=
  let idx := fieldOf w 0 8
  if fieldOf w 16 4 = 2 then engKey 2 (idx / 16) (idx % 16) else engKey (fieldOf w 16 4) cluster idx

/-- The scope of R148. -/
def forkScope (w : DWord) : Nat := if fieldOf w 16 4 = 2 then 4 else 2

/-- A program runs in the context, or its stopped program still has work running. -/
def Eng.busy (e : Eng) : Bool := e.running && (e.park.isNone || e.xops.any (fun x => x.started))

/-- The crew that starts a program, and its team, region and core. -/
structure Starter where
  rk : Nat
  team : Nat
  crew : Nat
  core : Nat
  deriving DecidableEq, Repr

def Eng.forked (gen home : Nat) (x : Starter) (pc : DWord) (regs : Tab DWord) : Eng :=
  { Eng.start with gen := gen, home := home, running := true, rk := x.rk, team := x.team, crew := x.crew, core := x.core, pc := pc, s := regs }

/-- The start of a program (R148, R411, R412): the state, and what sD receives. -/
def State.startProgram (s : State) (x : Starter) (k : Nat) (w arg pc : DWord) : State × DWord :=
  let old := (s.eng k).getD Eng.start
  if old.busy then (s, 0)
  else
    let gen := ((Tab.get s.forks k (0, 0)).1 + 1) % 2 ^ 24
    let e := Eng.forked gen k x pc (Tab.put old.s 0 arg)
    let s := { s with forks := Tab.put s.forks k (gen, 0) }.setEng k e
    let s := match s.team x.rk x.team with
      | some t => { s with teams := Tab.put s.teams (teamKey x.rk x.team) { t with engs := (k * 2 ^ 24 + gen) :: t.engs } }
      | none => s
    (s.engAcquire (s.whoEng k e) (forkScope w), BitVec.ofNat 64 (2 ^ 63 + gen * 2 ^ 24 + fieldOf w 16 4 * 2 ^ 16 + fieldOf w 0 8))

/-- FORK's checks (R148). -/
def forkStop (w pc : DWord) : Option Stop :=
  if w.getLsbD 63 || fieldOf w 24 24 != 0 || !targetOk w then some stopAccess
  else if fieldOf pc 0 2 != 0 then some (.fault ⟨cALIGN, 0, pc.toNat⟩ none)
  else none

def execFork (o : Op3) (s : State) : Host.Outcome State Fault Refusal :=
  s.sharedWord true
    (fun s id c h =>
      let w := h.wrk.rdS o.a.toNat
      let pc := h.wrk.rdS o.b.toNat
      match c.check h [] [] [nameS o.d] true true with
      | .error e => .error e
      | .ok () =>
        match forkStop w pc with
        | some st => .error st
        | none =>
          let core := s.coreOf c
          let s := (s.seal id).releaseCrew id (forkScope w) 3
          let (s, r) := s.startProgram ⟨c.rk, c.team, c.no, core⟩ (targetKey (core / 96) w) w (h.wrk.rdS o.d.toNat) pc
          match s.emitLoad id [.s o.d.toNat r] 0 .clean with
          | .error e => .error e
          | .ok s => .ok (s, 0))
    kindM true
    (fun s k e =>
      let w := e.rdS o.a.toNat
      let pc := e.rdS o.b.toNat
      match forkStop w pc, e.setS o.d.toNat 0 with
      | some st, _ => .error st
      | none, .error st => .error st
      | none, .ok _ =>
        let s := s.engRelease (s.whoEng k e) (forkScope w)
        let (s, r) := s.startProgram ⟨e.rk, e.team, e.crew, e.core⟩ (targetKey (engUnit k) w) w (e.rdS o.d.toNat) pc
        match s.eng k with
        | some e => .ok (s.setEng k (e.putS o.d.toNat r))
        | none => .ok s)

/-- A program that a team of the region started, as a handle names it. -/
def Team.forkOf (t : Team) (w : DWord) : Option Nat :=
  (t.engs.find? (fun x => decide (x % 2 ^ 24 = fieldOf w 24 24)
    && decide (targetKey (engUnit (x / 2 ^ 24)) w = x / 2 ^ 24))).map (· / 2 ^ 24)

/-- The context of the FORK that returned a handle (R413): one that the team started, else one of the cluster that another
team started, else one that another team started anywhere (log 27). -/
def State.handleHome (s : State) (rk team cluster : Nat) (w : DWord) : Nat :=
  let others := (s.teams.filter (fun kv => kv.1 / 2 ^ 48 == rk)).filterMap (fun kv => kv.2.forkOf w)
  match (s.team rk team).bind (fun t => t.forkOf w) with
  | some k => k
  | none => if others.contains (targetKey cluster w) then targetKey cluster w else others.headD (targetKey cluster w)

def execRdv (o : Op2) (s : State) : Host.Outcome State Fault Refusal :=
  s.sharedWord true
    (fun s id c h =>
      let w := h.wrk.rdS o.a.toNat
      match c.check h [] [] [nameS o.d] true true with
      | .error e => .error e
      | .ok () =>
        if !w.getLsbD 63 || !targetOk w then .error stopAccess
        else
          let s := s.seal id
          let home := s.handleHome c.rk c.team (s.coreOf c / 96) w
          match s.joined home (fieldOf w 24 24) with
          | none => .error (.held (s.updCrew id (fun c => { c with wait := .rdv home (fieldOf w 24 24) })))
          | some r =>
            match (s.acquireCrew id (forkScope w) 3).emitLoad id [.s o.d.toNat (BitVec.ofNat 64 r)] 0 .clean with
            | .error e => .error e
            | .ok s => .ok (s, 0))
    kindM true
    (fun s k e =>
      let w := e.rdS o.a.toNat
      if !w.getLsbD 63 || !targetOk w then .error stopAccess
      else
        let home := s.handleHome e.rk e.team (engUnit k) w
        match s.joined home (fieldOf w 24 24), e.setS o.d.toNat 0 with
        | none, _ => .error (.wait (.rdv home (fieldOf w 24 24)))
        | _, .error st => .error st
        | some r, .ok _ =>
          let s := s.engAcquire (s.whoEng k e) (forkScope w)
          .ok (s.setEng k (e.putS o.d.toNat (BitVec.ofNat 64 r))))

end Sys2Proof.Machine
end

