-- ==== Sys2Proof/Machine/Headrace.lean ====
section
/-! DEFINITION. The Headrace: its accesses, the launch port (R146, R322 to R324), admission (R31 to R33, R325, R326), maps and
tile operands (R333, R337), completion and its records (R61, R62, R339). -/

namespace Sys2Proof.Machine

-- Accesses of the control plane (R24): an agent at DEVICE scope, with no cache.

def headWho (fdom : Nat) : Who := ⟨fdom, 0, none, 0, ⟨none, none, 0⟩, none⟩

/-- A translation whose class conflict the class engine resolves at once (R218, R378). -/
def State.fixedPlace (s : State) (w : Who) (va k : Nat) : State × Except Fail Hit :=
  match s.translateNow w va k with
  | (s, .ok h) => (s, .ok h)
  | (s, .fail f) => (s, .error f)
  | (s, .conflict _) => (s, .error ⟨cACCESS, k, va⟩)

def State.headPlaces (s : State) (fdom va n k : Nat) : State × Except Fail (List Hit) :=
  (pieces va n).foldl (fun (a : State × Except Fail (List Hit)) p =>
    match a with
    | (s, .error f) => (s, .error f)
    | (s, .ok hs) =>
      match s.fixedPlace (headWho fdom) p.1 k with
      | (s, .error f) => (s, .error f)
      | (s, .ok h) => (s, .ok (hs ++ (List.range p.2).map (fun j => { h with pa := h.pa + j })))) (s, .ok [])

/-- Bytes read; data with an error gives POISON. -/
def State.headRead (s : State) (fdom va n : Nat) : State × Except Fail (List Byte) :=
  match s.headPlaces fdom va n aRead with
  | (s, .error f) => (s, .error f)
  | (s, .ok hs) =>
    if s.poisoned (headWho fdom) hs then (s, .error ⟨cPOISON, 0, va⟩) else (s, .ok (hs.map (s.seeHit (headWho fdom))))

/-- Bytes at their places. -/
def State.headPut (s : State) (hs : List Hit) (bs : List Byte) : State :=
  s.engStore (headWho 0) 4 0 (cellsOf hs bs)

def State.headWrite (s : State) (fdom va : Nat) (bs : List Byte) : State × Option Fail :=
  match s.headPlaces fdom va bs.length aWrite with
  | (s, .error f) => (s, some f)
  | (s, .ok hs) => (s.headPut hs bs, none)

/-- The write of a record: it is skipped where it meets an uncorrectable error (R339). -/
def State.headRecord (s : State) (fdom va : Nat) (bs : List Byte) : State × Option Fail :=
  match s.headPlaces fdom va bs.length aWrite with
  | (s, .error f) => (s, some f)
  | (s, .ok hs) => if s.poisoned (headWho fdom) hs then (s, some ⟨cPOISON, 0, va⟩) else (s.headPut hs bs, none)

/-- A place that Table 15-6 closes to AOR: a page under the non-coherent mapping. -/
def Hit.noOr (h : Hit) : Bool :=
  match h.sp with
  | .ext k3 _ => k3
  | _ => false

/-- An AOR of a 64-bit word. -/
def State.headOr (s : State) (fdom va mask : Nat) : State × Option Fail :=
  match s.headPlaces fdom va 8 aAtomic with
  | (s, .error f) => (s, some f)
  | (s, .ok hs) =>
    if hs.any Hit.noOr then (s, some ⟨cACCESS, aAtomic, va⟩)
    else if s.poisoned (headWho fdom) hs then (s, some ⟨cPOISON, 0, va⟩)
    else (s.headPut hs (leOf 8 (leNat (hs.map (s.seeHit (headWho fdom))) ||| mask)), none)

/-- 64-bit words of bytes. -/
def wordsOf (n : Nat) (bs : List Byte) : List DWord :=
  (List.range n).map (fun i => BitVec.ofNat 64 (leNat ((bs.drop (8 * i)).take 8)))

/-- A fault record of KIND 4 (R339); INFO bit 23 of a failed extent stays (R391). -/
def State.headFault (s : State) (fdom rcb : Nat) (f : Fail) : State :=
  (s.post fdom 0 true
    { kind := 4, sealed := false, nested := false, image := false, cause := f.cause, flane := none, lanes := 0, rcb := rcb,
      teamn := 0, core := 0, crew := 0, slot := 0, eidx := 0, off := 0, heatpc := 0, wordpc := 0,
      addr := BitVec.ofNat 64 f.addr, info := aWrite + (if f.info.testBit 23 then 2 ^ 23 else 0) }).1

/-- STATUS of an RCB (Table 3-1); RCBs lie in the driver's address space. -/
def State.status (s : State) (rcb st err : Nat) : State := (s.headWrite 0 (rcb + 120) (leOf 8 (err * 256 + st))).1

-- Completion (R62, R339).

/-- The fields of a launch message (Table 19-1) that matter when its tree ends. -/
structure EndNote where
  tag : Word
  note : Bool
  vec : Nat
  cbit : Nat
  caddr : Nat
  deriving DecidableEq, Repr

def EndNote.none : EndNote := ⟨0, false, 0, 0, 0⟩

/-- The record, the completion bit, the notice, in that order. -/
def State.signalEnd (s : State) (fdom rcb done : Nat) (words : List Nat) (n : EndNote) : State :=
  let s := if done = 0 then s else match s.headRecord fdom done (words.flatMap (leOf 8)) with
    | (s, some f) => s.headFault fdom rcb { f with addr := done }
    | (s, none) => s
  let s := if n.caddr = 0 then s else match s.headOr fdom n.caddr (2 ^ n.cbit) with
    | (s, some f) => s.headFault fdom rcb { f with addr := n.caddr }
    | (s, none) => s
  if n.note then s.notice n.vec else s

def Region.done (r : Region) : Nat := fieldOf (r.w.getD 14 0) 0 57

/-- The record of Table 19-6. -/
def Region.record (r : Region) (st err tend : Nat) : List Nat :=
  [err * 256 + st, r.tag.toNat, r.tadm, tend, r.energy, r.heats, r.discards, r.faults % 2 ^ 32 * 2 ^ 32 + r.preempts % 2 ^ 32]

/-- A context without a program. -/
def Eng.cleared (e : Eng) : Eng :=
  { e with saved := [], running := false, entry := none, off := 0, deps := [], xops := [], ents := [], wait := .none, park := none, pend := [] }

/-- A region ends: STATE, its counts into its parent's, the record, and for a root the completion signals. -/
def State.endRegion (s : State) (rk st err : Nat) : State :=
  match s.region rk with
  | none => s
  | some r =>
    let s := s.updRegion rk (fun r => { r with state := st, err := err, tend := s.clock })
    let s := match r.parent with
      | some p => s.updRegion p (fun g => { g with
          energy := g.energy + r.energy, heats := g.heats + r.heats, discards := g.discards + r.discards
          faults := g.faults + r.faults, preempts := g.preempts + r.preempts })
      | none => s
    let s := { s with engs := s.engs.map (fun (kv : Nat × Eng) => if kv.2.rk = rk && kv.2.running then (kv.1, kv.2.cleared) else kv) }
    -- a group whose COLLs have gone with the region lasts no longer than any other (R349)
    let s := ((s.power.groups.filter (fun kv => kv.2.rk == rk && kv.2.ends.isNone)).map Prod.fst).foldl State.groupLeft s
    let s := s.status r.rcb st err
    let n : EndNote := if r.parent.isNone then ⟨r.tag, r.note, r.vec, r.cbit, r.caddr⟩ else EndNote.none
    s.signalEnd r.fdom r.rcb r.done (r.record st err s.clock) n

/-- Deferred atomics are performed, every L byte of a core's L1 and of its cluster L1 is published at DEVICE scope, and the
core's write-combining buffer drains (R61, R335, R368). -/
def State.publishCore (s : State) (core : Nat) (wcb : Bool) : State :=
  let s := s.performLaters
  { s with mem := s.mem.release s.clock (s.port1 core) (some core) (if wcb then 5 else 4) }

/-- A program that a team's crews started has not ended (R61). -/
def State.engOpen (s : State) (x : Nat) : Bool :=
  match Tab.find s.forks (x / 2 ^ 24) with
  | some (g, st) => g == x % 2 ^ 24 && st == 0
  | none => false

/-- A region by the address of its RCB. -/
def State.byRcb (s : State) (rcb : Nat) : Option (Nat × Region) :=
  (s.regions.filter (fun kv => kv.2.rcb == rcb)).getLast?

def State.children (s : State) (rk : Nat) : List (Nat × Region) := s.regions.filter (fun kv => kv.2.parent == some rk)

/-- Whether a region may complete (R61). -/
def State.regionDone (s : State) (rk : Nat) (r : Region) : Bool :=
  if r.kind = 1 || r.kind = 3 then
    r.retired == r.grid && !s.engs.any (fun kv => kv.2.rk == rk && kv.2.running
      && (kv.2.park.isNone || kv.2.xops.any (fun x => x.started)))
  else (s.children rk).all (fun c => decide (2 ≤ c.2.state))

/-- The cores of a region's teams, and the clusters in which its programs run or ran, each by its first core. -/
def State.regionCores (s : State) (rk : Nat) : List Nat :=
  let ran : Nat → List Nat := fun k => if engKind k = 2 then [] else [engUnit k * 96]
  ((s.teams.filter (fun kv => kv.1 / 2 ^ 48 == rk)).flatMap
      (fun kv => kv.2.core :: kv.2.engs.flatMap (fun x => ran (x / 2 ^ 24)))
    ++ (s.engs.filter (fun kv => kv.2.rk == rk && kv.2.running)).flatMap (fun kv => ran kv.1)).eraseDups

/-- Every byte that a region or its programs wrote at a scope narrower than DEVICE is published (R61). -/
def State.publishRegion (s : State) (rk : Nat) : State := (s.regionCores rk).foldl (fun s c => s.publishCore c false) s

def execRegionCompletion (rcb : Nat) (s : State) : Host.Outcome State Fault Refusal :=
  match s.byRcb rcb with
  | none => .next s
  | some (rk, r) =>
    if 2 ≤ r.state || !s.regionDone rk r then .next s
    else .next ((s.publishRegion rk).endRegion rk 2 0)

-- Launch messages (R322 to R324, R146).

/-- A malformed message (R323). -/
def msgBad (w : List DWord) : Bool :=
  let f : Nat → Nat → Nat → Nat := fun n lo len => fieldOf (w.getD n 0) lo len
  f 1 56 8 != 1 || f 0 57 7 != 0 || f 1 38 6 != 0 || f 2 57 7 != 0 || (w.drop 3).any (· != 0)
    || f 0 0 57 == 0 || f 0 0 7 != 0 || f 2 0 3 != 0

def State.ldropped (s : State) : State := { s with port := { s.port with ldrop := s.port.ldrop + 1 } }
def State.enqueue (s : State) (w : List DWord) : State := { s with port := { s.port with queue := s.port.queue ++ [w] } }

/-- A host write to the launch window: `off` its offset in BAR0, `msg` its words. -/
def execLaunchMessage (off : Nat) (msg : List DWord) (s : State) : Host.Outcome State Fault Refusal :=
  if !s.port.up then .next s
  else if !s.port.ready || off != 0 || msg.length != 8 || decide (256 ≤ s.port.queue.length) then .next s.ldropped
  else .next (s.enqueue msg)

/-- LAUNCH. -/
def execLaunch (o : Op2) (s : State) : Host.Outcome State Fault Refusal :=
  s.crewWord true (fun s id c h =>
    let va := (h.wrk.rdS o.a.toNat).toNat
    let a : Acc := ⟨va, 64, aRead, 3, 4, 64, false, false, 0⟩
    match c.check h [] [] [nameS o.d] true true with
    | .error e => .error e
    | .ok () =>
      let w := s.whoCrew id c
      match s.checkLanes w (s.siteCrew id c) c.com.watchFail false [(0, a)] with
      | (_, .error st) => .error st
      | (s, .ok ls) =>
        let s := (s.seal id).releaseCrew id 4 3
        let (s, vs) := s.readLanes w 0 (s.heatOf id) ls
        match (s.got w false [(0, a)] ls).bad with
        | some m => .error (s.metNow id m)
        | none =>
          let full := decide (256 ≤ s.port.queue.length)
          let s := if full then s else s.enqueue (wordsOf 8 (vs.flatMap Prod.snd))
          s.emitS id o.d full.toNat 0)

-- Checks of an RCB (R31 to R33, Table 19-3).

def rw (w : List DWord) (n lo len : Nat) : Nat := fieldOf (w.getD n 0) lo len

/-- Code 0x01. -/
def rcbReserved (w : List DWord) : Bool :=
  let kind := rw w 0 44 4
  rw w 0 56 8 != 0 || rw w 0 48 8 != 1 || decide (3 < kind) || rw w 0 12 26 != 0 || rw w 4 12 52 != 0
    || rw w 5 58 6 != 0 || rw w 6 56 8 != 0 || rw w 6 41 3 != 0 || rw w 6 25 7 != 0 || rw w 6 22 2 != 0 || rw w 6 14 2 != 0
    || rw w 6 6 2 != 0 || rw w 10 48 16 != 0
    || ((kind == 0 || kind == 2) && ((w.drop 5).take 9).any (· != 0)) || (kind == 1 && w.getD 13 0 != 0)

/-- A misaligned address field, or one above the virtual address space. -/
def badAddr (w : List DWord) (n al : Nat) : Bool := rw w n 57 7 != 0 || rw w n 0 57 % al != 0

/-- Code 0x02. -/
def rcbRange (w : List DWord) : Bool :=
  let leaf := rw w 0 44 4 % 2 == 1
  badAddr w 1 128 || badAddr w 2 128 || badAddr w 3 128 || badAddr w 14 64 || rw w 4 0 12 == 0 || decide (3072 < rw w 4 0 12)
    || (leaf && (rw w 5 52 6 == 0 || decide (32 < rw w 5 52 6) || rw w 5 0 16 == 0 || rw w 5 16 16 == 0 || rw w 5 32 16 == 0
      || decide (rw w 6 32 9 < 24) || decide (256 < rw w 6 32 9) || badAddr w 7 4 || badAddr w 8 4 || badAddr w 9 65536
      || rw w 10 0 32 % 1024 != 0 || badAddr w 11 1 || badAddr w 12 64 || badAddr w 13 1))

/-- Codes 0x03 to 0x05 of a leaf or node (Table 1-3, R33, R37). -/
def rcbShares (w : List DWord) : Nat :=
  let regu := rw w 6 0 6
  let l1u := rw w 6 8 6
  let scru := rw w 6 16 6
  let tscr := rw w 10 32 16
  if regu == 0 || decide (32 < regu) || decide (l1u < 2) || decide (47 < l1u) || decide (45 < scru) || regu + l1u + scru != 48 then 3
  else if scru * 8192 < tscr * 1024 || tscr * 1024 < rw w 6 48 8 * 64 then 4
  else if regu * 8192 < (rw w 5 48 4 + 1) * ((rw w 6 32 9 + rw w 6 44 4) * 128 + 1024) then 5
  else 0

/-- One map's fields (Table 19-4). -/
def mapBad (w : List DWord) : Bool :=
  badAddr w 0 128 || badAddr w 1 8 || badAddr w 5 64 || rw w 6 0 64 != 0 || rw w 7 0 64 != 0
    || ([2, 3, 4] : List Nat).any (fun n => rw w n 48 16 != 0 || rw w n 32 16 == 0)

/-- The chain of dependency maps from an address, at most `n` maps: the maps, or an ERR code. -/
def State.readMaps (fdom : Nat) : Nat → Nat → State → List (List DWord) → State × Except Nat (List (List DWord))
  | 0, va, s, ms => (s, if va = 0 then .ok ms else .error 8)
  | n + 1, va, s, ms =>
    if va = 0 then (s, .ok ms)
    else
      match s.headRead fdom va 64 with
      | (s, .error _) => (s, .error 0x0A)
      | (s, .ok bs) =>
        let w := wordsOf 8 bs
        if mapBad w then (s, .error 8) else State.readMaps fdom n (rw w 5 0 57) s (ms ++ [w])

/-- Bytes of a row of `cols` elements of a format. -/
def tileRowBytes (f cols : Nat) : Nat :=
  if fmtIsGrist f then ceilDiv cols 16 * gristBytes f else ceilDiv (cols * elemBits f) 8

/-- A tile operand that breaks Table 19-5. -/
def operBad (w : List DWord) : Bool :=
  let f := rw w 2 0 5
  rw w 0 57 7 != 0 || rw w 1 16 16 == 0 || rw w 2 9 55 != 0 || rw w 2 5 3 != 0 || rw w 3 0 64 != 0 || fmtReserved f
    || decide (rw w 1 32 32 < tileRowBytes f (rw w 1 16 16))

/-- A tile operand's direction and footprint (R337). -/
def operOf (w : List DWord) : Bool × Nat × Nat :=
  let a := rw w 0 0 57
  ((w.getD 2 0).getLsbD 8, a, a + (rw w 1 0 16 - 1) * rw w 1 32 32 + tileRowBytes (rw w 2 0 5) (rw w 1 16 16) - 1)

/-- The tile-operand table: at most `n` entries more. -/
def State.readOpers (fdom : Nat) : Nat → Nat → State → List (Bool × Nat × Nat) → State × Except Nat (List (Bool × Nat × Nat))
  | 0, _, s, os => (s, .ok os)
  | n + 1, va, s, os =>
    match s.headRead fdom va 32 with
    | (s, .error _) => (s, .error 0x0A)
    | (s, .ok bs) =>
      let w := wordsOf 4 bs
      if rw w 1 0 16 = 0 then (s, .ok os)
      else if operBad w then (s, .error 9) else State.readOpers fdom n (va + 32) s (os ++ [operOf w])

/-- An RCB of a tree under admission: its parent's place in the list and its effective values (R32). -/
structure RcbNode where
  rcb : Nat
  w : List DWord
  par : Option Nat
  maxc : Nat
  pri : Nat
  fdom : Nat
  maps : List (List DWord)
  ops : List (Bool × Nat × Nat)
  deriving DecidableEq, Repr

/-- Effective budget, priority and fault domain (R32). -/
def rcbNode (rcb : Nat) (w : List DWord) (par : Option Nat) (up : Option RcbNode) : RcbNode :=
  let ovr : Nat → Bool := fun b => (w.getD 0 0).getLsbD b
  let own := rw w 4 0 12
  match up with
  | none => ⟨rcb, w, par, own, rw w 0 38 3, rw w 0 0 12, [], []⟩
  | some p =>
    ⟨rcb, w, par, if ovr 43 then min own p.maxc else p.maxc, if ovr 42 then min (rw w 0 38 3) p.pri else p.pri,
      if ovr 41 then rw w 0 0 12 else p.fdom, [], []⟩

/-- The lowest code that applies to an RCB, or the node with its maps and operands. -/
def State.rcbCheck (s : State) (n : RcbNode) : State × Except Nat RcbNode :=
  let w := n.w
  let kind := rw w 0 44 4
  let leaf := kind % 2 == 1
  if rcbReserved w then (s, .error 1)
  else if rcbRange w then (s, .error 2)
  else if leaf && rcbShares w != 0 then (s, .error (rcbShares w))
  else if leaf && (w.getD 6 0).getLsbD 24 && decide (n.maxc < 96) then (s, .error 6)
  else if n.par.isNone && rw w 0 41 3 != 7 then (s, .error 7)
  else
    match (if leaf then State.readMaps n.fdom 8 (rw w 12 0 57) s [] else (s, .ok [])) with
    | (s, .error e) =>
      -- a broken operand table has the lower code than an unreadable map
      if e = 0x0A && kind == 3 then match State.readOpers n.fdom 8 (rw w 13 0 57) s [] with
        | (s, .error 9) => (s, .error 9)
        | (s, _) => (s, .error e)
      else (s, .error e)
    | (s, .ok ms) =>
      match (if kind = 3 then State.readOpers n.fdom 8 (rw w 13 0 57) s [] else (s, .ok [])) with
      | (s, .error e) => (s, .error e)
      | (s, .ok os) =>
        -- the address in PARENT is read as well (R326)
        match (if rw w 1 0 57 = 0 then (s, .ok []) else s.headRead 0 (rw w 1 0 57) 128) with
        | (s, .error _) => (s, .error 0x0A)
        | (s, .ok _) => (s, .ok { n with maps := ms, ops := os })

/-- An RCB still to visit: address, parent's place, the RCB that named it. -/
abbrev Visit := Nat × Option Nat × Nat

/-- The depth-first visit of R33: the nodes in order, or the code and the offending RCB, which is 0 when the root itself cannot
be read. -/
def State.visitTree (root : Nat) : Nat → List Visit → State → List RcbNode → State × Except (Nat × Nat) (List RcbNode)
  | 0, _, s, _ => (s, .error (0x0B, root))
  | fuel + 1, todo, s, ns =>
    match todo with
    | [] => (s, .ok ns)
    | (va, par, namer) :: rest =>
      if 256 ≤ ns.length then (s, .error (0x0B, root))
      else
        match s.headRead 0 va 128 with
        | (s, .error _) => (s, .error (0x0A, namer))
        | (s, .ok bs) =>
          let w := wordsOf 16 bs
          match s.rcbCheck (rcbNode va w par (par.bind (fun i => ns[i]?))) with
          | (s, .error e) => (s, .error (e, va))
          | (s, .ok n) =>
            let kids : List Visit := if rw w 0 44 4 % 2 = 0 && rw w 2 0 57 != 0 then [(rw w 2 0 57, some ns.length, va)] else []
            let sibs : List Visit := if par.isSome && rw w 3 0 57 != 0 then [(rw w 3 0 57, par, va)] else []
            State.visitTree root fuel (kids ++ sibs ++ rest) s (ns ++ [n])

-- Admission (R325, R326).

def EndNote.ofMsg (w : List DWord) : EndNote :=
  ⟨BitVec.ofNat 32 (rw w 1 0 32), (w.getD 1 0).getLsbD 55, rw w 1 44 11, rw w 1 32 6, rw w 2 0 57⟩

/-- A refused tree. -/
def State.refuseTree (s : State) (msg : List DWord) (err off : Nat) : State :=
  let root := rw msg 0 0 57
  let n := EndNote.ofMsg msg
  if off = 0 then
    let s := s.ldropped
    if n.note then s.notice n.vec else s
  else
    let (s, w) := match s.headRead 0 root 128 with
      | (s, .ok bs) => (s, wordsOf 16 bs)
      | (s, .error _) => (s, [])
    let s := s.status off 3 err
    let s := if off = root then s else s.status root 3 0
    s.signalEnd (rw w 0 0 12) root (rw w 14 0 57) [err * 256 + 3, n.tag.toNat, s.clock, s.clock, 0, 0, 0, 0] n

/-- The region of a node. -/
def RcbNode.region (n : RcbNode) (rk0 clock seq : Nat) (e : EndNote) : Region :=
  { rcb := n.rcb, w := n.w, kind := rw n.w 0 44 4, parent := n.par.map (· + rk0), root := rk0, maxc := n.maxc, pri := n.pri,
    fdom := n.fdom, state := 0, err := 0, ready := rw n.w 0 44 4 == 1, readySeq := seq, evicted := false, tag := e.tag,
    note := e.note, vec := e.vec, cbit := e.cbit, caddr := e.caddr, tadm := clock, tend := 0, energy := 0, heats := 0,
    discards := 0, faults := 0, preempts := 0, retired := 0, maps := n.maps, ops := n.ops, strikeScope := none, strikes := [] }

/-- Entries of regions that have ended and whose RCBs are admitted again leave the table. -/
def State.forget (s : State) (rcbs : List Nat) : State :=
  let old := (s.regions.filter (fun kv => decide (2 ≤ kv.2.state) && rcbs.contains kv.2.rcb)).map Prod.fst
  { s with
    regions := s.regions.filter (fun kv => !old.contains kv.1)
    teams := s.teams.filter (fun kv => !old.contains (kv.1 / 2 ^ 48)) }

def State.admitTree (s : State) (msg : List DWord) (ns : List RcbNode) : State :=
  let s := s.forget (ns.map (fun n => n.rcb))
  let rk0 := s.port.nextRk
  let s := (List.range ns.length).foldl (fun s i =>
    match ns[i]? with
    | some n =>
      let e := if i = 0 then EndNote.ofMsg msg else EndNote.none
      let r := n.region rk0 s.clock (s.port.readyCtr + i) e
      { s with regions := Tab.put s.regions (rk0 + i) r }.status n.rcb 0 0
    | none => s) s
  { s with port := { s.port with nextRk := rk0 + ns.length, readyCtr := s.port.readyCtr + ns.length } }

-- Dependency bits (R334 to R336).

/-- The span of one dimension that a consumer coordinate needs. -/
def mapSpan (x : DWord) (u g : Nat) : Nat × Nat :=
  let lo := signed 16 (fieldOf x 0 16) * (u : Int) + signed 16 (fieldOf x 16 16)
  let hi := lo + (fieldOf x 32 16 : Int) - 1
  ((max lo 0).toNat, (min hi ((g : Int) - 1) + 1).toNat)

/-- The bits of a map that team `t` of a consumer needs; the second of a span is the first coordinate beyond it. -/
def mapNeeds (w : List DWord) (c p : Region) (t : Nat) : List Nat :=
  let sx := mapSpan (w.getD 2 0) (t % c.gx) p.gx
  let sy := mapSpan (w.getD 3 0) (t / c.gx % c.gy) p.gy
  let sz := mapSpan (w.getD 4 0) (t / c.gx / c.gy) p.gz
  let ran : Nat × Nat → List Nat := fun x => (List.range (x.2 - x.1)).map (fun i => x.1 + i)
  (ran sz).flatMap (fun z => (ran sy).flatMap (fun y => (ran sx).map (fun x => x + p.gx * (y + p.gy * z))))

/-- A bit of a map's bitmap; none when it cannot be read. -/
def State.mapBit (s : State) (fdom : Nat) (w : List DWord) (b : Nat) : State × Option Bool :=
  match s.headRead fdom (rw w 1 0 57 + 8 * (b / 64)) 8 with
  | (s, .ok bs) => (s, some ((leNat bs).testBit (b % 64)))
  | (s, .error _) => (s, none)

/-- Every bit that a team needs is set; a producer that was never admitted is waited for. -/
def State.depsMet (s : State) (c : Region) (t : Nat) : Bool :=
  c.maps.all (fun w =>
    match s.byRcb (rw w 0 0 57) with
    | none => false
    | some (_, p) => (mapNeeds w c p t).all (fun b => (s.mapBit c.fdom w b).2 == some true))

/-- A producer's bit is set in the bitmaps of the maps that name it. -/
def State.setBit (s : State) (rcb t : Nat) (only : Option Nat) : State :=
  s.regions.foldl (fun s kv =>
    if 2 ≤ kv.2.state || (match only with
      | some k => kv.1 != k
      | none => false) then s
    else (kv.2.maps.filter (fun w => rw w 0 0 57 == rcb)).foldl (fun s w =>
      (s.headOr kv.2.fdom (rw w 1 0 57 + 8 * (t / 64)) (2 ^ (t % 64))).1) s) s

/-- A consumer admitted later finds the bits of the producer's teams that have already retired. -/
def State.lateBits (s : State) (rk : Nat) : State :=
  match s.region rk with
  | none => s
  | some c => c.maps.foldl (fun s w =>
      match s.byRcb (rw w 0 0 57) with
      | none => s
      | some (p, _) => (s.teams.filter (fun kv => kv.1 / 2 ^ 48 == p && kv.2.st == .retired)).foldl (fun s kv =>
          s.setBit (rw w 0 0 57) (kv.1 % 2 ^ 48) (some rk)) s) s

-- ABORT (R365, R336).

/-- A crew is dropped with everything it holds. -/
def State.dropCrew (s : State) (id : Nat) : State :=
  let s := (s.performLater id).unwait id
  { s with
    crews := Tab.del s.crews id
    cores := s.cores.map (fun kv => (kv.1, { kv.2 with order := kv.2.order.filter (fun x => x / 2 != id) })) }

/-- A region and its subtree, children before parents. -/
def State.subtree (s : State) (rk : Nat) : List Nat :=
  (s.regions.foldl (fun (l : List Nat) kv =>
    if kv.1 = rk || (match kv.2.parent with
      | some p => l.contains p
      | none => false) then kv.1 :: l else l) [])

/-- The work of a leaf or node stops. -/
def State.stopRegion (s : State) (rk : Nat) : State :=
  let mine := (s.engs.filter (fun kv => kv.2.rk == rk && kv.2.running)).map Prod.fst
  -- started operations complete, the others are dropped
  let s := mine.foldl (fun s k => match s.eng k with
    | some e => ((e.xops.filter (fun x => x.started)).map (fun x => x.id)).foldl (fun s i => s.xFinish k i) s
    | none => s) s
  let s := mine.foldl (fun s k => (match s.eng k with
    | some e => s.setFork e 2
    | none => s).laneMode k) s
  let s := s.publishRegion rk
  let s := ((s.crews.filter (fun kv => kv.2.rk == rk)).map Prod.fst).foldl State.dropCrew s
  { s with
    teams := s.teams.filter (fun kv => kv.1 / 2 ^ 48 != rk || kv.2.st == .retired)
    strikeq := s.strikeq.filter (fun a => a.rk != rk)
    cores := s.cores.map (fun kv => match kv.2.mark with
      | some m => if m.1 = rk then (kv.1, { kv.2 with mark := none }) else kv
      | none => kv)
    port := { s.port with
      images := s.port.images.filter (fun kv => kv.2 / 2 ^ 48 != rk), waits := s.port.waits.filter (fun kv => kv.1 / 2 ^ 48 != rk) } }

/-- A subtree is aborted: its work stops, and each RCB receives STATE 4 and its completion signals. -/
def State.abortTree (s : State) (rk err : Nat) : State :=
  let l := (s.subtree rk).filter (fun k => match s.region k with
    | some r => decide (r.state < 2)
    | none => false)
  let s := l.foldl State.stopRegion s
  l.foldl (fun s k => s.endRegion k 4 (if k = rk then err else 0)) s

/-- A region that waits for an aborted producer's clear bit (R336). -/
def State.orphan (s : State) : Option Nat :=
  (s.regions.find? (fun kv => decide (kv.2.state < 2) && kv.2.maps.any (fun w =>
    match s.byRcb (rw w 0 0 57) with
    | some (_, p) => p.state == 4 && (List.range kv.2.grid).any (fun t =>
        (match s.team kv.1 t with
          | none => true
          | some x => x.st == .held) && (mapNeeds w kv.2 p t).any (fun b => (s.mapBit kv.2.fdom w b).2 == some false))
    | none => false))).map Prod.fst

/-- Orphaned consumers are aborted with ERR 0x0C. -/
def State.abortOrphans : Nat → State → State
  | 0, s => s
  | fuel + 1, s =>
    match s.orphan with
    | none => s
    | some rk => State.abortOrphans fuel (s.abortTree rk 0x0C)

def State.abortRegion (s : State) (rk err : Nat) : State :=
  let s := s.abortTree rk err
  State.abortOrphans s.regions.length s

/-- ADMISSION: the message at the head of the queue. -/
def execAdmission (s : State) : Host.Outcome State Fault Refusal :=
  match s.port.queue with
  | [] => .next s
  | msg :: q =>
    let pop : State → State := fun s => { s with port := { s.port with queue := q } }
    if msgBad msg then .next (pop s).ldropped
    else
      let root := rw msg 0 0 57
      match State.visitTree root 258 [(root, none, 0)] s [] with
      | (s, .error (e, off)) => .next ((pop s).refuseTree msg e off)
      | (s, .ok ns) =>
        if 1024 < (s.regions.filter (fun kv => decide (kv.2.state < 2))).length + ns.length then .next s
        else
          let rk0 := s.port.nextRk
          let s := (pop s).admitTree msg ns
          let s := (List.range ns.length).foldl (fun s i => s.lateBits (rk0 + i)) s
          .next (State.abortOrphans s.regions.length s)

-- Graph nodes (R35, R338).

/-- Two footprints share a byte. -/
def tilesMeet (a b : Bool × Nat × Nat) : Bool := decide (a.2.1 ≤ b.2.2) && decide (b.2.1 ≤ a.2.2)

/-- Every earlier node of the list that writes a tile of the node's inputs has completed. -/
def State.nodeInputs (s : State) (rk : Nat) (r : Region) : Bool :=
  (s.regions.filter (fun kv => kv.2.parent == r.parent && kv.2.kind == 3 && decide (kv.1 < rk))).all (fun kv =>
    kv.2.state == 2 || !(r.ops.any (fun i => !i.1 && kv.2.ops.any (fun o => o.1 && tilesMeet i o))))

def execNodeReady (rcb : Nat) (s : State) : Host.Outcome State Fault Refusal :=
  match s.byRcb rcb with
  | none => .next s
  | some (rk, r) =>
    if r.kind != 3 || r.ready || decide (2 ≤ r.state) || !s.nodeInputs rk r then .next s
    else
      let s := s.updRegion rk (fun r => { r with ready := true, readySeq := s.port.readyCtr })
      .next { s with port := { s.port with readyCtr := s.port.readyCtr + 1 } }

-- Retirement (R61, R63).

/-- An accumulator descriptor of a context names the block of a token entry that satisfies `p` (R285). -/
def State.namesBlock (s : State) (k : Nat) (e : Eng) (c : Crew) (p : Token → Bool) : Bool :=
  match s.team c.rk c.team with
  | none => false
  | some t => (List.range 16).any (fun n =>
      let a := AccD.of e.accs n
      (a.cores (engUnit k)).contains t.core && a.tslot == t.idx && a.crew == c.no
        && c.toks.any (fun x => p x && tokBase x.word == a.base))

/-- A Miller context of the crew has not ended: one that the crew started, one that names its given blocks, or, while a block
is away, one of its region in its cluster, which may still come to name it (R63, log 86). -/
def State.millerOf (s : State) (c : Crew) : Bool :=
  s.engs.any (fun kv => engKind kv.1 == 0 && kv.2.running && (kv.2.park.isNone || kv.2.xops.any (fun x => x.started))
    && kv.2.rk == c.rk && ((kv.2.team == c.team && kv.2.crew == c.no) || s.namesBlock kv.1 kv.2 c (fun _ => true)
      || (engUnit kv.1 == s.coreOf c / 96 && c.toks.any (fun t => !t.returned))))

/-- A crew may retire: every lane has exited, no transfer is owed, and every token it gave has been taken back or its Miller
context has ended (R63). -/
def State.crewOver (s : State) (c : Crew) : Bool :=
  (c.launched &&& ~~~c.exited) == 0 && c.heat.isNone && c.park.isNone && c.ring.todo.isEmpty
    && (c.toks.isEmpty || !s.millerOf c)

def execCrewRetirement (crew : Nat) (s : State) : Host.Outcome State Fault Refusal :=
  match s.crew crew with
  | none => .next s
  | some c =>
    if s.crewOver c && (match s.team c.rk c.team with
      | some t => t.st == .placed
      | none => false) then .next ((s.dropCrew crew).strikeCheck c.rk) else .next s

/-- A team may retire (R61). -/
def State.teamOver (s : State) (rk team : Nat) (t : Team) : Bool :=
  t.st == .placed && !s.crews.any (fun kv => kv.2.rk == rk && kv.2.team == team) && !t.engs.any s.engOpen
    && !s.teamEntries rk team && !s.haloPending rk team

def execTeamRetirement (rcb team : Nat) (s : State) : Host.Outcome State Fault Refusal :=
  match s.byRcb rcb with
  | none => .next s
  | some (rk, r) =>
    match s.team rk team with
    | none => .next s
    | some t =>
      if !s.teamOver rk team t then .next s
      else
        let s := s.publishCore t.core false
        -- crews of other teams may still hold entries for its barrier words: the words stay beside the team
        let ab := r.allotBytes
        let lo := scrAddr t.core (t.idx * ab)
        let words := (s.mem.scr.filter (fun c => decide (lo ≤ c.1) && decide (c.1 < lo + r.barw * 64))).map (fun c => (c.1 - lo, c.2))
        let s := s.moveWaiters (fun w => if decide (lo ≤ w) && decide (w < lo + ab) then imgPlace (teamKey rk team) (w - lo) else w)
        let t := { t with st := .retired, pre := false, preStep := 0, scr := words }
        let s := { s with teams := Tab.put s.teams (teamKey rk team) t }
        let s := s.updRegion rk (fun r => { r with retired := r.retired + 1 })
        .next ((s.setBit rcb team none).strikeCheck rk)

end Sys2Proof.Machine
end

