-- ==== Sys2Proof/Machine/Resume.lean ====
section
/-! DEFINITION. The control-plane commands' frame (R362) and what RESUME, SKIP and TRAP do to a parked crew or engine context
(R44, R363, R364, R372, R419). -/

namespace Sys2Proof.Machine

-- FCMD (Table 21-3).

/-- A command is written: one written while another is in progress is lost. -/
def State.command (s : State) (f : State → State) : State :=
  if !s.port.up then s
  else if s.port.busy then { s with port := { s.port with lost := true } }
  else
    let s := f s
    if s.port.busy then s else { s with port := { s.port with done := s.port.done + 1 } }

-- Crews.

/-- A parked crew goes on as RESUME says. -/
def State.resumeCrew (s : State) (id : Nat) (p : Park) : State :=
  match s.crew id with
  | none => s
  | some c =>
    let s := s.setCrew id { c with park := none, wait := .none }
    if !p.late then s
    else match c.split with
      | some sp => s.makeSplit id sp
      | none =>
        if p.fr.cause = cILLEGAL || p.fr.cause = cPAGE || p.fr.cause = cACCESS then s.checkTarget id p.slot p.src else s

/-- SKIP: the word at OFF is performed once as NOP. -/
def State.skipCrew (s : State) (id : Nat) (p : Park) : State :=
  let s := if p.late then s else s.updCrew id (fun c => match c.heat with
    | some h => { c with heat := some { h with skip := some p.fr.off } }
    | none => { c with skip := some (p.slot * 32 + p.fr.off) })
  s.resumeCrew id p

/-- The fault is delivered as a synchronous trap (R356). -/
def State.deliver (s : State) (id : Nat) (p : Park) (trape : DWord) : State :=
  match s.crew id with
  | none => s
  | some c =>
    let code := if p.fr.cause = cBREAK || p.fr.cause = cSVC || p.fr.cause = cARITH then p.fr.info % 2 ^ 20 else 0
    let info := code + p.fr.off * 2 ^ 20
    let skip := p.fr.cause == cBREAK && !p.late
    let ctl : DWord := BitVec.ofNat 64 (p.fr.off * 256 + skip.toNat)
    let n := p.slot
    let (mode, pc, h) := match c.heat with
      | some h => (h.wrk.mode, c.com.tretpc, some h)
      | none => (c.com.mode, (c.slot n).pc, none)
    let com := { c.com with mode := 0, tretpc := pc, tretctl := ctl }
    let c' := c.setSlot n { c.slot n with pc := trape, parked := false }
    s.setCrew id { c' with
      com := com, trap := ⟨n, p.fr.cause, info, mode, (c.slot n).chain.length, h⟩, heat := none, wait := .none
      park := none, last := 1 - n, skip := none }

/-- TRAP of a parked crew. -/
def State.trapCrew (s : State) (id : Nat) (p : Park) : State :=
  match s.crew id with
  | none => s
  | some c =>
    let trape : DWord := match s.region c.rk with
      | some r => r.trape
      | none => 0
    if c.trap.cause != 0 then s.resumeCrew id p
    else if trape = 0 then
      let fr := { p.fr with nested := true }
      let (s, q) := s.post (s.whoCrew id c).fdom id false fr
      s.updCrew id (fun c => { c with park := some { p with fr := fr, seq := q } })
    else match c.split with
      | none => s.deliver id p trape
      | some sp =>
        let s := (s.setCrew id { c with park := none }).makeSplit id sp
        match (s.crew id).bind (fun c => c.park) with
        | some _ => s
        | none => s.deliver id p trape

/-- Commands 0x01 to 0x03 of a crew. -/
def State.crewCommand (s : State) (id op : Nat) (p : Park) : State :=
  if op = 1 then s.resumeCrew id p else if op = 2 then s.skipCrew id p else s.trapCrew id p

-- Engine contexts.

/-- A word that closes a heat of an engine context. -/
def engCloser (w : Word) : Bool :=
  match decodeWord w with
  | .ok i => (match i with
    | .quench | .br _ _ _ | .bra _ | .brx _ _ _ | .call _ _ | .callx _ _ | .ret | .svc _ | .trap _ | .eloop _ _ | .eend | .mexit => true
    | _ => false)
  | .error _ => false

/-- RESUME and SKIP of an engine context: at its faulting instruction, or past it; after a fault that followed a closed heat,
at the address where the context stands. -/
def State.resumeEng (s : State) (k : Nat) (e : Eng) (p : Park) (skip : Bool) : State :=
  let go := { e with park := none, wait := .none }
  let fr := p.fr
  let (s, e') :=
    if p.late then (s, { go with pc := fr.heatpc, entry := none, off := 0 })
    else if !skip then
      (s, { go with pc := fr.wordpc, entry := if fr.off = 0 then none else some fr.heatpc, off := fr.off })
    else
      let r := s.fetchWord (s.whoEng k e) fr.wordpc
      let closes := fr.off == 0 || (match r.2 with
        | .ok w => engCloser w
        | .error _ => false)
      if closes then (r.1, { go.age true with pc := fr.wordpc + 4, entry := none, off := 0 })
      else (r.1, { go.age false with pc := fr.wordpc + 4, entry := some fr.heatpc, off := fr.off + 1 })
  (s.setEng k e').setFork e' 0

/-- ABORT: at once, or when the pre-emptions in the subtree have finished (R365, R372). -/
def State.abortAt (s : State) (rk : Nat) : State :=
  match s.region rk with
  | none => s
  | some r =>
    if 2 ≤ r.state then s
    else if s.teams.any (fun kv => kv.2.pre && kv.2.st == .placed && (s.subtree rk).contains (kv.1 / 2 ^ 48)) then
      { s with port := { s.port with abortReq := s.port.abortReq ++ [rk], busy := true } }
    else s.abortRegion rk 0

-- The named record.

/-- A domain is that of a region. -/
def State.inDomain (s : State) (rk : Nat) (fdom : BitVec 12) : Bool :=
  match s.region rk with
  | some r => r.fdom == fdom.toNat
  | none => false

/-- A crew held in an image, or whose team is on its way into one. -/
def State.crewAway (s : State) (c : Crew) : Bool :=
  match s.team c.rk c.team with
  | some t => t.st != .placed || t.pre
  | none => false

/-- Commands 0x01 to 0x03 (R363): the current fault of a parked crew or context that a record number names. -/
def State.faultCommand (s : State) (op : Nat) (fdom : BitVec 12) (seq : Word) : State :=
  let hit : Option Park → Bool := fun p => match p with
    | some p => p.seq == some seq.toNat
    | none => false
  match s.crews.find? (fun kv => hit kv.2.park && s.inDomain kv.2.rk fdom) with
  | some (id, c) =>
    match c.park with
    | some p =>
      if s.crewAway c then s.setCrew id { c with park := some { p with cmd := some op } }
      else s.crewCommand id op p
    | none => s
  | none =>
    match s.engs.find? (fun kv => hit kv.2.park && s.inDomain kv.2.rk fdom) with
    | some (k, e) =>
      match e.park with
      | some p => if op = 3 then s.abortAt e.rk else s.resumeEng k e p (op == 2)
      | none => s
    | none => s

def execResume (fdom : BitVec 12) (seq : Word) (s : State) : Host.Outcome State Fault Refusal :=
  .next (s.command (fun s => s.faultCommand 1 fdom seq))
def execSkip (fdom : BitVec 12) (seq : Word) (s : State) : Host.Outcome State Fault Refusal :=
  .next (s.command (fun s => s.faultCommand 2 fdom seq))
def execTrapCommand (fdom : BitVec 12) (seq : Word) (s : State) : Host.Outcome State Fault Refusal :=
  .next (s.command (fun s => s.faultCommand 3 fdom seq))

end Sys2Proof.Machine
end

