-- ==== Sys2Proof/Machine/Placement.lean ====
section
/-! DEFINITION. Which core a team takes, budgets, apportioning and drain marks (R32, R34, R37, R197, R198, R204, R327 to R332). -/

namespace Sys2Proof.Machine

/-- Cores of the package. -/
def nCores : Nat := 3072

def clusterCores (core : Nat) : List Nat := (List.range 96).map (fun i => core / 96 * 96 + i)

-- What a core holds.

/-- Teams placed on a core, one left out of account. -/
def State.residents (s : State) (core : Nat) (out : Option Nat) : List (Nat × Team) :=
  s.teams.filter (fun kv => kv.2.st == .placed && kv.2.core == core && out != some kv.1)

/-- Teams placed in a core's cluster. -/
def State.neighbours (s : State) (core : Nat) (out : Option Nat) : List (Nat × Team) :=
  s.teams.filter (fun kv => kv.2.st == .placed && kv.2.core / 96 == core / 96 && out != some kv.1)

/-- Crews of a list of teams. -/
def State.crewsOf (s : State) (ts : List (Nat × Team)) : List Crew :=
  (s.crews.filter (fun kv => ts.any (fun t => t.1 == teamKey kv.2.rk kv.2.team))).map Prod.snd

/-- Register bytes of a crew: its allocated slices, divergence-stack entries and linkage records (R37, R38, R61). -/
def State.crewBytes (s : State) (c : Crew) : Nat :=
  match s.region c.rk with
  | some r => ((List.range 4).filter (fun k => c.alloc (8 * k))).length * r.allot * 32 + r.dstk * 16 + 1024
  | none => 0

/-- Register bytes of a region's new team. -/
def Region.teamBytes (r : Region) : Nat := r.crews * (r.allot * 128 + r.dstk * 16 + 1024)

def CoreSt.matches_ (c : CoreSt) (r : Region) : Bool := c.regu == r.regu && c.l1u == r.l1u && c.scru == r.scru && c.fused == r.fuse

/-- The lowest free placement index of a core. -/
def freeIndex (ts : List (Nat × Team)) : Nat :=
  ((List.range 17).find? (fun j => ts.all (fun t => t.2.idx != j))).getD 16

/-- R37 and R328: the placement index with which a region's team fits a core. -/
def State.fits (s : State) (r : Region) (core : Nat) (out : Option Nat) : Option Nat :=
  let ts := s.residents core out
  let cs := s.crewsOf ts
  if ts.isEmpty then some 0
  else
    let j := freeIndex ts
    let used := cs.foldl (fun n c => n + s.crewBytes c) 0
    let sameT := ts.all (fun t => match s.region (t.1 / 2 ^ 48) with
      | some q => q.tscr == r.tscr
      | none => true)
    if (s.coreSt core).matches_ r && decide (cs.length + r.crews ≤ 16) && sameT && decide (j < 16)
        && decide ((j + 1) * r.tscr * 1024 ≤ r.scru * 8192) && decide (r.teamBytes + used ≤ r.regu * 8192) then some j
    else none

-- Budgets (R32, R204, R329).

/-- A region's ancestors, itself first. -/
def State.ancestors (s : State) : Nat → Nat → List Nat
  | 0, _ => []
  | fuel + 1, rk =>
    match s.region rk with
    | none => []
    | some r => rk :: (match r.parent with
      | some p => State.ancestors s fuel p
      | none => [])

/-- Cores that a region's subtree occupies; a fused region occupies whole clusters. -/
def State.coresUsed (s : State) (rk : Nat) (out : Option Nat) : List Nat :=
  let sub := s.subtree rk
  (s.crews.flatMap (fun kv =>
    match s.team kv.2.rk kv.2.team, s.region kv.2.rk with
    | some t, some r =>
      if sub.contains kv.2.rk && t.st == .placed && out != some (teamKey kv.2.rk kv.2.team)
      then (if r.fuse then clusterCores t.core else [t.core]) else []
    | _, _ => [])).eraseDups

/-- Every ancestor stays within its effective MAXCORES. -/
def State.within (s : State) (rk : Nat) (r : Region) (core : Nat) (out : Option Nat) : Bool :=
  let new := if r.fuse then clusterCores core else [core]
  (s.ancestors 300 rk).all (fun a =>
    let used := s.coresUsed a out
    match s.region a with
    | some g => decide (used.length + (new.filter (fun c => !used.contains c)).length ≤ g.maxc)
    | none => true)

/-- The cluster admits a region's teams (R204): a fused region shares its clusters with no other. -/
def State.clusterOk (s : State) (rk : Nat) (r : Region) (core : Nat) (out : Option Nat) : Bool :=
  (s.neighbours core out).all (fun t => t.1 / 2 ^ 48 == rk || (!r.fuse && (match s.region (t.1 / 2 ^ 48) with
    | some q => !q.fuse
    | none => true)))

-- The choice of a core (R329, R330).

/-- A core that has room for a team, whatever the budgets, and the team's index there: by a matching apportioning, or empty. -/
def State.roomAt (s : State) (rk : Nat) (r : Region) (team core : Nat) (out : Option Nat) : Option Nat :=
  match s.fits r core out with
  | none => none
  | some j =>
    let marked := match (s.coreSt core).mark with
      | some m => m != (rk, team)
      | none => false
    -- an empty core of a cluster that is fused differently must wait until the whole cluster is empty
    let clash := (s.coreSt core).fused != r.fuse && !(s.neighbours core out).isEmpty
    if marked || clash || !s.clusterOk rk r core out then none else some j

/-- A core on which a team may be placed, and its index. -/
def State.candidate (s : State) (rk : Nat) (r : Region) (team core : Nat) (out : Option Nat) : Option Nat :=
  if s.within rk r core out then s.roomAt rk r team core out else none

/-- The step of R329 that offers a core to a team: a matching apportioning, an empty core, a core drained for the team. -/
def State.coreStep (s : State) (rk : Nat) (r : Region) (team core : Nat) : Nat :=
  let c := s.coreSt core
  if c.mark == some (rk, team) then 3 else if c.matches_ r then 1 else 2

/-- Before another core in the order of R329: the step, then the fewest free crew slots, then the number. -/
def State.coreBefore (s : State) (rk : Nat) (r : Region) (team a b : Nat) : Bool :=
  let x := s.coreStep rk r team a
  let y := s.coreStep rk r team b
  if x != y then decide (x < y)
  else
    let na := (s.crewsOf (s.residents a none)).length
    let nb := (s.crewsOf (s.residents b none)).length
    if x == 1 && na != nb then decide (nb < na) else decide (a < b)

/-- The core that a team takes, with its placement index; `ok` are further conditions. -/
def State.choose (s : State) (rk : Nat) (r : Region) (team : Nat) (ok : Nat → Bool) : Option (Nat × Nat) :=
  let cs := (List.range nCores).filterMap (fun c => if ok c then (s.candidate rk r team c none).map (fun j => (c, j)) else none)
  let die := (List.range 8).foldl (fun best d =>
    if (cs.filter (fun x => x.1 / 384 == best)).length < (cs.filter (fun x => x.1 / 384 == d)).length then d else best) 0
  match cs.filter (fun x => x.1 / 384 == die) with
  | [] => none
  | x :: l => some (l.foldl (fun a b => if s.coreBefore rk r team b.1 a.1 then b else a) x)

/-- A drain mark for a pending team that finds no core: at most one for an apportioning (R330). -/
def State.markFor (s : State) (rk : Nat) (r : Region) (team : Nat) : State :=
  let same : Nat × Nat → Bool := fun m => match s.region m.1 with
    | some q => q.regu == r.regu && q.l1u == r.l1u && q.scru == r.scru
    | none => false
  if r.fuse || s.cores.any (fun kv => match kv.2.mark with
      | some m => same m
      | none => false) then s
  else
    let cs := (List.range nCores).filter (fun c => !(s.coreSt c).matches_ r && (s.coreSt c).mark.isNone
      && !(s.residents c none).isEmpty && s.clusterOk rk r c none && s.within rk r c none)
    let n : Nat → Nat := fun c => (s.crewsOf (s.residents c none)).length
    match cs with
    | [] => s
    | x :: l =>
      let c := l.foldl (fun a b => if n b < n a then b else a) x
      { s with cores := Tab.put s.cores c { s.coreSt c with mark := some (rk, team) } }

-- Apportioning (R197).

/-- Every line of some holders is given up in the order of R197: tracked ones are written back and leave their trees, then the
L bytes still held are published; copies of peers' lines go. -/
def MemSys.emptyHolders (m : MemSys) (t : Nat) (hs : List Nat) : MemSys :=
  let mine : MemSys → (Line → Bool) → List (Nat × Nat) := fun m p =>
    (m.lines.filter (fun kv => hs.contains (kv.1 / 2 ^ 45) && p kv.2)).map (fun kv => (kv.1 / 2 ^ 45, kv.1 % 2 ^ 45))
  let m := (mine m Line.tracked).foldl (fun m x => if 2 ^ 44 ≤ x.2 then m.delLine x.1 x.2 else m.dropTracked x.1 x.2) m
  (mine m (fun _ => true)).foldl (fun m x => m.evictL1 t x.1 x.2) m

/-- Scratch bytes of a range read zero. -/
def MemSys.clearScr (m : MemSys) (a n : Nat) : MemSys :=
  { (m.clearMarks (fun w => decide (a ≤ 4 * w) && decide (4 * w < a + n))) with
    scr := m.scr.filter (fun c => !(decide (a ≤ c.1) && decide (c.1 < a + n))) }

/-- A core, or with fusing its whole cluster, takes a region's apportioning. -/
def State.apportion (s : State) (core : Nat) (r : Region) : State :=
  let all := r.fuse || (s.coreSt core).fused
  let cs := if all then clusterCores core else [core]
  let m := s.mem.emptyHolders s.clock (if all then cs ++ [fusedHolder (core / 96), clusterHolder (core / 96)] else cs)
  let m := cs.foldl (fun m c => m.clearScr (scrAddr c 0) (2 ^ 24)) m
  let upd : CoreSt → Nat → CoreSt := fun st c =>
    if c = core || r.fuse then { st with regu := r.regu, l1u := r.l1u, scru := r.scru, fused := r.fuse, order := [], stalled := [], mark := none }
    else { st with fused := false }
  { s with mem := m, cores := cs.foldl (fun t c => Tab.put t c (upd (s.coreSt c) c)) s.cores }

-- Placing.

/-- A region with a placed team runs, and so do its ancestors. -/
def State.runRegion (s : State) (rk : Nat) : State :=
  (s.ancestors 300 rk).foldl (fun s a => match s.region a with
    | some r => if r.state = 0 then (s.updRegion a (fun r => { r with state := 1 })).status r.rcb 1 0 else s
    | none => s) s

/-- A placed team's marks elsewhere are removed (R330). -/
def State.unmark (s : State) (rk team : Nat) : State :=
  { s with cores := s.cores.map (fun kv => if kv.2.mark == some (rk, team) then (kv.1, { kv.2 with mark := none }) else kv) }

/-- The core is ready to take a team: its apportioning is set, and the marks of the team are gone. -/
def State.readyCore (s : State) (rk : Nat) (r : Region) (team core : Nat) : State :=
  (if (s.coreSt core).matches_ r then s else s.apportion core r).unmark rk team

/-- The crews' slots join the core's issue list. -/
def State.listSlots (s : State) (core : Nat) (ids : List Nat) : State :=
  let cs := s.coreSt core
  let new := ids.flatMap (fun i => [2 * i, 2 * i + 1])
  { s with cores := Tab.put s.cores core { cs with order := cs.order.filter (fun x => !new.contains x) ++ new } }

/-- A team placed for the first time (R34, R198, R332). -/
def State.placeNew (s : State) (rk : Nat) (r : Region) (team core j : Nat) : State :=
  let s := s.readyCore rk r team core
  let lo := scrAddr core (j * r.allotBytes)
  let m := s.mem.clearScr lo r.allotBytes
  let m := { m with lowered := Tab.drop m.lowered (fun w => decide (lo ≤ w) && decide (w < lo + r.allotBytes)) }
  let m := if r.maps.isEmpty then m else m.acquire (s.port1 core) 4
  let t := { Team.placedOn core with idx := j, stamp := s.uid, die := some (core / 384) }
  let ids := (List.range r.crews).map (fun n => crewKey rk team n)
  let s := { s with mem := m, uid := s.uid + 1, teams := Tab.put s.teams (teamKey rk team) t }
  let s := (List.range r.crews).foldl (fun s n =>
    let c := Crew.fresh_ rk team n r.lanes (r.allot / 8) r.entry (r.w.getD 11 0)
    s.setCrew (crewKey rk team n) { c with since0 := s.clock, since1 := s.clock }) s
  (s.listSlots core ids).runRegion rk

-- Pending teams (R327).

/-- A team is pending: never placed, or held in an image, and not held unplaceable. -/
def State.isPending (s : State) (rk : Nat) (r : Region) (team : Nat) : Bool :=
  !r.evicted && (match s.team rk team with
    | none => true
    | some t => (t.st == .imaged || t.st == .pending) && !t.evicted)

def State.pendingOf (s : State) (rk : Nat) (r : Region) : List Nat := (List.range r.grid).filter (s.isPending rk r)

/-- Before another region in the order of R327. -/
def regionBefore (a b : Nat × Region) : Bool :=
  decide (b.2.pri < a.2.pri) || (a.2.pri == b.2.pri && decide (a.2.readySeq < b.2.readySeq))

def insertRegion (x : Nat × Region) (l : List (Nat × Region)) : List (Nat × Region) :=
  match l with
  | [] => [x]
  | y :: r => if regionBefore x y then x :: y :: r else y :: insertRegion x r

/-- Leaf regions and ready nodes with pending teams, in the order of R327; at most 4,096 nodes are in the pool (R325, R338). -/
def State.placing (s : State) : List (Nat × Region) :=
  let live := s.regions.filter (fun kv => (kv.2.kind == 1 || kv.2.kind == 3) && kv.2.ready && decide (kv.2.state < 2)
    && !(s.pendingOf kv.1 kv.2).isEmpty)
  let nodes := (live.filter (fun kv => kv.2.kind == 3)).map (fun kv => kv.2.readySeq)
  let pool : Nat × Region → Bool := fun kv => kv.2.kind == 1 || decide ((nodes.filter (· < kv.2.readySeq)).length < 4096)
  (live.filter pool).foldr insertRegion []

/-- APPORTIONING_CHANGE: an empty marked core takes the apportioning of the team that waits for it. -/
def execApportioningChange (core : Nat) (s : State) : Host.Outcome State Fault Refusal :=
  match (s.coreSt core).mark with
  | none => .next s
  | some (rk, team) =>
    match s.region rk with
    | none => .next s
    | some r =>
      if !(s.residents core none).isEmpty || (s.coreSt core).matches_ r then .next s
      else
        let s := s.apportion core r
        .next { s with cores := Tab.put s.cores core { s.coreSt core with mark := some (rk, team) } }

end Sys2Proof.Machine
end

