-- ==== Sys2Proof/Machine/Preempt.lean ====
section
/-! DEFINITION. Pre-emption, context images and resumption, placement of the first placeable team, the commands that hold and
free teams, and the passing of a cluster clock (R56, R285, R321, R327, R331, R361 to R365, R368 to R372, R413). -/

namespace Sys2Proof.Machine

-- Requests.

/-- A team's pre-emption is requested: its crews open no further heat (R368 step 1). -/
def State.askPre (s : State) (key : Nat) (t : Team) : State :=
  if t.pre then s
  else
    let s := { s with teams := Tab.put s.teams key { t with pre := true, preStep := 0 } }
    s.updRegion (key / 2 ^ 48) (fun r => { r with preempts := r.preempts + 1 })

/-- A free image slot (R369). -/
def State.freeSlot (s : State) : Option Nat := (List.range s.port.ctxn).find? (fun i => (Tab.find s.port.images i).isNone)

-- R368 steps 1 to 4.

/-- A crew keeps its resume point and stops here: no heat, an unsealed heat, or a sealed one blocked as R56 lists. -/
def Crew.canStop (c : Crew) : Bool :=
  c.park.isSome || (match c.heat with
    | none => c.ring.todo.isEmpty && !(c.kept && !(c.s0.free && c.s1.free))
    | some h =>
      if c.kept then false
      else !h.sealed || (match c.wait with
        | .barrier _ _ _ _ => true
        | .ticket r _ _ _ => decide (r < 20000)
        | .arrived _ => true
        | .monitor => true
        | .rdv _ _ => true
        | .take _ => true
        | .team _ => true
        | _ => false))

/-- The block of an entry that the team has given away is named by an accumulator descriptor of a context (R285). -/
def State.namesAway (s : State) (k : Nat) (e : Eng) (rk team : Nat) : Bool :=
  s.crews.any (fun kv => kv.2.rk == rk && kv.2.team == team && s.namesBlock k e kv.2 (fun x => !x.returned))

/-- The context went away with a team, and the team has not come back. -/
def Eng.savedWith (e : Eng) (key : Nat) : Bool := e.saved.any (fun v => v.key == key && v.back.isNone)

/-- Miller contexts that are saved with a team. -/
def State.holders_ (s : State) (rk team : Nat) : List (Nat × Eng) :=
  s.engs.filter (fun kv => engKind kv.1 == 0 && kv.2.running && kv.2.rk == rk
    && (kv.2.saved.any (fun v => v.key == teamKey rk team) || s.namesAway kv.1 kv.2 rk team))

/-- A team leaves with the context. -/
def Eng.leaveWith (e : Eng) (key core idx : Nat) : Eng :=
  { e with saved :=
      if e.saved.any (fun v => v.key == key) then e.saved.map (fun v => if v.key = key then { v with back := none } else v)
      else e.saved ++ [⟨key, core, idx, none⟩] }

/-- A crew of the team stops: an unsealed heat is discarded, blocked waits end, named results have arrived. -/
def State.stopCrew_ (s : State) (id : Nat) : State :=
  let s := match s.crew id with
    | some c =>
      let c := c.settle
      match c.heat with
      | some h => if h.sealed then s.setCrew id c
        else (s.updRegion c.rk (fun g => { g with discards := g.discards + 1 })).setCrew id c.discard
      | none => s.setCrew id c
    | none => s
  (s.unwait id).updCrew id (fun c => { c with latch := [] })

/-- TEAM_PREEMPTION: the contexts that hold the team's blocks stop issuing; once every crew can stop and those contexts have
drained, the team's entries are freed and its core's bytes published. -/
def execTeamPreemption (rcb team : Nat) (s : State) : Host.Outcome State Fault Refusal :=
  match s.byRcb rcb with
  | none => .next s
  | some (rk, _) =>
    match s.team rk team with
    | none => .next s
    | some t =>
      if t.st != .placed || !t.pre || t.preStep != 0 then .next s
      else
        let mine := (s.crews.filter (fun kv => kv.2.rk == rk && kv.2.team == team)).map Prod.fst
        let hs := s.holders_ rk team
        let s := hs.foldl (fun s kv => s.setEng kv.1 (kv.2.leaveWith (teamKey rk team) t.core t.idx)) s
        let busy := hs.any (fun kv => if kv.2.park.isSome then kv.2.xops.any (fun x => x.started) else !kv.2.xops.isEmpty)
        if busy || !mine.all (fun id => match s.crew id with
            | some c => c.canStop
            | none => true) then .next s
        else
          let s := mine.foldl State.stopCrew_ s
          let s := s.publishCore t.core true
          .next { s with teams := Tab.put s.teams (teamKey rk team) { t with preStep := 1 } }

-- R368 steps 5 and 6.

/-- A crew state of Table 21-7. -/
def State.crewImage (s : State) (c : Crew) : List Nat :=
  let r := c.com
  let parked := c.park.isSome.toNat + (match c.heat with
    | some h => h.sealed.toNat * 2
    | none => 0) + c.s0.parked.toNat * 4 + c.s1.parked.toNat * 8
  let fdom := match s.region c.rk with
    | some g => g.fdom
    | none => 0
  let fseq := match c.park with
    | none => 0
    | some p => fdom % 4096 * 2 ^ 32 + p.seq.getD 0xFFFFFFFF
  let pair : (Nat → Word) → Nat → Nat := fun f k => (f (2 * k)).toNat + (f (2 * k + 1)).toNat * 2 ^ 32
  let ps : Nat → Word := fun n => if n < 7 then r.rdP (n + 1) else 0
  let tok : Nat → Nat := fun k => match c.toks[k]? with
    | some t => (if t.returned then 2 else 1) * 2 ^ 62 + fieldOf t.word 0 29
    | none => 0
  [c.s0.mask.toNat + c.s1.mask.toNat * 2 ^ 32, parked + c.exited.toNat * 2 ^ 32, c.s0.pc.toNat, c.s1.pc.toNat,
    c.s0.base % 1024 + c.s1.base % 1024 * 2 ^ 10, r.mode.toNat, r.asw.toNat, fseq]
    ++ (List.range 32).map (fun n => (r.rdS n).toNat) ++ (List.range 4).map (pair ps)
    ++ (List.range 16).map (pair (fun l => lane r.lfsr l)) ++ (List.range 4).map tok

/-- The header and the crew states: the first 20 KiB of an image (Table 21-6). -/
def State.imageBytes (s : State) (rk : Nat) (r : Region) (team : Nat) (mill : Nat) : List Byte :=
  let pad : Nat → List Byte → List Byte := fun n bs => bs ++ List.replicate (n - bs.length) 0
  let head := [Config.stepping * 2 ^ 48 + team % 2 ^ 32, r.rcb, (r.crews - 1) * 2 ^ 12 + mill]
  pad 4096 (head.flatMap (leOf 8)) ++ (List.range 16).flatMap (fun n =>
    pad 1024 (match s.crew (crewKey rk team n) with
      | some c => (s.crewImage c).flatMap (leOf 8)
      | none => []))

/-- Device memory written by the device at home. -/
def State.devWrite (s : State) (pa : Nat) (bs : List Byte) : State := { s with mem := s.mem.homeWrite s.clock pa bs }

/-- An open heat of another crew holds a checked store or atomic to a place of the range. -/
def Heat.aims (h : Heat) (lo hi : Nat) : Bool :=
  let inR : Space → Nat → Bool := fun sp a => sp == .scr && decide (lo ≤ a) && decide (a < hi)
  h.buf.any (fun o => match o with
    | .store cells _ => cells.any (fun x => inR x.sp x.a)
    | _ => false) || h.group.any (fun m => m.lanes.any (fun l => inR l.sp l.a))

/-- Step 5 may be taken: no entry addresses the allotment, and no other crew's open heat stores into it (R413). -/
def State.shareIdle (s : State) (rk team lo hi : Nat) : Bool :=
  !s.teamEntries rk team && !s.crews.any (fun kv => !(kv.2.rk == rk && kv.2.team == team) && (match kv.2.heat with
    | some h => h.aims lo hi
    | none => false))

/-- A team leaves its core into an image slot. -/
def State.writeImage (s : State) (rk : Nat) (r : Region) (team : Nat) (t : Team) (slot : Nat) : State :=
  let key := teamKey rk team
  let lo := scrAddr t.core (t.idx * r.allotBytes)
  let hi := lo + r.allotBytes
  let hs := s.engs.filter (fun kv => kv.2.savedWith key)
  let mill := hs.foldl (fun n kv => n + 2 ^ engIdx kv.1) 0
  let pa := s.port.ctxb + slot * 2 ^ 20
  let s := (s.devWrite pa (s.imageBytes rk r team mill)).devArea (pa + 0x5000) (2 ^ 20 - 0x5000)
  let saved := (s.mem.scr.filter (fun c => decide (lo ≤ c.1) && decide (c.1 < hi))).map (fun c => (c.1 - lo, c.2))
  let m := s.mem.clearScr lo r.allotBytes
  let m := { m with monitors := m.monitors.map (fun (w : Monitor) =>
    if w.sp == .scr && decide (lo ≤ w.a) && decide (w.a < hi) then { w with fired := true } else w) }
  let s := { s with
    mem := m
    teams := Tab.put s.teams key { t with st := .imaged, scr := saved, image := some slot, pre := false, preStep := 0 }
    port := { s.port with images := Tab.put s.port.images slot key } }
  -- every core that a saved context holds returns to lane mode (R294)
  let s := hs.foldl (fun s kv => s.laneMode kv.1) s
  s.moveWaiters (fun w => if decide (lo ≤ w) && decide (w < hi) then imgPlace key (w - lo) else w)

/-- A command that waited for teams to leave their cores, or for accesses (R377), completes (R362, R368). -/
def State.commandDone (s : State) : State :=
  if s.port.busy && !s.teams.any (fun kv => kv.2.pre && kv.2.evicted) && s.port.abortReq.isEmpty && !s.oldLeft then
    { s with port := { s.port with busy := false, done := s.port.done + 1 } }
  else s

/-- Regions whose ABORT waits for a pre-emption to end, and those of a fatal error, are aborted (R365, R372, R391). -/
def State.runAborts (s : State) : State :=
  let ready := s.port.abortReq.filter (fun rk =>
    !s.teams.any (fun kv => kv.2.pre && kv.2.st == .placed && (s.subtree rk).contains (kv.1 / 2 ^ 48)))
  let s := { s with port := { s.port with abortReq := s.port.abortReq.filter (fun rk => !ready.contains rk) } }
  (ready.foldl (fun s rk => s.abortRegion rk 0) s).commandDone

def execContextImageWrite (rcb team : Nat) (s : State) : Host.Outcome State Fault Refusal :=
  match s.byRcb rcb with
  | none => .next s
  | some (rk, r) =>
    match s.team rk team, s.freeSlot with
    | some t, some slot =>
      let lo := scrAddr t.core (t.idx * r.allotBytes)
      if t.st != .placed || t.preStep != 1 || !s.shareIdle rk team lo (lo + r.allotBytes) then .next s
      else .next ((s.writeImage rk r team t slot).commandDone).runAborts
    | _, _ => .next s

-- Resumption (R285, R321, R371).

/-- A place of the old allotment in the new one. -/
def movePlace (lo hi new a : Nat) : Nat := if decide (lo ≤ a) && decide (a < hi) then a - lo + new else a

/-- The crew that a descriptor names is one of the team's, of the context's region (R292). -/
def State.ownsBlock (s : State) (rk key : Nat) (a : AccD) : Bool :=
  s.crews.any (fun kv => kv.2.rk == rk && teamKey kv.2.rk kv.2.team == key && kv.2.no == a.crew)

/-- That crew holds an entry for the block. -/
def State.hasBlock (s : State) (rk key : Nat) (a : AccD) : Bool :=
  s.crews.any (fun kv => kv.2.rk == rk && teamKey kv.2.rk kv.2.team == key && kv.2.no == a.crew
    && kv.2.toks.any (fun x => tokBase x.word == a.base))

/-- Where the owner of a descriptor's block stands whose place was a core: where it came back, or still there. -/
def State.standsAt (s : State) (e : Eng) (a : AccD) (core : Nat) : Option (Nat × Nat) :=
  match e.saved.find? (fun v => v.core == core && v.idx == a.tslot && s.ownsBlock e.rk v.key a) with
  | some v => v.back
  | none => if s.teams.any (fun kv => kv.2.st == .placed && kv.2.core == core && kv.2.idx == a.tslot && s.ownsBlock e.rk kv.1 a)
    then some (core, a.tslot) else none

/-- The place of the gang of a descriptor: its first core and the index of its teams, as some owner's position fixes them. -/
def State.gangAt (s : State) (k : Nat) (e : Eng) (a : AccD) : Option (Nat × Nat) :=
  (a.cores (engUnit k)).zipIdx.findSome? (fun x => (s.standsAt e a x.1).bind (fun y =>
    if x.2 ≤ y.1 % 16 && y.1 % 16 - x.2 + a.gcnt ≤ 16 then some (y.1 - x.2, y.2) else none))

/-- A descriptor's gang moves with the context: a saved team has given its block away. -/
def State.gangMoves (s : State) (k : Nat) (e : Eng) (a : AccD) : Bool :=
  e.saved.any (fun v => v.idx == a.tslot && (a.cores (engUnit k)).contains v.core && s.hasBlock e.rk v.key a)

/-- The gang positions of a descriptor at which a saved team owns the block. -/
def State.ownAt (s : State) (k : Nat) (e : Eng) (v : Saved) (a : AccD) : List Nat :=
  if a.tslot == v.idx && s.hasBlock e.rk v.key a then
    ((a.cores (engUnit k)).zipIdx.filter (fun x => x.1 == v.core)).map Prod.snd
  else []

/-- R285 for one context: its index is free in the core's cluster, no owner stands in another cluster, and every gang that
names the team's blocks lies in one slice with its positions in order. -/
def State.contextOk (s : State) (k : Nat) (e : Eng) (v : Saved) (core : Nat) : Bool :=
  let k' := engKey 0 (core / 96) (engIdx k)
  (k' == k || (match s.eng k' with
    | some e => !e.running
    | none => true)) && (List.range 16).all (fun n =>
      let a := AccD.of e.accs n
      (!s.gangMoves k e a || (a.cores (engUnit k)).all (fun c => match s.standsAt e a c with
        | some y => y.1 / 96 == core / 96
        | none => true)) && (s.ownAt k e v a).all (fun p =>
          decide (p ≤ core % 16) && decide (core % 16 - p + a.gcnt ≤ 16)
            && (match s.gangAt k e a with
              | some y => y.1 == core - p
              | none => true)))

/-- The index that a saved team must take: TSLOT is one field, so a gang's teams share it. -/
def State.needIdx (s : State) (k : Nat) (e : Eng) (v : Saved) : Option Nat :=
  (List.range 16).findSome? (fun n =>
    let a := AccD.of e.accs n
    if (s.ownAt k e v a).isEmpty then none else (s.gangAt k e a).map Prod.snd)

/-- The contexts that wait for a team, each with its record of the team. -/
def State.waitingFor (s : State) (key : Nat) : List (Nat × Eng × Saved) :=
  s.engs.flatMap (fun kv => (kv.2.saved.filter (fun v => v.key == key && v.back.isNone)).map (fun v => (kv.1, kv.2, v)))

/-- The index that a held team takes on a core: the one its gangs fix, or the free one. -/
def State.resumeIdx (s : State) (rk : Nat) (r : Region) (team core j : Nat) : Option Nat :=
  match (s.waitingFor (teamKey rk team)).filterMap (fun x => s.needIdx x.1 x.2.1 x.2.2) with
  | [] => some j
  | n :: l => if l.all (· == n) && (s.residents core none).all (fun x => x.2.idx != n)
      && decide ((n + 1) * r.tscr * 1024 ≤ r.scru * 8192) then some n else none

/-- The conditions of R285 and R371 on the core of a held team. -/
def State.resumeOk (s : State) (rk : Nat) (r : Region) (team : Nat) (t : Team) (core : Nat) : Bool :=
  (r.strikeScope != some 3 || t.core / 384 == core / 384)
    && (s.waitingFor (teamKey rk team)).all (fun x => s.contextOk x.1 x.2.1 x.2.2 core)
    && (s.resumeIdx rk r team core 0).isSome

/-- GANG and TSLOT of the descriptors whose gang has moved (R285, R321). -/
def State.moveAccs (s : State) (k : Nat) (e : Eng) (t : Tab DWord) : Tab DWord :=
  (List.range 16).foldl (fun t n =>
    match s.gangAt k e (AccD.of t n) with
    | none => t
    | some (first, idx) =>
      let f0 := accField t n 0
      let f3 := accField t n 3
      let f0' := f0 - bits f0 16 4 * 2 ^ 16 + idx * 2 ^ 16
      let f3' := bits f3 8 4 * 2 ^ 8 + first % 16 * 2 ^ 4 + first % 96 / 16
      Tab.put (Tab.put t (n * 8) (BitVec.ofNat 64 f0')) (n * 8 + 3) (BitVec.ofNat 64 f3')) t

/-- Every team of a saved context is back: it goes on in the gangs' cluster, and their cores turn to grid mode (R321). The
context it leaves keeps the registers of its last program (R412). -/
def State.restoreContext (s : State) (k core : Nat) (e : Eng) : State :=
  let k' := engKey 0 (core / 96) (engIdx k)
  let accs := s.moveAccs k e e.accs
  let gangs := ((List.range 16).filter (fun n => s.gangMoves k e (AccD.of e.accs n))).flatMap (fun n =>
    (AccD.of accs n).cores (core / 96))
  let e' := { e with saved := [], wait := .none, accs := accs, xops := e.xops.map (fun x => { x with accs := s.moveAccs k e x.accs }) }
  let s := (s.setEng k { Eng.start with gen := e.gen, s := e.s }).setEng k' e'
  { s with cores := gangs.eraseDups.foldl (fun t c => Tab.put t c { s.coreSt c with grid := some k' }) s.cores }

/-- A team is back on a core: its contexts note the place, and go on when all their teams are back. -/
def State.resumeContext (s : State) (key core idx k : Nat) : State :=
  match s.eng k with
  | none => s
  | some e =>
    let e := { e with saved := e.saved.map (fun v => if v.key = key then { v with back := some (core, idx) } else v) }
    if e.saved.all (fun v => v.back.isSome) then s.restoreContext k core e else s.setEng k e

/-- Commands that were recorded in the image take effect (R364, R372). -/
def State.runRecorded (s : State) (id : Nat) : State :=
  match (s.crew id).bind (fun c => c.park) with
  | some p =>
    match p.cmd with
    | some op => s.crewCommand id op { p with cmd := none }
    | none => s
  | none => s

/-- A held team is placed again. -/
def State.resumeTeam (s : State) (rk : Nat) (r : Region) (team : Nat) (t : Team) (core idx : Nat) : State :=
  let key := teamKey rk team
  let s := s.readyCore rk r team core
  let new := scrAddr core (idx * r.allotBytes)
  let lo := scrAddr t.core (t.idx * r.allotBytes)
  let m := s.mem.clearScr new r.allotBytes
  let m := { m with scr := t.scr.foldl (fun g c => Memory.put g (new + c.1) c.2) m.scr }
  let hs := (s.waitingFor key).map Prod.fst
  let ids := (s.crews.filter (fun kv => kv.2.rk == rk && kv.2.team == team)).map Prod.fst
  let s := { s with
    mem := m, uid := s.uid + 1
    teams := Tab.put s.teams key { t with st := .placed, core := core, idx := idx, stamp := s.uid, scr := [], image := none,
                                                 die := some (core / 384) }
    port := { s.port with images := s.port.images.filter (fun kv => kv.2 != key) } }
  let s := s.moveWaiters (fun w => if decide (imgPlace key 0 ≤ w) && decide (w < imgPlace key 0 + 2 ^ 24)
    then new + (w - imgPlace key 0) else w)
  let s := hs.foldl (fun s k => s.resumeContext key core idx k) s
  let s := ids.foldl (fun s id => s.updCrew id (fun c => { c with
    kept := true, since0 := s.clock, since1 := s.clock
    heat := c.heat.map (Heat.moved .scr (movePlace lo (lo + r.allotBytes) new)) })) s
  let s := (s.listSlots core ids).runRegion rk
  ids.foldl State.runRecorded s

-- The first placeable team (R327, R329 to R331).

/-- What places a team: a first placement, or a resumption. -/
def State.placeable (s : State) (rk : Nat) (r : Region) (team : Nat) : Option State :=
  match s.team rk team with
  | none => if s.depsMet r team then (s.choose rk r team (fun _ => true)).map (fun c => s.placeNew rk r team c.1 c.2) else none
  | some t =>
    match s.choose rk r team (s.resumeOk rk r team t) with
    | some (c, j) => (s.resumeIdx rk r team c j).map (fun j => s.resumeTeam rk r team t c j)
    | none => none

/-- The first placeable team in the order of R327, with the state after its placement. -/
def State.firstPlaceable (s : State) : Option (Nat × Nat × State) :=
  s.placing.findSome? (fun kv => (s.pendingOf kv.1 kv.2).findSome? (fun t =>
    (s.placeable kv.1 kv.2 t).map (fun s' => (kv.1, t, s'))))

/-- A region's first pending team, if no core fits it though its budgets allow some core. -/
def State.firstCoreless (s : State) (rk : Nat) (r : Region) : Option Nat :=
  ((s.pendingOf rk r).find? (fun t => (s.team rk t).isSome || s.depsMet r t)).bind (fun t =>
    if (s.placeable rk r t).isNone && (List.range nCores).any (fun c => s.within rk r c none) then some t else none)

/-- Marks for the teams that find no core (R330). -/
def State.markAll (s : State) : State :=
  s.placing.foldl (fun s kv => match s.firstCoreless kv.1 kv.2 with
    | some t => s.markFor kv.1 kv.2 t
    | none => s) s

def execTeamPlacement (s : State) : Host.Outcome State Fault Refusal :=
  match s.firstPlaceable with
  | some (_, _, s') => .next s'.markAll
  | none => .next s.markAll

/-- TEAM_RESUMPTION: a held team whose turn it is. -/
def execTeamResumption (rcb team : Nat) (s : State) : Host.Outcome State Fault Refusal :=
  match s.byRcb rcb with
  | none => .next s
  | some (rk, _) =>
    match s.firstPlaceable with
    | some (k, t, s') => if k = rk && t = team && (s.team rk team).isSome then .next s' else .next s
    | none => .next s

-- Pre-emption for priority (R331).

/-- Before another victim: lower priority, placed later, higher core. -/
def State.victimBefore (s : State) (a b : Nat × Team) : Bool :=
  let p : Nat × Team → Nat := fun x => match s.region (x.1 / 2 ^ 48) with
    | some r => r.pri
    | none => 0
  decide (p a < p b) || (p a == p b && (decide (b.2.stamp < a.2.stamp) || (a.2.stamp == b.2.stamp && decide (b.2.core < a.2.core))))

/-- The team that makes room for a region's team: its die has no such pre-emption in flight, and without it its core fits. -/
def State.victimFor (s : State) (rk : Nat) (r : Region) (team : Nat) : Option (Nat × Team) :=
  let inFlight : Nat → Bool := fun die =>
    s.teams.any (fun kv => kv.2.pre && kv.2.st == .placed && kv.2.core / 384 == die && !kv.2.evicted)
  let vs := s.teams.filter (fun kv => kv.2.st == .placed && !kv.2.pre && !inFlight (kv.2.core / 384)
    && (match s.region (kv.1 / 2 ^ 48) with
      | some q => decide (q.pri + 2 ≤ r.pri)
      | none => false)
    && (match s.team rk team with
      | some t => s.resumeOk rk r team t kv.2.core
      | none => true)
    && (s.candidate rk r team kv.2.core (some kv.1)).isSome)
  match vs with
  | [] => none
  | v :: l => some (l.foldl (fun a b => if s.victimBefore b a then b else a) v)

/-- A pending team waits for a fitting core alone (R331): its dependencies are met, no core is marked for it, and its budgets
do not cause the wait: they allow some core, and shut it out of none that has room. -/
def State.coreless (s : State) (rk : Nat) (r : Region) (t : Nat) : Bool :=
  let ok : Nat → Bool := match s.team rk t with
    | some tm => s.resumeOk rk r t tm
    | none => fun _ => true
  ((s.team rk t).isSome || s.depsMet r t) && (s.placeable rk r t).isNone
    && !s.cores.any (fun c => c.2.mark == some (rk, t))
    && (List.range nCores).any (fun c => s.within rk r c none)
    && !(List.range nCores).any (fun c => ok c && (s.roomAt rk r t c none).isSome)

/-- A pre-emption that makes room for a team has not finished. -/
def State.makingRoom (s : State) (key : Nat) : Bool :=
  s.port.roomFor.any (fun x => x.2 == key && (match Tab.find s.teams x.1 with
    | some v => v.pre && v.st == .placed
    | none => false))

/-- The first team that has waited 100 µs, with the team that makes room for it. -/
def State.roomNeed (s : State) : Option (Nat × Nat × Team) :=
  s.placing.findSome? (fun kv => (s.pendingOf kv.1 kv.2).findSome? (fun t =>
    let key := teamKey kv.1 t
    if decide (140000 ≤ Tab.get s.port.waits key 0) && s.coreless kv.1 kv.2 t && !s.makingRoom key then
      (s.victimFor kv.1 kv.2 t).map (fun v => (key, v))
    else none))

/-- PRIORITY_PREEMPTION on a die. -/
def execPriorityPreemption (die : Nat) (s : State) : Host.Outcome State Fault Refusal :=
  if s.freeSlot.isNone then .next s
  else
    match s.roomNeed with
    | some (key, v, t) =>
      if t.core / 384 != die then .next s
      else .next ({ s with port := { s.port with roomFor := Tab.put s.port.roomFor v key } }.askPre v t)
    | none => .next s

-- Commands (R363, R365).

/-- A team is pre-empted and held unplaceable. -/
def State.holdTeam (s : State) (rk team : Nat) : State :=
  match s.team rk team with
  | none => { s with teams := Tab.put s.teams (teamKey rk team) { Team.placedOn 0 with st := .held, evicted := true } }
  | some t =>
    match t.st with
    | .placed =>
      let s := s.askPre (teamKey rk team) t
      match s.team rk team with
      | some t => { s with teams := Tab.put s.teams (teamKey rk team) { t with evicted := true }, port := { s.port with busy := true } }
      | none => s
    | .imaged => { s with teams := Tab.put s.teams (teamKey rk team) { t with evicted := true } }
    | _ => s

/-- The leaf region, or every leaf and node of the subtree, at FARG. -/
def State.leavesAt (s : State) (rcb : Nat) : List (Nat × Region) :=
  match s.byRcb rcb with
  | none => []
  | some (rk, _) => s.regions.filter (fun kv => (s.subtree rk).contains kv.1 && kv.2.kind % 2 == 1 && decide (kv.2.state < 2))

def execEvict (s : State) : Host.Outcome State Fault Refusal :=
  .next (s.command (fun s => (s.leavesAt s.port.farg.toNat).foldl (fun s kv =>
    let s := s.updRegion kv.1 (fun r => { r with evicted := true })
    ((s.teams.filter (fun t => t.1 / 2 ^ 48 == kv.1)).map (fun t => t.1 % 2 ^ 48)).foldl (fun s t => s.holdTeam kv.1 t) s) s))

def execTevict (seq : Word) (s : State) : Host.Outcome State Fault Refusal :=
  .next (s.command (fun s => match s.byRcb s.port.farg.toNat with
    | none => s
    | some (rk, r) =>
      if r.kind % 2 = 0 || decide (2 ≤ r.state) || decide (r.grid ≤ seq.toNat) then s else s.holdTeam rk seq.toNat))

/-- ADMIT: a team that was never placed and held is pending as before it was held. -/
def execAdmitTeams (s : State) : Host.Outcome State Fault Refusal :=
  .next (s.command (fun s => (s.leavesAt s.port.farg.toNat).foldl (fun s kv =>
    let s := s.updRegion kv.1 (fun r => { r with evicted := false })
    let ts := s.teams.filter (fun t => !(t.1 / 2 ^ 48 == kv.1 && t.2.st == .held))
    { s with teams := ts.map (fun t => if t.1 / 2 ^ 48 = kv.1 then (t.1, { t.2 with evicted := false }) else t) }) s))

/-- ABORT: at once, or when the pre-emptions in its subtree have finished. -/
def execAbort (s : State) : Host.Outcome State Fault Refusal :=
  .next (s.command (fun s => match s.byRcb s.port.farg.toNat with
    | none => s
    | some (rk, _) => s.abortAt rk))

/-- SHOOT. -/
def execShoot (fdom : BitVec 12) (seq : Word) (s : State) : Host.Outcome State Fault Refusal :=
  .next (s.command (fun s =>
    let v := seq.toNat
    if 16 ≤ v || v % 4 == 3 || (v % 4 == 0 && v / 4 == 3) then s
    else
      let s := (s.performLaters.markOld none).invalTlb (tlbNames (v % 4) (v / 4) s.port.farg.toNat fdom.toNat)
      if s.oldLeft then { s with port := { s.port with busy := true } } else s))

-- Faults that waited for ring space (R361).

/-- The oldest waiting fault of a domain is posted; a crew held in an image has its image's FSEQ rewritten. -/
def execDeferredFaultPosting (fdom : Nat) (s : State) : Host.Outcome State Fault Refusal :=
  match s.port.unposted.find? (fun u => u.fdom == fdom) with
  | none => .next s
  | some ⟨_, key, eng, fr⟩ =>
    let c := if eng then none else s.crew key
    let img := match c with
      | some c => (match s.team c.rk c.team with
        | some t => t.image
        | none => none)
      | none => none
    match s.postRec fdom { fr with image := fr.image || img.isSome } with
    | (s, none) => .next s
    | (s, some q) =>
      let s := { s with port := { s.port with unposted := s.port.unposted.erase ⟨fdom, key, eng, fr⟩ } }
      if eng then
        match s.eng key with
        | some e => (match e.park with
          | some p => if p.fr = fr then .next (s.setEng key { e with park := some { p with seq := some q } }) else .next s
          | none => .next s)
        | none => .next s
      else
        match s.crew key with
        | none => .next s
        | some c =>
          match c.park with
          | none => .next s
          | some p =>
            if p.fr != fr then .next s
            else
              let fr' := { fr with image := fr.image || img.isSome }
              let s := s.setCrew key { c with park := some { p with seq := some q, fr := fr' } }
              match img with
              | some slot => .next (s.devWrite (s.port.ctxb + slot * 2 ^ 20 + 0x1000 + 1024 * c.no + 56) (leOf 4 q))
              | none => .next s

-- A cluster clock.

/-- The waits of pending teams for a fitting core count (R331). -/
def State.countWaits (s : State) : State :=
  let keys := s.placing.flatMap (fun kv => (s.pendingOf kv.1 kv.2).map (fun t => (kv, t)))
  let keep := s.port.waits.filter (fun w => keys.any (fun x => teamKey x.1.1 x.2 == w.1))
  let add := keys.filter (fun x => s.coreless x.1.1 x.1.2 x.2)
  { s with port := { s.port with waits := add.foldl (fun t x =>
      Tab.put t (teamKey x.1.1 x.2) (Tab.get t (teamKey x.1.1 x.2) 0 + 1)) keep } }

end Sys2Proof.Machine
end

