-- ==== Sys2Proof/Machine/Clock.lean ====
section
/-! DEFINITION. The passing of a cluster clock: waiting times (R342), waits for a core (R331), energy counts (R347), ABORTs that
waited (R372, R391). -/

namespace Sys2Proof.Machine

/-- Adds one to a region's count on a cluster. -/
def addCycle (t : Tab (Tab Nat)) (cluster rk : Nat) : Tab (Tab Nat) :=
  let c := Tab.get t cluster []
  Tab.put t cluster (Tab.put c rk (Tab.get c rk 0 + 1))

/-- Every resident crew, and every running context, counts once for its region (R347). -/
def State.countCycles (s : State) : State :=
  let crews := (s.crews.filter (fun kv => match s.team kv.2.rk kv.2.team with
    | some t => t.st == .placed
    | none => false)).map (fun kv => (s.coreOf kv.2 / 96, kv.2.rk))
  let engs := (s.engs.filter (fun kv => kv.2.running && kv.2.park.isNone && kv.2.saved.isEmpty)).map (fun kv =>
    (if engKind kv.1 = 2 then kv.2.core / 96 else engUnit kv.1, kv.2.rk))
  { s with power := { s.power with cycles := (crews ++ engs).foldl (fun t x => addCycle t x.1 x.2) s.power.cycles } }

/-- An access count that the device samples enters the hint log of its die: which, when and of what value is left open (R390,
log 23). -/
def State.sample (s : State) : State :=
  match Config.accessSample s.clock with
  | some (die, page, count) =>
    { s with pool := { s.pool with hints := Tab.put s.pool.hints die (Tab.get s.pool.hints die [] ++ [.sampled page count]) } }
  | none => s

/-- A cluster clock passes; slots that are not eligible start their waiting time anew (R342). -/
def State.tick (s : State) : State :=
  let s := s.sample.powerTick
  let s := { s with clock := s.clock + 1, admits := 0 }
  let s := { s with crews := s.crews.map (fun (kv : Nat × Crew) =>
      let f : Nat → Crew → Crew := fun n c => if s.slotEligible kv.1 n then c
        else { c.setSince n s.clock with promoted := c.promoted.filter (· != n) }
      (kv.1, f 0 (f 1 kv.2))) }
  (s.countCycles.countWaits).engWaits.runAborts

end Sys2Proof.Machine
end

