-- ==== Sys2Proof/Machine/Cross.lean ====
section
/-! DEFINITION. Cross-lane instructions (R188 to R197). -/

namespace Sys2Proof.Machine

/-- VOTE (R189). -/
def execVote (op : VoteOp) (d a : BitVec 5) (l : BitVec 4) (s : State) : Host.Outcome State Fault Refusal :=
  s.crewWord (Instr.wf (.vote op d a l)) (regEff l.toNat heldNone (fun c h =>
    match c.check h [] [] [nameS d] true true with
    | .error e => .error e
    | .ok () =>
      let m := c.lanes h
      let p := h.wrk.rdP a.toNat &&& m
      let x : DWord := match op with
        | .ballot => p.setWidth 64
        | .any => if p = 0 then 0 else 1
        | .all => if p = m then 1 else 0
        | .uni => if p = 0 || p = m then 1 else 0
      .ok ⟨[.s d.toNat x], 0, none⟩))

/-- ELECT (R190). -/
def execElect (d : BitVec 5) (l : BitVec 4) (s : State) : Host.Outcome State Fault Refusal :=
  s.crewWord (Instr.wf (.elect d l)) (regEff l.toNat heldNone (fun c h =>
    match c.check h [] [] [nameP d] true true with
    | .error e => .error e
    | .ok () =>
      let m := c.lanes h
      .ok ⟨[.p d.toNat m (1#32 <<< lowest m)], 0, none⟩))

/-- MATCH (R191). -/
def execMatchLanes (d a : BitVec 5) (l : BitVec 4) (s : State) : Host.Outcome State Fault Refusal :=
  s.crewWord true (regEff l.toNat heldNone (fun c h =>
    let ka := h.key a.toNat
    let kd := h.key d.toNat
    match c.check h [ka] [kd] [] true true with
    | .error e => .error e
    | .ok () =>
      let m := c.lanes h
      let v := h.wrk.rdV ka
      .ok ⟨[.v kd m (lanesOf (fun x => maskOf (fun y => m.getLsbD y && lane v y == lane v x))) fmtINT32], 0, none⟩))

/-- The source lane of SHFL: a number of 32 or more stands for none. -/
def shflFrom (md : ShflMode) (b : Lanes) (u : DWord) (l : Nat) : Nat :=
  match md with
  | .idx => (lane b l).toNat % 32
  | .up => if u.toNat ≤ l then l - u.toNat else 32
  | .down => l + u.toNat
  | .xor => l ^^^ (u.toNat % 32)

/-- SHFL (R192). -/
def execShfl (md : ShflMode) (o : OpLB) (s : State) : Host.Outcome State Fault Refusal :=
  s.crewWord (Instr.wf (.shfl md o)) (regEff o.l.toNat heldNone (fun c h =>
    let r := h.wrk
    let ka := h.keys o.a o.e
    let kd := h.keys o.d o.e
    let kb := h.key o.b.toNat
    let vb := match md with
      | .idx => [kb]
      | _ => []
    match c.check h (ka ++ vb) kd [] true (r.tagsIn vb [fmtINT32, fmtBITS]) with
    | .error e => .error e
    | .ok () =>
      let m := c.lanes h
      let out := perLane m [] (fun l =>
        let j := shflFrom md (r.rdV kb) (r.rdS o.b.toNat) l
        r.at_ ka (if decide (j < 32) && (c.active h).getLsbD j then j else l))
      .ok ⟨vecW kd m out (fun i => r.rdTag (ka.getD i 0)), 0, none⟩))

-- The permutation network (R193, R194).

/-- Switch `k` of stage `st`. -/
def ctlBit (ctl st k : Nat) : Nat := (bits ctl (16 * st + k) 1)

/-- Apply: `fuel` is the logarithm of the number of lines less one. -/
def benes (ctl : Nat) : Nat → Nat → Nat → List Word → List Word
  | 0, _, q, x =>
    let c := ctlBit ctl 4 q
    [x.getD c 0, x.getD (1 - c) 0]
  | fuel + 1, d, q, x =>
    let h := x.length / 2
    let u := (List.range h).map (fun k => x.getD (2 * k + ctlBit ctl d (q * h + k)) 0)
    let l := (List.range h).map (fun k => x.getD (2 * k + 1 - ctlBit ctl d (q * h + k)) 0)
    let uo := benes ctl fuel (d + 1) (2 * q) u
    let lo := benes ctl fuel (d + 1) (2 * q + 1) l
    (List.range h).flatMap (fun k =>
      let a := uo.getD k 0
      let b := lo.getD k 0
      if ctlBit ctl (8 - d) (q * h + k) = 0 then [a, b] else [b, a])

/-- The loop of Route from position `j`: sides of outputs and of inputs. -/
def routeLoop (pi inv : List Nat) : Nat → Nat → Tab Nat × Tab Nat → Tab Nat × Tab Nat
  | 0, _, t => t
  | fuel + 1, j, (side, ins) =>
    let i := pi.getD j 0
    let side := Tab.put (Tab.put side j 0) (j ^^^ 1) 1
    let ins := Tab.put (Tab.put ins i 0) (i ^^^ 1) 1
    let j' := inv.getD (i ^^^ 1) 0 ^^^ 1
    if (Tab.find side j').isSome then (side, ins) else routeLoop pi inv fuel j' (side, ins)

def invert (pi : List Nat) : List Nat := (List.range pi.length).map (fun i => pi.findIdx (· == i))

/-- Route: the control bits it sets, as a number. -/
def route : Nat → Nat → Nat → List Nat → Nat
  | 0, _, q, pi => pi.getD 0 0 * 2 ^ (16 * 4 + q)
  | fuel + 1, d, q, pi =>
    let n := pi.length
    let h := n / 2
    let inv := invert pi
    let (side, ins) := (List.range h).foldl (fun t k =>
      if (Tab.find t.1 (2 * k)).isSome then t else routeLoop pi inv n (2 * k) t) (([], []) : Tab Nat × Tab Nat)
    let own := (List.range h).foldl (fun a k =>
      a + Tab.get ins (2 * k) 0 * 2 ^ (16 * d + q * h + k) + Tab.get side (2 * k) 0 * 2 ^ (16 * (8 - d) + q * h + k)) 0
    let pu := (List.range h).map (fun k => pi.getD (2 * k + Tab.get side (2 * k) 0) 0 / 2)
    let pl := (List.range h).map (fun k => pi.getD (2 * k + 1 - Tab.get side (2 * k) 0) 0 / 2)
    own + route fuel (d + 1) (2 * q) pu + route fuel (d + 1) (2 * q + 1) pl

/-- The index vector of PERMSET: kept indices, then the open lanes filled in order. -/
def permFill (kept : List (Option Nat)) (free : List Nat) : List Nat :=
  match kept with
  | [] => []
  | some x :: r => x :: permFill r free
  | none :: r => free.headD 0 :: permFill r (free.tailD [])

/-- Kept indices of lanes 0 to 31, and whether a contributing lane was opened by a duplicate. -/
def permKeep (m : Word) (v : Lanes) : List (Option Nat) × Bool :=
  (List.range 32).foldl (fun acc l =>
    if m.getLsbD l then
      let x := (lane v l).toNat % 32
      if acc.1.contains (some x) then (acc.1 ++ [none], true) else (acc.1 ++ [some x], acc.2)
    else (acc.1 ++ [none], acc.2)) ([], false)

def execPermset (d a : BitVec 5) (l : BitVec 4) (s : State) : Host.Outcome State Fault Refusal :=
  s.crewWord (Instr.wf (.permset d a l)) (regEff l.toNat heldNone (fun c h =>
    let ka := h.key a.toNat
    match c.check h [ka] [] [nameS d, nameS d + 1, nameS d + 2] true (h.wrk.tagsIn [ka] [fmtINT32, fmtBITS]) with
    | .error e => .error e
    | .ok () =>
      let (kept, dup) := permKeep (c.lanes h) (h.wrk.rdV ka)
      let pi := permFill kept ((List.range 32).filter (fun x => !kept.contains (some x)))
      let ctl := route 4 0 0 pi
      .ok ⟨(List.range 3).map (fun i => .s (d.toNat + i) (BitVec.ofNat 64 (ctl / 2 ^ (64 * i)))), flIf dup flNV, none⟩))

def execPerm (o : OpLB) (s : State) : Host.Outcome State Fault Refusal :=
  s.crewWord (Instr.wf (.perm o)) (regEff o.l.toNat heldNone (fun c h =>
    let r := h.wrk
    let ka := h.keys o.a o.e
    let kd := h.keys o.d o.e
    match c.check h ka kd [] true true with
    | .error e => .error e
    | .ok () =>
      let cn := o.b.toNat
      let ctl := (r.rdS cn).toNat + 2 ^ 64 * (r.rdS (cn + 1)).toNat + 2 ^ 128 * (r.rdS (cn + 2)).toNat
      let act := c.active h
      .ok ⟨(List.range ka.length).map (fun i =>
        let k := ka.getD i 0
        let x := lanesOf (fun l => if act.getLsbD l then lane (r.rdV k) l else 0)
        .v (kd.getD i 0) (c.lanes h) (benes ctl 4 0 0 x) (r.rdTag k)), 0, none⟩))

-- Reductions and scans (R96, R97, R196).

/-- Combine of two present values with a draw: result, flags, state. -/
abbrev Combine := Nat → Nat → Word → Nat × Flags × Word

/-- A node: its value and the lowest contributing lane it covers. -/
abbrev RNode := Option (Nat × Nat)

/-- Combines two nodes; the draw comes from the lowest lane covered. -/
def combineNodes (cb : Combine) (st : Lanes × Flags) (a b : RNode) : RNode × Lanes × Flags :=
  match a, b with
  | some (x, l), some (y, _) =>
    let (z, fl, s') := cb x y (lane st.1 l)
    (some (z, l), lanesOf (fun i => if i = l then s' else lane st.1 i), st.2 ||| fl)
  | some x, none => (some x, st)
  | none, y => (y, st)

/-- One level of the tree. -/
def levelUp (cb : Combine) : List RNode → Lanes × Flags → List RNode × Lanes × Flags
  | a :: b :: r, st =>
    let (x, st) := combineNodes cb st a b
    let (xs, st) := levelUp cb r st
    (x :: xs, st)
  | _, st => ([], st)

/-- Levels 0 to 5. -/
def redLevels (cb : Combine) : Nat → List RNode → Lanes × Flags → List (List RNode) × Lanes × Flags
  | 0, xs, st => ([xs], st)
  | n + 1, xs, st =>
    let (ys, st) := levelUp cb xs st
    let (ls, st) := redLevels cb n ys st
    (xs :: ls, st)

/-- The inclusive fold over the lanes below `n`: levels from the largest power down. -/
def scanFold (cb : Combine) (lv : List (List RNode)) (n : Nat) (st : Lanes × Flags) : RNode × Lanes × Flags :=
  let (acc, _, st) := ([5, 4, 3, 2, 1, 0] : List Nat).foldl (fun (a : RNode × Nat × (Lanes × Flags)) d =>
    if n.testBit d then
      let x := ((lv.getD d []).getD (a.2.1 / 2 ^ d) none)
      let (y, st) := combineNodes cb a.2.2 a.1 x
      (y, a.2.1 + 2 ^ d, st)
    else a) (none, 0, st)
  (acc, st)

/-- Which lanes a word answers: RED, SCAN incl, SCAN excl. -/
inductive RedKind | red | incl | excl
  deriving DecidableEq, Repr

/-- One element position across the lanes. -/
def redElem (cb : Combine) (ident : Nat) (kd : RedKind) (m : Word) (xs : List Nat) (st : Lanes × Flags) :
    List Nat × Lanes × Flags :=
  let leaves : List RNode := (List.range 32).map (fun l => if m.getLsbD l then some (xs.getD l 0, l) else none)
  let (lv, st) := redLevels cb 5 leaves st
  let out : RNode → Nat := fun n => match n with
    | some (x, _) => x
    | none => ident
  match kd with
  | .red => ((List.range 32).map (fun _ => out ((lv.getD 5 []).getD 0 none)), st)
  | k =>
    (List.range 32).foldl (fun a l =>
      if m.getLsbD l then
        let (n, st) := scanFold cb lv (match k with
          | .excl => l
          | _ => l + 1) a.2
        (a.1 ++ [out n], st)
      else (a.1 ++ [0], a.2)) ([], st)

/-- A float, integer or bitwise Combine with its identity; `w` the element width. -/
def redCombine (op : RedOp) (mode : BitVec 40) : Combine × Nat :=
  let f := modeFmt mode
  let rn := modeRnd mode
  let q := intModeOf mode
  let int : (Int → Int → Int) → Bool → Combine := fun g sat a b s =>
    let r := if sat then q.res (g (q.val a) (q.val b)) else q.wrap (g (q.val a) (q.val b))
    (r.1, r.2, s)
  match op with
  | .fadd => (fun a b s =>
      let (d, s') := drawFor rn s
      let v := valAdd (rn.mode == rndRDN) (valOf f rn.ftz a) (valOf f rn.ftz b)
      let r := roundTo f rn d v.1
      (r.1, r.2 ||| v.2, s'), 0)
  | .fmin => (fun a b s => let r := minMax false f rn.ftz a b; (r.1, r.2, s), infBits f false)
  | .fmax => (fun a b s => let r := minMax true f rn.ftz a b; (r.1, r.2, s), infBits f true)
  | .iadd => (int (· + ·) true, 0)
  | .imin => (int min false, wrapInt q.w (intHi q.w q.sgn))
  | .imax => (int max false, wrapInt q.w (intLo q.w q.sgn))
  | .and => (fun a b s => (a &&& b, 0, s), 2 ^ 32 - 1)
  | .or => (fun a b s => (a ||| b, 0, s), 0)

def redIsFloat (op : RedOp) : Bool := match op with
  | .fadd => true
  | .fmin => true
  | .fmax => true
  | _ => false
def redIsLogic (op : RedOp) : Bool := match op with
  | .and => true
  | .or => true
  | _ => false

def redCalc (op : RedOp) (kind : RedKind) (o : OpL) : Crew → Heat → Except Stop Res := fun c h =>
  let r := h.wrk
  let f := modeFmt r.mode
  let q := intModeOf r.mode
  let w := if redIsLogic op then 32 else if redIsFloat op then slotBits f else q.w
  let tag := if redIsFloat op then f else intTag (modeIw r.mode)
  let ka := h.keys o.a o.e
  let kd := h.keys o.d o.e
  let fmtOk := redIsLogic op || ((!redIsFloat op || fmtIsFloat f) && r.accepts tag ka)
  let is64 := !redIsLogic op && (if redIsFloat op then f == fmtFP64 else q.w == 64)
  match c.check h ka kd [] (pairsLegal is64 [o.d, o.a] o.e) fmtOk with
  | .error e => .error e
  | .ok () =>
    let m := c.lanes h
    let es := (List.range 32).map (fun l => elemsOf w (r.at_ ka l))
    let n := (es.getD 0 []).length
    let (cb, ident) := redCombine op r.mode
    let snan := redIsFloat op && (lanesIn m).any (fun l => (es.getD l []).any (fun x => (valOf f (modeRnd r.mode).ftz x).isSNaN))
    let (cols, st) := (List.range n).foldl (fun (a : List (List Nat) × (Lanes × Flags)) i =>
      let (xs, st) := redElem cb ident kind m (es.map (fun x => x.getD i 0)) a.2
      (a.1 ++ [xs], st)) ([], r.lfsr, flIf snan flNV)
    -- a result that one lane alone gives is canonical too where it is a NaN (R70)
    let canon : Nat → Nat := fun x => if redIsFloat op && (valOf f (modeRnd r.mode).ftz x).isNaN then canonNaN f else x
    let out := (List.range 32).map (fun l => regsOfElems w (cols.map (fun xs => canon (xs.getD l 0))))
    .ok ⟨vecW kd m out (fun i => if redIsLogic op then r.rdTag (ka.getD i 0) else tag), st.2, some st.1⟩

def execRed (op : RedOp) (o : OpL) (s : State) : Host.Outcome State Fault Refusal :=
  s.crewWord (Instr.wf (.red op o)) (regEff o.l.toNat heldNone (redCalc op .red o))
def execScan (op : RedOp) (excl : Bool) (o : OpL) (s : State) : Host.Outcome State Fault Refusal :=
  s.crewWord (Instr.wf (.scan op excl o)) (regEff o.l.toNat heldNone (redCalc op (if excl then .excl else .incl) o))

end Sys2Proof.Machine
end

