-- ==== Sys2Proof/Machine/Power.lean ====
section
/-! DEFINITION. Power registers, allowance, ratios, energy, slack matching (R25, R343, R346, R347, R349, R350, R352), and the
promotion of a slot that has waited too long (R342). -/

namespace Sys2Proof.Machine

/-- Milden writes PWA or PWR of a cluster; reserved bits read zero. A write of PWA ends a held floor (R25). -/
def execPowerAllowanceWrite (cluster : Nat) (pwr : Bool) (v : DWord) (s : State) : Host.Outcome State Fault Refusal :=
  let p := s.power
  if 32 ≤ cluster then .next s
  else if pwr then .next (s.setPower { p with pwr := Tab.put p.pwr cluster (v &&& 0xFFFFFF) })
  else .next (s.setPower { p with
    pwa := Tab.put p.pwa cluster (v &&& 0xFFFFFFFF0000FFFF)
    lastWrite := Tab.put p.lastWrite cluster s.clock
    floor := Tab.del p.floor cluster })

/-- A cluster whose PWA Milden has not written for 1,024 cc holds its refill (R25). -/
def execPowerFloor (cluster : Nat) (s : State) : Host.Outcome State Fault Refusal :=
  let p := s.power
  if decide (s.clock < Tab.get p.lastWrite cluster 0 + 1024) || (Tab.find p.floor cluster).isSome || decide (32 ≤ cluster) then .next s
  else .next (s.setPower { p with floor := Tab.put p.floor cluster (s.refillOf cluster) })

-- Pace (R349, R350, R352).

/-- The throttle level that a group's report carries (R349, R352). -/
def State.throttle (s : State) (group : Nat) : Nat :=
  let sum := (List.range 32).foldl (fun n g => n + pwaRefill (s.pwaOf g) * s.paceOf g (some group) / 1024) 0
  min 1024 (sum * 1024 / (32 * 4096))

/-- SLACK_REPORT: `peers` are the reports that have arrived, and this package's level is sent where its 50 µs have passed. -/
def execSlackReport (group : Nat) (peers : List (Nat × Nat)) (s : State) : Host.Outcome State Fault Refusal :=
  match Tab.find s.power.groups group with
  | none => .next s
  | some g =>
    let ms := g.members.map (fun m => match peers.find? (fun p => p.1 == m.1) with
      | some p => (m.1, min 1024 p.2)
      | none => m)
    let g := { g with members := ms }
    let g := if s.clock < g.report + 70000 then g else { g with sent := s.throttle group, report := g.report + 70000 }
    .next (s.setPower { s.power with groups := Tab.put s.power.groups group g })

/-- The pace after one period (R350); `dwell` tells that 200 µs have passed since it last changed. -/
def nextPace (q target : Nat) (dwell : Bool) : Nat :=
  let d : Int := (target : Int) - q
  if d.natAbs * 50 ≤ q || !dwell then q
  else
    let step := Int.tdiv d 4
    let step := if step = 0 then d.sign else step
    ((q : Int) + step).toNat

/-- PACE_UPDATE: at the end of a 50 µs period. -/
def execPaceUpdate (group : Nat) (s : State) : Host.Outcome State Fault Refusal :=
  match Tab.find s.power.groups group with
  | none => .next s
  | some g =>
    if s.clock < g.period + 70000 then .next s
    else
      let target := g.members.foldl (fun t m => min t m.2) 1024
      let q := nextPace g.q target (g.changed == 0 || decide (g.changed + 280000 ≤ s.clock))
      let g' := { g with q := q, period := g.period + 70000, changed := if q = g.q then g.changed else s.clock }
      .next (s.setPower { s.power with groups := Tab.put s.power.groups group g' })

/-- GROUP_END: 200 µs after the last COLL of the group. -/
def execGroupEnd (group : Nat) (s : State) : Host.Outcome State Fault Refusal :=
  match Tab.find s.power.groups group with
  | none => .next s
  | some g =>
    match g.ends with
    | some t => if t ≤ s.clock then .next (s.setPower { s.power with groups := Tab.del s.power.groups group }) else .next s
    | none => .next s

/-- ALLOWANCE_REFILL: the refill of a cluster clock, and the cc's requests (R345). -/
def execAllowanceRefill (cluster : Nat) (reqs : List PowerReq) (s : State) : Host.Outcome State Fault Refusal :=
  .next (s.clusterClock cluster reqs)

-- Ratios, promotion, energy.

/-- SLICE_RATIO_CHANGE: at the start of a window of 8 cluster clocks (R18, R346). -/
def execSliceRatioChange (cluster slice : Nat) (s : State) : Host.Outcome State Fault Refusal :=
  let k := cluster * 8 + slice
  if s.clock % 8 != 0 || decide (6 ≤ slice) || decide (32 ≤ cluster) then .next s
  else .next (s.setPower { s.power with ratio := Tab.put s.power.ratio k (min (s.ceilOf k) (Tab.get s.power.req k 8)) })

/-- STARVATION_PROMOTION: a slot eligible for 4,096 cc without issuing (R342). -/
def execStarvationPromotion (crew slot : Nat) (s : State) : Host.Outcome State Fault Refusal :=
  match s.crew crew with
  | none => .next s
  | some c =>
    if s.slotEligible crew slot && decide (c.since slot + 4096 ≤ s.clock) && !c.promoted.contains slot then
      .next (s.setCrew crew { c with promoted := c.promoted ++ [slot] })
    else .next s

/-- A charge to a region; regions above that have taken its sum already take the charge as well (R339, R347). -/
def State.charge : Nat → Nat → Nat → State → State
  | 0, _, _, s => s
  | fuel + 1, rk, nj, s =>
    match s.region rk with
    | none => s
    | some r =>
      let s := s.updRegion rk (fun r => { r with energy := r.energy + nj })
      match (if 2 ≤ r.state then r.parent else none) with
      | some p => State.charge fuel p nj s
      | none => s

/-- ENERGY_INTERVAL: a cluster's energy of 100 µs, in nJ, is charged to its regions (R347); once for each interval that has
ended. -/
def execEnergyInterval (cluster nj : Nat) (s : State) : Host.Outcome State Fault Refusal :=
  if s.clock / 140000 ≤ Tab.get s.power.intervals cluster 0 then .next s
  else
    let cs := Tab.get s.power.cycles cluster []
    let sum := cs.foldl (fun n kv => n + kv.2) 0
    let part : Nat × Nat → Nat := fun kv => if (s.region kv.1).isSome then nj * kv.2 / sum else 0
    let spent := cs.foldl (fun n kv => n + part kv) 0
    let s := cs.foldl (fun s kv => State.charge 300 kv.1 (part kv) s) s
    .next (s.setPower { s.power with
      cycles := Tab.put s.power.cycles cluster []
      intervals := Tab.put s.power.intervals cluster (s.clock / 140000)
      idle := Tab.put s.power.idle cluster (Tab.get s.power.idle cluster 0 + (nj - spent)) })

end Sys2Proof.Machine
end

