-- ==== Sys2Proof/Machine/Host.lean ====
section
/-! DEFINITION. The host port: BAR0 registers, BAR2, the coherent cache of the I/O dies seen from the host, going down and
training (R362, R363, R380 to R387, R393); pool extents (R388 to R392). -/

namespace Sys2Proof.Machine

def State.setPort (s : State) (p : Port) : State := { s with port := p }
def State.setPool (s : State) (p : Pool) : State := { s with pool := p }

-- Pool extents (Table 23-5).

def extent0 : Extent := ⟨false, false, false, 0, 0, 0, 0, 0⟩
def State.extent (s : State) (e : Nat) : Extent := Tab.get s.pool.exts e extent0
def State.setExtent (s : State) (e : Nat) (x : Extent) : State := s.setPool { s.pool with exts := Tab.put s.pool.exts e x }
def Extent.bytes (x : Extent) : Nat := x.len * 2 ^ 28
def Extent.holds (x : Extent) (pa : Nat) : Bool := decide (x.wbase ≤ pa) && decide (pa < x.wbase + x.bytes)

/-- The fields of w0. -/
def Extent.put0 (x : Extent) (v : DWord) : Extent :=
  { x with shared := v.getLsbD 62, port := v.getLsbD 61, wbase := fieldOf v 28 24 * 2 ^ 28 }

/-- Two extents meet: in the pool window when private, in external space when shared (R388). -/
def Extent.meets (x y : Extent) : Bool :=
  x.shared == y.shared && decide (x.wbase < y.wbase + y.bytes) && decide (y.wbase < x.wbase + x.bytes)

/-- Bytes of a range, moved to another base. -/
def Memory.shift (m : Memory) (base size to_ : Nat) : Memory :=
  (m.filter (fun c => decide (base ≤ c.1) && decide (c.1 < base + size))).map (fun c => (c.1 - base + to_, c.2))

def Memory.without (m : Memory) (base size : Nat) : Memory :=
  m.filter (fun c => !(decide (base ≤ c.1) && decide (c.1 < base + size)))

def Memory.putAll (m : Memory) (cs : List (Nat × Byte)) : Memory := cs.foldl (fun m c => Memory.put m c.1 c.2) m

/-- Place of an extent's bytes on its memory device. -/
def Extent.devBase (x : Extent) : Nat := x.port.toNat * 2 ^ 60 + x.dpa

/-- Bytes of package memory as the devices hold them: what the L2 holds of the range is dropped. -/
def MemSys.setPkg (m : MemSys) (x : Extent) (g : Memory) : MemSys :=
  { m with pkg := g, l2 := m.l2.filter (fun kv => !x.holds (kv.1 * 128)) }

/-- Where the package keeps an extent's bytes: in the pool window, or in the storage of its port. -/
def Extent.base (x : Extent) : Nat := if x.shared then extAddr (1 + x.port.toNat) x.wbase else x.wbase

/-- A mapped extent shows its device's bytes at its addresses. -/
def State.showExtent (s : State) (x : Extent) : State :=
  let bs := Memory.shift s.pool.dev x.devBase x.bytes x.base
  let put : Memory → Memory := fun m => Memory.putAll (Memory.without m x.base x.bytes) bs
  if x.shared then { s with mem := { s.mem with ext := put s.mem.ext } } else { s with mem := s.mem.setPkg x (put s.mem.pkg) }

/-- An extent leaves the package's map: its bytes stay on the device. -/
def State.hideExtent (s : State) (x : Extent) : State :=
  let src := if x.shared then s.mem.ext else s.mem.pkg
  let dev := Memory.putAll (Memory.without s.pool.dev x.devBase x.bytes) (Memory.shift src x.base x.bytes x.devBase)
  let s := s.setPool { s.pool with dev := dev }
  if x.shared then { s with mem := { s.mem with ext := Memory.without s.mem.ext x.base x.bytes } }
  else { s with mem := s.mem.setPkg x (Memory.without s.mem.pkg x.wbase x.bytes) }

/-- Registers answer in a port that is up and outside recovery (R400, R403). -/
def State.barUp (s : State) : Bool := s.port.up && s.port.phase != 15

/-- POOL_EXTENT_MAP: a write of w0 with VALID set (R388). -/
def execPoolExtentMap (e : Nat) (v : DWord) (s : State) : Host.Outcome State Fault Refusal :=
  let x := (s.extent e).put0 v
  let trained := if x.port then s.pool.trainedB else s.pool.trainedA
  if !s.barUp || decide (64 ≤ e) || (s.extent e).valid then .next s
  else if !trained || x.len == 0 || s.pool.exts.any (fun kv => kv.2.valid && kv.2.meets x) then .next s
  else
    let tag := (Config.freeDWord s.freeCount).setWidth 32
    .next (({ s with freeCount := s.freeCount + 1 }.setExtent e { x with valid := true, st := 1, tag := tag }).showExtent x)

/-- Every line of an extent that the package holds is written back and invalidated. -/
def State.flushExtent (s : State) (x : Extent) : State :=
  let s := s.performLaters
  if x.shared then { s with mem := s.mem.flushExt (fun _ => 1 + x.port.toNat) x.wbase x.bytes }
  else { s with mem := (s.mem.flushRange s.clock x.wbase x.bytes).clearL2 x.wbase x.bytes }

/-- EXTENT_RELEASE: a write of w0 with VALID clear (R392). -/
def execExtentRelease (e : Nat) (v : DWord) (s : State) : Host.Outcome State Fault Refusal :=
  let x := s.extent e
  if !s.barUp || decide (64 ≤ e) then .next s
  else if !x.valid then .next (s.setExtent e (x.put0 v))
  else
    let s := if x.st ≤ 2 then s.flushExtent x else s
    .next ((s.hideExtent x).setExtent e { x.put0 v with valid := false, st := 0, tag := 0 })

/-- EXTENT_RELEASE_REQUEST: STATE 2, a notice in the telemetry window, the driver's vector (R392). -/
def execExtentReleaseRequest (e : Nat) (s : State) : Host.Outcome State Fault Refusal :=
  let x := s.extent e
  if x.st != 1 then .next s
  else
    let s := s.setExtent e { x with st := 2 }
    .next ((s.setPool { s.pool with notices := e :: s.pool.notices }).notice Config.driverVector)

-- Forced removal.

/-- A place of an extent. -/
def Extent.cell (x : Extent) (sp : Space) (a : Nat) : Bool :=
  (match sp with
    | .pkg => !x.shared
    | .ext _ p => x.shared && p == 1 + x.port.toNat
    | _ => false) && x.holds a

/-- Dirty bytes of the extent in the package's caches, dropped with their lines: the addresses lost. -/
def State.dropLines (s : State) (x : Extent) : State × List Nat :=
  let mine : Nat × Line → Bool := fun kv =>
    x.holds (kv.1 % 2 ^ 45 * 128) && (decide (ioHolder 0 ≤ kv.1 / 2 ^ 45) && decide (kv.1 / 2 ^ 45 ≤ ioHolder 1)) == x.shared
  let home : Nat × Line → Bool := fun kv => !x.shared && x.holds (kv.1 * 128)
  let dirty : Nat × Line → List Nat := fun kv => (byteIdx.filter (fun j => kv.2.dirty.getLsbD j)).map (fun j => kv.1 % 2 ^ 45 * 128 + j)
  let lost := ((s.mem.lines.filter mine ++ s.mem.l2.filter home).flatMap dirty).eraseDups
  let m := { s.mem with lines := s.mem.lines.filter (fun kv => !mine kv), l2 := s.mem.l2.filter (fun kv => !home kv) }
  let m := if x.shared then m else { m with
    tree := m.tree.filter (fun kv => !x.holds kv.2.gbase), fabShare := m.fabShare.filter (fun ln => !x.holds (ln * 128)) }
  ({ s with mem := m }, lost)

/-- EXTENT_REMOVAL (R392). -/
def execExtentRemoval (e : Nat) (s : State) : Host.Outcome State Fault Refusal :=
  let x := s.extent e
  if !x.valid || decide (3 ≤ x.st) then .next s
  else
    let s := s.setExtent e { x with st := 3 }
    let (s, lost) := s.dropLines x
    let dirty := lost.map (fun pa => (pa, Tab.get s.mem.wrote (pa - x.wbase + x.base) 0))
    let (s, log) := s.loseStores x.cell cEXTENT
    let s := s.loseReads (fun y => x.cell y.1 (y.2 * 128)) cEXTENT
    .next { s with pool := { s.pool with errlog := s.pool.errlog ++ dirty ++ log } }

/-- POOL_FATAL_ERROR: every extent on the device of a port fails; accesses to it abort their regions (R391). -/
def execPoolFatalError (port : Bool) (s : State) : Host.Outcome State Fault Refusal :=
  .next (s.setPool { s.pool with exts := s.pool.exts.map (fun (kv : Nat × Extent) =>
    if kv.2.valid && kv.2.port == port then (kv.1, { kv.2 with st := 4 }) else kv) })

-- BAR2 (R382, R383).

/-- Package memory that is present at an offset. -/
def State.present (s : State) (pa : Nat) : Bool :=
  if pa < Config.ddrBase then true
  else if pa < Config.poolBase then Config.cmForm && s.port.ddrok.getLsbD ((pa - Config.ddrBase) / 2 ^ 38)
  else if pa < Config.packageTop then
    match s.extentAt false pa with
    | some x => decide (x.st ≤ 2)
    | none => false
  else false

def State.presentAll (s : State) (pa n : Nat) : Bool :=
  n != 0 && (List.range n).all (fun i => s.present (pa + i))

/-- An access that no present memory answers: Unsupported Request, counted. -/
def State.unsupported (s : State) : State :=
  s.setPort { s.port with unsupported := s.port.unsupported + 1, lastRead := [] }

def noPort : Port1 := ⟨none, none, 0⟩

/-- A value the spec does not give, of `n` bytes. -/
def State.freeBytes (s : State) (n : Nat) : State × List Byte :=
  ({ s with freeCount := s.freeCount + n }, (List.range n).map (fun i => Config.freeByte (s.freeCount + i)))

/-- A read that enters the mesh at the home router, as the model takes it for the host and for peers. -/
def MemSys.hostSees (m : MemSys) (ln : Nat) : MemSys := (m.quiet ln).downgrade (homeRouter (ln * 128)) ln

/-- The host takes a line into its own caches (HDM-DB): shared, or to write it. -/
def MemSys.hostTake (m : MemSys) (t ln : Nat) (own : Bool) : MemSys :=
  let m := if own then m.teardown t ln else m.hostSees ln
  m.setLine hostHolder ln (m.granted ln (if own then .E else .S))

def State.hostMemRead (s : State) (off len : Nat) (cached : Option Bool) : State :=
  if !s.presentAll off len then s.unsupported
  else
    let pas := (List.range len).map (fun i => s.redirect (off + i))
    let lns := (pas.map lineOf).eraseDups
    let bs := pas.map s.mem.homeByte
    let bad := s.homePoisoned pas
    let m := match cached with
      | some own =>
        if s.port.cxl then lns.foldl (fun m ln => m.hostTake s.clock ln own) s.mem else lns.foldl MemSys.hostSees s.mem
      | none => lns.foldl MemSys.hostSees s.mem
    let s := { s with mem := m }
    let (s, fr) := if bad then s.freeBytes len else (s, [])
    s.setPort { s.port with lastRead := if bad then fr else bs }

/-- An option that the device does not support: Unsupported Request, and no effect (R381). -/
def State.unlisted (s : State) : State := s.setPort { s.port with lastRead := [] }

/-- HOST_WRITE through BAR2, or by a host that holds the lines to write them in its own caches. -/
def execHostWrite (off : Nat) (bytes : List Byte) (how : HostWrite) (s : State) : Host.Outcome State Fault Refusal :=
  if !s.barUp then .next s
  else if how.opt != .plain then .next s.unlisted
  else if !s.presentAll off bytes.length then .next s.unsupported
  else
    let cells := (List.range bytes.length).map (fun i => (s.redirect (off + i), bytes.getD i 0))
    if how.cached then
      let owns := cells.all (fun c => match s.mem.line hostHolder (lineOf c.1) with
        | some l => l.st == .M || l.st == .E
        | none => false)
      if !s.port.cxl || !owns then .next s
      else
        let m := cells.foldl (fun m c => m.putAt (some hostHolder) (lineOf c.1) [(c.1 % 128, c.2)]) s.mem
        .next { s with mem := m.wroteBy 0 (cells.map (fun (c : Nat × Byte) => (Space.pkg, c.1))) }
    else
      let m := s.mem.storePkg s.clock noPort 4 0 true cells
      .next { s with mem := m.wroteBy 0 (cells.map (fun (c : Nat × Byte) => (Space.pkg, c.1))) }

-- BAR0 (R324, R362, R380, Tables 19-2, 21-3, 23-4, 23-5).

/-- FCMD: the command of Table 21-5, whatever its reserved field holds (R6); an undefined OP completes with no effect. -/
def State.fcmd (s : State) (v : DWord) : Host.Outcome State Fault Refusal :=
  let fdom : BitVec 12 := v.extractLsb' 44 12
  let seq : Word := v.extractLsb' 0 32
  match fieldOf v 56 8 with
  | 1 => execResume fdom seq s
  | 2 => execSkip fdom seq s
  | 3 => execTrapCommand fdom seq s
  | 4 => execAbort s
  | 5 => execEvict s
  | 6 => execAdmitTeams s
  | 7 => execShoot fdom seq s
  | 8 => execTevict seq s
  | _ => .next (s.command id)

/-- LOST_CLEAR: writing one to LOST clears it (R362). -/
def execLostClear (v : DWord) (s : State) : Host.Outcome State Fault Refusal :=
  if s.barUp && v.getLsbD 1 then .next (s.setPort { s.port with lost := false }) else .next s

/-- Bits of an external window's words that a write keeps. -/
def windowKeep (n : Nat) (v : DWord) : DWord :=
  if n % 2 = 0 then v &&& 0xF00FFFFFFFE00000 else v &&& 0x000FFFFFFFE00000

def bindingKeep (n : Nat) (v : DWord) : DWord :=
  if n % 2 = 0 then v &&& 0x81FFFFFFFFFFFFFF else v &&& 0xFFFFFFFF

/-- A register of the control block. -/
def State.barRegister (s : State) (off : Nat) : DWord :=
  let p := s.port
  let n : Nat → DWord := BitVec.ofNat 64
  if off = 0x40 then n (256 - p.queue.length)
  else if off = 0x48 then n p.ldrop.toNat
  else if off = 0x100 then n p.fdtb
  else if off = 0x108 then n p.ctxb
  else if off = 0x110 then n p.ctxn
  else if off = 0x118 then p.farg
  else if off = 0x128 then n (p.done.toNat * 2 ^ 32 + p.lost.toNat * 2 + p.busy.toNat)
  else if off = 0x200 then n (p.ddrok.toNat * 2 ^ 48 + p.hbmok.toNat * 2 ^ 32 + p.phase % 16 * 2 ^ 8 + p.ready.toNat)
  else if off = 0x208 then n p.aopcap.toNat
  else if 0x400 ≤ off && off < 0x480 then Tab.get p.windows ((off - 0x400) / 8) 0
  else if 0x800 ≤ off && off < 0x1000 then
    let x := s.extent ((off - 0x800) / 32)
    match (off - 0x800) / 8 % 4 with
    | 0 => n (x.valid.toNat * 2 ^ 63 + x.shared.toNat * 2 ^ 62 + x.port.toNat * 2 ^ 61 + x.wbase % 2 ^ 52)
    | 1 => n x.len
    | 2 => n x.dpa
    | _ => n (x.tag.toNat * 2 ^ 32 + x.st % 8)
  else if 0x1000 ≤ off && off < 0x1400 then Tab.get p.bindings ((off - 0x1000) / 8) 0
  else 0

/-- The Milden mailbox. -/
def barMailbox (off : Nat) : Bool := decide (0x200000 ≤ off) && decide (off < 0x201000)

/-- The mailbox and the pending-bit array: the spec gives their place and not their layout. -/
def barOpen (off : Nat) : Bool :=
  barMailbox off || (decide (0x308000 ≤ off) && decide (off < 0x308100))

/-- What the telemetry window reports, a kind and its numbers in each row (R11, R24, R203, R211, R272, R347, R382, R390 to
R392): failed banks and corrected errors, the cut of the tree caches, tree entries, refusals, energy charged, requests that no
memory answered, hints, migrations missed, notices, the pool error log, lines lost at the fabric. -/
def State.report (s : State) : List (List Nat) :=
  [[0, s.clock, s.mil.treeCut.toNat, s.port.unsupported, s.pool.migrMiss]]
  ++ s.cores.map (fun kv => 1 :: kv.1 :: kv.2.failed)
  ++ s.cores.flatMap (fun kv => kv.2.errs.map (fun e => [2, kv.1, e.1, e.2]))
  ++ s.mem.tree.map (fun kv => [3, kv.1, kv.2.loc.toNat, kv.2.gbase, kv.2.level, kv.2.up, kv.2.child.toNat, kv.2.state])
  ++ s.mem.tickets.map (fun kv => [4, kv.1, kv.2.refused])
  ++ s.regions.map (fun kv => [5, kv.2.rcb, kv.2.energy])
  ++ s.power.idle.map (fun kv => [6, kv.1, kv.2])
  ++ s.pool.hints.flatMap (fun kv => kv.2.map (fun x => match x with
    | .hint p n => [7, kv.1, p, n]
    | .sampled p n => [11, kv.1, p, n]))
  ++ [8 :: s.pool.notices] ++ s.pool.errlog.map (fun x => [9, x.1, x.2]) ++ [10 :: s.fab.lostLog]

def barTelemetry (off : Nat) : Bool := decide (0x100000 ≤ off) && decide (off < 0x200000)

def barTable (off : Nat) : Bool := decide (0x300000 ≤ off) && decide (off < 0x308000)

/-- HOST_READ: BAR0 registers are read 8 bytes wide and aligned; BAR2 reads package memory. -/
def execHostRead (bar off len : Nat) (how : HostRead) (s : State) : Host.Outcome State Fault Refusal :=
  if !s.port.up then .next s
  else if how.opt != .plain then .next s.unlisted
  else if bar = 2 then .next (if s.port.phase = 15 then s else s.hostMemRead off len how.cached)
  else if bar != 0 || len != 8 || off % 8 != 0 || decide (2 ^ 24 ≤ off) then .next (s.setPort { s.port with lastRead := [] })
  -- in recovery the Milden mailbox alone answers (R403)
  else if s.port.phase = 15 && !barMailbox off then .next (s.setPort { s.port with lastRead := [] })
  else if barOpen off then
    let (s, bs) := s.freeBytes 8
    .next (s.setPort { s.port with lastRead := bs })
  else if barTelemetry off then
    .next (s.setPort { s.port with lastRead := (List.range 8).map (fun i => Config.telemetryByte (off + i) s.report) })
  else if barTable off then
    .next (s.setPort { s.port with lastRead := leOf 8 (Tab.get s.port.msix ((off - 0x300000) / 8) 0).toNat })
  else .next (s.setPort { s.port with lastRead := leOf 8 (s.barRegister off).toNat })

/-- Free frames that the driver fills (R390): the ring of a tier and page size. -/
def State.fillFrames (s : State) (k : Nat) (v : DWord) : State :=
  if (k % 64 == 16 || k % 64 == 21 || k % 64 == 30) && decide (1 ≤ k / 64) && decide (k / 64 ≤ 3) then
    { s with mem := { s.mem with freeFrames := Tab.put s.mem.freeFrames k (Tab.get s.mem.freeFrames k [] ++ [v.toNat]) } }
  else s

/-- A write of a register that takes it whole. -/
def State.barPut (s : State) (off : Nat) (v : DWord) : State :=
  let p := s.port
  if off = 0x48 then s.setPort { p with ldrop := v.setWidth 32 }
  else if off = 0x100 then s.setPort { p with fdtb := v.toNat }
  else if off = 0x108 then s.setPort { p with ctxb := v.toNat }
  else if off = 0x110 then s.setPort { p with ctxn := fieldOf v 0 16 }
  else if off = 0x118 then s.setPort { p with farg := v }
  else if off = 0x208 then s.setPort { p with aopcap := v.setWidth 3 }
  else if 0x400 ≤ off && off < 0x480 then
    s.setPort { p with windows := Tab.put p.windows ((off - 0x400) / 8) (windowKeep ((off - 0x400) / 8) v) }
  else if 0x800 ≤ off && off < 0x1000 then
    let e := (off - 0x800) / 32
    match (off - 0x800) / 8 % 4 with
    | 1 => s.setExtent e { s.extent e with len := fieldOf v 0 12 }
    | 2 => s.setExtent e { s.extent e with dpa := fieldOf v 0 52 }
    | _ => s
  else if 0x1000 ≤ off && off < 0x1400 then
    s.setPort { p with bindings := Tab.put p.bindings ((off - 0x1000) / 8) (bindingKeep ((off - 0x1000) / 8) v) }
  else if 0x100000 ≤ off && off < 0x200000 then s.fillFrames ((off - 0x100000) / 8) v
  else if barTable off then s.setPort { p with msix := Tab.put p.msix ((off - 0x300000) / 8) v }
  else s

/-- REGISTER_WRITE: a host write to BAR0; a launch-window write that is not one message is counted in LDROP (R324, R380). -/
def execRegisterWrite (off width : Nat) (v : DWord) (s : State) : Host.Outcome State Fault Refusal :=
  if !s.barUp then .next s
  else if off < 0x40 then .next s.ldropped
  else if width != 8 || off % 8 != 0 then .next s
  else if off = 0x120 then s.fcmd v
  else if off = 0x128 then execLostClear v s
  else if 0x800 ≤ off && off < 0x1000 && (off - 0x800) % 32 = 0 then
    if v.getLsbD 63 then execPoolExtentMap ((off - 0x800) / 32) v s else execExtentRelease ((off - 0x800) / 32) v s
  else .next (s.barPut off v)

-- The owner of EXTERNAL lines, and the port itself (R386, R393).

/-- HOST_SNOOP: the owner takes a line and writes bytes of it; a pool that lost the line's data returns it with poison. -/
def execHostSnoop (line : Nat) (w : List (Nat × Byte)) (poison : Bool) (s : State) : Host.Outcome State Fault Refusal :=
  let p := s.extPort (line * 128)
  let m := (s.mem.extSnoop 0 p line).extSnoop 1 p line
  let ext := (w.filter (fun kv => decide (kv.1 < 128))).foldl (fun g kv => Memory.put g (extAddr p (line * 128 + kv.1)) kv.2) m.ext
  let m := { m with ext := ext }
  let m := { m with poison := if poison then (extMark line :: m.poison).eraseDups else m.poison }
  .next { s with mem := m }

/-- HOST_LINK_DOWN: the coherent lines held for the host, and the host's own copies, are dropped (R393). -/
def execHostLinkDown (s : State) : Host.Outcome State Fault Refusal :=
  let gone : Nat → Bool := fun k => (k / 2 ^ 45 == ioHolder 0 && s.extPort (k % 2 ^ 45 * 128) == 0) || k / 2 ^ 45 == hostHolder
  let far : Space × Nat → Bool := fun y => match y.1 with
    | .ext _ p => p == 0
    | _ => false
  let s := (s.setPort { s.port with up := false, cxl := false }).loseReads far cPOISON
  .next { s with mem := { s.mem with lines := s.mem.lines.filter (fun (kv : Nat × Line) => !gone kv.1) } }

/-- HOST_PORT_TRAINED: BAR0 answers and notices are sent (R393, R400). -/
def execHostPortTrained (cxl : Bool) (s : State) : Host.Outcome State Fault Refusal :=
  if s.port.phase < 3 then .next s else .next (s.setPort { s.port with up := true, cxl := cxl })

end Sys2Proof.Machine
end

