-- ==== Sys2Proof/Machine/Fabric.lean ====
section
/-! DEFINITION. The Weine fabric: ports, capability words, set-aside notices, requests of peers, teardowns and lost peers (R394
to R401). -/

namespace Sys2Proof.Machine

def State.setFab (s : State) (f : Fab) : State := { s with fab := f }

-- Ports (R395, R401).

/-- PORT_FENCE: the port leaves the plane list until the next device reset. Requests in flight are sent again on the remaining
planes, where each is performed once. -/
def execPortFence (p : Nat) (s : State) : Host.Outcome State Fault Refusal :=
  if 72 ≤ p then .next s
  else .next (s.setFab { s.fab with
    ports := s.fab.ports.filter (· != p), fenced := if s.fab.fenced.contains p then s.fab.fenced else s.fab.fenced ++ [p] })

/-- The fields of a capability word that pass (Table 23-9), but for RANK. -/
def capPass (p : Nat) (v : DWord) : Bool :=
  fieldOf v 56 8 == 1 && fieldOf v 40 7 == p && fieldOf v 37 3 == 0 && v.getLsbD 36
def capRank (v : DWord) : Nat := fieldOf v 47 9

/-- Ports whose words are accepted: RANK equals that of the lowest-numbered port whose other fields pass. -/
def acceptedPorts (words : Tab DWord) : List Nat :=
  let ok := words.filter (fun kv => capPass kv.1 kv.2)
  match ok with
  | [] => []
  | (_, v) :: _ => (ok.filter (fun kv => capRank kv.2 == capRank v)).map Prod.fst

/-- CAPABILITY_WORD: a trained port's word is checked while the Weine ports train (R401). A port whose fields fail is fenced, and
a fenced port stays so (R400); one whose RANK alone differs is fenced when the phase ends, when every word is known (log 87). -/
def execCapabilityWord (p : Nat) (v : DWord) (s : State) : Host.Outcome State Fault Refusal :=
  let f := s.fab
  if s.port.phase != 5 || decide (72 ≤ p) || f.fenced.contains p then .next s
  else
    let words := Tab.put f.words p v
    let fenced := if capPass p v then f.fenced else f.fenced ++ [p]
    let ports := (acceptedPorts words).filter (fun q => !fenced.contains q)
    let rank := match ports with
      | [] => f.frank
      | q :: _ => capRank (Tab.get words q 0)
    .next (s.setFab { f with
      words := words, ports := ports, fenced := fenced, frank := rank, rvalid := !ports.isEmpty })

-- Set-aside notices (R399).

/-- A set-aside queue orders and delays bulk flits for a rank: the machine keeps which ranks are set aside, and until when. -/
def execSetAsideNotice (rank us : Nat) (s : State) : Host.Outcome State Fault Refusal :=
  let sends := s.fab.ports.any (fun p => (Tab.get s.fab.words p 0).getLsbD 35)
  if !sends || us == 0 || decide (255 < us) then .next s
  else .next (s.setFab { s.fab with setAside := Tab.put s.fab.setAside rank (s.clock + us * 1400) })

def execSetAsideRelease (rank : Nat) (s : State) : Host.Outcome State Fault Refusal :=
  .next (s.setFab { s.fab with setAside := Tab.del s.fab.setAside rank })

def execSetAsideExpiry (rank : Nat) (s : State) : Host.Outcome State Fault Refusal :=
  match Tab.find s.fab.setAside rank with
  | some t => if t ≤ s.clock then execSetAsideRelease rank s else .next s
  | none => .next s

-- Requests of peers (R306, R396 to R398).

/-- Atomics as a request numbers them: the order of Table 15-5. -/
def atOpOf (n : Nat) : AtOp :=
  ([.add, .fadd, .min, .max, .and, .or, .xor, .swp, .cas, .cas] : List AtOp).getD n .add

def State.answered (s : State) (a : Option (List Byte)) : State := s.setFab { s.fab with answer := a, answerBad := false }

/-- The answer to a peer, whose requester raises POISON where a line is bad (R391). -/
def State.answeredWith (s : State) (bad : Bool) (bs : List Byte) : State :=
  s.setFab { s.fab with answer := some bs, answerBad := bad }

/-- A read joins the fabric tree of its lines. -/
def State.peerRead (s : State) (pa len : Nat) : State :=
  let pas := (List.range len).map (fun i => s.redirect (pa + i))
  let lns := (pas.map lineOf).eraseDups
  let bs := pas.map s.mem.homeByte
  let m := lns.foldl MemSys.hostSees s.mem
  { s with mem := { m with fabShare := (m.fabShare ++ lns).eraseDups } }.answeredWith (s.homePoisoned pas) bs

/-- A drained store is performed at home after the teardown. -/
def State.peerWrite (s : State) (pa : Nat) (bs : List Byte) : State :=
  let cells := (List.range bs.length).map (fun i => (s.redirect (pa + i), bs.getD i 0))
  let m := s.mem.storePkg s.clock noPort 4 0 true cells
  { s with mem := m.wroteBy 0 (cells.map (fun (c : Nat × Byte) => (Space.pkg, c.1))) }.answered (some [])

/-- An atomic is performed at home. -/
def State.peerAtomic (s : State) (op bytes : Nat) (mode : BitVec 40) (pa d d2 : Nat) : State :=
  let bad := s.homePoisoned [s.redirect pa]
  let (s, old) := s.rmw (headWho 0) 5 0 .pkg (s.redirect pa) bytes (fun old => (atOpOf op).apply bytes mode old d d2)
  s.answeredWith bad (leOf bytes old)

/-- The receiving region of a halo: the binding with the key (R396). -/
def State.boundLeaf (s : State) (key : Word) : Option (Nat × Region) :=
  match (List.range 64).find? (fun j =>
    (Tab.get s.port.bindings (2 * j) 0).getLsbD 63 && fieldOf (Tab.get s.port.bindings (2 * j + 1) 0) 0 32 == key.toNat) with
  | some j => s.byRcb (fieldOf (Tab.get s.port.bindings (2 * j) 0) 0 57)
  | none => none

/-- A halo write: it waits while the team is not placed; a refusal goes back to the sender. -/
def State.peerHalo (s : State) (key : Word) (team : Nat) (rows : List (Nat × List Byte)) (sig : Option (Nat × Nat)) : State :=
  match s.boundLeaf key with
  | none => s.answered none
  | some (rk, r) =>
    if decide (r.grid ≤ team) || r.kind % 2 == 0 then s.answered none
    else match s.team rk team with
      | none => s
      | some t =>
        if t.st == .retired then s.answered none
        else if t.st != .placed || t.pre then s
        else
          let beyond := rows.any (fun x => decide (r.allotBytes < x.1 + x.2.length))
            || (match sig with
              | some (o, _) => decide (r.allotBytes < o + 64)
              | none => false)
          let home := scrAddr t.core (t.idx * r.allotBytes)
          let count := (rows.map (fun x => x.2.length)).foldl (· + ·) 0
          let word := match sig with
            | some (o, _) => if count = 0 then some none else (s.signalAt rk (home + o)).map some
            | none => some none
          match beyond, word with
          | false, some word =>
            let cells := rows.flatMap (fun x => (List.range x.2.length).map (fun j => (home + x.1 + j, x.2.getD j 0)))
            let s' := { s with mem := s.mem.putScratch cells }
            match word, sig with
            | some w, some (_, gen) =>
              match s'.barLower w count gen with
              | (s', true) => s'.answered (some [])
              | (_, false) => s.answered none
            | _, _ => s'.answered (some [])
          | _, _ => s.answered none

/-- PEER_ACCESS_REQUEST. -/
def execPeerAccessRequest (rank : Nat) (req : PeerReq) (s : State) : Host.Outcome State Fault Refusal :=
  if !s.fab.rvalid || rank == s.fab.frank then .next s
  else match req with
  | .read pa len => .next (if s.presentAll pa len then s.peerRead pa len else s.answered none)
  | .write pa bs => .next (if s.presentAll pa bs.length then s.peerWrite pa bs else s.answered none)
  | .atomic op bytes mode pa d d2 =>
    let ok := decide (op ≤ 9) && (bytes == 4 || bytes == 8 || (bytes == 16 && op == 9)) && pa % bytes == 0 && s.presentAll pa bytes
    .next (if ok then s.peerAtomic op bytes mode pa d d2 else s.answered none)
  | .halo key team rows sig => .next (s.peerHalo key team rows sig)

-- Lines of peers.

/-- FABRIC_TEARDOWN: every copy of the granule of the peer's line, by the owner's split level, leaves this package; `w` is what
the owner then holds of the line (R397). -/
def execFabricTeardown (granule : PeerGranule) (w : List (Nat × Byte)) (s : State) : Host.Outcome State Fault Refusal :=
  let m := s.mem.dropPeer granule.line granule.level
  let peer := (w.filter (fun kv => decide (kv.1 < 128))).foldl (fun g kv => Memory.put g (granule.line * 128 + kv.1) kv.2) m.peer
  .next { s with mem := { m with peer := peer } }

/-- PEER_UNREACHABLE: loads in flight to the peer return zero with POISON, stores on their way to it, buffered ones too, are
dropped and logged; later accesses raise ACCESS (R394). -/
def execPeerUnreachable (rank : Nat) (s : State) : Host.Outcome State Fault Refusal :=
  let to_ : Wcb → Bool := fun w => w.line / 2 ^ 36 == rank
  let lost := s.mem.wcb.flatMap (fun kv => (kv.2.filter to_).flatMap (fun w => w.bytes.map (fun b => w.line * 128 + b.1)))
  let wcb := s.mem.wcb.map (fun kv => (kv.1, kv.2.filter (fun w => !to_ w)))
  let s := { s with mem := { s.mem with wcb := wcb } }.setFab { s.fab with
    unreachable := if s.fab.unreachable.contains rank then s.fab.unreachable else s.fab.unreachable ++ [rank] }
  let (s, held) := s.loseStores (fun sp a => sp == .peer && a / 2 ^ 43 == rank) cPOISON
  let s := s.loseReads (fun y => y.1 == .peer && y.2 / 2 ^ 36 == rank) cPOISON
  .next (s.setFab { s.fab with lostLog := s.fab.lostLog ++ lost ++ held.map Prod.fst })

end Sys2Proof.Machine
end

