-- ==== Sys2Proof/Machine/Crypto.lean ====
section
/-! DEFINITION. The functions of R402: SHA3-384 and SHAKE256 over Keccak, and Ed448 with an empty context (RFC 8032). Their
definitions are those standards' (PRESUMED, log 10): the spec names them and does not repeat them. -/

namespace Sys2Proof.Machine

-- Keccak.

/-- The round constants. -/
def keccakRounds : List DWord :=
  [0x0000000000000001, 0x0000000000008082, 0x800000000000808A, 0x8000000080008000, 0x000000000000808B, 0x0000000080000001,
   0x8000000080008081, 0x8000000000008009, 0x000000000000008A, 0x0000000000000088, 0x0000000080008009, 0x000000008000000A,
   0x000000008000808B, 0x800000000000008B, 0x8000000000008089, 0x8000000000008003, 0x8000000000008002, 0x8000000000000080,
   0x000000000000800A, 0x800000008000000A, 0x8000000080008081, 0x8000000000008080, 0x0000000080000001, 0x8000000080008008]

/-- The rotation of lane x + 5y. -/
def keccakTurns : List Nat :=
  [0, 1, 62, 28, 27, 36, 44, 6, 55, 20, 3, 10, 43, 25, 39, 41, 45, 15, 21, 8, 18, 2, 61, 56, 14]

/-- One round on the 25 lanes, lane x + 5y at that place of the list. -/
def keccakRound (a : List DWord) (rc : DWord) : List DWord :=
  let c := (List.range 5).map (fun x => (List.range 5).foldl (fun w y => w ^^^ a.getD (x + 5 * y) 0) 0)
  let d := (List.range 5).map (fun x => c.getD ((x + 4) % 5) 0 ^^^ (c.getD ((x + 1) % 5) 0).rotateLeft 1)
  let a := (List.range 25).map (fun i => a.getD i 0 ^^^ d.getD (i % 5) 0)
  let b := (List.range 25).map (fun j =>
    let i := (j % 5 + 3 * (j / 5)) % 5 + 5 * (j % 5)
    (a.getD i 0).rotateLeft (keccakTurns.getD i 0))
  (List.range 25).map (fun i =>
    let at_ : Nat → DWord := fun k => b.getD ((i + k) % 5 + 5 * (i / 5)) 0
    (b.getD i 0 ^^^ (~~~(at_ 1) &&& at_ 2)) ^^^ (if i = 0 then rc else 0))

def keccak (a : List DWord) : List DWord := keccakRounds.foldl keccakRound a

/-- A message with its padding: a multiple of `rate` bytes. -/
def keccakPad (rate : Nat) (tail : Byte) (m : List Byte) : List Byte :=
  let z := rate - m.length % rate - 1
  if z = 0 then m ++ [tail ||| 0x80] else m ++ tail :: List.replicate (z - 1) 0 ++ [0x80]

/-- The sponge, for an output within one rate. -/
def sponge (rate : Nat) (tail : Byte) (out : Nat) (m : List Byte) : List Byte :=
  let bs := keccakPad rate tail m
  let a := (List.range (bs.length / rate)).foldl (fun a k =>
    let blk := (bs.drop (rate * k)).take rate
    keccak ((List.range 25).map (fun i => a.getD i 0 ^^^ BitVec.ofNat 64 (leNat ((blk.drop (8 * i)).take 8)))))
    (List.replicate 25 (0 : DWord))
  (a.flatMap (fun w => leOf 8 w.toNat)).take out

def sha3_384 (m : List Byte) : List Byte := sponge 104 0x06 48 m

/-- SHAKE256 with `n` bytes of output, at most 136. -/
def shake256 (n : Nat) (m : List Byte) : List Byte := sponge 136 0x1F n m

-- Ed448.

def edP : Nat := 2 ^ 448 - 2 ^ 224 - 1
def edL : Nat := 2 ^ 446 - 13818066809895115352007386748515426880336692474882178609894547503885

def powMod (b e m : Nat) : Nat → Nat
  | 0 => 1 % m
  | n + 1 =>
    let h := powMod (b * b % m) (e / 2) m n
    if e % 2 = 1 then b * h % m else h

/-- A point in projective coordinates. -/
structure EdPoint where
  x : Nat
  y : Nat
  z : Nat
  deriving DecidableEq, Repr

def EdPoint.zero : EdPoint := ⟨0, 1, 1⟩

def EdPoint.base : EdPoint :=
  ⟨224580040295924300187604334099896036246789641632564134246125461686950415467406032909029192869357953282578032075146446173674602635247710,
   298819210078481492676017930443930673437544040154080242095928241372331506189835876003536878655418784733982303233503462500531545062832660,
   1⟩

/-- The sum on x² + y² = 1 − 39081 x² y². -/
def EdPoint.add (a b : EdPoint) : EdPoint :=
  let p := edP
  let t := a.z * b.z % p
  let s := t * t % p
  let c := a.x * b.x % p
  let d := a.y * b.y % p
  let e := (p - 39081 * c % p * d % p) % p
  let f := (s + p - e) % p
  let g := (s + e) % p
  let h := (a.x + a.y) * (b.x + b.y) % p
  ⟨t * f % p * ((h + 2 * p - c - d) % p) % p, t * g % p * ((d + p - c) % p) % p, f * g % p⟩

/-- `k` times a point, `k` below 2 to the `n`. -/
def EdPoint.mul (a : EdPoint) (k : Nat) : Nat → EdPoint
  | 0 => .zero
  | n + 1 =>
    let h := EdPoint.mul (a.add a) (k / 2) n
    if k % 2 = 1 then a.add h else h

def EdPoint.same (a b : EdPoint) : Bool := a.x * b.z % edP == b.x * a.z % edP && a.y * b.z % edP == b.y * a.z % edP

/-- The 57 bytes of a point: y, and the low bit of x on top. -/
def EdPoint.bytes (a : EdPoint) : List Byte :=
  let i := powMod a.z (edP - 2) edP 448
  leOf 57 (a.y * i % edP + a.x * i % edP % 2 * 2 ^ 455)

/-- The point of 57 bytes, if there is one. -/
def EdPoint.ofBytes (bs : List Byte) : Option EdPoint :=
  let p := edP
  let v := leNat bs
  let y := v % 2 ^ 455
  let sign := v / 2 ^ 455
  if bs.length != 57 || decide (p ≤ y) then none
  else
    let u := (y * y + p - 1) % p
    let w := (p - 39081 * (y * y % p) % p + p - 1) % p
    let u3 := u * u % p * u % p
    let x := u3 * w % p * powMod (u3 * u % p * u % p * w % p * w % p * w % p) ((p - 3) / 4) p 448 % p
    if w * (x * x % p) % p != u || (x == 0 && sign == 1) then none
    else some ⟨if x % 2 = sign then x else p - x, y, 1⟩

/-- The prefix of every hash: no pre-hash, an empty context. -/
def edDom : List Byte := [0x53, 0x69, 0x67, 0x45, 0x64, 0x34, 0x34, 0x38, 0, 0]

/-- The scalar and the prefix of a secret key. -/
def edSecret (key : List Byte) : Nat × List Byte :=
  let h := shake256 114 key
  let s := leNat (h.take 56)
  (s % 2 ^ 447 - s % 4 + 2 ^ 447, h.drop 57)

def ed448Public (key : List Byte) : List Byte := (EdPoint.base.mul (edSecret key).1 448).bytes

/-- Ed448 signing: secret key, message (R402). -/
def ed448Sign (key m : List Byte) : List Byte :=
  let (s, pre) := edSecret key
  let r := leNat (shake256 114 (edDom ++ pre ++ m)) % edL
  let rb := (EdPoint.base.mul r 448).bytes
  let k := leNat (shake256 114 (edDom ++ rb ++ ed448Public key ++ m)) % edL
  rb ++ leOf 57 ((r + k * s) % edL)

/-- Ed448 verification: public key, message, signature (R402). -/
def ed448Verify (key m sig : List Byte) : Bool :=
  match EdPoint.ofBytes key, EdPoint.ofBytes (sig.take 57) with
  | some a, some r =>
    let s := leNat (sig.drop 57)
    let k := leNat (shake256 114 (edDom ++ sig.take 57 ++ key ++ m)) % edL
    let four : EdPoint → EdPoint := fun p => (p.add p).add (p.add p)
    sig.length == 114 && decide (s < edL) && (four (EdPoint.base.mul s 448)).same (four (r.add (a.mul k 448)))
  | _, _ => false

end Sys2Proof.Machine
end

