-- ==== Sys2Proof/Machine/Milden.lean ====
section
/-! DEFINITION. Milden and the life of the device: failed banks and soft errors (R15, R203), cut tree caches (R11), reset and
bring-up (R400), secure boot and updates (R402 to R404, R406), the SPDM responder (R405). -/

namespace Sys2Proof.Machine

def State.setMil (s : State) (m : Milden) : State := { s with mil := m }

-- The unified store (R15, R203).

def State.setCore (s : State) (core : Nat) (c : CoreSt) : State := { s with cores := Tab.put s.cores core c }

/-- BANK_FAILURE_MARK: banks 0 to 15 hold data, 16 and 17 the code. -/
def execBankFailureMark (core bank : Nat) (s : State) : Host.Outcome State Fault Refusal :=
  let c := s.coreSt core
  if decide (3072 ≤ core) || decide (18 ≤ bank) || c.failed.contains bank then .next s
  else .next (s.setCore core { c with failed := c.failed ++ [bank] })

/-- Corrected errors of a bank within 2^20 cc. -/
def CoreSt.recent (c : CoreSt) (bank clock : Nat) : Nat :=
  (c.errs.filter (fun e => e.1 == bank && decide (clock < e.2 + 2 ^ 20))).length

/-- An error that is detected and not corrected: the access that meets it raises POISON. -/
def State.storeError (s : State) (core : Nat) (p : StorePlace) : State :=
  match p with
  | .scratch off => { s with mem := { s.mem with poison := (scrMark (scrAddr core off) :: s.mem.poison).eraseDups } }
  | .line ln =>
    -- the core's own L1 share, or its share of the fused L1 (R204)
    let h := if (s.coreSt core).fused then fusedHolder (core / 96) else core
    match s.mem.line h ln with
    | some l =>
      if shareCore h ln = core then { s with mem := { s.mem with lines := Tab.put s.mem.lines (holderKey h ln) { l with bad := true } } }
      else s
    | none => s
  | .stack id i =>
    match s.crew id with
    | some c =>
      -- entries of spilled units are not in the store
      if s.coreOf c != core || decide (c.stack.length - c.ring.entries ≤ i) then s
      else s.setCrew id { c with stack := c.stack.modify i (fun e => { e with bad := true }) }
    | none => s
  | .link id i =>
    match s.crew id with
    | some c =>
      -- records of spilled units are not in the store
      let us := falling c.records
      if s.coreOf c != core || decide (us.length - c.ring.links ≤ i) then s
      else
        let hit : LinkRec → LinkRec := fun r => if some r.uid == us[i]? then { r with bad := true } else r
        s.setCrew id { c with
          s0 := { c.s0 with chain := c.s0.chain.map hit }, s1 := { c.s1 with chain := c.s1.chain.map hit }
          stack := c.stack.map (fun e => { e with chain := e.chain.map hit }) }
    | none => s
  | .register id reg =>
    match s.crew id with
    | some c =>
      if s.coreOf c != core || decide (1024 ≤ reg) then s
      else
        let f : Regs → Regs := fun r => { r with errs := (reg :: r.errs).eraseDups }
        s.setCrew id { c with com := f c.com, heat := c.heat.map (fun h => { h with wrk := f h.wrk }) }
    | none => s

/-- SOFT_ERROR: corrected and counted, or, while another bank is failed, left for the access that meets it. The sixteenth
corrected error of a bank within 2^20 cc marks it failed. -/
def execSoftError (core bank : Nat) (place : StorePlace) (s : State) : Host.Outcome State Fault Refusal :=
  let c := s.coreSt core
  let wrong := match place with
    | .scratch off => decide (bank < 16) && off / 4 % 16 != bank
    | _ => false
  if decide (3072 ≤ core) || decide (18 ≤ bank) || wrong || c.failed.head? == some bank then .next s
  else if c.failed.isEmpty then
    let c := { c with errs := (bank, s.clock) :: c.errs }
    .next (s.setCore core (if 16 ≤ c.recent bank s.clock then { c with failed := [bank] } else c))
  else .next (s.storeError core place)

-- Tree caches (R11).

/-- TREE_CACHE_CUT: one set of 2 ways in every cache, which then gives up the entries beyond them (`State.tidy`). Only while
no region is resident. -/
def execTreeCacheCut (s : State) : Host.Outcome State Fault Refusal :=
  if s.teams.any (fun kv => kv.2.st == .placed) then .next s
  else .next (s.setMil { s.mil with treeCut := true })

-- Images and keys (R403, R404, R406).

/-- The check of an image: its key is the fused one, its signature holds, its version is not below the minimum. -/
def Milden.imageOk (m : Milden) (image sig : List Byte) : Bool :=
  shake256 64 (Config.imageKey image) == m.keyDigest && ed448Verify (Config.imageKey image) image sig
    && decide (m.minVersion ≤ Config.imageVersion image)

/-- The image of the boot flash, when it passes. -/
def Milden.fromFlash (m : Milden) (which : Nat) : Option (List Byte) :=
  match Tab.find m.flash which with
  | some (i, g) => if m.imageOk i g then some i else none
  | none => none

/-- A measurement's content (Table 23-10). -/
def Milden.content (m : Milden) (index : Nat) : List Byte :=
  match index with
  | 1 => m.bootRom
  | 2 => Tab.get m.running 0 []
  | 3 => Tab.get m.running 1 []
  | 4 => Tab.get m.running 2 []
  | 5 => Config.fusedConfig m.minVersion Config.cmForm Config.stepping
  | _ => [BitVec.ofNat 8 m.debug]

/-- A measurement block: a SHA3-384 digest, and for block 6 the state itself. -/
def Milden.measure (m : Milden) (index : Nat) : List Byte :=
  if index = 6 then m.content 6 else sha3_384 (m.content index)

/-- What the alias key is derived from: the SHAKE256 digest of measurements 1 to 5. -/
def Milden.identity (m : Milden) : List Byte := shake256 64 ((List.range 5).flatMap (fun i => m.measure (i + 1)))

/-- A boot derives the alias key from what is then measured. -/
def Milden.boot (m : Milden) : Milden := { m with alias_ := Config.aliasSecret Config.deviceSecret m.identity }

/-- The alias certificate, signed with the DevID key. -/
def Milden.aliasCert (m : Milden) : List Byte :=
  let body := Config.aliasBody (ed448Public m.alias_)
  body ++ ed448Sign (Config.devIdKey Config.deviceSecret) body

/-- The chain of slot 0: Kilesque root CA, device CA, DevID, alias. -/
def Milden.chain (m : Milden) : List Byte := Config.certChain ++ m.aliasCert

/-- Images put to use, and the alias key that follows from them; none where one fails its check. -/
def State.loadImages (s : State) (which : List Nat) : Option State :=
  (which.foldl (fun o k => o.bind (fun s => (s.mil.fromFlash k).map (fun i =>
    s.setMil { s.mil with running := Tab.put s.mil.running k i }))) (some s)).map (fun s => s.setMil s.mil.boot)

/-- FIRMWARE_UPDATE: 0 Milden firmware, 1 I/O-die microcode, 2 C-die microcode. -/
def execFirmwareUpdate (which : Nat) (image : List Byte) (sig : List Byte) (s : State) : Host.Outcome State Fault Refusal :=
  let m := s.mil
  if !s.port.up || decide (3 ≤ which) then .next s
  else if m.imageOk image sig then
    .next (s.setMil { m with flash := Tab.put m.flash which (image, sig), mailFail := false })
  else .next (s.setMil { m with mailFail := true })

/-- SECURITY_VERSION_RAISE: signed with the fused key; the minimum never falls. -/
def execSecurityVersionRaise (version : Nat) (sig : List Byte) (s : State) : Host.Outcome State Fault Refusal :=
  let m := s.mil
  let key := Config.imageKey (Tab.get m.running 0 [])
  if decide (m.minVersion < version) && shake256 64 key == m.keyDigest
      && ed448Verify key (Config.raiseMessage version) sig then
    .next (s.setMil { m with minVersion := version })
  else .next s

def State.toPhase (s : State) (n : Nat) : State := s.setPort { s.port with phase := n, phaseAt := s.clock }

/-- Recovery: only the Milden mailbox answers. -/
def State.recover (s : State) : State := { s with port := { s.port with phase := 15, ready := false } }

/-- MILDEN_RESET: the firmware of the flash runs, with the alias key that follows from it; resident work goes on. -/
def execMildenReset (s : State) : Host.Outcome State Fault Refusal :=
  let s := s.setMil { s.mil with transcript := [], answers := [], mailFail := false }
  match s.loadImages [0] with
  | some s => .next s
  | none => .next s.recover

-- Reset and bring-up (R400).

/-- What a device reset keeps: the turns, time, the storage outside the package, the fused and flashed values. -/
def State.afterReset (s : State) : State :=
  let r := State.reset
  { r with
    turns := s.turns, clock := s.clock, freeCount := s.freeCount, uid := s.uid
    mem := { r.mem with ext := s.mem.ext, peer := s.mem.peer }
    pool := { r.pool with dev := s.pool.dev }
    port := { r.port with phaseAt := s.clock }
    mil := { r.mil with
      flash := s.mil.flash, bootRom := s.mil.bootRom, keyDigest := s.mil.keyDigest, minVersion := s.mil.minVersion
      debug := s.mil.debug } }

/-- Dirty bytes of coherent lines that the reset finds, and extents that are mapped, go back to their owners' storage. -/
def State.beforeReset (s : State) : State :=
  let xs := (s.pool.exts.filter (fun kv => kv.2.valid && decide (kv.2.st ≤ 2))).map Prod.snd
  xs.foldl (fun s x => (s.flushExtent x).hideExtent x) s

/-- DEVICE_RESET: the boot ROM checks the firmware and, when the check fails, the device enters recovery. -/
def execDeviceReset (s : State) : Host.Outcome State Fault Refusal :=
  let s := s.beforeReset.afterReset
  match s.loadImages [0] with
  | some s => .next s
  | none => .next s.recover

/-- Links of a phase, as `Port.failed` numbers them. -/
def phaseLinks (phase : Nat) : Nat → Bool := fun link =>
  match phase with
  | 2 => decide (link < 32)
  | 3 => link == 32
  | 4 => link == 33 || link == 34
  | 5 => decide (64 ≤ link) && decide (link < 136)
  | _ => false

/-- LINK_TRAINING_TIMEOUT: 100 ms after its phase began, a link that has not trained has failed. -/
def execLinkTrainingTimeout (link : Nat) (s : State) : Host.Outcome State Fault Refusal :=
  let done := (link == 32 && s.port.up) || (decide (64 ≤ link) && s.fab.ports.contains (link - 64))
  if !phaseLinks s.port.phase link || done || decide (s.clock < s.port.phaseAt + 140000000) || s.port.failed.contains link then .next s
  else
    let s := s.setPort { s.port with failed := s.port.failed ++ [link] }
    if 64 ≤ link then execPortFence (link - 64) s else .next s

/-- Bit `k` set for every link `base + k` that has not failed. -/
def State.trainedMask (s : State) (base : Nat) : BitVec 16 :=
  (List.range 16).foldl (fun m k => if s.port.failed.contains (base + k) then m else m ||| (1#16 <<< k)) 0

/-- PHASE_ADVANCE: the current phase of Table 23-7 ends; every link of it that has not failed has trained. -/
def execPhaseAdvance (s : State) : Host.Outcome State Fault Refusal :=
  match s.port.phase with
  | 0 =>
    match s.loadImages [0] with
    | some s => .next (s.toPhase 1)
    | none => .next s.recover
  | 1 =>
    match s.loadImages [1, 2] with
    | some s => .next (s.toPhase 2)
    | none => .next s.recover
  | 2 =>
    let hbm := s.trainedMask 0
    let s := s.setPort { s.port with hbmok := hbm, ddrok := if Config.cmForm then s.trainedMask 16 else 0 }
    .next (if hbm = BitVec.allOnes 16 then s.toPhase 3 else s)
  | 3 => .next (if s.port.up || s.port.failed.contains 32 then s.toPhase 4 else s)
  | 4 =>
    .next ((s.setPool { s.pool with trainedA := !s.port.failed.contains 33, trainedB := !s.port.failed.contains 34 }).toPhase 5)
  | 5 =>
    let f := s.fab
    let rest := (List.range 72).filter (fun p => !f.ports.contains p && !f.fenced.contains p)
    let s := s.setFab { f with fenced := f.fenced ++ rest }
    .next ((s.setPort { s.port with ready := true }).toPhase 6)
  | _ => .next s

-- SPDM (R402, R405).

/-- A request and its answer join the transcript; the mailbox answers while the host port is up, and not in recovery (R403). -/
def State.spdm (s : State) (code : Nat) (ops : List Byte) (a : List Byte → SpdmAnswer) : State :=
  if !s.barUp then s
  else
    let t := s.mil.transcript ++ Config.spdmBytes code ops
    s.setMil { s.mil with transcript := t, answers := a t :: s.mil.answers }

/-- A signature with the alias key over the SHA3-384 digest of the transcript. -/
def Milden.sign (m : Milden) (transcript : List Byte) : List Byte := ed448Sign m.alias_ (sha3_384 transcript)

def execGetVersion (s : State) : Host.Outcome State Fault Refusal :=
  .next ((s.setMil { s.mil with transcript := [] }).spdm 0x84 [] (fun _ => .version [0x12, 0x13]))

def execGetCapabilities (s : State) : Host.Outcome State Fault Refusal :=
  .next (s.spdm 0xE1 [] (fun _ => .capabilities true true true))

/-- A negotiation that offers neither algorithm is an invalid request. -/
def execNegotiateAlgorithms (eddsa sha3 : Bool) (s : State) : Host.Outcome State Fault Refusal :=
  .next (s.spdm 0xE3 [BitVec.ofNat 8 (eddsa.toNat + 2 * sha3.toNat)] (fun _ =>
    if eddsa || sha3 then .algorithms eddsa sha3 else .invalidRequest))

def execGetDigests (s : State) : Host.Outcome State Fault Refusal :=
  .next (s.spdm 0x81 [] (fun _ => .digests [sha3_384 s.mil.chain]))

/-- A part of the chain of slot 0, and how much of it is left. -/
def execGetCertificate (slot off len : Nat) (s : State) : Host.Outcome State Fault Refusal :=
  let c := s.mil.chain
  .next (s.spdm 0x82 (leOf 4 slot ++ leOf 4 off ++ leOf 4 len) (fun _ =>
    if slot != 0 || decide (c.length ≤ off) then .invalidRequest
    else .certificate ((c.drop off).take len) (c.length - (off + ((c.drop off).take len).length))))

def State.spdmNonce (s : State) : State × List Byte := ({ s with freeCount := s.freeCount + 1 }, Config.freeNonce s.freeCount)

def execChallenge (nonce : List Byte) (s : State) : Host.Outcome State Fault Refusal :=
  let (s, mine) := s.spdmNonce
  let d := sha3_384 s.mil.chain
  .next (s.spdm 0x83 nonce (fun t => .challengeAuth d mine (s.mil.sign (t ++ Config.spdmBytes 0x03 (d ++ mine)))))

/-- Index 0 asks for the number of blocks, 255 for all of them, 1 to 6 for one. -/
def execGetMeasurements (index : Nat) (nonce : List Byte) (s : State) : Host.Outcome State Fault Refusal :=
  let (s, mine) := s.spdmNonce
  let ix := if index = 255 then [1, 2, 3, 4, 5, 6] else if index = 0 then [] else [index]
  let bs := ix.map (fun i => (i, s.mil.measure i))
  .next (s.spdm 0xE0 (leOf 2 index ++ nonce) (fun t =>
    if decide (6 < index) && index != 255 then .invalidRequest
    else .measurements 6 bs mine (s.mil.sign (t ++ Config.spdmBytes 0x60 (bs.flatMap Prod.snd ++ mine)))))

/-- Every other request: ERROR with UnsupportedRequest. -/
def execUnsupportedRequest (code : Nat) (s : State) : Host.Outcome State Fault Refusal :=
  .next (s.spdm code [] (fun _ => .unsupportedRequest code))

end Sys2Proof.Machine
end

