-- ==== Sys2Proof/Machine/Uniform.lean ====
section
/-! DEFINITION. Uniform instructions, special values, moves between lanes and uniforms, and predicates (R157 to R166). -/

namespace Sys2Proof.Machine

-- Uniform operations.

/-- A uniform result from the uniform registers and Signed (R157, R158). -/
abbrev UniOp := (Nat → DWord) → Bool → DWord

/-- A word that writes one uniform register, in a crew and in an engine context. -/
def uniWord (d : BitVec 5) (op : UniOp) (s : State) : Host.Outcome State Fault Refusal :=
  s.sharedWord true
    (regEff 0 heldNone (fun c h =>
      match c.check h [] [] [nameS d] true true with
      | .error e => .error e
      | .ok () => .ok ⟨[.s d.toNat (op h.wrk.rdS (modeSgn h.wrk.mode))], 0, none⟩))
    kindAll true
    (ownEff (fun e => (e.setS d.toNat (op e.rdS (modeSgn e.mode)))))

/-- A two-source uniform operation. -/
def uniBin (o : Op3) (f : Bool → DWord → DWord → DWord) (s : State) : Host.Outcome State Fault Refusal :=
  uniWord o.d (fun r sgn => f sgn (r o.a.toNat) (r o.b.toNat)) s

def uniUn (o : Op2) (f : DWord → DWord) (s : State) : Host.Outcome State Fault Refusal :=
  uniWord o.d (fun r _ => f (r o.a.toNat)) s

def execSadd (o : Op3) (s : State) : Host.Outcome State Fault Refusal := uniBin o (fun _ a b => a + b) s
def execSsub (o : Op3) (s : State) : Host.Outcome State Fault Refusal := uniBin o (fun _ a b => a - b) s
def execSmul (o : Op3) (s : State) : Host.Outcome State Fault Refusal := uniBin o (fun _ a b => a * b) s
def execSmulh (o : Op3) (s : State) : Host.Outcome State Fault Refusal :=
  uniBin o (fun sgn a b =>
    BitVec.ofNat 64 (wrapInt 64 (intVal 64 sgn a.toNat * intVal 64 sgn b.toNat / (2 ^ 64 : Nat)))) s
def execSand (o : Op3) (s : State) : Host.Outcome State Fault Refusal := uniBin o (fun _ a b => a &&& b) s
def execSor (o : Op3) (s : State) : Host.Outcome State Fault Refusal := uniBin o (fun _ a b => a ||| b) s
def execSxor (o : Op3) (s : State) : Host.Outcome State Fault Refusal := uniBin o (fun _ a b => a ^^^ b) s
def execSshl (o : Op3) (s : State) : Host.Outcome State Fault Refusal :=
  uniBin o (fun _ a b => if 64 ≤ b.toNat then 0 else a <<< b.toNat) s
def execSshr (o : Op3) (s : State) : Host.Outcome State Fault Refusal :=
  uniBin o (fun _ a b => if 64 ≤ b.toNat then 0 else a >>> b.toNat) s
def execSsar (o : Op3) (s : State) : Host.Outcome State Fault Refusal :=
  uniBin o (fun _ a b => a.sshiftRight (min 64 b.toNat)) s
def execSmov (o : Op2) (s : State) : Host.Outcome State Fault Refusal := uniUn o id s
def execSbfx (o : Op3) (s : State) : Host.Outcome State Fault Refusal :=
  uniBin o (fun sgn a b => BitVec.ofNat 64 (bfxElem 64 sgn a.toNat (b.toNat % 2 ^ 16))) s
def execSpopc (o : Op2) (s : State) : Host.Outcome State Fault Refusal :=
  uniUn o (fun a => BitVec.ofNat 64 (popcount 64 a.toNat)) s

/-- SSEL by the guard of the lowest active lane, or the context's guard bit (R160). -/
def execSsel (o : Op3) (s : State) : Host.Outcome State Fault Refusal :=
  s.sharedWord true
    (regEff 0 heldNone (fun c h =>
      match c.check h [] [] [nameS o.d] true true with
      | .error e => .error e
      | .ok () =>
        let g := h.wrk.guard.getLsbD (lowest (c.active h))
        .ok ⟨[.s o.d.toNat (if g then h.wrk.rdS o.a.toNat else h.wrk.rdS o.b.toNat)], 0, none⟩))
    kindAll true
    (ownEff (fun e => (e.setS o.d.toNat (if e.guard then e.rdS o.a.toNat else e.rdS o.b.toNat))))

/-- SCMP: every active lane of the slot whatever the guard, or the context's bit (R159). -/
def execScmp (cc : Cond) (o : Op3) (s : State) : Host.Outcome State Fault Refusal :=
  let holds : (Nat → DWord) → Bool → Bool := fun r sgn =>
    condHolds cc (intVal 64 sgn (r o.a.toNat).toNat) (intVal 64 sgn (r o.b.toNat).toNat)
  s.sharedWord (Instr.wf (.scmp cc o))
    (regEff 0 heldNone (fun c h =>
      match c.check h [] [] [nameP o.d] true true with
      | .error e => .error e
      | .ok () =>
        .ok ⟨[.p o.d.toNat (c.active h) (if holds h.wrk.rdS (modeSgn h.wrk.mode) then BitVec.allOnes 32 else 0)], 0, none⟩))
    kindAll (Instr.wf (.scmp cc o))
    (ownEff (fun e => .ok (e.putP o.d.toNat (holds e.rdS (modeSgn e.mode)))))

def execSmovi (d : BitVec 5) (i : BitVec 20) (s : State) : Host.Outcome State Fault Refusal :=
  uniWord d (fun _ _ => i.signExtend 64) s
def execSmovh (d : BitVec 5) (i : BitVec 20) (s : State) : Host.Outcome State Fault Refusal :=
  uniWord d (fun r _ => (i.signExtend 64 <<< 12) ||| (r d.toNat &&& 0xFFF)) s

-- Special values (R162, R163, Table 9-8).

/-- The scratch address, SEL 0x00 form, of a team's allotment (R200). -/
def State.scrb (s : State) (rk team : Nat) : Nat :=
  match s.region rk, s.team rk team with
  | some r, some t => t.idx * r.tscr * 1024
  | _, _ => 0

/-- A crew's uniform special value. -/
def State.special (s : State) (c : Crew) (h : Heat) (sel : Nat) : Option DWord :=
  let core := s.coreOf c
  let nat : Nat → Option DWord := fun n => some (BitVec.ofNat 64 n)
  let rg : (Region → Nat) → Option DWord := fun f => nat (match s.region c.rk with
    | some r => f r
    | none => 0)
  match sel with
  | 0x00 => rg (fun r => c.team % r.gx)
  | 0x01 => rg (fun r => c.team / r.gx % r.gy)
  | 0x02 => rg (fun r => c.team / (r.gx * r.gy))
  | 0x03 => nat c.team
  | 0x04 => nat c.no
  | 0x05 => rg Region.crews
  | 0x06 => rg Region.gx
  | 0x07 => rg Region.gy
  | 0x08 => rg Region.gz
  | 0x09 => nat core
  | 0x0A => nat (core / 96)
  | 0x0B => nat (core % 96 / 16)
  | 0x0C => nat h.slot
  | 0x0D => nat h.base
  | 0x0E => nat (c.slot h.slot).chain.length
  | 0x0F => some ((c.active h).setWidth 64)
  | 0x10 => some ((c.slot (1 - h.slot)).mask.setWidth 64)
  | 0x11 => some ((c.launched &&& ~~~c.exited).setWidth 64)
  | 0x12 => rg (fun r => r.rcb)
  | 0x13 => rg (fun r => r.pri)
  | 0x14 => rg (fun r => r.fdom)
  | 0x15 => nat s.clock
  | 0x16 => nat (s.coreSt core).grid.isSome.toNat
  | 0x17 => some (h.wrk.mode.setWidth 64)
  | 0x18 => some (h.wrk.asw.setWidth 64)
  | 0x19 => some h.wrk.tretpc
  | 0x1A => some h.wrk.tretctl
  | 0x1B => nat c.trap.cause
  | 0x1C => nat c.trap.info
  | 0x1D => rg Region.lanes
  | 0x1E => nat (s.scrb c.rk c.team)
  | 0x1F => rg (fun r => r.tscr * 1024)
  | _ => none

/-- A context's special value: CLUSTER, CLOCK and MODE alone; a Tailrace context, which has no cluster (R416), reads a free
value for CLUSTER. -/
def State.engSpecial (s : State) (k : Nat) (e : Eng) (sel : Nat) : Option DWord :=
  match sel with
  | 0x0A => if engKind k = 2 then some (Config.freeDWord s.freeCount) else some (BitVec.ofNat 64 (engUnit k))
  | 0x15 => some (BitVec.ofNat 64 s.clock)
  | 0x17 => some (e.mode.setWidth 64)
  | _ => none

/-- SRD; a write of a lane-wise register takes vD whatever its tag (log 65). -/
def srdEff (d : BitVec 5) (k : BitVec 2) (sel : BitVec 8) : Eff := fun s id c h =>
  let u := h.wrk.rdS d.toNat
  let kv := h.key d.toNat
  let put : Nat → Word → Regs → Except Stop (State × Flags) := fun n m r =>
    .ok (s.setCrew id { c with heat := some { h with wrk := r, en := Tab.put h.en n (h.enables n ||| m) } }, 0)
  let all := BitVec.allOnes 32
  match k.toNat with
  | 0 =>
    match s.special c h sel.toNat with
    | none => .error stopIllegal
    | some x => regEff 0 heldNone (fun c h =>
        match c.check h [] [] [nameS d] true true with
        | .error e => .error e
        | .ok () => .ok ⟨[.s d.toNat x], 0, none⟩) s id c h
  | 1 =>
    if sel = 0x80 || sel = 0x81 then
      regEff 0 heldNone (fun c h =>
        match c.check h [] [kv] [] true true with
        | .error e => .error e
        | .ok () =>
          .ok ⟨[.v kv (c.lanes h) (if sel = 0x80 then lanesOf (BitVec.ofNat 32) else h.wrk.lfsr) fmtINT32], 0, none⟩) s id c h
    else .error stopIllegal
  | 2 =>
    if sel = 0x18 then put 9000 all { h.wrk with asw := u.setWidth 16 &&& 0x3FF }
    else if sel = 0x19 then put 9002 all { h.wrk with tretpc := u }
    else if sel = 0x1A then put 9003 all { h.wrk with tretctl := u &&& 0x1F01 }
    else .error stopIllegal
  | _ =>
    if sel = 0x81 then
      match c.check h [kv] [] [] true true with
      | .error e => .error e
      | .ok () =>
        put 9001 (c.lanes h) { h.wrk with lfsr := mergeLanes (c.lanes h) h.wrk.lfsr (lanesOf (fun l => seedOf (lane (h.wrk.rdV kv) l))) }
    else .error stopIllegal

def execSrd (d : BitVec 5) (k : BitVec 2) (sel : BitVec 8) (s : State) : Host.Outcome State Fault Refusal :=
  s.sharedWord true (srdEff d k sel) kindAll (k == 0)
    (fun s key e =>
      match s.engSpecial key e sel.toNat with
      | none => .error stopIllegal
      | some x => match e.setS d.toNat x with
        | .ok e' => .ok ({ s with freeCount := s.freeCount + 1 }.setEng key e')
        | .error st => .error st)

-- Between lanes and uniforms.

/-- BCAST (R164). -/
def execBcast (d a : BitVec 5) (e : BitVec 3) (s : State) : Host.Outcome State Fault Refusal :=
  s.crewWord (Instr.wf (.bcast d a e)) (regEff 0 heldNone (fun c h =>
    let kd := h.keys d e
    match c.check h [] kd [] true true with
    | .error x => .error x
    | .ok () =>
      let v := (h.wrk.rdS a.toNat).setWidth 32
      .ok ⟨kd.map (fun k => .v k (c.lanes h) (lanesOf (fun _ => v)) fmtBITS), 0, none⟩))

/-- PICK (R165): the lane's state and guard do not matter; a lane whose slice is not allocated gives 0. -/
def execPick (o : OpPick) (s : State) : Host.Outcome State Fault Refusal :=
  s.crewWord true (regEff 0 (fun h => if o.h then [h.key o.a.toNat] else []) (fun c h =>
    let k := h.key o.a.toNat
    match c.check h [k] [] [nameS o.d] true true with
    | .error x => .error x
    | .ok () =>
      let l := (h.wrk.rdS o.b.toNat).toNat % 32
      .ok ⟨[.s o.d.toNat (if c.alloc l then (lane (h.wrk.rdV k) l).setWidth 64 else 0)], 0, none⟩))

-- Predicates (R166).

/-- A predicate operation: guard-true lanes of the slot, or the context's bits, where the guard has no lane to name and is
ignored (DESIGN CHOICE, log 84). -/
def predWord (i : Instr) (d : BitVec 5) (f : (Nat → Word) → Word) (s : State) : Host.Outcome State Fault Refusal :=
  s.sharedWord i.wf
    (regEff 0 heldNone (fun c h =>
      match c.check h [] [] [nameP d] true true with
      | .error e => .error e
      | .ok () => .ok ⟨[.p d.toNat (c.lanes h) (f h.wrk.rdP)], 0, none⟩))
    kindAll i.wf
    (ownEff (fun e => .ok (e.putP d.toNat ((f (fun n => if e.rdP n then 1 else 0)).getLsbD 0))))

def execPand (o : Op3) (s : State) : Host.Outcome State Fault Refusal :=
  predWord (.pand o) o.d (fun p => p o.a.toNat &&& p o.b.toNat) s
def execPor (o : Op3) (s : State) : Host.Outcome State Fault Refusal :=
  predWord (.por o) o.d (fun p => p o.a.toNat ||| p o.b.toNat) s
def execPxor (o : Op3) (s : State) : Host.Outcome State Fault Refusal :=
  predWord (.pxor o) o.d (fun p => p o.a.toNat ^^^ p o.b.toNat) s
def execPnot (o : Op2) (s : State) : Host.Outcome State Fault Refusal :=
  predWord (.pnot o) o.d (fun p => ~~~(p o.a.toNat)) s
def execPmov (o : Op2) (s : State) : Host.Outcome State Fault Refusal :=
  predWord (.pmov o) o.d (fun p => p o.a.toNat) s

/-- PCNT: the active lanes whose bit is 1, or the context's bit. -/
def execPcnt (o : Op2) (s : State) : Host.Outcome State Fault Refusal :=
  s.sharedWord (Instr.wf (.pcnt o))
    (regEff 0 heldNone (fun c h =>
      match c.check h [] [] [nameS o.d] true true with
      | .error e => .error e
      | .ok () =>
        .ok ⟨[.s o.d.toNat (BitVec.ofNat 64 (popcount 32 (c.active h &&& h.wrk.rdP o.a.toNat).toNat))], 0, none⟩))
    kindAll (Instr.wf (.pcnt o))
    (ownEff (fun e => (e.setS o.d.toNat (if e.rdP o.a.toNat then 1 else 0))))

end Sys2Proof.Machine
end

