-- ==== Sys2Proof/Machine/Dispatch.lean ====
section
/-! DEFINITION. The meaning of every constructor of Instr. -/

namespace Sys2Proof.Machine

def exec (i : Instr) (s : State) : Host.Outcome State Fault Refusal :=
  match i with
  | .heat => Sys2Proof.Machine.execHeat s
  | .heatJ => Sys2Proof.Machine.execHeatJ s
  | .quench => Sys2Proof.Machine.execQuench s
  | .br p iv o => Sys2Proof.Machine.execBr p iv o s
  | .bra a => Sys2Proof.Machine.execBra a s
  | .brx a b h => Sys2Proof.Machine.execBrx a b h s
  | .call k o => Sys2Proof.Machine.execCall k o s
  | .callx k a => Sys2Proof.Machine.execCallx k a s
  | .ret => Sys2Proof.Machine.execRet s
  | .exit => Sys2Proof.Machine.execExit s
  | .tret => Sys2Proof.Machine.execTret s
  | .slide n => Sys2Proof.Machine.execSlide n s
  | .nop => Sys2Proof.Machine.execNop s
  | .yield => Sys2Proof.Machine.execYield s
  | .mode iv => Sys2Proof.Machine.execMode iv s
  | .modem iv => Sys2Proof.Machine.execModem iv s
  | .trap c => Sys2Proof.Machine.execTrap c s
  | .brk c => Sys2Proof.Machine.execBrk c s
  | .svc c => Sys2Proof.Machine.execSvc c s
  | .launch o => Sys2Proof.Machine.execLaunch o s
  | .fork o => Sys2Proof.Machine.execFork o s
  | .rdv o => Sys2Proof.Machine.execRdv o s
  | .iadd o => Sys2Proof.Machine.execIadd o s
  | .iaddc o => Sys2Proof.Machine.execIaddc o s
  | .isub o => Sys2Proof.Machine.execIsub o s
  | .isubb o => Sys2Proof.Machine.execIsubb o s
  | .imin o => Sys2Proof.Machine.execImin o s
  | .imax o => Sys2Proof.Machine.execImax o s
  | .iabs o => Sys2Proof.Machine.execIabs o s
  | .ineg o => Sys2Proof.Machine.execIneg o s
  | .lea o => Sys2Proof.Machine.execLea o s
  | .imul o => Sys2Proof.Machine.execImul o s
  | .imulh o => Sys2Proof.Machine.execImulh o s
  | .imad o => Sys2Proof.Machine.execImad o s
  | .imadw o => Sys2Proof.Machine.execImadw o s
  | .and o => Sys2Proof.Machine.execAnd o s
  | .or o => Sys2Proof.Machine.execOr o s
  | .xor o => Sys2Proof.Machine.execXor o s
  | .andn o => Sys2Proof.Machine.execAndn o s
  | .not o => Sys2Proof.Machine.execNot o s
  | .sel o => Sys2Proof.Machine.execSel o s
  | .shl o => Sys2Proof.Machine.execShl o s
  | .shr o => Sys2Proof.Machine.execShr o s
  | .sar o => Sys2Proof.Machine.execSar o s
  | .rot o => Sys2Proof.Machine.execRot o s
  | .popc o => Sys2Proof.Machine.execPopc o s
  | .clz o => Sys2Proof.Machine.execClz o s
  | .brev o => Sys2Proof.Machine.execBrev o s
  | .bfx o => Sys2Proof.Machine.execBfx o s
  | .bfi o => Sys2Proof.Machine.execBfi o s
  | .icmp c o => Sys2Proof.Machine.execIcmp c o s
  | .mov o => Sys2Proof.Machine.execMov o s
  | .movi d iv => Sys2Proof.Machine.execMovi d iv s
  | .movh d iv => Sys2Proof.Machine.execMovh d iv s
  | .fadd o => Sys2Proof.Machine.execFadd o s
  | .fsub o => Sys2Proof.Machine.execFsub o s
  | .fmul o => Sys2Proof.Machine.execFmul o s
  | .fmin o => Sys2Proof.Machine.execFmin o s
  | .fmax o => Sys2Proof.Machine.execFmax o s
  | .fabs o => Sys2Proof.Machine.execFabs o s
  | .fneg o => Sys2Proof.Machine.execFneg o s
  | .fcpys o => Sys2Proof.Machine.execFcpys o s
  | .fscale o => Sys2Proof.Machine.execFscale o s
  | .frnd o => Sys2Proof.Machine.execFrnd o s
  | .ffma o => Sys2Proof.Machine.execFfma o s
  | .ffms o => Sys2Proof.Machine.execFfms o s
  | .fdot2 o => Sys2Proof.Machine.execFdot2 o s
  | .fcmp c o => Sys2Proof.Machine.execFcmp c o s
  | .fclass o => Sys2Proof.Machine.execFclass o s
  | .frcp o => Sys2Proof.Machine.execFrcp o s
  | .frsq o => Sys2Proof.Machine.execFrsq o s
  | .fsqrt o => Sys2Proof.Machine.execFsqrt o s
  | .fdiv o => Sys2Proof.Machine.execFdiv o s
  | .fexp2 o => Sys2Proof.Machine.execFexp2 o s
  | .flog2 o => Sys2Proof.Machine.execFlog2 o s
  | .fsin o => Sys2Proof.Machine.execFsin o s
  | .fcos o => Sys2Proof.Machine.execFcos o s
  | .ftanh o => Sys2Proof.Machine.execFtanh o s
  | .cvt o => Sys2Proof.Machine.execCvt o s
  | .cvti o => Sys2Proof.Machine.execCvti o s
  | .pack o => Sys2Proof.Machine.execPack o s
  | .unpack o => Sys2Proof.Machine.execUnpack o s
  | .tag d f e => Sys2Proof.Machine.execTag d f e s
  | .retag o f => Sys2Proof.Machine.execRetag o f s
  | .qscale o => Sys2Proof.Machine.execQscale o s
  | .mxscale o => Sys2Proof.Machine.execMxscale o s
  | .vote op d a l => Sys2Proof.Machine.execVote op d a l s
  | .elect d l => Sys2Proof.Machine.execElect d l s
  | .matchLanes d a l => Sys2Proof.Machine.execMatchLanes d a l s
  | .shfl m o => Sys2Proof.Machine.execShfl m o s
  | .permset d a l => Sys2Proof.Machine.execPermset d a l s
  | .perm o => Sys2Proof.Machine.execPerm o s
  | .red op o => Sys2Proof.Machine.execRed op o s
  | .scan op excl o => Sys2Proof.Machine.execScan op excl o s
  | .sadd o => Sys2Proof.Machine.execSadd o s
  | .ssub o => Sys2Proof.Machine.execSsub o s
  | .smul o => Sys2Proof.Machine.execSmul o s
  | .smulh o => Sys2Proof.Machine.execSmulh o s
  | .sand o => Sys2Proof.Machine.execSand o s
  | .sor o => Sys2Proof.Machine.execSor o s
  | .sxor o => Sys2Proof.Machine.execSxor o s
  | .sshl o => Sys2Proof.Machine.execSshl o s
  | .sshr o => Sys2Proof.Machine.execSshr o s
  | .ssar o => Sys2Proof.Machine.execSsar o s
  | .smov o => Sys2Proof.Machine.execSmov o s
  | .ssel o => Sys2Proof.Machine.execSsel o s
  | .sbfx o => Sys2Proof.Machine.execSbfx o s
  | .spopc o => Sys2Proof.Machine.execSpopc o s
  | .scmp c o => Sys2Proof.Machine.execScmp c o s
  | .smovi d iv => Sys2Proof.Machine.execSmovi d iv s
  | .smovh d iv => Sys2Proof.Machine.execSmovh d iv s
  | .srd d k sx => Sys2Proof.Machine.execSrd d k sx s
  | .bcast d a e => Sys2Proof.Machine.execBcast d a e s
  | .pick o => Sys2Proof.Machine.execPick o s
  | .pand o => Sys2Proof.Machine.execPand o s
  | .por o => Sys2Proof.Machine.execPor o s
  | .pxor o => Sys2Proof.Machine.execPxor o s
  | .pnot o => Sys2Proof.Machine.execPnot o s
  | .pmov o => Sys2Proof.Machine.execPmov o s
  | .pcnt o => Sys2Proof.Machine.execPcnt o s
  | .ld o => Sys2Proof.Machine.execLd o s
  | .st o => Sys2Proof.Machine.execSt o s
  | .ldx o => Sys2Proof.Machine.execLdx o s
  | .stx o => Sys2Proof.Machine.execStx o s
  | .sld o sx z => Sys2Proof.Machine.execSld o sx z s
  | .sst o z => Sys2Proof.Machine.execSst o z s
  | .ldc d a o e l t => Sys2Proof.Machine.execLdc d a o e l t s
  | .pref o => Sys2Proof.Machine.execPref o s
  | .cflush o => Sys2Proof.Machine.execCflush o s
  | .cinv o => Sys2Proof.Machine.execCinv o s
  | .hint o => Sys2Proof.Machine.execHint o s
  | .aadd o => Sys2Proof.Machine.execAadd o s
  | .afadd o => Sys2Proof.Machine.execAfadd o s
  | .amin o => Sys2Proof.Machine.execAmin o s
  | .amax o => Sys2Proof.Machine.execAmax o s
  | .aand o => Sys2Proof.Machine.execAand o s
  | .aor o => Sys2Proof.Machine.execAor o s
  | .axor o => Sys2Proof.Machine.execAxor o s
  | .aswp o => Sys2Proof.Machine.execAswp o s
  | .acas o => Sys2Proof.Machine.execAcas o s
  | .acas2 d a o l n k => Sys2Proof.Machine.execAcas2 d a o l n k s
  | .fence => Sys2Proof.Machine.execFence s
  | .binit o => Sys2Proof.Machine.execBinit o s
  | .arrive o => Sys2Proof.Machine.execArrive o s
  | .arrivex o => Sys2Proof.Machine.execArrivex o s
  | .wait o => Sys2Proof.Machine.execWait o s
  | .twait o => Sys2Proof.Machine.execTwait o s
  | .bar a o => Sys2Proof.Machine.execBar a o s
  | .strike o => Sys2Proof.Machine.execStrike o s
  | .mwait o w => Sys2Proof.Machine.execMwait o w s
  | .mma a t u sx w z r => Sys2Proof.Machine.execMma a t u sx w z r s
  | .mzero a sx w => Sys2Proof.Machine.execMzero a sx w s
  | .mscale a t sx w v => Sys2Proof.Machine.execMscale a t sx w v s
  | .msta a t sx w z => Sys2Proof.Machine.execMsta a t sx w z s
  | .dwait w => Sys2Proof.Machine.execDwait w s
  | .dwaitArm n sx => Sys2Proof.Machine.execDwaitArm n sx s
  | .mexit => Sys2Proof.Machine.execMexit s
  | .gmode a => Sys2Proof.Machine.execGmode a s
  | .tset o => Sys2Proof.Machine.execTset o s
  | .tget o => Sys2Proof.Machine.execTget o s
  | .aset o => Sys2Proof.Machine.execAset o s
  | .take a => Sys2Proof.Machine.execTake a s
  | .give a => Sys2Proof.Machine.execGive a s
  | .cpy o => Sys2Proof.Machine.execCpy o s
  | .cpy2 o => Sys2Proof.Machine.execCpy2 o s
  | .halo d a b g => Sys2Proof.Machine.execHalo d a b g s
  | .gath o => Sys2Proof.Machine.execGath o s
  | .scat o => Sys2Proof.Machine.execScat o s
  | .fill o => Sys2Proof.Machine.execFill o s
  | .coll d => Sys2Proof.Machine.execColl d s
  | .qfence a => Sys2Proof.Machine.execQfence a s
  | .esig d a k => Sys2Proof.Machine.execEsig d a k s
  | .eloop d o => Sys2Proof.Machine.execEloop d o s
  | .eend => Sys2Proof.Machine.execEend s
  | .csrr d c => Sys2Proof.Machine.execCsrr d c s
  | .csrw d c => Sys2Proof.Machine.execCsrw d c s
  | .tlbi a b => Sys2Proof.Machine.execTlbi a b s
  | .classPage a b => Sys2Proof.Machine.execClassPage a b s
  | .pwrq o => Sys2Proof.Machine.execPwrq o s
  | .ctxq o => Sys2Proof.Machine.execCtxq o s
  | .longLatencyCompletion crew bad line => Sys2Proof.Machine.execLongLatencyCompletion crew bad line s
  | .sluiceSpill crew => Sys2Proof.Machine.execSluiceSpill crew s
  | .sluiceRefill crew => Sys2Proof.Machine.execSluiceRefill crew s
  | .monitorWake crew => Sys2Proof.Machine.execMonitorWake crew s
  | .twaitLimitExpiry crew => Sys2Proof.Machine.execTwaitLimitExpiry crew s
  | .grantRetry crew => Sys2Proof.Machine.execGrantRetry crew s
  | .reservationExpiry res => Sys2Proof.Machine.execReservationExpiry res s
  | .strikeClusterAdmission => Sys2Proof.Machine.execStrikeClusterAdmission s
  | .wcbAgeingExpiry core line => Sys2Proof.Machine.execWcbAgeingExpiry core line s
  | .splitLevelDecay block => Sys2Proof.Machine.execSplitLevelDecay block s
  | .migrationStep die => Sys2Proof.Machine.execMigrationStep die s
  | .classConflict die => Sys2Proof.Machine.execClassConflict die s
  | .xOperationStart eng op => Sys2Proof.Machine.execXOperationStart eng op s
  | .xOperationCompletion eng op => Sys2Proof.Machine.execXOperationCompletion eng op s
  | .engineEntryCompletion eng => Sys2Proof.Machine.execEngineEntryCompletion eng s
  | .qfenceMatch eng => Sys2Proof.Machine.execQfenceMatch eng s
  | .tokenWaitTimeout eng op => Sys2Proof.Machine.execTokenWaitTimeout eng op s
  | .engineWaitTimeout eng => Sys2Proof.Machine.execEngineWaitTimeout eng s
  | .crewRetirement crew => Sys2Proof.Machine.execCrewRetirement crew s
  | .teamRetirement rcb team => Sys2Proof.Machine.execTeamRetirement rcb team s
  | .regionCompletion rcb => Sys2Proof.Machine.execRegionCompletion rcb s
  | .launchMessage off msg => Sys2Proof.Machine.execLaunchMessage off msg s
  | .admission => Sys2Proof.Machine.execAdmission s
  | .nodeReady rcb => Sys2Proof.Machine.execNodeReady rcb s
  | .teamPlacement => Sys2Proof.Machine.execTeamPlacement s
  | .apportioningChange core => Sys2Proof.Machine.execApportioningChange core s
  | .priorityPreemption die => Sys2Proof.Machine.execPriorityPreemption die s
  | .teamPreemption rcb team => Sys2Proof.Machine.execTeamPreemption rcb team s
  | .contextImageWrite rcb team => Sys2Proof.Machine.execContextImageWrite rcb team s
  | .teamResumption rcb team => Sys2Proof.Machine.execTeamResumption rcb team s
  | .deferredFaultPosting fdom => Sys2Proof.Machine.execDeferredFaultPosting fdom s
  | .resume fdom seq => Sys2Proof.Machine.execResume fdom seq s
  | .skip fdom seq => Sys2Proof.Machine.execSkip fdom seq s
  | .trapCommand fdom seq => Sys2Proof.Machine.execTrapCommand fdom seq s
  | .abort => Sys2Proof.Machine.execAbort s
  | .evict => Sys2Proof.Machine.execEvict s
  | .admitTeams => Sys2Proof.Machine.execAdmitTeams s
  | .shoot fdom seq => Sys2Proof.Machine.execShoot fdom seq s
  | .tevict seq => Sys2Proof.Machine.execTevict seq s
  | .lostClear v => Sys2Proof.Machine.execLostClear v s
  | .registerWrite off width v => Sys2Proof.Machine.execRegisterWrite off width v s
  | .poolExtentMap e v => Sys2Proof.Machine.execPoolExtentMap e v s
  | .extentRelease e v => Sys2Proof.Machine.execExtentRelease e v s
  | .extentReleaseRequest e => Sys2Proof.Machine.execExtentReleaseRequest e s
  | .extentRemoval e => Sys2Proof.Machine.execExtentRemoval e s
  | .poolFatalError port => Sys2Proof.Machine.execPoolFatalError port s
  | .hostRead bar off len how => Sys2Proof.Machine.execHostRead bar off len how s
  | .hostWrite off bytes how => Sys2Proof.Machine.execHostWrite off bytes how s
  | .hostSnoop line w poison => Sys2Proof.Machine.execHostSnoop line w poison s
  | .atomicopCompletion crew failed => Sys2Proof.Machine.execAtomicopCompletion crew failed s
  | .hostLinkDown => Sys2Proof.Machine.execHostLinkDown s
  | .portFence p => Sys2Proof.Machine.execPortFence p s
  | .setAsideNotice rank us => Sys2Proof.Machine.execSetAsideNotice rank us s
  | .setAsideRelease rank => Sys2Proof.Machine.execSetAsideRelease rank s
  | .setAsideExpiry rank => Sys2Proof.Machine.execSetAsideExpiry rank s
  | .capabilityWord p v => Sys2Proof.Machine.execCapabilityWord p v s
  | .slackReport group peers => Sys2Proof.Machine.execSlackReport group peers s
  | .paceUpdate group => Sys2Proof.Machine.execPaceUpdate group s
  | .groupEnd group => Sys2Proof.Machine.execGroupEnd group s
  | .powerAllowanceWrite cluster pwr v => Sys2Proof.Machine.execPowerAllowanceWrite cluster pwr v s
  | .powerFloor cluster => Sys2Proof.Machine.execPowerFloor cluster s
  | .starvationPromotion crew slot => Sys2Proof.Machine.execStarvationPromotion crew slot s
  | .energyInterval cluster nj => Sys2Proof.Machine.execEnergyInterval cluster nj s
  | .sliceRatioChange cluster slice => Sys2Proof.Machine.execSliceRatioChange cluster slice s
  | .bankFailureMark core bank => Sys2Proof.Machine.execBankFailureMark core bank s
  | .treeCacheCut => Sys2Proof.Machine.execTreeCacheCut s
  | .deviceReset => Sys2Proof.Machine.execDeviceReset s
  | .phaseAdvance => Sys2Proof.Machine.execPhaseAdvance s
  | .linkTrainingTimeout link => Sys2Proof.Machine.execLinkTrainingTimeout link s
  | .firmwareUpdate which image sig => Sys2Proof.Machine.execFirmwareUpdate which image sig s
  | .securityVersionRaise version sig => Sys2Proof.Machine.execSecurityVersionRaise version sig s
  | .mildenReset => Sys2Proof.Machine.execMildenReset s
  | .getVersion => Sys2Proof.Machine.execGetVersion s
  | .getCapabilities => Sys2Proof.Machine.execGetCapabilities s
  | .negotiateAlgorithms eddsa sha3 => Sys2Proof.Machine.execNegotiateAlgorithms eddsa sha3 s
  | .getDigests => Sys2Proof.Machine.execGetDigests s
  | .getCertificate slot off len => Sys2Proof.Machine.execGetCertificate slot off len s
  | .challenge nonce => Sys2Proof.Machine.execChallenge nonce s
  | .getMeasurements index nonce => Sys2Proof.Machine.execGetMeasurements index nonce s
  | .unsupportedRequest code => Sys2Proof.Machine.execUnsupportedRequest code s
  | .allowanceRefill cluster reqs => Sys2Proof.Machine.execAllowanceRefill cluster reqs s
  | .softError core bank place => Sys2Proof.Machine.execSoftError core bank place s
  | .hostPortTrained cxl => Sys2Proof.Machine.execHostPortTrained cxl s
  | .peerAccessRequest rank req => Sys2Proof.Machine.execPeerAccessRequest rank req s
  | .fabricTeardown granule w => Sys2Proof.Machine.execFabricTeardown granule w s
  | .peerUnreachable rank => Sys2Proof.Machine.execPeerUnreachable rank s

end Sys2Proof.Machine
end

