-- ==== Sys2Proof/Machine/Step.lean ====
section
/-! DEFINITION. One step: the head of the list of turns (log 1). -/

namespace Sys2Proof.Machine

/-- The state in which an agent issues: a slot must be its core's choice. -/
def State.chosen (s : State) (a : Agent) : Option (State × Agent) :=
  match a with
  | .eng _ => some (s, a)
  | .crew id _ =>
    match s.crew id with
    | some c => (s.pick (s.coreOf c)).filter (fun p => p.2 == a)
    | none => none

/-- An agent issues with the grant of its cluster clock; an instruction withheld for power is tried again (R345). -/
def State.issueTurn (s : State) (o : Option (State × Agent)) : Host.Outcome State Fault Refusal :=
  match o with
  | none => .next s
  | some (s', a) => if s.mayIssue a then (s'.useGrant a).run exec a else .next s

/-- The machine takes its next turn, and the caches keep within their capacity; with no turn listed a cluster clock passes. -/
def step (s : State) : Host.Outcome State Fault Refusal :=
  tidied (match s.turns with
  | [] => .next s.tick
  | t :: rest =>
    let s := { s with turns := rest }
    match t with
    | .issue a => s.issueTurn (s.chosen a)
    | .core c => s.issueTurn (s.pick c)
    | .event e => if e.isEvent then exec e s else .next s
    | .combine c => .next (s.performLater c)
    | .evict h ln => .next (s.evictLine h ln)
    | .evictTree r gran level => .next (s.evictTree r gran level)
    | .evictTlb h n => .next (s.evictTlb h n)
    | .tick => .next s.tick)

/-- `s` with an instruction placed where the next step fetches it (log 1). -/
def State.withFetchWord (s : State) (nbits w : Nat) : State := s.place nbits w

end Sys2Proof.Machine
end

