-- ==== Sys2Proof/Safety.lean ====
section
/-! DEFINITION. The terms that statements use: who issues, what an instruction may read and write, what a register word
leaves, and the invariant of the memories. -/

namespace Sys2Proof.Machine

-- Who issues.

/-- Crew `id` is about to issue the next word of its open heat `h` from slot `n`: the heat has room for one more word that
is no closer (R45), no SKIP names this word (R145), no result of an earlier closer is outstanding (R129), a result whose
lookahead window ends with this word (R116) met no error, and nothing holds the heat's buffered stores to registers: no other crew's open heat, no
absent block, no token (R60). -/
structure InHeat (s : State) (id n : Nat) (c : Crew) (h : Heat) : Prop where
  cur : s.cur = .crew id n
  crew : s.crew id = some c
  heat : c.heat = some h
  slot : h.slot = n
  room : h.off < 23
  skip : h.skip ≠ some h.off
  named : c.named = []
  windows : ∀ p ∈ h.pend, p.left ≤ 1 → p.got.bad = none
  busy : (s.setCrew id c).regHold id h = none

/-- Flags of a word that no enable turns into ARITH (R90). -/
def Heat.admits (h : Heat) (fl : Flags) : Prop := arithFlags h.wrk.asw fl = 0

/-- ARITH of a word that set an enabled flag (R90). -/
def State.arithTrap (s : State) (id n : Nat) (c : Crew) (fl : Flags) : State := (s.setCrew id c).trap id n cARITH fl.toNat none

/-- Registers that an instruction may read (`src`) and write (`dst`, and uniform or predicate results `other`): temporaries
were written in this heat (R49), no destination lies in a lookahead window (R116), at most 32 window registers are named as
destinations (R47), no block is given away (R282, R284), the blocks fit the ring (R410) and are resident (R59), and no source
word holds an uncorrectable error (R203). -/
structure Readable (c : Crew) (h : Heat) (src dst other : List Nat) : Prop where
  temps : ∀ k ∈ src, 1024 ≤ k → k ∈ h.temps
  window : ∀ p ∈ h.pend, ∀ w ∈ p.ws, w.name ∉ dst ++ other
  dests : ((h.dests ++ dst.filter (· < 1024)).eraseDups).length ≤ 32
  home : ∀ k ∈ src ++ dst, c.away k = false
  fits : (blocksOf (src ++ dst)).length ≤ c.ring.cap
  good : ∀ k ∈ src, k ∉ h.wrk.errs
  bank : 2048 ∉ h.wrk.errs
  loaded : c.absentIn (src ++ dst) = []

/-- An engine context `k` is about to issue the next word of its open heat, which is no closer (R286). -/
structure InEngine (s : State) (k : Nat) (e : Eng) : Prop where
  cur : s.cur = .eng k
  eng : s.eng k = some e
  entry : e.entry.isSome
  room : e.off < 23

/-- Crew `id` stands between heats in slot `n`: no fault of a named result waits to be raised, no store to its registers waits
to be made. -/
structure Idle (s : State) (id n : Nat) (c : Crew) : Prop where
  cur : s.cur = .crew id n
  crew : s.crew id = some c
  heat : c.heat = none
  bad : c.bad = none
  named : c.named = []
  inbox : c.inbox = []

/-- Crew `id` is about to issue a closer of its open heat `h` from slot `n`: no TRET is held (R145), no SKIP names this word,
nothing holds its stores to registers (R60), and the blocks it gives are resident (R282). -/
structure Closing (s : State) (id n : Nat) (c : Crew) (h : Heat) : Prop where
  cur : s.cur = .crew id n
  crew : s.crew id = some c
  heat : c.heat = some h
  slot : h.slot = n
  skip : h.skip ≠ some h.off
  named : c.named = []
  tret : h.tret = false
  busy : (s.setCrew id c).regHold id h = none
  gives : c.giveRefill h = []

/-- An engine context `k` is about to issue a closer of its open heat. -/
structure EngClosing (s : State) (k : Nat) (e : Eng) : Prop where
  cur : s.cur = .eng k
  eng : s.eng k = some e
  entry : e.entry.isSome
  room : e.off < 24

-- What a register word leaves.

/-- Vector registers among results. -/
def vecKeys (ws : List RegW) : List Nat :=
  ws.filterMap (fun w => match w with
    | .v k _ _ _ => some k
    | _ => none)

/-- The pending results whose lookahead window ends with the word that issues now (R116). -/
def Heat.ending (h : Heat) : List Pend := h.pend.filter (fun p => decide (p.left ≤ 1))

/-- The results that become visible after the word that issues now (R116). -/
def Heat.soon (h : Heat) : List RegW := h.ending.flatMap (fun p => p.ws)

/-- The state after a register word with results `ws` of lookahead `la`, flags `fl`, LFSR states `draws` and held
registers: the crew's heat, latch and what the word had refilled alone differ, and its slot stands at the next word. The
results whose window ends with the word become visible after it (R116). -/
def State.afterWord (s : State) (id : Nat) (c : Crew) (h : Heat) (la : Nat) (held : List Nat) (ws : List RegW) (fl : Flags)
    (draws : Option Lanes) : State :=
  let regs := match draws with
    | some x => { h.wrk with lfsr := x }
    | none => h.wrk
  let regs := if la = 0 then regs.puts ws else regs
  let drawn := match draws with
    | some x => (h.drew x).en
    | none => h.en
  let entries := if la = 0 then enablePuts drawn ws else drawn
  let h' := { h with
    wrk := { regs with asw := regs.asw ||| fl.setWidth 16 }.puts h.soon
    en := enablePuts (if fl = 0 then entries else Tab.put entries 9000 (BitVec.allOnes 32)) h.soon
    off := h.off + 1
    dests := (h.dests ++ (vecKeys ws).filter (· < 1024)).eraseDups
    temps := (h.temps ++ (vecKeys ws).filter (fun k => decide (1024 ≤ k))).eraseDups
    pend := (h.pend.filter (fun p => decide (1 < p.left))).map (fun p => { p with left := p.left - 1 })
      ++ (if la = 0 then [] else [⟨ws, la, (c.slot h.slot).pc, h.off, h.gives.length, h.group.length, .clean⟩]) }
  s.setCrew id
    { c.setSlot h.slot { c.slot h.slot with pc := (c.slot h.slot).pc + 4 } with
      heat := some h'
      wait := .none
      latch := ageLatch h.visible (if la = 0 then (c.latched held).latch.filter (fun e => !(ws.map RegW.name).contains e.1)
        else (c.latched held).latch)
      ring := { c.ring with touched := [] } }

/-- The state after a word whose effect left `s`: its flags enter ASW, the windows age, the slot stands at the next word. -/
def State.nextWord (s : State) (id : Nat) (fl : Flags) : State :=
  s.updCrew id (fun c => (match c.heat with
    | some h => { c with heat := some (h.flag fl) }
    | none => c).advance)

/-- An engine context stands at its next word. -/
def State.nextEngWord (s : State) (k : Nat) : State :=
  match s.eng k with
  | some e => s.setEng k e.advance
  | none => s

-- What a word with an effect leaves.

/-- Results of a word that reads enter the heat with their lookahead, and with what the data read met. -/
def State.emitted (s : State) (id : Nat) (ws : List RegW) (la : Nat) (g : Got) : State :=
  s.updCrew id (fun c => match c.heat with
    | some h => c.emit h ws la (c.slot h.slot).pc g
    | none => c)

/-- The results of a read with lookahead: zeros where the data met an uncorrectable error (R129). -/
def Got.seen (g : Got) (ws : List RegW) : List RegW := if g.bad.isSome then ws.map RegW.zero else ws

/-- A uniform result of an engine context with its lookahead. -/
def Eng.withResult (e : Eng) (n la : Nat) (x : DWord) (g : Got) : Eng :=
  if la = 0 then e.putS n x else { e with pend := e.pend ++ [⟨n, x, la + 1, e.pc, e.off, g⟩] }

/-- A word whose access meets a page whose reads have side effects seals the heat (R51, R374). -/
def State.sealedFor (s : State) (id : Nat) (ls : List (Nat × List Hit)) : State :=
  if ls.any (fun l => l.2.any (fun x => x.se)) then s.seal id else s

/-- The acquire of a load whose MODE asks for one. -/
def State.loadAcquire (s : State) (id : Nat) (mode : BitVec 40) : State :=
  if modeOrd mode = 1 then s.acquireCrew id (modeScope mode) 3 else s

/-- The bytes that one lane's access reads: the heat's own buffered stores first (R49). -/
def State.laneBytes (s : State) (w : Who) (h : Heat) (hs : List Hit) : List Byte :=
  hs.map (fun x => (h.forward x.sp x.pa).getD (s.seeHit w x))

/-- Register images of the lanes' bytes. -/
def loadOuts (m : MemOp) (mode : BitVec 40) (vs : List (Nat × List Byte)) : List (List Nat) :=
  (List.range 32).map (fun l => match vs.find? (fun v => v.1 == l) with
    | some v => loadImage m.f (modeFmt mode) (extN m.e) (modeSgn mode) v.2
    | none => [])

-- Operands of a word with the shape of its extent.

/-- Even pairs where an element takes two registers (R68). -/
def pairsFor (wide : Bool) (o : OpU) (rd : Reads) : Bool :=
  !wide || (pairOk o.a o.e && (!rd.b || o.k || pairOk o.b o.e) && pairOk o.d o.e)

/-- Registers of the B block, when it is one. -/
def Heat.keysB (h : Heat) (o : OpU) (rd : Reads) : List Nat := if rd.b && !o.k then h.keys o.b o.e else []

/-- Registers of D, when they are read. -/
def Heat.keysD (h : Heat) (o : OpU) (rd : Reads) : List Nat := if rd.d then h.keys o.d o.e else []

/-- Every vector register a word reads. -/
def Heat.sources (h : Heat) (o : OpU) (rd : Reads) : List Nat := h.keys o.a o.e ++ h.keysB o rd ++ h.keysD o rd

/-- A, B and D of one lane. -/
def Heat.laneA (h : Heat) (o : OpU) (l : Nat) : List Nat := h.wrk.at_ (h.keys o.a o.e) l
def Heat.laneB (h : Heat) (o : OpU) (rd : Reads) (wide : Bool) (l : Nat) : List Nat :=
  if rd.b then h.wrk.opB o wide (h.keysB o rd) l else []
def Heat.laneD (h : Heat) (o : OpU) (rd : Reads) (l : Nat) : List Nat := if rd.d then h.wrk.at_ (h.keys o.d o.e) l else []

-- Values of the words whose shapes follow from formats.

/-- What results give a lane: the words of their vector registers, in their order. -/
def Res.words (r : Res) (l : Nat) : List Nat :=
  r.ws.filterMap (fun w => match w with
    | .v _ _ x _ => some (lane x l).toNat
    | _ => none)

/-- The draw of a lane's element `j` (R86): under SR its register steps once more for every element, else there is none. -/
def Heat.drawAt (h : Heat) (l j : Nat) : Nat :=
  if (modeRnd h.wrk.mode).mode = rndSR then (Nat.repeat lfsrDraw (j + 1) (lane h.wrk.lfsr l)).toNat else 0

/-- Two nodes of R96: an absent one leaves the other as it is. -/
def joinNodes (g : Nat → Nat → Nat) (a b : Option Nat) : Option Nat :=
  match a, b with
  | some x, some y => some (g x y)
  | some x, none => some x
  | none, y => y

/-- Node `i` of level `d` of the tree over the lanes' values (R96). -/
def treeNode (g : Nat → Nat → Nat) (x : Nat → Option Nat) : Nat → Nat → Option Nat
  | 0, i => x i
  | d + 1, i => joinNodes g (treeNode g x d (2 * i)) (treeNode g x d (2 * i + 1))

/-- The fold over the lanes below `n`, by the tree's nodes of the powers of two in `n`, the largest first (R97). -/
def scanNodes (g : Nat → Nat → Nat) (x : Nat → Option Nat) (n : Nat) : Option Nat :=
  ([5, 4, 3, 2, 1, 0] : List Nat).foldl (fun acc d =>
    if n.testBit d then joinNodes g acc (treeNode g x d (2 * (n / 2 ^ (d + 1)))) else acc) none

/-- What RED and SCAN give a contributing lane at one element position (R96, R97, Table 11-6): `m` the contributing lanes. -/
def redValue (kind : RedKind) (g : Nat → Nat → Nat) (ident : Nat) (m : Word) (x : Nat → Nat) (l : Nat) : Nat :=
  let leaf : Nat → Option Nat := fun i => if m.getLsbD i then some (x i) else none
  (match kind with
    | .red => treeNode g leaf 5 0
    | .incl => scanNodes g leaf (l + 1)
    | .excl => scanNodes g leaf l).getD ident

-- The invariant of the memories.

/-- Every memory of the machine is in canonical form. -/
def State.canonical (s : State) : Prop :=
  Memory.wf s.mem.pkg = true ∧ Memory.wf s.mem.ext = true ∧ Memory.wf s.mem.peer = true ∧ Memory.wf s.mem.scr = true ∧
  Memory.wf s.pool.dev = true ∧ ∀ kv ∈ s.teams, Memory.wf kv.2.scr = true

end Sys2Proof.Machine

namespace Sys2Proof

open Sys2Proof.Machine

-- The register words by family.

/-- What one lane of an integer word computes from the registers of A, B and D. -/
abbrev IntLane := IntMode → List Nat → List Nat → List Nat → List Nat × Flags

/-- Words that close a heat (R45, R286). -/
def Instr.closes (i : Instr) : Bool :=
  match i with
  | .quench => true
  | .br _ _ _ => true
  | .bra _ => true
  | .brx _ _ _ => true
  | .call _ _ => true
  | .callx _ _ => true
  | .ret => true
  | .exit => true
  | .svc _ => true
  | .trap _ => true
  | .mexit => true
  | .eloop _ _ => true
  | .eend => true
  | _ => false

/-- A major that every profile has (Table 7-7). -/
def majorAll (m : Nat) : Bool :=
  [0x01, 0x02, 0x03, 0x04, 0x06, 0x07, 0x08, 0x0A, 0x0B, 0x0C, 0x0D, 0x28, 0x29, 0x2A, 0x2B, 0x2C, 0x2E].contains m

/-- A major of the profile of crews (Table 7-7). -/
def majorCrew (m : Nat) : Bool :=
  majorAll m || [0x05, 0x09, 0x0E, 0x0F, 0x2D, 0x58, 0x70].contains m || (decide (0x10 ≤ m) && decide (m ≤ 0x26))
    || (decide (0x30 ≤ m) && decide (m ≤ 0x47)) || (decide (0x71 ≤ m) && decide (m ≤ 0x75))

/-- A major of the profile of an engine kind: 0 Miller contexts, 1 Flume queues, 2 Tailrace contexts (Table 7-7). -/
def majorEng (kind m : Nat) : Bool :=
  majorAll m ||
    (match kind with
    | 0 => [0x0F, 0x34, 0x35, 0x42, 0x70].contains m || (decide (0x50 ≤ m) && decide (m ≤ 0x57))
    | 1 => decide (0x60 ≤ m) && decide (m ≤ 0x6A) && m != 0x66
    | 2 => [0x60, 0x61, 0x65, 0x66, 0x67, 0x68, 0x69, 0x6A].contains m
    | _ => false)

/-- Words that block on a monitor, a barrier word or a ticket. -/
def Instr.blocks (i : Instr) : Bool :=
  match i with
  | .mwait _ _ => true
  | .wait _ => true
  | .twait _ => true
  | .bar _ _ => true
  | _ => false

/-- Integer words whose destination has the shape of the extent (Table 9-4). -/
def Instr.intLane (i : Instr) : Option (OpU × Reads × IntLane) :=
  match i with
  | .iadd o => some (o, readsB, eachElem opIadd)
  | .iaddc o => some (o, readsB, chained false o.k)
  | .isub o => some (o, readsB, eachElem opIsub)
  | .isubb o => some (o, readsB, chained true o.k)
  | .imin o => some (o, readsB, eachElem opImin)
  | .imax o => some (o, readsB, eachElem opImax)
  | .iabs o => some (vAsU o, readsA, eachElem opIabs)
  | .ineg o => some (vAsU o, readsA, eachElem opIneg)
  | .lea o => some (o, readsB, eachElem opLea)
  | .imul o => some (o, readsB, eachElem opImul)
  | .imulh o => some (o, readsB, eachElem opImulh)
  | .imad o => some (o, readsBD, eachElem opImad)
  | .shl o => some (o, readsB, eachElem opShl)
  | .shr o => some (o, readsB, eachElem opShr)
  | .sar o => some (o, readsB, eachElem opSar)
  | .rot o => some (o, readsB, eachElem opRot)
  | .popc o => some (vAsU o, readsA, eachElem opPopc)
  | .clz o => some (vAsU o, readsA, eachElem opClz)
  | .brev o => some (vAsU o, readsA, eachElem opBrev)
  | .bfx o => some (o, readsB, eachCtl (fun q a ctl _ => bfxElem q.w q.sgn a ctl))
  | .bfi o => some (o, readsBD, eachCtl (fun q a ctl d => bfiElem q.w a ctl d))
  | _ => none

/-- Words on whole registers, as functions of one register of A, B and D (Table 9-4). -/
def Instr.logic (i : Instr) : Option (OpU × Reads × (Word → Word → Word → Word)) :=
  match i with
  | .and o => some (o, readsB, fun a b _ => a &&& b)
  | .or o => some (o, readsB, fun a b _ => a ||| b)
  | .xor o => some (o, readsB, fun a b _ => a ^^^ b)
  | .andn o => some (o, readsB, fun a b _ => a &&& ~~~b)
  | .not o => some (vAsU o, readsA, fun a _ _ => ~~~a)
  | .sel o => some (o, readsBD, fun a b d => (a &&& d) ||| (b &&& ~~~d))
  | .mov o => some (vAsU o, readsA, fun a _ _ => a)
  | _ => none

/-- Integer words at IW 2 without saturation, as functions of 32-bit words and SGN (Table 9-4). -/
def Instr.word32 (i : Instr) : Option (OpU × Reads × (Bool → Word → Word → Word → Word)) :=
  match i with
  | .iadd o => some (o, readsB, fun _ a b _ => a + b)
  | .isub o => some (o, readsB, fun _ a b _ => a - b)
  | .imin o => some (o, readsB, fun g a b _ => if (if g then a.slt b else a.ult b) then a else b)
  | .imax o => some (o, readsB, fun g a b _ => if (if g then a.slt b else a.ult b) then b else a)
  | .ineg o => some (vAsU o, readsA, fun _ a _ _ => -a)
  | .lea o => some (o, readsB, fun _ a b _ => a + 4 * b)
  | .imul o => some (o, readsB, fun _ a b _ => a * b)
  | .imulh o => some (o, readsB, fun g a b _ =>
      let x : BitVec 64 := if g then a.signExtend 64 * b.signExtend 64 else a.setWidth 64 * b.setWidth 64
      x.extractLsb' 32 32)
  | .imad o => some (o, readsBD, fun _ a b d => a * b + d)
  | .shl o => some (o, readsB, fun _ a b _ => a <<< b.toNat)
  | .shr o => some (o, readsB, fun _ a b _ => a >>> b.toNat)
  | .sar o => some (o, readsB, fun _ a b _ => a.sshiftRight b.toNat)
  | .rot o => some (o, readsB, fun _ a b _ => a.rotateLeft (b.toNat % 32))
  | _ => none

/-- A float word of R172: operands, what it reads, whether it draws, the formats of B and of D, its element function, its
lookahead and the operands it holds. -/
structure FloatWord where
  o : OpU
  rd : Reads
  draws : Bool
  bTag : Nat → Nat
  tag : Nat → Nat
  op : FElem
  la : Nat
  held : Heat → List Nat

def floatOf (o : OpU) (rd : Reads) (draws : Bool) (op : FElem) : FloatWord := ⟨o, rd, draws, sameFmt, sameFmt, op, 0, heldU o⟩
def longOf (o : OpL) (fn : SFn) : FloatWord :=
  ⟨lAsU o, readsA, true, sameFmt, sameFmt, fun f c d a _ _ => specialFn fn f c d (valOf f c.ftz a), o.l.toNat, heldNone⟩

/-- Float words whose destination has the shape of the extent (Tables 11-1 and 11-2). -/
def Instr.floatWord (i : Instr) : Option FloatWord :=
  match i with
  | .fadd o => some (floatOf o readsB true (opRound (fun z a b _ => valAdd z a b)))
  | .fsub o => some (floatOf o readsB true (opRound (fun z a b _ => valAdd z a b.neg)))
  | .fmul o => some (floatOf o readsB true (opRound (fun _ a b _ => mulVal a b)))
  | .fmin o => some (floatOf o readsB false (fun f c _ a b _ => minMax false f c.ftz a b))
  | .fmax o => some (floatOf o readsB false (fun f c _ a b _ => minMax true f c.ftz a b))
  | .fabs o => some (floatOf (vAsU o) readsA false opFabs)
  | .fneg o => some (floatOf (vAsU o) readsA false opFneg)
  | .fcpys o => some (floatOf o readsB false opFcpys)
  | .fscale o => some { floatOf o readsB true opFscale with bTag := intOfFloat }
  | .frnd o => some (floatOf (vAsU o) readsA true opFrnd)
  | .ffma o => some (floatOf o readsBD true (opRound (fun z a b d => valFma z false a b d)))
  | .ffms o => some (floatOf o readsBD true (opRound (fun z a b d => valFma z true a b d)))
  | .fclass o => some { floatOf (vAsU o) readsA false (fun f _ _ a _ _ => (classMask f a, 0)) with tag := intOfFloat }
  | .frcp o => some (longOf o .rcp)
  | .frsq o => some (longOf o .rsq)
  | .fsqrt o => some (longOf o .sqrt)
  | .fexp2 o => some (longOf o .exp2)
  | .flog2 o => some (longOf o .log2)
  | .fsin o => some (longOf o .sin)
  | .fcos o => some (longOf o .cos)
  | .ftanh o => some (longOf o .tanh)
  | .fdiv o => some ⟨⟨o.d, o.a, o.b, o.e, 0, false⟩, readsB, true, sameFmt, sameFmt,
      fun f c d a b _ => divide f c d (valOf f c.ftz a) (valOf f c.ftz b), o.l.toNat, heldNone⟩
  | _ => none

/-- Words whose checks and results one function of the crew and its heat gives: lookahead, held operands, function. -/
def Instr.calc (i : Instr) : Option (Nat × (Heat → List Nat) × (Crew → Heat → Except Stop Res)) :=
  match i with
  | .imadw o => some (0, heldU o, imadwCalc o)
  | .fdot2 o => some (0, heldU o, fdot2Calc o)
  | .cvt o => some (o.l.toNat, heldNone, cvtCalc false o)
  | .cvti o => some (o.l.toNat, heldNone, cvtCalc true o)
  | .pack o => some (0, heldU (vAsU o), packCalc false o)
  | .unpack o => some (0, heldU (vAsU o), packCalc true o)
  | .qscale o => some (o.l.toNat, heldNone, qscaleCalc o)
  | .mxscale o => some (o.l.toNat, heldNone, mxscaleCalc o)
  | .red op o => some (o.l.toNat, heldNone, redCalc op .red o)
  | .scan op x o => some (o.l.toNat, heldNone, redCalc op (if x then .excl else .incl) o)
  | _ => none

/-- Uniform words: destination and value from the uniform registers and Signed (Table 9-6). -/
def Instr.uniform (i : Instr) : Option (BitVec 5 × ((Nat → DWord) → Bool → DWord)) :=
  match i with
  | .sadd o => some (o.d, fun r _ => r o.a.toNat + r o.b.toNat)
  | .ssub o => some (o.d, fun r _ => r o.a.toNat - r o.b.toNat)
  | .smul o => some (o.d, fun r _ => r o.a.toNat * r o.b.toNat)
  | .smulh o => some (o.d, fun r g => BitVec.ofInt 64 (
      if g then (r o.a.toNat).toInt * (r o.b.toNat).toInt / 2 ^ 64
      else ((r o.a.toNat).toNat : Int) * (r o.b.toNat).toNat / 2 ^ 64))
  | .sand o => some (o.d, fun r _ => r o.a.toNat &&& r o.b.toNat)
  | .sor o => some (o.d, fun r _ => r o.a.toNat ||| r o.b.toNat)
  | .sxor o => some (o.d, fun r _ => r o.a.toNat ^^^ r o.b.toNat)
  | .sshl o => some (o.d, fun r _ => r o.a.toNat <<< (r o.b.toNat).toNat)
  | .sshr o => some (o.d, fun r _ => r o.a.toNat >>> (r o.b.toNat).toNat)
  | .ssar o => some (o.d, fun r _ => (r o.a.toNat).sshiftRight (r o.b.toNat).toNat)
  | .smov o => some (o.d, fun r _ => r o.a.toNat)
  | .sbfx o => some (o.d, fun r g => BitVec.ofNat 64 (bfxElem 64 g (r o.a.toNat).toNat ((r o.b.toNat).toNat % 2 ^ 16)))
  | .spopc o => some (o.d, fun r _ => BitVec.ofNat 64 (popcount 64 (r o.a.toNat).toNat))
  | .smovi d i => some (d, fun _ _ => i.signExtend 64)
  | .smovh d i => some (d, fun r _ => (i.signExtend 64 <<< 12) ||| (r d.toNat &&& 0xFFF))
  | _ => none

/-- Predicate words: destination and value from the predicates (Table 9-9). -/
def Instr.predicate (i : Instr) : Option (BitVec 5 × ((Nat → Word) → Word)) :=
  match i with
  | .pand o => some (o.d, fun p => p o.a.toNat &&& p o.b.toNat)
  | .por o => some (o.d, fun p => p o.a.toNat ||| p o.b.toNat)
  | .pxor o => some (o.d, fun p => p o.a.toNat ^^^ p o.b.toNat)
  | .pnot o => some (o.d, fun p => ~~~(p o.a.toNat))
  | .pmov o => some (o.d, fun p => p o.a.toNat)
  | _ => none

/-- Loads (R248, R250, R251). -/
def Instr.load (i : Instr) : Option MemOp :=
  match i with
  | .ld o => some ⟨o.d, o.a, o.o, o.e, o.l, o.k, o.f, false, false⟩
  | .ldx o => some ⟨o.d, o.a, o.o, o.e, o.l, o.k, if o.f then .t else .w, true, o.t⟩
  | _ => none

/-- Stores (R249, R250). -/
def Instr.store (i : Instr) : Option MemOp :=
  match i with
  | .st o => some ⟨o.d, o.a, o.o, o.e, 0, o.k, o.f, false, false⟩
  | .stx o => some ⟨o.d, o.a, o.o, o.e, 0, o.k, if o.f then .t else .w, true, o.t⟩
  | _ => none

/-- An atomic: function, width and KIND 3 reach (Tables 15-5 and 15-6), fields, non-returning form, base kind. -/
structure AtomicWord where
  k : AtOpd
  d : BitVec 5
  a : BitVec 5
  o : BitVec 5
  l : BitVec 4
  n : Bool
  b : Bool

def atomicOf (op : AtOp) (k3 : Bool) (o : OpAt) : AtomicWord := ⟨⟨op, if o.w then 8 else 4, k3⟩, o.d, o.a, o.o, o.l, o.n, o.k⟩

/-- The atomics of Table 15-5. -/
def Instr.atomic (i : Instr) : Option AtomicWord :=
  match i with
  | .aadd o => some (atomicOf .add true o)
  | .afadd o => some (atomicOf .fadd false o)
  | .amin o => some (atomicOf .min false o)
  | .amax o => some (atomicOf .max false o)
  | .aand o => some (atomicOf .and false o)
  | .aor o => some (atomicOf .or false o)
  | .axor o => some (atomicOf .xor false o)
  | .aswp o => some (atomicOf .swp true o)
  | .acas o => some (atomicOf .cas true o)
  | .acas2 d a o l n b => some ⟨⟨.cas, 16, true⟩, d, a, o, l, n, b⟩
  | _ => none

end Sys2Proof
end

