-- ==== Sys2Proof/Certificates/Slice0/Obligations.lean ====
section
/-! DEFINITION. The statements for the provers. -/

open Sys2Proof Sys2Proof.Machine

-- Register words.

/-- A register word leaves everything but its results: memory, every other crew and engine, every register, tag, predicate,
flag, control and special register that is no result, the buffered work and the other slot are as before; a result writes the
lanes of its mask alone, and its tag. An earlier result whose lookahead window ends with the word becomes visible after it:
its registers take its lanes and its tag (R116). -/
def Obligations.RegisterWordFrame : Prop :=
  ∀ (s : State) (id n : Nat) (c : Crew) (h : Heat) (la : Nat) (held : List Nat) (ws : List RegW) (fl : Flags)
    (draws : Option Lanes), InHeat s id n c h → n < 2 →
    ∃ (c' : Crew) (h' : Heat),
      s.afterWord id c h la held ws fl draws = s.setCrew id c' ∧
      (s.afterWord id c h la held ws fl draws).mem = s.mem ∧
      (∀ k, k ≠ id → (s.afterWord id c h la held ws fl draws).crew k = s.crew k) ∧
      c'.heat = some h' ∧
      (c'.slot n).pc = (c.slot n).pc + 4 ∧ (c'.slot n).mask = (c.slot n).mask ∧ (c'.slot n).base = (c.slot n).base ∧
      (c'.slot n).chain = (c.slot n).chain ∧ c'.slot (1 - n) = c.slot (1 - n) ∧
      c'.com = c.com ∧ c'.exited = c.exited ∧ c'.stack = c.stack ∧ c'.trap = c.trap ∧ c'.park = c.park ∧ c'.toks = c.toks ∧
      c'.ring = { c.ring with touched := [] } ∧ c'.named = c.named ∧
      h'.off = h.off + 1 ∧ h'.base = h.base ∧ h'.buf = h.buf ∧ h'.group = h.group ∧ h'.sealed = h.sealed ∧ h'.gives = h.gives ∧
      (∀ k, (la ≠ 0 ∨ k ∉ vecKeys ws) → k ∉ vecKeys h.soon →
        h'.wrk.rdV k = h.wrk.rdV k ∧ h'.wrk.rdTag k = h.wrk.rdTag k) ∧
      (∀ k, (la ≠ 0 ∨ ∀ x, RegW.s k x ∉ ws) → (∀ x, RegW.s k x ∉ h.soon) → h'.wrk.rdS k = h.wrk.rdS k) ∧
      (∀ k, (la ≠ 0 ∨ ∀ m x, RegW.p k m x ∉ ws) → (∀ m x, RegW.p k m x ∉ h.soon) → h'.wrk.rdP k = h.wrk.rdP k) ∧
      (∀ k m x g, RegW.v k m x g ∈ h.soon → (vecKeys h.soon).Nodup → (la ≠ 0 ∨ k ∉ vecKeys ws) →
        h'.wrk.rdTag k = g ∧
        ∀ l, l < 32 → lane (h'.wrk.rdV k) l = if m.getLsbD l then lane x l else lane (h.wrk.rdV k) l) ∧
      (∀ k x, RegW.s k x ∈ h.soon → (∀ y, RegW.s k y ∈ h.soon → y = x) → h'.wrk.rdS k = x) ∧
      h'.pend.length = (h.pend.filter (fun p => decide (1 < p.left))).length + (if la = 0 then 0 else 1) ∧
      (∀ k m x g, la = 0 → RegW.v k m x g ∈ ws → (vecKeys ws).Nodup → k ∉ vecKeys h.soon →
        h'.wrk.rdTag k = g ∧
        ∀ l, l < 32 → lane (h'.wrk.rdV k) l = if m.getLsbD l then lane x l else lane (h.wrk.rdV k) l) ∧
      h'.wrk.asw = h.wrk.asw ||| fl.setWidth 16 ∧
      h'.wrk.lfsr = draws.getD h.wrk.lfsr ∧
      h'.wrk.mode = h.wrk.mode ∧ h'.wrk.watch = h.wrk.watch ∧ h'.wrk.tretpc = h.wrk.tretpc ∧ h'.wrk.tretctl = h.wrk.tretctl

/-- Every integer word with the shape of its extent completes, at every IW, SGN and SAT, for block and uniform B: each
contributing lane gets what its operation gives, with the tag of IW, and the flags of all lanes enter ASW, or raise ARITH
where one is enabled (R90). The model's reading that it rests on: log 12. -/
def Obligations.IntegerWordsComplete : Prop :=
  ∀ (s : State) (id n : Nat) (c : Crew) (h : Heat) (i : Instr) (o : OpU) (rd : Reads) (g : IntLane),
    i.intLane = some (o, rd, g) → i.wf = true → InHeat s id n c h →
    pairsFor ((intModeOf h.wrk.mode).w == 64) o rd = true →
    h.wrk.accepts (intTag (modeIw h.wrk.mode)) (h.keys o.a o.e) = true →
    h.wrk.accepts (intTag (modeIw h.wrk.mode)) (h.keysB o rd) = true →
    h.wrk.accepts (intTag (modeIw h.wrk.mode)) (h.keysD o rd) = true →
    Readable c h (h.sources o rd) (h.keys o.d o.e) [] →
    let q := intModeOf h.wrk.mode
    let out := perLane (c.lanes h) ([], 0) (fun l => g q (h.laneA o l) (h.laneB o rd (q.w == 64) l) (h.laneD o rd l))
    let fl := orFlags (out.map Prod.snd)
    (h.admits fl → exec i s = .next (s.afterWord id c h 0 (heldU o h)
      (vecW (h.keys o.d o.e) (c.lanes h) (out.map Prod.fst) (fun _ => intTag (modeIw h.wrk.mode))) fl none)) ∧
    (¬h.admits fl → exec i s = .next (s.arithTrap id n c fl))

/-- At IW 2 without saturation the integer words compute the 32-bit functions of Table 9-4, register by register and lane by
lane, from a block or from the low word of a uniform register; lanes that do not contribute keep their word. -/
def Obligations.IntegerWordsAt32Bits : Prop :=
  ∀ (s : State) (id n : Nat) (c : Crew) (h : Heat) (i : Instr) (o : OpU) (rd : Reads) (f : Bool → Word → Word → Word → Word),
    i.word32 = some (o, rd, f) → i.wf = true → InHeat s id n c h → h.base ≤ 1000 →
    modeIw h.wrk.mode = 2 → (modeRnd h.wrk.mode).sat = false →
    h.wrk.accepts fmtINT32 (h.keys o.a o.e) = true →
    h.wrk.accepts fmtINT32 (h.keysB o rd) = true →
    h.wrk.accepts fmtINT32 (h.keysD o rd) = true →
    Readable c h (h.sources o rd) (h.keys o.d o.e) [] →
    ∃ (t : State) (c' : Crew) (h' : Heat),
      exec i s = .next t ∧ t.crew id = some c' ∧ c'.heat = some h' ∧ h'.wrk.asw = h.wrk.asw ∧
      ∀ j, j < extN o.e → ∀ l, l < 32 →
        h'.wrk.rdTag ((h.keys o.d o.e).getD j 0) = fmtINT32 ∧
        lane (h'.wrk.rdV ((h.keys o.d o.e).getD j 0)) l =
          if (c.lanes h).getLsbD l then
            f (modeSgn h.wrk.mode) (lane (h.wrk.rdV ((h.keys o.a o.e).getD j 0)) l)
              (if o.k then (h.wrk.rdS o.b.toNat).setWidth 32 else lane (h.wrk.rdV ((h.keys o.b o.e).getD j 0)) l)
              (lane (h.wrk.rdV ((h.keys o.d o.e).getD j 0)) l)
          else lane (h.wrk.rdV ((h.keys o.d o.e).getD j 0)) l

/-- Logic words, NOT, SEL and MOV work on whole registers whatever IW, set no flag, and give each register A's tag; under IW 3
the words of major 0x12 ask for even blocks, MOV does not. No other register changes but by a result whose lookahead window
ends. The model's reading that it rests on: log 64. -/
def Obligations.LogicWordsComplete : Prop :=
  ∀ (s : State) (id n : Nat) (c : Crew) (h : Heat) (i : Instr) (o : OpU) (rd : Reads) (f : Word → Word → Word → Word),
    i.logic = some (o, rd, f) → i.wf = true → InHeat s id n c h → h.base ≤ 1000 →
    ((∃ v, i = .mov v) ∨ pairsFor ((intModeOf h.wrk.mode).w == 64) o rd = true) →
    Readable c h (h.sources o rd) (h.keys o.d o.e) [] →
    ∃ (t : State) (c' : Crew) (h' : Heat),
      exec i s = .next t ∧ t = s.setCrew id c' ∧ c'.heat = some h' ∧ h'.wrk.asw = h.wrk.asw ∧
      (∀ k, k ∉ h.keys o.d o.e → h'.wrk.rdV k = (h.wrk.puts h.soon).rdV k ∧ h'.wrk.rdTag k = (h.wrk.puts h.soon).rdTag k) ∧
      ∀ j, j < extN o.e → ∀ l, l < 32 →
        h'.wrk.rdTag ((h.keys o.d o.e).getD j 0) = h.wrk.rdTag ((h.keys o.a o.e).getD j 0) ∧
        lane (h'.wrk.rdV ((h.keys o.d o.e).getD j 0)) l =
          if (c.lanes h).getLsbD l then
            f (lane (h.wrk.rdV ((h.keys o.a o.e).getD j 0)) l)
              (if o.k then (h.wrk.rdS o.b.toNat).setWidth 32 else lane (h.wrk.rdV ((h.keys o.b o.e).getD j 0)) l)
              (lane (h.wrk.rdV ((h.keys o.d o.e).getD j 0)) l)
          else lane (h.wrk.rdV ((h.keys o.d o.e).getD j 0)) l

/-- ICMP writes the guard-true lanes of its predicate: the condition on every element of the lane, at every IW and SGN. MOVI
writes the sign-extended immediate, and MOVH the immediate above the low twelve bits of D, with the tag BITS. The model's
reading that it rests on: log 65. -/
def Obligations.CompareAndImmediateWords : Prop :=
  ∀ (s : State) (id n : Nat) (c : Crew) (h : Heat), InHeat s id n c h →
    (∀ (cc : Cond) (o : OpU), (Instr.icmp cc o).wf = true →
      ((intModeOf h.wrk.mode).w = 64 → pairOk o.a o.e = true ∧ (o.k = true ∨ pairOk o.b o.e = true)) →
      h.wrk.accepts (intTag (modeIw h.wrk.mode)) (h.keys o.a o.e) = true →
      h.wrk.accepts (intTag (modeIw h.wrk.mode)) (h.keysB o readsB) = true →
      Readable c h (h.keys o.a o.e ++ h.keysB o readsB) [] [nameP o.d] →
      let q := intModeOf h.wrk.mode
      exec (.icmp cc o) s = .next (s.afterWord id c h 0 (heldU o h)
        [.p o.d.toNat (c.lanes h) (maskOf (fun l =>
          let ea := elemsOf q.w (h.laneA o l)
          let eb := elemsOf q.w (h.laneB o readsB (q.w == 64) l)
          (List.range ea.length).all (fun j => condHolds cc (q.val (ea.getD j 0)) (q.val (eb.getD j 0)))))] 0 none)) ∧
    (∀ (d : BitVec 5) (i : BitVec 20), Readable c h [] [h.key d.toNat] [] →
      exec (.movi d i) s = .next (s.afterWord id c h 0 []
        (vecW [h.key d.toNat] (c.lanes h) (perLane (c.lanes h) [] (fun _ => [(i.signExtend 32).toNat])) (fun _ => fmtBITS)) 0 none)) ∧
    (∀ (d : BitVec 5) (i : BitVec 20), Readable c h [h.key d.toNat] [h.key d.toNat] [] →
      exec (.movh d i) s = .next (s.afterWord id c h 0 []
        (vecW [h.key d.toNat] (c.lanes h) (perLane (c.lanes h) [] (fun l =>
          [i.toNat * 2 ^ 12 + (lane (h.wrk.rdV (h.key d.toNat)) l).toNat % 2 ^ 12])) (fun _ => fmtBITS)) 0 none))

/-- Every float word with the shape of its extent completes in each of the four float formats: each element of a contributing
lane gets its operation's rounded result, with the lane's draws under SR, and the flags enter ASW. The long-latency words and
FDIV make the result visible after their lookahead. The model's readings that it rests on: logs 12, 50, 51, 69. -/
def Obligations.FloatWordsComplete : Prop :=
  ∀ (s : State) (id n : Nat) (c : Crew) (h : Heat) (i : Instr) (w : FloatWord),
    i.floatWord = some w → i.wf = true → InHeat s id n c h →
    fmtIsFloat (modeFmt h.wrk.mode) = true →
    pairsFor (modeFmt h.wrk.mode == fmtFP64) w.o w.rd = true →
    h.wrk.accepts (modeFmt h.wrk.mode) (h.keys w.o.a w.o.e) = true →
    h.wrk.accepts (w.bTag (modeFmt h.wrk.mode)) (h.keysB w.o w.rd) = true →
    h.wrk.accepts (modeFmt h.wrk.mode) (h.keysD w.o w.rd) = true →
    Readable c h (h.sources w.o w.rd) (h.keys w.o.d w.o.e) [] →
    let f := modeFmt h.wrk.mode
    let rn := modeRnd h.wrk.mode
    let b := slotBits f
    let r := drawLanes c h (fun out => vecW (h.keys w.o.d w.o.e) (c.lanes h) out (fun _ => w.tag f)) (fun l st =>
      let ea := elemsOf b (h.laneA w.o l)
      let eb := elemsOf b (h.laneB w.o w.rd (b == 64) l)
      let ed := elemsOf b (h.laneD w.o w.rd l)
      let x := drawEach (if w.draws then rn else { rn with mode := rndRNE })
        (fun j d => w.op f rn d (ea.getD j 0) (eb.getD j 0) (ed.getD j 0)) (List.range ea.length) st
      (regsOfElems b x.1, x.2.1, x.2.2))
    (h.admits r.fl → exec i s = .next (s.afterWord id c h w.la (w.held h) r.ws r.fl r.lfsr)) ∧
    (¬h.admits r.fl → exec i s = .next (s.arithTrap id n c r.fl))

/-- FCMP writes the guard-true lanes of its predicate: the condition on every element of the lane in the format of MODE, with
NV as R175 sets it. The model's reading that it rests on: log 12. -/
def Obligations.FloatCompareCompletes : Prop :=
  ∀ (s : State) (id n : Nat) (c : Crew) (h : Heat) (cc : FCond) (o : OpU), (Instr.fcmp cc o).wf = true →
    InHeat s id n c h → fmtIsFloat (modeFmt h.wrk.mode) = true →
    (modeFmt h.wrk.mode = fmtFP64 → pairOk o.a o.e = true ∧ (o.k = true ∨ pairOk o.b o.e = true)) →
    h.wrk.accepts (modeFmt h.wrk.mode) (h.keys o.a o.e) = true →
    h.wrk.accepts (modeFmt h.wrk.mode) (h.keysB o readsB) = true →
    Readable c h (h.keys o.a o.e ++ h.keysB o readsB) [] [nameP o.d] →
    let f := modeFmt h.wrk.mode
    let b := slotBits f
    let ftz := (modeRnd h.wrk.mode).ftz
    let one : Nat → List (Bool × Flags) := fun l =>
      let ea := elemsOf b (h.laneA o l)
      let eb := elemsOf b (h.laneB o readsB (b == 64) l)
      (List.range ea.length).map (fun j => fcondHolds cc (valOf f ftz (ea.getD j 0)) (valOf f ftz (eb.getD j 0)))
    let out := perLane (c.lanes h) [] one
    let fl := orFlags (out.flatMap (fun x => x.map Prod.snd))
    (h.admits fl → exec (.fcmp cc o) s = .next (s.afterWord id c h 0 (heldU o h)
      [.p o.d.toNat (c.lanes h) (maskOf (fun l => (out.getD l []).all Prod.fst))] fl none)) ∧
    (¬h.admits fl → exec (.fcmp cc o) s = .next (s.arithTrap id n c fl))

/-- The words whose operands' shapes follow from formats (IMADW, FDOT2, CVT, CVTI, PACK, UNPACK, QSCALE, MXSCALE, RED, SCAN)
complete whenever their operands pass the checks, with the results, flags and draws that their function of the crew's
registers gives. The model's readings that it rests on: logs 12, 50, 52, 68, 69. -/
def Obligations.ShapedWordsComplete : Prop :=
  ∀ (s : State) (id n : Nat) (c : Crew) (h : Heat) (i : Instr) (la : Nat) (held : Heat → List Nat)
    (f : Crew → Heat → Except Stop Res) (r : Res),
    i.calc = some (la, held, f) → i.wf = true → InHeat s id n c h → f c h = .ok r →
    (h.admits r.fl → exec i s = .next (s.afterWord id c h la (held h) r.ws r.fl r.lfsr)) ∧
    (¬h.admits r.fl → exec i s = .next (s.arithTrap id n c r.fl))

/-- What the shaped words compute, in a contributing lane: IMADW the product of A and B added to D's pair in 64 bits (R152);
FDOT2 one rounding of D plus the two products of 16-bit elements (R173); CVT and CVTI each element of the stream rounded once
to F, an integer clipped or wrapped, Grist by blocks of sixteen (R181 to R183); PACK and UNPACK the elements' own bits (R186);
QSCALE each element times its block's power of two, and a NaN for scale 0xFF (R184); MXSCALE the block's scale byte from its
largest magnitude, and each element scaled and rounded with saturation (R185); RED and SCAN the fold of R96 and R97 over the
contributing lanes, the binary tree with absent lanes passed over, rounding at every node, the identity of Table 11-6 where no
lane folds and a canonical NaN for a NaN, without SR for fadd (R96, R97, R196). The model's readings that it rests on: logs 50,
51, 52, 69, 84. -/
def Obligations.ShapedWordsValues : Prop :=
  ∀ (c : Crew) (h : Heat) (r : Res) (l : Nat), (c.lanes h).getLsbD l = true →
    let mode := h.wrk.mode
    let f := modeFmt mode
    let rn := modeRnd mode
    let sgn := modeSgn mode
    let val : Nat → Nat → Int := fun w x => if sgn ∧ 2 ^ (w - 1) ≤ x then (x : Int) - 2 ^ w else x
    let clip : Nat → Int → Int := fun w v => if rn.sat = false then v
      else if sgn then max (-(2 ^ (w - 1))) (min (2 ^ (w - 1) - 1) v) else max 0 (min (2 ^ w - 1) v)
    let num : Nat → Int → Nat := fun w v => (v % 2 ^ w).toNat
    (∀ (o : OpU), (Instr.imadw o).wf = true → imadwCalc o c h = .ok r → ∀ j, j < extN o.e →
      let b := if o.k then (h.wrk.rdS o.b.toNat).toNat % 2 ^ 32 else (h.wrk.at_ (h.keys o.b o.e) l).getD j 0
      let d := (pairUp (h.wrk.at_ (vecKeys r.ws) l)).getD j 0
      (pairUp (r.words l)).getD j 0 =
        num 64 (clip 64 (val 32 ((h.wrk.at_ (h.keys o.a o.e) l).getD j 0) * val 32 b + val 64 d))) ∧
    (∀ (o : OpU) (g : Nat), (Instr.fdot2 o).wf = true → fdot2Calc o c h = .ok r →
      let ks := h.keys o.a o.e ++ (if o.k then [] else h.keys o.b o.e)
      (∀ k ∈ ks, h.wrk.rdTag k = g ∨ h.wrk.rdTag k = fmtBITS) →
      ((g ≠ fmtBITS ∧ ∃ k ∈ ks, h.wrk.rdTag k = g) ∨ (g = fmtBF16 ∧ ∀ k ∈ ks, h.wrk.rdTag k = fmtBITS)) → ∀ j, j < extN o.e →
      let a := (h.wrk.at_ (h.keys o.a o.e) l).getD j 0
      let b := if o.k then (h.wrk.rdS o.b.toNat).toNat % 2 ^ 32 else (h.wrk.at_ (h.keys o.b o.e) l).getD j 0
      let d := (h.wrk.at_ (h.keys o.d o.e) l).getD j 0
      let half : Nat → Nat → Val := fun x i => valOf g rn.ftz (x / 2 ^ (16 * i) % 2 ^ 16)
      (r.words l).getD j 0 = (roundTo fmtFP32 rn (h.drawAt l j) (sumVals (rn.mode == rndRDN) [valOf fmtFP32 rn.ftz d,
        (mulVal (half a 0) (half b 0)).1, (mulVal (half a 1) (half b 1)).1]).1).1) ∧
    (∀ (o : OpLB) (int : Bool), (if int then Instr.cvti o else Instr.cvt o).wf = true → cvtCalc int o c h = .ok r →
      let b := o.b.toNat
      let n := if fmtIsGrist b then capOf f (extN o.e) else capOf b (extN o.e)
      let src := h.wrk.at_ (if fmtIsGrist b then h.dkeys o.a (regsOf b n) else h.keys o.a o.e) l
      let code : Nat → Nat := fun j => (elemsOf (slotBits b) src).getD j 0
      let block : Nat → List Nat → Nat → Nat := fun g rs i => joinRegs rs / 2 ^ (8 * gristBytes g * i) % 2 ^ (8 * gristBytes g)
      let v : Nat → Val := fun j =>
        if fmtIsGrist b then (gristDecode b (block b src (j / 16))).getD (j % 16) (.fin false 0 0 false)
        else if fmtIsInt b then .fin (decide (val (slotBits b) (code j) < 0)) (val (slotBits b) (code j)).natAbs 0 false
        else valOf b rn.ftz (code j)
      (fmtIsGrist f = false → ∀ j, j < n → (elemsOf (slotBits f) (r.words l)).getD j 0 =
        if fmtIsInt b ∧ fmtIsInt f then num (slotBits f) (clip (slotBits f) (val (slotBits b) (code j)))
        else if fmtIsInt f then (roundInt (slotBits f) sgn rn (h.drawAt l j) (v j)).1
        else if f = fmtE8M0 then (roundE8M0 rn (h.drawAt l j) (v j)).1
        else (roundTo f rn (h.drawAt l j) (v j)).1) ∧
      (fmtIsGrist f = true → ∀ i, i < n / 16 → block f (r.words l) i =
        (gristEncode f rn ((List.range 16).map (fun t => h.drawAt l (16 * i + t)))
          ((List.range 16).map (fun t => v (16 * i + t)))).1)) ∧
    (∀ (o : OpV), (Instr.pack o).wf = true → packCalc false o c h = .ok r → ∀ j, j < extN o.e →
      (elemsOf (slotBits f) (r.words l)).getD j 0 = (h.wrk.at_ (h.keys o.a o.e) l).getD j 0 % 2 ^ elemBits f) ∧
    (∀ (o : OpV), (Instr.unpack o).wf = true → packCalc true o c h = .ok r → ∀ j, j < extN o.e * epr f →
      (r.words l).getD j 0 = (elemsOf (slotBits f) (h.wrk.at_ (h.keys o.a o.e) l)).getD j 0 % 2 ^ elemBits f) ∧
    (∀ (o : OpLB), (Instr.qscale o).wf = true → qscaleCalc o c h = .ok r → ∀ j, j < extN o.e * epr f →
      let x := (elemsOf (slotBits f) (h.wrk.at_ (h.keys o.a o.e) l)).getD j 0
      let e := (h.wrk.at_ [h.key (o.b.toNat + j / 128)] l).getD 0 0 / 2 ^ (8 * (j / 32 % 4)) % 256
      (r.words l).getD j 0 = (roundTo fmtFP32 rn (h.drawAt l j)
        (if e = 255 then .nan false else scaleVal (valOf f rn.ftz x) ((e : Int) - 127))).1) ∧
    (∀ (o : OpLB), (Instr.mxscale o).wf = true → mxscaleCalc o c h = .ok r →
      let read : Nat → Nat := fun k => if h.wrk.rdTag k = fmtBITS then fmtFP32 else h.wrk.rdTag k
      let vs := (h.keys o.a o.e).flatMap (fun k => (elemsOf (slotBits (read k)) (h.wrk.at_ [k] l)).map (valOf (read k) rn.ftz))
      let nd := regsOf f vs.length
      ∀ i, 32 * i < vs.length →
        let xs := (vs.drop (32 * i)).take 32
        let special := xs.any (fun x => x.isNaN || x.isInf)
        let scale : Int := match xs.foldl maxMag (.fin false 0 0 false) with
          | .fin _ m e _ => if m = 0 then -127 else max (-127) (min 127 (expOf m e - mxEF f))
          | _ => -127
        ((r.words l).getD (nd + i / 4) 0 / 2 ^ (8 * (i % 4)) % 256 : Nat) = (if special then 255 else scale + 127 : Int) ∧
        ∀ t, t < xs.length → (elemsOf (slotBits f) ((r.words l).take nd)).getD (32 * i + t) 0 =
          if special then 0 else
            (roundTo f { rn with sat := true } (h.drawAt l (32 * i + t)) (scaleVal (xs.getD t (.inf false)) (-scale))).1) ∧
    (∀ (op : RedOp) (kind : RedKind) (o : OpL), (Instr.red op o).wf = true ∨ (∃ x, (Instr.scan op x o).wf = true) →
      redCalc op kind o c h = .ok r → (op = .fadd → rn.mode ≠ rndSR) →
      let w := if redIsLogic op then 32 else if redIsFloat op then slotBits f else iwBits (modeIw mode)
      let lo : Nat := if sgn then 2 ^ (w - 1) else 0
      let hi : Nat := if sgn then 2 ^ (w - 1) - 1 else 2 ^ w - 1
      let g : Nat → Nat → Nat := match op with
        | .fadd => fun a b => (roundTo f rn 0 (sumVals (rn.mode == rndRDN) [valOf f rn.ftz a, valOf f rn.ftz b]).1).1
        | .fmin => fun a b => (minMax false f rn.ftz a b).1
        | .fmax => fun a b => (minMax true f rn.ftz a b).1
        | .iadd => fun a b => num w (clip w (val w a + val w b))
        | .imin => fun a b => if val w a ≤ val w b then a else b
        | .imax => fun a b => if val w a ≤ val w b then b else a
        | .and => fun a b => a &&& b
        | .or => fun a b => a ||| b
      let ident := match op with
        | .fadd => 0
        | .fmin => infBits f false
        | .fmax => infBits f true
        | .iadd => 0
        | .imin => hi
        | .imax => lo
        | .and => 2 ^ 32 - 1
        | .or => 0
      let elem : Nat → Nat → Nat := fun x j => (elemsOf w (h.wrk.at_ (h.keys o.a o.e) x)).getD j 0
      ∀ j, j < (elemsOf w (h.wrk.at_ (h.keys o.a o.e) l)).length →
        let x := redValue kind g ident (c.lanes h) (fun i => elem i j) l
        (elemsOf w (r.words l)).getD j 0 = if redIsFloat op ∧ (valOf f rn.ftz x).isNaN then canonNaN f else x)

/-- TAG changes tags alone; RETAG copies the contributing lanes of A and sets its tag in every register; BCAST gives every
contributing lane the low word of a uniform register; PICK takes one lane's word, 0 from a slice that is not allocated. -/
def Obligations.TagAndMoveWords : Prop :=
  ∀ (s : State) (id n : Nat) (c : Crew) (h : Heat), InHeat s id n c h →
    (∀ (d f : BitVec 5) (e : BitVec 3), (Instr.tag d f e).wf = true → Readable c h [] (h.keys d e) [] →
      exec (.tag d f e) s = .next (s.afterWord id c h 0 [] ((h.keys d e).map (fun k => .v k 0 zeroLanes f.toNat)) 0 none)) ∧
    (∀ (o : OpV) (f : BitVec 5), (Instr.retag o f).wf = true → Readable c h (h.keys o.a o.e) (h.keys o.d o.e) [] →
      exec (.retag o f) s = .next (s.afterWord id c h 0 (heldV o h)
        (vecW (h.keys o.d o.e) (c.lanes h) (perLane (c.lanes h) [] (h.wrk.at_ (h.keys o.a o.e))) (fun _ => f.toNat)) 0 none)) ∧
    (∀ (d a : BitVec 5) (e : BitVec 3), (Instr.bcast d a e).wf = true → Readable c h [] (h.keys d e) [] →
      exec (.bcast d a e) s = .next (s.afterWord id c h 0 []
        ((h.keys d e).map (fun k => .v k (c.lanes h) (lanesOf (fun _ => (h.wrk.rdS a.toNat).setWidth 32)) fmtBITS)) 0 none)) ∧
    (∀ (o : OpPick), Readable c h [h.key o.a.toNat] [] [nameS o.d] →
      let l := (h.wrk.rdS o.b.toNat).toNat % 32
      exec (.pick o) s = .next (s.afterWord id c h 0 (if o.h then [h.key o.a.toNat] else [])
        [.s o.d.toNat (if c.alloc l then (lane (h.wrk.rdV (h.key o.a.toNat)) l).setWidth 64 else 0)] 0 none))

/-- VOTE, ELECT and MATCH over the contributing lanes complete with their lookahead (R189 to R191). SHFL takes each
contributing lane's registers from the lane its mode names, when that lane is one of the slot's active lanes, and else from
the lane itself; the tags are A's (R192). Predicate codes above 7 for VOTE, p0 for ELECT and set reserved fields are ILLEGAL,
and a lane operand of another tag is FORMAT. -/
def Obligations.VoteAndShuffleWordsComplete : Prop :=
  (∀ (s : State) (id n : Nat) (c : Crew) (h : Heat) (d a : BitVec 5) (l : BitVec 4), InHeat s id n c h →
      let m := c.lanes h
      let p := h.wrk.rdP a.toNat &&& m
      (predOk a = true → Readable c h [] [] [nameS d] →
        exec (.vote .ballot d a l) s = .next (s.afterWord id c h l.toNat [] [.s d.toNat (p.setWidth 64)] 0 none) ∧
        exec (.vote .any d a l) s = .next (s.afterWord id c h l.toNat [] [.s d.toNat (if p = 0 then 0 else 1)] 0 none) ∧
        exec (.vote .all d a l) s = .next (s.afterWord id c h l.toNat [] [.s d.toNat (if p = m then 1 else 0)] 0 none) ∧
        exec (.vote .uni d a l) s = .next (s.afterWord id c h l.toNat [] [.s d.toNat (if p = 0 ∨ p = m then 1 else 0)] 0 none)) ∧
      (predDst d = true → Readable c h [] [] [nameP d] →
        exec (.elect d l) s = .next (s.afterWord id c h l.toNat [] [.p d.toNat m (1#32 <<< lowest m)] 0 none)) ∧
      (∀ op, predOk a = false → exec (.vote op d a l) s = .next ((s.setCrew id c).raise id n ⟨cILLEGAL, 0, 0⟩ none false)) ∧
      (predDst d = false → exec (.elect d l) s = .next ((s.setCrew id c).raise id n ⟨cILLEGAL, 0, 0⟩ none false)) ∧
      (Readable c h [h.key a.toNat] [h.key d.toNat] [] →
        exec (.matchLanes d a l) s = .next (s.afterWord id c h l.toNat []
          [.v (h.key d.toNat) m (lanesOf (fun x => maskOf (fun y =>
            m.getLsbD y && lane (h.wrk.rdV (h.key a.toNat)) y == lane (h.wrk.rdV (h.key a.toNat)) x))) fmtINT32] 0 none))) ∧
  (∀ (s : State) (id n : Nat) (c : Crew) (h : Heat) (md : ShflMode) (o : OpLB), (Instr.shfl md o).wf = true →
      InHeat s id n c h →
      let kb := h.key o.b.toNat
      let vb := if md = .idx then [kb] else []
      (h.wrk.tagsIn vb [fmtINT32, fmtBITS] = false → Readable c h (h.keys o.a o.e ++ vb) (h.keys o.d o.e) [] →
        exec (.shfl md o) s = .next ((s.setCrew id c).raise id n ⟨cFORMAT, 0, 0⟩ none false)) ∧
      (h.wrk.tagsIn vb [fmtINT32, fmtBITS] = true → Readable c h (h.keys o.a o.e ++ vb) (h.keys o.d o.e) [] →
      let u := (h.wrk.rdS o.b.toNat).toNat
      let src : Nat → Nat := fun l => match md with
        | .idx => (lane (h.wrk.rdV kb) l).toNat % 32
        | .up => if u ≤ l then l - u else 32
        | .down => l + u
        | .xor => l ^^^ (u % 32)
      exec (.shfl md o) s = .next (s.afterWord id c h o.l.toNat []
        (vecW (h.keys o.d o.e) (c.lanes h) (perLane (c.lanes h) [] (fun l =>
          h.wrk.at_ (h.keys o.a o.e) (if src l < 32 ∧ (c.active h).getLsbD (src l) = true then src l else l)))
          (fun j => h.wrk.rdTag ((h.keys o.a o.e).getD j 0))) 0 none))) ∧
  (∀ (w : Word), opc w = 0x22 →
      (fld w 0 3 = 0 ∧ (4 ≤ (fB w).toNat ∨ fE w ≠ 0)) ∨ (fld w 0 3 = 1 ∧ (fA w ≠ 0 ∨ fB w ≠ 0 ∨ fE w ≠ 0)) ∨
        (fld w 0 3 = 2 ∧ (fB w ≠ 0 ∨ fE w ≠ 0)) → ∀ i, decodeWord w ≠ .ok i) ∧
  (∀ (w : Word), opc w = 0x23 → 4 ≤ (fld w 0 3).toNat → ∀ i, decodeWord w ≠ .ok i)

/-- PERMSET routes the index vector, completed over the open lanes, into three uniform registers, with NV when a
contributing lane repeats an index; PERM applies such control bits to the active lanes' words (R193 to R195). The model's
reading that it rests on: log 12. -/
def Obligations.PermutationWordsComplete : Prop :=
  ∀ (s : State) (id n : Nat) (c : Crew) (h : Heat), InHeat s id n c h →
    (∀ (d a : BitVec 5) (l : BitVec 4), (Instr.permset d a l).wf = true →
      h.wrk.tagsIn [h.key a.toNat] [fmtINT32, fmtBITS] = true →
      Readable c h [h.key a.toNat] [] [nameS d, nameS d + 1, nameS d + 2] →
      let kept := (permKeep (c.lanes h) (h.wrk.rdV (h.key a.toNat))).1
      let dup := (permKeep (c.lanes h) (h.wrk.rdV (h.key a.toNat))).2
      let ctl := route 4 0 0 (permFill kept ((List.range 32).filter (fun x => !kept.contains (some x))))
      (h.admits (flIf dup flNV) → exec (.permset d a l) s = .next (s.afterWord id c h l.toNat []
        ((List.range 3).map (fun j => .s (d.toNat + j) (BitVec.ofNat 64 (ctl / 2 ^ (64 * j))))) (flIf dup flNV) none)) ∧
      (¬h.admits (flIf dup flNV) → exec (.permset d a l) s = .next (s.arithTrap id n c (flIf dup flNV)))) ∧
    (∀ (o : OpLB), (Instr.perm o).wf = true → Readable c h (h.keys o.a o.e) (h.keys o.d o.e) [] →
      let u := fun j => (h.wrk.rdS (o.b.toNat + j)).toNat
      let ctl := u 0 + 2 ^ 64 * u 1 + 2 ^ 128 * u 2
      exec (.perm o) s = .next (s.afterWord id c h o.l.toNat []
        ((List.range (h.keys o.a o.e).length).map (fun j =>
          let k := (h.keys o.a o.e).getD j 0
          .v ((h.keys o.d o.e).getD j 0) (c.lanes h)
            (benes ctl 4 0 0 (lanesOf (fun x => if (c.active h).getLsbD x then lane (h.wrk.rdV k) x else 0)))
            (h.wrk.rdTag k))) 0 none))

/-- The control string that the routing gives a permutation pi makes the network deliver to every lane L the word of lane
pi(L) (R194). -/
def Obligations.RoutesPerformPermutations : Prop :=
  ∀ (pi : List Nat) (x : List Word), pi.length = 32 → pi.Nodup → (∀ p ∈ pi, p < 32) → x.length = 32 → ∀ l, l < 32 →
    (benes (route 4 0 0 pi) 4 0 0 x).getD l 0 = x.getD (pi.getD l 0) 0

/-- The uniform words of a crew compute the 64-bit functions of Table 9-6; SSEL takes the guard of the lowest active lane,
SCMP writes every active lane of its predicate; the predicate words write the guard-true lanes, and PCNT counts active lanes. -/
def Obligations.UniformWordsComplete : Prop :=
  ∀ (s : State) (id n : Nat) (c : Crew) (h : Heat), InHeat s id n c h →
    (∀ (i : Instr) (d : BitVec 5) (f : (Nat → DWord) → Bool → DWord), i.uniform = some (d, f) → Readable c h [] [] [nameS d] →
      exec i s = .next (s.afterWord id c h 0 [] [.s d.toNat (f h.wrk.rdS (modeSgn h.wrk.mode))] 0 none)) ∧
    (∀ (o : Op3), Readable c h [] [] [nameS o.d] →
      exec (.ssel o) s = .next (s.afterWord id c h 0 []
        [.s o.d.toNat (if h.wrk.guard.getLsbD (lowest (c.active h)) then h.wrk.rdS o.a.toNat else h.wrk.rdS o.b.toNat)] 0 none)) ∧
    (∀ (cc : Cond) (o : Op3), predDst o.d = true → Readable c h [] [] [nameP o.d] →
      let v : BitVec 5 → Int := fun r => intVal 64 (modeSgn h.wrk.mode) (h.wrk.rdS r.toNat).toNat
      exec (.scmp cc o) s = .next (s.afterWord id c h 0 []
        [.p o.d.toNat (c.active h) (if condHolds cc (v o.a) (v o.b) then BitVec.allOnes 32 else 0)] 0 none)) ∧
    (∀ (i : Instr) (d : BitVec 5) (f : (Nat → Word) → Word), i.predicate = some (d, f) → i.wf = true →
      Readable c h [] [] [nameP d] →
      exec i s = .next (s.afterWord id c h 0 [] [.p d.toNat (c.lanes h) (f h.wrk.rdP)] 0 none)) ∧
    (∀ (o : Op2), predOk o.a = true → Readable c h [] [] [nameS o.d] →
      exec (.pcnt o) s = .next (s.afterWord id c h 0 []
        [.s o.d.toNat (BitVec.ofNat 64 (popcount 32 (c.active h &&& h.wrk.rdP o.a.toNat).toNat))] 0 none))

-- Memory words.

/-- LD and LDX complete when every lane's access resolves: a page whose reads have side effects seals the heat, each
contributing lane's registers get the image of its bytes with the tag of the form, now or after the lookahead, and an acquire
follows. Data with an uncorrectable error enters a lookahead window as zeros.
The model's readings that it rests on: logs 13, 17, 61. -/
def Obligations.LoadWordsComplete : Prop :=
  ∀ (s s1 : State) (id n : Nat) (c : Crew) (h : Heat) (i : Instr) (m : MemOp) (ls : List (Nat × List Hit)),
    i.load = some m → i.wf = true → InHeat s id n c h → loadOrd h.wrk.mode = true →
    formOk m.f (modeFmt h.wrk.mode) m.d m.e = true →
    Readable c h (h.baseKeys m.k m.a) (h.keys m.d m.e) [] →
    let mode := h.wrk.mode
    let w := s.whoCrew id c
    (s.setCrew id c).checkLanes w (s.siteCrew id c) c.com.watchFail true
      (m.accs c h (formBytes m.f (modeFmt mode) (extN m.e)) aRead) = (s1, .ok ls) →
    let s2 := s1.sealedFor id ls
    let r := s2.readLanes w (modeCache mode) (s2.heatOf id) ls
    let s3 := r.1.loadAcquire id mode
    let g := s3.got w true (m.accs c h (formBytes m.f (modeFmt mode) (extN m.e)) aRead) ls
    (m.l = 0 → g.bad = none) →
    exec i s = .next ((s3.emitted id (g.seen (vecW (h.keys m.d m.e) (c.lanes h) (loadOuts m mode r.2)
      (fun _ => formTag m.f (modeFmt mode)))) m.l.toNat g).nextWord id 0)

/-- A load of scratch or register space, relaxed and without lookahead: every contributing lane's word is its part of the
image of the bytes read, for scratch the heat's own buffered stores first; other lanes keep their words; all of memory and
every other crew are as before, and all other registers but for a result whose lookahead window ends.
The model's reading that it rests on: log 61. -/
def Obligations.ScratchLoadsReadAndKeepMemory : Prop :=
  ∀ (s s1 : State) (id n : Nat) (c : Crew) (h : Heat) (i : Instr) (m : MemOp) (ls : List (Nat × List Hit)),
    i.load = some m → i.wf = true → InHeat s id n c h → h.base ≤ 1000 →
    m.storage h.wrk.mode = 0 → modeOrd h.wrk.mode = 0 → m.l = 0 →
    formOk m.f (modeFmt h.wrk.mode) m.d m.e = true →
    Readable c h (h.baseKeys m.k m.a) (h.keys m.d m.e) [] →
    let mode := h.wrk.mode
    let w := s.whoCrew id c
    (s.setCrew id c).checkLanes w (s.siteCrew id c) c.com.watchFail true
      (m.accs c h (formBytes m.f (modeFmt mode) (extN m.e)) aRead) = (s1, .ok ls) →
    s.poisoned w (ls.flatMap Prod.snd) = false →
    ∃ (t : State) (c' : Crew) (h' : Heat),
      exec i s = .next t ∧ t.crew id = some c' ∧ c'.heat = some h' ∧ t.mem = s.mem ∧
      (∀ k, k ≠ id → t.crew k = s.crew k) ∧ h'.buf = h.buf ∧ h'.wrk.asw = h.wrk.asw ∧ h'.wrk.mode = h.wrk.mode ∧
      h'.wrk.s = (h.wrk.puts h.soon).s ∧ h'.wrk.p = (h.wrk.puts h.soon).p ∧
      (∀ k, k ∉ h.keys m.d m.e → h'.wrk.rdV k = (h.wrk.puts h.soon).rdV k ∧ h'.wrk.rdTag k = (h.wrk.puts h.soon).rdTag k) ∧
      (∀ l hs, (l, hs) ∈ ls → ∀ j, j < extN m.e →
        lane (h'.wrk.rdV ((h.keys m.d m.e).getD j 0)) l =
          BitVec.ofNat 32 ((loadImage m.f (modeFmt mode) (extN m.e) (modeSgn mode) ((s.setCrew id c).laneBytes w h hs)).getD j 0)) ∧
      ∀ j, j < extN m.e →
        h'.wrk.rdTag ((h.keys m.d m.e).getD j 0) = formTag m.f (modeFmt mode) ∧
        ∀ l, l < 32 → (c.lanes h).getLsbD l = false →
          lane (h'.wrk.rdV ((h.keys m.d m.e).getD j 0)) l = lane (h.wrk.rdV ((h.keys m.d m.e).getD j 0)) l

/-- ST and STX complete when every lane's access resolves and Grist data covers whole blocks: the bytes of the lanes' images
go to the heat store buffer, or at once to memory when the store leaves the package. The model's readings that it rests on:
logs 13, 17, 52. -/
def Obligations.StoreWordsComplete : Prop :=
  ∀ (s s1 : State) (id n : Nat) (c : Crew) (h : Heat) (i : Instr) (m : MemOp) (ls : List (Nat × List Hit)),
    i.store = some m → i.wf = true → InHeat s id n c h → storeOrd h.wrk.mode = true →
    formOk m.f (modeFmt h.wrk.mode) m.d m.e = true →
    Readable c h (h.baseKeys m.k m.a ++ h.keys m.d m.e) [] [] →
    let mode := h.wrk.mode
    let size := formBytes m.f (modeFmt mode) (extN m.e)
    gristStop h.wrk (h.keys m.d m.e) (m.accs c h size aWrite) = none →
    (s.setCrew id c).checkLanes (s.whoCrew id c) (s.siteCrew id c) c.com.watchFail true (m.accs c h size aWrite) = (s1, .ok ls) →
    let cells := ls.flatMap (fun l => cellsOf l.2 (storeImage m.f (modeFmt mode) (h.wrk.at_ (h.keys m.d m.e) l.1) size))
    let now := !m.x && (modeStore mode == 2 || decide (5 ≤ modeScope mode))
    exec i s = .next ((s1.storeCells id h now cells mode).nextWord id 0)

/-- A store that stays in the package, within the buffer's 32 lines, changes no byte of memory and writes no register: its
bytes wait in program order behind the heat's earlier stores (R48). The model's readings that it rests on: logs 13, 17. -/
def Obligations.StoresWaitInTheHeat : Prop :=
  ∀ (s s1 : State) (id n : Nat) (c : Crew) (h : Heat) (i : Instr) (m : MemOp) (ls : List (Nat × List Hit)),
    i.store = some m → i.wf = true → InHeat s id n c h → storeOrd h.wrk.mode = true →
    formOk m.f (modeFmt h.wrk.mode) m.d m.e = true →
    Readable c h (h.baseKeys m.k m.a ++ h.keys m.d m.e) [] [] →
    let mode := h.wrk.mode
    let size := formBytes m.f (modeFmt mode) (extN m.e)
    gristStop h.wrk (h.keys m.d m.e) (m.accs c h size aWrite) = none →
    (s.setCrew id c).checkLanes (s.whoCrew id c) (s.siteCrew id c) c.com.watchFail true (m.accs c h size aWrite) = (s1, .ok ls) →
    let cells := ls.flatMap (fun l => cellsOf l.2 (storeImage m.f (modeFmt mode) (h.wrk.at_ (h.keys m.d m.e) l.1) size))
    (m.x = true ∨ (modeStore mode ≠ 2 ∧ modeScope mode < 5)) → (∀ x ∈ cells, ∀ k3 d, x.sp ≠ .ext k3 d) → cells ≠ [] →
    bufLines h.buf cells ≤ 32 →
    ∃ (t : State) (c' : Crew) (h' : Heat),
      exec i s = .next t ∧ t.crew id = some c' ∧ c'.heat = some h' ∧ t.mem = s1.mem ∧
      (∀ k, k ≠ id → t.crew k = s.crew k) ∧
      h'.buf = h.buf ++ [.store cells mode] ∧ h'.wrk = h.wrk.puts h.soon ∧ h'.sealed = h.sealed ∧ c'.com = c.com

/-- SLD, SST and LDC of a crew complete when their one access resolves (R252, R253). LDC asks for GLOBAL or ALL storage and
reads the cluster's constant cache; its access resolves on pages of class 2 alone.
The model's readings that it rests on: logs 13, 17, 61, 75. -/
def Obligations.UniformAccessesComplete : Prop :=
  ∀ (s s1 : State) (id n : Nat) (c : Crew) (h : Heat) (ls : List (Nat × List Hit)), InHeat s id n c h →
    let mode := h.wrk.mode
    let w := s.whoCrew id c
    let chk := fun b o size k =>
      (s.setCrew id c).checkLanes w (s.siteCrew id c) c.com.watchFail false (uniAcc (h.wrk.rdS b) o size k mode)
    (∀ (o : OpSy) (sx : Bool) (z : BitVec 2), loadOrd mode = true → Readable c h [] [] [nameS o.d] →
      chk o.a.toNat o.o.toNat (slBytes z) aRead = (s1, .ok ls) →
      let s2 := s1.sealedFor id ls
      let r := s2.readLanes w (modeCache mode) (s2.heatOf id) ls
      let s3 := r.1.loadAcquire id mode
      let g := s3.got w false (uniAcc (h.wrk.rdS o.a.toNat) o.o.toNat (slBytes z) aRead mode) ls
      (o.l = 0 → g.bad = none) →
      exec (.sld o sx z) s = .next ((s3.emitted id
        (g.seen [.s o.d.toNat (extendTo64 sx (slBytes z) (leNat (r.2.flatMap Prod.snd)))]) o.l.toNat g).nextWord id 0)) ∧
    (∀ (o : OpS3) (z : BitVec 2), storeOrd mode = true → Readable c h [] [] [] →
      chk o.a.toNat o.o.toNat (slBytes z) aWrite = (s1, .ok ls) →
      exec (.sst o z) s = .next ((s1.storeCells id h (modeStore mode == 2 || decide (5 ≤ modeScope mode))
        (ls.flatMap (fun l => cellsOf l.2 (leOf (slBytes z) (h.wrk.rdS o.d.toNat).toNat))) mode).nextWord id 0)) ∧
    (∀ (d a o : BitVec 5) (e : BitVec 3) (l : BitVec 4) (t : Bool), (Instr.ldc d a o e l t).wf = true →
      let f : MemForm := if t then .t else .w
      let fmt := modeFmt mode
      let hs := ls.flatMap Prod.snd
      loadOrd mode = true → formOk f fmt d e = true → (modeStore mode = 1 ∨ modeStore mode = 3) →
      Readable c h [] (h.keys d e) [] →
      let as := (uniAcc (h.wrk.rdS a.toNat) o.toNat (formBytes f fmt (extN e)) aRead mode).map (fun x => (x.1, { x.2 with page := 1 }))
      (s.setCrew id c).checkLanes w (s.siteCrew id c) c.com.watchFail false as = (s1, .ok ls) →
      let n := s1.coreOf c / 96
      let s2 := if hs.any (fun x => x.se) then s1.seal id else s1
      let bs := hs.map (fun x => ((s2.heatOf id).bind (fun h => h.forward x.sp x.pa)).getD (s2.constByte w n x))
      let s3 := ((s2.constFill n hs).touchHits w (modeCache mode) (hs.filter (fun x => constLine x == none))).loadAcquire id mode
      let g := s3.got w false as ls
      (l = 0 → g.bad = none) →
      exec (.ldc d a o e l t) s = .next ((s3.emitted id (g.seen (vecW (h.keys d e) (c.lanes h)
        ((List.range 32).map (fun _ => loadImage f fmt (extN e) (modeSgn mode) bs)) (fun _ => formTag f fmt))) l.toNat g).nextWord id 0))

/-- PREF, CFLUSH, CINV and HINT complete: at SCRATCH storage they only pass; else PREF fetches or owns the lines it may, CFLUSH
and CINV wait in the heat's buffer, CFLUSH with whether its page is shared, and HINT's advice joins the die's queue (R254).
Scratch, the host's and peers' storage and the other crews are as before. The model's reading that it rests on: log 84. -/
def Obligations.CacheWordsComplete : Prop :=
  ∀ (s : State) (id n : Nat) (c : Crew) (h : Heat) (o : OpCache), InHeat s id n c h →
    Readable c h (h.baseKeys o.k o.a) [] [] →
    let mode := h.wrk.mode
    let w := s.whoCrew id c
    let s0 := s.setCrew id c
    let keep : BufOp → Hit → State → State := fun op x s => if x.sp = .pkg ∨ x.sp = .peer then s.buffer id op else s
    let site : Hit → Nat := fun x => if x.sp = .pkg then x.pa else peerLine x.pa * 128
    let shared : Hit → Bool := fun x => x.sp != .pkg || x.cls == 0
    let same : Host.Outcome State Fault Refusal → Prop := fun r => ∀ t, r = .next t →
      t.mem.scr = s.mem.scr ∧ t.mem.ext = s.mem.ext ∧ t.mem.peer = s.mem.peer ∧ ∀ k, k ≠ id → t.crew k = s.crew k
    let checked : Bool → State × List (Nat × LaneRes) := fun watched =>
      (cacheAddrs o c h).foldl (fun x la =>
        let r := x.1.vaPlace w (lineAcc la.2 aRead mode)
          (if watched then c.com.watchFail { (lineAcc la.2 aRead mode) with k := aWrite } else none) false
        (r.1, x.2 ++ [(la.1, r.2)])) (s0, [])
    (modeStore mode = 0 → ∀ i ∈ [Instr.pref o, Instr.cflush o, Instr.cinv o, Instr.hint o], i.wf = true →
      exec i s = .next (s0.nextWord id 0)) ∧
    (modeStore mode ≠ 0 →
      ((Instr.pref o).wf = true →
        exec (.pref o) s = .next (((cacheAddrs o c h).foldl (prefLine o.s.toNat w mode) s0).nextWord id 0) ∧
        same (exec (.pref o) s)) ∧
      ((Instr.cflush o).wf = true → ∀ ls, laneOutcome true (checked false).2 = .ok ls →
        exec (.cflush o) s = .next ((ls.foldl (fun s l => match l.2 with
          | x :: _ => keep (.flush (site x) (o.s == 1) (shared x)) x s
          | [] => s) (checked false).1).nextWord id 0) ∧ same (exec (.cflush o) s)) ∧
      ((Instr.cinv o).wf = true → ∀ ls, laneOutcome true (checked true).2 = .ok ls →
        exec (.cinv o) s = .next ((ls.foldl (fun s l => match l.2 with
          | x :: _ => keep (.inval (site x)) x s
          | [] => s) (checked true).1).nextWord id 0) ∧ same (exec (.cinv o) s)) ∧
      ((Instr.hint o).wf = true →
        exec (.hint o) s = .next (((cacheAddrs o c h).foldl (fun s la =>
          match s.lineHit w la.2 mode with
          | (s, some x) =>
            let q := Tab.get s.pool.hints w.die [] ++ [.hint (x.pa / 65536) o.s.toNat]
            { s with pool := { s.pool with hints := Tab.put s.pool.hints w.die q } }
          | (s, none) => s) s0).nextWord id 0) ∧ same (exec (.hint o) s)))

/-- Every atomic completes when its places resolve: UNPAIRED, COMMUTATIVE and NONORDERING ones seal the heat and are performed
lane by lane at once, SPECULATIVE ones without sealing, and the returning form gives the old values; a relaxed COMMUTATIVE
one of package memory that returns nothing waits for the crew's next release (R229); a QUANTUM atomic seals, joins its group
and is performed at the closer (R52, R231, R255 to R257). The queue of each home slice they need has room (R272). Lanes whose
AtomicOp the host completer turned away give zero and are not performed (R387).
The model's readings that it rests on: logs 13, 16, 20, 88. -/
def Obligations.AtomicWordsComplete : Prop :=
  ∀ (s s1 : State) (id n : Nat) (c : Crew) (h : Heat) (i : Instr) (a : AtomicWord) (ls : List (Nat × List Hit)),
    i.atomic = some a → i.wf = true → InHeat s id n c h →
    let mode := h.wrk.mode
    let use := modeUse mode
    let m := a.k.bytes / 4
    let ks := h.dkeys a.d (if a.k.op == .cas then 2 * m else m)
    let dst := if a.n then [] else ks.take m
    let itag := if a.k.bytes = 8 then fmtINT64 else fmtINT32
    let tag := if a.k.op.int then itag else if a.k.op == .fadd then modeFmt mode else fmtBITS
    (use = 4 → modeOrd mode = 0) → (a.k.op = .fadd → (modeRnd mode).mode ≠ rndSR) → (use = 3 → ∀ x ∈ dst, x < 1024) →
    (a.k.op.int = true → h.wrk.accepts itag ks = true) →
    (a.k.op = .fadd → modeFmt mode = (if a.k.bytes = 8 then fmtFP64 else fmtFP32) ∧ h.wrk.accepts (modeFmt mode) ks = true) →
    Readable c h (h.baseKeys a.b a.a ++ ks) dst [] →
    let noK3 := !(a.k.k3 && s.port.aopcap.getLsbD (if a.k.bytes = 4 then 0 else if a.k.bytes = 8 then 1 else 2))
    let as := (lanesIn (c.lanes h)).map (fun l => (l, (⟨addrOf (h.baseAt a.b a.a l) a.o.toNat a.k.bytes, a.k.bytes, aAtomic,
      modeStore mode, modeScope mode, a.k.bytes, false, noK3, 0⟩ : Acc)))
    (s.setCrew id c).atomicPlaces id c h as = (s1, .ok ls) →
    let away := c.turnsAway ls
    let g := (s1.got (s1.whoCrew id c) true as ls).turned as away
    let lanes := ls.map (fun l =>
      let x := l.2.headD ⟨.scr, 0, false, 0⟩
      let v := atData a.k (h.wrk.at_ ks l.1)
      (⟨l.1, (as.find? (fun y => y.1 == l.1)).elim 0 (fun y => y.2.va), x.sp, x.pa, v.1, v.2⟩ : AtLane))
    let s1 := s1.aopTaken id ls
    let s2 := if use = 4 then s1 else s1.seal id
    let q : QMember := ⟨0, a.k.op, a.k.bytes, lanes, [], c.lanes h, tag, mode, (c.slot h.slot).pc, h.off⟩
    let s3 := q.slices.foldl (fun s x => s.claim (resAtomic x) id) s2
    let defers := a.n = true ∧ use = 1 ∧ modeOrd mode = 0 ∧ ∀ l ∈ lanes, l.sp = .pkg
    (use ≠ 3 → (∀ x ∈ q.slices, s2.admitted (resAtomic x) id = true) → (a.n = true ∨ a.l = 0 → g.bad = none) → ¬defers →
      let r := s3.atomicLanes id (s3.whoCrew id c) a.k.op a.k.bytes mode (lanes.filter (fun l => !away l.lane))
      let olds := r.2 ++ (lanes.filter (fun l => away l.lane)).map (fun l => (l.lane, 0))
      exec i s = .next ((if a.n then r.1 else
        r.1.emitted id (g.seen (atResult dst (c.lanes h) tag olds)) a.l.toNat g).nextWord id 0)) ∧
    ((∀ x ∈ q.slices, s2.admitted (resAtomic x) id = true) → g.bad = none → defers →
      exec i s = .next ((s3.updCrew id (fun c' => { c' with later := c'.later ++ [q] })).nextWord id 0)) ∧
    (use = 3 → (as = [] → (h.members (modeQgrp mode)).length < 4 ∧ modeScope mode < 5) →
      exec i s = .next ((s2.updCrew id (fun c => match c.heat with
        | some h => { c with heat := some { h with
            dests := (h.dests ++ dst).eraseDups
            group := h.group ++ [⟨modeQgrp mode, a.k.op, a.k.bytes, lanes, dst, c.lanes h, tag, mode, (c.slot h.slot).pc, h.off⟩] } }
        | none => c)).nextWord id 0))

/-- An atomic of scratch replaces exactly its bytes by the new value of Table 15-5, at every width, and gives the old value;
in a barrier word it changes the writable bits alone, WAITERS and the reserved fields keep theirs (Table 15-7); every other
byte of scratch and all other memory are as before. -/
def Obligations.ScratchAtomicsChangeTheirBytes : Prop :=
  ∀ (s : State) (w : Who) (op : AtOp) (mode : BitVec 40) (a n d d2 : Nat), n ∈ [4, 8, 16] → Memory.wf s.mem.scr = true →
    let r := s.rmw w (modeScope mode) (modeCache mode) .scr a n (fun v => op.apply n mode v d d2)
    r.2 = leNat (Memory.getBytes s.mem.scr a n) ∧
    ((∀ i, i < n → s.barWord w.rk ((a + i) / 2 ^ 24) ((a + i) % 2 ^ 24) = none) →
      leNat (Memory.getBytes r.1.mem.scr a n) = op.apply n mode r.2 d d2 % 2 ^ (8 * n)) ∧
    (∀ i b, i < n → s.barWord w.rk ((a + i) / 2 ^ 24) ((a + i) % 2 ^ 24) = some b →
      let free : Byte := BitVec.ofNat 8 (bits barKeep (8 * (a + i - b)) 8)
      let new : Byte := BitVec.ofNat 8 (op.apply n mode r.2 d d2 / 2 ^ (8 * i))
      Memory.get r.1.mem.scr (a + i) = (Memory.get s.mem.scr (a + i) &&& ~~~free) ||| (new &&& free)) ∧
    (∀ x, x < a ∨ a + n ≤ x → Memory.get r.1.mem.scr x = Memory.get s.mem.scr x) ∧
    r.1.mem.pkg = s.mem.pkg ∧ r.1.mem.ext = s.mem.ext ∧ r.1.mem.peer = s.mem.peer ∧ r.1.mem.lines = s.mem.lines ∧
    r.1.crews = s.crews

/-- FENCE completes at every order but RELAXED: its acquire once the crew's deferred atomics are performed, its release with
the heat's buffered stores; a Miller context performs both at once, for GLOBAL storage (R260). -/
def Obligations.FencesComplete : Prop :=
  (∀ (s : State) (id n : Nat) (c : Crew) (h : Heat), InHeat s id n c h → Readable c h [] [] [] →
    let o := modeOrd h.wrk.mode
    let sc := modeScope h.wrk.mode
    let st := modeStore h.wrk.mode
    o ≠ 0 →
    let s1 := if o = 2 then s.setCrew id c else ((s.setCrew id c).performLater id).acquireCrew id sc st
    exec .fence s = .next ((if o = 1 then s1 else s1.buffer id (.release sc st)).nextWord id 0)) ∧
  (∀ (s : State) (k : Nat) (e : Eng), InEngine s k e → engKind k = 0 →
    let o := modeOrd e.mode
    let sc := modeScope e.mode
    let glob := modeStore e.mode = 1 ∨ modeStore e.mode = 3
    o ≠ 0 →
    let w := s.whoEng k e
    let s1 := if glob ∧ o ≠ 2 then s.engAcquire w sc else s
    exec .fence s = .next ((if glob ∧ o ≠ 1 then s1.engRelease w sc else s1).nextEngWord k))

-- Engine contexts, special values, hints.

/-- The words that an engine context shares with crews complete there on its own registers: uniform and predicate words, SSEL,
SCMP, PCNT, SRD of CLUSTER, CLOCK and MODE, NOP, YIELD, MODE and MODEM; in a Miller context SLD and SST too.
The model's readings that it rests on: logs 24, 75. -/
def Obligations.EngineUniformWordsComplete : Prop :=
  ∀ (s : State) (k : Nat) (e : Eng), InEngine s k e →
    let put : BitVec 5 → DWord → Host.Outcome State Fault Refusal := fun d x =>
      .next ((s.setEng k (e.putS d.toNat x)).nextEngWord k)
    let free : BitVec 5 → Prop := fun d => ∀ p ∈ e.pend, p.reg ≠ d.toNat
    (∀ i d f, Instr.uniform i = some (d, f) → free d → exec i s = put d (f e.rdS (modeSgn e.mode))) ∧
    (∀ o, free o.d → exec (.ssel o) s = put o.d (if e.guard then e.rdS o.a.toNat else e.rdS o.b.toNat)) ∧
    (∀ cc o, predDst o.d = true →
      let v : BitVec 5 → Int := fun r => intVal 64 (modeSgn e.mode) (e.rdS r.toNat).toNat
      exec (.scmp cc o) s = .next ((s.setEng k (e.putP o.d.toNat (condHolds cc (v o.a) (v o.b)))).nextEngWord k)) ∧
    (∀ i d f, Instr.predicate i = some (d, f) → i.wf = true →
      exec i s = .next ((s.setEng k (e.putP d.toNat ((f (fun n => if e.rdP n then 1 else 0)).getLsbD 0))).nextEngWord k)) ∧
    (∀ o, predOk o.a = true → free o.d → exec (.pcnt o) s = put o.d (if e.rdP o.a.toNat then 1 else 0)) ∧
    (∀ (d : BitVec 5) (sel : BitVec 8) (x : DWord), free d →
      (sel = 0x0A ∧ engKind k ≠ 2 ∧ x = BitVec.ofNat 64 (engUnit k) ∨ sel = 0x15 ∧ x = BitVec.ofNat 64 s.clock ∨
        sel = 0x17 ∧ x = e.mode.setWidth 64) →
      ∃ m, exec (.srd d 0 sel) s = .next (({ s with freeCount := m }.setEng k (e.putS d.toNat x)).nextEngWord k)) ∧
    exec .nop s = .next ((s.setEng k e).nextEngWord k) ∧
    exec .yield s = .next ((s.setEng k e).nextEngWord k) ∧
    (∀ i m, newMode true i e.mode = some m → exec (.mode i) s = .next ((s.setEng k { e with mode := m }).nextEngWord k)) ∧
    (∀ i m, newMode false i e.mode = some m → exec (.modem i) s = .next ((s.setEng k { e with mode := m }).nextEngWord k)) ∧
    (engKind k = 0 → ∀ (o : OpSy) (sx : Bool) (z : BitVec 2) (s1 : State) (ls : List (Nat × List Hit)),
      loadOrd e.mode = true → free o.d →
      s.engAccess k e (uniAcc (e.rdS o.a.toNat) o.o.toNat (slBytes z) aRead e.mode) = .ok (s1, ls) →
      let w := s1.whoEng k e
      let r := s1.readLanes w (modeCache e.mode) none ls
      let s2 := if modeOrd e.mode = 1 then r.1.engAcquire w (modeScope e.mode) else r.1
      let g := s2.got w false (uniAcc (e.rdS o.a.toNat) o.o.toNat (slBytes z) aRead e.mode) ls
      g.bad = none →
      exec (.sld o sx z) s = .next ((s2.setEng k (e.withResult o.d.toNat o.l.toNat
        (extendTo64 sx (slBytes z) (leNat (r.2.flatMap Prod.snd))) g)).nextEngWord k)) ∧
    (engKind k = 0 → ∀ (o : OpS3) (z : BitVec 2) (s1 : State) (ls : List (Nat × List Hit)), storeOrd e.mode = true →
      s.engAccess k e (uniAcc (e.rdS o.a.toNat) o.o.toNat (slBytes z) aWrite e.mode) = .ok (s1, ls) →
      let w := s1.whoEng k e
      let s2 := if modeOrd e.mode = 2 then s1.engRelease w (modeScope e.mode) else s1
      exec (.sst o z) s = .next ((s2.engStore w (modeScope e.mode) (modeCache e.mode)
        (ls.flatMap (fun l => cellsOf l.2 (leOf (slBytes z) (e.rdS o.d.toNat).toNat)))).nextEngWord k))

/-- SRD reads the uniform special values of Table 9-8, each listed here with its value, LANE and the LFSR states, and writes
ASW, TRETPC, TRETCTL and the LFSR states of the contributing lanes; it names no other. The model's readings that it rests on:
logs 54, 65. -/
def Obligations.SpecialValuesComplete : Prop :=
  ∀ (s : State) (id n : Nat) (c : Crew) (h : Heat) (r : Region) (t : Team) (d : BitVec 5) (sel : BitVec 8), InHeat s id n c h →
    s.region c.rk = some r → s.team c.rk c.team = some t →
    let core := s.coreOf c
    let x := c.slot n
    let vals : List Nat := [c.team % r.gx, c.team / r.gx % r.gy, c.team / (r.gx * r.gy), c.team, c.no, r.crews, r.gx, r.gy, r.gz,
      core, core / 96, core % 96 / 16, n, h.base, x.chain.length, (x.mask &&& ~~~c.exited).toNat, (c.slot (1 - n)).mask.toNat,
      (c.launched &&& ~~~c.exited).toNat, r.rcb, r.pri, r.fdom, s.clock, if (s.coreSt core).grid = none then 0 else 1,
      h.wrk.mode.toNat, h.wrk.asw.toNat, h.wrk.tretpc.toNat, h.wrk.tretctl.toNat, c.trap.cause, c.trap.info, r.lanes,
      t.idx * (r.tscr * 1024), r.tscr * 1024]
    let u := h.wrk.rdS d.toNat
    let kv := h.key d.toNat
    let put : Nat → Word → Regs → Host.Outcome State Fault Refusal := fun name m r =>
      .next ((s.setCrew id { c with heat := some { h with
        wrk := r, en := Tab.put h.en name (h.enables name ||| m) } }).nextWord id 0)
    let all := BitVec.allOnes 32
    let illegal : Host.Outcome State Fault Refusal := .next ((s.setCrew id c).raise id n ⟨cILLEGAL, 0, 0⟩ none false)
    (Readable c h [] [] [nameS d] → sel.toNat < 0x20 →
      exec (.srd d 0 sel) s = .next (s.afterWord id c h 0 [] [.s d.toNat (BitVec.ofNat 64 (vals.getD sel.toNat 0))] 0 none)) ∧
    (0x20 ≤ sel.toNat → exec (.srd d 0 sel) s = illegal) ∧
    (Readable c h [] [kv] [] →
      exec (.srd d 1 0x80) s = .next (s.afterWord id c h 0 [] [.v kv (c.lanes h) (lanesOf (BitVec.ofNat 32)) fmtINT32] 0 none) ∧
      exec (.srd d 1 0x81) s = .next (s.afterWord id c h 0 [] [.v kv (c.lanes h) h.wrk.lfsr fmtINT32] 0 none)) ∧
    (sel ≠ 0x80 → sel ≠ 0x81 → exec (.srd d 1 sel) s = illegal) ∧
    exec (.srd d 2 0x18) s = put 9000 all { h.wrk with asw := u.setWidth 16 &&& 0x3FF } ∧
    exec (.srd d 2 0x19) s = put 9002 all { h.wrk with tretpc := u } ∧
    exec (.srd d 2 0x1A) s = put 9003 all { h.wrk with tretctl := u &&& 0x1F01 } ∧
    (sel ≠ 0x18 → sel ≠ 0x19 → sel ≠ 0x1A → exec (.srd d 2 sel) s = illegal) ∧
    (Readable c h [kv] [] [] → exec (.srd d 3 0x81) s =
      put 9001 (c.lanes h) { h.wrk with lfsr := mergeLanes (c.lanes h) h.wrk.lfsr (lanesOf (fun l => seedOf (lane (h.wrk.rdV kv) l))) }) ∧
    (sel ≠ 0x81 → exec (.srd d 3 sel) s = illegal)

/-- NOP changes nothing but the position; YIELD marks the heat; MODE and MODEM set MODE's fields, and a reserved value raises
ILLEGAL; TRET outside a handler raises ILLEGAL and inside one marks the heat as the return (R113, R140, R141, R145). -/
def Obligations.HintAndModeWordsComplete : Prop :=
  ∀ (s : State) (id n : Nat) (c : Crew) (h : Heat), InHeat s id n c h →
    let put : Heat → Host.Outcome State Fault Refusal := fun h' => .next ((s.setCrew id { c with heat := some h' }).nextWord id 0)
    let illegal : Host.Outcome State Fault Refusal := .next ((s.setCrew id c).raise id n ⟨cILLEGAL, 0, 0⟩ none false)
    exec .nop s = put h ∧ exec .yield s = put { h with yielded := true } ∧
    (∀ i, match newMode true i h.wrk.mode with
      | some m => exec (.mode i) s = put { h with wrk := { h.wrk with mode := m } }
      | none => exec (.mode i) s = illegal) ∧
    (∀ i, match newMode false i h.wrk.mode with
      | some m => exec (.modem i) s = put { h with wrk := { h.wrk with mode := m } }
      | none => exec (.modem i) s = illegal) ∧
    (∀ (i : BitVec 20) (m m' : BitVec 40), newMode true i m = some m' →
      m'.extractLsb' 0 20 = i ∧ m'.extractLsb' 20 20 = m.extractLsb' 20 20) ∧
    (∀ (i : BitVec 20) (m m' : BitVec 40), newMode false i m = some m' →
      m'.extractLsb' 20 20 = i ∧ m'.extractLsb' 0 20 = m.extractLsb' 0 20) ∧
    (c.trap.cause = 0 → exec .tret s = illegal) ∧
    (c.trap.cause ≠ 0 → exec .tret s = put { h with tret := true })

-- Barriers, strikes, monitored waits.

/-- BINIT, ARRIVE, ARRIVEX, WAIT, TWAIT and BAR complete: BINIT on a word without waiters and arrivals, an arrival on an
initialised barrier word, a wait whose generation has passed, a TWAIT of limit 0, a BAR whose own arrival releases. A wait
acquires at the word's scope, or at the wider scope of a transfer that lowered it (R233, R266).
The model's readings that it rests on: log 14. -/
def Obligations.BarrierWordsComplete : Prop :=
  ∀ (s s1 : State) (id n : Nat) (c : Crew) (h : Heat) (w g : Nat), InHeat s id n c h → c.wait = .none →
    let s0 := s.setCrew id c
    let tok : BitVec 5 → Nat := fun d => fieldOf (h.wrk.rdS d.toNat) 0 32
    let acq : State → Nat → State := fun s sc => s.acquireCrew id (max sc (Tab.get s.mem.lowered w 0)) 3
    let unreserved : State → Prop := fun s => s.granted (resBarrier (s.coreOf c / 96)) id = false
    (∀ (o : OpS3), Readable c h [] [] [] → barAddr h o.a o.o % 64 = 0 → 1 ≤ modeScope h.wrk.mode → modeScope h.wrk.mode ≤ 4 →
      s0.barPlace (s.siteCrew id c) (barAddr h o.a o.o) aWrite = .ok w →
      let v := (h.wrk.rdS o.d.toNat).toNat
      let b := (s0.seal id).bar w
      (3 ≤ modeScope h.wrk.mode → v = 0) → b.wait = 0 → b.arr = 0 →
      let s1 := s0.seal id
      exec (.binit o) s = .next (({ s1 with mem := { s1.mem with lowered := Tab.del s1.mem.lowered w } }.putBar w { b with
        bsc := modeScope h.wrk.mode, exp := bits v 0 16, pexp := bits v 16 48, pend := bits v 16 48, pendn := 0, arr := 0 }
        true).nextWord id 0)) ∧
    (∀ (o : OpSy), Readable c h [] [] [nameS o.d] →
      (s0.arrival id c (barAddr h o.a o.o) 0 = .ok (s1, w, g) →
        exec (.arrive o) s = .next ((s1.emitted id [.s o.d.toNat (BitVec.ofNat 64 g)] o.l.toNat .clean).nextWord id 0)) ∧
      (s0.arrival id c (barAddr h o.a o.o) (fieldOf (h.wrk.rdS o.d.toNat) 0 48) = .ok (s1, w, g) →
        exec (.arrivex o) s = .next ((s1.emitted id [.s o.d.toNat (BitVec.ofNat 64 g)] o.l.toNat .clean).nextWord id 0))) ∧
    (∀ (o : OpS3), Readable c h [] [] [] → s0.barPlace (s.siteCrew id c) (barAddr h o.a o.o) aRead = .ok w → unreserved s0 →
      let b := s0.bar w
      1 ≤ b.bsc → b.bsc ≤ 4 → b.gen ≠ tok o.d → exec (.wait o) s = .next ((acq s0 b.bsc).nextWord id 0)) ∧
    (∀ (o : OpSy), Readable c h [] [] [nameS o.d] → s0.barPlace (s.siteCrew id c) (barAddr h o.a o.o) aRead = .ok w →
      unreserved s0 →
      let b := s0.bar w
      1 ≤ b.bsc → b.bsc ≤ 4 →
      (b.gen ≠ tok o.d → exec (.twait o) s =
        .next (((acq s0 b.bsc).emitted id [.s o.d.toNat 0] o.l.toNat .clean).nextWord id 0)) ∧
      (b.gen = tok o.d → fieldOf (h.wrk.rdS o.d.toNat) 32 32 = 0 → exec (.twait o) s =
        .next ((s0.emitted id [.s o.d.toNat 1] o.l.toNat .clean).nextWord id 0))) ∧
    (∀ (a o : BitVec 5), Readable c h [] [] [] → s0.arrival id c (barAddr h a o) 0 = .ok (s1, w, g) → unreserved s1 →
      let b := s1.bar w
      1 ≤ b.bsc → b.bsc ≤ 4 → b.gen ≠ g → exec (.bar a o) s = .next ((acq s1 b.bsc).nextWord id 0))

/-- The test after an event on a barrier word in scratch: a barrier whose arrivals reach EXPECT with PEND 0 starts its next
generation and wakes its waiters; any other word keeps the event's fields and wakes none; other bytes are unchanged. A
transfer's lowering is a release, and then lowers PEND for the current generation, PENDN for the next one, and for any other
nothing: it posts ACCESS (R262).
The model's readings that it rests on: log 14. -/
def Obligations.BarrierEventsRelease : Prop :=
  (∀ (s : State) (k : Nat) (e : Eng) (mode : BitVec 40) (w n gen : Nat),
    let s1 := s.engRelease (s.whoEng k e) (modeScope mode)
    let s2 := s1.noteScope w (modeScope mode)
    let b := s1.bar w
    (gen = b.gen → s.lowerWord k e mode w n gen =
      (s2.barEvent w { b with pend := (b.pend + 2 ^ 48 - n % 2 ^ 48) % 2 ^ 48 }, none)) ∧
    (gen ≠ b.gen → gen = (b.gen + 1) % 2 ^ 32 → s.lowerWord k e mode w n gen =
      (s2.barEvent w { b with pendn := (b.pendn + 2 ^ 48 - n % 2 ^ 48) % 2 ^ 48 }, none)) ∧
    (gen ≠ b.gen → gen ≠ (b.gen + 1) % 2 ^ 32 → s.lowerWord k e mode w n gen = (s1, some ⟨cACCESS, 0, 0⟩))) ∧
  ∀ (s : State) (w : Nat) (b : BarW), w < imgBase → Memory.wf s.mem.scr = true →
    b.arr < 2 ^ 16 → b.exp < 2 ^ 16 → b.gen < 2 ^ 32 → b.pend < 2 ^ 48 → b.pendn < 2 ^ 48 → b.pexp < 2 ^ 48 →
    b.wait < 2 ^ 16 → b.bsc < 2 ^ 3 →
    let t := s.barEvent w b
    ((b.bsc = 1 ∨ b.bsc = 2) ∧ b.exp ≤ b.arr ∧ b.pend = 0 →
      t.bar w = { b with gen := (b.gen + 1) % 2 ^ 32, arr := b.arr - b.exp, pend := (b.pexp + b.pendn) % 2 ^ 48, pendn := 0 } ∧
      ∀ k c g t0 bar, s.crew k = some c → c.wait = .barrier w g t0 bar →
        ∃ c', t.crew k = some c' ∧ c'.wait = .barrier w (2 ^ 32) t0 bar) ∧
    (¬((b.bsc = 1 ∨ b.bsc = 2) ∧ b.exp ≤ b.arr ∧ b.pend = 0) → t.bar w = b ∧ t.crews = s.crews) ∧
    (∀ x, x < w ∨ w + 64 ≤ x → Memory.get t.mem.scr x = Memory.get s.mem.scr x) ∧
    t.mem.pkg = s.mem.pkg ∧ t.mem.ext = s.mem.ext ∧ t.mem.peer = s.mem.peer

/-- STRIKE completes on a strike word of the crew's own team at its scope when the crew has not struck in the generation and
none of its engine entries is pending; MWAIT completes at once when the word differs from the value it expects.
The model's readings that it rests on: logs 14, 15. -/
def Obligations.StrikeAndMonitorWordsComplete : Prop :=
  ∀ (s : State) (id n : Nat) (c : Crew) (h : Heat), InHeat s id n c h → c.wait = .none →
    let s0 := s.setCrew id c
    (∀ (o : Op2) (w : Nat) (r : Region) (t : Team), Readable c h [] [] [nameS o.d] →
      let va := (h.wrk.rdS o.a.toNat).toNat
      let sc := modeScope h.wrk.mode
      (sc = 3 ∨ sc = 4) → s0.barPlace (s.siteCrew id c) va aAtomic = .ok w →
      s0.region c.rk = some r → s0.team c.rk c.team = some t →
      let inst := s0.strikeInst c sc
      let i := Tab.get r.strikes inst ⟨0, [], []⟩
      let s1 := s0.seal id
      s0.teamAt c.rk w = some c.team → (s1.bar w).bsc = sc → (∀ x, r.strikeScope = some x → x = sc) → id ∉ i.struck →
      (s1.crewEntries c).filter s1.entryPending = [] →
      let word := c.team * 2 ^ 24 + (w % 2 ^ 24 - t.idx * r.allotBytes)
      let s2 := (s1.releaseCrew id sc 3).updRegion c.rk (fun r => { r with
        strikeScope := some sc
        strikes := Tab.put r.strikes inst ⟨i.gen, id :: i.struck, (word :: i.words).eraseDups⟩ })
      exec (.strike o) s = .next (((s2.emitted id [.s o.d.toNat (BitVec.ofNat 64 i.gen)] 0 .clean).strikeCheck c.rk).nextWord id 0)) ∧
    (∀ (o : OpSy) (wd : Bool) (s1 : State) (ls : List (Nat × List Hit)), Readable c h [] [] [nameS o.d] →
      let mode := h.wrk.mode
      let m := if wd then 8 else 4
      let va := addrOf (h.wrk.rdS o.a.toNat).toNat o.o.toNat m
      let a : Acc := ⟨va, m, aRead, modeStore mode, modeScope mode, m, false, false, 2⟩
      let w := s.whoCrew id c
      loadOrd mode = true → modeStore mode ≠ 2 → (modeStore mode = 0 → va / 2 ^ 24 ≠ 0xFF) →
      s0.checkLanes w (s.siteCrew id c) c.com.watchFail false [(0, a)] = (s1, .ok ls) →
      let x := (ls.flatMap Prod.snd).headD ⟨.scr, 0, false, 0⟩
      (∀ k3 d, x.sp ≠ .ext k3 d) →
      let r := s1.monitorRead w (modeScope mode) x m
      let s2 := r.1.loadAcquire id mode
      let g := s2.got w false [(0, a)] ls
      r.2.2 ≠ (h.wrk.rdS o.d.toNat).toNat % 2 ^ (8 * m) → (o.l = 0 → g.bad = none) →
      exec (.mwait o wd) s =
        .next ((s2.emitted id (g.seen [.s o.d.toNat (BitVec.ofNat 64 r.2.2)]) o.l.toNat g).nextWord id 0))

-- Heats, joins, closers.

/-- HEAT opens a heat at its word: the heat's registers are the committed ones, nothing is buffered, a SKIP of this slot
passes to it, and the slot stands at the second word. In an engine context it opens the context's heat (R45, R127, R145). The
model's readings that it rests on: logs 9, 73. -/
def Obligations.HeatsOpen : Prop :=
  (∀ (s : State) (id n : Nat) (c : Crew), Idle s id n c → n < 2 →
    ∃ (c' : Crew) (h : Heat),
      exec .heat s = .next (s.setCrew id c') ∧ c'.heat = some h ∧
      h.slot = n ∧ h.entry = (c.slot n).pc ∧ h.off = 1 ∧ h.sealed = false ∧ h.wrk = c.com ∧ h.base = (c.slot n).base ∧
      h.dests = [] ∧ h.temps = [] ∧ h.pend = [] ∧ h.buf = [] ∧ h.group = [] ∧ h.tret = false ∧ h.gives = [] ∧
      (h.skip = (if c.skip.any (fun k => k / 32 % 2 == n) = true then c.skip.map (fun k => k % 32) else none)) ∧
      (c'.slot n).pc = (c.slot n).pc + 4 ∧ (c'.slot n).mask = (c.slot n).mask ∧ (c'.slot n).base = (c.slot n).base ∧
      (c'.slot n).chain = (c.slot n).chain ∧ c'.slot (1 - n) = c.slot (1 - n) ∧ c'.com = c.com ∧ c'.stack = c.stack) ∧
  (∀ (s : State) (k : Nat) (e : Eng), s.cur = .eng k → s.eng k = some e → e.entry = none →
    exec .heat s = .next (s.setEng k { e with entry := some e.pc, pc := e.pc + 4, off := 1, wait := .none }) ∧
    exec .heatJ s = .next (s.setEng k { e with entry := some e.pc, pc := e.pc + 4, off := 1, wait := .none }))

/-- HEAT.J acts by Table 3-2 and completes: a slot that meets no other lanes opens its heat; a running other slot makes it
park; a slot parked at the same place joins it, and the rows are read again; of two slots that cannot join the lower one
opens its heat; a free slot takes the stack's top entry. A parked slot may go on as soon as the table, read again over the
crew as it then is, lets it execute (R42). The model's reading that it rests on: log 55. -/
def Obligations.JoinsResolve : Prop :=
  (∀ (s : State) (id n : Nat) (c : Crew), Idle s id n c →
    exec .heatJ s = .next ((s.setCrew id c).joinHeat id n c) ∧
    ((Crew.resolveJ 4 c n).2 = true → (Crew.resolveJ 4 c n).1.stack.length = c.stack.length →
      exec .heatJ s = .next ((s.setCrew id c).openHeat id n (Crew.resolveJ 4 c n).1))) ∧
  (∀ (c : Crew) (n : Nat), c.trap.cause = 0 → (c.slot n).free = false → c.ret ≠ some n →
    (c.canOpen n = true ↔ (c.slot n).parked = false ∨ (Crew.resolveJ 4 c n).2 = true)) ∧
  ∀ (c : Crew) (n k : Nat), n < 2 →
    let x := c.slot n
    let o := c.slot (1 - n)
    let same := o.pc = x.pc ∧ o.base = x.base ∧ sameChain o.chain x.chain = true
    let r := Crew.resolveJ (k + 1) c n
    (o.free = true → c.stack = [] → r.2 = true ∧ r.1.slot n = { x with parked := false } ∧ r.1.slot (1 - n) = o) ∧
    (o.free = false → o.parked = false → r.2 = false ∧ r.1.slot n = { x with parked := true } ∧ r.1.slot (1 - n) = o) ∧
    (o.free = false → o.parked = true → same →
      r = Crew.resolveJ k ((c.setSlot n { x with mask := x.mask ||| o.mask }).setSlot (1 - n) PcSlot.none) n) ∧
    (o.free = false → o.parked = true → ¬same → x.pc.toNat ≤ o.pc.toNat → r.2 = true ∧ r.1.slot (1 - n) = o) ∧
    (o.free = false → o.parked = true → ¬same → o.pc.toNat < x.pc.toNat → r.2 = false ∧ (r.1.slot n).parked = true ∧
      r.1.slot (1 - n) = o) ∧
    (∀ e rest, o.free = true → c.stack = e :: rest → r.2 = false ∧ r.1.stack = rest ∧ (r.1.slot n).parked = true ∧
      r.1.slot (1 - n) = ⟨e.pc, e.mask, e.base, e.chain, false⟩)

/-- QUENCH, BR, BRA and BRX complete: the heat commits, then the slot goes on at the next word, at the target of BRA, or its
lanes part by their targets, the fall-through lanes first and then the taken ones for BR, by target for BRX, the target of the
lowest lane first. Of the groups the slot keeps the first, a free other slot takes the second, and the rest are pushed, the
earliest on top, each with the slot's base and records; without room in the stack's spill area nothing moves and the crew
parks on STACK (R41, R44). A closer reads a result of the heat that is still inside its window as it will stand (R116). The
model's readings that it rests on: logs 13, 55, 81. -/
def Obligations.BranchesComplete : Prop :=
  (∀ (s : State) (id n : Nat) (c : Crew) (h : Heat), Closing s id n c h →
    let s0 := s.setCrew id c
    let pc := (c.slot n).pc
    let r := h.ahead
    exec .quench s = .next (s0.finishClose id n true (fun s => s.goto id n (pc + 4) pc)) ∧
    (∀ (p : BitVec 3) (i : Bool) (o : BitVec 21),
      let pr := r.wrk.rdP p.toNat
      let taken := c.lanes r &&& (if i then ~~~pr else pr)
      let fall := c.active h &&& ~~~taken
      let groups := (if fall = 0 then [] else [(pc + 4, fall)]) ++ (if taken = 0 then [] else [(pc + (o.signExtend 64 <<< 2), taken)])
      exec (.br p i o) s = .next (s0.finishClose id n true (fun s => s.branchTo id n r pc groups))) ∧
    (∀ (a : BitVec 5), fieldOf (r.wrk.rdS a.toNat) 57 7 = 0 → fieldOf (r.wrk.rdS a.toNat) 0 2 = 0 →
      exec (.bra a) s = .next (s0.finishClose id n true (fun s => s.goto id n (r.wrk.rdS a.toNat) pc))) ∧
    (∀ (a b : BitVec 5) (hb : Bool), (Instr.brx a b hb).wf = true →
      r.wrk.tagsIn [h.key b.toNat] [fmtINT32, fmtBITS] = true → Readable c r [h.key b.toNat] [] [] →
      let dest : Nat → DWord := fun l =>
        if (c.lanes r).getLsbD l then r.wrk.rdS a.toNat + ((lane (r.wrk.rdV (h.key b.toNat)) l).signExtend 64 <<< 2) else pc + 4
      (∀ l, l < 32 → (c.lanes r).getLsbD l = true → fieldOf (dest l) 57 7 = 0 ∧ fieldOf (dest l) 0 2 = 0) →
      exec (.brx a b hb) s = .next ((s0.setCrew id (c.latched (if hb then [h.key b.toNat] else []))).finishClose id n true
        (fun s => s.branchTo id n r pc (groupBy dest (c.active h)))))) ∧
  (∀ (f : Nat → DWord) (m : Word),
    ((groupBy f m).map Prod.fst).Nodup ∧ (groupBy f m).Pairwise (fun a b => lowest a.2 < lowest b.2) ∧
    (∀ t w, (t, w) ∈ groupBy f m → w ≠ 0 ∧ ∀ l, l < 32 → (w.getLsbD l = true ↔ m.getLsbD l = true ∧ f l = t)) ∧
    (∀ l, l < 32 → m.getLsbD l = true → ∃ w, (f l, w) ∈ groupBy f m)) ∧
  (∀ (s : State) (id n : Nat) (c : Crew) (h : Heat) (src : DWord) (g : DWord × Word) (r : List (DWord × Word)),
    s.crew id = some c → n < 2 →
    let x := c.slot n
    let o := c.slot (1 - n)
    let entry : DWord × Word → StackEntry := fun t => ⟨t.1, t.2, x.base, x.chain, src, false⟩
    let down := (if o.free then r.drop 1 else r).map entry
    (∀ units, s.pushPlan c down.length = some units → ∃ c',
      c'.slot n = { x with pc := g.1, mask := g.2 } ∧
      (∀ t q, o.free = true → r = t :: q → c'.slot (1 - n) = ⟨t.1, t.2, x.base, x.chain, false⟩) ∧
      (o.free = false ∨ r = [] → c'.slot (1 - n) = o) ∧
      c'.stack = down ++ c.stack ∧ c'.com = c.com ∧ c'.exited = c.exited ∧
      let s1 := (s.setCrew id c').checkTarget id n src
      s.branchTo id n h src (g :: r) = (if o.free = true ∧ r ≠ [] then s1.checkTarget id (1 - n) src else s1)) ∧
    (s.pushPlan c down.length = none → ∃ c' p, (s.branchTo id n h src (g :: r)).crew id = some c' ∧ c'.slot n = x ∧
      c'.slot (1 - n) = o ∧ c'.stack = c.stack ∧ c'.park = some p ∧ p.fr.cause = cSTACK ∧ p.late = true)) ∧
  (∀ (s : State) (k : Nat) (e : Eng), EngClosing s k e →
    let go : DWord → Host.Outcome State Fault Refusal := fun t => .next ((s.setEng k (e.age true)).engGo k e.pc t)
    exec .quench s = go (e.pc + 4) ∧
    (∀ (p : BitVec 3) (i : Bool) (o : BitVec 21), exec (.br p i o) s =
      go (if e.guard ∧ e.rdP p.toNat ≠ i then e.pc + (o.signExtend 64 <<< 2) else e.pc + 4)) ∧
    (∀ (a : BitVec 5), let t := (e.age true).rdS a.toNat
      fieldOf t 57 7 = 0 → fieldOf t 0 2 = 0 → exec (.bra a) s = go t))

/-- A commit writes the commit buffer to the crew's registers without the temporaries, keeps a named result for later, frees
the heat, and takes the heat's window base; a SKIP of TRET whose word the heat did not reach is cleared. Where the heat's
stores all lie in scratch outside the barrier words, every byte of scratch then reads as the heat's latest store to it, else
as before, and no other memory changes (R50, R145). The model's readings that it rests on: logs 9, 20, 73. -/
def Obligations.CommitsApply : Prop :=
  ∀ (s : State) (id : Nat) (c : Crew) (h : Heat), s.crew id = some c → c.heat = some h → h.gives = [] → h.slot < 2 →
    Memory.wf s.mem.scr = true → c.inbox = [] →
    (∀ o ∈ h.buf, ∃ cells mode, o = .store cells mode ∧ modeOrd mode ≠ 2 ∧
      ∀ x ∈ cells, x.sp = .scr ∧ s.barWord c.rk (x.a / 2 ^ 24) (x.a % 2 ^ 24) = none) →
    let late := h.skip.isSome && c.skip.any (fun k => k / 32 % 2 == h.slot && decide (64 ≤ k))
    let t := s.commit id true
    ∃ c', t.crew id = some c' ∧ (∀ k, k ≠ id → t.crew k = s.crew k) ∧ c'.heat = none ∧
      (∀ k, k < 1024 → c'.com.rdV k = h.wrk.rdV k ∧ c'.com.rdTag k = h.wrk.rdTag k) ∧
      (∀ k, 1024 ≤ k → c'.com.rdV k = zeroLanes ∧ c'.com.rdTag k = fmtBITS) ∧
      c'.com.s = h.wrk.s ∧ c'.com.p = h.wrk.p ∧ c'.com.mode = h.wrk.mode ∧ c'.com.asw = h.wrk.asw ∧
      c'.com.lfsr = h.wrk.lfsr ∧ c'.com.watch = h.wrk.watch ∧ c'.com.tretpc = h.wrk.tretpc ∧
      c'.com.tretctl = (if late then h.wrk.tretctl &&& ~~~(1 : DWord) else h.wrk.tretctl) ∧
      c'.slot h.slot = { c.slot h.slot with base := h.base } ∧ c'.slot (1 - h.slot) = c.slot (1 - h.slot) ∧
      c'.stack = c.stack ∧ c'.exited = c.exited ∧ c'.trap = c.trap ∧ c'.toks = c.toks ∧ c'.last = h.slot ∧
      c'.named.length = c.named.length + h.pend.length ∧
      (∀ a, Memory.get t.mem.scr a = (h.forward .scr a).getD (Memory.get s.mem.scr a)) ∧
      t.mem.pkg = s.mem.pkg ∧ t.mem.ext = s.mem.ext ∧ t.mem.peer = s.mem.peer ∧ t.mem.lines = s.mem.lines

/-- CALL and CALLX complete: the heat commits, a record of the return address, the caller's base and the slide is pushed, the
window slides by k, or past the other slot's registers with the window copied there, and the slot goes on at the target. In
an engine context the slide is 0 and the return stack holds eight addresses (R58, R134, R135, R137). The model's readings
that it rests on: logs 8, 11, 74, 80. -/
def Obligations.CallsComplete : Prop :=
  (∀ (s : State) (id n : Nat) (c : Crew) (h : Heat) (k a : BitVec 5) (o : BitVec 20) (todo : List Nat), Closing s id n c h →
    (∀ p ∈ h.pend, p.got.bad = none) →
    let s0 := s.setCrew id c
    let pc := (c.slot n).pc
    let b := h.base
    let callee := match c.useRange (1 - n) with
      | some (lo, hi) => if b + k.toNat ≤ hi ∧ lo ≤ b + k.toNat + 23 then hi + 1 else b + k.toNat
      | none => b + k.toNat
    let moved := callee != b + k.toNat
    let copy := if moved then (List.range (24 - k.toNat)).flatMap (fun i => [b + k.toNat + i, callee + i]) else []
    let dstk := match s.region c.rk with
      | some r => r.dstk
      | none => 0
    let links := (c.unitPlan dstk 1 0).2.1
    let push : DWord → State → State := fun t s =>
      let s' := s.updCrew id (fun c =>
        let c := if moved then c.copyRegs (b + k.toNat) callee (24 - k.toNat) (c.slot n).mask else c
        let x := c.slot n
        let c := c.setSlot n { x with base := callee, chain := ⟨s.uid, pc + 4, b, k.toNat, moved, callee, false⟩ :: x.chain }
        s.ask c { c with ring := { c.ring with todo := todo, links := links } })
      { s' with uid := s.uid + 1 }.goto id n t pc
    (Instr.call k o).wf = true → (Instr.callx k a).wf = true → 0 < k.toNat → callee ≤ 1000 →
    s0.framePlan (c.setSlot n { c.slot n with base := b }) n callee copy 1 = .ok todo →
    (exec (.call k o) s = .next (s0.finishClose id n false (push (pc + (o.signExtend 64 <<< 2))))) ∧
    (fieldOf (h.ahead.wrk.rdS a.toNat) 57 7 = 0 → fieldOf (h.ahead.wrk.rdS a.toNat) 0 2 = 0 →
      exec (.callx k a) s = .next (s0.finishClose id n false (push (h.ahead.wrk.rdS a.toNat))))) ∧
  (∀ (s : State) (k : Nat) (e : Eng) (a : BitVec 5) (o : BitVec 20), EngClosing s k e → e.rets.length < 8 →
    let go : DWord → Host.Outcome State Fault Refusal := fun t =>
      .next ((s.setEng k (Eng.age { e with rets := (e.pc + 4) :: e.rets } true)).engGo k e.pc t)
    exec (.call 0 o) s = go (e.pc + (o.signExtend 64 <<< 2)) ∧
    (fieldOf ((e.age true).rdS a.toNat) 57 7 = 0 → fieldOf ((e.age true).rdS a.toNat) 0 2 = 0 →
      exec (.callx 0 a) s = go ((e.age true).rdS a.toNat)))

/-- RET, EXIT and SLIDE complete. RET pops the slot's record: where the call had moved its window, the registers are copied
back with their tags in the slot's lanes, the slot gets the caller's base and the records below, and goes on at the recorded
address; with no record it exits the slot's active lanes. EXIT takes the contributing lanes for good. SLIDE moves the heat's
window base within the frame. In an engine context RET pops the return stack (R43, R61, R136 to R139). The model's readings
that it rests on: logs 8, 27, 81. -/
def Obligations.ReturnsExitsAndSlidesComplete : Prop :=
  (∀ (s : State) (id n : Nat) (c : Crew) (h : Heat), Closing s id n c h → (∀ p ∈ h.pend, p.got.bad = none) →
    let s0 := s.setCrew id c
    let pc := (c.slot n).pc
    let stays : Word → Prop := fun m =>
      (c.slot n).mask &&& ~~~m ≠ 0 ∨ (c.exitRefill n (s.dstkOf c) = [] ∧ ∀ e ∈ c.stack.head?, e.bad = false)
    (∀ top rest, (c.slot n).chain = top :: rest → c.retRefill n = [] → top.bad = false → c.retToken n = false →
      exec .ret s = .next (s0.finishClose id n false (fun s => s.doReturn id n pc))) ∧
    ((c.slot n).chain = [] → stays (c.active h) →
      exec .ret s = .next (s0.finishClose id n false (fun s => s.exitLanes id n (c.active h) pc))) ∧
    (stays (c.lanes h.ahead) →
      exec .exit s = .next (s0.finishClose id n false (fun s => s.exitLanes id n (c.lanes h.ahead) pc)))) ∧
  (∀ (s : State) (id n : Nat) (src : DWord) (c : Crew) (top : LinkRec) (rest : List LinkRec), s.crew id = some c → n < 2 →
    (c.slot n).chain = top :: rest →
    let to_ := fun i => top.caller + top.k + i
    ∃ c', s.doReturn id n src = (s.setCrew id c').goto id n top.ret src ∧
      c'.slot n = { c.slot n with base := top.caller, chain := rest } ∧ c'.slot (1 - n) = c.slot (1 - n) ∧
      c'.stack = c.stack ∧ c'.exited = c.exited ∧ c'.heat = c.heat ∧ c'.ret = none ∧
      (top.moved = false → c'.com = c.com) ∧
      (top.moved = true →
        (∀ q, (∀ i, i < 24 - top.k → q ≠ to_ i) → c'.com.rdV q = c.com.rdV q ∧ c'.com.rdTag q = c.com.rdTag q) ∧
        ∀ i, i < 24 - top.k → c'.com.rdTag (to_ i) = c.com.rdTag (top.callee + i) ∧ ∀ l, l < 32 →
          lane (c'.com.rdV (to_ i)) l =
            if (c.slot n).mask.getLsbD l then lane (c.com.rdV (top.callee + i)) l else lane (c.com.rdV (to_ i)) l)) ∧
  (∀ (s : State) (id n : Nat) (c : Crew) (h : Heat) (m : BitVec 20) (todo : List Nat), InHeat s id n c h →
    (Instr.slide m).wf = true →
    let b : Int := (h.base : Int) + m.toInt
    let floor : Int := match (c.slot n).chain with
      | r :: _ => (r.callee : Int)
      | [] => 0
    floor ≤ b → b ≤ 1000 → (s.setCrew id c).framePlan c n b.toNat [] 0 = .ok todo →
    exec (.slide m) s = .next ((s.setCrew id { c with heat := some { h with base := b.toNat, owed := todo } }).nextWord id 0)) ∧
  (∀ (s : State) (k : Nat) (e : Eng) (t : DWord) (r : List DWord), EngClosing s k e → e.rets = t :: r →
    exec .ret s = .next ((s.setEng k (Eng.age { e with rets := r } true)).engGo k e.pc t))

/-- A join loses no lane and gives no lane twice: each lane that a slot or the stack holds before the resolution is held
after it, and no other; where no two of them hold a lane together before it, no two do after it (R42). An exit marks its lanes
as exited and takes them from the slot, and no other lane is lost. The slot keeps its other lanes and goes on at the next word;
an emptied slot takes the stack's top entry, with its address, lanes, base and records, or stands free where the stack is empty,
and a parked other slot may then execute the heat at its join (R43, R61, R139). Where a slot goes on, the word at its address is
then fetched and checked to open a heat, as at every transfer. -/
def Obligations.JoinsAndExitsKeepTheLanes : Prop :=
  (∀ (c : Crew) (n k : Nat), n < 2 →
    let all : Crew → Word := fun c => c.stack.foldl (fun m e => m ||| e.mask) (c.s0.mask ||| c.s1.mask)
    let apart : Crew → Prop := fun c => (c.s0.mask :: c.s1.mask :: c.stack.map (fun e => e.mask)).Pairwise (fun a b => a &&& b = 0)
    all (Crew.resolveJ k c n).1 = all c ∧ (apart c → apart (Crew.resolveJ k c n).1)) ∧
  ∀ (s : State) (id n : Nat) (c : Crew) (m : Word) (pc : DWord), s.crew id = some c → n < 2 →
    let left := (c.slot n).mask &&& ~~~m
    let other := c.slot (1 - n)
    ∃ c', c'.exited = c.exited ||| m ∧ c'.com = c.com ∧ c'.heat = c.heat ∧ c'.slot (1 - n) = other ∧
      (left ≠ 0 → s.exitLanes id n m pc = (s.setCrew id c').checkTarget id n pc ∧
        c'.slot n = { c.slot n with mask := left, pc := pc + 4 } ∧ c'.stack = c.stack) ∧
      (left = 0 → ∀ e r, c.stack = e :: r → s.exitLanes id n m pc = (s.setCrew id c').checkTarget id n e.src ∧
        c'.slot n = ⟨e.pc, e.mask, e.base, e.chain, false⟩ ∧ c'.stack = r) ∧
      (left = 0 → c.stack = [] → s.exitLanes id n m pc = s.setCrew id c' ∧ (c'.slot n).free = true ∧ c'.stack = [] ∧
        (other.parked = true → other.free = false → c.trap.cause = 0 → c.ret ≠ some (1 - n) → c'.canOpen (1 - n) = true))

-- Traps and faults.

/-- BRK, SVC and TRAP complete: BRK raises BREAK at its word; SVC commits its heat and then raises SVC with the next word as
resume address; TRAP commits its heat, then parks the crew on a BREAK fault. An engine context stops on the fault that BRK,
SVC or TRAP posts, after the heat has closed for SVC and TRAP (R142 to R144).
The model's readings that it rests on: log 36. -/
def Obligations.TrapWordsComplete : Prop :=
  (∀ (s : State) (id n : Nat) (c : Crew) (h : Heat) (code : BitVec 20), InHeat s id n c h →
    exec (.brk code) s = .next ((s.setCrew id c).trap id n cBREAK code.toNat none)) ∧
  (∀ (s : State) (id n : Nat) (c : Crew) (h : Heat) (code : BitVec 20), Closing s id n c h → (∀ p ∈ h.pend, p.got.bad = none) →
    let s0 := s.setCrew id c
    let pc := (c.slot n).pc
    let step : State → State := fun s => s.updCrew id (fun c => c.setSlot n { c.slot n with pc := pc + 4 })
    exec (.svc code) s = .next (s0.finishClose id n false (fun s =>
      (step s).trap id n cSVC code.toNat (some (pc + 4, h.off)))) ∧
    exec (.trap code) s = .next (s0.finishClose id n false (fun s =>
      (step s).raiseLate id n ⟨cBREAK, code.toNat, 0⟩ pc))) ∧
  (∀ (s : State) (k : Nat) (e : Eng) (code : BitVec 20), InEngine s k e →
    exec (.brk code) s = .next (s.raiseEng k ⟨cBREAK, code.toNat, 0⟩)) ∧
  (∀ (s : State) (k : Nat) (e : Eng) (code : BitVec 20), EngClosing s k e →
    let e' := { e.age true with pc := e.pc + 4, entry := none, off := 0 }
    exec (.svc code) s = .next ((s.setEng k e').stopEng k (s.engRec k e' ⟨cSVC, code.toNat, 0⟩ (e.pc + 4) e.pc 0) true) ∧
    exec (.trap code) s = .next ((s.setEng k e').stopEng k (s.engRec k e' ⟨cBREAK, code.toNat, 0⟩ (e.pc + 4) e.pc 0) true))

/-- A synchronous trap of a crew with a handler, outside it: MODE and the linkage depth are saved, MODE becomes 0, TRAPCAUSE and
TRAPINFO tell the cause, TRETPC and TRETCTL the return, the slot goes on at TRAPE with its lanes and its base; an unsealed
heat is discarded, a sealed one kept whole; SVC, whose heat has committed, returns to the address it gives. Registers, the
other slot and memory are as before, and the other slot opens no heat (R356).
The model's readings that it rests on: logs 12, 36. -/
def Obligations.TrapsEnterTheHandler : Prop :=
  (∀ (s : State) (id n code off : Nat) (pc : DWord) (c : Crew) (r : Region),
    s.crew id = some c → c.heat = none → n < 2 → s.region c.rk = some r → r.trape ≠ 0 → c.trap.cause = 0 → off < 24 →
    ∃ c', s.trap id n cSVC code (some (pc, off)) = s.setCrew id c' ∧ c'.heat = none ∧ c'.slot (1 - n) = c.slot (1 - n) ∧
      (c'.slot n).pc = r.trape ∧ (c'.slot n).mask = (c.slot n).mask ∧ (c'.slot n).base = (c.slot n).base ∧
      c'.trap = ⟨n, cSVC, code + off * 2 ^ 20, c.com.mode, (c.slot n).chain.length, none⟩ ∧
      c'.com = { c.com with mode := 0, tretpc := pc, tretctl := BitVec.ofNat 64 (off * 256) } ∧
      c'.canOpen (1 - n) = false) ∧
  ∀ (s : State) (id n cause code : Nat) (c : Crew) (h : Heat) (r : Region),
    s.crew id = some c → c.heat = some h → h.slot = n → n < 2 → s.region c.rk = some r → r.trape ≠ 0 → c.trap.cause = 0 →
    h.off < 24 →
    ∃ c', (s.trap id n cause code none).crew id = some c' ∧ (s.trap id n cause code none).mem = s.mem ∧
      (∀ k, k ≠ id → (s.trap id n cause code none).crew k = s.crew k) ∧
      c'.heat = none ∧ c'.park = c.park ∧ c'.stack = c.stack ∧ c'.slot (1 - n) = c.slot (1 - n) ∧ c'.exited = c.exited ∧
      (cause ≠ 0 → c'.canOpen (1 - n) = false) ∧
      (c'.slot n).pc = r.trape ∧ (c'.slot n).mask = (c.slot n).mask ∧ (c'.slot n).base = (c.slot n).base ∧
      (c'.slot n).chain = (c.slot n).chain ∧
      c'.trap.cause = cause ∧ c'.trap.slot = n ∧ c'.trap.saveDepth = (c.slot n).chain.length ∧
      c'.trap.info = code + h.off * 2 ^ 20 ∧
      c'.trap.saveMode = (if h.sealed then h.wrk.mode else c.com.mode) ∧
      c'.trap.heat = (if h.sealed then some h else none) ∧
      c'.com.mode = 0 ∧ (h.sealed = false → c'.com.tretpc = h.entry) ∧
      fieldOf c'.com.tretctl 8 5 = h.off ∧ c'.com.tretctl.getLsbD 0 = decide (cause = cBREAK) ∧
      c'.com.v = c.com.v ∧ c'.com.tag = c.com.tag ∧ c'.com.s = c.com.s ∧ c'.com.p = c.com.p ∧ c'.com.asw = c.com.asw

/-- The return from a handler: the QUENCH that closes a heat holding TRET commits it, restores MODE, ends the handler, and
goes on at TRETPC, or in the sealed heat that the trap interrupted, at the trapping word with its commit buffer; a SKIP that
TRETCTL holds passes to the slot's heat; a changed linkage depth raises ILLEGAL instead (R145, R357). The model's reading
that it rests on: log 73. -/
def Obligations.TrapsReturn : Prop :=
  (∀ (s : State) (id n : Nat) (c : Crew) (h : Heat), s.cur = .crew id n → s.crew id = some c → c.heat = some h → h.slot = n →
    h.skip ≠ some h.off → c.named = [] → h.tret = true → (s.setCrew id c).regHold id h = none → c.giveRefill h = [] →
    (c.slot n).chain.length = c.trap.saveDepth →
    exec .quench s = .next ((s.setCrew id c).finishClose id n true (fun s => s.trapReturn id n (c.slot n).pc))) ∧
  (∀ (s : State) (id n : Nat) (c : Crew) (h : Heat), s.cur = .crew id n → s.crew id = some c → c.heat = some h → h.slot = n →
    h.skip ≠ some h.off → c.named = [] → h.tret = true → (c.slot n).chain.length ≠ c.trap.saveDepth →
    exec .quench s = .next ((s.setCrew id c).raise id n ⟨cILLEGAL, 0, 0⟩ none true)) ∧
  (∀ (s : State) (id n : Nat) (src : DWord) (c : Crew) (h : Heat),
    s.crew id = some c → c.trap.heat = some h → h.slot = n → n < 2 →
    let ctl := c.com.tretctl
    ∃ c' h', (s.trapReturn id n src).crew id = some c' ∧ c'.heat = some h' ∧ c'.trap.cause = 0 ∧
      c'.com = { c.com with mode := c.trap.saveMode } ∧ h'.wrk = h.rebase c'.com ∧
      c'.skip = (if ctl.getLsbD 0 then some (fieldOf ctl 8 5 + 32 * n + 64) else none) ∧
      (c'.slot n).pc = h.entry + BitVec.ofNat 64 (4 * h.off) ∧ (c'.slot n).mask = (c.slot n).mask ∧
      h'.off = h.off ∧ h'.entry = h.entry ∧ h'.sealed = h.sealed ∧ h'.buf = h.buf ∧ h'.group = h.group ∧ h'.pend = h.pend ∧
      h'.skip = (if ctl.getLsbD 0 then some (fieldOf ctl 8 5) else none)) ∧
  (∀ (s : State) (id n : Nat) (src : DWord) (c : Crew), s.crew id = some c → c.trap.heat = none → n < 2 →
    s.trapReturn id n src = (s.setCrew id { c with
      com := { c.com with mode := c.trap.saveMode }
      trap := ⟨0, 0, c.trap.info, c.trap.saveMode, c.trap.saveDepth, none⟩
      skip := if c.com.tretctl.getLsbD 0 then some (fieldOf c.com.tretctl 8 5 + 32 * n + 64) else none }).goto id n c.com.tretpc src)

/-- A fault met in a heat parks the whole crew with a record of the cause, the lanes, the heat and the word: an unsealed heat is
discarded, with the slot back at its entry and the committed registers untouched; a sealed heat stays at the word.
The model's readings that it rests on: log 36. -/
def Obligations.FaultsParkTheCrew : Prop :=
  ∀ (s : State) (id n : Nat) (f : Fail) (lane : Option Nat) (nested : Bool) (c : Crew) (h : Heat),
    s.crew id = some c → c.heat = some h → h.slot = n → n < 2 → c.wait = .none →
    ∃ c' p, (s.raise id n f lane nested).crew id = some c' ∧ c'.park = some p ∧ p.late = false ∧ p.slot = n ∧
      p.fr.cause = f.cause ∧ p.fr.info = f.info ∧ p.fr.addr = BitVec.ofNat 64 f.addr ∧ p.fr.flane = lane ∧
      p.fr.lanes = (c.slot n).mask ∧ p.fr.heatpc = h.entry ∧ p.fr.wordpc = (c.slot n).pc ∧ p.fr.off = h.off ∧
      p.fr.sealed = h.sealed ∧ p.fr.nested = nested ∧ p.fr.kind = 0 ∧ p.fr.slot = n ∧ p.fr.crew = c.no ∧ p.fr.teamn = c.team ∧
      c'.com = c.com ∧ c'.stack = c.stack ∧ c'.exited = c.exited ∧ c'.slot (1 - n) = c.slot (1 - n) ∧
      (c'.slot n).mask = (c.slot n).mask ∧ (c'.slot n).base = (c.slot n).base ∧
      (h.sealed = false → c'.heat = none ∧ (c'.slot n).pc = h.entry) ∧
      (h.sealed = true → c'.heat = some h ∧ (c'.slot n).pc = (c.slot n).pc) ∧
      (s.raise id n f lane nested).mem.scr = s.mem.scr

/-- Where lanes fail, the fault is the first of ILLEGAL, FORMAT, ALIGN, SCOPE, PAGE, ACCESS, EXTENT and WATCH that some lane
meets, and among lanes that meet it the lowest lane's; an access completes only when no lane fails and none has to wait (R243).
The model's readings that it rests on: log 11. -/
def Obligations.TheFirstFailureIsRaised : Prop :=
  ∀ (lv : Bool) (rs : List (Nat × LaneRes)), rs.Pairwise (fun a b => a.1 < b.1) →
    let rank : Fail → Nat := fun f => [cILLEGAL, cFORMAT, cALIGN, cSCOPE, cPAGE, cACCESS, cEXTENT].idxOf f.cause
    ((∃ l f, (l, LaneRes.fail f) ∈ rs) →
      ∃ l f, (l, LaneRes.fail f) ∈ rs ∧ laneOutcome lv rs = .error (.fault f (if lv then some l else none)) ∧
        ∀ l' f', (l', LaneRes.fail f') ∈ rs → rank f < rank f' ∨ (rank f = rank f' ∧ l ≤ l')) ∧
    (∀ ls, laneOutcome lv rs = .ok ls → ls.map Prod.fst = rs.map Prod.fst ∧ ∀ l hs, (l, hs) ∈ ls → (l, LaneRes.ok hs) ∈ rs)

/-- A word that no instruction has, an ill-formed word, and a word in the 24th place that closes no heat raise ILLEGAL in a
crew, and stop an engine context with ILLEGAL (R45, R118). A word that names a destination inside a lookahead window (R116),
that would name a 33rd window register as destination (R47), or that reads a temporary which no word of the heat has written
(R49) raises ILLEGAL: stated of the integer words and of the loads.
The model's readings that it rests on: logs 11, 56. -/
def Obligations.UndecodedWordsAreIllegal : Prop :=
  (∀ (s : State) (id n : Nat) (c : Crew) (h : Heat), InHeat s id n c h →
    s.undecoded (.crew id n) = (s.setCrew id c).raise id n ⟨cILLEGAL, 0, 0⟩ none false) ∧
  (∀ (s : State) (k : Nat), s.undecoded (.eng k) = s.raiseEng k ⟨cILLEGAL, 0, 0⟩) ∧
  (∀ (s : State) (id n : Nat) (c : Crew) (h : Heat) (i : Instr) (w : Word), InHeat s id n c h → encode i = some w →
    let illegal : Option Nat → Host.Outcome State Fault Refusal := fun l => .next ((s.setCrew id c).raise id n ⟨cILLEGAL, 0, 0⟩ l false)
    let barred : List Nat → List Nat → Prop := fun src dst =>
      (∃ p ∈ h.pend, ∃ r ∈ p.ws, r.name ∈ dst) ∨ 32 < ((h.dests ++ dst.filter (· < 1024)).eraseDups).length ∨
        ∃ k ∈ src, 1024 ≤ k ∧ k ∉ h.temps
    (i.wf = false → exec i s = illegal none) ∧
    (∀ o rd g, i.intLane = some (o, rd, g) → barred (h.sources o rd) (h.keys o.d o.e) → exec i s = illegal none) ∧
    (∀ m, i.load = some m → i.wf = true → barred (h.baseKeys m.k m.a) (h.keys m.d m.e) →
      exec i s = illegal (lanesIn (c.lanes h)).head?)) ∧
  (∀ (s : State) (k : Nat) (e : Eng) (i : Instr) (w : Word), InEngine s k e → encode i = some w → i.wf = false →
    exec i s = .next (s.raiseEng k ⟨cILLEGAL, 0, 0⟩)) ∧
  (∀ (s : State) (id n : Nat) (c : Crew) (h : Heat) (i : Instr) (w : Word), s.cur = .crew id n → s.crew id = some c →
    c.named = [] → c.heat = some h → h.slot = n → 23 ≤ h.off → encode i = some w → i.closes = false →
    exec i s = .next ((s.setCrew id c).raise id n ⟨cILLEGAL, 0, 0⟩ none false)) ∧
  (∀ (s : State) (k : Nat) (e : Eng) (i : Instr) (w : Word), s.cur = .eng k → s.eng k = some e → e.entry.isSome → 23 ≤ e.off →
    encode i = some w → i.closes = false → exec i s = .next (s.raiseEng k ⟨cILLEGAL, 0, 0⟩))

-- Tokens, programs, launches.

/-- GIVE, TAKE, FORK, RDV and LAUNCH of a crew complete: GIVE seals, releases at CLUSTER scope and records the token for the
commit; TAKE of a returned token takes its entry and acquires; FORK starts a free context and gives its handle, or 0; RDV of
an ended program gives how it ended; LAUNCH queues the message it reads, or gives 1 when the queue is full. FORK and RDV of
a Miller context complete as a crew's do (R147 to R149).
The model's readings that it rests on: logs 27, 32. -/
def Obligations.TokenAndProgramWordsComplete : Prop :=
  (∀ (s : State) (id n : Nat) (c : Crew) (h : Heat), InHeat s id n c h →
      let s0 := s.setCrew id c
      let out : State → BitVec 5 → DWord → Host.Outcome State Fault Refusal := fun s d x =>
        .next ((s.emitted id [.s d.toNat x] 0 .clean).nextWord id 0)
      (∀ (a : BitVec 5), c.giveBad h (h.wrk.rdS a.toNat) = false →
        exec (.give a) s = .next ((((s0.seal id).releaseCrew id 2 3).updCrew id (fun c =>
          { c with heat := c.heat.map (fun h' => { h' with gives := h'.gives ++ [h.wrk.rdS a.toNat] }) })).nextWord id 0)) ∧
      (∀ (a : BitVec 5) (t : Token), c.toks.find? (fun t => tokBase t.word == tokBase (h.wrk.rdS a.toNat)) = some t →
        t.returned = true →
        exec (.take a) s = .next ((((s0.seal id).updCrew id (fun c =>
          { c with toks := c.toks.filter (fun t => tokBase t.word != tokBase (h.wrk.rdS a.toNat)) })).acquireCrew id 2 3).nextWord id 0)) ∧
      (∀ (o : Op3), Readable c h [] [] [nameS o.d] →
        let w := h.wrk.rdS o.a.toNat
        let pc := h.wrk.rdS o.b.toNat
        w.getLsbD 63 = false → fieldOf w 24 24 = 0 → targetOk w = true → fieldOf pc 0 2 = 0 →
        let core := s.coreOf c
        let r := ((s0.seal id).releaseCrew id (forkScope w) 3).startProgram ⟨c.rk, c.team, c.no, core⟩ (targetKey (core / 96) w) w
          (h.wrk.rdS o.d.toNat) pc
        exec (.fork o) s = out r.1 o.d r.2) ∧
      (∀ (o : Op2) (r : Nat), Readable c h [] [] [nameS o.d] →
        let w := h.wrk.rdS o.a.toNat
        let s1 := s0.seal id
        w.getLsbD 63 = true → targetOk w = true →
        s1.joined (s1.handleHome c.rk c.team (s1.coreOf c / 96) w) (fieldOf w 24 24) = some r →
        exec (.rdv o) s = out (s1.acquireCrew id (forkScope w) 3) o.d (BitVec.ofNat 64 r)) ∧
      (∀ (o : Op2) (s1 : State) (ls : List (Nat × List Hit)), Readable c h [] [] [nameS o.d] →
        let w := s.whoCrew id c
        let a : Acc := ⟨(h.wrk.rdS o.a.toNat).toNat, 64, aRead, 3, 4, 64, false, false, 0⟩
        s0.checkLanes w (s.siteCrew id c) c.com.watchFail false [(0, a)] = (s1, .ok ls) →
        let s2 := (s1.seal id).releaseCrew id 4 3
        let r := s2.readLanes w 0 (s2.heatOf id) ls
        (r.1.got w false [(0, a)] ls).bad = none →
        exec (.launch o) s = (if 256 ≤ r.1.port.queue.length then out r.1 o.d 1
          else out (r.1.enqueue (wordsOf 8 (r.2.flatMap Prod.snd))) o.d 0))) ∧
  (∀ (s : State) (k : Nat) (e : Eng), InEngine s k e → engKind k = 0 →
      (∀ (o : Op3), (∀ p ∈ e.pend, p.1 ≠ o.d.toNat) →
        let w := e.rdS o.a.toNat
        let pc := e.rdS o.b.toNat
        w.getLsbD 63 = false → fieldOf w 24 24 = 0 → targetOk w = true → fieldOf pc 0 2 = 0 →
        let s1 := s.engRelease (s.whoEng k e) (forkScope w)
        let r := s1.startProgram ⟨e.rk, e.team, e.crew, e.core⟩ (targetKey (engUnit k) w) w (e.rdS o.d.toNat) pc
        ∃ e', r.1.eng k = some e' ∧ exec (.fork o) s = .next ((r.1.setEng k (e'.putS o.d.toNat r.2)).nextEngWord k)) ∧
      (∀ (o : Op2) (r : Nat), (∀ p ∈ e.pend, p.1 ≠ o.d.toNat) →
        let w := e.rdS o.a.toNat
        w.getLsbD 63 = true → targetOk w = true →
        s.joined (s.handleHome e.rk e.team (engUnit k) w) (fieldOf w 24 24) = some r →
        exec (.rdv o) s = .next (((s.engAcquire (s.whoEng k e) (forkScope w)).setEng k
          (e.putS o.d.toNat (BitVec.ofNat 64 r))).nextEngWord k)))

/-- FORK on a free context starts its program with the next generation: the handle names generation, kind and index with bit
63 set, the context stands at the program's address with the argument in s0, and no other context changes; on a running
context nothing changes and the handle is 0 (R148, R411 to R413).
The model's readings that it rests on: log 27. -/
def Obligations.ProgramsStartOnFreeContexts : Prop :=
  ∀ (s : State) (x : Starter) (k : Nat) (w arg pc : DWord), targetOk w = true →
    let old := (s.eng k).getD Eng.start
    let r := s.startProgram x k w arg pc
    let gen := ((Tab.get s.forks k (0, 0)).1 + 1) % 2 ^ 24
    (old.busy = true → r = (s, 0)) ∧
    (old.busy = false →
      r.2.getLsbD 63 = true ∧ fieldOf r.2 24 24 = gen ∧ fieldOf r.2 16 4 = fieldOf w 16 4 ∧ fieldOf r.2 0 8 = fieldOf w 0 8 ∧
      (∀ j, j ≠ k → r.1.eng j = s.eng j) ∧ r.1.crews = s.crews ∧ r.1.mem.scr = s.mem.scr ∧
      Tab.get r.1.forks k (0, 0) = (gen, 0) ∧
      ∃ e, r.1.eng k = some e ∧ e.running = true ∧ e.pc = pc ∧ e.rdS 0 = arg ∧
        (∀ n, n ≠ 0 → e.rdS n = old.rdS n) ∧ (∀ n, n ≠ 0 → e.rdP n = false) ∧ e.entry = none ∧ e.mode = 0 ∧ e.park = none ∧
        e.rets = [] ∧ e.xops = [] ∧ e.ents = [] ∧ e.rk = x.rk ∧ e.team = x.team ∧ e.crew = x.crew)

-- Engines.

/-- The words of a Miller context complete: MMA, MZERO, MSCALE and MSTA pass their checks and queue an operation that adds 1 to
its set-slot; DWAIT whose slots are complete; DWAIT.arm; GMODE turns the cores it names; TSET, ASET and TGET of descriptors
that no operation uses; MEXIT ends the program when no operation is left (R287 to R301).
The model's readings that it rests on: log 25. -/
def Obligations.MatrixWordsComplete : Prop :=
  (∀ (s : State) (k : Nat) (e : Eng), InEngine s k e → engKind k = 0 →
    let next : Eng → Host.Outcome State Fault Refusal := fun e => .next ((s.setEng k e).nextEngWord k)
    (∀ (i : Instr) (slot : BitVec 3) (w : BitVec 8),
      ((∃ a t u z r, i = .mma a t u slot w z r) ∨ (∃ a, i = .mzero a slot w) ∨ (∃ a t v, v ≠ 3#2 ∧ i = .mscale a t slot w v) ∨
        (∃ a t z, i = .msta a t slot w z)) →
      e.waits w = false → e.dep slot.toNat < 255 → s.xCheck k (e.xop s.uid i slot.toNat s.clock) = none →
      exec i s = .next (({ s with uid := s.uid + 1 }.setEng k { e.setDep slot.toNat (e.dep slot.toNat + 1) with
        xops := e.xops ++ [e.xop s.uid i slot.toNat s.clock] }).nextEngWord k)) ∧
    (∀ (w : BitVec 8), e.waits w = false → exec (.dwait w) s = .next (s.nextEngWord k)) ∧
    (∀ (m : BitVec 4) (slot : BitVec 3), e.dep slot.toNat + m.toNat + 1 ≤ 255 →
      exec (.dwaitArm m slot) s = next (e.setDep slot.toNat (e.dep slot.toNat + m.toNat + 1))) ∧
    (∀ (a : BitVec 5),
      let x := e.rdS a.toNat
      let cores := gmodeCores k x
      let grid := x.getLsbD 16
      let turn := cores.filter (fun c => (s.coreSt c).grid.isSome != grid)
      x.toNat &&& 0x10FF7 = x.toNat → cores ≠ [] → (∀ c ∈ cores, s.foreignCrew e.rk c = false) →
      (∀ c ∈ cores, ∀ k', (s.coreSt c).grid = some k' → k' = k) →
      (grid = true → ∀ c ∈ turn, s.vectorBusy c = false) → (grid = false → ∀ c ∈ turn, e.occupies k c = false) →
      exec (.gmode a) s = .next ({ s with cores := turn.foldl (fun t c =>
        Tab.put t c { s.coreSt c with grid := if grid then some k else none }) s.cores }.nextEngWord k)) ∧
    (∀ (o : Op3), (Instr.tset o).wf = true → e.usesTile o.d.toNat = false →
      (e.rdS o.a.toNat).toNat &&& tileMask o.b.toNat = (e.rdS o.a.toNat).toNat →
      (o.b = 2 → fmtReserved (fieldOf (e.rdS o.a.toNat) 0 5) = false) →
      exec (.tset o) s = next { e with tiles := Tab.put e.tiles (o.d.toNat * 8 + o.b.toNat) (e.rdS o.a.toNat) }) ∧
    (∀ (o : Op3), (Instr.aset o).wf = true → e.usesAcc o.d.toNat = false →
      (o.b = 1 → fieldOf (e.rdS o.a.toNat) 16 3 < 6) →
      exec (.aset o) s = next { e with
        accs := Tab.put e.accs (o.d.toNat * 8 + o.b.toNat) (BitVec.ofNat 64 ((e.rdS o.a.toNat).toNat &&& accMask o.b.toNat))
        lfsr := if o.b = 2 then Tab.drop e.lfsr (fun key => key / 512 == o.d.toNat) else e.lfsr }) ∧
    (∀ (o : Op3), (Instr.tget o).wf = true → (∀ p ∈ e.pend, p.1 ≠ o.d.toNat) →
      exec (.tget o) s = next (e.putS o.d.toNat (BitVec.ofNat 64
        (if o.b.toNat < 16 then tileField e.tiles o.a.toNat o.b.toNat else accField e.accs o.a.toNat (o.b.toNat - 16)))))) ∧
  (∀ (s : State) (k : Nat) (e : Eng), EngClosing s k e → engKind k = 0 → e.xops = [] →
    let s1 := (s.setEng k (e.age true)).laneMode k
    let s2 := (List.range 16).foldl (fun s n => s.returnBlock k e (AccD.of e.accs n)) s1
    exec .mexit s = .next ((s2.engRelease (s2.whoEng k e) 2).endEng k))

/-- The words of Flume queues and Tailrace contexts complete: CPY, CPY2, GATH, SCAT, FILL, HALO and ESIG queue an entry with the
operand values they read, COLL one with its argument block, QFENCE one with its count, while fewer than 16 stand behind the oldest;
ELOOP counts down and branches, EEND ends the program once its queue is empty (R302 to R311).
The model's readings that it rests on: logs 28, 29. -/
def Obligations.TransferWordsComplete : Prop :=
  (∀ (s : State) (k : Nat) (e : Eng), InEngine s k e → e.ents.length < 17 →
    let queued : Entry → Host.Outcome State Fault Refusal := fun n =>
      .next (({ s with uid := s.uid + 1 }.setEng k { e with ents := e.ents ++ [n] }).nextEngWord k)
    let entry : Instr → OpE → Entry := fun i o =>
      e.entryOf s.uid i o.d o.a o.b (if o.g then e.rdS o.s.toNat else 0) [] s.clock
    (∀ (o : OpE), engKind k = 1 ∨ (engKind k = 2 ∧ o.g = false) →
      ((e.rdS o.b.toNat).toNat ≤ 2 ^ 40 →
        exec (.cpy o) s = queued (entry (.cpy o) o) ∧ exec (.fill o) s = queued (entry (.fill o) o)) ∧
      (o.b ≠ 31 → fieldOf (e.rdS o.b.toNat) 32 32 * fieldOf (e.rdS o.b.toNat) 0 32 ≤ 2 ^ 40 →
        exec (.cpy2 o) s = queued (entry (.cpy2 o) o))) ∧
    (engKind k = 1 → ∀ (o : OpE), o.b ≠ 31 →
      fieldOf (e.rdS (o.b.toNat + 1)) 41 23 = 0 → fieldOf (e.rdS (o.b.toNat + 1)) 32 8 ≤ 8 →
      exec (.gath o) s = queued (entry (.gath o) o) ∧ exec (.scat o) s = queued (entry (.scat o) o)) ∧
    (engKind k = 1 → ∀ (d a b : BitVec 5) (g : Bool), b ≠ 31 →
      exec (.halo d a b g) s = queued (e.entryOf s.uid (.halo d a b g) d a b 0 [] s.clock)) ∧
    (∀ (d a : BitVec 5) (kd : BitVec 3), kd.toNat ≤ 2 → engKind k = 1 ∨ (engKind k = 2 ∧ kd = 2) →
      exec (.esig d a kd) s = queued (e.entryOf s.uid (.esig d a kd) d a 0 0 [] s.clock)) ∧
    (engKind k = 1 ∨ engKind k = 2 → ∀ (a : BitVec 5),
      let x := e.rdS a.toNat
      let m := fenceMask k x
      let c := Tab.get e.fences m 0
      (engKind k = 2 → fieldOf x 16 48 = 0) → m.testBit (engIdx k) = true →
      exec (.qfence a) s = .next (({ s with uid := s.uid + 1 }.setEng k { e with
        ents := e.ents ++ [{ e.entryOf s.uid (.qfence a) 0 a 0 0 [] s.clock with a := BitVec.ofNat 64 m, b := BitVec.ofNat 64 c }]
        fences := Tab.put e.fences m (c + 1) }).nextEngWord k)) ∧
    (engKind k = 2 → ∀ (d : BitVec 5) (s1 s2 : State) (bs ps : List (List Byte)),
      let x := e.rdS d.toNat
      let w := (List.range 8).map (fun i => BitVec.ofNat 64 (leNat ((bs.flatten.drop (8 * i)).take 8)))
      let c := Coll.of w
      x.getLsbD 63 = false → x.toNat % 64 = 0 →
      s.engRead k e 0 [(0, ⟨x.toNat, 64, aRead, 1, modeScope e.mode, 64, false, false, 0⟩)] = .ok (s1, bs) → collBad w = false →
      s1.engRead k e 0 [(0, ⟨c.peers.toNat, 8 * c.p, aRead, 3, modeScope e.mode, 1, false, false, 0⟩)] = .ok (s2, ps) →
      let ranks := (List.range c.p).map (fun q => leNat ((ps.flatten.drop (8 * q)).take 8) % 1024)
      exec (.coll d) s = .next ((({ s2 with uid := s2.uid + 1 }.collGroup e c ranks).setEng k { e with
        ents := e.ents ++ [e.entryOf s2.uid (.coll d) d 0 0 0 w s2.clock] }).nextEngWord k))) ∧
  (∀ (s : State) (k : Nat) (e : Eng), EngClosing s k e → engKind k = 1 ∨ engKind k = 2 →
    (∀ (d : BitVec 5) (o : BitVec 10),
      let a := e.age true
      let x := a.rdS d.toNat
      let go : Eng → DWord → Host.Outcome State Fault Refusal := fun e' t => .next ((s.setEng k e').engGo k e.pc t)
      (x = 0 → exec (.eloop d o) s = go a (e.pc + 4)) ∧
      (x = 1 → exec (.eloop d o) s = go (a.putS d.toNat 0) (e.pc + 4)) ∧
      (1 < x.toNat → exec (.eloop d o) s = go (a.putS d.toNat (x - 1)) (e.pc + (o.signExtend 64 <<< 2)))) ∧
    (e.ents = [] → exec .eend s =
      .next ((s.engRelease (s.whoEng k e) (if engKind k = 2 then 4 else 2)).endEng k)))

/-- A word whose major Table 7-7 does not give to the profile of its agent raises ILLEGAL: in a crew, and in a Miller context,
a Flume queue or a Tailrace context; so does EXIT, of a major that every profile has, in an engine context (R117, R139). -/
def Obligations.WordsBelongToTheirAgents : Prop :=
  (∀ (s : State) (id n : Nat) (c : Crew) (h : Heat) (i : Instr) (w : Word), InHeat s id n c h → encode i = some w →
    majorCrew (opc w).toNat = false → exec i s = .next ((s.setCrew id c).raise id n ⟨cILLEGAL, 0, 0⟩ none false)) ∧
  (∀ (s : State) (k : Nat) (e : Eng) (i : Instr) (w : Word), InEngine s k e → encode i = some w →
    majorEng (engKind k) (opc w).toNat = false → exec i s = .next (s.raiseEng k ⟨cILLEGAL, 0, 0⟩)) ∧
  (∀ (s : State) (k : Nat) (e : Eng), InEngine s k e → exec .exit s = .next (s.raiseEng k ⟨cILLEGAL, 0, 0⟩))

-- System words.

/-- CSRR, CSRW, TLBI, CLASS, PWRQ and CTXQ complete: CSRR of a listed register that the crew may read, CSRW of a watch register
by any crew and of a device register by a privileged one, TLBI and CLASS of a privileged crew, PWRQ and CTXQ (R312 to R318).
TLBI drops the translations it names and waits until the accesses translated before it are performed (R315, R377); CLASS
without a place in its die's class engine waits with its ticket (R273). The model's readings that it rests on: logs 54, 57, 84,
85. -/
def Obligations.SystemWordsComplete : Prop :=
  (∀ (s : State) (id n : Nat) (c : Crew) (h : Heat), InHeat s id n c h →
    let s0 := s.setCrew id c
    let out : State → BitVec 5 → Nat → Host.Outcome State Fault Refusal := fun s d x =>
      .next ((s.emitted id [.s d.toNat (BitVec.ofNat 64 x)] 0 .clean).nextWord id 0)
    (∀ (d : BitVec 5) (r : BitVec 10), Readable c h [] [] [nameS d] → csrListed r.toNat = true →
      (csrPriv r.toNat = true → s.privileged c.rk = true) →
      exec (.csrr d r) s = out s0 d (if 0x20 ≤ r.toNat then (Tab.get h.wrk.watch (r.toNat - 0x20) 0).toNat else s.csr r.toNat)) ∧
    (∀ (d : BitVec 5) (r : BitVec 10), csrListed r.toNat = true → 0x20 ≤ r.toNat →
      exec (.csrw d r) s = .next ((s.setCrew id { c with heat := some { h with
        wrk := { h.wrk with watch := Tab.put h.wrk.watch (r.toNat - 0x20) (watchKeep (h.wrk.rdS d.toNat)) }
        en := Tab.put h.en (9016 + (r.toNat - 0x20)) (BitVec.allOnes 32) } }).nextWord id 0)) ∧
    (∀ (d : BitVec 5) (r : BitVec 10), csrPriv r.toNat = true → s.privileged c.rk = true →
      exec (.csrw d r) s = .next (((s0.seal id).csrPut r.toNat (h.wrk.rdS d.toNat)).nextWord id 0)) ∧
    (∀ (a b : BitVec 5),
      let v := h.wrk.rdS b.toNat
      s.privileged c.rk = true → fieldOf v 0 2 ≠ 3 → fieldOf v 4 60 = 0 → (fieldOf v 0 2 = 0 → fieldOf v 2 2 ≠ 3) →
      let s1 := ((s0.seal id).performLaters.markOld (some id)).invalTlb (tlbNames (fieldOf v 0 2) (fieldOf v 2 2)
        (h.wrk.rdS a.toNat).toNat 0)
      (c.wait ≠ .drain → s1.oldLeft = false → exec (.tlbi a b) s = .next (s1.nextWord id 0)) ∧
      (c.wait ≠ .drain → s1.oldLeft = true → exec (.tlbi a b) s = .next (s1.updCrew id (fun c => { c with wait := .drain }))) ∧
      (c.wait = .drain → s0.oldLeft = false → exec (.tlbi a b) s = .next (s0.nextWord id 0))) ∧
    (∀ (a b : BitVec 5) (s1 : State),
      let v := (h.wrk.rdS b.toNat).toNat
      let va := (h.wrk.rdS a.toNat).toNat
      let w := s.whoCrew id c
      let s2 := (s0.seal id).refuseOnce (resClass w.die) id
      s.privileged c.rk = true → bits v 0 2 ≠ 3 → v &&& 0x303 = v → va < 2 ^ 57 →
      (s0.admitted (resClass w.die) id = true →
        ((s0.seal id).claim (resClass w.die) id).classNow w va (bits v 0 2) (s.coreOf c) = (s1, none) →
        (∀ h1, s1.heatOf id = some h1 → ∀ p ∈ h1.pend, p.left ≤ 1 → p.got.bad = none) →
        exec (.classPage a b) s = .next ((s1.askTier w.die w.fdom va (bits v 8 2)).nextWord id 0)) ∧
      (s0.admitted (resClass w.die) id = false →
        exec (.classPage a b) s = .next (s2.updCrew id (fun c => { c with wait := s2.classWait w.die id })))) ∧
    (∀ (o : Op3), Readable c h [] [] [nameS o.d] →
      let s1 := s0.seal id
      let key := sliceKey (s.coreOf c)
      let want := fieldOf (h.wrk.rdS o.b.toNat) 0 4
      let ok := 3 ≤ want ∧ want ≤ 8 ∧ want ≤ s1.ceilOf key
      (fieldOf (h.wrk.rdS o.a.toNat) 0 4 = 0 → exec (.pwrq o) s = out s1 o.d (Tab.get s1.power.allow (s.coreOf c / 96) 0)) ∧
      (fieldOf (h.wrk.rdS o.a.toNat) 0 4 = 1 → ∀ r, s1.region c.rk = some r → exec (.pwrq o) s = out s1 o.d (r.energy / 1000)) ∧
      (fieldOf (h.wrk.rdS o.a.toNat) 0 4 = 2 → exec (.pwrq o) s = out s1 o.d (Tab.get s1.power.ratio key 8)) ∧
      (fieldOf (h.wrk.rdS o.a.toNat) 0 4 = 3 → s.privileged c.rk = true →
        (ok → exec (.pwrq o) s = out { s1 with power := { s1.power with req := Tab.put s1.power.req key want } } o.d 1) ∧
        (¬ok → exec (.pwrq o) s = out s1 o.d 0))) ∧
    (∀ (o : Op2) (r : Region), Readable c h [] [] [nameS o.d] → s.region c.rk = some r → (h.wrk.rdS o.a.toNat).toNat < r.grid →
      exec (.ctxq o) s = out s0 o.d (s.teamWord c.rk (h.wrk.rdS o.a.toNat).toNat))) ∧
  (∀ (s : State) (k : Nat) (e : Eng) (d : BitVec 5) (r : BitVec 10), InEngine s k e → engKind k = 0 →
    csrListed r.toNat = true → r.toNat < 0x20 → (csrPriv r.toNat = true → s.privileged e.rk = true) →
    (∀ p ∈ e.pend, p.1 ≠ d.toNat) →
    ∃ m, exec (.csrr d r) s = .next (({ s with freeCount := m }.setEng k (e.putS d.toNat (BitVec.ofNat 64 (s.csr r.toNat)))).nextEngWord k))

/-- Without privilege, the device's system registers, TLBI, CLASS and PWRQ's throttle request raise ACCESS and change no system
register and no translation; a register that Table 17-7 does not list and a write of a read-only one raise ILLEGAL. The
model's reading that it rests on: log 11. -/
def Obligations.PrivilegeIsChecked : Prop :=
  ∀ (s : State) (id n : Nat) (c : Crew) (h : Heat), InHeat s id n c h →
    let access : Host.Outcome State Fault Refusal := .next ((s.setCrew id c).raise id n ⟨cACCESS, 0, 0⟩ none false)
    let illegal : Host.Outcome State Fault Refusal := .next ((s.setCrew id c).raise id n ⟨cILLEGAL, 0, 0⟩ none false)
    (s.privileged c.rk = false →
      (∀ d r, csrPriv r.toNat = true → Readable c h [] [] [nameS d] → exec (.csrr d r) s = access) ∧
      (∀ d r, csrPriv r.toNat = true → exec (.csrw d r) s = access) ∧
      (∀ a b, exec (.tlbi a b) s = access) ∧ (∀ a b, exec (.classPage a b) s = access) ∧
      (∀ o : Op3, Readable c h [] [] [nameS o.d] → fieldOf (h.wrk.rdS o.a.toNat) 0 4 = 3 → exec (.pwrq o) s = access)) ∧
    (∀ d r, csrListed r.toNat = false → exec (.csrr d r) s = illegal ∧ exec (.csrw d r) s = illegal) ∧
    (∀ d (r : BitVec 10), r.toNat ≤ 3 → exec (.csrw d r) s = illegal)

-- Events.

/-- Events of a crew complete: a long-latency result or atomic arrives, a result zero and with a fault raised at the next heat
boundary when its data is bad (R129), and the lanes whose AtomicOp reports an error are kept for the atomic (R387); the Sluice
performs the transfer owed or waited for by the crew whose request stands first at its core (R59, R64, R410); a waiting word is
performed again when its monitor fires, its ticket is granted or its limit is asked (R266, R271, R275); an unclaimed reservation
passes on (R273); at most four clusters are admitted to strikes in a cluster clock (R348); a starved slot is promoted (R342); a
crew whose lanes have exited retires (R61). The model's readings that it rests on: logs 1, 8, 9, 16, 80, 86, 88. -/
def Obligations.CrewEventsComplete : Prop :=
  ∀ (s : State) (id : Nat) (c : Crew), s.crew id = some c →
    (∀ (p : Pend) (r : List Pend), c.named = p :: r → c.bad = none →
      let got : List RegW → Crew := fun ws => { c with
        com := c.com.puts ws, named := r, heat := c.heat.map (fun h => { h with wrk := h.wrk.puts ws }) }
      exec (.longLatencyCompletion id false none) s = .next (s.setCrew id (got p.ws)) ∧
      exec (.atomicopCompletion id 0) s = .next (s.setCrew id (got p.ws)) ∧
      ∃ f : FaultRec, f.cause = cPOISON ∧ f.wordpc = p.pc ∧
        f.addr = BitVec.ofNat 64 (p.got.reads.head?.elim 0 LaneRead.va) ∧ f.flane = p.got.reads.head?.bind LaneRead.lane ∧
        exec (.longLatencyCompletion id true none) s = .next (s.setCrew id { got (p.ws.map RegW.zero) with bad := some f })) ∧
    (∀ w : Word, w ≠ 0 → exec (.atomicopCompletion id w) s = .next (s.setCrew id { c with aopBad := w })) ∧
    (∀ (item : Nat) (rest : List Nat) (s1 : State), c.ring.todo = item :: rest → c.park = none → s.firstAsker id c = true →
      s.transfer id item (c.heat.elim c.last Heat.slot) = (s1, none) →
      exec (.sluiceSpill id) s = .next (s1.updCrew id (fun c => c.updRing (fun g => { g with todo := rest })))) ∧
    (∀ (n b : Nat) (s1 : State), c.wait = .refill n [b] → c.park = none → s.firstAsker id c = true → s.bring id b n [b] = (s1, none) →
      exec (.sluiceRefill id) s = .next (s1.updCrew id (fun c =>
        { c with wait := .none, ring := { c.ring with touched := (b :: c.ring.touched).eraseDups } }))) ∧
    (∀ (k b : Nat) (s1 : State), c.wait = .reg k b → c.park = none → s.firstAsker id c = true → s.bring k b 2 [] = (s1, none) →
      exec (.sluiceRefill id) s = .next (s1.updCrew id (fun c => { c with wait := .none }))) ∧
    (∀ (h : Heat) (i : Instr) (w : Word) (s1 : State), c.heat = some h → s.eligible (.crew id h.slot) = true →
      State.fetchWord { s with cur := .crew id h.slot } (s.whoCrew id c) (c.slot h.slot).pc = (s1, .ok w) →
      decodeWord w = .ok i → i.blocks = true →
      ∃ t, exec i s1 = .next t ∧
        (∀ m ∈ s.mem.monitors, c.wait = .monitor → m.crew = id → m.fired = true → exec (.monitorWake id) s = .next t) ∧
        (∀ r g t0 b, c.wait = .ticket r g t0 b → s.granted r id = true → exec (.grantRetry id) s = .next t) ∧
        (∀ p g t0, c.wait = .barrier p g t0 false → g ≠ 2 ^ 32 → exec (.twaitLimitExpiry id) s = .next t) ∧
        (∀ r g t0, c.wait = .ticket r g t0 false → s.queued r id = true → exec (.twaitLimitExpiry id) s = .next t)) ∧
    (∀ (res t0 : Nat) (q : List (Nat × Nat)), (s.ticketOf res).reserved = (id, t0) :: q → t0 + 256 ≤ s.clock →
      ((∀ g t b, c.wait ≠ .ticket res g t b) ∨ c.park.isSome = true) →
      exec (.reservationExpiry res) s = .next ((s.setTicket res { s.ticketOf res with reserved := q }).grantNext res)) ∧
    exec .strikeClusterAdmission s = .next s.admitOne.admitOne.admitOne.admitOne ∧
    (4 ≤ s.admits → exec .strikeClusterAdmission s = .next s) ∧
    (∀ n, s.slotEligible id n = true → c.since n + 4096 ≤ s.clock → n ∉ c.promoted →
      exec (.starvationPromotion id n) s = .next (s.setCrew id { c with promoted := c.promoted ++ [n] })) ∧
    (∀ t, s.team c.rk c.team = some t → t.st = .placed → c.launched &&& ~~~c.exited = 0 → c.heat = none → c.park = none →
      c.ring.todo = [] → (c.toks = [] ∨ s.millerOf c = false) →
      exec (.crewRetirement id) s = .next ((s.dropCrew id).strikeCheck c.rk))

/-- Events of engine contexts complete: a ready operation starts with the acquire of R411; a started one has its effect on
the elements its owners hold, returns them if it says so, and lowers its slot, in a cluster clock that was not withheld for
power (R287, R296, R345); the oldest entry, once its units are granted, is performed whole and leaves its queue, or faults
and leaves it (R232, R303, R344); matching QFENCEs pass together (R309); a wait beyond its limit raises TIMEOUT (R289). The
model's readings that it rests on: logs 1, 24, 25, 28, 78, 79. -/
def Obligations.EngineEventsComplete : Prop :=
  ∀ (s : State) (k : Nat) (e : Eng), s.eng k = some e → e.live = true →
    (∀ x ∈ e.xops, e.xops.find? (fun y => y.id == x.id) = some x →
      (s.xReady k e x = true → exec (.xOperationStart k x.id) s = .next ((s.setEng k { e with
        xops := e.xops.map (fun y => if y.id = x.id then { y with started := true } else y) }).engAcquire (s.whoEng k e) 2)) ∧
      (∀ ps s1, x.started = true → .xop k x.id ∈ s.power.granted → s.owners k e x.acc = some ps →
        (x.loads = true → ∀ p ∈ ps, x.acc.lost p.2 = false) → s.xEffect k e x ps = .ok s1 →
        exec (.xOperationCompletion k x.id) s = .next ((s1.xReturn k e x).xRemove k x.id)) ∧
      (∀ ps s1 f, x.started = true → .xop k x.id ∈ s.power.granted → s.owners k e x.acc = some ps →
        (x.loads = true → ∀ p ∈ ps, x.acc.lost p.2 = false) → s.xEffect k e x ps = .error (.after s1 f) →
        exec (.xOperationCompletion k x.id) s = .next (s1.xFault k x f)) ∧
      (x.started = false → s.owners k e x.acc = none → s.mil.millto ≠ 0 → x.since + s.mil.millto < s.clock →
        exec (.tokenWaitTimeout k x.id) s = .next (s.xFault k x ⟨cTIMEOUT, 0, 0⟩))) ∧
    (∀ (n : Entry) (r : List Entry), e.ents = n :: r →
      (s.entryWaits k e n = false → n.unpaid k = false →
        (∀ s1, s.doEntry k e n = .ok (s1, none) → ∃ f,
          exec (.engineEntryCompletion k) s = .next (State.popEntry { s1 with freeCount := f } k)) ∧
        (∀ s1 x, s.doEntry k e n = .ok (s1, some x) → ∃ f,
          exec (.engineEntryCompletion k) s = .next (State.entryFault { s1 with freeCount := f } k n x)) ∧
        (∀ f l, s.doEntry k e n = .error (.fault f l) → ∃ g,
          exec (.engineEntryCompletion k) s = .next (State.entryFault { s with freeCount := g } k n f)) ∧
        (∀ s1 f, s.doEntry k e n = .error (.after s1 f) → ∃ g,
          exec (.engineEntryCompletion k) s = .next (State.entryFault { s1 with freeCount := g } k n f))) ∧
      (s.atFence n k = true → (∀ q ∈ fenceKeys k n.a.toNat, s.atFence n q = true) →
        exec (.qfenceMatch k) s = .next ((fenceKeys k n.a.toNat).foldl State.popEntry s)) ∧
      ((s.entryWaits k e n = true ∨ n.waitsPeer = true) → s.mil.engto ≠ 0 → n.since + s.mil.engto * 1400 < s.clock →
        exec (.engineWaitTimeout k) s = .next (s.entryFault k n ⟨cTIMEOUT, 0, 0⟩)))

/-- Events of the Headrace complete: a launch message enters the queue or is counted in LDROP (R324); admission takes the head
message, refuses a tree with its code and offender or admits it whole (R33, R325, R326); a graph node with its inputs becomes
ready (R338); the first placeable team is placed and drain marks set (R327, R330); a marked empty core is apportioned (R197);
pre-emption stops a team, then writes its image (R331, R368); a held team resumes (R371); a team retires and sets its bit
(R61, R334); a region completes (R61, R339); the oldest fault that waited for ring space is posted (R361).
The model's readings that it rests on: logs 1, 30, 31, 33, 34, 35, 36, 58. -/
def Obligations.SchedulerEventsComplete : Prop :=
  ∀ (s : State),
    (∀ msg : List DWord, s.port.up = true → msg.length = 8 →
      exec (.launchMessage 0 msg) s = .next (if s.port.ready = true ∧ s.port.queue.length < 256
        then { s with port := { s.port with queue := s.port.queue ++ [msg] } }
        else { s with port := { s.port with ldrop := s.port.ldrop + 1 } })) ∧
    (∀ msg q, s.port.queue = msg :: q →
      let root := rw msg 0 0 57
      (msgBad msg = true →
        exec .admission s = .next { s with port := { s.port with queue := q, ldrop := s.port.ldrop + 1 } }) ∧
      (∀ s1 e off, msgBad msg = false → State.visitTree root 258 [(root, none, 0)] s [] = (s1, .error (e, off)) →
        exec .admission s = .next (State.refuseTree { s1 with port := { s1.port with queue := q } } msg e off)) ∧
      (∀ s1 ns, msgBad msg = false → State.visitTree root 258 [(root, none, 0)] s [] = (s1, .ok ns) →
        (s1.regions.filter (fun kv => decide (kv.2.state < 2))).length + ns.length ≤ 1024 →
        let s2 := State.admitTree { s1 with port := { s1.port with queue := q } } msg ns
        let s3 := (List.range ns.length).foldl (fun s i => s.lateBits (s1.port.nextRk + i)) s2
        exec .admission s = .next (State.abortOrphans s3.regions.length s3))) ∧
    (∀ rcb rk r, s.byRcb rcb = some (rk, r) → r.state < 2 →
      (r.kind = 3 → r.ready = false → s.nodeInputs rk r = true →
        exec (.nodeReady rcb) s = .next (let s1 := s.updRegion rk (fun r => { r with ready := true, readySeq := s.port.readyCtr })
          { s1 with port := { s1.port with readyCtr := s1.port.readyCtr + 1 } })) ∧
      (s.regionDone rk r = true → exec (.regionCompletion rcb) s = .next ((s.publishRegion rk).endRegion rk 2 0)) ∧
      (∀ team t, s.team rk team = some t → s.teamOver rk team t = true →
        let s1 := s.publishCore t.core false
        let lo := scrAddr t.core (t.idx * r.allotBytes)
        let words := (s1.mem.scr.filter (fun x => decide (lo ≤ x.1) && decide (x.1 < lo + r.barw * 64))).map
          (fun x => (x.1 - lo, x.2))
        let s2 := s1.moveWaiters (fun w =>
          if decide (lo ≤ w) && decide (w < lo + r.allotBytes) then imgPlace (teamKey rk team) (w - lo) else w)
        let t3 := { t with st := .retired, pre := false, preStep := 0, scr := words }
        let s3 := { s2 with teams := Tab.put s2.teams (teamKey rk team) t3 }
        exec (.teamRetirement rcb team) s = .next ((State.setBit (s3.updRegion rk (fun r => { r with retired := r.retired + 1 }))
          rcb team none).strikeCheck rk)) ∧
      (∀ team t, s.team rk team = some t → t.st = .placed → t.pre = true → t.preStep = 0 → s.holders_ rk team = [] →
        (∀ kv ∈ s.crews, kv.2.rk = rk → kv.2.team = team → ∀ c, s.crew kv.1 = some c → c.canStop = true) →
        exec (.teamPreemption rcb team) s = .next (let s1 := State.publishCore (((s.crews.filter (fun kv =>
            kv.2.rk == rk && kv.2.team == team)).map Prod.fst).foldl State.stopCrew_ s) t.core true
          { s1 with teams := Tab.put s1.teams (teamKey rk team) { t with preStep := 1 } })) ∧
      (∀ team t slot, s.team rk team = some t → s.freeSlot = some slot → t.st = .placed → t.preStep = 1 →
        s.shareIdle rk team (scrAddr t.core (t.idx * r.allotBytes)) (scrAddr t.core (t.idx * r.allotBytes) + r.allotBytes) = true →
        exec (.contextImageWrite rcb team) s = .next ((s.writeImage rk r team t slot).commandDone).runAborts) ∧
      (∀ team s1, s.firstPlaceable = some (rk, team, s1) → (s.team rk team).isSome = true →
        exec (.teamResumption rcb team) s = .next s1)) ∧
    (∀ rk team s1, s.firstPlaceable = some (rk, team, s1) → exec .teamPlacement s = .next s1.markAll) ∧
    (∀ core rk team r, (s.coreSt core).mark = some (rk, team) → s.region rk = some r → s.residents core none = [] →
      (s.coreSt core).matches_ r = false →
      exec (.apportioningChange core) s = .next (let s1 := s.apportion core r
        { s1 with cores := Tab.put s1.cores core { s1.coreSt core with mark := some (rk, team) } })) ∧
    (∀ key v t, s.freeSlot.isSome = true → s.roomNeed = some (key, v, t) →
      exec (.priorityPreemption (t.core / 384)) s = .next (State.askPre
        { s with port := { s.port with roomFor := Tab.put s.port.roomFor v key } } v t)) ∧
    (∀ fdom key c p fr s1 q us, s.port.unposted = ⟨fdom, key, false, fr⟩ :: us → fr.image = false → s.crew key = some c →
      c.park = some p → p.fr = fr → (∀ t, s.team c.rk c.team = some t → t.image = none) →
      s.postRec fdom fr = (s1, some q) →
      exec (.deferredFaultPosting fdom) s = .next (State.setCrew
        { s1 with port := { s1.port with unposted := s1.port.unposted.erase ⟨fdom, key, false, fr⟩ } } key
        { c with park := some { p with seq := some q } }))

/-- Commands and registers of the host complete. A command is lost while one is in progress; otherwise it has its effect and
DONE counts it, at once unless teams must first leave their cores (R362 to R365). LOST is cleared by writing one; a register
write stores the register (R380). A pool extent is mapped, released, asked back, removed, and fails with its device (R388,
R391, R392). The model's readings that it rests on: logs 34, 39, 42. -/
def Obligations.CommandsComplete : Prop :=
  ∀ (s : State), s.port.up = true → s.port.phase ≠ 15 →
    let done : State → State := fun t => if t.port.busy = true then t else { t with port := { t.port with done := t.port.done + 1 } }
    (s.port.busy = true → ∀ i ∈ ([.abort, .evict, .admitTeams, .resume 0 0, .skip 0 0, .trapCommand 0 0, .shoot 0 0, .tevict 0] : List Instr),
      exec i s = .next { s with port := { s.port with lost := true } }) ∧
    (s.port.busy = false → ∀ (fdom : BitVec 12) (seq : Word),
      exec (.resume fdom seq) s = .next (done (s.faultCommand 1 fdom seq)) ∧
      exec (.skip fdom seq) s = .next (done (s.faultCommand 2 fdom seq)) ∧
      exec (.trapCommand fdom seq) s = .next (done (s.faultCommand 3 fdom seq)) ∧
      (∀ sc va, sc < 4 → va < 3 → seq = BitVec.ofNat 32 (sc * 4 + va) → (va = 0 → sc < 3) →
        let s1 := (s.performLaters.markOld none).invalTlb (tlbNames va sc s.port.farg.toNat fdom.toNat)
        (s1.oldLeft = false → exec (.shoot fdom seq) s = .next (done s1)) ∧
        (s1.oldLeft = true → exec (.shoot fdom seq) s = .next { s1 with port := { s1.port with busy := true } })) ∧
      (∀ rk r, s.byRcb s.port.farg.toNat = some (rk, r) → s.region rk = some r → r.state < 2 →
        ((∀ kv ∈ s.teams, kv.2.pre = true → kv.2.st = .placed → kv.1 / 2 ^ 48 ∉ s.subtree rk) →
          exec .abort s = .next (done (s.abortRegion rk 0))) ∧
        ((∃ kv ∈ s.teams, kv.2.pre = true ∧ kv.2.st = .placed ∧ kv.1 / 2 ^ 48 ∈ s.subtree rk) →
          exec .abort s = .next { s with port := { s.port with abortReq := s.port.abortReq ++ [rk], busy := true } }) ∧
        (r.kind % 2 = 1 → seq.toNat < r.grid → exec (.tevict seq) s = .next (done (s.holdTeam rk seq.toNat))))) ∧
    (s.port.busy = false → ∀ rk r, s.leavesAt s.port.farg.toNat = [(rk, r)] →
      exec .evict s = .next (done (let s1 := s.updRegion rk (fun r => { r with evicted := true })
        ((s1.teams.filter (fun t => t.1 / 2 ^ 48 == rk)).map (fun t => t.1 % 2 ^ 48)).foldl (fun s t => s.holdTeam rk t) s1)) ∧
      exec .admitTeams s = .next (done (let s1 := s.updRegion rk (fun r => { r with evicted := false })
        let ts := s1.teams.filter (fun t => !(t.1 / 2 ^ 48 == rk && t.2.st == .held))
        { s1 with teams := ts.map (fun t => if t.1 / 2 ^ 48 = rk then (t.1, { t.2 with evicted := false }) else t) }))) ∧
    (∀ v : DWord, v.getLsbD 1 = true → exec (.lostClear v) s = .next { s with port := { s.port with lost := false } }) ∧
    (∀ off v, 0x40 ≤ off → off % 8 = 0 → off ≠ 0x120 → off ≠ 0x128 → (off < 0x800 ∨ 0x1000 ≤ off) →
      exec (.registerWrite off 8 v) s = .next (s.barPut off v)) ∧
    exec (.registerWrite 0x118 8 5) s = .next { s with port := { s.port with farg := 5 } } ∧
    (∀ e (v : DWord), e < 64 →
      let x := s.extent e
      (x.valid = false → v.getLsbD 63 = true → 0 < x.len → (if v.getLsbD 61 then s.pool.trainedB else s.pool.trainedA) = true →
        (∀ kv ∈ s.pool.exts, kv.2.valid = true → kv.2.meets (x.put0 v) = false) →
        ∃ tag f, exec (.poolExtentMap e v) s = .next ((State.setExtent { s with freeCount := f } e
          { x.put0 v with valid := true, st := 1, tag := tag }).showExtent (x.put0 v))) ∧
      (x.valid = true → x.st ≤ 2 → exec (.extentRelease e v) s = .next (((s.flushExtent x).hideExtent x).setExtent e
        { x.put0 v with valid := false, st := 0, tag := 0 })) ∧
      (x.st = 1 → exec (.extentReleaseRequest e) s = .next (State.notice (let s1 := s.setExtent e { x with st := 2 }
        s1.setPool { s1.pool with notices := e :: s1.pool.notices }) Config.driverVector)) ∧
      (x.valid = true → x.st < 3 →
        let d := (s.setExtent e { x with st := 3 }).dropLines x
        let by_ := d.2.map (fun pa => (pa, Tab.get s.mem.wrote (pa - x.wbase + x.base) 0))
        let q := d.1.loseStores x.cell cEXTENT
        let t := q.1.loseReads (fun y => x.cell y.1 (y.2 * 128)) cEXTENT
        exec (.extentRemoval e) s = .next { t with pool := { t.pool with errlog := t.pool.errlog ++ by_ ++ q.2 } } ∧
        (s.crews = [] → s.engs = [] → t = d.1 ∧ q.2 = []) ∧
        d.1.extent e = { x with st := 3 } ∧ d.1.pool.errlog = s.pool.errlog ∧ d.1.pool.dev = s.pool.dev ∧
        d.1.mem.pkg = s.mem.pkg ∧ d.1.mem.ext = s.mem.ext ∧ (s.mem.lines = [] → s.mem.l2 = [] → d.2 = []) ∧
        (∀ kv, kv ∈ d.1.mem.l2 ↔ kv ∈ s.mem.l2 ∧ (x.shared = true ∨ x.holds (kv.1 * 128) = false)) ∧
        (x.shared = false → ∀ kv ∈ s.mem.l2, x.holds (kv.1 * 128) = true → ∀ j, j < 128 → kv.2.dirty.getLsbD j = true →
          kv.1 % 2 ^ 45 * 128 + j ∈ d.2) ∧
        d.1.mem.tree = (if x.shared then s.mem.tree else s.mem.tree.filter (fun kv => !x.holds kv.2.gbase)) ∧
        d.1.mem.fabShare = (if x.shared then s.mem.fabShare else s.mem.fabShare.filter (fun ln => !x.holds (ln * 128))))) ∧
    (∀ port, exec (.poolFatalError port) s = .next { s with pool := { s.pool with exts := s.pool.exts.map (fun kv =>
      if kv.2.valid = true ∧ kv.2.port = port then (kv.1, { kv.2 with st := 4 }) else kv) } })

/-- Events of memory, the host port and peers complete: a write-combining entry drains with age (R235); a split level decays
(R217); a migration moves its next line (R219); a class conflict is resolved and its access goes on (R378); the host reads
and writes package memory, or meets Unsupported Request where none is present (R382, R383) and where an option is not
supported (R381); in recovery the Milden mailbox alone answers (R403); a snoop takes an EXTERNAL line (R386); the port goes
down, its loads in flight lost, and trains (R393, R400); a peer's read, write and atomic are answered, and its teardown takes a
granule (R397, R398); an unreachable peer's stores are dropped and logged, and its loads in flight are lost (R394); failed banks
and soft errors are kept (R203); the tree caches are cut (R11). The model's readings that it rests on: logs 19, 22, 23, 39, 40,
41, 44, 46, 47, 77. -/
def Obligations.MemoryEventsComplete : Prop :=
  ∀ (s : State),
    (∀ core (w : Wcb) r, Tab.get s.mem.wcb core [] = w :: r → w.t0 * 5 + w.age * 7 ≤ s.clock * 5 →
      exec (.wcbAgeingExpiry core w.line) s =
        .next { s with mem := { s.mem.drainOne w with wcb := Tab.put (s.mem.drainOne w).wcb core r } }) ∧
    (∀ block l t, Tab.get s.mem.split block (0, 0) = (l, t) → l ≠ 0 → t + 2 ^ 20 ≤ s.clock →
      exec (.splitLevelDecay block) s = .next (let m := s.mem.tearRange (block * 65536) 65536
        { s with mem := { m with split := Tab.put m.split block (l - 1, s.clock) } })) ∧
    (∀ die key mv, s.dieMove die = some (key, mv) →
      let s0 := s.performLaters
      let m := s0.mem.moveLine s0.clock mv
      let mv' := { mv with line := mv.line + 1 }
      let home : Nat → Nat := fun a => if a / 128 = mv.old / 128 + mv.line then a - mv.old + mv.new else a
      let s1 := { s0 with
        mem := { m with moves := Tab.put m.moves key mv' }
        crews := s0.crews.map (fun kv => (kv.1, { kv.2 with heat := kv.2.heat.map (Heat.moved .pkg home) })) }
      exec (.migrationStep die) s = .next (if 2 ^ mv.nbits ≤ mv'.line * 128 then s1.switchPage key mv' else s1)) ∧
    (∀ die, exec (.classConflict die) s = .next (s.classRun die)) ∧
    (∀ die r q x s2, Tab.get s.mem.classq die [] = r :: q →
      let s1 := State.grantNext { s with mem := { s.mem with classq := Tab.put s.mem.classq die q } } (resClass die)
      s1.walk r.fdom r.va = .ok x → s1.performLaters.classFix r.fdom r.va 0 0 = (s2, none) →
      exec (.classConflict die) s = .next (s2.classDone r.crew)) ∧
    (∀ off len, s.port.up = true → s.port.phase ≠ 15 → s.presentAll off len = true →
      let pas := (List.range len).map (fun i => s.redirect (off + i))
      s.homePoisoned pas = false →
      exec (.hostRead 2 off len ⟨none, .plain⟩) s = .next { s with
        mem := ((pas.map lineOf).eraseDups).foldl MemSys.hostSees s.mem
        port := { s.port with lastRead := pas.map s.mem.homeByte } }) ∧
    (∀ off, s.port.up = true → s.port.phase ≠ 15 → off % 8 = 0 → off < 0x100000 →
      exec (.hostRead 0 off 8 ⟨none, .plain⟩) s =
        .next { s with port := { s.port with lastRead := leOf 8 (s.barRegister off).toNat } }) ∧
    (∀ off, s.port.up = true → s.port.phase ≠ 15 → off % 8 = 0 → 0x100000 ≤ off → off < 0x200000 →
      exec (.hostRead 0 off 8 ⟨none, .plain⟩) s = .next { s with port := { s.port with
        lastRead := (List.range 8).map (fun i => Config.telemetryByte (off + i) s.report) } }) ∧
    (s.port.up = true → s.port.phase = 15 →
      (∀ off, off % 8 = 0 → off < 2 ^ 24 → off < 0x200000 ∨ 0x201000 ≤ off →
        exec (.hostRead 0 off 8 ⟨none, .plain⟩) s = .next { s with port := { s.port with lastRead := [] } }) ∧
      (∀ off, off % 8 = 0 → 0x200000 ≤ off → off < 0x201000 →
        exec (.hostRead 0 off 8 ⟨none, .plain⟩) s = .next { s with
          freeCount := s.freeCount + 8
          port := { s.port with lastRead := (List.range 8).map (fun i => Config.freeByte (s.freeCount + i)) } }) ∧
      (∀ off len c, exec (.hostRead 2 off len ⟨c, .plain⟩) s = .next s) ∧
      (∀ off bs b o, exec (.hostWrite off bs ⟨b, o⟩) s = .next s) ∧ (∀ off w v, exec (.registerWrite off w v) s = .next s)) ∧
    (∀ off len bs c b o, s.port.up = true → s.port.phase ≠ 15 → o ≠ .plain →
      exec (.hostRead 2 off len ⟨c, o⟩) s = .next { s with port := { s.port with lastRead := [] } } ∧
      exec (.hostWrite off bs ⟨b, o⟩) s = .next { s with port := { s.port with lastRead := [] } }) ∧
    (∀ off (bs : List Byte), s.port.up = true → s.port.phase ≠ 15 →
      let cells := (List.range bs.length).map (fun i => (s.redirect (off + i), bs.getD i 0))
      exec (.hostWrite off bs ⟨false, .plain⟩) s = .next (if s.presentAll off bs.length then
        { s with mem := (s.mem.storePkg s.clock noPort 4 0 true cells).wroteBy 0 (cells.map (fun x => (Space.pkg, x.1))) }
        else { s with port := { s.port with unsupported := s.port.unsupported + 1, lastRead := [] } })) ∧
    (∀ line j b, j < 128 →
      let p := s.extPort (line * 128)
      let m := (s.mem.extSnoop 0 p line).extSnoop 1 p line
      exec (.hostSnoop line [(j, b)] false) s =
        .next { s with mem := { m with ext := Memory.put m.ext (extAddr p (line * 128 + j)) b } }) ∧
    (let far : Space × Nat → Bool := fun y => match y.1 with
        | .ext _ p => p == 0
        | _ => false
      let s0 := State.setPort s { s.port with up := false, cxl := false }
      let s1 := s0.loseReads far cPOISON
      (s.engs = [] → s1 = { s0 with crews := s.crews.map (fun kv => (kv.1, s0.loseLoads far cPOISON kv.2)) }) ∧
      ∃ m, exec .hostLinkDown s = .next { s1 with mem := { s1.mem with lines := m } } ∧
        ∀ kv, kv ∈ m ↔ kv ∈ s1.mem.lines ∧ kv.1 / 2 ^ 45 ≠ hostHolder ∧
          ¬(kv.1 / 2 ^ 45 = ioHolder 0 ∧ s.extPort (kv.1 % 2 ^ 45 * 128) = 0)) ∧
    (∀ cxl, 3 ≤ s.port.phase → exec (.hostPortTrained cxl) s = .next { s with port := { s.port with up := true, cxl := cxl } }) ∧
    (∀ rank, s.fab.rvalid = true → rank ≠ s.fab.frank →
      (∀ pa len, s.presentAll pa len = true → exec (.peerAccessRequest rank (.read pa len)) s = .next (s.peerRead pa len)) ∧
      (∀ pa bs, s.presentAll pa bs.length = true → exec (.peerAccessRequest rank (.write pa bs)) s = .next (s.peerWrite pa bs)) ∧
      (∀ op mode pa d d2, op ≤ 9 → pa % 8 = 0 → s.presentAll pa 8 = true →
        exec (.peerAccessRequest rank (.atomic op 8 mode pa d d2)) s = .next (s.peerAtomic op 8 mode pa d d2)) ∧
      (∀ key team rows sig, exec (.peerAccessRequest rank (.halo key team rows sig)) s = .next (s.peerHalo key team rows sig)) ∧
      (∀ pa len, s.presentAll pa len = false → exec (.peerAccessRequest rank (.read pa len)) s = .next (s.answered none))) ∧
    (∀ line level j b, j < 128 → exec (.fabricTeardown ⟨line, level⟩ [(j, b)]) s = .next { s with mem :=
      { s.mem.dropPeer line level with peer := Memory.put s.mem.peer (line * 128 + j) b } }) ∧
    (∀ rank, rank ∉ s.fab.unreachable →
      let lost := s.mem.wcb.flatMap (fun kv => (kv.2.filter (fun w => w.line / 2 ^ 36 == rank)).flatMap (fun w =>
        w.bytes.map (fun b => w.line * 128 + b.1)))
      let wcb := s.mem.wcb.map (fun kv => (kv.1, kv.2.filter (fun w => w.line / 2 ^ 36 != rank)))
      let s1 := { s with
        mem := { s.mem with wcb := wcb }
        fab := { s.fab with unreachable := s.fab.unreachable ++ [rank] } }
      let q := s1.loseStores (fun sp a => sp == .peer && a / 2 ^ 43 == rank) cPOISON
      let t := q.1.loseReads (fun y => y.1 == .peer && y.2 / 2 ^ 36 == rank) cPOISON
      exec (.peerUnreachable rank) s =
        .next { t with fab := { t.fab with lostLog := t.fab.lostLog ++ lost ++ q.2.map Prod.fst } } ∧
      (s.crews = [] → s.engs = [] → t = s1 ∧ q.2 = [])) ∧
    (∀ core bank, core < 3072 → bank < 18 → bank ∉ (s.coreSt core).failed →
      exec (.bankFailureMark core bank) s = .next { s with
        cores := Tab.put s.cores core { s.coreSt core with failed := (s.coreSt core).failed ++ [bank] } } ∧
      (∀ ln, (s.coreSt core).failed = [] →
        let c := { s.coreSt core with errs := (bank, s.clock) :: (s.coreSt core).errs }
        let c' := if 16 ≤ c.recent bank s.clock then { c with failed := [bank] } else c
        exec (.softError core bank (.line ln)) s = .next { s with cores := Tab.put s.cores core c' }) ∧
      (∀ ln b r, (s.coreSt core).failed = b :: r → exec (.softError core bank (.line ln)) s = .next (s.storeError core (.line ln)))) ∧
    ((∀ kv ∈ s.teams, kv.2.st ≠ .placed) → exec .treeCacheCut s = .next { s with mil := { s.mil with treeCut := true } }) ∧
    ((∃ kv ∈ s.teams, kv.2.st = .placed) → exec .treeCacheCut s = .next s)

/-- Events of power, the fabric's ports, reset, bring-up and Milden complete: allowances, floors, ratios, energy and pace
(R25, R343 to R352); fences, set-asides and capability words (R395, R399, R401); reset, the phases of Table 23-7 and training
timeouts (R400); images, updates and versions (R402 to R404); the SPDM answers (R405). The model's readings that it rests on:
logs 10, 38, 43, 45, 48, 49, 79, 87. -/
def Obligations.PlatformEventsComplete : Prop :=
  ∀ (s : State),
    (∀ g (v : DWord), g < 32 →
      exec (.powerAllowanceWrite g true v) s = .next { s with power := { s.power with pwr := Tab.put s.power.pwr g (v &&& 0xFFFFFF) } } ∧
      exec (.powerAllowanceWrite g false v) s = .next { s with power := { s.power with
        pwa := Tab.put s.power.pwa g (v &&& 0xFFFFFFFF0000FFFF), lastWrite := Tab.put s.power.lastWrite g s.clock
        floor := Tab.del s.power.floor g } } ∧
      (Tab.get s.power.lastWrite g 0 + 1024 ≤ s.clock → Tab.find s.power.floor g = none →
        exec (.powerFloor g) s = .next { s with power := { s.power with floor := Tab.put s.power.floor g (s.refillOf g) } }) ∧
      (∀ i, i < 6 → s.clock % 8 = 0 → exec (.sliceRatioChange g i) s = .next { s with power := { s.power with
        ratio := Tab.put s.power.ratio (g * 8 + i) (min (s.ceilOf (g * 8 + i)) (Tab.get s.power.req (g * 8 + i) 8)) } }) ∧
      (g ∈ s.power.asked → ∀ reqs, exec (.allowanceRefill g reqs) s = .next s) ∧
      (g ∉ s.power.asked → s.xopAsks g = [] → s.overdueCores g = [] → (∀ r ∈ s.power.withheld, reqCluster r ≠ g) →
       let a := min (pwaCap (s.pwaOf g)) (Tab.get s.power.allow g 0 + s.refillOf g * s.paceOf g none / 1024)
       exec (.allowanceRefill g []) s = .next { s with power := { s.power with
        allow := Tab.put s.power.allow g a, asked := g :: s.power.asked } } ∧
       (∀ c l q, (s.coreSt c).stalled = l.map (fun x => 2 * x.1 + x.2) → s.askOf g (.core c l) = some q →
        let pays := q.weight + (7 - q.pri) * pwaThr (s.pwaOf g) ≤ a
        exec (.allowanceRefill g [.core c l]) s = .next { s with power := { s.power with
          allow := Tab.put s.power.allow g (if pays then a - q.weight else a), asked := g :: s.power.asked
          granted := s.power.granted ++ (if pays then [q.ask] else [])
          withheld := s.power.withheld ++ (if pays then [] else [.core c l]) } })) ∧
      (∀ nj rk n r, Tab.get s.power.cycles g [] = [(rk, n)] → 0 < n → s.region rk = some r → (r.state < 2 ∨ r.parent = none) →
        Tab.get s.power.intervals g 0 < s.clock / 140000 →
        ∃ s1, exec (.energyInterval g nj) s = .next s1 ∧
          s1.regions = (s.updRegion rk (fun r => { r with energy := r.energy + nj })).regions ∧
          s1.power = { s.power with
            cycles := Tab.put s.power.cycles g [], intervals := Tab.put s.power.intervals g (s.clock / 140000)
            idle := Tab.put s.power.idle g (Tab.get s.power.idle g 0) })) ∧
    (∀ n g, Tab.find s.power.groups n = some g →
      (∀ r v, g.members = [(r, v)] → ∀ x,
        let g1 := { g with members := [(r, min 1024 x)] }
        let g2 := if s.clock < g.report + 70000 then g1 else { g1 with sent := s.throttle n, report := g.report + 70000 }
        exec (.slackReport n [(r, x)]) s = .next { s with power := { s.power with groups := Tab.put s.power.groups n g2 } }) ∧
      (g.period + 70000 ≤ s.clock →
        let q := nextPace g.q (g.members.foldl (fun t m => min t m.2) 1024) (g.changed == 0 || decide (g.changed + 280000 ≤ s.clock))
        let g' := { g with q := q, period := g.period + 70000, changed := if q = g.q then g.changed else s.clock }
        exec (.paceUpdate n) s = .next { s with power := { s.power with groups := Tab.put s.power.groups n g' } }) ∧
      (∀ t, g.ends = some t → t ≤ s.clock →
        exec (.groupEnd n) s = .next { s with power := { s.power with groups := Tab.del s.power.groups n } })) ∧
    (∀ p, p < 72 → p ∉ s.fab.fenced → exec (.portFence p) s = .next { s with fab := { s.fab with
      ports := s.fab.ports.filter (· != p), fenced := s.fab.fenced ++ [p] } }) ∧
    (∀ rank us p, p ∈ s.fab.ports → (Tab.get s.fab.words p 0).getLsbD 35 = true → 1 ≤ us → us ≤ 255 →
      exec (.setAsideNotice rank us) s = .next { s with fab := { s.fab with
        setAside := Tab.put s.fab.setAside rank (s.clock + us * 1400) } }) ∧
    (∀ rank, exec (.setAsideRelease rank) s = .next { s with fab := { s.fab with setAside := Tab.del s.fab.setAside rank } }) ∧
    (∀ rank t, Tab.find s.fab.setAside rank = some t → t ≤ s.clock →
      exec (.setAsideExpiry rank) s = .next { s with fab := { s.fab with setAside := Tab.del s.fab.setAside rank } }) ∧
    (∀ p (v : DWord), p < 72 → s.port.phase = 5 → s.fab.words = [] → s.fab.fenced = [] →
      exec (.capabilityWord p v) s = .next { s with fab := { s.fab with
        words := [(p, v)], ports := if capPass p v then [p] else [], fenced := if capPass p v then [] else [p]
        frank := if capPass p v then capRank v else s.fab.frank, rvalid := capPass p v } }) ∧
    (∀ p (v : DWord), p ∈ s.fab.fenced → exec (.capabilityWord p v) s = .next s) ∧
    exec .deviceReset s = .next ((s.beforeReset.afterReset.loadImages [0]).getD s.beforeReset.afterReset.recover) ∧
    (s.port.phase = 0 → exec .phaseAdvance s = .next ((s.loadImages [0]).elim s.recover (fun t => t.toPhase 1))) ∧
    (s.port.phase = 1 → exec .phaseAdvance s = .next ((s.loadImages [1, 2]).elim s.recover (fun t => t.toPhase 2))) ∧
    (s.port.phase = 2 → s.port.failed = [] → exec .phaseAdvance s = .next { s with port := { s.port with
      hbmok := 0xFFFF, ddrok := if Config.cmForm then 0xFFFF else 0, phase := 3, phaseAt := s.clock } }) ∧
    (s.port.phase = 3 → s.port.up = true → exec .phaseAdvance s = .next (s.toPhase 4)) ∧
    (s.port.phase = 5 → ∃ t, exec .phaseAdvance s = .next t ∧ t.port = { s.port with phase := 6, phaseAt := s.clock, ready := true }) ∧
    (s.port.phase = 3 → s.port.up = false → s.port.phaseAt + 140000000 ≤ s.clock → 32 ∉ s.port.failed →
      exec (.linkTrainingTimeout 32) s = .next { s with port := { s.port with failed := s.port.failed ++ [32] } }) ∧
    (∀ which image sig, s.port.up = true → which < 3 →
      let good := { s.mil with flash := Tab.put s.mil.flash which (image, sig), mailFail := false }
      exec (.firmwareUpdate which image sig) s =
        .next { s with mil := if s.mil.imageOk image sig then good else { s.mil with mailFail := true } }) ∧
    (∀ version sig, let key := Config.imageKey (Tab.get s.mil.running 0 [])
      exec (.securityVersionRaise version sig) s = .next (if s.mil.minVersion < version ∧ shake256 64 key = s.mil.keyDigest ∧
        ed448Verify key (Config.raiseMessage version) sig = true
        then { s with mil := { s.mil with minVersion := version } } else s)) ∧
    (let s1 := { s with mil := { s.mil with transcript := [], answers := [], mailFail := false } }
     exec .mildenReset s = .next ((s1.loadImages [0]).getD s1.recover)) ∧
    (s.port.up = true → s.port.phase ≠ 15 →
      let got : Milden → Nat → List Byte → SpdmAnswer → Host.Outcome State Fault Refusal := fun m code ops a => .next { s with
        mil := { m with transcript := m.transcript ++ Config.spdmBytes code ops, answers := a :: m.answers } }
      exec .getVersion s = got { s.mil with transcript := [] } 0x84 [] (.version [0x12, 0x13]) ∧
      exec .getCapabilities s = got s.mil 0xE1 [] (.capabilities true true true) ∧
      exec (.negotiateAlgorithms true true) s = got s.mil 0xE3 [3] (.algorithms true true) ∧
      exec .getDigests s = got s.mil 0x81 [] (.digests [sha3_384 s.mil.chain]) ∧
      (∀ off len, off < s.mil.chain.length → exec (.getCertificate 0 off len) s = got s.mil 0x82 (leOf 4 0 ++ leOf 4 off ++ leOf 4 len)
        (.certificate ((s.mil.chain.drop off).take len) (s.mil.chain.length - (off + ((s.mil.chain.drop off).take len).length)))) ∧
      (∀ nonce, exec (.challenge nonce) s = .next (State.spdm { s with freeCount := s.freeCount + 1 } 0x83 nonce (fun t =>
        .challengeAuth (sha3_384 s.mil.chain) (Config.freeNonce s.freeCount) (ed448Sign s.mil.alias_ (sha3_384
          (t ++ Config.spdmBytes 0x03 (sha3_384 s.mil.chain ++ Config.freeNonce s.freeCount))))))) ∧
      (∀ nonce, exec (.getMeasurements 0 nonce) s = .next (State.spdm { s with freeCount := s.freeCount + 1 } 0xE0 (leOf 2 0 ++ nonce)
        (fun t => .measurements 6 [] (Config.freeNonce s.freeCount) (ed448Sign s.mil.alias_ (sha3_384
          (t ++ Config.spdmBytes 0x60 (Config.freeNonce s.freeCount))))))) ∧
      (∀ code, exec (.unsupportedRequest code) s = got s.mil code [] (.unsupportedRequest code)))

-- Encoding, steps, reset, memories.

/-- Words written out from Tables 7-6, 7-7, 9-1, 9-4, 9-6, 11-1, 15-2, 15-5, 15-8, 17-4 and 17-5, field by field, decode to
what they stand for; a reserved major and a reserved field are refused. -/
def Obligations.DecodeWrittenWords : Prop :=
  decodeWord (0x01#7 ++ 1#5 ++ 0#20) = .ok .heatJ ∧
  decodeWord (0x03#7 ++ 5#3 ++ 1#1 ++ 0x1FFFFE#21) = .ok (.br 5 true (-2)) ∧
  decodeWord (0x06#7 ++ 8#5 ++ 0xFFFF0#20) = .ok (.call 8 (-16)) ∧
  decodeWord (0x10#7 ++ 4#5 ++ 5#5 ++ 6#5 ++ 1#3 ++ 2#2 ++ 0#1 ++ 2#4) = .ok (.isub ⟨4, 5, 6, 1, 2, false⟩) ∧
  decodeWord (0x15#7 ++ 3#5 ++ 5#5 ++ 7#5 ++ 0#3 ++ 0#2 ++ 1#1 ++ 3#4) = .ok (.icmp .le ⟨3, 5, 7, 0, 0, true⟩) ∧
  decodeWord (0x1A#7 ++ 9#5 ++ 8#5 ++ 7#5 ++ 2#3 ++ 1#2 ++ 0#1 ++ 0#4) = .ok (.ffma ⟨9, 8, 7, 2, 1, false⟩) ∧
  decodeWord (0x1C#7 ++ 1#5 ++ 2#5 ++ 0#5 ++ 0#3 ++ 7#4 ++ 1#3) = .ok (.frsq ⟨1, 2, 0, 7⟩) ∧
  decodeWord (0x23#7 ++ 3#5 ++ 4#5 ++ 5#5 ++ 0#3 ++ 0#4 ++ 3#3) = .ok (.shfl .xor ⟨3, 4, 5, 0, 0⟩) ∧
  decodeWord (0x28#7 ++ 10#5 ++ 11#5 ++ 12#5 ++ 0#3 ++ 0#2 ++ 9#5) = .ok (.ssar ⟨10, 11, 12⟩) ∧
  decodeWord (0x2C#7 ++ 6#5 ++ 2#2 ++ 0#10 ++ 0x12#8) = .ok (.srd 6 2 0x12) ∧
  decodeWord (0x30#7 ++ 4#5 ++ 6#5 ++ 8#5 ++ 1#3 ++ 3#4 ++ 1#1 ++ 2#2) = .ok (.ld ⟨4, 6, 8, 1, 3, true, .b8⟩) ∧
  decodeWord (0x31#7 ++ 4#5 ++ 6#5 ++ 8#5 ++ 0#3 ++ 0#4 ++ 0#1 ++ 0#2) = .ok (.st ⟨4, 6, 8, 0, false, .w⟩) ∧
  decodeWord (0x40#7 ++ 1#5 ++ 2#5 ++ 4#5 ++ 0#3 ++ 2#4 ++ 0#1 ++ 1#1 ++ 1#1) = .ok (.acas ⟨1, 2, 4, 2, false, true, true⟩) ∧
  decodeWord (0x45#7 ++ 0#5 ++ 3#5 ++ 4#5 ++ 0#3 ++ 0#4 ++ 2#3) = .ok (.bar 3 4) ∧
  decodeWord (0x50#7 ++ 1#4 ++ 2#4 ++ 3#4 ++ 4#3 ++ 0x81#8 ++ 1#1 ++ 0#1) = .ok (.mma 1 2 3 4 0x81 true false) ∧
  decodeWord (0x60#7 ++ 1#5 ++ 2#5 ++ 3#5 ++ 0#4 ++ 1#1 ++ 9#5) = .ok (.cpy ⟨1, 2, 3, true, 9⟩) ∧
  decodeWord (0x70#7 ++ 7#5 ++ 0x21#10 ++ 0#10) = .ok (.csrr 7 0x21) ∧
  decodeWord (0x00#7 ++ 0#25) = .error .major ∧
  decodeWord (0x02#7 ++ 1#25) = .error .reserved

/-- Every instruction that has a word decodes from it, at every value of every operand, but for a tile-scale form code of
MSCALE that Table 17-4 does not list; and a word that decodes is the word of what it decodes to, so that no two words mean the
same and no bit is ignored.
The model's readings that it rests on: log 56. -/
def Obligations.DecodeAndEncodeAgree : Prop :=
  (∀ (i : Instr) (w : Word), encode i = some w → (∀ a t s m, i ≠ .mscale a t s m 3) → decodeWord w = .ok i) ∧
  (∀ (w : Word) (i : Instr), decodeWord w = .ok i → encode i = some w)

/-- A step takes the head of the list of turns (log 1), and the caches keep within their capacity (`State.tidy`). A slot
issues in the turn that is its core's choice, and an engine in its own; with its grant (R345) it fetches the four bytes at
its PC as code, little-endian, and executes what they decode to; a word that decodes to nothing is an undecoded word, and a
fetch that fails is the agent's fault. Without a grant, or where the agent is not eligible, the turn passes. An event has its
meaning; caches and TLBs drop what a turn names; a core performs deferred atomics; a tick, or no turn at all, passes a
cluster clock. The model's readings that it rests on: logs 1, 7, 18, 79. -/
def Obligations.StepRunsDecodedWord : Prop :=
  ∀ (s : State) (rest : List Turn),
    let s0 : State := { s with turns := rest }
    (∀ k, s0.chosen (.eng k) = some (s0, .eng k)) ∧
    (∀ id n, (∀ s' a, s0.chosen (.crew id n) = some (s', a) →
        a = .crew id n ∧ ∃ c, s0.crew id = some c ∧ s0.pick (s0.coreOf c) = some (s', a)) ∧
      (∀ c s', s0.crew id = some c → s0.pick (s0.coreOf c) = some (s', .crew id n) →
        s0.chosen (.crew id n) = some (s', .crew id n))) ∧
    (∀ a, s.turns = .issue a :: rest →
      (s0.chosen a = none → step s = .next s0.tidy) ∧
      (∀ s', s0.chosen a = some (s', a) →
        (s0.mayIssue a = false → step s = .next s0.tidy) ∧
        (s0.mayIssue a = true → (s'.useGrant a).eligible a = false → step s = .next (s'.useGrant a).tidy) ∧
        (s0.mayIssue a = true → (s'.useGrant a).eligible a = true →
          let s1 : State := { s'.useGrant a with cur := a }
          (∀ s2 f, s1.fetchWord (s1.whoOf a) (s1.pcOf a) = (s2, .error f) → step s = .next (s2.fetchFault a f).tidy) ∧
          (∀ s2 h, s1.translateNow (s1.whoOf a) (s1.pcOf a).toNat aFetch = (s2, .ok h) → h.sp = .pkg →
            s2.mem.homePoisoned (homeRouter h.pa) (lineOf h.pa) = false →
            let w := wordOfBytes (s2.mem.homeByte h.pa) (s2.mem.homeByte (h.pa + 1)) (s2.mem.homeByte (h.pa + 2))
              (s2.mem.homeByte (h.pa + 3))
            (∀ i, decodeWord w = .ok i → step s = tidied (exec i s2)) ∧
            (∀ r, decodeWord w = .error r → step s = .next (s2.undecoded a).tidy))))) ∧
    (∀ c s' id n cr, s.turns = .core c :: rest → s0.pick c = some (s', .crew id n) → s0.crew id = some cr → s0.coreOf cr = c →
      step s = step { s with turns := .issue (.crew id n) :: rest }) ∧
    (∀ c, s.turns = .core c :: rest → s0.pick c = none → step s = .next s0.tidy) ∧
    (∀ e, s.turns = .event e :: rest → e.isEvent = true → step s = tidied (exec e s0)) ∧
    (∀ c, s.turns = .combine c :: rest → step s = .next (s0.performLater c).tidy) ∧
    (∀ h ln, s.turns = .evict h ln :: rest → step s = .next (s0.evictLine h ln).tidy) ∧
    (∀ r g l, s.turns = .evictTree r g l :: rest → step s = .next (s0.evictTree r g l).tidy) ∧
    (∀ h n, s.turns = .evictTlb h n :: rest → step s = .next (s0.evictTlb h n).tidy) ∧
    (s.turns = .tick :: rest → step s = .next s0.tick.tidy) ∧ (s.turns = [] → step s = .next s.tick.tidy)

/-- The machine right after reset is in phase 0 and not ready, with no work, no fault, no command, no extent and no lost
launch; the registers that the spec gives a reset value read it: the launch queue has 256 free entries, WCBAGE is 2,000,
MILLTO is 2^24 and ENGTO is 0, a refill is 4,096 wu, and a slice asks for ratio 8 (R314, R346, R352, R380, R400). A crew starts
with the PC, lanes, registers and stack that R34 gives. Every memory of the machine is in its canonical form. That every memory
reads zero and no turn is listed is the model's choice (logs 1 and 3). -/
def Obligations.ResetState : Prop :=
  State.reset.port.phase = 0 ∧ State.reset.port.ready = false ∧ State.reset.port.up = false ∧ State.reset.port.busy = false ∧
  State.reset.crews = [] ∧ State.reset.engs = [] ∧ State.reset.teams = [] ∧ State.reset.regions = [] ∧
  State.reset.barRegister 0x40 = 256 ∧ State.reset.barRegister 0x48 = 0 ∧ State.reset.barRegister 0x100 = 0 ∧
  State.reset.barRegister 0x128 = 0 ∧ State.reset.barRegister 0x200 = 0 ∧ State.reset.barRegister 0x800 = 0 ∧
  State.reset.mil.wcbage = 2000 ∧ State.reset.mil.millto = 2 ^ 24 ∧ State.reset.mil.engto = 0 ∧
  (∀ g, State.reset.refillOf g = 4096) ∧ (∀ k, Tab.get State.reset.power.req k 8 = 8) ∧
  State.reset.canonical ∧ (∀ a, State.reset.mem.homeByte a = 0) ∧ step State.reset = .next State.reset.tick.tidy ∧
  (∀ rk team no lanes cap (pc args : DWord), lanes ≤ 32 →
    let c := Crew.fresh_ rk team no lanes cap pc args
    c.s0 = ⟨pc, maskOf (fun l => decide (l < lanes)), 0, [], false⟩ ∧ c.s1.free = true ∧ c.stack = [] ∧ c.heat = none ∧
    c.com.rdS 0 = args ∧ c.com.mode = 0 ∧ c.com.asw = 0 ∧
    (∀ n, c.com.rdV n = zeroLanes ∧ c.com.rdTag n = fmtBITS ∧ (0 < n → c.com.rdS n = 0 ∧ c.com.rdP n = 0)) ∧
    c.com.rdP 0 = BitVec.allOnes 32 ∧ ∀ l, l < 32 → lane c.com.lfsr l = crewSeed team no l)

/-- Every step keeps every memory of the machine in its canonical form: package memory, the storage of peers and of the host,
scratch, the saved allotments of teams, and the pool's devices. -/
def Obligations.MemoriesStayCanonical : Prop :=
  ∀ (s t : State), s.canonical → step s = .next t → t.canonical
end

