-- ==== Sys2Proof/Laws/Tab.lean ====
section
/-! SUPPORT. Tables: what a lookup gives after a write, and the order of keys that every write keeps. -/

namespace Sys2Proof.Machine

variable {α : Type}

@[simp] theorem Tab.find_put_same (t : Tab α) (k : Nat) (v : α) : Tab.find (Tab.put t k v) k = some v := by
  induction t with
  | nil => simp [Tab.put, Tab.find]
  | cons x r ih =>
    obtain ⟨k', v'⟩ := x
    simp only [Tab.put]
    split
    · simp [Tab.find]
    · split
      · simp [Tab.find]
      · simp [Tab.find, *]

theorem Tab.find_put_other (t : Tab α) {k j : Nat} (v : α) (h : j ≠ k) : Tab.find (Tab.put t k v) j = Tab.find t j := by
  induction t with
  | nil => simp [Tab.put, Tab.find, Ne.symm h]
  | cons x r ih =>
    obtain ⟨k', v'⟩ := x
    simp only [Tab.put]
    split
    · simp [Tab.find, Ne.symm h]
    · split
      · subst_vars; simp [Tab.find, Ne.symm h]
      · simp only [Tab.find, ih]

theorem Tab.find_put (t : Tab α) (k j : Nat) (v : α) :
    Tab.find (Tab.put t k v) j = if j = k then some v else Tab.find t j := by
  split
  · subst_vars; simp
  · exact Tab.find_put_other t v ‹_›

@[simp] theorem Tab.put_put (t : Tab α) (k : Nat) (v w : α) : Tab.put (Tab.put t k v) k w = Tab.put t k w := by
  induction t with
  | nil => simp [Tab.put]
  | cons x r ih =>
    obtain ⟨k', v'⟩ := x
    simp only [Tab.put]
    split
    · simp [Tab.put]
    · split
      · simp [Tab.put]
      · simp [Tab.put, *]

@[simp] theorem Tab.get_put_same (t : Tab α) (k : Nat) (v d : α) : Tab.get (Tab.put t k v) k d = v := by
  simp [Tab.get]

theorem Tab.get_put_other (t : Tab α) {k j : Nat} (v d : α) (h : j ≠ k) : Tab.get (Tab.put t k v) j d = Tab.get t j d := by
  simp [Tab.get, Tab.find_put_other t v h]

theorem Tab.above_mono {lo hi : Nat} (t : Tab α) (h : Tab.above hi t = true) (hl : lo ≤ hi) : Tab.above lo t = true := by
  cases t with
  | nil => rfl
  | cons x r =>
    obtain ⟨k, v⟩ := x
    simp only [Tab.above, Bool.and_eq_true, decide_eq_true_eq] at h ⊢
    exact ⟨by omega, h.2⟩

theorem Tab.above_put {lo k : Nat} (t : Tab α) (v : α) (h : Tab.above lo t = true) (hk : lo ≤ k) :
    Tab.above lo (Tab.put t k v) = true := by
  induction t generalizing lo with
  | nil => simp [Tab.put, Tab.above, hk]
  | cons x r ih =>
    obtain ⟨k', v'⟩ := x
    simp only [Tab.above, Bool.and_eq_true, decide_eq_true_eq] at h
    simp only [Tab.put]
    split
    · simp only [Tab.above, Bool.and_eq_true, decide_eq_true_eq]
      exact ⟨hk, by omega, h.2⟩
    · split
      · subst_vars; simp only [Tab.above, Bool.and_eq_true, decide_eq_true_eq]; exact h
      · simp only [Tab.above, Bool.and_eq_true, decide_eq_true_eq]
        exact ⟨h.1, ih h.2 (by omega)⟩

theorem Tab.above_filter {lo : Nat} (t : Tab α) (p : Nat × α → Bool) (h : Tab.above lo t = true) :
    Tab.above lo (t.filter p) = true := by
  induction t generalizing lo with
  | nil => rfl
  | cons x r ih =>
    obtain ⟨k, v⟩ := x
    simp only [Tab.above, Bool.and_eq_true, decide_eq_true_eq] at h
    simp only [List.filter]
    split
    · simp only [Tab.above, Bool.and_eq_true, decide_eq_true_eq]; exact ⟨h.1, ih h.2⟩
    · exact Tab.above_mono _ (ih h.2) (by omega)

theorem Tab.above_del {lo : Nat} (t : Tab α) (k : Nat) (h : Tab.above lo t = true) : Tab.above lo (Tab.del t k) = true := by
  induction t generalizing lo with
  | nil => rfl
  | cons x r ih =>
    obtain ⟨k', v'⟩ := x
    simp only [Tab.above, Bool.and_eq_true, decide_eq_true_eq] at h
    simp only [Tab.del]
    split
    · exact Tab.above_mono _ h.2 (by omega)
    · simp only [Tab.above, Bool.and_eq_true, decide_eq_true_eq]; exact ⟨h.1, ih h.2⟩

/-- Below the first key there is nothing. -/
theorem Tab.find_below {lo k : Nat} (t : Tab α) (h : Tab.above lo t = true) (hk : k < lo) : Tab.find t k = none := by
  induction t generalizing lo with
  | nil => rfl
  | cons x r ih =>
    obtain ⟨k', v'⟩ := x
    simp only [Tab.above, Bool.and_eq_true, decide_eq_true_eq] at h
    simp only [Tab.find]
    rw [if_neg (by omega)]
    exact ih h.2 (by omega)

theorem Tab.find_del {lo k j : Nat} (t : Tab α) (h : Tab.above lo t = true) :
    Tab.find (Tab.del t k) j = if j = k then none else Tab.find t j := by
  induction t generalizing lo with
  | nil => simp [Tab.del, Tab.find]
  | cons x r ih =>
    obtain ⟨k', v'⟩ := x
    simp only [Tab.above, Bool.and_eq_true, decide_eq_true_eq] at h
    simp only [Tab.del]
    split
    · subst_vars
      split
      · subst_vars; exact Tab.find_below r h.2 (by omega)
      · simp [Tab.find, Ne.symm ‹_›]
    · simp only [Tab.find, ih h.2]
      split
      · subst_vars; simp [*]
      · rfl

end Sys2Proof.Machine
end

