-- ==== Sys2Proof/Laws/Memory.lean ====
section
/-! SUPPORT. Byte memories: reads after writes, and the canonical form that every write keeps (log 3). -/

namespace Sys2Proof.Machine

theorem Memory.wf_iff (m : Memory) : Memory.wf m = true ↔ Tab.above 0 m = true ∧ ∀ c ∈ m, c.2 ≠ 0 := by
  simp [Memory.wf, List.all_eq_true]

theorem Tab.mem_put {α : Type} {t : Tab α} {k : Nat} {v : α} {c : Nat × α} (h : c ∈ Tab.put t k v) : c = (k, v) ∨ c ∈ t := by
  induction t with
  | nil => simpa [Tab.put] using h
  | cons x r ih =>
    obtain ⟨k', v'⟩ := x
    simp only [Tab.put] at h
    split at h
    · simpa using h
    · split at h
      · simp only [List.mem_cons] at h ⊢; exact h.imp id Or.inr
      · simp only [List.mem_cons] at h ⊢
        rcases h with h | h
        · exact .inr (.inl h)
        · exact (ih h).imp id Or.inr

theorem Tab.mem_del {α : Type} {t : Tab α} {k : Nat} {c : Nat × α} (h : c ∈ Tab.del t k) : c ∈ t := by
  induction t with
  | nil => simp [Tab.del] at h
  | cons x r ih =>
    obtain ⟨k', v'⟩ := x
    simp only [Tab.del] at h
    split at h
    · simp [h]
    · simp only [List.mem_cons] at h ⊢
      exact h.imp id ih

theorem Memory.wf_put (m : Memory) (a : Nat) (b : Byte) (h : Memory.wf m = true) : Memory.wf (Memory.put m a b) = true := by
  rw [Memory.wf_iff] at h ⊢
  unfold Memory.put
  split
  · exact ⟨Tab.above_del m a h.1, fun c hc => h.2 c (Tab.mem_del hc)⟩
  · refine ⟨Tab.above_put m b h.1 (by omega), fun c hc => ?_⟩
    rcases Tab.mem_put hc with rfl | hc
    · assumption
    · exact h.2 c hc

theorem Memory.wf_putBytes (m : Memory) (a : Nat) (bs : List Byte) (h : Memory.wf m = true) :
    Memory.wf (Memory.putBytes m a bs) = true := by
  induction bs generalizing m a with
  | nil => exact h
  | cons b r ih => exact ih _ _ (Memory.wf_put m a b h)

theorem Memory.wf_filter (m : Memory) (p : Host.Cell → Bool) (h : Memory.wf m = true) : Memory.wf (m.filter p) = true := by
  rw [Memory.wf_iff] at h ⊢
  exact ⟨Tab.above_filter m p h.1, fun c hc => h.2 c ((List.mem_filter.1 hc).1)⟩

theorem Memory.wf_nil : Memory.wf [] = true := rfl

/-- Writes by a fold keep the form. -/
theorem Memory.wf_foldl {β : Type} (f : Memory → β → Memory) (hf : ∀ m b, Memory.wf m = true → Memory.wf (f m b) = true)
    (xs : List β) (m : Memory) (h : Memory.wf m = true) : Memory.wf (xs.foldl f m) = true := by
  induction xs generalizing m with
  | nil => exact h
  | cons x r ih => exact ih _ (hf m x h)

/-- A read gives the byte last written; other addresses keep theirs. -/
theorem Memory.get_put (m : Memory) (a x : Nat) (b : Byte) (h : Memory.wf m = true) :
    Memory.get (Memory.put m a b) x = if x = a then b else Memory.get m x := by
  rw [Memory.wf_iff] at h
  unfold Memory.put Memory.get Tab.get
  split
  · rw [Tab.find_del m h.1]; split <;> simp [*]
  · rw [Tab.find_put]; split <;> simp

theorem Memory.get_putBytes_other (m : Memory) (a x : Nat) (bs : List Byte) (h : Memory.wf m = true)
    (hx : x < a ∨ a + bs.length ≤ x) : Memory.get (Memory.putBytes m a bs) x = Memory.get m x := by
  induction bs generalizing m a with
  | nil => rfl
  | cons b r ih =>
    simp only [List.length_cons] at hx
    rw [Memory.putBytes, ih _ _ (Memory.wf_put m a b h) (by omega), Memory.get_put m a x b h, if_neg (by omega)]

theorem Memory.get_putBytes (m : Memory) (a i : Nat) (bs : List Byte) (h : Memory.wf m = true) (hi : i < bs.length) :
    Memory.get (Memory.putBytes m a bs) (a + i) = bs.getD i 0 := by
  induction bs generalizing m a i with
  | nil => simp at hi
  | cons b r ih =>
    have hw := Memory.wf_put m a b h
    rw [Memory.putBytes]
    cases i with
    | zero =>
      rw [Memory.get_putBytes_other _ _ _ _ hw (by omega), Memory.get_put m a _ b h]
      simp
    | succ i =>
      have := ih (Memory.put m a b) (a + 1) i hw (by simpa using hi)
      rw [show a + (i + 1) = a + 1 + i by omega, this]
      simp

/-- Equal bytes everywhere make equal memories. -/
theorem Memory.ext_get (m n : Memory) (hm : Memory.wf m = true) (hn : Memory.wf n = true)
    (h : ∀ a, Memory.get m a = Memory.get n a) : m = n := by
  rw [Memory.wf_iff] at hm hn
  suffices ∀ (lo : Nat) (m n : Memory), Tab.above lo m = true → Tab.above lo n = true → (∀ c ∈ m, c.2 ≠ 0) → (∀ c ∈ n, c.2 ≠ 0) →
      (∀ a, Memory.get m a = Memory.get n a) → m = n from this 0 m n hm.1 hn.1 hm.2 hn.2 h
  intro lo m n
  induction m generalizing lo n with
  | nil =>
    intro _ _ _ hz h
    cases n with
    | nil => rfl
    | cons y s =>
      have := h y.1
      simp [Memory.get, Tab.get, Tab.find] at this
      exact absurd this.symm (hz y (by simp))
  | cons x r ih =>
    intro ha hb hz hw h
    obtain ⟨k, v⟩ := x
    simp only [Tab.above, Bool.and_eq_true, decide_eq_true_eq] at ha
    cases n with
    | nil =>
      have := h k
      simp [Memory.get, Tab.get, Tab.find] at this
      exact absurd this (hz (k, v) (by simp))
    | cons y s =>
      obtain ⟨k', v'⟩ := y
      simp only [Tab.above, Bool.and_eq_true, decide_eq_true_eq] at hb
      have hk : k = k' := by
        rcases Nat.lt_trichotomy k k' with hlt | heq | hgt
        · have h1 := h k
          simp only [Memory.get, Tab.get, Tab.find, if_neg (show ¬ k' = k by omega), ↓reduceIte, Option.getD_some] at h1
          rw [Tab.find_below s hb.2 (by omega)] at h1
          exact absurd h1 (hz (k, v) (by simp))
        · exact heq
        · have h1 := h k'
          simp only [Memory.get, Tab.get, Tab.find, if_neg (show ¬ k = k' by omega), ↓reduceIte, Option.getD_some] at h1
          rw [Tab.find_below r ha.2 (by omega)] at h1
          exact absurd h1.symm (hw (k', v') (by simp))
      subst hk
      have hv : v = v' := by
        have h1 := h k
        simpa [Memory.get, Tab.get, Tab.find] using h1
      subst hv
      refine congrArg _ (ih (k + 1) s ha.2 hb.2 (fun c hc => hz c (by simp [hc])) (fun c hc => hw c (by simp [hc])) (fun a => ?_))
      by_cases hak : a = k
      · subst hak
        simp [Memory.get, Tab.get, Tab.find_below r ha.2 (Nat.lt_succ_self _), Tab.find_below s hb.2 (Nat.lt_succ_self _)]
      · have h1 := h a
        simpa [Memory.get, Tab.get, Tab.find, Ne.symm hak] using h1

end Sys2Proof.Machine
end

