-- ==== Sys2Proof/Laws/Canonical.lean ====
section
/-! SUPPORT. Every operation of the memory system keeps its four memories in canonical form (log 3). Caches and trees write no
byte of them: stores of package memory, teardowns, releases below SYSTEM and atomics leave the four as they are; what writes
them is the replacement of an L2 line, a drain, a snoop, a store of scratch or EXTERNAL bytes. -/

namespace Sys2Proof.Machine

/-- The four memories are in canonical form. -/
def MemSys.canonical (m : MemSys) : Prop :=
  Memory.wf m.pkg = true ∧ Memory.wf m.ext = true ∧ Memory.wf m.peer = true ∧ Memory.wf m.scr = true

/-- Only caches, trees and marks differ: the memories themselves are the same. -/
def MemSys.sameBytes (m n : MemSys) : Prop := n.pkg = m.pkg ∧ n.ext = m.ext ∧ n.peer = m.peer ∧ n.scr = m.scr

theorem MemSys.sameBytes.refl (m : MemSys) : m.sameBytes m := ⟨rfl, rfl, rfl, rfl⟩

theorem MemSys.sameBytes.trans {a b c : MemSys} (h : a.sameBytes b) (g : b.sameBytes c) : a.sameBytes c :=
  ⟨g.1.trans h.1, g.2.1.trans h.2.1, g.2.2.1.trans h.2.2.1, g.2.2.2.trans h.2.2.2⟩

theorem MemSys.canonical_of_same {m n : MemSys} (h : m.sameBytes n) (hm : m.canonical) : n.canonical := by
  unfold MemSys.canonical; rw [h.1, h.2.1, h.2.2.1, h.2.2.2]; exact hm

/-- A fold of steps that keep the form keeps it. -/
theorem MemSys.canonical_foldl {β : Type} {f : MemSys → β → MemSys} (hf : ∀ (m : MemSys) (b : β), m.canonical → (f m b).canonical)
    (xs : List β) {m : MemSys} (h : m.canonical) : (xs.foldl f m).canonical := by
  induction xs generalizing m with
  | nil => exact h
  | cons x r ih => exact ih (hf m x h)

theorem MemSys.same_foldl {β : Type} {f : MemSys → β → MemSys} (hf : ∀ (m : MemSys) (b : β), m.sameBytes (f m b))
    (xs : List β) (m : MemSys) : m.sameBytes (xs.foldl f m) := by
  induction xs generalizing m with
  | nil => exact .refl m
  | cons x r ih => exact (hf m x).trans (ih _)

/-- Bytes written one by one keep a memory in form. -/
theorem Memory.wf_puts {β : Type} (p : β → Nat) (v : β → Byte) (xs : List β) {g : Memory} (h : Memory.wf g = true) :
    Memory.wf (xs.foldl (fun g x => Memory.put g (p x) (v x)) g) = true :=
  Memory.wf_foldl _ (fun m _ hm => Memory.wf_put m _ _ hm) xs g h

-- Operations that write no byte of the four memories.

theorem MemSys.setLine_same (m : MemSys) (h ln : Nat) (l : Line) : m.sameBytes (m.setLine h ln l) := ⟨rfl, rfl, rfl, rfl⟩
theorem MemSys.delLine_same (m : MemSys) (h ln : Nat) : m.sameBytes (m.delLine h ln) := ⟨rfl, rfl, rfl, rfl⟩
theorem MemSys.setL2_same (m : MemSys) (ln : Nat) (l : Line) : m.sameBytes (m.setL2 ln l) := ⟨rfl, rfl, rfl, rfl⟩
theorem MemSys.putRaw_same (m : MemSys) (pa : Nat) (b : Byte) : m.sameBytes (m.putRaw pa b) := MemSys.setL2_same ..
theorem MemSys.fillL2_same (m : MemSys) (ln : Nat) : m.sameBytes (m.fillL2 ln) := MemSys.setL2_same ..
theorem MemSys.fireIf_same (m : MemSys) (p : Monitor → Bool) : m.sameBytes (m.fireIf p) := ⟨rfl, rfl, rfl, rfl⟩
theorem MemSys.fire_same (m : MemSys) (p ln : Nat) : m.sameBytes (m.fire p ln) := MemSys.fireIf_same ..
theorem MemSys.fireAll_same (m : MemSys) (ln : Nat) : m.sameBytes (m.fireAll ln) := MemSys.fireIf_same ..
theorem MemSys.firePeer_same (m : MemSys) (ln : Nat) : m.sameBytes (m.firePeer ln) := MemSys.fireIf_same ..
theorem MemSys.dropPeer_same (m : MemSys) (ln level : Nat) : m.sameBytes (m.dropPeer ln level) := ⟨rfl, rfl, rfl, rfl⟩

theorem MemSys.wroteBy_same (m : MemSys) (rk : Nat) (ps : List (Space × Nat)) : m.sameBytes (m.wroteBy rk ps) :=
  ⟨rfl, rfl, rfl, rfl⟩
theorem MemSys.cleanL_same (m : MemSys) (h : Nat) : m.sameBytes (m.cleanL h) := ⟨rfl, rfl, rfl, rfl⟩
theorem MemSys.clearMarks_same (m : MemSys) (f : Nat → Bool) : m.sameBytes (m.clearMarks f) := ⟨rfl, rfl, rfl, rfl⟩

theorem MemSys.unpoison_same (m : MemSys) (ln n : Nat) : m.sameBytes (m.unpoison ln n) := by
  unfold MemSys.unpoison; split <;> exact ⟨rfl, rfl, rfl, rfl⟩

theorem MemSys.use_same (m : MemSys) (h ln : Nat) : m.sameBytes (m.use h ln) := by
  unfold MemSys.use; split <;> exact ⟨rfl, rfl, rfl, rfl⟩

theorem MemSys.remark_same (m : MemSys) (h ln k : Nat) : m.sameBytes (m.remark h ln k) := by
  unfold MemSys.remark; split <;> exact ⟨rfl, rfl, rfl, rfl⟩

theorem MemSys.markAt_same (m : MemSys) (h : Option Nat) (ln cache : Nat) : m.sameBytes (m.markAt h ln cache) := by
  unfold MemSys.markAt
  split
  · exact MemSys.remark_same ..
  · exact .refl m

theorem joinPath_same (gran level home : Nat) (loc : BitVec 12) (child : BitVec 4) (fuel r : Nat) (m : MemSys) :
    m.sameBytes (joinPath gran level home loc child fuel r m) := by
  induction fuel generalizing loc child r m with
  | zero => exact .refl m
  | succ k ih =>
    unfold joinPath
    dsimp only
    repeat' split
    all_goals first
      | exact ⟨rfl, rfl, rfl, rfl⟩
      | exact MemSys.sameBytes.trans (b := _) ⟨rfl, rfl, rfl, rfl⟩ (ih _ _ _ _)

theorem MemSys.join_same (m : MemSys) (h ln : Nat) : m.sameBytes (m.join h ln) := joinPath_same ..

theorem prunePath_same (gran level fuel r : Nat) (loc : BitVec 12) (child : BitVec 4) (m : MemSys) :
    m.sameBytes (prunePath gran level fuel r loc child m) := by
  induction fuel generalizing loc child r m with
  | zero => exact .refl m
  | succ k ih =>
    unfold prunePath
    dsimp only
    repeat' split
    all_goals first
      | exact ⟨rfl, rfl, rfl, rfl⟩
      | exact MemSys.sameBytes.trans (b := _) ⟨rfl, rfl, rfl, rfl⟩ (ih _ _ _ _)

theorem MemSys.leave_same (m : MemSys) (h ln : Nat) : m.sameBytes (m.leave h ln) := by
  unfold MemSys.leave
  dsimp only
  split
  · exact .refl m
  · exact prunePath_same ..

theorem MemSys.writeHome_same (m : MemSys) (ln : Nat) (l : Line) : m.sameBytes (m.writeHome ln l) := by
  unfold MemSys.writeHome
  refine .trans (b := { m with poison := _ }) ⟨rfl, rfl, rfl, rfl⟩ (MemSys.same_foldl (fun m j => ?_) _ _)
  split
  · exact MemSys.putRaw_same ..
  · exact .refl m

theorem MemSys.dropTracked_same (m : MemSys) (h ln : Nat) : m.sameBytes (m.dropTracked h ln) := by
  unfold MemSys.dropTracked
  dsimp only
  repeat' split
  · exact .refl m
  · exact (MemSys.writeHome_same ..).trans (MemSys.delLine_same ..)
  · exact ((MemSys.writeHome_same ..).trans (MemSys.delLine_same ..)).trans (MemSys.leave_same ..)
  · exact .refl m

theorem MemSys.invalidate_same (m : MemSys) (p : Nat × Line → Bool) : m.sameBytes (m.invalidate p) := by
  obtain ⟨a, b, c, d⟩ := MemSys.same_foldl (f := fun m kv => m.writeHome (kv.1 % 2 ^ 45) kv.2)
    (fun m kv => MemSys.writeHome_same m _ _) (m.lines.filter p) m
  exact ⟨a, b, c, d⟩

theorem MemSys.tearRange_same (m : MemSys) (base size : Nat) : m.sameBytes (m.tearRange base size) := by
  obtain ⟨a, b, c, d⟩ := MemSys.invalidate_same m (fun kv => keyIn base size kv.1 && kv.2.inTree && treeHolder (kv.1 / 2 ^ 45))
  exact ⟨a, b, c, d⟩

theorem MemSys.evictEntry_same (m : MemSys) (r gran level : Nat) : m.sameBytes (m.evictEntry r gran level) := by
  unfold MemSys.evictEntry
  dsimp only
  repeat' split
  · exact .refl m
  · exact (MemSys.invalidate_same m _).trans ⟨rfl, rfl, rfl, rfl⟩
  · exact ((MemSys.invalidate_same m _).trans ⟨rfl, rfl, rfl, rfl⟩).trans (prunePath_same ..)

theorem MemSys.quiet_same (m : MemSys) (ln : Nat) : m.sameBytes (m.quiet ln) :=
  MemSys.same_foldl (fun m _ => MemSys.evictEntry_same m _ _ _) _ m

theorem MemSys.teardown_same (m : MemSys) (t ln : Nat) : m.sameBytes (m.teardown t ln) := by
  have h := fun (m : MemSys) b z => (MemSys.tearRange_same m b z).trans (MemSys.fire_same _ homePoint ln)
  unfold MemSys.teardown
  dsimp only
  split
  · exact (((MemSys.quiet_same m ln).trans (h _ _ _)).trans (MemSys.tearRange_same ..)).trans ⟨rfl, rfl, rfl, rfl⟩
  · exact (MemSys.quiet_same m ln).trans (h _ _ _)

theorem MemSys.dropMates_same (m : MemSys) (h ln : Nat) (pub : BitVec 128) : m.sameBytes (m.dropMates h ln pub) := by
  unfold MemSys.dropMates
  refine MemSys.same_foldl (fun m kv => ?_) _ m
  dsimp only
  repeat' split
  · exact MemSys.dropTracked_same ..
  · exact MemSys.delLine_same ..
  · exact ⟨rfl, rfl, rfl, rfl⟩

theorem MemSys.publish_same (m : MemSys) (t h ln : Nat) : m.sameBytes (m.publish t h ln) := by
  unfold MemSys.publish
  repeat' split
  · exact .refl m
  · exact (((((MemSys.teardown_same ..).trans (MemSys.writeHome_same ..)).trans (MemSys.dropMates_same ..)).trans
      (MemSys.delLine_same ..)).trans (MemSys.fire_same ..)).trans (MemSys.fire_same ..)
  · exact .refl m

theorem MemSys.moveL_same (m : MemSys) (h g ln : Nat) : m.sameBytes (m.moveL h g ln) := by
  unfold MemSys.moveL
  dsimp only
  repeat' split
  all_goals exact ⟨rfl, rfl, rfl, rfl⟩

theorem MemSys.publishOver_same (m : MemSys) (t h ln : Nat) : m.sameBytes (m.publishOver t h ln) := by
  unfold MemSys.publishOver
  repeat' split
  · exact (MemSys.moveL_same ..).trans (MemSys.publish_same ..)
  · exact .refl m
  · exact MemSys.publish_same ..

theorem MemSys.evictL1_same (m : MemSys) (t h ln : Nat) : m.sameBytes (m.evictL1 t h ln) :=
  ((MemSys.publishOver_same ..).trans (MemSys.dropTracked_same ..)).trans (MemSys.delLine_same ..)

theorem MemSys.moveOut_same (m : MemSys) (h g ln : Nat) : m.sameBytes (m.moveOut h g ln) := by
  unfold MemSys.moveOut
  split
  · exact (MemSys.moveL_same ..).trans (MemSys.delLine_same ..)
  · exact .refl m

theorem MemSys.moveAll_same (m : MemSys) (p : Port1) (out : Bool) : m.sameBytes (m.moveAll p out) := by
  unfold MemSys.moveAll
  split
  · refine MemSys.same_foldl (fun m ln => ?_) _ m
    split
    · exact MemSys.moveOut_same ..
    · exact MemSys.moveL_same ..
  · exact .refl m

theorem MemSys.pubAll_same (m : MemSys) (t : Nat) (h : Option Nat) : m.sameBytes (m.pubAll t h) := by
  unfold MemSys.pubAll
  split
  · exact MemSys.same_foldl (fun m ln => MemSys.publish_same m t _ ln) _ m
  · exact .refl m

theorem MemSys.acquire_same (m : MemSys) (p : Port1) (scope : Nat) : m.sameBytes (m.acquire p scope) := by
  unfold MemSys.acquire
  dsimp only
  repeat' split
  all_goals exact ⟨rfl, rfl, rfl, rfl⟩

theorem MemSys.downgrade_same (m : MemSys) (r ln : Nat) : m.sameBytes (m.downgrade r ln) := by
  unfold MemSys.downgrade
  dsimp only
  repeat' split
  all_goals exact ⟨rfl, rfl, rfl, rfl⟩

/-- A line read at the home slice when no holder supplies it. -/
theorem MemSys.fetched_same (m : MemSys) (r ln : Nat) :
    m.sameBytes (if ((m.quiet ln).supplier r ln).isNone then (m.quiet ln).fillL2 ln else m.quiet ln) := by
  split
  · exact (MemSys.quiet_same ..).trans (MemSys.fillL2_same ..)
  · exact MemSys.quiet_same ..

theorem MemSys.readMiss_same (m : MemSys) (p : Port1) (ln cache : Nat) (tree : Bool) : m.sameBytes (m.readMiss p ln cache tree) := by
  have h := MemSys.fetched_same m p.router ln
  unfold MemSys.readMiss
  dsimp only
  generalize (if ((m.quiet ln).supplier p.router ln).isNone then (m.quiet ln).fillL2 ln else m.quiet ln) = m1 at h ⊢
  have d := h.trans (MemSys.downgrade_same m1 p.router ln)
  repeat' split
  all_goals first
    | exact d
    | exact (h.trans (MemSys.setLine_same ..)).trans (MemSys.downgrade_same ..)
    | exact d.trans (MemSys.setLine_same ..)
    | exact d.trans ((MemSys.setLine_same ..).trans (MemSys.join_same ..))

theorem MemSys.touchLine_same (m : MemSys) (p : Port1) (ln cache : Nat) (tree miss : Bool) :
    m.sameBytes (m.touchLine p ln cache tree miss) := by
  unfold MemSys.touchLine
  split
  · exact MemSys.readMiss_same ..
  · refine MemSys.same_foldl (fun m h => ?_) _ m
    split
    · exact MemSys.use_same ..
    · exact .refl m

theorem MemSys.extFetch_same (m : MemSys) (d ln : Nat) (own : Bool) : m.sameBytes (m.extFetch d ln own) := by
  unfold MemSys.extFetch
  dsimp only
  split <;> exact MemSys.setLine_same ..

theorem MemSys.putExt_same (m : MemSys) (d : Nat) (bs : List (Nat × Byte)) : m.sameBytes (m.putExt d bs) := by
  unfold MemSys.putExt
  refine MemSys.same_foldl (fun m kv => ?_) _ m
  dsimp only
  split
  · exact (MemSys.extFetch_same ..).trans (MemSys.setLine_same ..)
  · exact MemSys.extFetch_same ..

theorem MemSys.fillPeer_same (m : MemSys) (l : Option Nat) (pa mark : Nat) : m.sameBytes (m.fillPeer l pa mark) := by
  unfold MemSys.fillPeer
  repeat' split
  · exact .refl m
  · exact MemSys.use_same ..
  · exact MemSys.setLine_same ..

theorem MemSys.giveUp_same (m : MemSys) (h g ln : Nat) : m.sameBytes (m.giveUp h g ln) := by
  unfold MemSys.giveUp
  repeat' split
  · exact MemSys.dropTracked_same ..
  · exact (MemSys.moveL_same ..).trans (MemSys.delLine_same ..)
  · exact .refl m

theorem MemSys.toL_same (m : MemSys) (h ln : Nat) : m.sameBytes (m.toL h ln) := by
  have gone : ∀ (m : MemSys) (l x : Line), m.sameBytes (if l.solo then m.setLine h ln x else (m.setLine h ln x).leave h ln) := by
    intro m l x
    split
    · exact MemSys.setLine_same ..
    · exact (MemSys.setLine_same ..).trans (MemSys.leave_same ..)
  unfold MemSys.toL
  dsimp only
  split
  · split
    · exact gone _ _ _
    · exact (MemSys.writeHome_same ..).trans (gone _ _ _)
    · exact .refl m
  · exact .refl m

theorem MemSys.obtainM_same (m : MemSys) (t h ln : Nat) (tree : Bool) : m.sameBytes (m.obtainM t h ln tree) := by
  have h1 := (MemSys.teardown_same m t ln).trans (MemSys.fillL2_same _ ln)
  unfold MemSys.obtainM
  dsimp only
  split
  · exact ((h1.trans (MemSys.setLine_same ..)).trans (MemSys.fire_same ..)).trans (MemSys.join_same ..)
  · exact (h1.trans (MemSys.setLine_same ..)).trans (MemSys.fire_same ..)

theorem MemSys.prepStore_same (m : MemSys) (t : Nat) (p : Port1) (scope ln : Nat) (tree : Bool) :
    m.sameBytes (m.prepStore t p scope ln tree).1 := by
  unfold MemSys.prepStore
  repeat' split
  all_goals first
    | exact MemSys.teardown_same ..
    | exact MemSys.fire_same ..
    | exact (MemSys.toL_same ..).trans (MemSys.fire_same ..)
    | exact (MemSys.giveUp_same ..).trans (MemSys.fire_same ..)
    | exact (MemSys.fire_same ..).trans (MemSys.fire_same ..)
    | exact MemSys.obtainM_same ..

theorem MemSys.putAt_same (m : MemSys) (h : Option Nat) (ln : Nat) (bs : List (Nat × Byte)) : m.sameBytes (m.putAt h ln bs) := by
  unfold MemSys.putAt
  split
  · exact MemSys.same_foldl (fun m kv => MemSys.putRaw_same m _ _) _ m
  · exact MemSys.setLine_same ..

theorem MemSys.storePkg_same (m : MemSys) (t : Nat) (p : Port1) (scope cache : Nat) (tree : Bool) (cells : List (Nat × Byte)) :
    m.sameBytes (m.storePkg t p scope cache tree cells) := by
  unfold MemSys.storePkg
  refine MemSys.same_foldl (fun m ln => ?_) _ m
  exact (((MemSys.prepStore_same m t p scope ln tree).trans (MemSys.putAt_same ..)).trans (MemSys.markAt_same ..)).trans
    (MemSys.unpoison_same ..)

theorem MemSys.homeSolo_same (m : MemSys) (p : Port1) (ln : Nat) : m.sameBytes (m.homeSolo p ln) := by
  unfold MemSys.homeSolo
  repeat' split
  · exact MemSys.dropTracked_same ..
  · exact .refl m
  · exact .refl m

theorem MemSys.prepAtomic_same (m : MemSys) (t : Nat) (p : Port1) (scope pa n : Nat) :
    m.sameBytes (m.prepAtomic t p scope pa n).1 := by
  have ps := MemSys.prepStore_same m t p scope (lineOf pa) true
  unfold MemSys.prepAtomic
  dsimp only
  split
  · exact (MemSys.homeSolo_same ..).trans (MemSys.teardown_same ..)
  · split
    · rename_i h; rw [h] at ps; exact ps
    · rename_i m1 x h
      rw [h] at ps
      split
      · exact ps
      · exact ((ps.trans (MemSys.fetched_same m1 p.router (lineOf pa))).trans (MemSys.setLine_same ..)).trans
          (MemSys.downgrade_same ..)

-- Operations that write one of them.

variable {m : MemSys}

theorem MemSys.memPut_canonical (hm : m.canonical) (pa : Nat) (b : Byte) : (m.memPut pa b).canonical :=
  ⟨Memory.wf_put _ _ _ hm.1, hm.2⟩

theorem MemSys.writeL2_canonical (hm : m.canonical) (ln : Nat) : (m.writeL2 ln).canonical := by
  unfold MemSys.writeL2
  split
  · exact hm
  · refine MemSys.canonical_of_same (MemSys.setL2_same ..) (MemSys.canonical_foldl (fun m j h => ?_) _ hm)
    split
    · exact MemSys.memPut_canonical h _ _
    · exact h

theorem MemSys.dropL2_canonical (hm : m.canonical) (ln : Nat) : (m.dropL2 ln).canonical :=
  MemSys.canonical_of_same (m := m.writeL2 ln) ⟨rfl, rfl, rfl, rfl⟩ (MemSys.writeL2_canonical hm ln)

theorem MemSys.clearL2_canonical (hm : m.canonical) (base size : Nat) : (m.clearL2 base size).canonical :=
  MemSys.canonical_foldl (fun _ ln h => MemSys.dropL2_canonical h ln) _ hm

theorem MemSys.putPeer_canonical (hm : m.canonical) (ln : Nat) (bs : List (Nat × Byte)) : (m.putPeer ln bs).canonical :=
  ⟨hm.1, hm.2.1, Memory.wf_puts _ _ _ hm.2.2.1, hm.2.2.2⟩

theorem MemSys.drainOne_canonical (hm : m.canonical) (w : Wcb) : (m.drainOne w).canonical := MemSys.putPeer_canonical hm _ _

theorem MemSys.drains_canonical (hm : m.canonical) (ws : List Wcb) (x : Tab (List Wcb)) :
    { ws.foldl MemSys.drainOne m with wcb := x }.canonical :=
  MemSys.canonical_of_same (m := ws.foldl MemSys.drainOne m) ⟨rfl, rfl, rfl, rfl⟩
    (MemSys.canonical_foldl (fun _ w h => MemSys.drainOne_canonical h w) _ hm)

theorem MemSys.drainAll_canonical (hm : m.canonical) (core : Nat) : (m.drainAll core).canonical := MemSys.drains_canonical hm _ _

theorem MemSys.drainLine_canonical (hm : m.canonical) (core : Option Nat) (ln : Nat) : (m.drainLine core ln).canonical := by
  unfold MemSys.drainLine
  split
  · exact hm
  · exact MemSys.drains_canonical hm _ _

theorem MemSys.release_canonical (hm : m.canonical) (t : Nat) (p : Port1) (core : Option Nat) (scope : Nat) :
    (m.release t p core scope).canonical := by
  have h1 : (if 2 ≤ scope then m.moveAll p (decide (3 ≤ scope)) else m).canonical := by
    split
    · exact MemSys.canonical_of_same (MemSys.moveAll_same ..) hm
    · exact hm
  have h2 : ∀ m : MemSys, m.canonical → (if 3 ≤ scope then (m.pubAll t p.cl1).pubAll t p.l1 else m).canonical := by
    intro m hm
    split
    · exact MemSys.canonical_of_same ((MemSys.pubAll_same ..).trans (MemSys.pubAll_same ..)) hm
    · exact hm
  unfold MemSys.release
  dsimp only
  split
  · split
    · exact MemSys.drainAll_canonical (h2 _ h1) _
    · exact h2 _ h1
  · exact h2 _ h1

theorem MemSys.acquire_canonical (hm : m.canonical) (p : Port1) (scope : Nat) : (m.acquire p scope).canonical :=
  MemSys.canonical_of_same (MemSys.acquire_same ..) hm

theorem MemSys.storePkg_canonical (hm : m.canonical) (t : Nat) (p : Port1) (scope cache : Nat) (tree : Bool)
    (cells : List (Nat × Byte)) : (m.storePkg t p scope cache tree cells).canonical :=
  MemSys.canonical_of_same (MemSys.storePkg_same ..) hm

theorem MemSys.prepAtomic_canonical (hm : m.canonical) (t : Nat) (p : Port1) (scope pa n : Nat) :
    (m.prepAtomic t p scope pa n).1.canonical := MemSys.canonical_of_same (MemSys.prepAtomic_same ..) hm

theorem MemSys.putScratch_canonical (hm : m.canonical) (bs : List (Nat × Byte)) : (m.putScratch bs).canonical :=
  ⟨hm.1, hm.2.1, hm.2.2.1, Memory.wf_puts _ _ _ hm.2.2.2⟩

theorem MemSys.extSnoop_canonical (hm : m.canonical) (d p ln : Nat) : (m.extSnoop d p ln).canonical := by
  unfold MemSys.extSnoop
  split
  · refine ⟨hm.1, Memory.wf_foldl _ (fun g j hg => ?_) _ _ hm.2.1, hm.2.2⟩
    split
    · exact Memory.wf_put _ _ _ hg
    · exact hg
  · exact hm

theorem MemSys.storeExt_canonical (hm : m.canonical) (k3 : Bool) (d : Nat) (bs : List (Nat × Byte)) :
    (m.storeExt k3 d bs).canonical := by
  unfold MemSys.storeExt
  split
  · exact ⟨hm.1, Memory.wf_puts _ _ _ hm.2.1, hm.2.2⟩
  · exact MemSys.canonical_of_same (MemSys.putExt_same ..) hm

theorem MemSys.storeExts_canonical (hm : m.canonical) (cells : List MemCell) : (m.storeExts cells).canonical := by
  unfold MemSys.storeExts
  refine MemSys.canonical_foldl (fun m x h => MemSys.canonical_of_same (MemSys.unpoison_same ..) h) _ ?_
  refine MemSys.canonical_foldl (fun m x h => ?_) _ hm
  split
  · exact MemSys.storeExt_canonical h _ _ _
  · exact h

theorem MemSys.wcbPut_canonical (hm : m.canonical) (core t age ln : Nat) (bs : List (Nat × Byte)) :
    (m.wcbPut core t age ln bs).canonical := by
  unfold MemSys.wcbPut
  dsimp only
  refine MemSys.drains_canonical ?_ _ _
  repeat' split
  all_goals first
    | exact hm
    | exact MemSys.drainOne_canonical hm _

theorem MemSys.reset_canonical : MemSys.reset.canonical := ⟨rfl, rfl, rfl, rfl⟩

end Sys2Proof.Machine
end

