-- ==== Sys2Proof/Laws/State.lean ====
section
/-! SUPPORT. One lemma per field and named update of the state, of a crew and of an engine context: what an update leaves
alone, and what it writes. -/

namespace Sys2Proof.Machine

@[simp] theorem State.turns_setCrew (s : State) (id : Nat) (c : Crew) : (s.setCrew id c).turns = s.turns := rfl
@[simp] theorem State.cur_setCrew (s : State) (id : Nat) (c : Crew) : (s.setCrew id c).cur = s.cur := rfl
@[simp] theorem State.clock_setCrew (s : State) (id : Nat) (c : Crew) : (s.setCrew id c).clock = s.clock := rfl
@[simp] theorem State.freeCount_setCrew (s : State) (id : Nat) (c : Crew) : (s.setCrew id c).freeCount = s.freeCount := rfl
@[simp] theorem State.uid_setCrew (s : State) (id : Nat) (c : Crew) : (s.setCrew id c).uid = s.uid := rfl
@[simp] theorem State.crews_setCrew (s : State) (id : Nat) (c : Crew) : (s.setCrew id c).crews = Tab.put s.crews id c := rfl
@[simp] theorem State.engs_setCrew (s : State) (id : Nat) (c : Crew) : (s.setCrew id c).engs = s.engs := rfl
@[simp] theorem State.forks_setCrew (s : State) (id : Nat) (c : Crew) : (s.setCrew id c).forks = s.forks := rfl
@[simp] theorem State.cores_setCrew (s : State) (id : Nat) (c : Crew) : (s.setCrew id c).cores = s.cores := rfl
@[simp] theorem State.teams_setCrew (s : State) (id : Nat) (c : Crew) : (s.setCrew id c).teams = s.teams := rfl
@[simp] theorem State.regions_setCrew (s : State) (id : Nat) (c : Crew) : (s.setCrew id c).regions = s.regions := rfl
@[simp] theorem State.strikeq_setCrew (s : State) (id : Nat) (c : Crew) : (s.setCrew id c).strikeq = s.strikeq := rfl
@[simp] theorem State.admits_setCrew (s : State) (id : Nat) (c : Crew) : (s.setCrew id c).admits = s.admits := rfl
@[simp] theorem State.mem_setCrew (s : State) (id : Nat) (c : Crew) : (s.setCrew id c).mem = s.mem := rfl
@[simp] theorem State.port_setCrew (s : State) (id : Nat) (c : Crew) : (s.setCrew id c).port = s.port := rfl
@[simp] theorem State.power_setCrew (s : State) (id : Nat) (c : Crew) : (s.setCrew id c).power = s.power := rfl
@[simp] theorem State.pool_setCrew (s : State) (id : Nat) (c : Crew) : (s.setCrew id c).pool = s.pool := rfl
@[simp] theorem State.fab_setCrew (s : State) (id : Nat) (c : Crew) : (s.setCrew id c).fab = s.fab := rfl
@[simp] theorem State.mil_setCrew (s : State) (id : Nat) (c : Crew) : (s.setCrew id c).mil = s.mil := rfl

@[simp] theorem State.turns_setEng (s : State) (k : Nat) (e : Eng) : (s.setEng k e).turns = s.turns := rfl
@[simp] theorem State.cur_setEng (s : State) (k : Nat) (e : Eng) : (s.setEng k e).cur = s.cur := rfl
@[simp] theorem State.clock_setEng (s : State) (k : Nat) (e : Eng) : (s.setEng k e).clock = s.clock := rfl
@[simp] theorem State.freeCount_setEng (s : State) (k : Nat) (e : Eng) : (s.setEng k e).freeCount = s.freeCount := rfl
@[simp] theorem State.uid_setEng (s : State) (k : Nat) (e : Eng) : (s.setEng k e).uid = s.uid := rfl
@[simp] theorem State.crews_setEng (s : State) (k : Nat) (e : Eng) : (s.setEng k e).crews = s.crews := rfl
@[simp] theorem State.engs_setEng (s : State) (k : Nat) (e : Eng) : (s.setEng k e).engs = Tab.put s.engs k e := rfl
@[simp] theorem State.forks_setEng (s : State) (k : Nat) (e : Eng) : (s.setEng k e).forks = s.forks := rfl
@[simp] theorem State.cores_setEng (s : State) (k : Nat) (e : Eng) : (s.setEng k e).cores = s.cores := rfl
@[simp] theorem State.teams_setEng (s : State) (k : Nat) (e : Eng) : (s.setEng k e).teams = s.teams := rfl
@[simp] theorem State.regions_setEng (s : State) (k : Nat) (e : Eng) : (s.setEng k e).regions = s.regions := rfl
@[simp] theorem State.strikeq_setEng (s : State) (k : Nat) (e : Eng) : (s.setEng k e).strikeq = s.strikeq := rfl
@[simp] theorem State.admits_setEng (s : State) (k : Nat) (e : Eng) : (s.setEng k e).admits = s.admits := rfl
@[simp] theorem State.mem_setEng (s : State) (k : Nat) (e : Eng) : (s.setEng k e).mem = s.mem := rfl
@[simp] theorem State.port_setEng (s : State) (k : Nat) (e : Eng) : (s.setEng k e).port = s.port := rfl
@[simp] theorem State.power_setEng (s : State) (k : Nat) (e : Eng) : (s.setEng k e).power = s.power := rfl
@[simp] theorem State.pool_setEng (s : State) (k : Nat) (e : Eng) : (s.setEng k e).pool = s.pool := rfl
@[simp] theorem State.fab_setEng (s : State) (k : Nat) (e : Eng) : (s.setEng k e).fab = s.fab := rfl
@[simp] theorem State.mil_setEng (s : State) (k : Nat) (e : Eng) : (s.setEng k e).mil = s.mil := rfl

@[simp] theorem State.turns_setMem (s : State) (m : MemSys) : (s.setMem m).turns = s.turns := rfl
@[simp] theorem State.cur_setMem (s : State) (m : MemSys) : (s.setMem m).cur = s.cur := rfl
@[simp] theorem State.clock_setMem (s : State) (m : MemSys) : (s.setMem m).clock = s.clock := rfl
@[simp] theorem State.freeCount_setMem (s : State) (m : MemSys) : (s.setMem m).freeCount = s.freeCount := rfl
@[simp] theorem State.uid_setMem (s : State) (m : MemSys) : (s.setMem m).uid = s.uid := rfl
@[simp] theorem State.crews_setMem (s : State) (m : MemSys) : (s.setMem m).crews = s.crews := rfl
@[simp] theorem State.engs_setMem (s : State) (m : MemSys) : (s.setMem m).engs = s.engs := rfl
@[simp] theorem State.forks_setMem (s : State) (m : MemSys) : (s.setMem m).forks = s.forks := rfl
@[simp] theorem State.cores_setMem (s : State) (m : MemSys) : (s.setMem m).cores = s.cores := rfl
@[simp] theorem State.teams_setMem (s : State) (m : MemSys) : (s.setMem m).teams = s.teams := rfl
@[simp] theorem State.regions_setMem (s : State) (m : MemSys) : (s.setMem m).regions = s.regions := rfl
@[simp] theorem State.strikeq_setMem (s : State) (m : MemSys) : (s.setMem m).strikeq = s.strikeq := rfl
@[simp] theorem State.admits_setMem (s : State) (m : MemSys) : (s.setMem m).admits = s.admits := rfl
@[simp] theorem State.mem_setMem (s : State) (m : MemSys) : (s.setMem m).mem = m := rfl
@[simp] theorem State.port_setMem (s : State) (m : MemSys) : (s.setMem m).port = s.port := rfl
@[simp] theorem State.power_setMem (s : State) (m : MemSys) : (s.setMem m).power = s.power := rfl
@[simp] theorem State.pool_setMem (s : State) (m : MemSys) : (s.setMem m).pool = s.pool := rfl
@[simp] theorem State.fab_setMem (s : State) (m : MemSys) : (s.setMem m).fab = s.fab := rfl
@[simp] theorem State.mil_setMem (s : State) (m : MemSys) : (s.setMem m).mil = s.mil := rfl

@[simp] theorem State.turns_setPort (s : State) (p : Port) : (s.setPort p).turns = s.turns := rfl
@[simp] theorem State.cur_setPort (s : State) (p : Port) : (s.setPort p).cur = s.cur := rfl
@[simp] theorem State.clock_setPort (s : State) (p : Port) : (s.setPort p).clock = s.clock := rfl
@[simp] theorem State.freeCount_setPort (s : State) (p : Port) : (s.setPort p).freeCount = s.freeCount := rfl
@[simp] theorem State.uid_setPort (s : State) (p : Port) : (s.setPort p).uid = s.uid := rfl
@[simp] theorem State.crews_setPort (s : State) (p : Port) : (s.setPort p).crews = s.crews := rfl
@[simp] theorem State.engs_setPort (s : State) (p : Port) : (s.setPort p).engs = s.engs := rfl
@[simp] theorem State.forks_setPort (s : State) (p : Port) : (s.setPort p).forks = s.forks := rfl
@[simp] theorem State.cores_setPort (s : State) (p : Port) : (s.setPort p).cores = s.cores := rfl
@[simp] theorem State.teams_setPort (s : State) (p : Port) : (s.setPort p).teams = s.teams := rfl
@[simp] theorem State.regions_setPort (s : State) (p : Port) : (s.setPort p).regions = s.regions := rfl
@[simp] theorem State.strikeq_setPort (s : State) (p : Port) : (s.setPort p).strikeq = s.strikeq := rfl
@[simp] theorem State.admits_setPort (s : State) (p : Port) : (s.setPort p).admits = s.admits := rfl
@[simp] theorem State.mem_setPort (s : State) (p : Port) : (s.setPort p).mem = s.mem := rfl
@[simp] theorem State.port_setPort (s : State) (p : Port) : (s.setPort p).port = p := rfl
@[simp] theorem State.power_setPort (s : State) (p : Port) : (s.setPort p).power = s.power := rfl
@[simp] theorem State.pool_setPort (s : State) (p : Port) : (s.setPort p).pool = s.pool := rfl
@[simp] theorem State.fab_setPort (s : State) (p : Port) : (s.setPort p).fab = s.fab := rfl
@[simp] theorem State.mil_setPort (s : State) (p : Port) : (s.setPort p).mil = s.mil := rfl

@[simp] theorem State.turns_setPool (s : State) (p : Pool) : (s.setPool p).turns = s.turns := rfl
@[simp] theorem State.cur_setPool (s : State) (p : Pool) : (s.setPool p).cur = s.cur := rfl
@[simp] theorem State.clock_setPool (s : State) (p : Pool) : (s.setPool p).clock = s.clock := rfl
@[simp] theorem State.freeCount_setPool (s : State) (p : Pool) : (s.setPool p).freeCount = s.freeCount := rfl
@[simp] theorem State.uid_setPool (s : State) (p : Pool) : (s.setPool p).uid = s.uid := rfl
@[simp] theorem State.crews_setPool (s : State) (p : Pool) : (s.setPool p).crews = s.crews := rfl
@[simp] theorem State.engs_setPool (s : State) (p : Pool) : (s.setPool p).engs = s.engs := rfl
@[simp] theorem State.forks_setPool (s : State) (p : Pool) : (s.setPool p).forks = s.forks := rfl
@[simp] theorem State.cores_setPool (s : State) (p : Pool) : (s.setPool p).cores = s.cores := rfl
@[simp] theorem State.teams_setPool (s : State) (p : Pool) : (s.setPool p).teams = s.teams := rfl
@[simp] theorem State.regions_setPool (s : State) (p : Pool) : (s.setPool p).regions = s.regions := rfl
@[simp] theorem State.strikeq_setPool (s : State) (p : Pool) : (s.setPool p).strikeq = s.strikeq := rfl
@[simp] theorem State.admits_setPool (s : State) (p : Pool) : (s.setPool p).admits = s.admits := rfl
@[simp] theorem State.mem_setPool (s : State) (p : Pool) : (s.setPool p).mem = s.mem := rfl
@[simp] theorem State.port_setPool (s : State) (p : Pool) : (s.setPool p).port = s.port := rfl
@[simp] theorem State.power_setPool (s : State) (p : Pool) : (s.setPool p).power = s.power := rfl
@[simp] theorem State.pool_setPool (s : State) (p : Pool) : (s.setPool p).pool = p := rfl
@[simp] theorem State.fab_setPool (s : State) (p : Pool) : (s.setPool p).fab = s.fab := rfl
@[simp] theorem State.mil_setPool (s : State) (p : Pool) : (s.setPool p).mil = s.mil := rfl

@[simp] theorem State.turns_setFab (s : State) (f : Fab) : (s.setFab f).turns = s.turns := rfl
@[simp] theorem State.cur_setFab (s : State) (f : Fab) : (s.setFab f).cur = s.cur := rfl
@[simp] theorem State.clock_setFab (s : State) (f : Fab) : (s.setFab f).clock = s.clock := rfl
@[simp] theorem State.freeCount_setFab (s : State) (f : Fab) : (s.setFab f).freeCount = s.freeCount := rfl
@[simp] theorem State.uid_setFab (s : State) (f : Fab) : (s.setFab f).uid = s.uid := rfl
@[simp] theorem State.crews_setFab (s : State) (f : Fab) : (s.setFab f).crews = s.crews := rfl
@[simp] theorem State.engs_setFab (s : State) (f : Fab) : (s.setFab f).engs = s.engs := rfl
@[simp] theorem State.forks_setFab (s : State) (f : Fab) : (s.setFab f).forks = s.forks := rfl
@[simp] theorem State.cores_setFab (s : State) (f : Fab) : (s.setFab f).cores = s.cores := rfl
@[simp] theorem State.teams_setFab (s : State) (f : Fab) : (s.setFab f).teams = s.teams := rfl
@[simp] theorem State.regions_setFab (s : State) (f : Fab) : (s.setFab f).regions = s.regions := rfl
@[simp] theorem State.strikeq_setFab (s : State) (f : Fab) : (s.setFab f).strikeq = s.strikeq := rfl
@[simp] theorem State.admits_setFab (s : State) (f : Fab) : (s.setFab f).admits = s.admits := rfl
@[simp] theorem State.mem_setFab (s : State) (f : Fab) : (s.setFab f).mem = s.mem := rfl
@[simp] theorem State.port_setFab (s : State) (f : Fab) : (s.setFab f).port = s.port := rfl
@[simp] theorem State.power_setFab (s : State) (f : Fab) : (s.setFab f).power = s.power := rfl
@[simp] theorem State.pool_setFab (s : State) (f : Fab) : (s.setFab f).pool = s.pool := rfl
@[simp] theorem State.fab_setFab (s : State) (f : Fab) : (s.setFab f).fab = f := rfl
@[simp] theorem State.mil_setFab (s : State) (f : Fab) : (s.setFab f).mil = s.mil := rfl

@[simp] theorem State.turns_setMil (s : State) (m : Milden) : (s.setMil m).turns = s.turns := rfl
@[simp] theorem State.cur_setMil (s : State) (m : Milden) : (s.setMil m).cur = s.cur := rfl
@[simp] theorem State.clock_setMil (s : State) (m : Milden) : (s.setMil m).clock = s.clock := rfl
@[simp] theorem State.freeCount_setMil (s : State) (m : Milden) : (s.setMil m).freeCount = s.freeCount := rfl
@[simp] theorem State.uid_setMil (s : State) (m : Milden) : (s.setMil m).uid = s.uid := rfl
@[simp] theorem State.crews_setMil (s : State) (m : Milden) : (s.setMil m).crews = s.crews := rfl
@[simp] theorem State.engs_setMil (s : State) (m : Milden) : (s.setMil m).engs = s.engs := rfl
@[simp] theorem State.forks_setMil (s : State) (m : Milden) : (s.setMil m).forks = s.forks := rfl
@[simp] theorem State.cores_setMil (s : State) (m : Milden) : (s.setMil m).cores = s.cores := rfl
@[simp] theorem State.teams_setMil (s : State) (m : Milden) : (s.setMil m).teams = s.teams := rfl
@[simp] theorem State.regions_setMil (s : State) (m : Milden) : (s.setMil m).regions = s.regions := rfl
@[simp] theorem State.strikeq_setMil (s : State) (m : Milden) : (s.setMil m).strikeq = s.strikeq := rfl
@[simp] theorem State.admits_setMil (s : State) (m : Milden) : (s.setMil m).admits = s.admits := rfl
@[simp] theorem State.mem_setMil (s : State) (m : Milden) : (s.setMil m).mem = s.mem := rfl
@[simp] theorem State.port_setMil (s : State) (m : Milden) : (s.setMil m).port = s.port := rfl
@[simp] theorem State.power_setMil (s : State) (m : Milden) : (s.setMil m).power = s.power := rfl
@[simp] theorem State.pool_setMil (s : State) (m : Milden) : (s.setMil m).pool = s.pool := rfl
@[simp] theorem State.fab_setMil (s : State) (m : Milden) : (s.setMil m).fab = s.fab := rfl
@[simp] theorem State.mil_setMil (s : State) (m : Milden) : (s.setMil m).mil = m := rfl

@[simp] theorem State.turns_setPower (s : State) (p : Power) : (s.setPower p).turns = s.turns := rfl
@[simp] theorem State.cur_setPower (s : State) (p : Power) : (s.setPower p).cur = s.cur := rfl
@[simp] theorem State.clock_setPower (s : State) (p : Power) : (s.setPower p).clock = s.clock := rfl
@[simp] theorem State.freeCount_setPower (s : State) (p : Power) : (s.setPower p).freeCount = s.freeCount := rfl
@[simp] theorem State.uid_setPower (s : State) (p : Power) : (s.setPower p).uid = s.uid := rfl
@[simp] theorem State.crews_setPower (s : State) (p : Power) : (s.setPower p).crews = s.crews := rfl
@[simp] theorem State.engs_setPower (s : State) (p : Power) : (s.setPower p).engs = s.engs := rfl
@[simp] theorem State.forks_setPower (s : State) (p : Power) : (s.setPower p).forks = s.forks := rfl
@[simp] theorem State.cores_setPower (s : State) (p : Power) : (s.setPower p).cores = s.cores := rfl
@[simp] theorem State.teams_setPower (s : State) (p : Power) : (s.setPower p).teams = s.teams := rfl
@[simp] theorem State.regions_setPower (s : State) (p : Power) : (s.setPower p).regions = s.regions := rfl
@[simp] theorem State.strikeq_setPower (s : State) (p : Power) : (s.setPower p).strikeq = s.strikeq := rfl
@[simp] theorem State.admits_setPower (s : State) (p : Power) : (s.setPower p).admits = s.admits := rfl
@[simp] theorem State.mem_setPower (s : State) (p : Power) : (s.setPower p).mem = s.mem := rfl
@[simp] theorem State.port_setPower (s : State) (p : Power) : (s.setPower p).port = s.port := rfl
@[simp] theorem State.power_setPower (s : State) (p : Power) : (s.setPower p).power = p := rfl
@[simp] theorem State.pool_setPower (s : State) (p : Power) : (s.setPower p).pool = s.pool := rfl
@[simp] theorem State.fab_setPower (s : State) (p : Power) : (s.setPower p).fab = s.fab := rfl
@[simp] theorem State.mil_setPower (s : State) (p : Power) : (s.setPower p).mil = s.mil := rfl

@[simp] theorem State.turns_setCore (s : State) (k : Nat) (c : CoreSt) : (s.setCore k c).turns = s.turns := rfl
@[simp] theorem State.cur_setCore (s : State) (k : Nat) (c : CoreSt) : (s.setCore k c).cur = s.cur := rfl
@[simp] theorem State.clock_setCore (s : State) (k : Nat) (c : CoreSt) : (s.setCore k c).clock = s.clock := rfl
@[simp] theorem State.freeCount_setCore (s : State) (k : Nat) (c : CoreSt) : (s.setCore k c).freeCount = s.freeCount := rfl
@[simp] theorem State.uid_setCore (s : State) (k : Nat) (c : CoreSt) : (s.setCore k c).uid = s.uid := rfl
@[simp] theorem State.crews_setCore (s : State) (k : Nat) (c : CoreSt) : (s.setCore k c).crews = s.crews := rfl
@[simp] theorem State.engs_setCore (s : State) (k : Nat) (c : CoreSt) : (s.setCore k c).engs = s.engs := rfl
@[simp] theorem State.forks_setCore (s : State) (k : Nat) (c : CoreSt) : (s.setCore k c).forks = s.forks := rfl
@[simp] theorem State.cores_setCore (s : State) (k : Nat) (c : CoreSt) : (s.setCore k c).cores = Tab.put s.cores k c := rfl
@[simp] theorem State.teams_setCore (s : State) (k : Nat) (c : CoreSt) : (s.setCore k c).teams = s.teams := rfl
@[simp] theorem State.regions_setCore (s : State) (k : Nat) (c : CoreSt) : (s.setCore k c).regions = s.regions := rfl
@[simp] theorem State.strikeq_setCore (s : State) (k : Nat) (c : CoreSt) : (s.setCore k c).strikeq = s.strikeq := rfl
@[simp] theorem State.admits_setCore (s : State) (k : Nat) (c : CoreSt) : (s.setCore k c).admits = s.admits := rfl
@[simp] theorem State.mem_setCore (s : State) (k : Nat) (c : CoreSt) : (s.setCore k c).mem = s.mem := rfl
@[simp] theorem State.port_setCore (s : State) (k : Nat) (c : CoreSt) : (s.setCore k c).port = s.port := rfl
@[simp] theorem State.power_setCore (s : State) (k : Nat) (c : CoreSt) : (s.setCore k c).power = s.power := rfl
@[simp] theorem State.pool_setCore (s : State) (k : Nat) (c : CoreSt) : (s.setCore k c).pool = s.pool := rfl
@[simp] theorem State.fab_setCore (s : State) (k : Nat) (c : CoreSt) : (s.setCore k c).fab = s.fab := rfl
@[simp] theorem State.mil_setCore (s : State) (k : Nat) (c : CoreSt) : (s.setCore k c).mil = s.mil := rfl

@[simp] theorem State.turns_updCrew (s : State) (id : Nat) (f : Crew → Crew) : (s.updCrew id f).turns = s.turns := by
  unfold State.updCrew; split <;> rfl
@[simp] theorem State.cur_updCrew (s : State) (id : Nat) (f : Crew → Crew) : (s.updCrew id f).cur = s.cur := by
  unfold State.updCrew; split <;> rfl
@[simp] theorem State.clock_updCrew (s : State) (id : Nat) (f : Crew → Crew) : (s.updCrew id f).clock = s.clock := by
  unfold State.updCrew; split <;> rfl
@[simp] theorem State.freeCount_updCrew (s : State) (id : Nat) (f : Crew → Crew) : (s.updCrew id f).freeCount = s.freeCount := by
  unfold State.updCrew; split <;> rfl
@[simp] theorem State.uid_updCrew (s : State) (id : Nat) (f : Crew → Crew) : (s.updCrew id f).uid = s.uid := by
  unfold State.updCrew; split <;> rfl
@[simp] theorem State.engs_updCrew (s : State) (id : Nat) (f : Crew → Crew) : (s.updCrew id f).engs = s.engs := by
  unfold State.updCrew; split <;> rfl
@[simp] theorem State.forks_updCrew (s : State) (id : Nat) (f : Crew → Crew) : (s.updCrew id f).forks = s.forks := by
  unfold State.updCrew; split <;> rfl
@[simp] theorem State.cores_updCrew (s : State) (id : Nat) (f : Crew → Crew) : (s.updCrew id f).cores = s.cores := by
  unfold State.updCrew; split <;> rfl
@[simp] theorem State.teams_updCrew (s : State) (id : Nat) (f : Crew → Crew) : (s.updCrew id f).teams = s.teams := by
  unfold State.updCrew; split <;> rfl
@[simp] theorem State.regions_updCrew (s : State) (id : Nat) (f : Crew → Crew) : (s.updCrew id f).regions = s.regions := by
  unfold State.updCrew; split <;> rfl
@[simp] theorem State.strikeq_updCrew (s : State) (id : Nat) (f : Crew → Crew) : (s.updCrew id f).strikeq = s.strikeq := by
  unfold State.updCrew; split <;> rfl
@[simp] theorem State.admits_updCrew (s : State) (id : Nat) (f : Crew → Crew) : (s.updCrew id f).admits = s.admits := by
  unfold State.updCrew; split <;> rfl
@[simp] theorem State.mem_updCrew (s : State) (id : Nat) (f : Crew → Crew) : (s.updCrew id f).mem = s.mem := by
  unfold State.updCrew; split <;> rfl
@[simp] theorem State.port_updCrew (s : State) (id : Nat) (f : Crew → Crew) : (s.updCrew id f).port = s.port := by
  unfold State.updCrew; split <;> rfl
@[simp] theorem State.power_updCrew (s : State) (id : Nat) (f : Crew → Crew) : (s.updCrew id f).power = s.power := by
  unfold State.updCrew; split <;> rfl
@[simp] theorem State.pool_updCrew (s : State) (id : Nat) (f : Crew → Crew) : (s.updCrew id f).pool = s.pool := by
  unfold State.updCrew; split <;> rfl
@[simp] theorem State.fab_updCrew (s : State) (id : Nat) (f : Crew → Crew) : (s.updCrew id f).fab = s.fab := by
  unfold State.updCrew; split <;> rfl
@[simp] theorem State.mil_updCrew (s : State) (id : Nat) (f : Crew → Crew) : (s.updCrew id f).mil = s.mil := by
  unfold State.updCrew; split <;> rfl

@[simp] theorem State.turns_updRegion (s : State) (rk : Nat) (f : Region → Region) : (s.updRegion rk f).turns = s.turns := by
  unfold State.updRegion; split <;> rfl
@[simp] theorem State.cur_updRegion (s : State) (rk : Nat) (f : Region → Region) : (s.updRegion rk f).cur = s.cur := by
  unfold State.updRegion; split <;> rfl
@[simp] theorem State.clock_updRegion (s : State) (rk : Nat) (f : Region → Region) : (s.updRegion rk f).clock = s.clock := by
  unfold State.updRegion; split <;> rfl
@[simp] theorem State.freeCount_updRegion (s : State) (rk : Nat) (f : Region → Region) : (s.updRegion rk f).freeCount = s.freeCount := by
  unfold State.updRegion; split <;> rfl
@[simp] theorem State.uid_updRegion (s : State) (rk : Nat) (f : Region → Region) : (s.updRegion rk f).uid = s.uid := by
  unfold State.updRegion; split <;> rfl
@[simp] theorem State.crews_updRegion (s : State) (rk : Nat) (f : Region → Region) : (s.updRegion rk f).crews = s.crews := by
  unfold State.updRegion; split <;> rfl
@[simp] theorem State.engs_updRegion (s : State) (rk : Nat) (f : Region → Region) : (s.updRegion rk f).engs = s.engs := by
  unfold State.updRegion; split <;> rfl
@[simp] theorem State.forks_updRegion (s : State) (rk : Nat) (f : Region → Region) : (s.updRegion rk f).forks = s.forks := by
  unfold State.updRegion; split <;> rfl
@[simp] theorem State.cores_updRegion (s : State) (rk : Nat) (f : Region → Region) : (s.updRegion rk f).cores = s.cores := by
  unfold State.updRegion; split <;> rfl
@[simp] theorem State.teams_updRegion (s : State) (rk : Nat) (f : Region → Region) : (s.updRegion rk f).teams = s.teams := by
  unfold State.updRegion; split <;> rfl
@[simp] theorem State.strikeq_updRegion (s : State) (rk : Nat) (f : Region → Region) : (s.updRegion rk f).strikeq = s.strikeq := by
  unfold State.updRegion; split <;> rfl
@[simp] theorem State.admits_updRegion (s : State) (rk : Nat) (f : Region → Region) : (s.updRegion rk f).admits = s.admits := by
  unfold State.updRegion; split <;> rfl
@[simp] theorem State.mem_updRegion (s : State) (rk : Nat) (f : Region → Region) : (s.updRegion rk f).mem = s.mem := by
  unfold State.updRegion; split <;> rfl
@[simp] theorem State.port_updRegion (s : State) (rk : Nat) (f : Region → Region) : (s.updRegion rk f).port = s.port := by
  unfold State.updRegion; split <;> rfl
@[simp] theorem State.power_updRegion (s : State) (rk : Nat) (f : Region → Region) : (s.updRegion rk f).power = s.power := by
  unfold State.updRegion; split <;> rfl
@[simp] theorem State.pool_updRegion (s : State) (rk : Nat) (f : Region → Region) : (s.updRegion rk f).pool = s.pool := by
  unfold State.updRegion; split <;> rfl
@[simp] theorem State.fab_updRegion (s : State) (rk : Nat) (f : Region → Region) : (s.updRegion rk f).fab = s.fab := by
  unfold State.updRegion; split <;> rfl
@[simp] theorem State.mil_updRegion (s : State) (rk : Nat) (f : Region → Region) : (s.updRegion rk f).mil = s.mil := by
  unfold State.updRegion; split <;> rfl

@[simp] theorem State.turns_setFork (s : State) (e : Eng) (n : Nat) : (s.setFork e n).turns = s.turns := by
  unfold State.setFork; split <;> rfl
@[simp] theorem State.cur_setFork (s : State) (e : Eng) (n : Nat) : (s.setFork e n).cur = s.cur := by
  unfold State.setFork; split <;> rfl
@[simp] theorem State.clock_setFork (s : State) (e : Eng) (n : Nat) : (s.setFork e n).clock = s.clock := by
  unfold State.setFork; split <;> rfl
@[simp] theorem State.freeCount_setFork (s : State) (e : Eng) (n : Nat) : (s.setFork e n).freeCount = s.freeCount := by
  unfold State.setFork; split <;> rfl
@[simp] theorem State.uid_setFork (s : State) (e : Eng) (n : Nat) : (s.setFork e n).uid = s.uid := by
  unfold State.setFork; split <;> rfl
@[simp] theorem State.crews_setFork (s : State) (e : Eng) (n : Nat) : (s.setFork e n).crews = s.crews := by
  unfold State.setFork; split <;> rfl
@[simp] theorem State.engs_setFork (s : State) (e : Eng) (n : Nat) : (s.setFork e n).engs = s.engs := by
  unfold State.setFork; split <;> rfl
@[simp] theorem State.cores_setFork (s : State) (e : Eng) (n : Nat) : (s.setFork e n).cores = s.cores := by
  unfold State.setFork; split <;> rfl
@[simp] theorem State.teams_setFork (s : State) (e : Eng) (n : Nat) : (s.setFork e n).teams = s.teams := by
  unfold State.setFork; split <;> rfl
@[simp] theorem State.regions_setFork (s : State) (e : Eng) (n : Nat) : (s.setFork e n).regions = s.regions := by
  unfold State.setFork; split <;> rfl
@[simp] theorem State.strikeq_setFork (s : State) (e : Eng) (n : Nat) : (s.setFork e n).strikeq = s.strikeq := by
  unfold State.setFork; split <;> rfl
@[simp] theorem State.admits_setFork (s : State) (e : Eng) (n : Nat) : (s.setFork e n).admits = s.admits := by
  unfold State.setFork; split <;> rfl
@[simp] theorem State.mem_setFork (s : State) (e : Eng) (n : Nat) : (s.setFork e n).mem = s.mem := by
  unfold State.setFork; split <;> rfl
@[simp] theorem State.port_setFork (s : State) (e : Eng) (n : Nat) : (s.setFork e n).port = s.port := by
  unfold State.setFork; split <;> rfl
@[simp] theorem State.power_setFork (s : State) (e : Eng) (n : Nat) : (s.setFork e n).power = s.power := by
  unfold State.setFork; split <;> rfl
@[simp] theorem State.pool_setFork (s : State) (e : Eng) (n : Nat) : (s.setFork e n).pool = s.pool := by
  unfold State.setFork; split <;> rfl
@[simp] theorem State.fab_setFork (s : State) (e : Eng) (n : Nat) : (s.setFork e n).fab = s.fab := by
  unfold State.setFork; split <;> rfl
@[simp] theorem State.mil_setFork (s : State) (e : Eng) (n : Nat) : (s.setFork e n).mil = s.mil := by
  unfold State.setFork; split <;> rfl

@[simp] theorem Crew.rk_setSlot (c : Crew) (n : Nat) (x : PcSlot) : (c.setSlot n x).rk = c.rk := by
  unfold Crew.setSlot; split <;> rfl
@[simp] theorem Crew.team_setSlot (c : Crew) (n : Nat) (x : PcSlot) : (c.setSlot n x).team = c.team := by
  unfold Crew.setSlot; split <;> rfl
@[simp] theorem Crew.no_setSlot (c : Crew) (n : Nat) (x : PcSlot) : (c.setSlot n x).no = c.no := by
  unfold Crew.setSlot; split <;> rfl
@[simp] theorem Crew.launched_setSlot (c : Crew) (n : Nat) (x : PcSlot) : (c.setSlot n x).launched = c.launched := by
  unfold Crew.setSlot; split <;> rfl
@[simp] theorem Crew.exited_setSlot (c : Crew) (n : Nat) (x : PcSlot) : (c.setSlot n x).exited = c.exited := by
  unfold Crew.setSlot; split <;> rfl
@[simp] theorem Crew.last_setSlot (c : Crew) (n : Nat) (x : PcSlot) : (c.setSlot n x).last = c.last := by
  unfold Crew.setSlot; split <;> rfl
@[simp] theorem Crew.com_setSlot (c : Crew) (n : Nat) (x : PcSlot) : (c.setSlot n x).com = c.com := by
  unfold Crew.setSlot; split <;> rfl
@[simp] theorem Crew.heat_setSlot (c : Crew) (n : Nat) (x : PcSlot) : (c.setSlot n x).heat = c.heat := by
  unfold Crew.setSlot; split <;> rfl
@[simp] theorem Crew.stack_setSlot (c : Crew) (n : Nat) (x : PcSlot) : (c.setSlot n x).stack = c.stack := by
  unfold Crew.setSlot; split <;> rfl
@[simp] theorem Crew.split_setSlot (c : Crew) (n : Nat) (x : PcSlot) : (c.setSlot n x).split = c.split := by
  unfold Crew.setSlot; split <;> rfl
@[simp] theorem Crew.trap_setSlot (c : Crew) (n : Nat) (x : PcSlot) : (c.setSlot n x).trap = c.trap := by
  unfold Crew.setSlot; split <;> rfl
@[simp] theorem Crew.park_setSlot (c : Crew) (n : Nat) (x : PcSlot) : (c.setSlot n x).park = c.park := by
  unfold Crew.setSlot; split <;> rfl
@[simp] theorem Crew.wait_setSlot (c : Crew) (n : Nat) (x : PcSlot) : (c.setSlot n x).wait = c.wait := by
  unfold Crew.setSlot; split <;> rfl
@[simp] theorem Crew.named_setSlot (c : Crew) (n : Nat) (x : PcSlot) : (c.setSlot n x).named = c.named := by
  unfold Crew.setSlot; split <;> rfl
@[simp] theorem Crew.toks_setSlot (c : Crew) (n : Nat) (x : PcSlot) : (c.setSlot n x).toks = c.toks := by
  unfold Crew.setSlot; split <;> rfl
@[simp] theorem Crew.ring_setSlot (c : Crew) (n : Nat) (x : PcSlot) : (c.setSlot n x).ring = c.ring := by
  unfold Crew.setSlot; split <;> rfl
@[simp] theorem Crew.later_setSlot (c : Crew) (n : Nat) (x : PcSlot) : (c.setSlot n x).later = c.later := by
  unfold Crew.setSlot; split <;> rfl
@[simp] theorem Crew.latch_setSlot (c : Crew) (n : Nat) (x : PcSlot) : (c.setSlot n x).latch = c.latch := by
  unfold Crew.setSlot; split <;> rfl
@[simp] theorem Crew.skip_setSlot (c : Crew) (n : Nat) (x : PcSlot) : (c.setSlot n x).skip = c.skip := by
  unfold Crew.setSlot; split <;> rfl
@[simp] theorem Crew.ret_setSlot (c : Crew) (n : Nat) (x : PcSlot) : (c.setSlot n x).ret = c.ret := by
  unfold Crew.setSlot; split <;> rfl
@[simp] theorem Crew.yield0_setSlot (c : Crew) (n : Nat) (x : PcSlot) : (c.setSlot n x).yield0 = c.yield0 := by
  unfold Crew.setSlot; split <;> rfl
@[simp] theorem Crew.yield1_setSlot (c : Crew) (n : Nat) (x : PcSlot) : (c.setSlot n x).yield1 = c.yield1 := by
  unfold Crew.setSlot; split <;> rfl
@[simp] theorem Crew.since0_setSlot (c : Crew) (n : Nat) (x : PcSlot) : (c.setSlot n x).since0 = c.since0 := by
  unfold Crew.setSlot; split <;> rfl
@[simp] theorem Crew.since1_setSlot (c : Crew) (n : Nat) (x : PcSlot) : (c.setSlot n x).since1 = c.since1 := by
  unfold Crew.setSlot; split <;> rfl
@[simp] theorem Crew.promoted_setSlot (c : Crew) (n : Nat) (x : PcSlot) : (c.setSlot n x).promoted = c.promoted := by
  unfold Crew.setSlot; split <;> rfl
@[simp] theorem Crew.bad_setSlot (c : Crew) (n : Nat) (x : PcSlot) : (c.setSlot n x).bad = c.bad := by
  unfold Crew.setSlot; split <;> rfl
@[simp] theorem Crew.kept_setSlot (c : Crew) (n : Nat) (x : PcSlot) : (c.setSlot n x).kept = c.kept := by
  unfold Crew.setSlot; split <;> rfl
@[simp] theorem Crew.aopBad_setSlot (c : Crew) (n : Nat) (x : PcSlot) : (c.setSlot n x).aopBad = c.aopBad := by
  unfold Crew.setSlot; split <;> rfl
@[simp] theorem Crew.inbox_setSlot (c : Crew) (n : Nat) (x : PcSlot) : (c.setSlot n x).inbox = c.inbox := by
  unfold Crew.setSlot; split <;> rfl

@[simp] theorem Crew.slot_setSlot (c : Crew) (n : Nat) (x : PcSlot) : (c.setSlot n x).slot n = x := by
  unfold Crew.slot Crew.setSlot; split <;> rfl

/-- The other slot is as before. -/
theorem Crew.slot_setSlot_other (c : Crew) {n m : Nat} (x : PcSlot) (hn : n < 2) (hm : m < 2) (h : m ≠ n) :
    (c.setSlot n x).slot m = c.slot m := by
  have : (n = 0 ∧ m = 1) ∨ (n = 1 ∧ m = 0) := by omega
  rcases this with ⟨rfl, rfl⟩ | ⟨rfl, rfl⟩ <;> rfl

@[simp] theorem Eng.saved_putS (e : Eng) (n : Nat) (x : DWord) : (e.putS n x).saved = e.saved := rfl
@[simp] theorem Eng.gen_putS (e : Eng) (n : Nat) (x : DWord) : (e.putS n x).gen = e.gen := rfl
@[simp] theorem Eng.home_putS (e : Eng) (n : Nat) (x : DWord) : (e.putS n x).home = e.home := rfl
@[simp] theorem Eng.running_putS (e : Eng) (n : Nat) (x : DWord) : (e.putS n x).running = e.running := rfl
@[simp] theorem Eng.rk_putS (e : Eng) (n : Nat) (x : DWord) : (e.putS n x).rk = e.rk := rfl
@[simp] theorem Eng.team_putS (e : Eng) (n : Nat) (x : DWord) : (e.putS n x).team = e.team := rfl
@[simp] theorem Eng.crew_putS (e : Eng) (n : Nat) (x : DWord) : (e.putS n x).crew = e.crew := rfl
@[simp] theorem Eng.core_putS (e : Eng) (n : Nat) (x : DWord) : (e.putS n x).core = e.core := rfl
@[simp] theorem Eng.pc_putS (e : Eng) (n : Nat) (x : DWord) : (e.putS n x).pc = e.pc := rfl
@[simp] theorem Eng.p_putS (e : Eng) (n : Nat) (x : DWord) : (e.putS n x).p = e.p := rfl
@[simp] theorem Eng.mode_putS (e : Eng) (n : Nat) (x : DWord) : (e.putS n x).mode = e.mode := rfl
@[simp] theorem Eng.entry_putS (e : Eng) (n : Nat) (x : DWord) : (e.putS n x).entry = e.entry := rfl
@[simp] theorem Eng.off_putS (e : Eng) (n : Nat) (x : DWord) : (e.putS n x).off = e.off := rfl
@[simp] theorem Eng.rets_putS (e : Eng) (n : Nat) (x : DWord) : (e.putS n x).rets = e.rets := rfl
@[simp] theorem Eng.tiles_putS (e : Eng) (n : Nat) (x : DWord) : (e.putS n x).tiles = e.tiles := rfl
@[simp] theorem Eng.accs_putS (e : Eng) (n : Nat) (x : DWord) : (e.putS n x).accs = e.accs := rfl
@[simp] theorem Eng.deps_putS (e : Eng) (n : Nat) (x : DWord) : (e.putS n x).deps = e.deps := rfl
@[simp] theorem Eng.lfsr_putS (e : Eng) (n : Nat) (x : DWord) : (e.putS n x).lfsr = e.lfsr := rfl
@[simp] theorem Eng.xops_putS (e : Eng) (n : Nat) (x : DWord) : (e.putS n x).xops = e.xops := rfl
@[simp] theorem Eng.ents_putS (e : Eng) (n : Nat) (x : DWord) : (e.putS n x).ents = e.ents := rfl
@[simp] theorem Eng.fences_putS (e : Eng) (n : Nat) (x : DWord) : (e.putS n x).fences = e.fences := rfl
@[simp] theorem Eng.park_putS (e : Eng) (n : Nat) (x : DWord) : (e.putS n x).park = e.park := rfl
@[simp] theorem Eng.wait_putS (e : Eng) (n : Nat) (x : DWord) : (e.putS n x).wait = e.wait := rfl
@[simp] theorem Eng.last_putS (e : Eng) (n : Nat) (x : DWord) : (e.putS n x).last = e.last := rfl
@[simp] theorem Eng.pend_putS (e : Eng) (n : Nat) (x : DWord) : (e.putS n x).pend = e.pend := rfl
@[simp] theorem Eng.saved_putP (e : Eng) (n : Nat) (b : Bool) : (e.putP n b).saved = e.saved := rfl
@[simp] theorem Eng.gen_putP (e : Eng) (n : Nat) (b : Bool) : (e.putP n b).gen = e.gen := rfl
@[simp] theorem Eng.home_putP (e : Eng) (n : Nat) (b : Bool) : (e.putP n b).home = e.home := rfl
@[simp] theorem Eng.running_putP (e : Eng) (n : Nat) (b : Bool) : (e.putP n b).running = e.running := rfl
@[simp] theorem Eng.rk_putP (e : Eng) (n : Nat) (b : Bool) : (e.putP n b).rk = e.rk := rfl
@[simp] theorem Eng.team_putP (e : Eng) (n : Nat) (b : Bool) : (e.putP n b).team = e.team := rfl
@[simp] theorem Eng.crew_putP (e : Eng) (n : Nat) (b : Bool) : (e.putP n b).crew = e.crew := rfl
@[simp] theorem Eng.core_putP (e : Eng) (n : Nat) (b : Bool) : (e.putP n b).core = e.core := rfl
@[simp] theorem Eng.pc_putP (e : Eng) (n : Nat) (b : Bool) : (e.putP n b).pc = e.pc := rfl
@[simp] theorem Eng.s_putP (e : Eng) (n : Nat) (b : Bool) : (e.putP n b).s = e.s := rfl
@[simp] theorem Eng.mode_putP (e : Eng) (n : Nat) (b : Bool) : (e.putP n b).mode = e.mode := rfl
@[simp] theorem Eng.entry_putP (e : Eng) (n : Nat) (b : Bool) : (e.putP n b).entry = e.entry := rfl
@[simp] theorem Eng.off_putP (e : Eng) (n : Nat) (b : Bool) : (e.putP n b).off = e.off := rfl
@[simp] theorem Eng.rets_putP (e : Eng) (n : Nat) (b : Bool) : (e.putP n b).rets = e.rets := rfl
@[simp] theorem Eng.tiles_putP (e : Eng) (n : Nat) (b : Bool) : (e.putP n b).tiles = e.tiles := rfl
@[simp] theorem Eng.accs_putP (e : Eng) (n : Nat) (b : Bool) : (e.putP n b).accs = e.accs := rfl
@[simp] theorem Eng.deps_putP (e : Eng) (n : Nat) (b : Bool) : (e.putP n b).deps = e.deps := rfl
@[simp] theorem Eng.lfsr_putP (e : Eng) (n : Nat) (b : Bool) : (e.putP n b).lfsr = e.lfsr := rfl
@[simp] theorem Eng.xops_putP (e : Eng) (n : Nat) (b : Bool) : (e.putP n b).xops = e.xops := rfl
@[simp] theorem Eng.ents_putP (e : Eng) (n : Nat) (b : Bool) : (e.putP n b).ents = e.ents := rfl
@[simp] theorem Eng.fences_putP (e : Eng) (n : Nat) (b : Bool) : (e.putP n b).fences = e.fences := rfl
@[simp] theorem Eng.park_putP (e : Eng) (n : Nat) (b : Bool) : (e.putP n b).park = e.park := rfl
@[simp] theorem Eng.wait_putP (e : Eng) (n : Nat) (b : Bool) : (e.putP n b).wait = e.wait := rfl
@[simp] theorem Eng.last_putP (e : Eng) (n : Nat) (b : Bool) : (e.putP n b).last = e.last := rfl
@[simp] theorem Eng.pend_putP (e : Eng) (n : Nat) (b : Bool) : (e.putP n b).pend = e.pend := rfl

@[simp] theorem State.eng_setEng (s : State) (k : Nat) (e : Eng) : (s.setEng k e).eng k = some e := by
  simp [State.eng, State.setEng]

@[simp] theorem State.setEng_setEng (s : State) (k : Nat) (e f : Eng) : (s.setEng k e).setEng k f = s.setEng k f := by
  simp [State.setEng]

theorem State.eng_setEng_other (s : State) {k j : Nat} (e : Eng) (h : j ≠ k) : (s.setEng k e).eng j = s.eng j := by
  simp [State.eng, State.setEng, Tab.find_put_other _ _ h]

@[simp] theorem State.crew_setEng (s : State) (k j : Nat) (e : Eng) : (s.setEng k e).crew j = s.crew j := rfl
@[simp] theorem State.crew_setMem (s : State) (m : MemSys) (j : Nat) : (s.setMem m).crew j = s.crew j := rfl
@[simp] theorem State.region_setCrew (s : State) (id rk : Nat) (c : Crew) : (s.setCrew id c).region rk = s.region rk := rfl
@[simp] theorem State.team_setCrew (s : State) (id rk t : Nat) (c : Crew) : (s.setCrew id c).team rk t = s.team rk t := rfl

end Sys2Proof.Machine
end

