-- ==== Sys2Proof/Laws/Capacity.lean ====
section
/-! SUPPORT. What the capacities can change: lines, L2 lines, trees and TLBs, the bytes that a victim writes home, and the
error marks of a second failed bank. -/

namespace Sys2Proof.Machine

/-- States that differ in what `State.tidy` may change: memory system and crews. -/
def State.outside (s t : State) : Prop :=
  t.turns = s.turns ∧ t.cur = s.cur ∧ t.clock = s.clock ∧ t.freeCount = s.freeCount ∧ t.uid = s.uid ∧ t.engs = s.engs ∧
  t.forks = s.forks ∧ t.cores = s.cores ∧ t.teams = s.teams ∧ t.regions = s.regions ∧ t.strikeq = s.strikeq ∧
  t.admits = s.admits ∧ t.port = s.port ∧ t.power = s.power ∧ t.pool = s.pool ∧ t.fab = s.fab ∧ t.mil = s.mil

theorem State.outside.refl (s : State) : s.outside s := by simp [State.outside]

theorem State.outside.trans {a b c : State} (h : a.outside b) (g : b.outside c) : a.outside c := by
  simp_all [State.outside]

/-- Another memory system over canonical memories. -/
theorem State.canonical_of {s t : State} (o : s.outside t) (hs : s.canonical) (hm : t.mem.canonical) : t.canonical := by
  obtain ⟨-, -, -, -, ht⟩ := hs
  have hp : t.pool = s.pool := by simp_all [State.outside]
  have hq : t.teams = s.teams := by simp_all [State.outside]
  exact ⟨hm.1, hm.2.1, hm.2.2.1, hm.2.2.2, by rw [hp, hq]; exact ht⟩

theorem State.canonical_mem {s : State} (hs : s.canonical) : s.mem.canonical := ⟨hs.1, hs.2.1, hs.2.2.1, hs.2.2.2.1⟩

/-- A line that is given up leaves its holder; its bytes go where R210 and R386 send them. -/
theorem evictLine_keeps (s : State) (h ln : Nat) : s.outside (s.evictLine h ln) ∧ (s.evictLine h ln).crews = s.crews ∧
    (s.mem.canonical → (s.evictLine h ln).mem.canonical) := by
  unfold State.evictLine
  split
  · exact ⟨.refl _, rfl, id⟩
  · split
    · exact ⟨.refl _, rfl, MemSys.canonical_of_same (MemSys.delLine_same ..)⟩
    · split
      · exact ⟨.refl _, rfl, fun hm => MemSys.extSnoop_canonical hm _ _ _⟩
      · split
        · exact ⟨.refl _, rfl, MemSys.canonical_of_same ((MemSys.writeHome_same ..).trans (MemSys.delLine_same ..))⟩
        · exact ⟨.refl _, rfl, MemSys.canonical_of_same (MemSys.evictL1_same ..)⟩

theorem trimSet_keeps (s : State) (k : Nat) : s.outside (s.trimSet k) ∧ (s.trimSet k).crews = s.crews ∧
    (s.mem.canonical → (s.trimSet k).mem.canonical) := by
  unfold State.trimSet
  simp only
  split
  · exact ⟨.refl _, rfl, id⟩
  · split
    · exact evictLine_keeps ..
    · exact ⟨.refl _, rfl, id⟩

theorem trimSets_keep (ks : List Nat) (s : State) : s.outside (ks.foldl State.trimSet s) ∧ (ks.foldl State.trimSet s).crews = s.crews ∧
    (s.mem.canonical → (ks.foldl State.trimSet s).mem.canonical) := by
  induction ks generalizing s with
  | nil => exact ⟨.refl _, rfl, id⟩
  | cons k r ih =>
    obtain ⟨a, b, c⟩ := trimSet_keeps s k
    obtain ⟨x, y, z⟩ := ih (s.trimSet k)
    exact ⟨a.trans x, y.trans b, z ∘ c⟩

theorem trimTree_same (cut : Bool) (m : MemSys) (k : Nat) : m.sameBytes (m.trimTree cut k) := by
  unfold MemSys.trimTree
  simp only
  split
  · exact .refl _
  · split
    · exact MemSys.evictEntry_same ..
    · exact .refl _

theorem trimL2_canonical {m : MemSys} (hm : m.canonical) (ln : Nat) : (m.trimL2 ln).canonical := by
  unfold MemSys.trimL2
  simp only
  split
  · exact hm
  · split
    · exact MemSys.dropL2_canonical hm _
    · exact hm

/-- A second failed bank marks words and takes none. -/
theorem deadStores_keeps (s : State) : s.outside s.deadStores ∧ s.mem.sameBytes s.deadStores.mem := by
  unfold State.deadStores
  simp only
  split <;> exact ⟨.refl _, .refl _⟩

/-- The capacities leave all but the memory system and the crews. -/
theorem tidy_outside (s : State) : s.outside s.tidy :=
  (deadStores_keeps s).1.trans ((trimSets_keep ..).1.trans (.refl _))

/-- The capacities keep every memory in its canonical form. -/
theorem tidy_canonical {s : State} (hs : s.canonical) : s.tidy.canonical := by
  refine State.canonical_of (tidy_outside s) hs ?_
  have h1 : s.deadStores.mem.canonical := MemSys.canonical_of_same (deadStores_keeps s).2 (State.canonical_mem hs)
  have h2 := (trimSets_keep (s.deadStores.mem.lines.map Prod.fst) s.deadStores).2.2 h1
  exact MemSys.canonical_foldl (fun m k h => trimL2_canonical h k) _
    (MemSys.canonical_foldl (fun m k h => MemSys.canonical_of_same (trimTree_same ..) h) _ h2)

/-- A step's outcome keeps the memories canonical when its turn's outcome does. -/
theorem tidied_canonical {o : Host.Outcome State Fault Refusal} {t : State} (ho : ∀ s, o = .next s → s.canonical)
    (h : tidied o = .next t) : t.canonical := by
  unfold tidied at h
  split at h
  · injection h with h
    exact h ▸ tidy_canonical (ho _ rfl)
  · exact ho _ h

/-- A grant changes the power registers' part alone. -/
@[simp] theorem crews_useGrant (s : State) (a : Agent) : (s.useGrant a).crews = s.crews := rfl
@[simp] theorem engs_useGrant (s : State) (a : Agent) : (s.useGrant a).engs = s.engs := rfl
@[simp] theorem mem_useGrant (s : State) (a : Agent) : (s.useGrant a).mem = s.mem := rfl
@[simp] theorem cores_useGrant (s : State) (a : Agent) : (s.useGrant a).cores = s.cores := rfl
@[simp] theorem teams_useGrant (s : State) (a : Agent) : (s.useGrant a).teams = s.teams := rfl
@[simp] theorem regions_useGrant (s : State) (a : Agent) : (s.useGrant a).regions = s.regions := rfl
@[simp] theorem pool_useGrant (s : State) (a : Agent) : (s.useGrant a).pool = s.pool := rfl

end Sys2Proof.Machine
end

