-- ==== Sys2Proof/Laws/Decode.lean ====
section
/-! SUPPORT. Fields of packed words and words of their fields: for each format and each shape of operands, the decoder's
fields read what the encoder packed, and packing the fields of a word gives the word. -/

namespace Sys2Proof

/-- A field of the low part of a packed word. -/
theorem fld_low {m n : Nat} (x : BitVec m) (y : BitVec n) (lo k : Nat) (h : lo + k ≤ n) :
    (x ++ y).extractLsb' lo k = y.extractLsb' lo k := BitVec.extractLsb'_append_eq_of_add_le h

/-- A field of the high part of a packed word. -/
theorem fld_high {m n : Nat} (x : BitVec m) (y : BitVec n) (lo k : Nat) (h : n ≤ lo) :
    (x ++ y).extractLsb' lo k = x.extractLsb' (lo - n) k := BitVec.extractLsb'_append_eq_of_le h

@[simp] theorem opc_packA (op : BitVec 7) (d a b : BitVec 5) (e : BitVec 3) (h : BitVec 2) (f : BitVec 5) : opc (packA op d a b e h f) = op := by
  unfold opc packA fld
  repeat first | rw [fld_high _ _ _ _ (by decide)] | rw [fld_low _ _ _ _ (by decide)]
  simp
@[simp] theorem fD_packA (op : BitVec 7) (d a b : BitVec 5) (e : BitVec 3) (h : BitVec 2) (f : BitVec 5) : fD (packA op d a b e h f) = d := by
  unfold fD packA fld
  repeat first | rw [fld_high _ _ _ _ (by decide)] | rw [fld_low _ _ _ _ (by decide)]
  simp
@[simp] theorem fA_packA (op : BitVec 7) (d a b : BitVec 5) (e : BitVec 3) (h : BitVec 2) (f : BitVec 5) : fA (packA op d a b e h f) = a := by
  unfold fA packA fld
  repeat first | rw [fld_high _ _ _ _ (by decide)] | rw [fld_low _ _ _ _ (by decide)]
  simp
@[simp] theorem fB_packA (op : BitVec 7) (d a b : BitVec 5) (e : BitVec 3) (h : BitVec 2) (f : BitVec 5) : fB (packA op d a b e h f) = b := by
  unfold fB packA fld
  repeat first | rw [fld_high _ _ _ _ (by decide)] | rw [fld_low _ _ _ _ (by decide)]
  simp
@[simp] theorem fE_packA (op : BitVec 7) (d a b : BitVec 5) (e : BitVec 3) (h : BitVec 2) (f : BitVec 5) : fE (packA op d a b e h f) = e := by
  unfold fE packA fld
  repeat first | rw [fld_high _ _ _ _ (by decide)] | rw [fld_low _ _ _ _ (by decide)]
  simp
@[simp] theorem fH_packA (op : BitVec 7) (d a b : BitVec 5) (e : BitVec 3) (h : BitVec 2) (f : BitVec 5) : fH (packA op d a b e h f) = h := by
  unfold fH packA fld
  repeat first | rw [fld_high _ _ _ _ (by decide)] | rw [fld_low _ _ _ _ (by decide)]
  simp
@[simp] theorem fF_packA (op : BitVec 7) (d a b : BitVec 5) (e : BitVec 3) (h : BitVec 2) (f : BitVec 5) : fF (packA op d a b e h f) = f := by
  unfold fF packA fld
  repeat first | rw [fld_high _ _ _ _ (by decide)] | rw [fld_low _ _ _ _ (by decide)]
  simp
@[simp] theorem opc_packL (op : BitVec 7) (d a b : BitVec 5) (e : BitVec 3) (l : BitVec 4) (f : BitVec 3) : opc (packL op d a b e l f) = op := by
  unfold opc packL fld
  repeat first | rw [fld_high _ _ _ _ (by decide)] | rw [fld_low _ _ _ _ (by decide)]
  simp
@[simp] theorem fD_packL (op : BitVec 7) (d a b : BitVec 5) (e : BitVec 3) (l : BitVec 4) (f : BitVec 3) : fD (packL op d a b e l f) = d := by
  unfold fD packL fld
  repeat first | rw [fld_high _ _ _ _ (by decide)] | rw [fld_low _ _ _ _ (by decide)]
  simp
@[simp] theorem fA_packL (op : BitVec 7) (d a b : BitVec 5) (e : BitVec 3) (l : BitVec 4) (f : BitVec 3) : fA (packL op d a b e l f) = a := by
  unfold fA packL fld
  repeat first | rw [fld_high _ _ _ _ (by decide)] | rw [fld_low _ _ _ _ (by decide)]
  simp
@[simp] theorem fB_packL (op : BitVec 7) (d a b : BitVec 5) (e : BitVec 3) (l : BitVec 4) (f : BitVec 3) : fB (packL op d a b e l f) = b := by
  unfold fB packL fld
  repeat first | rw [fld_high _ _ _ _ (by decide)] | rw [fld_low _ _ _ _ (by decide)]
  simp
@[simp] theorem fE_packL (op : BitVec 7) (d a b : BitVec 5) (e : BitVec 3) (l : BitVec 4) (f : BitVec 3) : fE (packL op d a b e l f) = e := by
  unfold fE packL fld
  repeat first | rw [fld_high _ _ _ _ (by decide)] | rw [fld_low _ _ _ _ (by decide)]
  simp
@[simp] theorem fL_packL (op : BitVec 7) (d a b : BitVec 5) (e : BitVec 3) (l : BitVec 4) (f : BitVec 3) : fL (packL op d a b e l f) = l := by
  unfold fL packL fld
  repeat first | rw [fld_high _ _ _ _ (by decide)] | rw [fld_low _ _ _ _ (by decide)]
  simp
@[simp] theorem fld_0_3_packL (op : BitVec 7) (d a b : BitVec 5) (e : BitVec 3) (l : BitVec 4) (f : BitVec 3) : fld (packL op d a b e l f) 0 3 = f := by
  unfold fld packL
  repeat first | rw [fld_high _ _ _ _ (by decide)] | rw [fld_low _ _ _ _ (by decide)]
  simp
@[simp] theorem opc_packI (op : BitVec 7) (d : BitVec 5) (i : BitVec 20) : opc (packI op d i) = op := by
  unfold opc packI fld
  repeat first | rw [fld_high _ _ _ _ (by decide)] | rw [fld_low _ _ _ _ (by decide)]
  simp
@[simp] theorem fD_packI (op : BitVec 7) (d : BitVec 5) (i : BitVec 20) : fD (packI op d i) = d := by
  unfold fD packI fld
  repeat first | rw [fld_high _ _ _ _ (by decide)] | rw [fld_low _ _ _ _ (by decide)]
  simp
@[simp] theorem fI_packI (op : BitVec 7) (d : BitVec 5) (i : BitVec 20) : fI (packI op d i) = i := by
  unfold fI packI fld
  repeat first | rw [fld_high _ _ _ _ (by decide)] | rw [fld_low _ _ _ _ (by decide)]
  simp
@[simp] theorem opc_packE (op : BitVec 7) (d a b : BitVec 5) (i : BitVec 10) : opc (packE op d a b i) = op := by
  unfold opc packE fld
  repeat first | rw [fld_high _ _ _ _ (by decide)] | rw [fld_low _ _ _ _ (by decide)]
  simp
@[simp] theorem fD_packE (op : BitVec 7) (d a b : BitVec 5) (i : BitVec 10) : fD (packE op d a b i) = d := by
  unfold fD packE fld
  repeat first | rw [fld_high _ _ _ _ (by decide)] | rw [fld_low _ _ _ _ (by decide)]
  simp
@[simp] theorem fA_packE (op : BitVec 7) (d a b : BitVec 5) (i : BitVec 10) : fA (packE op d a b i) = a := by
  unfold fA packE fld
  repeat first | rw [fld_high _ _ _ _ (by decide)] | rw [fld_low _ _ _ _ (by decide)]
  simp
@[simp] theorem fB_packE (op : BitVec 7) (d a b : BitVec 5) (i : BitVec 10) : fB (packE op d a b i) = b := by
  unfold fB packE fld
  repeat first | rw [fld_high _ _ _ _ (by decide)] | rw [fld_low _ _ _ _ (by decide)]
  simp
@[simp] theorem fld_0_10_packE (op : BitVec 7) (d a b : BitVec 5) (i : BitVec 10) : fld (packE op d a b i) 0 10 = i := by
  unfold fld packE
  repeat first | rw [fld_high _ _ _ _ (by decide)] | rw [fld_low _ _ _ _ (by decide)]
  simp
@[simp] theorem opc_packJ (op : BitVec 7) (p : BitVec 3) (i : Bool) (o : BitVec 21) : opc (packJ op p i o) = op := by
  unfold opc packJ fld
  repeat first | rw [fld_high _ _ _ _ (by decide)] | rw [fld_low _ _ _ _ (by decide)]
  simp
@[simp] theorem fld_22_3_packJ (op : BitVec 7) (p : BitVec 3) (i : Bool) (o : BitVec 21) : fld (packJ op p i o) 22 3 = p := by
  unfold fld packJ
  repeat first | rw [fld_high _ _ _ _ (by decide)] | rw [fld_low _ _ _ _ (by decide)]
  simp
@[simp] theorem fld_0_21_packJ (op : BitVec 7) (p : BitVec 3) (i : Bool) (o : BitVec 21) : fld (packJ op p i o) 0 21 = o := by
  unfold fld packJ
  repeat first | rw [fld_high _ _ _ _ (by decide)] | rw [fld_low _ _ _ _ (by decide)]
  simp
@[simp] theorem opc_packX (op : BitVec 7) (x y z : BitVec 4) (s : BitVec 3) (m : BitVec 8) (v : BitVec 2) : opc (packX op x y z s m v) = op := by
  unfold opc packX fld
  repeat first | rw [fld_high _ _ _ _ (by decide)] | rw [fld_low _ _ _ _ (by decide)]
  simp
@[simp] theorem fld_21_4_packX (op : BitVec 7) (x y z : BitVec 4) (s : BitVec 3) (m : BitVec 8) (v : BitVec 2) : fld (packX op x y z s m v) 21 4 = x := by
  unfold fld packX
  repeat first | rw [fld_high _ _ _ _ (by decide)] | rw [fld_low _ _ _ _ (by decide)]
  simp
@[simp] theorem fld_17_4_packX (op : BitVec 7) (x y z : BitVec 4) (s : BitVec 3) (m : BitVec 8) (v : BitVec 2) : fld (packX op x y z s m v) 17 4 = y := by
  unfold fld packX
  repeat first | rw [fld_high _ _ _ _ (by decide)] | rw [fld_low _ _ _ _ (by decide)]
  simp
@[simp] theorem fld_13_4_packX (op : BitVec 7) (x y z : BitVec 4) (s : BitVec 3) (m : BitVec 8) (v : BitVec 2) : fld (packX op x y z s m v) 13 4 = z := by
  unfold fld packX
  repeat first | rw [fld_high _ _ _ _ (by decide)] | rw [fld_low _ _ _ _ (by decide)]
  simp
@[simp] theorem fld_10_3_packX (op : BitVec 7) (x y z : BitVec 4) (s : BitVec 3) (m : BitVec 8) (v : BitVec 2) : fld (packX op x y z s m v) 10 3 = s := by
  unfold fld packX
  repeat first | rw [fld_high _ _ _ _ (by decide)] | rw [fld_low _ _ _ _ (by decide)]
  simp
@[simp] theorem fld_2_8_packX (op : BitVec 7) (x y z : BitVec 4) (s : BitVec 3) (m : BitVec 8) (v : BitVec 2) : fld (packX op x y z s m v) 2 8 = m := by
  unfold fld packX
  repeat first | rw [fld_high _ _ _ _ (by decide)] | rw [fld_low _ _ _ _ (by decide)]
  simp
@[simp] theorem fld_0_2_packX (op : BitVec 7) (x y z : BitVec 4) (s : BitVec 3) (m : BitVec 8) (v : BitVec 2) : fld (packX op x y z s m v) 0 2 = v := by
  unfold fld packX
  repeat first | rw [fld_high _ _ _ _ (by decide)] | rw [fld_low _ _ _ _ (by decide)]
  simp

theorem packA_fields (w : Word) : packA (opc w) (fD w) (fA w) (fB w) (fE w) (fH w) (fF w) = w := by
  ext i hi
  simp [packA, opc, fD, fA, fB, fE, fH, fF, fld]
  grind
theorem packL_fields (w : Word) : packL (opc w) (fD w) (fA w) (fB w) (fE w) (fL w) (fld w 0 3) = w := by
  ext i hi
  simp [packL, opc, fD, fA, fB, fE, fL, fld]
  grind
theorem packI_fields (w : Word) : packI (opc w) (fD w) (fI w) = w := by
  ext i hi
  simp [packI, opc, fD, fI, fld]
  grind
theorem packE_fields (w : Word) : packE (opc w) (fD w) (fA w) (fB w) (fld w 0 10) = w := by
  ext i hi
  simp [packE, opc, fD, fA, fB, fld]
  grind
theorem packX_fields (w : Word) : packX (opc w) (fld w 21 4) (fld w 17 4) (fld w 13 4) (fld w 10 3) (fld w 2 8) (fld w 0 2) = w := by
  ext i hi
  simp [packX, opc, fld]
  grind

/-- One bit as a field. -/
theorem ofBool_bitOf (w : Word) (n : Nat) : BitVec.ofBool (bitOf w n) = fld w n 1 := by
  have h : ∀ x : BitVec 1, BitVec.ofBool (x == 1#1) = x := by decide
  exact h _

-- Operand shapes.

theorem opc_encU (op : BitVec 7) (f : BitVec 4) (o : OpU) : opc (encU op f o) = op := by simp [encU]

theorem opU_encU (op : BitVec 7) (f : BitVec 4) (o : OpU) : opU (encU op f o) = o := by
  obtain ⟨d, a, b, e, h, k⟩ := o
  simp [opU, encU, bitOf]
  cases k <;> simp [packA, fld]
  all_goals
    repeat first | rw [fld_high _ _ _ _ (by decide)] | rw [fld_low _ _ _ _ (by decide)]
    decide

theorem fn_encU (op : BitVec 7) (f : BitVec 4) (o : OpU) : fld (encU op f o) 0 4 = f := by
  unfold encU packA fld
  repeat first | rw [fld_high _ _ _ _ (by decide)] | rw [fld_low _ _ _ _ (by decide)]
  simp

theorem encU_opU (w : Word) : encU (opc w) (fld w 0 4) (opU w) = w := by
  simp only [encU, opU, ofBool_bitOf]
  ext i hi; simp [packA, opc, fD, fA, fB, fE, fH, fld]; grind

theorem opV_encV (op : BitVec 7) (f : BitVec 4) (o : OpV) : opV (encV op f o) = o := by
  obtain ⟨d, a, e, h⟩ := o
  simp [opV, encV, bitOf]
  cases h <;> simp [packA, fld]
  all_goals
    repeat first | rw [fld_high _ _ _ _ (by decide)] | rw [fld_low _ _ _ _ (by decide)]
    decide

theorem opL_encL (op : BitVec 7) (f : BitVec 3) (o : OpL) : opL (encL op f o) = o := by simp [opL, encL]

theorem opLB_encLB (op : BitVec 7) (f : BitVec 3) (o : OpLB) : opLB (encLB op f o) = o := by simp [opLB, encLB]

theorem op3_enc3 (op : BitVec 7) (f : BitVec 5) (o : Op3) : op3 (enc3 op f o) = o := by simp [op3, enc3]

theorem op2_enc2 (op : BitVec 7) (f : BitVec 5) (o : Op2) : op2 (enc2 op f o) = o := by simp [op2, enc2]

theorem opSy_encSy (op : BitVec 7) (f : BitVec 3) (o : OpSy) : opSy (encSy op f o) = o := by simp [opSy, encSy]

theorem opAt_encAt (op : BitVec 7) (o : OpAt) : opAt (encAt op o) = o := by
  obtain ⟨d, a, b, l, n, k, w⟩ := o
  simp [opAt, encAt, bitOf]
  cases n <;> cases k <;> cases w <;> simp [packL, fld]
  all_goals
    repeat first | rw [fld_high _ _ _ _ (by decide)] | rw [fld_low _ _ _ _ (by decide)]
    decide

theorem opE_encE (op : BitVec 7) (o : OpE) : opE (encE op o) = o := by
  obtain ⟨d, a, b, g, s⟩ := o
  simp [opE, encE, bitOf]
  cases g <;> simp [packE, fld, fF]
  all_goals
    repeat first | rw [fld_high _ _ _ _ (by decide)] | rw [fld_low _ _ _ _ (by decide)]
    simp

theorem encL_opL (w : Word) (h : fB w = 0) : encL (opc w) (fld w 0 3) (opL w) = w := by
  have := packL_fields w; rw [h] at this; exact this

theorem encLB_opLB (w : Word) : encLB (opc w) (fld w 0 3) (opLB w) = w := packL_fields w

theorem enc3_op3 (w : Word) (h : fE w = 0) (g : fH w = 0) : enc3 (opc w) (fF w) (op3 w) = w := by
  have := packA_fields w; rw [h, g] at this; exact this

theorem opCache_encCache (f : BitVec 3) (o : OpCache) : opCache (encCache f o) = o := by
  obtain ⟨k, s, a, b⟩ := o
  simp [opCache, encCache, bitOf]
  cases k <;> simp [packL, fld]
  all_goals
    repeat first | rw [fld_high _ _ _ _ (by decide)] | rw [fld_low _ _ _ _ (by decide)]
    simp
    try decide

end Sys2Proof
end

