-- ==== Sys2Proof/Laws/Issue.lean ====
section
/-! SUPPORT. What the issue of one word does, once for every meaning: register words, words with an effect on the machine,
engine words. -/

namespace Sys2Proof.Machine

variable {s : State} {id n : Nat} {c : Crew} {h : Heat}

@[simp] theorem State.crew_setCrew_same (s : State) (id : Nat) (c : Crew) : (s.setCrew id c).crew id = some c := by
  simp [State.crew, State.setCrew]

theorem State.crew_setCrew_other (s : State) {id j : Nat} (c : Crew) (hj : j ≠ id) : (s.setCrew id c).crew j = s.crew j := by
  simp [State.crew, State.setCrew, Tab.find_put_other _ _ hj]

@[simp] theorem State.setCrew_setCrew (s : State) (id : Nat) (c d : Crew) : (s.setCrew id c).setCrew id d = s.setCrew id d := by
  simp [State.setCrew]

theorem State.updCrew_of {s : State} {id : Nat} {c : Crew} (hc : s.crew id = some c) (f : Crew → Crew) :
    s.updCrew id f = s.setCrew id (f c) := by
  simp [State.updCrew, State.setCrew, hc]

@[simp] theorem State.updCrew_setCrew (s : State) (id : Nat) (c : Crew) (f : Crew → Crew) :
    (s.setCrew id c).updCrew id f = s.setCrew id (f c) := by
  rw [State.updCrew_of (State.crew_setCrew_same s id c), State.setCrew_setCrew]

theorem Crew.drain_of_heat (hh : c.heat = some h) : c.drain = c := by simp [Crew.drain, hh]

theorem Crew.drain_of_none (hi : c.inbox = []) : c.drain = c := by
  unfold Crew.drain
  split
  · rfl
  · cases c; simp_all

theorem Crew.settle_of_none (hd : c.drain = c) (hn : c.named = []) : c.settle = c := by
  simp [Crew.settle, hd, hn]

theorem InHeat.issuer (H : InHeat s id n c h) : s.issuer id = some (s.setCrew id c, c) := by
  simp [State.issuer, H.crew, Crew.settle_of_none (Crew.drain_of_heat H.heat) H.named]

theorem Idle.issuer (H : Idle s id n c) : s.issuer id = some (s.setCrew id c, c) := by
  simp [State.issuer, H.crew, Crew.settle_of_none (Crew.drain_of_none H.inbox) H.named]

/-- A word of the open heat that completes: its effect, the flags it sets, and the next word. -/
theorem crewWord_ok (H : InHeat s id n c h) {eff : Eff} {s' : State} {f : Flags}
    (he : eff (s.setCrew id c) id c h = .ok (s', f)) (hq : h.admits f) :
    s.crewWord true eff =
      .next (match (s'.crew id).bind (fun c => c.heat.bind (fun h => h.met (fun p => decide (p.left ≤ 1)))) with
        | some (p, m) => s'.raiseMet id n p m
        | none => s'.updCrew id (fun c => (match c.heat with
          | some h => { c with heat := some (h.flag f) }
          | none => c).advance)) := by
  have h1 : ¬ (23 ≤ h.off) := by have := H.room; omega
  have hq' : arithFlags h.wrk.asw f = 0 := hq
  simp only [State.crewWord, H.cur, H.issuer, State.issueCrew, H.heat, H.slot, H.busy, he, hq']
  simp [h1, H.skip]
  all_goals rfl

theorem admits_zero (h : Heat) : h.admits 0 := by simp [Heat.admits, arithFlags]

/-- A word that sets an enabled flag raises ARITH. -/
theorem crewWord_arith (H : InHeat s id n c h) {eff : Eff} {s' : State} {f : Flags}
    (he : eff (s.setCrew id c) id c h = .ok (s', f)) (hq : ¬h.admits f) :
    s.crewWord true eff = .next (s.arithTrap id n c f) := by
  have h1 : ¬ (23 ≤ h.off) := by have := H.room; omega
  have hq' : arithFlags h.wrk.asw f ≠ 0 := hq
  simp only [State.crewWord, H.cur, H.issuer, State.issueCrew, H.heat, H.slot, H.busy, he]
  simp [h1, H.skip, State.arithTrap]
  exact fun h => absurd h hq'

/-- A word that stops short leaves what its stop says. -/
theorem crewWord_stop (H : InHeat s id n c h) {eff : Eff} {st : Stop} (he : eff (s.setCrew id c) id c h = .error st) :
    s.crewWord true eff = .next ((s.setCrew id c).stopCrew id n st) := by
  have h1 : ¬ (23 ≤ h.off) := by have := H.room; omega
  simp only [State.crewWord, H.cur, H.issuer, State.issueCrew, H.heat, H.slot, H.busy, he]
  simp [h1, H.skip]

/-- An ill-formed word raises ILLEGAL. -/
theorem crewWord_illegal (H : InHeat s id n c h) {eff : Eff} :
    s.crewWord false eff = .next ((s.setCrew id c).raise id n ⟨cILLEGAL, 0, 0⟩ none false) := by
  have h1 : ¬ (23 ≤ h.off) := by have := H.room; omega
  simp only [State.crewWord, H.cur, H.issuer, State.issueCrew, H.heat, H.slot]
  simp [h1, H.skip]

/-- Crews issue the shared words as they issue their own. -/
theorem sharedWord_crew (H : InHeat s id n c h) (wf : Bool) (eff : Eff) (ks : Nat → Bool) (we : Bool) (ee : EngEff) :
    s.sharedWord wf eff ks we ee = s.crewWord wf eff := by
  simp [State.sharedWord, State.crewWord, H.cur]

/-- One word less in every window leaves at 0 those that end. -/
theorem filter_left_zero (ps : List Pend) :
    (ps.map (fun p => { p with left := p.left - 1 })).filter (fun p => p.left == 0)
      = (ps.filter (fun p => decide (p.left ≤ 1))).map (fun p => { p with left := p.left - 1 }) := by
  rw [List.filter_map]
  congr 1
  apply List.filter_congr
  intro p _
  rw [Bool.eq_iff_iff]
  simp [Function.comp]; omega

theorem filter_left_more (ps : List Pend) :
    (ps.map (fun p => { p with left := p.left - 1 })).filter (fun p => p.left != 0)
      = (ps.filter (fun p => decide (1 < p.left))).map (fun p => { p with left := p.left - 1 }) := by
  rw [List.filter_map]
  congr 1
  apply List.filter_congr
  intro p _
  rw [Bool.eq_iff_iff]
  simp [Function.comp]; omega

theorem met_ending {ps : List Pend} (hp : ∀ p ∈ ps, p.left ≤ 1 → p.got.bad = none) :
    (ps.filter (fun p => decide (p.left ≤ 1))).findSome? (fun p => p.got.bad.map (fun m => (p, m))) = none := by
  rw [List.findSome?_eq_none_iff]
  intro p hq
  obtain ⟨h1, h2⟩ := List.mem_filter.mp hq
  simp [hp p h1 (by simpa using h2)]

/-- What a word that issues leaves of the windows (R116). -/
theorem Heat.age_eq (h : Heat) : h.age = { h with
    wrk := h.wrk.puts h.soon
    en := enablePuts h.en h.soon
    pend := (h.pend.filter (fun p => decide (1 < p.left))).map (fun p => { p with left := p.left - 1 }) } := by
  simp only [Heat.age, filter_left_zero, filter_left_more, Heat.soon, Heat.ending, List.foldl_map, Regs.puts, enablePuts,
    List.foldl_flatMap]

/-- A register word that completes leaves `afterWord`. -/
theorem crewWord_regEff (H : InHeat s id n c h) {la : Nat} {held : Heat → List Nat}
    {f : Crew → Heat → Except Stop Res} {r : Res} (hf : f c h = .ok r) (hq : h.admits r.fl) :
    s.crewWord true (regEff la held f) = .next (s.afterWord id c h la (held h) r.ws r.fl r.lfsr) := by
  obtain ⟨ws, fl, dr⟩ := r
  have he : regEff la held f (s.setCrew id c) id c h = .ok ((s.setCrew id c).setCrew id
      ((c.latched (held h)).emit (match dr with
          | some x => h.drew x
          | none => h) ws la (c.slot h.slot).pc .clean), fl) := by
    simp only [regEff, hf]
    cases dr <;> rfl
  rw [crewWord_ok H he hq]
  have hw := H.windows
  rw [State.setCrew_setCrew, State.crew_setCrew_same, State.updCrew_setCrew]
  have hslot : (h.slot = 0) ∨ ¬ (h.slot = 0) := Decidable.em _
  have e3 := met_ending hw
  by_cases hla : la = 0
  · subst hla
    cases dr <;> rcases hslot with h0 | h0 <;>
      simp [Heat.emit, Crew.emit, Heat.drew, Heat.met, Heat.visible, State.afterWord, Heat.flag, Crew.advance, Heat.age_eq, Heat.soon, Heat.ending, Crew.latched, Crew.setSlot, Crew.slot, vecKeys,
        e3, h0] <;> rfl
  · have hp := Nat.pos_of_ne_zero hla
    cases dr <;> rcases hslot with h0 | h0 <;>
      simp [Heat.emit, Crew.emit, Heat.drew, Heat.met, Heat.visible, State.afterWord, Heat.flag, Crew.advance, Heat.age_eq, Heat.soon, Heat.ending, Crew.latched, Crew.setSlot, Crew.slot, vecKeys,
        e3, h0, hla, hp, List.filter_append] <;> rfl

theorem check_ok {src dst other : List Nat} (R : Readable c h src dst other) :
    c.check h src dst other true true = .ok () := by
  have h1 : h.unread src = false := by
    simp only [Heat.unread, List.any_eq_false]
    intro k hk
    by_cases hk' : 1024 ≤ k
    · simp [hk', R.temps k hk hk']
    · simp [hk']
  have h2 : h.windowed (dst ++ other) = false := by
    simp only [Heat.windowed, List.any_eq_false]
    intro p hp
    simp only [Bool.not_eq_true, List.any_eq_false]
    intro w hw
    have := R.window p hp w hw
    simpa using this
  have h3 : h.tooMany dst = false := by
    have := R.dests
    simp [Heat.tooMany]; omega
  have h4 : (src ++ dst).any c.away = false := by
    simp only [List.any_eq_false]
    intro k hk; simp [R.home k hk]
  have h5 : ¬ (c.ring.cap < (blocksOf (src ++ dst)).length) := by have := R.fits; omega
  have h6 : src.any h.wrk.bad = false := by
    simp only [List.any_eq_false]
    intro k hk; simpa [Regs.bad, R.bank] using R.good k hk
  have h7 : (c.absentIn (src ++ dst)).isEmpty = true := by simp [R.loaded]
  simp [Crew.check, firstStop, h1, h2, h3, h4, h5, h6, h7, R.bank]

end Sys2Proof.Machine
end

