-- ==== Sys2Proof/Laws/Keep.lean ====
section
/-! SUPPORT. What the shared operations leave alone: translations and checks keep every crew; reads, releases, buffering,
sealing and performing stores keep the lookahead windows. With them, a word with an effect ends at `nextWord`. -/

namespace Sys2Proof.Machine

variable {s s' : State} {id n : Nat} {c : Crew} {h : Heat}

/-- The lookahead windows of a crew's open heat. -/
def State.crewPend (s : State) (id : Nat) : Option (List Pend) := (s.crew id).bind (fun c => c.heat.map (fun h => h.pend))

/-- No result whose window ends with the word that issues now met an error. -/
def State.calm (s : State) (id : Nat) : Prop := ∀ ps, s.crewPend id = some ps → ∀ p ∈ ps, p.left ≤ 1 → p.got.bad = none

theorem calm_of_pend (h : s'.crewPend id = s.crewPend id) (hc : s.calm id) : s'.calm id := by
  intro ps hp; exact hc ps (h ▸ hp)

theorem crewPend_of_crews (h : s'.crews = s.crews) (id : Nat) : s'.crewPend id = s.crewPend id := by
  simp [State.crewPend, State.crew, h]

theorem InHeat.calm (H : InHeat s id n c h) : (s.setCrew id c).calm id := by
  intro ps hp
  simp [State.crewPend, H.heat] at hp
  exact hp ▸ H.windows

/-- A word with an effect, in a heat where no window ends now with an error. -/
theorem crewWord_next (H : InHeat s id n c h) {eff : Eff} {s' : State} {f : Flags}
    (he : eff (s.setCrew id c) id c h = .ok (s', f)) (hq : h.admits f) (hc : s'.calm id) :
    s.crewWord true eff = .next (s'.nextWord id f) := by
  rw [crewWord_ok H he hq]
  have : (s'.crew id).bind (fun c => c.heat.bind (fun h => h.met (fun p => decide (p.left ≤ 1)))) = none := by
    cases h1 : s'.crew id with
    | none => rfl
    | some c1 =>
      cases h2 : c1.heat with
      | none => simp [h2]
      | some h3 =>
        have := hc h3.pend (by simp [State.crewPend, h1, h2])
        simp [h2, Heat.met, met_ending this]
  rw [this]
  rfl

-- Operations that keep every crew.

theorem foldl_keep {α β γ : Type} (g : β → γ) (f : β → α → β) (hf : ∀ b a, g (f b a) = g b) (l : List α) (b : β) :
    g (l.foldl f b) = g b := by
  induction l generalizing b with
  | nil => rfl
  | cons a r ih => rw [List.foldl_cons, ih, hf]

theorem lookup_crews (s : State) (w : Who) (va : Nat) : (s.lookup w va).1.crews = s.crews := by
  unfold State.lookup
  dsimp only
  split
  · rfl
  · split <;> rfl

theorem orLeaf_crews (s : State) (w : Who) (x : Xl) (m : Nat) : (s.orLeaf w x m).crews = s.crews := by
  unfold State.orLeaf
  dsimp only
  split <;> rfl

theorem translateC_crews (s : State) (w : Who) (va k : Nat) (b : Bool) : (s.translateC w va k b).1.crews = s.crews := by
  have hl := lookup_crews s w va
  unfold State.translateC
  split
  · rfl
  · split
    · rename_i h; rw [h] at hl; exact hl
    · rename_i h; rw [h] at hl
      dsimp only
      repeat' split
      all_goals first | exact hl | (rw [orLeaf_crews]; exact hl)

theorem vaPlace_crews (s : State) (w : Who) (a : Acc) (f : Option Fail) (b : Bool) : (s.vaPlace w a f b).1.crews = s.crews := by
  have key : ∀ (l : List (Nat × Nat)) (x : State × List Hit × List Fail × Bool),
      (l.foldl (fun (x : State × List Hit × List Fail × Bool) p =>
        let (s, hs, fs, cf) := x
        let fs := fs ++ (if p.1 < 2 ^ 57 then s.leafFails w a p.1 else [])
        match s.translateC w p.1 a.k b with
        | (s, .ok h) =>
          match a.allows h with
          | some f => (s, hs, fs ++ [f], cf)
          | none => (s, hs ++ (List.range p.2).map (fun j => { h with pa := h.pa + j }), fs ++ s.deadStop w a h, cf)
        | (s, .fail f) => (s, hs, fs ++ [f], cf)
        | (s, .conflict h) => (s, hs, fs ++ (a.allows h).toList, true)) x).1.crews = x.1.crews := by
    intro l x
    apply foldl_keep (g := fun (x : State × List Hit × List Fail × Bool) => x.1.crews)
    intro x p
    obtain ⟨s, hs, fs, cf⟩ := x
    have ht := translateC_crews s w p.1 a.k b
    dsimp only
    split
    · rename_i h; rw [h] at ht; split <;> exact ht
    · rename_i h; rw [h] at ht; exact ht
    · rename_i h; rw [h] at ht; exact ht
  have := key (pieces a.va a.n) (s, [], [], false)
  unfold State.vaPlace
  dsimp only at this ⊢
  split
  · exact this
  · split <;> exact this

theorem resolve_crews (s : State) (w : Who) (x : Site) (f : Option Fail) (a : Acc) : (s.resolve w x f a).1.crews = s.crews := by
  unfold State.resolve
  split
  · rfl
  · split
    · rfl
    · split
      · split
        · rfl
        · split <;> rfl
      · exact vaPlace_crews _ _ _ _ _

theorem checkLanes_crews (s : State) (w : Who) (x : Site) (f : Acc → Option Fail) (lv : Bool) (as : List (Nat × Acc)) :
    (s.checkLanes w x f lv as).1.crews = s.crews := by
  unfold State.checkLanes
  exact foldl_keep (g := fun (y : State × List (Nat × LaneRes)) => y.1.crews) _
    (fun y la => resolve_crews y.1 w x (f la.2) la.2) as (s, [])

theorem rmw_crews (s : State) (w : Who) (sc k : Nat) (sp : Space) (a n : Nat) (f : Nat → Nat) :
    (s.rmw w sc k sp a n f).1.crews = s.crews := by
  unfold State.rmw
  dsimp only
  repeat' split
  all_goals rfl

theorem grantNext_crews (s : State) (r : Nat) : (s.grantNext r).crews = s.crews := by
  unfold State.grantNext
  dsimp only
  split <;> rfl

theorem claim_crews (s : State) (r id : Nat) : (s.claim r id).crews = s.crews := by
  unfold State.claim
  dsimp only
  split <;> rfl

theorem acquireCrew_crews (s : State) (id sc st : Nat) : (s.acquireCrew id sc st).crews = s.crews := by
  unfold State.acquireCrew
  split
  · rfl
  · split <;> rfl

theorem loadAcquire_crews (s : State) (id : Nat) (m : BitVec 40) : (s.loadAcquire id m).crews = s.crews := by
  unfold State.loadAcquire
  split
  · exact acquireCrew_crews _ _ _ _
  · rfl

-- Operations that keep the windows.

theorem updCrew_pend (s : State) (j : Nat) (f : Crew → Crew)
    (hf : ∀ c, (f c).heat.map (fun h => h.pend) = c.heat.map (fun h => h.pend)) (id : Nat) :
    (s.updCrew j f).crewPend id = s.crewPend id := by
  unfold State.updCrew
  split
  · rename_i c hc
    by_cases hj : id = j
    · subst hj
      simp only [State.crewPend, State.crew_setCrew_same, hc, Option.bind_some, hf]
    · simp only [State.crewPend, State.crew_setCrew_other _ _ hj]
  · rfl

theorem performLater_pend (s : State) (j id : Nat) : (s.performLater j).crewPend id = s.crewPend id := by
  unfold State.performLater
  split
  · rfl
  · rename_i c hc
    dsimp only
    rw [foldl_keep (g := fun s => State.crewPend s id) (hf := fun b x => crewPend_of_crews (grantNext_crews b _) id),
      foldl_keep (g := fun s => State.crewPend s id)]
    · by_cases hj : id = j
      · subst hj; simp [State.crewPend, hc]
      · simp [State.crewPend, State.crew_setCrew_other _ _ hj]
    · intro b q
      exact foldl_keep (g := fun s => State.crewPend s id) _ (fun b l => crewPend_of_crews (rmw_crews b _ _ _ _ _ _ _) id) _ b

theorem ownFirst_pend (s : State) (w : Who) (ps : List (Space × Nat)) (id : Nat) : (s.ownFirst w ps).crewPend id = s.crewPend id := by
  unfold State.ownFirst
  split
  · rfl
  · split
    · exact performLater_pend _ _ _
    · rfl

theorem readLanes_pend (s : State) (w : Who) (k : Nat) (h : Option Heat) (ls : List (Nat × List Hit)) (id : Nat) :
    (s.readLanes w k h ls).1.crewPend id = s.crewPend id := ownFirst_pend s w _ id

theorem releaseCrew_pend (s : State) (j sc st id : Nat) : (s.releaseCrew j sc st).crewPend id = s.crewPend id := by
  unfold State.releaseCrew
  split
  · rfl
  · split
    · rfl
    · exact performLater_pend s j id

theorem buffer_pend (s : State) (j : Nat) (o : BufOp) (id : Nat) : (s.buffer j o).crewPend id = s.crewPend id := by
  unfold State.buffer
  apply updCrew_pend
  intro c; cases hh : c.heat <;> simp

theorem putReg_heat (c : Crew) (a : Nat) (b : Byte) : (c.putReg a b).heat = c.heat := by
  unfold Crew.putReg
  split <;> rfl

theorem drain_heat (c : Crew) : c.drain.heat = c.heat := by
  unfold Crew.drain
  split
  · rfl
  · rw [foldl_keep (g := Crew.heat) (hf := fun c x => putReg_heat c _ _)]

theorem settle_pend (c : Crew) : c.settle.heat.map (fun h => h.pend) = c.heat.map (fun h => h.pend) := by
  unfold Crew.settle
  dsimp only
  split
  · rw [drain_heat]
  · rw [drain_heat]; cases hh : c.heat <;> simp

theorem performStore_pend (s : State) (j : Nat) (cells : List MemCell) (m : BitVec 40) (id : Nat) :
    (s.performStore j cells m).crewPend id = s.crewPend id := by
  unfold State.performStore
  split
  · rfl
  · rename_i c hc
    dsimp only
    have key : ∀ (l : List MemCell) (t : State), t.crewPend id = s.crewPend id →
        (l.foldl (fun s x => match x.sp with
          | .reg k => s.updCrew k (fun c =>
              if c.heat.isSome then { c with inbox := c.inbox ++ [x] } else c.settle.putReg x.a x.b)
          | _ => s) t).crewPend id = s.crewPend id := by
      intro l t ht
      rw [foldl_keep (g := fun s => State.crewPend s id), ht]
      intro b x
      split
      · apply updCrew_pend
        intro c
        split
        · rfl
        · rw [putReg_heat, settle_pend]
      · rfl
    split
    · rw [buffer_pend]; exact key _ _ (ownFirst_pend s _ _ id)
    · exact key _ _ (ownFirst_pend s _ _ id)

theorem performOp_pend (s : State) (j : Nat) (o : BufOp) (id : Nat) : (State.performOp j s o).crewPend id = s.crewPend id := by
  unfold State.performOp
  split
  · dsimp only
    rw [performStore_pend]
    split
    · exact releaseCrew_pend _ _ _ _ id
    · rfl
  · exact releaseCrew_pend _ _ _ _ id
  · split
    · exact crewPend_of_crews rfl id
    · rfl
  · split
    · exact crewPend_of_crews rfl id
    · rfl

theorem performBuf_pend (s : State) (j id : Nat) : (s.performBuf j).crewPend id = s.crewPend id := by
  unfold State.performBuf
  split
  · rfl
  · rename_i c hc
    split
    · rfl
    · rename_i h hh
      rw [foldl_keep (g := fun s => State.crewPend s id) _ (fun b a => performOp_pend b j a id)]
      by_cases hj : id = j
      · subst hj; simp [State.crewPend, hc, hh, Heat.emptied]
      · simp [State.crewPend, State.crew_setCrew_other _ _ hj]

theorem seal_pend (s : State) (j id : Nat) : (s.seal j).crewPend id = s.crewPend id := by
  unfold State.seal
  rw [updCrew_pend, performBuf_pend]
  intro c; cases hh : c.heat <;> simp [hh]

theorem sealedFor_pend (s : State) (j : Nat) (ls : List (Nat × List Hit)) (id : Nat) :
    (s.sealedFor j ls).crewPend id = s.crewPend id := by
  unfold State.sealedFor
  split
  · exact seal_pend _ _ _
  · rfl

theorem bufferLong_pend (s : State) (j : Nat) (h : Heat) (cells : List MemCell) (m : BitVec 40) (id : Nat) :
    (s.bufferLong j h cells m).crewPend id = s.crewPend id := by
  unfold State.bufferLong
  dsimp only
  rw [buffer_pend, foldl_keep (g := fun (a : State × List MemCell × List (Space × Nat) × BitVec 40) => State.crewPend a.1 id)]
  intro a x
  repeat' split
  all_goals simp only [buffer_pend, seal_pend]

theorem storeCells_pend (s : State) (j : Nat) (h : Heat) (b : Bool) (cells : List MemCell) (m : BitVec 40) (id : Nat) :
    (s.storeCells j h b cells m).crewPend id = s.crewPend id := by
  unfold State.storeCells
  dsimp only
  repeat' split
  all_goals simp only [buffer_pend, performOp_pend, seal_pend, bufferLong_pend]

theorem performLaters_pend (s : State) (id : Nat) : s.performLaters.crewPend id = s.crewPend id :=
  foldl_keep (g := fun s => State.crewPend s id) _ (fun b a => performLater_pend b a id) _ _

theorem performTrap_pend (s : State) (j id : Nat) : (s.performTrap j).crewPend id = s.crewPend id := by
  unfold State.performTrap
  split
  · rfl
  · rename_i c hc
    split
    · rfl
    · rw [foldl_keep (g := fun s => State.crewPend s id) _ (fun b a => performOp_pend b j a id)]
      by_cases hj : id = j
      · subst hj; simp [State.crewPend, hc]
      · simp [State.crewPend, State.crew_setCrew_other _ _ hj]

/-- An update of every crew that keeps its key and its windows. -/
theorem mapCrews_pend (s : State) (f : Nat × Crew → Nat × Crew) (hk : ∀ kv, (f kv).1 = kv.1)
    (hf : ∀ kv, (f kv).2.heat.map (fun h => h.pend) = kv.2.heat.map (fun h => h.pend)) (id : Nat) :
    State.crewPend { s with crews := s.crews.map f } id = s.crewPend id := by
  have key : ∀ l : Tab Crew, (Tab.find (l.map f) id).bind (fun c => c.heat.map (fun h => h.pend)) =
      (Tab.find l id).bind (fun c => c.heat.map (fun h => h.pend)) := by
    intro l
    induction l with
    | nil => rfl
    | cons kv r ih =>
      have h1 := hk kv
      have h2 := hf kv
      rcases h : f kv with ⟨k', c'⟩
      obtain ⟨k, c⟩ := kv
      rw [h] at h1 h2
      simp only [List.map_cons, h, Tab.find]
      dsimp only at h1 h2
      subst h1
      split
      · exact h2
      · exact ih
  exact key s.crews

theorem markOld_pend (s : State) (but : Option Nat) (id : Nat) : (s.markOld but).crewPend id = s.crewPend id := by
  unfold State.markOld
  dsimp only
  rw [mapCrews_pend]
  · rw [foldl_keep (g := fun s => State.crewPend s id) _ (fun b a => performBuf_pend b a id),
      foldl_keep (g := fun s => State.crewPend s id) _ (fun b a => performTrap_pend b a id)]
  · intro kv; split <;> rfl
  · intro kv; split
    · rfl
    · cases kv.2.heat <;> rfl

theorem invalTlb_pend (s : State) (p : Xl → Bool) (id : Nat) : (s.invalTlb p).crewPend id = s.crewPend id :=
  crewPend_of_crews rfl id

theorem emitted_calm (ws : List RegW) (la : Nat) (g : Got) (hc : s.calm id) : (s.emitted id ws la g).calm id := by
  unfold State.emitted
  cases h1 : s.crew id with
  | none => simpa [State.updCrew, h1] using hc
  | some c1 =>
    rw [State.updCrew_of h1]
    intro ps hp
    cases h2 : c1.heat with
    | none => simp [State.crewPend, h2] at hp
    | some h3 =>
      have h4 := hc h3.pend (by simp [State.crewPend, h1, h2])
      simp only [State.crewPend, State.crew_setCrew_same, h2, Crew.emit, Option.bind_some, Option.map_some, Option.some.injEq] at hp
      subst hp
      unfold Heat.emit
      dsimp only
      split
      · exact h4
      · intro p hp
        rcases List.mem_append.mp hp with hp | hp
        · exact h4 p hp
        · simp at hp; subst hp; simp; omega

theorem emitLoad_good (s : State) (id : Nat) (ws : List RegW) (la : Nat) (g : Got) (hg : g.bad = none) :
    s.emitLoad id ws la g = .ok (s.emitted id ws la g) := by
  simp only [State.emitLoad, State.emitted, hg] <;> rfl

end Sys2Proof.Machine
end

