-- ==== Sys2Proof/Laws/Operands.lean ====
section
/-! SUPPORT. What the functions of register words answer when their operands pass the checks: one lemma per shared function. -/

namespace Sys2Proof.Machine

variable {c : Crew} {h : Heat}

theorem intLanes_ok {o : OpU} {rd : Reads} {g : IntLane}
    (hl : pairsFor ((intModeOf h.wrk.mode).w == 64) o rd = true)
    (ha : h.wrk.accepts (intTag (modeIw h.wrk.mode)) (h.keys o.a o.e) = true)
    (hb : h.wrk.accepts (intTag (modeIw h.wrk.mode)) (h.keysB o rd) = true)
    (hd : h.wrk.accepts (intTag (modeIw h.wrk.mode)) (h.keysD o rd) = true)
    (R : Readable c h (h.sources o rd) (h.keys o.d o.e) []) :
    intLanes o rd g c h = .ok
      (let q := intModeOf h.wrk.mode
       let out := perLane (c.lanes h) ([], 0)
         (fun l => g q (h.laneA o l) (h.laneB o rd (q.w == 64) l) (h.laneD o rd l))
       ⟨vecW (h.keys o.d o.e) (c.lanes h) (out.map Prod.fst) (fun _ => intTag (modeIw h.wrk.mode)),
         orFlags (out.map Prod.snd), none⟩) := by
  have hd' : (!rd.d || h.wrk.accepts (intTag (modeIw h.wrk.mode)) (h.keys o.d o.e)) = true := by
    cases hrd : rd.d <;> simp_all [Heat.keysD]
  have hc := check_ok R
  simp only [Heat.sources, Heat.keysB, Heat.keysD] at hc
  simp only [Heat.keysB] at hb
  simp only [pairsFor] at hl
  have hl' : ((intModeOf h.wrk.mode).w != 64 || pairOk o.a o.e && (!rd.b || o.k || pairOk o.b o.e) && pairOk o.d o.e) = true := hl
  simp only [intLanes, ha, hb, hd', hl', Bool.and_self]
  rw [hc]
  simp only [Heat.laneA, Heat.laneB, Heat.laneD, Heat.keysB]

theorem logicCalc_ok {wide : Bool} {o : OpU} {rd : Reads} {op : Nat → Nat → Nat → Nat}
    (hl : pairsFor (wide && (intModeOf h.wrk.mode).w == 64) o rd = true) (R : Readable c h (h.sources o rd) (h.keys o.d o.e) []) :
    logicCalc wide o rd op c h = .ok
      ⟨vecW (h.keys o.d o.e) (c.lanes h) (perLane (c.lanes h) [] (fun l =>
        (List.range (h.keys o.a o.e).length).map (fun i => op ((h.laneA o l).getD i 0) ((h.laneB o rd false l).getD i 0)
          ((h.laneD o rd l).getD i 0)))) (fun i => h.wrk.rdTag ((h.keys o.a o.e).getD i 0)), 0, none⟩ := by
  have hc := check_ok R
  simp only [Heat.sources, Heat.keysB, Heat.keysD] at hc
  have hl' : (!wide || (intModeOf h.wrk.mode).w != 64 ||
      (pairOk o.a o.e && (!rd.b || o.k || pairOk o.b o.e) && pairOk o.d o.e)) = true := by
    cases wide <;> simp_all [pairsFor, bne]
  simp only [logicCalc, hl']
  rw [hc]
  simp only [Heat.laneA, Heat.laneB, Heat.laneD, Heat.keysB, Regs.at_, List.length_map]

end Sys2Proof.Machine
end

