-- ==== Sys2Proof/Laws/Placement.lean ====
section
/-! SUPPORT. The choice of a core (R329): it succeeds exactly where some core is a candidate, so that no proof need look at
3,072 cores. -/

namespace Sys2Proof.Machine

theorem bestDie_ge (n : Nat → Nat) (l : List Nat) : ∀ b, ∀ d, d = b ∨ d ∈ l →
    n d ≤ n (l.foldl (fun best d => if n best < n d then d else best) b) := by
  induction l with
  | nil =>
    intro b d h
    rcases h with rfl | h
    · exact Nat.le_refl _
    · simp at h
  | cons x l ih =>
    intro b d h
    simp only [List.foldl_cons]
    rcases h with rfl | h
    · by_cases hx : n d < n x
      · simp only [if_pos hx]
        exact Nat.le_trans (Nat.le_of_lt hx) (ih x x (Or.inl rfl))
      · simp only [if_neg hx]
        exact ih d d (Or.inl rfl)
    · rcases List.mem_cons.1 h with rfl | h
      · by_cases hx : n b < n d
        · simp only [if_pos hx]
          exact ih d d (Or.inl rfl)
        · simp only [if_neg hx]
          exact Nat.le_trans (Nat.le_of_not_lt hx) (ih b b (Or.inl rfl))
      · exact ih _ d (Or.inr h)

/-- A core that a team may take makes the choice succeed. -/
theorem choose_some {s : State} {rk team j : Nat} {r : Region} {ok : Nat → Bool} (c : Nat) (hc : c < nCores) (hok : ok c = true)
    (hj : s.candidate rk r team c none = some j) : ∃ x, s.choose rk r team ok = some x := by
  unfold State.choose
  generalize hl : (List.range nCores).filterMap (fun c => if ok c then (s.candidate rk r team c none).map (fun j => (c, j)) else none) = cs
  have hm : (c, j) ∈ cs := by
    rw [← hl, List.mem_filterMap]
    exact ⟨c, List.mem_range.2 hc, by simp [hok, hj]⟩
  have h8 : c / 384 ∈ List.range 8 := by
    rw [List.mem_range]
    simp only [nCores] at hc
    omega
  have hb := bestDie_ge (fun d => (cs.filter (fun x => x.1 / 384 == d)).length) (List.range 8) 0 (c / 384) (Or.inr h8)
  have h1 : 0 < (cs.filter (fun x => x.1 / 384 == c / 384)).length := by
    apply List.length_pos_of_mem (a := (c, j))
    simp [hm]
  simp only at hb ⊢
  split
  · rename_i hn
    simp only [hn, List.length_nil] at hb
    omega
  · exact ⟨_, rfl⟩

theorem choose_none {s : State} {rk team : Nat} {r : Region} {ok : Nat → Bool} (h : ∀ c, c < nCores → s.candidate rk r team c none = none) :
    s.choose rk r team ok = none := by
  unfold State.choose
  have : (List.range nCores).filterMap (fun c => if ok c then (s.candidate rk r team c none).map (fun j => (c, j)) else none) = [] := by
    rw [List.filterMap_eq_nil_iff]
    intro c hc
    simp [h c (List.mem_range.1 hc)]
  simp only [this]
  rfl

/-- A pending team that was never placed is placeable where some core is a candidate. -/
theorem placeable_new {s : State} {rk team j : Nat} {r : Region} (c : Nat) (hc : c < nCores) (ht : s.team rk team = none)
    (hd : s.depsMet r team = true) (hj : s.candidate rk r team c none = some j) : ∃ s', s.placeable rk r team = some s' := by
  obtain ⟨x, hx⟩ := choose_some (ok := fun _ => true) c hc rfl hj
  unfold State.placeable
  simp only [ht, hd, hx]
  exact ⟨_, rfl⟩

/-- A pending team that was never placed is not placeable where no core is a candidate; while its budgets allow some core it
waits for one. -/
theorem placeable_none {s : State} {rk team : Nat} {r : Region} (ht : s.team rk team = none)
    (h : ∀ c, c < nCores → s.candidate rk r team c none = none) : s.placeable rk r team = none := by
  unfold State.placeable
  simp only [ht, choose_none h, Option.map_none, ite_self]

theorem coreless_of {s : State} {rk team c : Nat} {r : Region} (hc : c < nCores) (ht : s.team rk team = none)
    (hd : s.depsMet r team = true) (h : ∀ c, c < nCores → s.roomAt rk r team c none = none) (hw : s.within rk r c none = true)
    (hm : ∀ kv ∈ s.cores, kv.2.mark ≠ some (rk, team)) : s.coreless rk r team = true := by
  have h3 : (List.range nCores).any (fun c => s.within rk r c none) = true := List.any_eq_true.2 ⟨c, List.mem_range.2 hc, hw⟩
  have hn : ∀ c, c < nCores → s.candidate rk r team c none = none := fun c hc => by simp [State.candidate, h c hc]
  have hm' : s.cores.any (fun c => c.2.mark == some (rk, team)) = false := by
    rw [List.any_eq_false]
    intro kv hk
    simp [hm kv hk]
  have h4 : (List.range nCores).any (fun c => true && (s.roomAt rk r team c none).isSome) = false := by
    rw [List.any_eq_false]
    intro c hc
    simp [h c (List.mem_range.1 hc)]
  simp only [State.coreless, hd, ht, placeable_none ht hn, h3, hm', h4]
  rfl

/-- The one pending team of the one region that waits, with its victim. -/
theorem roomNeed_head {s : State} {rk team : Nat} {r : Region} {v : Nat × Team} (hp : s.placing = [(rk, r)])
    (ht : s.pendingOf rk r = [team]) (hw : 140000 ≤ Tab.get s.port.waits (teamKey rk team) 0) (hc : s.coreless rk r team = true)
    (hm : s.makingRoom (teamKey rk team) = false) (hv : s.victimFor rk r team = some v) :
    s.roomNeed = some (teamKey rk team, v) := by
  simp [State.roomNeed, hp, ht, hw, hc, hm, hv]

/-- A held team is placeable where its choice and its index succeed. -/
theorem placeable_held {s : State} {rk team j : Nat} {r : Region} {t : Team} {x : Nat × Nat} (ht : s.team rk team = some t)
    (hx : s.choose rk r team (s.resumeOk rk r team t) = some x) (hi : s.resumeIdx rk r team x.1 x.2 = some j) :
    s.placeable rk r team = some (s.resumeTeam rk r team t x.1 j) := by
  unfold State.placeable
  simp only [ht, hx, hi, Option.map_some]

/-- The head of the placing order, when it is placeable. -/
theorem firstPlaceable_head {s s' : State} {rk team : Nat} {r : Region} {rs : List (Nat × Region)} {ts : List Nat}
    (hp : s.placing = (rk, r) :: rs) (ht : s.pendingOf rk r = team :: ts) (hs : s.placeable rk r team = some s') :
    s.firstPlaceable = some (rk, team, s') := by
  simp [State.firstPlaceable, hp, ht, hs]

end Sys2Proof.Machine
end

