-- ==== Sys2Proof/Laws/Regs.lean ====
section
/-! SUPPORT. Reading registers after results have been written. -/

namespace Sys2Proof.Machine

theorem lane_lanesOf (f : Nat → Word) {l : Nat} (hl : l < 32) : lane (lanesOf f) l = f l := by
  simp [lane, lanesOf, List.getD, hl]

theorem Regs.puts_cons (r : Regs) (w : RegW) (t : List RegW) : r.puts (w :: t) = (r.put w).puts t := rfl

@[simp] theorem vecKeys_v (k : Nat) (m : Word) (x : Lanes) (g : Nat) (t : List RegW) :
    vecKeys (.v k m x g :: t) = k :: vecKeys t := rfl
@[simp] theorem vecKeys_s (k : Nat) (x : DWord) (t : List RegW) : vecKeys (.s k x :: t) = vecKeys t := rfl
@[simp] theorem vecKeys_p (k : Nat) (m x : Word) (t : List RegW) : vecKeys (.p k m x :: t) = vecKeys t := rfl
@[simp] theorem vecKeys_nil : vecKeys [] = [] := rfl

/-- A vector register that no result names keeps its words and its tag. -/
theorem Regs.rdV_puts_other (ws : List RegW) (r : Regs) {k : Nat} (hk : k ∉ vecKeys ws) :
    (r.puts ws).rdV k = r.rdV k ∧ (r.puts ws).rdTag k = r.rdTag k := by
  induction ws generalizing r with
  | nil => exact ⟨rfl, rfl⟩
  | cons w t ih =>
    rw [Regs.puts_cons]
    cases w with
    | v k' m x g =>
      simp only [vecKeys_v, List.mem_cons, not_or] at hk
      obtain ⟨h1, h2⟩ := ih (r.put (.v k' m x g)) hk.2
      rw [h1, h2]
      simp [Regs.put, Regs.rdV, Regs.rdTag, Tab.get, Tab.find_put_other _ _ hk.1]
    | s a b => exact ih (r.put (.s a b)) hk
    | p a b d => exact ih (r.put (.p a b d)) hk

/-- A vector register that one result names gets its tag, and the words of the lanes of its mask. -/
theorem Regs.rdV_puts_mem (ws : List RegW) (r : Regs) {k : Nat} {m : Word} {x : Lanes} {g : Nat}
    (hk : RegW.v k m x g ∈ ws) (hn : (vecKeys ws).Nodup) :
    (r.puts ws).rdV k = mergeLanes m (r.rdV k) x ∧ (r.puts ws).rdTag k = g := by
  induction ws generalizing r with
  | nil => simp at hk
  | cons w t ih =>
    rw [Regs.puts_cons]
    rcases List.mem_cons.mp hk with rfl | hm
    · simp only [vecKeys_v, List.nodup_cons] at hn
      obtain ⟨h1, h2⟩ := Regs.rdV_puts_other t (r.put (.v k m x g)) hn.1
      rw [h1, h2]
      simp [Regs.put, Regs.rdV, Regs.rdTag]
    · cases w with
      | v k' m' x' g' =>
        simp only [vecKeys_v, List.nodup_cons] at hn
        have hmem : k ∈ vecKeys t := List.mem_filterMap.mpr ⟨_, hm, rfl⟩
        have hne : k ≠ k' := fun he => hn.1 (he ▸ hmem)
        obtain ⟨h1, h2⟩ := ih (r.put (.v k' m' x' g')) hm hn.2
        rw [h1, h2]
        simp [Regs.put, Regs.rdV, Tab.get, Tab.find_put_other _ _ hne]
      | s a b => exact ih (r.put (.s a b)) hm hn
      | p a b d => exact ih (r.put (.p a b d)) hm hn

/-- A uniform register that no result names keeps its value. -/
theorem Regs.rdS_puts_other (ws : List RegW) (r : Regs) {k : Nat} (hk : ∀ x, RegW.s k x ∉ ws) :
    (r.puts ws).rdS k = r.rdS k := by
  induction ws generalizing r with
  | nil => rfl
  | cons w t ih =>
    rw [Regs.puts_cons, ih _ (fun x hx => hk x (List.mem_cons_of_mem _ hx))]
    cases w with
    | v k' m x g => rfl
    | s a b =>
      have hne : k ≠ a := fun he => hk b (by simp [he])
      simp [Regs.put, Regs.rdS, Tab.get_put_other _ _ _ hne]
    | p a b d => rfl

/-- A predicate that no result names keeps its lanes. -/
theorem Regs.rdP_puts_other (ws : List RegW) (r : Regs) {k : Nat} (hk : ∀ m x, RegW.p k m x ∉ ws) :
    (r.puts ws).rdP k = r.rdP k := by
  induction ws generalizing r with
  | nil => rfl
  | cons w t ih =>
    rw [Regs.puts_cons, ih _ (fun m x hx => hk m x (List.mem_cons_of_mem _ hx))]
    cases w with
    | v k' m x g => rfl
    | s a b => rfl
    | p a b d =>
      have hne : k ≠ a := fun he => hk b d (by simp [he])
      simp [Regs.put, Regs.rdP, Tab.get_put_other _ _ _ hne]

/-- What results leave alone whatever they name. -/
theorem Regs.puts_other (ws : List RegW) (r : Regs) :
    (r.puts ws).mode = r.mode ∧ (r.puts ws).asw = r.asw ∧ (r.puts ws).lfsr = r.lfsr ∧ (r.puts ws).watch = r.watch ∧
    (r.puts ws).tretpc = r.tretpc ∧ (r.puts ws).tretctl = r.tretctl := by
  induction ws generalizing r with
  | nil => simp [Regs.puts]
  | cons w t ih =>
    rw [Regs.puts_cons]
    obtain ⟨h1, h2, h3, h4, h5, h6⟩ := ih (r.put w)
    rw [h1, h2, h3, h4, h5, h6]
    cases w <;> exact ⟨rfl, rfl, rfl, rfl, rfl, rfl⟩

end Sys2Proof.Machine
end

