-- ==== Sys2Proof/Tests/Slice0.lean ====
section
/-! SUPPORT. Tests of the model: words written from the spec's encodings, ill-formed terms, single steps on small states whose
results stand in the spec, and for every statement with hypotheses a state and operands that meet them. -/

open Sys2Proof Sys2Proof.Machine

section

set_option Elab.async false

-- Decoding: every instruction once, the word from Tables 7-6, 9-1, 9-4, 9-6, 9-9, 11-1, 11-2, 15-2, 15-5, 15-8, 17-4 and 17-5.

theorem test_decode_control :
    decodeWord 0x02000000 = .ok (.heat) ∧
    decodeWord 0x02100000 = .ok (.heatJ) ∧
    decodeWord 0x04000000 = .ok (.quench) ∧
    decodeWord 0x07600013 = .ok (.br 5 true 19) ∧
    decodeWord 0x08078000 = .ok (.bra 15) ∧
    decodeWord 0x0A08AC40 = .ok (.brx 17 11 true) ∧
    decodeWord 0x0C100013 = .ok (.call 1 19) ∧
    decodeWord 0x0E1A8000 = .ok (.callx 1 21) ∧
    decodeWord 0x10000000 = .ok (.ret) ∧
    decodeWord 0x10000001 = .ok (.exit) ∧
    decodeWord 0x10000002 = .ok (.tret) ∧
    decodeWord 0x12000003 = .ok (.slide 3) ∧
    decodeWord 0x14000000 = .ok (.nop) ∧
    decodeWord 0x14000001 = .ok (.yield) ∧
    decodeWord 0x1600A5A5 = .ok (.mode 42405) ∧
    decodeWord 0x1800A5A5 = .ok (.modem 42405) ∧
    decodeWord 0x1A000021 = .ok (.trap 33) ∧
    decodeWord 0x1A100021 = .ok (.brk 33) ∧
    decodeWord 0x1A200021 = .ok (.svc 33) ∧
    decodeWord 0x1C668000 = .ok (.launch ⟨6, 13⟩) ∧
    decodeWord 0x1E87AC00 = .ok (.fork ⟨8, 15, 11⟩) ∧
    decodeWord 0x1EA88001 = .ok (.rdv ⟨10, 17⟩) := by
  and_intros <;> rfl

theorem test_decode_integer :
    decodeWord 0x20C9AF40 = .ok (.iadd ⟨12, 19, 11, 6, 2, false⟩) ∧
    decodeWord 0x20EAAFF1 = .ok (.iaddc ⟨14, 21, 11, 7, 3, true⟩) ∧
    decodeWord 0x210BAC02 = .ok (.isub ⟨16, 23, 11, 0, 0, false⟩) ∧
    decodeWord 0x212CACB3 = .ok (.isubb ⟨18, 25, 11, 1, 1, true⟩) ∧
    decodeWord 0x214DAD44 = .ok (.imin ⟨20, 27, 11, 2, 2, false⟩) ∧
    decodeWord 0x216EADF5 = .ok (.imax ⟨22, 29, 11, 3, 3, true⟩) ∧
    decodeWord 0x218F8206 = .ok (.iabs ⟨24, 31, 4, false⟩) ∧
    decodeWord 0x21A082A7 = .ok (.ineg ⟨26, 1, 5, true⟩) ∧
    decodeWord 0x21C1AF48 = .ok (.lea ⟨28, 3, 11, 6, 2, false⟩) ∧
    decodeWord 0x23E2AFF0 = .ok (.imul ⟨30, 5, 11, 7, 3, true⟩) ∧
    decodeWord 0x2203AC01 = .ok (.imulh ⟨0, 7, 11, 0, 0, false⟩) ∧
    decodeWord 0x2224ACB2 = .ok (.imad ⟨2, 9, 11, 1, 1, true⟩) ∧
    decodeWord 0x2245AD43 = .ok (.imadw ⟨4, 11, 11, 2, 2, false⟩) ∧
    decodeWord 0x2466ADF0 = .ok (.and ⟨6, 13, 11, 3, 3, true⟩) ∧
    decodeWord 0x2487AE01 = .ok (.or ⟨8, 15, 11, 4, 0, false⟩) ∧
    decodeWord 0x24A8AEB2 = .ok (.xor ⟨10, 17, 11, 5, 1, true⟩) ∧
    decodeWord 0x24C9AF43 = .ok (.andn ⟨12, 19, 11, 6, 2, false⟩) ∧
    decodeWord 0x24EA83A4 = .ok (.not ⟨14, 21, 7, true⟩) ∧
    decodeWord 0x250BAC05 = .ok (.sel ⟨16, 23, 11, 0, 0, false⟩) ∧
    decodeWord 0x272CACB0 = .ok (.shl ⟨18, 25, 11, 1, 1, true⟩) ∧
    decodeWord 0x274DAD41 = .ok (.shr ⟨20, 27, 11, 2, 2, false⟩) ∧
    decodeWord 0x276EADF2 = .ok (.sar ⟨22, 29, 11, 3, 3, true⟩) ∧
    decodeWord 0x278FAE03 = .ok (.rot ⟨24, 31, 11, 4, 0, false⟩) ∧
    decodeWord 0x27A082A4 = .ok (.popc ⟨26, 1, 5, true⟩) ∧
    decodeWord 0x27C18305 = .ok (.clz ⟨28, 3, 6, false⟩) ∧
    decodeWord 0x27E283A6 = .ok (.brev ⟨30, 5, 7, true⟩) ∧
    decodeWord 0x2803AC00 = .ok (.bfx ⟨0, 7, 11, 0, 0, false⟩) ∧
    decodeWord 0x2824ACB1 = .ok (.bfi ⟨2, 9, 11, 1, 1, true⟩) ∧
    decodeWord 0x2A45AD42 = .ok (.icmp .lt ⟨4, 11, 11, 2, 2, false⟩) ∧
    decodeWord 0x2C6681A0 = .ok (.mov ⟨6, 13, 3, true⟩) ∧
    decodeWord 0x2E80A5A5 = .ok (.movi 8 42405) ∧
    decodeWord 0x30A0A5A5 = .ok (.movh 10 42405) := by
  and_intros <;> rfl

theorem test_decode_float :
    decodeWord 0x32C9AF40 = .ok (.fadd ⟨12, 19, 11, 6, 2, false⟩) ∧
    decodeWord 0x32EAAFF1 = .ok (.fsub ⟨14, 21, 11, 7, 3, true⟩) ∧
    decodeWord 0x330BAC02 = .ok (.fmul ⟨16, 23, 11, 0, 0, false⟩) ∧
    decodeWord 0x332CACB3 = .ok (.fmin ⟨18, 25, 11, 1, 1, true⟩) ∧
    decodeWord 0x334DAD44 = .ok (.fmax ⟨20, 27, 11, 2, 2, false⟩) ∧
    decodeWord 0x336E81A5 = .ok (.fabs ⟨22, 29, 3, true⟩) ∧
    decodeWord 0x338F8206 = .ok (.fneg ⟨24, 31, 4, false⟩) ∧
    decodeWord 0x33A0AEB7 = .ok (.fcpys ⟨26, 1, 11, 5, 1, true⟩) ∧
    decodeWord 0x33C1AF48 = .ok (.fscale ⟨28, 3, 11, 6, 2, false⟩) ∧
    decodeWord 0x33E283A9 = .ok (.frnd ⟨30, 5, 7, true⟩) ∧
    decodeWord 0x3403AC00 = .ok (.ffma ⟨0, 7, 11, 0, 0, false⟩) ∧
    decodeWord 0x3424ACB1 = .ok (.ffms ⟨2, 9, 11, 1, 1, true⟩) ∧
    decodeWord 0x3445AD42 = .ok (.fdot2 ⟨4, 11, 11, 2, 2, false⟩) ∧
    decodeWord 0x3666ADF1 = .ok (.fcmp .ne ⟨6, 13, 11, 3, 3, true⟩) ∧
    decodeWord 0x36878208 = .ok (.fclass ⟨8, 15, 4, false⟩) := by
  and_intros <;> rfl

theorem test_decode_special_functions :
    decodeWord 0x38A882F8 = .ok (.frcp ⟨10, 17, 5, 15⟩) ∧
    decodeWord 0x38C98311 = .ok (.frsq ⟨12, 19, 6, 2⟩) ∧
    decodeWord 0x38EA83AA = .ok (.fsqrt ⟨14, 21, 7, 5⟩) ∧
    decodeWord 0x390BAC43 = .ok (.fdiv ⟨16, 23, 11, 0, 8⟩) ∧
    decodeWord 0x3B2C80D8 = .ok (.fexp2 ⟨18, 25, 1, 11⟩) ∧
    decodeWord 0x3B4D8171 = .ok (.flog2 ⟨20, 27, 2, 14⟩) ∧
    decodeWord 0x3B6E818A = .ok (.fsin ⟨22, 29, 3, 1⟩) ∧
    decodeWord 0x3B8F8223 = .ok (.fcos ⟨24, 31, 4, 4⟩) ∧
    decodeWord 0x3BA082BC = .ok (.ftanh ⟨26, 1, 5, 7⟩) := by
  and_intros <;> rfl

theorem test_decode_conversion :
    decodeWord 0x3DC18F50 = .ok (.cvt ⟨28, 3, 3, 6, 10⟩) ∧
    decodeWord 0x3DE28FE9 = .ok (.cvti ⟨30, 5, 3, 7, 13⟩) ∧
    decodeWord 0x3E038000 = .ok (.pack ⟨0, 7, 0, false⟩) ∧
    decodeWord 0x3E2480A1 = .ok (.unpack ⟨2, 9, 1, true⟩) ∧
    decodeWord 0x40418100 = .ok (.tag 4 3 2) ∧
    decodeWord 0x40668DA1 = .ok (.retag ⟨6, 13, 3, true⟩ 3) ∧
    decodeWord 0x4287AE60 = .ok (.qscale ⟨8, 15, 11, 4, 12⟩) ∧
    decodeWord 0x42A8AEF9 = .ok (.mxscale ⟨10, 17, 11, 5, 15⟩) := by
  and_intros <;> rfl

theorem test_decode_cross_lane :
    decodeWord 0x44C98810 = .ok (.vote .all 12 19 2) ∧
    decodeWord 0x44E00029 = .ok (.elect 14 5) ∧
    decodeWord 0x450B8042 = .ok (.matchLanes 16 23 8) ∧
    decodeWord 0x472CACD9 = .ok (.shfl .up ⟨18, 25, 11, 1, 11⟩) ∧
    decodeWord 0x494D8070 = .ok (.permset 20 27 14) ∧
    decodeWord 0x496E8589 = .ok (.perm ⟨22, 29, 1, 3, 1⟩) ∧
    decodeWord 0x4B8F8223 = .ok (.red .iadd ⟨24, 31, 4, 4⟩) ∧
    decodeWord 0x4DA086BB = .ok (.scan .iadd true ⟨26, 1, 5, 7⟩) := by
  and_intros <;> rfl

theorem test_decode_uniform :
    decodeWord 0x51C1AC00 = .ok (.sadd ⟨28, 3, 11⟩) ∧
    decodeWord 0x51E2AC01 = .ok (.ssub ⟨30, 5, 11⟩) ∧
    decodeWord 0x5003AC02 = .ok (.smul ⟨0, 7, 11⟩) ∧
    decodeWord 0x5024AC03 = .ok (.smulh ⟨2, 9, 11⟩) ∧
    decodeWord 0x5045AC04 = .ok (.sand ⟨4, 11, 11⟩) ∧
    decodeWord 0x5066AC05 = .ok (.sor ⟨6, 13, 11⟩) ∧
    decodeWord 0x5087AC06 = .ok (.sxor ⟨8, 15, 11⟩) ∧
    decodeWord 0x50A8AC07 = .ok (.sshl ⟨10, 17, 11⟩) ∧
    decodeWord 0x50C9AC08 = .ok (.sshr ⟨12, 19, 11⟩) ∧
    decodeWord 0x50EAAC09 = .ok (.ssar ⟨14, 21, 11⟩) ∧
    decodeWord 0x510B800A = .ok (.smov ⟨16, 23⟩) ∧
    decodeWord 0x512CAC0B = .ok (.ssel ⟨18, 25, 11⟩) ∧
    decodeWord 0x514DAC0C = .ok (.sbfx ⟨20, 27, 11⟩) ∧
    decodeWord 0x516E800D = .ok (.spopc ⟨22, 29⟩) ∧
    decodeWord 0x538FAC00 = .ok (.scmp .eq ⟨24, 31, 11⟩) := by
  and_intros <;> rfl

theorem test_decode_special_and_predicate :
    decodeWord 0x55A0A5A5 = .ok (.smovi 26 42405) ∧
    decodeWord 0x57C0A5A5 = .ok (.smovh 28 42405) ∧
    decodeWord 0x59E40080 = .ok (.srd 30 1 128) ∧
    decodeWord 0x5A038000 = .ok (.bcast 0 7 0) ∧
    decodeWord 0x5A24AC01 = .ok (.pick ⟨2, 9, 11, false⟩) ∧
    decodeWord 0x5C45AC00 = .ok (.pand ⟨4, 11, 11⟩) ∧
    decodeWord 0x5C66AC01 = .ok (.por ⟨6, 13, 11⟩) ∧
    decodeWord 0x5C87AC02 = .ok (.pxor ⟨8, 15, 11⟩) ∧
    decodeWord 0x5CA88003 = .ok (.pnot ⟨10, 17⟩) ∧
    decodeWord 0x5CC98004 = .ok (.pmov ⟨12, 19⟩) ∧
    decodeWord 0x5CEA8005 = .ok (.pcnt ⟨14, 21⟩) := by
  and_intros <;> rfl

theorem test_decode_memory :
    decodeWord 0x610BCC40 = .ok (.ld ⟨16, 23, 19, 0, 8, false, .w⟩) ∧
    decodeWord 0x632CCC84 = .ok (.st ⟨18, 25, 19, 1, true, .w⟩) ∧
    decodeWord 0x654DCD70 = .ok (.ldx ⟨20, 27, 19, 2, 14, false, false, false⟩) ∧
    decodeWord 0x676ECD87 = .ok (.stx ⟨22, 29, 19, 3, true, true, true⟩) ∧
    decodeWord 0x698FCC22 = .ok (.sld ⟨24, 31, 19, 4⟩ false 2) ∧
    decodeWord 0x6BA0CC02 = .ok (.sst ⟨26, 1, 19⟩ 2) ∧
    decodeWord 0x6DC1CF50 = .ok (.ldc 28 3 19 6 10 false) ∧
    decodeWord 0x6F52CC00 = .ok (.pref ⟨true, 5, 5, 19⟩) ∧
    decodeWord 0x6E53CC01 = .ok (.cflush ⟨false, 5, 7, 19⟩) ∧
    decodeWord 0x6F54CC02 = .ok (.cinv ⟨true, 5, 9, 19⟩) ∧
    decodeWord 0x6E55CC03 = .ok (.hint ⟨false, 5, 11, 19⟩) := by
  and_intros <;> rfl

theorem test_decode_atomics :
    decodeWord 0x7066CC4F = .ok (.aadd ⟨6, 13, 19, 9, true, true, true⟩) ∧
    decodeWord 0x7287CC60 = .ok (.afadd ⟨8, 15, 19, 12, false, false, false⟩) ∧
    decodeWord 0x74A8CC7F = .ok (.amin ⟨10, 17, 19, 15, true, true, true⟩) ∧
    decodeWord 0x76C9CC10 = .ok (.amax ⟨12, 19, 19, 2, false, false, false⟩) ∧
    decodeWord 0x78EACC2F = .ok (.aand ⟨14, 21, 19, 5, true, true, true⟩) ∧
    decodeWord 0x7B0BCC40 = .ok (.aor ⟨16, 23, 19, 8, false, false, false⟩) ∧
    decodeWord 0x7D2CCC5F = .ok (.axor ⟨18, 25, 19, 11, true, true, true⟩) ∧
    decodeWord 0x7F4DCC70 = .ok (.aswp ⟨20, 27, 19, 14, false, false, false⟩) ∧
    decodeWord 0x816ECC0F = .ok (.acas ⟨22, 29, 19, 1, true, true, true⟩) ∧
    decodeWord 0x838FCC20 = .ok (.acas2 24 31 19 4 false false) := by
  and_intros <;> rfl

theorem test_decode_synchronisation :
    decodeWord 0x84000000 = .ok (.fence) ∧
    decodeWord 0x87C1CC00 = .ok (.binit ⟨28, 3, 19⟩) ∧
    decodeWord 0x89E2CC68 = .ok (.arrive ⟨30, 5, 19, 13⟩) ∧
    decodeWord 0x8803CC01 = .ok (.arrivex ⟨0, 7, 19, 0⟩) ∧
    decodeWord 0x8A24CC00 = .ok (.wait ⟨2, 9, 19⟩) ∧
    decodeWord 0x8A45CC31 = .ok (.twait ⟨4, 11, 19, 6⟩) ∧
    decodeWord 0x8A06CC02 = .ok (.bar 13 19) ∧
    decodeWord 0x8C878000 = .ok (.strike ⟨8, 15⟩) ∧
    decodeWord 0x8EA8CC79 = .ok (.mwait ⟨10, 17, 19, 15⟩ true) := by
  and_intros <;> rfl

theorem test_decode_matrix :
    decodeWord 0xA0D5B648 = .ok (.mma 6 10 13 5 146 false false) ∧
    decodeWord 0xA2C01648 = .ok (.mzero 6 5 146) ∧
    decodeWord 0xA4D4164A = .ok (.mscale 6 10 5 146 2) ∧
    decodeWord 0xA6D41649 = .ok (.msta 6 10 5 146 true) ∧
    decodeWord 0xA8000248 = .ok (.dwait 146) ∧
    decodeWord 0xA8601401 = .ok (.dwaitArm 3 5) ∧
    decodeWord 0xAA000000 = .ok (.mexit) ∧
    decodeWord 0xAC008000 = .ok (.gmode 1) ∧
    decodeWord 0xAFC1AC00 = .ok (.tset ⟨28, 3, 11⟩) ∧
    decodeWord 0xAFE2AC01 = .ok (.tget ⟨30, 5, 11⟩) ∧
    decodeWord 0xAE03AC02 = .ok (.aset ⟨0, 7, 11⟩) ∧
    decodeWord 0xB0048000 = .ok (.take 9) ∧
    decodeWord 0xB0058001 = .ok (.give 11) := by
  and_intros <;> rfl

theorem test_decode_engines :
    decodeWord 0xC066AC25 = .ok (.cpy ⟨6, 13, 11, true, 5⟩) ∧
    decodeWord 0xC287AC05 = .ok (.cpy2 ⟨8, 15, 11, false, 5⟩) ∧
    decodeWord 0xC4A8AC20 = .ok (.halo 10 17 11 true) ∧
    decodeWord 0xC6C9AC05 = .ok (.gath ⟨12, 19, 11, false, 5⟩) ∧
    decodeWord 0xC8EAAC25 = .ok (.scat ⟨14, 21, 11, true, 5⟩) ∧
    decodeWord 0xCB0BAC05 = .ok (.fill ⟨16, 23, 11, false, 5⟩) ∧
    decodeWord 0xCD200000 = .ok (.coll 18) ∧
    decodeWord 0xCE0D8000 = .ok (.qfence 27) ∧
    decodeWord 0xD16E8001 = .ok (.esig 22 29 1) ∧
    decodeWord 0xD3800013 = .ok (.eloop 24 19) ∧
    decodeWord 0xD4000000 = .ok (.eend) := by
  and_intros <;> rfl

theorem test_decode_system :
    decodeWord 0xE1C08400 = .ok (.csrr 28 33) ∧
    decodeWord 0xE3E08400 = .ok (.csrw 30 33) ∧
    decodeWord 0xE403AC00 = .ok (.tlbi 7 11) ∧
    decodeWord 0xE604AC00 = .ok (.classPage 9 11) ∧
    decodeWord 0xE845AC00 = .ok (.pwrq ⟨4, 11, 11⟩) ∧
    decodeWord 0xEA668000 = .ok (.ctxq ⟨6, 13⟩) := by
  and_intros <;> rfl

/-- Words that the spec itself writes out: R113, R145's example, R161 to R163, R187, R195, R196. -/
theorem test_decode_words_of_the_spec :
    decodeWord 0x160000A0 = .ok (.mode 0xA0) ∧
    decodeWord 0x3C802500 = .ok (.cvt ⟨8, 0, 9, 2, 0⟩) ∧
    decodeWord 0x58400004 = .ok (.srd 4 0 4) ∧
    decodeWord 0x582C0081 = .ok (.srd 2 3 0x81) ∧
    decodeWord 0x48A18000 = .ok (.permset 10 3 0) ∧
    decodeWord 0x48402901 = .ok (.perm ⟨4, 0, 10, 2, 0⟩) ∧
    decodeWord 0x4C208400 = .ok (.scan .fadd true ⟨2, 1, 0, 0⟩) := by
  and_intros <;> rfl

/-- Reserved majors, functions and fields (R118). -/
theorem test_decode_refuses :
    decodeWord 0x00000000 = .error .major ∧ decodeWord 0xFFFFFFFF = .error .major ∧
    decodeWord 0x02200000 = .error .function ∧ decodeWord 0x1A300000 = .error .function ∧
    decodeWord 0x20000009 = .error .function ∧ decodeWord 0x20000406 = .error .reserved ∧
    decode [0, 0, 0] = .error .short := by
  and_intros <;> rfl

-- Well-formedness: an ill-formed term for each check.

/-- Blocks that leave the window or the temporaries (R104), a held uniform B (R111). -/
theorem test_ill_formed_blocks :
    Instr.wf (.iadd ⟨22, 0, 0, 2, 0, false⟩) = false ∧ Instr.wf (.iadd ⟨0, 22, 0, 2, 0, false⟩) = false ∧
    Instr.wf (.iadd ⟨0, 0, 22, 2, 0, false⟩) = false ∧ Instr.wf (.iadd ⟨0, 0, 0, 0, 2, true⟩) = false ∧
    Instr.wf (.iabs ⟨22, 0, 2, false⟩) = false ∧ Instr.wf (.frcp ⟨0, 30, 2, 0⟩) = false ∧
    Instr.wf (.fdiv ⟨0, 0, 22, 2, 0⟩) = false ∧ Instr.wf (.pack ⟨0, 22, 2, false⟩) = false ∧
    Instr.wf (.ld ⟨22, 0, 0, 2, 0, true, .w⟩) = false ∧ Instr.wf (.ldc 22 0 0 2 0 false) = false ∧
    Instr.wf (.bcast 22 0 2) = false ∧ Instr.wf (.tag 22 1 2) = false ∧ Instr.wf (.imadw ⟨1, 0, 0, 0, 0, false⟩) = false := by
  decide

/-- Predicates (R102, R103), slides, codes and pairs. -/
theorem test_ill_formed_fields :
    Instr.wf (.icmp .eq ⟨0, 0, 0, 0, 0, false⟩) = false ∧ Instr.wf (.fcmp .eq ⟨8, 0, 0, 0, 0, false⟩) = false ∧
    Instr.wf (.scmp .eq ⟨0, 0, 0⟩) = false ∧ Instr.wf (.pand ⟨0, 1, 1⟩) = false ∧ Instr.wf (.por ⟨1, 8, 1⟩) = false ∧
    Instr.wf (.pxor ⟨1, 1, 8⟩) = false ∧ Instr.wf (.pnot ⟨0, 1⟩) = false ∧ Instr.wf (.pmov ⟨1, 9⟩) = false ∧
    Instr.wf (.pcnt ⟨1, 8⟩) = false ∧ Instr.wf (.vote .any 0 8 0) = false ∧ Instr.wf (.elect 0 0) = false ∧
    Instr.wf (.call 24 0) = false ∧ Instr.wf (.callx 24 0) = false ∧ Instr.wf (.slide 24) = false ∧
    Instr.wf (.slide (-24)) = false ∧ Instr.wf (.permset 30 0 0) = false ∧ Instr.wf (.perm ⟨0, 0, 30, 0, 0⟩) = false ∧
    Instr.wf (.cvt ⟨0, 0, 0, 0, 0⟩) = false ∧ Instr.wf (.cvti ⟨0, 0, 0, 0, 0⟩) = false ∧
    Instr.wf (.retag ⟨1, 0, 0, false⟩ 4) = false ∧ Instr.wf (.ld ⟨0, 1, 0, 0, 0, false, .w⟩) = false ∧
    Instr.wf (.st ⟨0, 1, 0, 0, false, .w⟩) = false ∧ Instr.wf (.pref ⟨true, 3, 0, 0⟩) = false ∧
    Instr.wf (.cflush ⟨true, 2, 0, 0⟩) = false ∧ Instr.wf (.cinv ⟨true, 1, 0, 0⟩) = false ∧
    Instr.wf (.hint ⟨true, 4, 0, 0⟩) = false ∧ Instr.wf (.aadd ⟨0, 0, 0, 1, true, true, false⟩) = false ∧
    Instr.wf (.acas ⟨23, 0, 0, 0, false, true, true⟩) = false ∧ Instr.wf (.acas2 1 0 0 0 false true) = false ∧
    Instr.wf (.tset ⟨16, 0, 0⟩) = false ∧ Instr.wf (.tget ⟨0, 0, 5⟩) = false ∧ Instr.wf (.aset ⟨0, 0, 4⟩) = false ∧
    Instr.wf (.cpy2 ⟨0, 0, 31, false, 0⟩) = false ∧ Instr.wf (.halo 0 0 31 false) = false ∧
    Instr.wf (.gath ⟨0, 0, 31, false, 0⟩) = false ∧ Instr.wf (.scat ⟨0, 0, 31, false, 0⟩) = false ∧
    Instr.wf (.esig 0 0 3) = false ∧ Instr.wf (.brx 0 31 false) = true := by
  decide

-- Small states.

/-- A crew of 32 lanes of region 1 in slot 0, with an open heat over registers `r`. -/
def tHeat (r : Regs) : Heat := Heat.openAt 0 0 0xFFC r
def tCrew (r : Regs) : Crew := { Crew.fresh_ 1 0 0 32 8 0x1000 0 with com := r, heat := some (tHeat r) }
def tId : Nat := crewKey 1 0 0
def tState (r : Regs) : State :=
  let s := State.reset.place 32 0
  { s with turns := [], cur := .crew tId 0, crews := [(tId, tCrew r)] }

/-- Registers of a MODE; and with uniform registers. -/
def tRegs (mode : BitVec 40) (s : Tab DWord) : Regs := { Regs.start with mode := mode, s := s }

/-- The same crew between heats. -/
def tIdle (f : Crew → Crew) : State :=
  let s := State.reset.place 32 0
  { s with turns := [], cur := .crew tId 0, crews := [(tId, f (Crew.fresh_ 1 0 0 32 8 0x1000 0))] }

/-- An engine context of a kind with an open heat. -/
def tEng (f : Eng → Eng) : Eng :=
  f { Eng.start with gen := 1, running := true, rk := 1, pc := 0x1000, entry := some 0xFFC, off := 1, last := 0 }
def tEngs (k : Nat) (f : Eng → Eng) : State :=
  let s := State.reset.place 32 0
  { s with turns := [], cur := .eng k, engs := [(k, tEng f)] }

/-- The checks of InHeat, Readable, Idle, Closing, InEngine and EngClosing as one evaluation each. -/
def inHeatB (s : State) (id n : Nat) (c : Crew) (h : Heat) : Bool :=
  decide (s.cur = .crew id n) && decide (s.crew id = some c) && decide (c.heat = some h) && decide (h.slot = n) &&
  decide (h.off < 23) && decide (h.skip ≠ some h.off) && decide (c.named = []) &&
  h.pend.all (fun p => decide (p.left ≤ 1 → p.got.bad = none)) && decide ((s.setCrew id c).regHold id h = none)

theorem inHeat_of {s : State} {id n : Nat} {c : Crew} {h : Heat} (x : inHeatB s id n c h = true) : InHeat s id n c h := by
  simp only [inHeatB, Bool.and_eq_true, decide_eq_true_eq, List.all_eq_true] at x
  obtain ⟨⟨⟨⟨⟨⟨⟨⟨a, b⟩, c⟩, d⟩, e⟩, f⟩, g⟩, i⟩, j⟩ := x
  exact ⟨a, b, c, d, e, f, g, i, j⟩

def readableB (c : Crew) (h : Heat) (src dst other : List Nat) : Bool :=
  src.all (fun k => decide (1024 ≤ k → k ∈ h.temps)) &&
  h.pend.all (fun p => p.ws.all (fun w => decide (w.name ∉ dst ++ other))) &&
  decide (((h.dests ++ dst.filter (· < 1024)).eraseDups).length ≤ 32) &&
  (src ++ dst).all (fun k => decide (c.away k = false)) && decide ((blocksOf (src ++ dst)).length ≤ c.ring.cap) &&
  src.all (fun k => decide (k ∉ h.wrk.errs)) && decide (2048 ∉ h.wrk.errs) && decide (c.absentIn (src ++ dst) = [])

theorem readable_of {c : Crew} {h : Heat} {src dst other : List Nat} (x : readableB c h src dst other = true) :
    Readable c h src dst other := by
  simp only [readableB, Bool.and_eq_true, decide_eq_true_eq, List.all_eq_true] at x
  obtain ⟨⟨⟨⟨⟨⟨⟨a, b⟩, c⟩, d⟩, e⟩, f⟩, g⟩, i⟩ := x
  exact ⟨a, b, c, d, e, f, g, i⟩

def closingB (s : State) (id n : Nat) (c : Crew) (h : Heat) : Bool :=
  decide (s.cur = .crew id n) && decide (s.crew id = some c) && decide (c.heat = some h) && decide (h.slot = n) &&
  decide (h.skip ≠ some h.off) && decide (c.named = []) && decide (h.tret = false) &&
  decide ((s.setCrew id c).regHold id h = none) && decide (c.giveRefill h = [])

theorem closing_of {s : State} {id n : Nat} {c : Crew} {h : Heat} (x : closingB s id n c h = true) : Closing s id n c h := by
  simp only [closingB, Bool.and_eq_true, decide_eq_true_eq] at x
  obtain ⟨⟨⟨⟨⟨⟨⟨⟨a, b⟩, c⟩, d⟩, e⟩, f⟩, g⟩, i⟩, j⟩ := x
  exact ⟨a, b, c, d, e, f, g, i, j⟩

def inEngineB (s : State) (k : Nat) (e : Eng) : Bool :=
  decide (s.cur = .eng k) && decide (s.eng k = some e) && e.entry.isSome && decide (e.off < 23)

theorem inEngine_of {s : State} {k : Nat} {e : Eng} (x : inEngineB s k e = true) : InEngine s k e := by
  simp only [inEngineB, Bool.and_eq_true, decide_eq_true_eq] at x
  exact ⟨x.1.1.1, x.1.1.2, x.1.2, x.2⟩

theorem engClosing_of {s : State} {k : Nat} {e : Eng} (x : inEngineB s k e = true) : EngClosing s k e := by
  have h := inEngine_of x
  exact ⟨h.cur, h.eng, h.entry, Nat.lt_succ_of_lt h.room⟩

theorem tInHeat (r : Regs) : InHeat (tState r) tId 0 (tCrew r) (tHeat r) :=
  ⟨rfl, rfl, rfl, rfl, (by show (1 : Nat) < 23; decide), (by show (none : Option Nat) ≠ some 1; decide), rfl,
    by simp [tHeat, Heat.openAt], rfl⟩

theorem tClosing : Closing (tState (tRegs 0 [])) tId 0 (tCrew (tRegs 0 [])) (tHeat (tRegs 0 [])) :=
  closing_of (by decide +kernel)

-- Witnesses: for each statement with hypotheses, a state and operands that meet them, clause by clause.

/-- Registers of 32-bit integers with saturation and OF enabled; v0 and v1 hold 0x7FFFFFFF. -/
def tSatRegs : Regs := { tRegs 0x15000 [] with
  v := [(0, lanesOf (fun _ => 0x7FFFFFFF)), (1, lanesOf (fun _ => 0x7FFFFFFF))], asw := 0x80 }

theorem witness_RegisterWordFrame :
    InHeat (tState (tRegs 0 [])) tId 0 (tCrew (tRegs 0 [])) (tHeat (tRegs 0 [])) ∧ 0 < 2 ∧
    RegW.v 3 1 zeroLanes 2 ∈ [RegW.v 3 1 zeroLanes 2] ∧ (vecKeys [RegW.v 3 1 zeroLanes 2]).Nodup ∧
    4 ∉ vecKeys [RegW.v 3 1 zeroLanes 2] := ⟨tInHeat _, by decide⟩

theorem witness_IntegerWordsComplete : ∀ r ∈ [tRegs 0 [], tSatRegs], ∃ o rd g,
    (Instr.iadd ⟨2, 0, 1, 0, 0, false⟩).intLane = some (o, rd, g) ∧ InHeat (tState r) tId 0 (tCrew r) (tHeat r) ∧
    Readable (tCrew r) (tHeat r) ((tHeat r).sources o rd) ((tHeat r).keys o.d o.e) [] ∧
    (Instr.iadd ⟨2, 0, 1, 0, 0, false⟩).wf = true ∧ pairsFor ((intModeOf r.mode).w == 64) o rd = true ∧
    r.accepts (intTag (modeIw r.mode)) ((tHeat r).keys o.a o.e) = true ∧
    r.accepts (intTag (modeIw r.mode)) ((tHeat r).keysB o rd) = true ∧
    r.accepts (intTag (modeIw r.mode)) ((tHeat r).keysD o rd) = true ∧
    let q := intModeOf r.mode
    let out := perLane ((tCrew r).lanes (tHeat r)) ([], 0) (fun l => g q ((tHeat r).laneA o l)
      ((tHeat r).laneB o rd (q.w == 64) l) ((tHeat r).laneD o rd l))
    (tHeat r).admits (orFlags (out.map Prod.snd)) ↔ r.asw = 0 := by
  intro r hr
  simp only [List.mem_cons, List.not_mem_nil, or_false] at hr
  rcases hr with rfl | rfl
  · exact ⟨_, _, _, rfl, tInHeat _, readable_of (by decide +kernel), by unfold Heat.admits; decide +kernel⟩
  · exact ⟨_, _, _, rfl, tInHeat _, readable_of (by decide +kernel), by unfold Heat.admits; decide +kernel⟩

theorem witness_IntegerWordsAt32Bits : ∃ o rd f,
    (Instr.iadd ⟨2, 0, 1, 0, 0, false⟩).word32 = some (o, rd, f) ∧
    InHeat (tState (tRegs 0x10000 [])) tId 0 (tCrew (tRegs 0x10000 [])) (tHeat (tRegs 0x10000 [])) ∧
    Readable (tCrew (tRegs 0x10000 [])) (tHeat (tRegs 0x10000 [])) ((tHeat (tRegs 0x10000 [])).sources o rd) [2] [] ∧
    (tHeat (tRegs 0x10000 [])).keys o.d o.e = [2] ∧
    modeIw 0x10000 = 2 ∧ (modeRnd 0x10000).sat = false ∧ (tHeat (tRegs 0x10000 [])).base ≤ 1000 ∧
    (tRegs 0x10000 []).accepts fmtINT32 [0, 1] = true ∧ (Instr.iadd ⟨2, 0, 1, 0, 0, false⟩).wf = true :=
  ⟨_, _, _, rfl, tInHeat _, readable_of (by decide +kernel), by decide +kernel⟩

theorem witness_LogicWordsComplete : ∃ o rd f,
    (Instr.sel ⟨2, 0, 1, 0, 0, false⟩).logic = some (o, rd, f) ∧
    InHeat (tState (tRegs 0 [])) tId 0 (tCrew (tRegs 0 [])) (tHeat (tRegs 0 [])) ∧
    Readable (tCrew (tRegs 0 [])) (tHeat (tRegs 0 [])) ((tHeat (tRegs 0 [])).sources o rd) ((tHeat (tRegs 0 [])).keys o.d o.e) [] ∧
    (Instr.sel ⟨2, 0, 1, 0, 0, false⟩).wf = true ∧ (tHeat (tRegs 0 [])).base ≤ 1000 :=
  ⟨_, _, _, rfl, tInHeat _, readable_of (by decide +kernel), by decide +kernel⟩

theorem witness_CompareAndImmediateWords :
    let r := tRegs 0x10000 []
    InHeat (tState r) tId 0 (tCrew r) (tHeat r) ∧ Readable (tCrew r) (tHeat r) [0, 1] [] [nameP 1] ∧
    Readable (tCrew r) (tHeat r) [] [5] [] ∧ Readable (tCrew r) (tHeat r) [5] [5] [] ∧
    (Instr.icmp .lt ⟨1, 0, 1, 0, 0, false⟩).wf = true ∧ (intModeOf r.mode).w ≠ 64 ∧
    r.accepts (intTag (modeIw r.mode)) ((tHeat r).keys 0 0) = true ∧
    r.accepts (intTag (modeIw r.mode)) ((tHeat r).keysB ⟨1, 0, 1, 0, 0, false⟩ readsB) = true ∧
    (tHeat r).keys 0 0 ++ (tHeat r).keysB ⟨1, 0, 1, 0, 0, false⟩ readsB = [0, 1] :=
  ⟨tInHeat _, readable_of (by decide +kernel), readable_of (by decide +kernel), readable_of (by decide +kernel), by decide +kernel⟩

/-- FP32 (format code of Table 5-1), DZ and NV enabled or not. -/
def tFpRegs (asw : BitVec 16) : Regs := { tRegs (BitVec.ofNat 40 (fmtFP32 * 16)) [] with
  v := [(0, lanesOf (fun _ => 0x7F800000)), (1, lanesOf (fun _ => 0xFF800000))], asw := asw }

theorem witness_FloatWordsComplete : ∀ asw ∈ [(0 : BitVec 16), 0x3E0], ∃ w,
    (Instr.fadd ⟨2, 0, 1, 0, 0, false⟩).floatWord = some w ∧
    InHeat (tState (tFpRegs asw)) tId 0 (tCrew (tFpRegs asw)) (tHeat (tFpRegs asw)) ∧
    Readable (tCrew (tFpRegs asw)) (tHeat (tFpRegs asw)) ((tHeat (tFpRegs asw)).sources w.o w.rd)
      ((tHeat (tFpRegs asw)).keys w.o.d w.o.e) [] ∧
    fmtIsFloat (modeFmt (tFpRegs asw).mode) = true ∧ pairsFor (modeFmt (tFpRegs asw).mode == fmtFP64) w.o w.rd = true ∧
    (tFpRegs asw).accepts (modeFmt (tFpRegs asw).mode) ((tHeat (tFpRegs asw)).keys w.o.a w.o.e) = true ∧
    (tFpRegs asw).accepts (w.bTag (modeFmt (tFpRegs asw).mode)) ((tHeat (tFpRegs asw)).keysB w.o w.rd) = true ∧
    (tFpRegs asw).accepts (modeFmt (tFpRegs asw).mode) ((tHeat (tFpRegs asw)).keysD w.o w.rd) = true ∧
    (Instr.fadd ⟨2, 0, 1, 0, 0, false⟩).wf = true := by
  intro asw ha
  simp only [List.mem_cons, List.not_mem_nil, or_false] at ha
  rcases ha with rfl | rfl <;> exact ⟨_, rfl, tInHeat _, readable_of (by decide +kernel), by decide +kernel⟩

theorem witness_FloatCompareCompletes :
    let r := tFpRegs 0
    InHeat (tState r) tId 0 (tCrew r) (tHeat r) ∧ Readable (tCrew r) (tHeat r) [0, 1] [] [nameP 1] ∧
    (Instr.fcmp .lt ⟨1, 0, 1, 0, 0, false⟩).wf = true ∧ fmtIsFloat (modeFmt r.mode) = true ∧ modeFmt r.mode ≠ fmtFP64 ∧
    r.accepts (modeFmt r.mode) ((tHeat r).keys 0 0) = true ∧
    r.accepts (modeFmt r.mode) ((tHeat r).keysB ⟨1, 0, 1, 0, 0, false⟩ readsB) = true ∧
    (tHeat r).keys 0 0 ++ (tHeat r).keysB ⟨1, 0, 1, 0, 0, false⟩ readsB = [0, 1] :=
  ⟨tInHeat _, readable_of (by decide +kernel), by decide +kernel⟩

theorem witness_ShapedWordsComplete : ∃ la held f r,
    (Instr.pack ⟨2, 0, 1, false⟩).calc = some (la, held, f) ∧ (Instr.pack ⟨2, 0, 1, false⟩).wf = true ∧
    InHeat (tState (tRegs 0x20 [])) tId 0 (tCrew (tRegs 0x20 [])) (tHeat (tRegs 0x20 [])) ∧
    f (tCrew (tRegs 0x20 [])) (tHeat (tRegs 0x20 [])) = .ok r :=
  ⟨_, _, _, _, rfl, by decide, tInHeat _, rfl⟩

theorem witness_TagAndMoveWords :
    let r := tRegs 0 []
    InHeat (tState r) tId 0 (tCrew r) (tHeat r) ∧ Readable (tCrew r) (tHeat r) [] ((tHeat r).keys 3 0) [] ∧
    Readable (tCrew r) (tHeat r) ((tHeat r).keys 0 0) ((tHeat r).keys 3 0) [] ∧
    Readable (tCrew r) (tHeat r) [(tHeat r).key 0] [] [nameS 4] ∧
    (Instr.tag 3 1 0).wf = true ∧ (Instr.retag ⟨3, 0, 0, false⟩ 1).wf = true ∧ (Instr.bcast 3 1 0).wf = true :=
  ⟨tInHeat _, readable_of (by decide +kernel), readable_of (by decide +kernel), readable_of (by decide +kernel), by decide +kernel⟩

theorem witness_VoteAndShuffleWordsComplete :
    let r := { tRegs 0 [] with tag := [(1, fmtFP32)] }
    InHeat (tState r) tId 0 (tCrew r) (tHeat r) ∧ Readable (tCrew r) (tHeat r) [] [] [nameS 4] ∧
    Readable (tCrew r) (tHeat r) [] [] [nameP 2] ∧ Readable (tCrew r) (tHeat r) [(tHeat r).key 0] [(tHeat r).key 3] [] ∧
    Readable (tCrew r) (tHeat r) ((tHeat r).keys 0 0 ++ [(tHeat r).key 2]) ((tHeat r).keys 3 0) [] ∧
    Readable (tCrew r) (tHeat r) ((tHeat r).keys 0 0 ++ [(tHeat r).key 1]) ((tHeat r).keys 3 0) [] ∧
    predOk 7 = true ∧ predOk 8 = false ∧ predDst 2 = true ∧ predDst 0 = false ∧ (Instr.shfl .idx ⟨3, 0, 2, 0, 0⟩).wf = true ∧
    r.tagsIn [(tHeat r).key 2] [fmtINT32, fmtBITS] = true ∧ r.tagsIn [(tHeat r).key 1] [fmtINT32, fmtBITS] = false ∧
    opc 0x44001000 = 0x22 ∧ fld 0x44001000 0 3 = 0 ∧ 4 ≤ (fB 0x44001000).toNat ∧ fld 0x44000401 0 3 = 1 ∧ fB 0x44000401 ≠ 0 ∧
    fld 0x44000082 0 3 = 2 ∧ fE 0x44000082 ≠ 0 ∧ opc 0x46000004 = 0x23 ∧ 4 ≤ (fld 0x46000004 0 3).toNat := by
  refine ⟨tInHeat _, ?_, ?_, ?_, ?_, ?_, by decide +kernel⟩ <;> exact readable_of (by decide +kernel)

/-- v0 names lane 0 in every lane: PERMSET sees repeats. -/
theorem witness_PermutationWordsComplete :
    let r := tRegs 0 []
    let r' := { tRegs 0 [] with asw := 0x3E0 }
    InHeat (tState r) tId 0 (tCrew r) (tHeat r) ∧ InHeat (tState r') tId 0 (tCrew r') (tHeat r') ∧
    Readable (tCrew r) (tHeat r) [(tHeat r).key 0] [] [nameS 4, nameS 4 + 1, nameS 4 + 2] ∧
    Readable (tCrew r') (tHeat r') [(tHeat r').key 0] [] [nameS 4, nameS 4 + 1, nameS 4 + 2] ∧
    Readable (tCrew r) (tHeat r) ((tHeat r).keys 0 0) ((tHeat r).keys 3 0) [] ∧
    (Instr.permset 4 0 0).wf = true ∧ r.tagsIn [(tHeat r).key 0] [fmtINT32, fmtBITS] = true ∧ (Instr.perm ⟨3, 0, 4, 0, 0⟩).wf = true ∧
    (permKeep ((tCrew r).lanes (tHeat r)) (r.rdV ((tHeat r).key 0))).2 = true ∧
    arithFlags r.asw (flIf true flNV) = 0 ∧ arithFlags r'.asw (flIf true flNV) ≠ 0 :=
  ⟨tInHeat _, tInHeat _, readable_of (by decide +kernel), readable_of (by decide +kernel), readable_of (by decide +kernel),
    by decide +kernel⟩

theorem witness_UniformWordsComplete : ∃ d f g,
    let r := tRegs 0 []
    (Instr.sadd ⟨4, 1, 2⟩).uniform = some (d, f) ∧ (Instr.pand ⟨1, 2, 3⟩).predicate = some (1, g) ∧
    (Instr.pand ⟨1, 2, 3⟩).wf = true ∧ predDst 1 = true ∧ predOk 7 = true ∧
    InHeat (tState r) tId 0 (tCrew r) (tHeat r) ∧ Readable (tCrew r) (tHeat r) [] [] [nameS d] ∧
    Readable (tCrew r) (tHeat r) [] [] [nameP 1] :=
  ⟨_, _, _, rfl, rfl, by decide, by decide, by decide, tInHeat _, readable_of (by decide +kernel), readable_of (by decide +kernel)⟩

theorem ok_of {α : Type} {x : State × Except Stop α} {p : State → α → Bool}
    (h : (match x with
      | (s, .ok l) => p s l
      | _ => false) = true) : ∃ s l, x = (s, .ok l) ∧ p s l = true := by
  obtain ⟨s, e⟩ := x
  cases e with
  | ok l => exact ⟨s, l, rfl, h⟩
  | error e => simp at h

theorem except_of {α : Type} {x : Except Stop α} {p : α → Bool}
    (h : (match x with
      | .ok l => p l
      | _ => false) = true) : ∃ l, x = .ok l ∧ p l = true := by
  cases x with
  | ok l => exact ⟨l, rfl, h⟩
  | error e => simp at h

/-- Relaxed 32-bit words of scratch at s1 = 0; s2 is the data. -/
def tMem : Regs := tRegs 0x10000 [(2, 0x1234)]
def tM : MemOp := ⟨2, 1, 0, 0, 0, true, .w, false, false⟩

theorem witness_LoadWordsComplete :
    (Instr.ld ⟨2, 1, 0, 0, 0, true, .w⟩).load = some tM ∧ InHeat (tState tMem) tId 0 (tCrew tMem) (tHeat tMem) ∧
    Readable (tCrew tMem) (tHeat tMem) ((tHeat tMem).baseKeys tM.k tM.a) ((tHeat tMem).keys tM.d tM.e) [] ∧
    ((Instr.ld ⟨2, 1, 0, 0, 0, true, .w⟩).wf = true ∧ loadOrd tMem.mode = true ∧ tM.storage tMem.mode = 0 ∧ modeOrd tMem.mode = 0 ∧
      formOk tM.f (modeFmt tMem.mode) tM.d tM.e = true) ∧
    ∃ s1 ls, ((tState tMem).setCrew tId (tCrew tMem)).checkLanes ((tState tMem).whoCrew tId (tCrew tMem))
      ((tState tMem).siteCrew tId (tCrew tMem)) (tCrew tMem).com.watchFail true
      (tM.accs (tCrew tMem) (tHeat tMem) (formBytes tM.f (modeFmt tMem.mode) (extN tM.e)) aRead) = (s1, .ok ls) ∧
      (!(tState tMem).poisoned ((tState tMem).whoCrew tId (tCrew tMem)) (ls.flatMap Prod.snd) &&
        !(((s1.sealedFor tId ls).readLanes ((tState tMem).whoCrew tId (tCrew tMem)) (modeCache tMem.mode)
          ((s1.sealedFor tId ls).heatOf tId) ls).1.loadAcquire tId tMem.mode).poisoned
          ((tState tMem).whoCrew tId (tCrew tMem)) (ls.flatMap Prod.snd) && ls.length == 32) = true :=
  ⟨rfl, tInHeat _, readable_of (by decide +kernel), by decide +kernel, ok_of (by decide +kernel)⟩

theorem witness_ScratchLoadsReadAndKeepMemory :
    (Instr.ld ⟨2, 1, 0, 0, 0, true, .w⟩).load = some tM ∧ (tHeat tMem).base ≤ 1000 ∧ tM.storage tMem.mode = 0 ∧ modeOrd tMem.mode = 0 ∧
    tM.l = 0 ∧ InHeat (tState tMem) tId 0 (tCrew tMem) (tHeat tMem) :=
  ⟨rfl, by decide, by decide, by decide, rfl, tInHeat _⟩

theorem witness_StoreWordsComplete :
    (Instr.st ⟨2, 1, 0, 0, true, .w⟩).store = some tM ∧ InHeat (tState tMem) tId 0 (tCrew tMem) (tHeat tMem) ∧
    Readable (tCrew tMem) (tHeat tMem) ((tHeat tMem).baseKeys tM.k tM.a ++ (tHeat tMem).keys tM.d tM.e) [] [] ∧
    ((Instr.st ⟨2, 1, 0, 0, true, .w⟩).wf = true ∧ storeOrd tMem.mode = true ∧ formOk tM.f (modeFmt tMem.mode) tM.d tM.e = true ∧
      gristStop tMem ((tHeat tMem).keys tM.d tM.e) (tM.accs (tCrew tMem) (tHeat tMem) 4 aWrite) = none ∧
      formBytes tM.f (modeFmt tMem.mode) (extN tM.e) = 4) ∧
    ∃ s1 ls, ((tState tMem).setCrew tId (tCrew tMem)).checkLanes ((tState tMem).whoCrew tId (tCrew tMem))
      ((tState tMem).siteCrew tId (tCrew tMem)) (tCrew tMem).com.watchFail true
      (tM.accs (tCrew tMem) (tHeat tMem) 4 aWrite) = (s1, .ok ls) ∧ (ls.length == 32) = true :=
  ⟨rfl, tInHeat _, readable_of (by decide +kernel), by decide +kernel, ok_of (by decide +kernel)⟩

theorem witness_StoresWaitInTheHeat :
    modeStore tMem.mode ≠ 2 ∧ modeScope tMem.mode < 5 ∧
    ∃ s1 ls, ((tState tMem).setCrew tId (tCrew tMem)).checkLanes ((tState tMem).whoCrew tId (tCrew tMem))
      ((tState tMem).siteCrew tId (tCrew tMem)) (tCrew tMem).com.watchFail true
      (tM.accs (tCrew tMem) (tHeat tMem) 4 aWrite) = (s1, .ok ls) ∧
      (let cells := ls.flatMap (fun l => cellsOf l.2 (storeImage tM.f (modeFmt tMem.mode) (tMem.at_ ((tHeat tMem).keys tM.d tM.e) l.1) 4))
       cells.all (fun x => match x.sp with
         | .ext _ _ => false
         | _ => true) && !cells.isEmpty &&
         decide (bufLines (tHeat tMem).buf cells ≤ 32)) = true :=
  ⟨by decide, by decide, ok_of (by decide +kernel)⟩

/-- Package memory at s1 = 0x2000 with a page of the read-only class: LDC reads it. -/
def tGlob : Regs := tRegs 0x810000 [(1, 0x2000)]
def tStateRo : State :=
  let s := tState tGlob
  { s with mem := { s.mem with pkg := Memory.putBytes s.mem.pkg 0x400000 (leOf 8 0x641) } }

theorem witness_UniformAccessesComplete :
    InHeat (tState tMem) tId 0 (tCrew tMem) (tHeat tMem) ∧ InHeat tStateRo tId 0 (tCrew tGlob) (tHeat tGlob) ∧
    Readable (tCrew tMem) (tHeat tMem) [] [] [nameS 4] ∧ Readable (tCrew tMem) (tHeat tMem) [] [] [] ∧
    Readable (tCrew tGlob) (tHeat tGlob) [] ((tHeat tGlob).keys 3 0) [] ∧
    (loadOrd tMem.mode = true ∧ storeOrd tMem.mode = true ∧ loadOrd tGlob.mode = true ∧ modeStore tGlob.mode = 1 ∧
      formOk .w (modeFmt tGlob.mode) 3 0 = true ∧ (Instr.ldc 3 1 0 0 0 false).wf = true) ∧
    (∃ s1 ls, ((tState tMem).setCrew tId (tCrew tMem)).checkLanes ((tState tMem).whoCrew tId (tCrew tMem))
      ((tState tMem).siteCrew tId (tCrew tMem)) (tCrew tMem).com.watchFail false (uniAcc 0 0 (slBytes 3) aRead tMem.mode) = (s1, .ok ls) ∧
      (((((s1.sealedFor tId ls).readLanes ((tState tMem).whoCrew tId (tCrew tMem)) (modeCache tMem.mode)
        ((s1.sealedFor tId ls).heatOf tId) ls).1.loadAcquire tId tMem.mode).got ((tState tMem).whoCrew tId (tCrew tMem)) false
        (uniAcc 0 0 (slBytes 3) aRead tMem.mode) ls).bad.isNone) = true) ∧
    (∃ s1 ls, ((tState tMem).setCrew tId (tCrew tMem)).checkLanes ((tState tMem).whoCrew tId (tCrew tMem))
      ((tState tMem).siteCrew tId (tCrew tMem)) (tCrew tMem).com.watchFail false (uniAcc 0 0 (slBytes 3) aWrite tMem.mode) = (s1, .ok ls) ∧
      (ls.length == 1) = true) ∧
    (∃ s1 ls, (tStateRo.setCrew tId (tCrew tGlob)).checkLanes (tStateRo.whoCrew tId (tCrew tGlob))
      (tStateRo.siteCrew tId (tCrew tGlob)) (tCrew tGlob).com.watchFail false
      ((uniAcc 0x2000 0 (formBytes .w (modeFmt tGlob.mode) (extN 0)) aRead tGlob.mode).map (fun x => (x.1, { x.2 with page := 1 }))) =
        (s1, .ok ls) ∧
      (let hs := ls.flatMap Prod.snd
       !hs.isEmpty && ((((s1.constFill (s1.coreOf (tCrew tGlob) / 96) hs).touchHits (tStateRo.whoCrew tId (tCrew tGlob))
         (modeCache tGlob.mode) (hs.filter (fun x => constLine x == none))).loadAcquire tId tGlob.mode).got
           (tStateRo.whoCrew tId (tCrew tGlob)) false (uniAcc 0x2000 0 4 aRead tGlob.mode) ls).bad.isNone) = true) :=
  ⟨tInHeat _, inHeat_of (by decide +kernel), readable_of (by decide +kernel), readable_of (by decide +kernel),
    readable_of (by decide +kernel), by decide +kernel, ok_of (by decide +kernel), ok_of (by decide +kernel),
    ok_of (by decide +kernel)⟩

theorem witness_CacheWordsComplete :
    let o : OpCache := ⟨true, 0, 1, 0⟩
    InHeat (tState tMem) tId 0 (tCrew tMem) (tHeat tMem) ∧ InHeat (tState tGlob) tId 0 (tCrew tGlob) (tHeat tGlob) ∧
    Readable (tCrew tMem) (tHeat tMem) ((tHeat tMem).baseKeys o.k o.a) [] [] ∧
    Readable (tCrew tGlob) (tHeat tGlob) ((tHeat tGlob).baseKeys o.k o.a) [] [] ∧
    (modeStore tMem.mode = 0 ∧ modeStore tGlob.mode ≠ 0 ∧ (Instr.pref o).wf = true ∧ (Instr.cflush o).wf = true ∧
      (Instr.cinv o).wf = true ∧ (Instr.hint o).wf = true) ∧
    ∀ watched : Bool, ∃ ls, laneOutcome true ((cacheAddrs o (tCrew tGlob) (tHeat tGlob)).foldl (fun x la =>
        let r := State.vaPlace x.1 ((tState tGlob).whoCrew tId (tCrew tGlob)) (lineAcc la.2 aRead tGlob.mode)
          (if watched then (tCrew tGlob).com.watchFail { (lineAcc la.2 aRead tGlob.mode) with k := aWrite } else none) false
        (r.1, x.2 ++ [(la.1, r.2)])) ((tState tGlob).setCrew tId (tCrew tGlob), [])).2 = .ok ls ∧ (!ls.isEmpty) = true :=
  ⟨tInHeat _, tInHeat _, readable_of (by decide +kernel), readable_of (by decide +kernel), by decide +kernel,
    fun watched => by cases watched <;> exact except_of (by decide +kernel)⟩

/-- Atomics of scratch: unpaired (0) and QUANTUM (3). -/
def tAt (use : Nat) : Regs := tRegs (BitVec.ofNat 40 (0x10000 + use * 2 ^ 25)) [(1, 0x40)]
def tA : AtomicWord := ⟨⟨.add, 4, true⟩, 4, 1, 0, 0, false, true⟩

theorem witness_AtomicWordsComplete : ∀ use ∈ [0, 3, 4],
    let r := tAt use
    let ks := (tHeat r).dkeys tA.d 1
    (Instr.aadd ⟨4, 1, 0, 0, false, true, false⟩).atomic = some tA ∧ (Instr.aadd ⟨4, 1, 0, 0, false, true, false⟩).wf = true ∧
    InHeat (tState r) tId 0 (tCrew r) (tHeat r) ∧ Readable (tCrew r) (tHeat r) ((tHeat r).baseKeys tA.b tA.a ++ ks) ks [] ∧
    (modeUse r.mode = use ∧ modeOrd r.mode = 0 ∧ r.accepts fmtINT32 ks = true ∧ (∀ x ∈ ks, x < 1024) ∧ modeScope r.mode < 5 ∧
      tA.k.op.int = true ∧ ((tHeat r).members (modeQgrp r.mode)).length < 4) ∧
    ∃ s1 ls, ((tState r).setCrew tId (tCrew r)).atomicPlaces tId (tCrew r) (tHeat r) ((lanesIn ((tCrew r).lanes (tHeat r))).map
      (fun l => (l, (⟨addrOf ((tHeat r).baseAt tA.b tA.a l) tA.o.toNat 4, 4, aAtomic, modeStore r.mode, modeScope r.mode, 4, false,
        !(tA.k.k3 && (tState r).port.aopcap.getLsbD 0), 0⟩ : Acc)))) = (s1, .ok ls) ∧
      ((s1.got (s1.whoCrew tId (tCrew r)) true [] ls).bad.isNone && ls.length == 32) = true := by
  intro use hu
  simp only [List.mem_cons, List.not_mem_nil, or_false] at hu
  rcases hu with rfl | rfl | rfl <;>
    exact ⟨rfl, by decide, tInHeat _, readable_of (by decide +kernel), by decide +kernel, ok_of (by decide +kernel)⟩

theorem witness_ScratchAtomicsChangeTheirBytes :
    (∀ n ∈ [4, 8, 16], n ∈ [4, 8, 16]) ∧ Memory.wf (tState (tAt 0)).mem.scr = true := by decide

/-- A Miller context whose MODE asks for ACQREL at GLOBAL storage and DEVICE scope. -/
def tFenceMode : BitVec 40 := BitVec.ofNat 40 (4 * 2 ^ 20 + 1 * 2 ^ 23 + 3 * 2 ^ 28)

theorem witness_FencesComplete :
    let r := tRegs tFenceMode []
    let f : Eng → Eng := fun e => { e with mode := tFenceMode }
    InHeat (tState r) tId 0 (tCrew r) (tHeat r) ∧ Readable (tCrew r) (tHeat r) [] [] [] ∧ modeOrd tFenceMode ≠ 0 ∧
    InEngine (tEngs (engKey 0 0 0) f) (engKey 0 0 0) (tEng f) ∧ engKind (engKey 0 0 0) = 0 ∧ modeOrd (tEng f).mode ≠ 0 ∧
    modeStore (tEng f).mode = 1 :=
  ⟨tInHeat _, readable_of (by decide +kernel), by decide, inEngine_of (by decide +kernel), by decide +kernel⟩

theorem witness_EngineUniformWordsComplete :
    let f : Eng → Eng := fun e => { e with s := [(1, 0x2000)], mode := 0x800000 }
    let k := engKey 0 0 0
    let s := tEngs k f
    let e := tEng f
    InEngine s k e ∧ engKind k = 0 ∧ (∀ p ∈ e.pend, p.reg ≠ 4) ∧ (Instr.sadd ⟨4, 1, 2⟩).uniform.isSome ∧
    (Instr.pand ⟨1, 2, 3⟩).predicate.isSome ∧ (Instr.pand ⟨1, 2, 3⟩).wf = true ∧ predDst 1 = true ∧ predOk 7 = true ∧
    (newMode true 0xA0 e.mode).isSome ∧ (newMode false 0x3 e.mode).isSome ∧ loadOrd e.mode = true ∧ storeOrd e.mode = true ∧
    (∃ x, s.engAccess k e (uniAcc (e.rdS 1) 0 (slBytes 3) aRead e.mode) = .ok x ∧
      ((x.1.readLanes (x.1.whoEng k e) (modeCache e.mode) none x.2).1.got (x.1.whoEng k e) false
        (uniAcc (e.rdS 1) 0 (slBytes 3) aRead e.mode) x.2).bad.isNone = true) ∧
    ∃ x, s.engAccess k e (uniAcc (e.rdS 1) 0 (slBytes 3) aWrite e.mode) = .ok x ∧ (x.2.length == 1) = true :=
  ⟨inEngine_of (by decide +kernel), by decide +kernel, by simp [tEng, Eng.start], rfl, rfl, by decide, by decide, by decide,
    by decide +kernel, by decide +kernel, by decide +kernel, by decide +kernel, except_of (by decide +kernel), except_of (by decide +kernel)⟩

theorem witness_SpecialValuesComplete :
    let r := tRegs 0 [(3, 0xFFFFF)]
    InHeat (tState r) tId 0 (tCrew r) (tHeat r) ∧ Readable (tCrew r) (tHeat r) [] [] [nameS 3] ∧
    Readable (tCrew r) (tHeat r) [] [(tHeat r).key 3] [] ∧ Readable (tCrew r) (tHeat r) [(tHeat r).key 3] [] [] ∧
    ((tState r).special (tCrew r) (tHeat r) 0).isSome ∧ ((tState r).special (tCrew r) (tHeat r) 0x1F).isSome :=
  ⟨tInHeat _, readable_of (by decide +kernel), readable_of (by decide +kernel), readable_of (by decide +kernel), by decide +kernel⟩

theorem witness_HintAndModeWordsComplete :
    let c : Crew := { tCrew (tRegs 0 []) with trap := ⟨0, cBREAK, 0, 0, 0, none⟩ }
    InHeat { tState (tRegs 0 []) with crews := [(tId, c)] } tId 0 c (tHeat (tRegs 0 [])) ∧ c.trap.cause ≠ 0 ∧
    (tCrew (tRegs 0 [])).trap.cause = 0 ∧ newMode true 0xA0 0 = some 0xA0 ∧ newMode true 0x20000 0 = none ∧
    newMode false 3 0 = some 0x300000 ∧ newMode false 7 0 = none :=
  ⟨inHeat_of (by decide +kernel), by decide +kernel⟩

-- Barriers: word 0 of the team's allotment lies at scratch address 0.

/-- A crew whose MODE names a scope, over scratch whose word 0 holds `b`. -/
def tBar (mode : BitVec 40) (b : BarW) : State :=
  let s := tState (tRegs mode [])
  { s with mem := { s.mem with scr := Memory.putBytes [] 0 (leOf 64 b.num) } }
def tTeamMode : BitVec 40 := BitVec.ofNat 40 (1 * 2 ^ 20)
/-- TEAM scope, two crews expected; one crew expected; generation 5. -/
def tBar2 : BarW := ⟨0, 2, 0, 0, 0, 0, 0, 1⟩
def tBar1 : BarW := ⟨0, 1, 0, 0, 0, 0, 0, 1⟩
def tBar5 : BarW := ⟨0, 2, 5, 0, 0, 0, 0, 1⟩

theorem tBar_inHeat (b : BarW) : InHeat (tBar tTeamMode b) tId 0 (tCrew (tRegs tTeamMode [])) (tHeat (tRegs tTeamMode [])) :=
  ⟨rfl, rfl, rfl, rfl, (by show (1 : Nat) < 23; decide), (by show (none : Option Nat) ≠ some 1; decide), rfl,
    by simp [tHeat, Heat.openAt], rfl⟩

theorem witness_BarrierWordsComplete :
    let c := tCrew (tRegs tTeamMode [])
    let h := tHeat (tRegs tTeamMode [])
    let s0 := (tBar tTeamMode tBar2).setCrew tId c
    let s5 := (tBar tTeamMode tBar5).setCrew tId c
    let s1 := (tBar tTeamMode tBar1).setCrew tId c
    InHeat (tBar tTeamMode tBar2) tId 0 c h ∧ InHeat (tBar tTeamMode tBar5) tId 0 c h ∧ InHeat (tBar tTeamMode tBar1) tId 0 c h ∧
    Readable c h [] [] [] ∧ Readable c h [] [] [nameS 3] ∧ c.wait = .none ∧
    (∃ w, s0.barPlace (s0.siteCrew tId c) (barAddr h 1 0) aWrite = .ok w ∧
      (w == 0 && ((s0.seal tId).bar w).wait == 0 && ((s0.seal tId).bar w).arr == 0) = true) ∧
    (∃ x, s0.arrival tId c (barAddr h 1 0) 0 = .ok x ∧ (x.2.2 == 0) = true) ∧
    (∃ w, s5.barPlace (s5.siteCrew tId c) (barAddr h 1 0) aRead = .ok w ∧
      ((s5.bar w).gen != fieldOf (h.wrk.rdS 3) 0 32 && (s5.bar w).bsc == 1) = true) ∧
    (∃ w, s0.barPlace (s0.siteCrew tId c) (barAddr h 1 0) aRead = .ok w ∧
      ((s0.bar w).gen == fieldOf (h.wrk.rdS 3) 0 32 && (s0.bar w).bsc == 1 && fieldOf (h.wrk.rdS 3) 32 32 == 0) = true) ∧
    ∃ x, s1.arrival tId c (barAddr h 1 0) 0 = .ok x ∧ ((x.1.bar x.2.1).gen != x.2.2 && (x.1.bar x.2.1).bsc == 1) = true := by
  refine ⟨tBar_inHeat _, tBar_inHeat _, tBar_inHeat _, ?_, ?_, rfl, ?_, ?_, ?_, ?_, ?_⟩ <;>
    first | exact readable_of (by decide +kernel) | exact except_of (by decide +kernel)

theorem witness_BarrierEventsRelease :
    0 < imgBase ∧ Memory.wf (tBar tTeamMode tBar1).mem.scr = true ∧
    (∀ b ∈ [tBar1, tBar2, { tBar1 with arr := 1 }], b.arr < 2 ^ 16 ∧ b.exp < 2 ^ 16 ∧ b.gen < 2 ^ 32 ∧ b.pend < 2 ^ 48 ∧
      b.pendn < 2 ^ 48 ∧ b.pexp < 2 ^ 48 ∧ b.wait < 2 ^ 16 ∧ b.bsc < 2 ^ 3) ∧
    (let b : BarW := { tBar1 with arr := 1 }
     (b.bsc = 1 ∨ b.bsc = 2) ∧ b.exp ≤ b.arr ∧ b.pend = 0) ∧
    ¬((tBar2.bsc = 1 ∨ tBar2.bsc = 2) ∧ tBar2.exp ≤ tBar2.arr ∧ tBar2.pend = 0) ∧
    (∃ c, c.wait = Wait.barrier 0 0 0 false ∧ (tIdle (fun c => { c with wait := .barrier 0 0 0 false })).crew tId = some c) ∧
    (∀ gen ∈ [0, 1, 2], let b := ((tBar tTeamMode tBar2).engRelease ((tBar tTeamMode tBar2).whoEng 0 Eng.start) (modeScope 0)).bar 0
      (gen = b.gen ↔ gen = 0) ∧ (gen = (b.gen + 1) % 2 ^ 32 ↔ gen = 1)) :=
  ⟨by decide, by decide +kernel, by decide, by decide, by decide, ⟨_, rfl, rfl⟩, by decide +kernel⟩

/-- DIE scope: strike word 0. -/
def tDieMode : BitVec 40 := BitVec.ofNat 40 (3 * 2 ^ 20)

theorem witness_StrikeAndMonitorWordsComplete :
    let r := tRegs tDieMode []
    let c := tCrew r
    let h := tHeat r
    let s := { tState r with mem := { (tState r).mem with scr := Memory.putBytes [] 0 (leOf 64 (BarW.num ⟨0, 0, 0, 0, 0, 0, 0, 3⟩)) } }
    let s0 := s.setCrew tId c
    InHeat s tId 0 c h ∧ c.wait = .none ∧ Readable c h [] [] [nameS 3] ∧
    (∃ w, s0.barPlace (s.siteCrew tId c) 0 aAtomic = .ok w ∧
      (s0.teamAt c.rk w == some c.team && ((s0.seal tId).bar w).bsc == 3 && ((s0.seal tId).crewEntries c).isEmpty) = true) ∧
    (s0.region c.rk).isSome ∧ (s0.team c.rk c.team).isSome ∧ modeScope r.mode = 3 ∧
    (∀ g, s0.region c.rk = some g → g.strikeScope = none ∧ tId ∉ (Tab.get g.strikes (s0.strikeInst c 3) ⟨0, [], []⟩).struck) ∧
    loadOrd r.mode = true ∧ modeStore r.mode ≠ 2 ∧
    ∃ s1 ls, s0.checkLanes (s.whoCrew tId c) (s.siteCrew tId c) c.com.watchFail false
      [(0, ⟨addrOf 0 0x11 8, 8, aRead, modeStore r.mode, modeScope r.mode, 8, false, false, 2⟩)] = (s1, .ok ls) ∧
      (let x := (ls.flatMap Prod.snd).headD ⟨.scr, 0, false, 0⟩
       let q := (if x.se then s1.seal tId else s1).monitorRead (s.whoCrew tId c) (modeScope r.mode) x 8
       q.2.2 != 5 && !(q.1.loadAcquire tId r.mode).poisoned (s.whoCrew tId c) (ls.flatMap Prod.snd) && x.sp == .scr) = true :=
  ⟨inHeat_of (by decide +kernel), rfl, readable_of (by decide +kernel), except_of (by decide +kernel), by decide +kernel,
    by decide +kernel, by decide +kernel, by intro g hg; injection hg with hg; subst hg; decide +kernel, by decide +kernel,
    by decide +kernel, ok_of (by decide +kernel)⟩

-- Heats and closers.

theorem witness_HeatsOpen :
    (∃ c, Idle (tIdle id) tId 0 c) ∧
    (tEngs (engKey 1 0 0) (fun e => { e with entry := none })).cur = .eng (engKey 1 0 0) ∧
    (tEng (fun e => { e with entry := none })).entry = none ∧
    (tEngs (engKey 1 0 0) (fun e => { e with entry := none })).eng (engKey 1 0 0) = some (tEng (fun e => { e with entry := none })) :=
  ⟨⟨_, rfl, rfl, rfl, rfl, rfl, rfl⟩, rfl, rfl, rfl⟩

/-- The other slot in each state of Table 3-2. -/
def tJoin (o : PcSlot) (st : List StackEntry) : Crew := { Crew.fresh_ 1 0 0 32 8 0x1000 0 with s1 := o, stack := st }

theorem witness_JoinsResolve :
    (∃ c, Idle (tIdle id) tId 0 c ∧ (Crew.resolveJ 4 c 0).2 = true ∧ (Crew.resolveJ 4 c 0).1.stack.length = c.stack.length) ∧
    ((tJoin PcSlot.none []).trap.cause = 0 ∧ ((tJoin PcSlot.none []).slot 0).free = false ∧
    ((tJoin PcSlot.none []).slot 1).free = true ∧ (tJoin PcSlot.none []).stack = [] ∧
    ((tJoin ⟨0x2000, 1, 0, [], false⟩ []).slot 1).free = false ∧ ((tJoin ⟨0x2000, 1, 0, [], false⟩ []).slot 1).parked = false ∧
    ((tJoin ⟨0x1000, 1, 0, [], true⟩ []).slot 1).parked = true ∧ sameChain [] [] = true ∧
      ((tJoin ⟨0x2000, 1, 0, [], true⟩ []).slot 1).parked = true ∧ ¬((0x2000 : DWord) = 0x1000) ∧
      (0x1000 : DWord).toNat ≤ (0x2000 : DWord).toNat ∧ (0x800 : DWord).toNat < (0x1000 : DWord).toNat) ∧
    ∃ e r, (tJoin PcSlot.none [⟨0x2000, 1, 0, [], 0, false⟩]).stack = e :: r :=
  ⟨⟨_, ⟨rfl, rfl, rfl, rfl, rfl, rfl⟩, by decide +kernel, by decide +kernel⟩, by decide +kernel, _, _, rfl⟩

theorem witness_BranchesComplete :
    let r := tRegs 0 [(1, 0x1000)]
    Closing (tState r) tId 0 (tCrew r) (tHeat r) ∧ Readable (tCrew r) (tHeat r).ahead [(tHeat r).key 0] [] [] ∧
    (fieldOf (r.rdS 1) 57 7 = 0 ∧ fieldOf (r.rdS 1) 0 2 = 0 ∧ (Instr.brx 1 0 false).wf = true ∧
      r.tagsIn [(tHeat r).key 0] [fmtINT32, fmtBITS] = true ∧ (r.rdV ((tHeat r).key 0)) = zeroLanes) ∧
    EngClosing (tEngs (engKey 1 0 0) (fun e => { e with s := [(1, 0x1000)] })) (engKey 1 0 0) (tEng (fun e => { e with s := [(1, 0x1000)] })) ∧
    fieldOf ((tEng (fun e => { e with s := [(1, 0x1000)] })).rdS 1) 57 7 = 0 :=
  ⟨closing_of (by decide +kernel), readable_of (by decide +kernel), by decide +kernel, engClosing_of (by decide +kernel), by decide +kernel⟩

theorem witness_CommitsApply :
    let h : Heat := { tHeat (tRegs 0 []) with buf := [.store [⟨.scr, 64, 7, true⟩] 0] }
    let c : Crew := { tCrew (tRegs 0 []) with heat := some h }
    let s : State := { tState (tRegs 0 []) with crews := [(tId, c)] }
    s.crew tId = some c ∧ c.heat = some h ∧ h.gives = [] ∧ h.slot < 2 ∧ Memory.wf s.mem.scr = true ∧
    ∀ o ∈ h.buf, ∃ cells mode, o = .store cells mode ∧ modeOrd mode ≠ 2 ∧
      ∀ x ∈ cells, x.sp = .scr ∧ s.barWord c.rk (x.a / 2 ^ 24) (x.a % 2 ^ 24) = none := by
  refine ⟨rfl, rfl, rfl, by decide, by decide, fun o ho => ?_⟩
  simp at ho
  refine ⟨_, _, ho, by decide, fun x hx => ?_⟩
  simp at hx
  subst hx
  exact ⟨rfl, by decide +kernel⟩

theorem witness_CallsComplete :
    let r := tRegs 0 [(1, 0x1000)]
    let c := tCrew r
    let h := tHeat r
    let s0 := (tState r).setCrew tId c
    Closing (tState r) tId 0 c h ∧ (∀ p ∈ h.pend, p.got.bad = none) ∧
    ((Instr.call 8 0).wf = true ∧ (Instr.callx 8 1).wf = true ∧ c.useRange 1 = none ∧
      fieldOf (r.rdS 1) 57 7 = 0 ∧ fieldOf (r.rdS 1) 0 2 = 0) ∧
    (∃ todo, s0.framePlan (c.setSlot 0 { c.slot 0 with base := 0 }) 0 8 [] 1 = .ok todo ∧ (decide (todo.length ≤ 16)) = true) ∧
    (let o : Crew := { c with s1 := ⟨0x1000, 1, 8, [], true⟩ }
     o.useRange 1 = some (0, 31) ∧ (0 : Nat) + 8 ≤ 31 ∧ 0 ≤ 0 + 8 + 23) ∧
    EngClosing (tEngs (engKey 1 0 0) (fun e => { e with s := [(1, 0x1000)] })) (engKey 1 0 0) (tEng (fun e => { e with s := [(1, 0x1000)] })) ∧
    (tEng (fun e => { e with s := [(1, 0x1000)] })).rets.length < 8 :=
  ⟨closing_of (by decide +kernel), by simp [tHeat, Heat.openAt], by decide +kernel, except_of (by decide +kernel), by decide +kernel,
    engClosing_of (by decide +kernel), by decide +kernel⟩

theorem witness_ReturnsExitsAndSlidesComplete :
    let r := tRegs 0 []
    let c := tCrew r
    let h := tHeat r
    let c2 : Crew := c.setSlot 0 { c.slot 0 with chain := [⟨0, 0x1000, 0, 8, true, 8, false⟩], base := 8 }
    let h2 : Heat := { h with base := 8 }
    let c2 : Crew := { c2 with heat := some h2 }
    let s2 : State := { tState r with crews := [(tId, c2)] }
    let e := tEng (fun e => { e with rets := [0x1000] })
    Closing (tState r) tId 0 c h ∧ (∀ p ∈ h.pend, p.got.bad = none) ∧ (c.slot 0).chain = [] ∧ (c.exitRefill 0 ((tState r).dstkOf c) = [] ∧ ∀ e ∈ c.stack.head?, e.bad = false) ∧
    Closing s2 tId 0 c2 h2 ∧ (∃ top rest, (c2.slot 0).chain = top :: rest ∧ top.bad = false ∧ top.moved = true) ∧ s2.crew tId = some c2 ∧ c2.retRefill 0 = [] ∧ c2.retToken 0 = false ∧
    InHeat (tState r) tId 0 c h ∧ (Instr.slide 2).wf = true ∧
    ((0 : Int) ≤ (h.base : Int) + (2 : BitVec 20).toInt ∧ (h.base : Int) + (2 : BitVec 20).toInt ≤ 1000) ∧
    (∃ todo, ((tState r).setCrew tId c).framePlan c 0 2 [] 0 = .ok todo ∧ (decide (todo.length ≤ 16)) = true) ∧
    EngClosing (tEngs (engKey 1 0 0) (fun e => { e with rets := [0x1000] })) (engKey 1 0 0) e ∧ e.rets = 0x1000 :: [] :=
  ⟨closing_of (by decide +kernel), by simp [tHeat, Heat.openAt], rfl, ⟨by decide +kernel, by simp [tCrew, Crew.fresh_]⟩,
    closing_of (by decide +kernel), ⟨_, _, rfl, rfl, rfl⟩, rfl,
    by decide +kernel, by decide +kernel, tInHeat _, by decide, by decide, except_of (by decide +kernel),
    engClosing_of (by decide +kernel), rfl⟩

/-- A slot of two joins; its lanes stand apart; all lanes exit with an empty stack and a parked other slot; with a stack entry;
and some lanes only. -/
theorem witness_JoinsAndExitsKeepTheLanes :
    (0 < 2 ∧ 1 < 2) ∧
    ((tCrew (tRegs 0 [])).s0.mask :: (tCrew (tRegs 0 [])).s1.mask :: (tCrew (tRegs 0 [])).stack.map (fun e => e.mask)).Pairwise
      (fun a b => a &&& b = 0) ∧
    (∃ c, (tIdle (fun c => { c with s1 := ⟨0x2000, 1, 0, [], true⟩ })).crew tId = some c ∧ (c.slot 0).mask &&& ~~~(0xFFFFFFFF#32) = 0 ∧
      c.stack = [] ∧ (c.slot 1).parked = true ∧ (c.slot 1).free = false ∧ c.trap.cause = 0) ∧
    (∃ c e r, (tIdle (fun c => { c with stack := [⟨0x2000, 1, 0, [], 0, false⟩] })).crew tId = some c ∧ c.stack = e :: r) ∧
    ∃ c, (tIdle id).crew tId = some c ∧ (c.slot 0).mask &&& ~~~(1#32) ≠ 0 :=
  ⟨by decide, by decide +kernel, ⟨_, rfl, by decide +kernel, rfl, rfl, by decide, rfl⟩, ⟨_, _, _, rfl, rfl⟩, ⟨_, rfl, by decide +kernel⟩⟩

-- Traps and faults.

theorem witness_TrapWordsComplete :
    let r := tRegs 0 []
    InHeat (tState r) tId 0 (tCrew r) (tHeat r) ∧ Closing (tState r) tId 0 (tCrew r) (tHeat r) ∧
    (∀ p ∈ (tHeat r).pend, p.got.bad = none) ∧ InEngine (tEngs (engKey 1 0 0) id) (engKey 1 0 0) (tEng id) ∧
    EngClosing (tEngs (engKey 1 0 0) id) (engKey 1 0 0) (tEng id) :=
  ⟨tInHeat _, closing_of (by decide +kernel), by simp [tHeat, Heat.openAt], inEngine_of (by decide +kernel), engClosing_of (by decide +kernel)⟩

/-- A region with a trap entry; a crew without a heat, and one with an open heat. -/
def tTrapRegion : Region := { Region.plain with w := Region.plain.w.set 8 0x3000 }

theorem witness_TrapsEnterTheHandler :
    let s : State := { tState (tRegs 0 []) with regions := [(1, tTrapRegion)] }
    let s' : State := { tIdle id with regions := [(1, tTrapRegion)] }
    s.crew tId = some (tCrew (tRegs 0 [])) ∧ (tCrew (tRegs 0 [])).heat = some (tHeat (tRegs 0 [])) ∧ (tHeat (tRegs 0 [])).slot = 0 ∧
    s.region 1 = some tTrapRegion ∧ tTrapRegion.trape ≠ 0 ∧ (tCrew (tRegs 0 [])).trap.cause = 0 ∧ (tHeat (tRegs 0 [])).off < 24 ∧
    ∃ c, s'.crew tId = some c ∧ c.heat = none ∧ s'.region c.rk = some tTrapRegion ∧ c.trap.cause = 0 :=
  ⟨rfl, rfl, rfl, rfl, by decide, rfl, by decide, ⟨_, rfl, rfl, rfl, rfl⟩⟩

theorem witness_TrapsReturn :
    let h : Heat := { tHeat (tRegs 0 []) with tret := true }
    let c : Crew := { tCrew (tRegs 0 []) with heat := some h, trap := ⟨0, cBREAK, 0, 0, 0, none⟩ }
    let c' : Crew := { c with trap := ⟨0, cBREAK, 0, 0, 1, none⟩ }
    let c2 : Crew := { tCrew (tRegs 0 []) with heat := none, trap := ⟨0, cBREAK, 0, 0, 0, some (tHeat (tRegs 0 []))⟩ }
    let s : State := { tState (tRegs 0 []) with crews := [(tId, c)] }
    s.cur = .crew tId 0 ∧ s.crew tId = some c ∧ c.heat = some h ∧ h.slot = 0 ∧ h.skip ≠ some h.off ∧ c.named = [] ∧ h.tret = true ∧
    (s.setCrew tId c).regHold tId h = none ∧ c.giveRefill h = [] ∧ (c.slot 0).chain.length = c.trap.saveDepth ∧
    (c'.slot 0).chain.length ≠ c'.trap.saveDepth ∧ c2.trap.heat = some (tHeat (tRegs 0 [])) ∧ c.trap.heat = none :=
  ⟨rfl, rfl, rfl, rfl, by decide, rfl, rfl, by decide +kernel, by decide +kernel, rfl, by decide, rfl, rfl⟩

theorem witness_FaultsParkTheCrew :
    let h' : Heat := { tHeat (tRegs 0 []) with sealed := true }
    (tState (tRegs 0 [])).crew tId = some (tCrew (tRegs 0 [])) ∧ (tCrew (tRegs 0 [])).heat = some (tHeat (tRegs 0 [])) ∧
    (tHeat (tRegs 0 [])).sealed = false ∧ h'.sealed = true ∧ h'.slot = 0 ∧ (tCrew (tRegs 0 [])).wait = .none :=
  ⟨rfl, rfl, rfl, rfl, rfl, rfl⟩

theorem witness_TheFirstFailureIsRaised :
    let rs : List (Nat × LaneRes) := [(1, .fail ⟨cACCESS, 0, 8⟩), (2, .fail ⟨cPAGE, 0, 4⟩)]
    rs.Pairwise (fun a b => a.1 < b.1) ∧ (∃ l f, (l, LaneRes.fail f) ∈ rs) ∧
    ∃ ls, laneOutcome true [(0, .ok [])] = .ok ls ∧ (ls.length == 1) = true :=
  ⟨by decide, ⟨1, _, List.mem_cons_self ..⟩, except_of (by decide)⟩

theorem witness_UndecodedWordsAreIllegal :
    let h : Heat := { tHeat (tRegs 0 []) with off := 23 }
    let c : Crew := { tCrew (tRegs 0 []) with heat := some h }
    let s : State := { tState (tRegs 0 []) with crews := [(tId, c)] }
    InHeat (tState (tRegs 0 [])) tId 0 (tCrew (tRegs 0 [])) (tHeat (tRegs 0 [])) ∧ OpU.wf ⟨22, 0, 0, 2, 0, false⟩ = false ∧
    s.cur = .crew tId 0 ∧ s.crew tId = some c ∧ c.named = [] ∧ c.heat = some h ∧ h.slot = 0 ∧ 23 ≤ h.off ∧
    Instr.fence ∈ [Instr.nop, .yield, .tret, .fence] :=
  ⟨tInHeat _, by decide, rfl, rfl, rfl, rfl, rfl, by decide, by decide⟩

-- Tokens, programs, engines.

/-- A token word for 8 registers from v0 in FP32. -/
def tToken : DWord := BitVec.ofNat 64 (fmtFP32 * 2 ^ 24 + 8 * 2 ^ 10)

theorem witness_TokenAndProgramWordsComplete :
    let r := tRegs 0 [(1, tToken), (2, 0x2000), (3, 0x10000), (4, 0x8000000001010000)]
    let c := tCrew r
    let h := tHeat r
    let cT : Crew := { c with toks := [⟨tToken, true⟩] }
    let s := tState r
    let s0 := s.setCrew tId c
    let e := tEng (fun e => { e with s := [(2, 0x2000), (3, 0x10000), (4, 0x8000000001010000)] })
    InHeat s tId 0 c h ∧ Readable c h [] [] [nameS 5] ∧ c.giveBad h (r.rdS 1) = false ∧
    (∃ t, cT.toks.find? (fun t => tokBase t.word == tokBase (r.rdS 1)) = some t ∧ t.returned = true) ∧
    ((r.rdS 3).getLsbD 63 = false ∧ fieldOf (r.rdS 3) 24 24 = 0 ∧ targetOk (r.rdS 3) = true ∧ fieldOf (r.rdS 2) 0 2 = 0) ∧
    ((r.rdS 4).getLsbD 63 = true ∧ targetOk (r.rdS 4) = true ∧
      ((s0.seal tId).joined ((s0.seal tId).handleHome c.rk c.team ((s0.seal tId).coreOf c / 96) (r.rdS 4)) (fieldOf (r.rdS 4) 24 24)) = some 2) ∧
    (∃ s1 ls, s0.checkLanes (s.whoCrew tId c) (s.siteCrew tId c) c.com.watchFail false
      [(0, ⟨(r.rdS 2).toNat, 64, aRead, 3, 4, 64, false, false, 0⟩)] = (s1, .ok ls) ∧
      (let s2 := (s1.seal tId).releaseCrew tId 4 3
       let q := s2.readLanes (s.whoCrew tId c) 0 (s2.heatOf tId) ls
       (q.1.got (s.whoCrew tId c) false [] ls).bad.isNone) = true) ∧
    InEngine (tEngs 0 (fun e => { e with s := [(2, 0x2000), (3, 0x10000), (4, 0x8000000001010000)] })) 0 e ∧ engKind 0 = 0 ∧
    (∀ p ∈ e.pend, p.1 ≠ 5) ∧
    (tEngs 0 (fun e => { e with s := [(2, 0x2000), (3, 0x10000), (4, 0x8000000001010000)] })).joined
      ((tEngs 0 (fun e => { e with s := [(2, 0x2000), (3, 0x10000), (4, 0x8000000001010000)] })).handleHome e.rk e.team 0 (e.rdS 4)) 1 = some 2 :=
  ⟨tInHeat _, readable_of (by decide +kernel), by decide +kernel, ⟨_, rfl, rfl⟩, by decide +kernel, by decide +kernel,
    ok_of (by decide +kernel), inEngine_of (by decide +kernel), by decide, by simp [tEng, Eng.start], by decide +kernel⟩

theorem witness_ProgramsStartOnFreeContexts :
    targetOk 0x10000 = true ∧ (((tEngs 65536 id).eng 65536).getD Eng.start).busy = true ∧
    (((tEngs 65536 id).eng 65537).getD Eng.start).busy = false := by decide +kernel

/-- A Miller context with one FP32 accumulator descriptor on core 0, which it holds in grid mode. -/
def tMillerEng (e : Eng) : Eng :=
  { e with accs := [(1, BitVec.ofNat 64 (fmtFP32 * 256))], s := [(1, 0x10000), (2, 0), (3, 1)] }
def tMiller : State :=
  let s := tEngs 0 tMillerEng
  { s with cores := s.cores.map (fun kv => (kv.1, { kv.2 with grid := some 0 })) }

theorem witness_MatrixWordsComplete :
    let e := tEng tMillerEng
    InEngine tMiller 0 e ∧ engKind 0 = 0 ∧ e.waits 0 = false ∧ e.dep 0 < 255 ∧
    tMiller.xCheck 0 (e.xop tMiller.uid (.mzero 0 0 0) 0 tMiller.clock) = none ∧ e.dep 0 + (15 : BitVec 4).toNat + 1 ≤ 255 ∧
    ((e.rdS 1).toNat &&& 0x10FF7 = (e.rdS 1).toNat ∧ gmodeCores 0 (e.rdS 1) ≠ [] ∧
      (∀ c ∈ gmodeCores 0 (e.rdS 1), tMiller.foreignCrew e.rk c = false) ∧
      (∀ c ∈ gmodeCores 0 (e.rdS 1), ∀ k', (tMiller.coreSt c).grid = some k' → k' = 0) ∧
      (e.rdS 1).getLsbD 16 = true ∧ (∀ c ∈ gmodeCores 0 (e.rdS 1), tMiller.vectorBusy c = false) ∧
      (e.rdS 2).getLsbD 16 = false ∧ (∀ c ∈ gmodeCores 0 (e.rdS 2), e.occupies 0 c = false)) ∧
    ((Instr.tset ⟨0, 2, 0⟩).wf = true ∧ e.usesTile 0 = false ∧ (e.rdS 2).toNat &&& tileMask 0 = (e.rdS 2).toNat ∧
      fmtReserved (fieldOf (e.rdS 3) 0 5) = false ∧ (Instr.aset ⟨0, 2, 1⟩).wf = true ∧ e.usesAcc 0 = false ∧
      (e.rdS 2).toNat &&& accMask 1 = (e.rdS 2).toNat ∧ fieldOf (e.rdS 2) 16 3 < 6 ∧ (Instr.tget ⟨4, 0, 0⟩).wf = true) ∧
    (∀ p ∈ e.pend, p.1 ≠ 4) ∧ EngClosing tMiller 0 e ∧ e.xops = [] := by
  have hc : gmodeCores 0 ((tEng tMillerEng).rdS 1) = [0] := by decide +kernel
  refine ⟨inEngine_of (by decide +kernel), by decide, by decide +kernel, by decide +kernel, by decide +kernel, by decide +kernel, ?_,
    by decide +kernel, by simp [tEng, tMillerEng, Eng.start], engClosing_of (by decide +kernel), rfl⟩
  rw [hc]
  refine ⟨by decide +kernel, by decide, by decide +kernel, ?_, by decide +kernel, by decide +kernel, by decide +kernel, by decide +kernel⟩
  intro c hc k' hk
  simp only [List.mem_cons, List.not_mem_nil, or_false] at hc
  subst hc
  have h0 : (tMiller.coreSt 0).grid = some 0 := by decide +kernel
  rw [h0] at hk
  injection hk with hk
  exact hk.symm

/-- A queue and a Tailrace context; a collective's block at 0x2000, its one peer's rank at 0x3000. -/
def tFlEng (e : Eng) : Eng := { e with s := [(1, 0x2000), (2, 0x3000), (3, 64), (4, 1), (5, 2), (8, 1)] }
def tQueue : State := tEngs 65536 tFlEng
def tTail : State :=
  let s := tEngs 131072 tFlEng
  { s with mem := { s.mem with
      pkg := Memory.putBytes s.mem.pkg 0x2000 (leOf 8 0 ++ leOf 8 0 ++ leOf 8 (fmtFP32 * 2 ^ 48) ++ leOf 8 1 ++ leOf 8 0x3000) } }

theorem witness_TransferWordsComplete :
    let e := tEng tFlEng
    InEngine tQueue 65536 e ∧ InEngine tTail 131072 e ∧ e.ents.length < 17 ∧ engKind 65536 = 1 ∧ engKind 131072 = 2 ∧
    ((e.rdS 3).toNat ≤ 2 ^ 40 ∧ fieldOf (e.rdS 3) 32 32 * fieldOf (e.rdS 3) 0 32 ≤ 2 ^ 40 ∧
      fieldOf (e.rdS 4) 41 23 = 0 ∧ fieldOf (e.rdS 4) 32 8 ≤ 8 ∧ (3 : BitVec 5) ≠ 31 ∧ (2 : BitVec 3).toNat ≤ 2 ∧
      (fenceMask 65536 (e.rdS 4)).testBit (engIdx 65536) = true ∧ fieldOf (e.rdS 4) 16 48 = 0 ∧
      (fenceMask 131072 (e.rdS 4)).testBit (engIdx 131072) = true ∧ (e.rdS 1).getLsbD 63 = false ∧ (e.rdS 1).toNat % 64 = 0) ∧
    (∃ x, tTail.engRead 131072 e 0 [(0, ⟨(e.rdS 1).toNat, 64, aRead, 1, modeScope e.mode, 64, false, false, 0⟩)] = .ok x ∧
      (let w := (List.range 8).map (fun i => BitVec.ofNat 64 (leNat ((x.2.flatten.drop (8 * i)).take 8)))
       let c := Coll.of w
       !collBad w && match x.1.engRead 131072 e 0 [(0, ⟨c.peers.toNat, 8 * c.p, aRead, 3, modeScope e.mode, 1, false, false, 0⟩)] with
        | .ok _ => true
        | _ => false) = true) ∧
    EngClosing tQueue 65536 e ∧ (e.age true).rdS 9 = 0 ∧ (e.age true).rdS 8 = 1 ∧ 1 < ((e.age true).rdS 5).toNat ∧ e.ents = [] :=
  ⟨inEngine_of (by decide +kernel), inEngine_of (by decide +kernel), by decide, by decide, by decide, by decide +kernel,
    except_of (by decide +kernel), engClosing_of (by decide +kernel), by decide +kernel, by decide +kernel, by decide +kernel, rfl⟩

theorem witness_WordsBelongToTheirAgents :
    let r := tRegs 0 []
    InHeat (tState r) tId 0 (tCrew r) (tHeat r) ∧ InEngine (tEngs 65536 id) 65536 (tEng id) ∧ engKind 65536 ≠ 0 ∧
    (∃ o, Instr.tset ⟨0, 0, 0⟩ = .tset o) ∧ (∃ o, Instr.iadd ⟨0, 0, 0, 0, 0, false⟩ = .iadd o) :=
  ⟨tInHeat _, inEngine_of (by decide +kernel), by decide, ⟨_, rfl⟩, ⟨_, rfl⟩⟩

theorem witness_SystemWordsComplete :
    let r := tRegs 0 [(1, 0x2000), (2, 4), (3, 0), (5, 3)]
    let c := tCrew r
    let h := tHeat r
    let s := tState r
    InHeat s tId 0 c h ∧ Readable c h [] [] [nameS 4] ∧
    (csrListed 0 = true ∧ csrListed 0x23 = true ∧ csrPriv 0x10 = true ∧ s.privileged c.rk = true ∧ (0x20 : BitVec 10).toNat ≥ 0x20) ∧
    (fieldOf (r.rdS 2) 0 2 ≠ 3 ∧ fieldOf (r.rdS 2) 4 60 = 0 ∧ fieldOf (r.rdS 2) 2 2 ≠ 3) ∧
    (bits (r.rdS 3).toNat 0 2 ≠ 3 ∧ (r.rdS 3).toNat &&& 0x303 = (r.rdS 3).toNat ∧ (r.rdS 1).toNat < 2 ^ 57 ∧
      Tab.get s.mem.classq (s.whoCrew tId c).die [] = []) ∧
    (∃ s1, ((s.setCrew tId c).seal tId).performLaters.classFix (s.whoCrew tId c).fdom (r.rdS 1).toNat (bits (r.rdS 3).toNat 0 2) (s.coreOf c) = (s1, none)) ∧
    (let s1 := (s.setCrew tId c).seal tId
     fieldOf (r.rdS 5) 0 4 = 3 ∧ 3 ≤ 3 ∧ 3 ≤ s1.ceilOf (sliceKey (s.coreOf c)) ∧ ¬(9 ≤ 8) ∧ (s1.region c.rk).isSome) ∧
    (∃ g, s.region c.rk = some g ∧ (r.rdS 3).toNat < g.grid) ∧
    InEngine (tEngs 0 id) 0 (tEng id) ∧ engKind 0 = 0 ∧ (∀ p ∈ (tEng id).pend, p.1 ≠ 4) := by
  refine ⟨tInHeat _, readable_of (by decide +kernel), by decide +kernel, by decide +kernel, by decide +kernel, ?_, by decide +kernel,
    ⟨_, rfl, by decide +kernel⟩, inEngine_of (by decide +kernel), by decide, by simp [tEng, Eng.start]⟩
  have key : ∀ x : State × Option Fail, x.2.isNone = true → ∃ s1, x = (s1, none) := by
    rintro ⟨a, _ | b⟩ h
    · exact ⟨a, rfl⟩
    · exact absurd h (by simp)
  exact key _ (by decide +kernel)

/-- A region of fault domain 5 has no privilege. -/
theorem witness_PrivilegeIsChecked :
    let r := tRegs 0 [(5, 3)]
    let s : State := { tState r with regions := [(1, { Region.plain with fdom := 5 })] }
    InHeat s tId 0 (tCrew r) (tHeat r) ∧ Readable (tCrew r) (tHeat r) [] [] [nameS 4] ∧
    s.privileged (tCrew r).rk = false ∧ csrPriv (0x10 : BitVec 10).toNat = true ∧ csrListed (0x13 : BitVec 10).toNat = false ∧
    fieldOf (r.rdS 5) 0 4 = 3 ∧ (3 : BitVec 10).toNat ≤ 3 :=
  ⟨inHeat_of (by decide +kernel), readable_of (by decide +kernel), by decide +kernel⟩

-- Events.

/-- What a stopping operation gave, as an equation. -/
theorem done_of {α : Type} {x : State × Option α} (h : x.2.isNone = true) : ∃ s1, x = (s1, none) := by
  obtain ⟨a, _ | b⟩ := x
  · exact ⟨a, rfl⟩
  · exact absurd h (by simp)

/-- A crew whose open heat stands at the word of `i`, changed by `f`. -/
def tHolds (i : Instr) (f : Crew → Crew) : State :=
  let s := State.reset.place 32 (((encode i).getD 0).toNat)
  { s with turns := [], cur := .crew tId 0, crews := s.crews.map (fun kv => (kv.1, f kv.2)) }

/-- The crew's slot may issue, and its word is fetched and is `i`, a word that blocks. -/
def tFetches (s : State) (i : Instr) : Bool :=
  match s.crew tId with
  | some c => (match c.heat with
    | some h => s.eligible (.crew tId h.slot) &&
      (match State.fetchWord { s with cur := .crew tId h.slot } (s.whoCrew tId c) (c.slot h.slot).pc with
        | (_, .ok v) => (match decodeWord v with
          | .ok j => decide (j = i) && i.blocks
          | .error _ => false)
        | _ => false)
    | none => false)
  | none => false

theorem fetches_of {s : State} {i : Instr} (x : tFetches s i = true) : ∃ (c : Crew) (h : Heat) (w : Word) (s1 : State),
    s.crew tId = some c ∧ c.heat = some h ∧ s.eligible (.crew tId h.slot) = true ∧
    State.fetchWord { s with cur := .crew tId h.slot } (s.whoCrew tId c) (c.slot h.slot).pc = (s1, .ok w) ∧
    decodeWord w = .ok i ∧ i.blocks = true := by
  unfold tFetches at x
  split at x
  · rename_i c hc
    split at x
    · rename_i h hh
      simp only [Bool.and_eq_true] at x
      obtain ⟨x1, x2⟩ := x
      split at x2
      · rename_i s1 v hv
        split at x2
        · rename_i j hj
          simp only [Bool.and_eq_true, decide_eq_true_eq] at x2
          obtain ⟨rfl, hb⟩ := x2
          exact ⟨c, h, v, s1, hc, hh, x1, hv, hj, hb⟩
        · simp at x2
      · simp at x2
    · simp at x
  · simp at x

def tMwait : Instr := .mwait ⟨2, 1, 0, 0⟩ false
def tTwait : Instr := .twait ⟨2, 1, 0, 0⟩
def tWaits (wt : Wait) (c : Crew) : Crew := { c with wait := wt }
def tMon : State :=
  let s := tHolds tMwait (tWaits .monitor)
  { s with mem := { s.mem with monitors := [⟨tId, 0, .scr, 0, 4, true⟩] } }
def tGranted : State := (tHolds tTwait (tWaits (.ticket 0 0 0 false))).setTicket 0 ⟨1, 0, [], [(tId, 0)], 0⟩
def tQueued : State := (tHolds tTwait (tWaits (.ticket 0 0 0 false))).setTicket 0 ⟨1, 0, [(tId, 0)], [], 0⟩
/-- A reservation of a crew that does not wait, made 256 cc ago. -/
def tUnclaimed : State := { (tIdle id).setTicket 0 ⟨1, 0, [], [(tId, 0)], 0⟩ with clock := 256 }


/-- A crew that owes the spill of a linkage unit, with one place in its area. -/
def tSpills : State :=
  { tIdle (fun c => c.updRing (fun g => { g with todo := [200] })) with
    regions := [(1, { Region.plain with w := Region.plain.w.set 10 0x400 })] }

theorem witness_CrewEventsComplete :
    (let c : Crew := { Crew.fresh_ 1 0 0 32 8 0x1000 0 with named := [⟨[.s 3 7], 0, 0x1000, 1, 0, 0, .clean⟩] }
     (tIdle (fun c => { c with named := [⟨[.s 3 7], 0, 0x1000, 1, 0, 0, .clean⟩] })).crew tId = some c ∧ c.named ≠ [] ∧ c.bad = none) ∧
    (∃ s1, (tIdle (fun c => c.updRing (fun g => { g with todo := [199] }))).transfer tId 199 1 = (s1, none)) ∧
    (∃ c s1, tSpills.crew tId = some c ∧ tSpills.firstAsker tId c = true ∧ tSpills.transfer tId 200 1 = (s1, none)) ∧
    (∃ s1, (tIdle (tWaits (.refill 0 [7]))).bring tId 7 0 [7] = (s1, none)) ∧
    (∃ s1, (tIdle (tWaits (.reg tId 7))).bring tId 7 2 [] = (s1, none)) ∧
    (tFetches tMon tMwait = true ∧ (∀ m ∈ tMon.mem.monitors, m.crew = tId ∧ m.fired = true) ∧
    tFetches tGranted tTwait = true ∧ tGranted.granted 0 tId = true ∧
    tFetches (tHolds tTwait (tWaits (.barrier 0 0 0 false))) tTwait = true ∧
    tFetches tQueued tTwait = true ∧ tQueued.queued 0 tId = true ∧
    ((tUnclaimed.ticketOf 0).reserved = [(tId, 0)] ∧ 0 + 256 ≤ tUnclaimed.clock)) ∧
    (let s : State := { tIdle id with clock := 4096 }
     s.slotEligible tId 0 = true ∧ (∃ c, s.crew tId = some c ∧ c.since 0 + 4096 ≤ s.clock ∧ 0 ∉ c.promoted)) ∧
    (let s := tIdle (fun c => { c with exited := 0xFFFFFFFF })
     ∃ c t, s.crew tId = some c ∧ s.team c.rk c.team = some t ∧ t.st = .placed ∧ c.launched &&& ~~~c.exited = 0 ∧ c.heat = none ∧
      c.park = none ∧ c.ring.todo = [] ∧ (c.toks = [] ∨ s.millerOf c = false)) := by
  have spills : ∃ c s1, tSpills.crew tId = some c ∧ tSpills.firstAsker tId c = true ∧ tSpills.transfer tId 200 1 = (s1, none) := by
    obtain ⟨s1, h⟩ := done_of (x := tSpills.transfer tId 200 1) (by decide +kernel)
    exact ⟨_, s1, rfl, by decide +kernel, h⟩
  refine ⟨⟨rfl, by decide, rfl⟩, done_of (by decide +kernel), spills, done_of (by decide +kernel),
    done_of (by decide +kernel), by decide +kernel, ⟨by decide +kernel, _, rfl, by decide +kernel, by decide +kernel⟩,
    ⟨_, Team.placedOn 0, rfl, by decide +kernel⟩⟩
/-- A Miller context with one operation over the crew's block of four FP32 registers; its tile lies where nothing is mapped. -/
def tX (op : Instr) (started : Bool) : XOp :=
  ⟨7, op, [(0, 0x10000000000), (1, 0x400010001), (2, BitVec.ofNat 64 fmtFP32)], [(1, BitVec.ofNat 64 (fmtFP32 * 256))], 0, 0, started,
    0x1000, 0xFFC, 1, 0⟩
def tXEng (op : Instr) (started : Bool) (e : Eng) : Eng := { e with xops := [tX op started] }
def tXState (op : Instr) (started : Bool) (toks : List Token) : State :=
  let s := tEngs 0 (tXEng op started)
  { s with
    clock := 2 ^ 24 + 1, power := { s.power with granted := [.xop 0 7] }, crews := s.crews.map (fun kv => (kv.1, { kv.2 with toks := toks })) }
def tAway : List Token := [⟨BitVec.ofNat 64 (fmtFP32 * 2 ^ 24 + 4 * 2 ^ 10), false⟩]

/-- A queue with one entry. -/
def tEntry (op : Instr) (a : DWord) : Entry := ⟨3, op, 0, a, 0, 0, 0, 0, [], 0x1000, 0xFFC, 1, 0, 0⟩
def tEntEng (op : Instr) (a : DWord) (e : Eng) : Eng := { e with ents := [tEntry op a] }
def tEnts (op : Instr) (a : DWord) : State :=
  let s := tEngs 65536 (tEntEng op a)
  { s with clock := 1401, mil := { s.mil with engto := 1 } }

def tZero : Instr := .mzero 0 0 0
def tMma : Instr := .mma 0 0 0 0 0 false false

theorem error_of {α : Type} {x : Except Stop α} (h : (match x with
      | .error (.after _ _) => true
      | _ => false) = true) : ∃ s f, x = .error (.after s f) := by
  split at h
  · exact ⟨_, _, rfl⟩
  · simp at h

theorem mma_error {s : State} {k : Nat} {e : Eng} {x : XOp} {ps : List (Nat × Crew)} {a t u : BitVec 4} {sl : BitVec 3} {w : BitVec 8}
    {z v : Bool} {st : Stop} (hx : x.op = .mma a t u sl w z v) (h : s.readTile k e x.mode (x.tile 0) x.acc.rnd.ftz = .error st) :
    s.xEffect k e x ps = .error st := by
  unfold State.xEffect
  rw [hx]
  simp only [h]

/-- An operation with an owner starts, completes, or faults on its tile; one without times out. -/
theorem witness_EngineEventsComplete :
    (tEng (tXEng tZero false)).live = true ∧ (tXState tZero false tAway).eng 0 = some (tEng (tXEng tZero false)) ∧
    (tXState tZero false tAway).xReady 0 (tEng (tXEng tZero false)) (tX tZero false) = true ∧
    ((tXState tZero true tAway).owners 0 (tEng (tXEng tZero true)) (tX tZero true).acc).isSome = true ∧
    (∀ ps, ∃ s1, (tXState tZero true tAway).xEffect 0 (tEng (tXEng tZero true)) (tX tZero true) ps = .ok s1) ∧
    ((tXState tMma true tAway).owners 0 (tEng (tXEng tMma true)) (tX tMma true).acc).isSome = true ∧
    (∀ ps, ∃ s1 f, (tXState tMma true tAway).xEffect 0 (tEng (tXEng tMma true)) (tX tMma true) ps = .error (.after s1 f)) ∧
    (Grant.xop 0 7 ∈ (tXState tZero true tAway).power.granted ∧ Grant.xop 0 7 ∈ (tXState tMma true tAway).power.granted ∧
      (tX tZero true).loads = false ∧ ((tXState tMma true tAway).owners 0 (tEng (tXEng tMma true)) (tX tMma true).acc).any (fun ps =>
        ps.all (fun p => !(tX tMma true).acc.lost p.2)) = true) ∧
    (tXState tZero false []).owners 0 (tEng (tXEng tZero false)) (tX tZero false).acc = none ∧
    ((tXState tZero false []).mil.millto ≠ 0 ∧
      (tX tZero false).since + (tXState tZero false []).mil.millto < (tXState tZero false []).clock) ∧
    -- entries: one of no bytes, one whose accumulator does not exist, a fence of one queue that then waits beyond its limit
    (let n := tEntry (.cpy ⟨0, 0, 0, false, 0⟩) 0
     let e := tEng (tEntEng n.op 0)
     e.ents = [n] ∧ (tEnts n.op 0).entryWaits 65536 e n = false ∧ n.unpaid 65536 = false ∧ ∃ s1, (tEnts n.op 0).doEntry 65536 e n = .ok (s1, none)) ∧
    (let n := tEntry (.esig 0 0 1) 0x80
     let e := tEng (tEntEng n.op 0x80)
     e.ents = [n] ∧ (tEnts n.op 0x80).entryWaits 65536 e n = false ∧ n.unpaid 65536 = false ∧ ∃ f l, (tEnts n.op 0x80).doEntry 65536 e n = .error (.fault f l)) ∧
    (let n := tEntry (.cpy ⟨0, 0, 0, false, 0⟩) 0x10000000000
     let n := { n with b := 8, paid := 1 }
     let e := tEng (fun e => { e with ents := [n] })
     let s := { tEngs 65536 (fun e => { e with ents := [n] }) with mil := { State.reset.mil with engto := 1 } }
     e.ents = [n] ∧ s.entryWaits 65536 e n = false ∧ n.unpaid 65536 = false ∧ ∃ s1 f, s.doEntry 65536 e n = .error (.after s1 f)) ∧
    (let n := tEntry (.qfence 0) 1
     let s := tEnts n.op 1
     let e := tEng (tEntEng n.op 1)
     s.atFence n 65536 = true ∧ (∀ q ∈ fenceKeys 65536 n.a.toNat, s.atFence n q = true) ∧
      s.entryWaits 65536 e n = true ∧ s.mil.engto ≠ 0 ∧ n.since + s.mil.engto * 1400 < s.clock) := by
  refine ⟨by decide +kernel, rfl, by decide +kernel, by decide +kernel, fun ps => ⟨_, rfl⟩, by decide +kernel, ?_,
    by decide +kernel, ?_, by decide +kernel, ⟨rfl, rfl, rfl, _, rfl⟩, ⟨rfl, rfl, rfl, _, _, rfl⟩, ⟨rfl, by decide +kernel, by decide +kernel, error_of (by decide +kernel)⟩, by decide +kernel⟩
  · intro ps
    obtain ⟨f, l, h⟩ := error_of (x := (tXState tMma true tAway).readTile 0 (tEng (tXEng tMma true)) (tX tMma true).mode
      ((tX tMma true).tile 0) (tX tMma true).acc.rnd.ftz) (by decide +kernel)
    exact ⟨f, l, mma_error rfl h⟩
  · exact Option.isNone_iff_eq_none.1 (by decide +kernel)
-- The scheduler.

/-- A launch message that names the RCB at 0x20000, and one of another version. -/
def tMsg (ver : Nat) : List DWord := 0x20000 :: BitVec.ofNat 64 (ver * 2 ^ 56) :: List.replicate 6 0
/-- The machine with the message queued, and an RCB with words `w` at 0x20000. -/
def tLaunch (ver : Nat) (w : List DWord) : State :=
  let s := tIdle id
  { s with
    port := { s.port with queue := [tMsg ver], up := true, ready := true }
    mem := { s.mem with pkg := Memory.putBytes s.mem.pkg 0x20000 (w.flatMap (fun x => leOf 8 x.toNat)) } }

def isOkOf {α β : Type} (x : State × Except α β) : Bool :=
  match x.2 with
  | .ok _ => true
  | .error _ => false

/-- The placed team of region 1, its crews given by `cs`, and a second region made from the first by `g`. -/
def tTeams (cs : Tab Crew) (t : Team → Team) (g : Region → Region) : State :=
  let s := tIdle id
  { s with
    crews := cs, teams := [(teamKey 1 0, t (Team.placedOn 0))]
    regions := s.regions ++ [(2, g { Region.plain with rcb := 0x90000 })]
    port := { s.port with ctxn := 1, ctxb := 0x1000000 } }

/-- Region 1's team on core 0, every other core marked for a team of another region; region 2, under the same root and of a
higher priority, has waited 140,000 cc. -/
def tPressed : State :=
  let s := tTeams [(tId, Crew.fresh_ 1 0 0 32 8 0x1000 0)] id (fun r => { r with parent := some 0, pri := 2, w := r.w.set 6 0x0001004000061A10 })
  { s with
    regions := (0, { Region.plain with kind := 0, rcb := 0xA0000 }) :: s.regions.map (fun kv => (kv.1, { kv.2 with parent := some 0 }))
    cores := (0, s.coreSt 0) :: (List.range' 1 3071).map (fun c => (c, { s.coreSt 1 with mark := some (9, 9) }))
    port := { s.port with waits := [(teamKey 2 0, 140000)] } }

/-- A parked crew's fault that waits for ring space, the ring being 64 records at 0x300000 and empty again. -/
def tFr : FaultRec := ⟨0, false, false, false, cACCESS, none, 0, 0x80000, 0, 0, 0, 0, 0, 1, 0xFFC, 0x1000, 0, 0⟩
def tUnposted : State :=
  let s := tIdle (fun c => { c with park := some ⟨tFr, none, false, 0, none, 0⟩ })
  { s with
    port := { s.port with unposted := [⟨0, tId, false, tFr⟩], fdtb := 0x500000 }
    mem := { s.mem with pkg := Memory.putBytes s.mem.pkg 0x500000 (leOf 8 0x300000) } }

theorem err_of {α : Type} {x : State × Except (Nat × Nat) α} (h : (match x.2 with
      | .error _ => true
      | .ok _ => false) = true) : ∃ s1 e off, x = (s1, .error (e, off)) := by
  obtain ⟨a, e | b⟩ := x
  · exact ⟨a, e.1, e.2, rfl⟩
  · simp at h

theorem tree_of {α : Type} {x : State × Except (Nat × Nat) α} {p : State → α → Bool} (h : (match x with
      | (s, .ok l) => p s l
      | _ => false) = true) : ∃ s1 l, x = (s1, .ok l) ∧ p s1 l = true := by
  obtain ⟨s, e⟩ := x
  cases e with
  | ok l => exact ⟨s, l, rfl, h⟩
  | error e => simp at h

theorem pair_of {α : Type} {x : State × Option α} (h : x.2.isSome = true) : ∃ s1 q, x = (s1, some q) := by
  obtain ⟨a, _ | b⟩ := x
  · simp at h
  · exact ⟨a, b, rfl⟩

def tNew : State := tTeams [] id id
def tNewR : Region := { Region.plain with rcb := 0x90000 }
def tImagedT : Team := { Team.placedOn 0 with st := .imaged, image := some 0 }
def tImaged : State := tTeams [] (fun _ => tImagedT) (fun r => { r with evicted := true })

theorem tNew_first : ∃ s1, tNew.firstPlaceable = some (2, 0, s1) := by
  obtain ⟨s1, h⟩ := placeable_new (s := tNew) (rk := 2) (team := 0) (r := tNewR) (j := 0) 1 (by decide) (by decide +kernel)
    (by decide +kernel) (by decide +kernel)
  exact ⟨s1, firstPlaceable_head (r := tNewR) (rs := []) (ts := []) (by decide +kernel) (by decide +kernel) h⟩

theorem tImaged_first : ∃ s1, tImaged.firstPlaceable = some (1, 0, s1) := by
  obtain ⟨x, hx⟩ := choose_some (s := tImaged) (rk := 1) (team := 0) (r := Region.plain) (j := 0)
    (ok := tImaged.resumeOk 1 Region.plain 0 tImagedT) 1 (by decide) (by decide +kernel) (by decide +kernel)
  have ht : tImaged.team 1 0 = some tImagedT := by decide +kernel
  have hi : ∀ c j, tImaged.resumeIdx 1 Region.plain 0 c j = some j := by
    intro c j
    have he : tImaged.engs = [] := rfl
    simp [State.resumeIdx, State.waitingFor, he]
  exact ⟨_, firstPlaceable_head (r := Region.plain) (rs := []) (ts := []) (by decide +kernel) (by decide +kernel)
    (placeable_held ht hx (hi x.1 x.2))⟩

def tHigh : Region :=
  { Region.plain with rcb := 0x90000, parent := some 0, pri := 2, w := Region.plain.w.set 6 0x0001004000061A10 }

theorem find_range' {α : Type} (v : α) : ∀ n a c, a ≤ c → c < a + n → Tab.find ((List.range' a n).map (fun i => (i, v))) c = some v
  | 0, a, c, h, h' => absurd h' (by omega)
  | n + 1, a, c, h, h' => by
    simp only [List.range'_succ, List.map_cons, Tab.find]
    split
    · rfl
    · exact find_range' v n (a + 1) c (by omega) (by omega)

theorem tPressed_full (c : Nat) (hc : c < nCores) : tPressed.roomAt 2 tHigh 0 c none = none := by
  by_cases h : c = 0
  · subst h
    decide +kernel
  · simp only [nCores] at hc
    have hm : (tPressed.coreSt c).mark = some (9, 9) := by
      have h0 : ¬(0 : Nat) = c := fun x => h x.symm
      simp only [State.coreSt, Tab.get, tPressed, Tab.find, if_neg h0, find_range' _ 3071 1 c (by omega) (by omega), Option.getD_some]
    unfold State.roomAt
    rw [hm]
    split <;> rfl

theorem tPressed_marks : ∀ kv ∈ tPressed.cores, kv.2.mark ≠ some (2, 0) := by
  intro kv hk
  rcases List.mem_cons.1 hk with rfl | hk
  · decide +kernel
  · obtain ⟨c, _, rfl⟩ := List.mem_map.1 hk
    exact fun h => absurd (Option.some.inj h) (by decide)

theorem tPressed_need : ∃ v t, tPressed.roomNeed = some (teamKey 2 0, v, t) ∧ t.core / 384 = 0 := by
  have hc : tPressed.coreless 2 tHigh 0 = true :=
    coreless_of (c := 0) (by decide) (by decide +kernel) (by decide +kernel) tPressed_full (by decide +kernel) tPressed_marks
  have hv : tPressed.victimFor 2 tHigh 0 = some (teamKey 1 0, Team.placedOn 0) := by decide +kernel
  exact ⟨_, _, roomNeed_head (by decide +kernel) (by decide +kernel) (by decide +kernel) hc (by decide +kernel) hv, by decide⟩

theorem witness_SchedulerEventsComplete :
    -- messages and trees
    ((tLaunch 1 []).port.up = true ∧ (tMsg 1).length = 8 ∧ (tLaunch 1 []).port.queue = [tMsg 1] ∧
      msgBad (tMsg 1) = false ∧ msgBad (tMsg 2) = true ∧ rw (tMsg 1) 0 0 57 = 0x20000) ∧
    (∃ s1 e off, State.visitTree 0x20000 258 [(0x20000, none, 0)] (tLaunch 1 (Region.plain.w.set 0 0)) [] = (s1, .error (e, off))) ∧
    (∃ s1 ns, State.visitTree 0x20000 258 [(0x20000, none, 0)] (tLaunch 1 Region.plain.w) [] = (s1, .ok ns) ∧
      decide ((s1.regions.filter (fun kv => decide (kv.2.state < 2))).length + ns.length ≤ 1024) = true) ∧
    -- nodes, regions, teams
    (let s := tTeams [] id (fun r => { r with kind := 3, ready := false })
     ∃ r, s.byRcb 0x90000 = some (2, r) ∧ r.state < 2 ∧ r.kind = 3 ∧ r.ready = false ∧ s.nodeInputs 2 r = true) ∧
    (let s := tTeams [] id (fun r => { r with retired := 1 })
     ∃ r, s.byRcb 0x90000 = some (2, r) ∧ r.state < 2 ∧ s.regionDone 2 r = true) ∧
    (let s := tTeams [] id id
     ∃ r t, s.byRcb 0x80000 = some (1, r) ∧ r.state < 2 ∧ s.team 1 0 = some t ∧ s.teamOver 1 0 t = true) ∧
    (let s := tTeams [(tId, Crew.fresh_ 1 0 0 32 8 0x1000 0)] (fun t => { t with pre := true }) id
     ∃ t, s.team 1 0 = some t ∧ t.st = .placed ∧ t.pre = true ∧ t.preStep = 0 ∧ s.holders_ 1 0 = [] ∧
      s.crews.all (fun kv => kv.2.canStop) = true) ∧
    (let s := tTeams [(tId, Crew.fresh_ 1 0 0 32 8 0x1000 0)] (fun t => { t with pre := true, preStep := 1 }) id
     ∃ t, s.team 1 0 = some t ∧ s.freeSlot = some 0 ∧ t.st = .placed ∧ t.preStep = 1 ∧
      s.shareIdle 1 0 (scrAddr t.core (t.idx * Region.plain.allotBytes)) (scrAddr t.core (t.idx * Region.plain.allotBytes) + Region.plain.allotBytes) = true) ∧
    -- placements: a new team, and one whose image resumes
    (∃ s1, tNew.firstPlaceable = some (2, 0, s1)) ∧
    ((tImaged.team 1 0).isSome = true ∧ ∃ s1, tImaged.firstPlaceable = some (1, 0, s1)) ∧
    (let s := tTeams [] (fun t => { t with st := .retired }) (fun r => { r with w := r.w.set 6 0x0001004000061A10 })
     let s' : State := { s with cores := s.cores.map (fun kv => (kv.1, { kv.2 with mark := some (2, 0) })) }
     ∃ r, (s'.coreSt 0).mark = some (2, 0) ∧ s'.region 2 = some r ∧ s'.residents 0 none = [] ∧ (s'.coreSt 0).matches_ r = false) ∧
    (tPressed.freeSlot.isSome = true ∧ ∃ v t, tPressed.roomNeed = some (teamKey 2 0, v, t) ∧ t.core / 384 = 0) ∧
    -- a fault that waits for ring space
    (∃ c p s1 q, tUnposted.port.unposted = [⟨0, tId, false, tFr⟩] ∧ tFr.image = false ∧ tUnposted.crew tId = some c ∧ c.park = some p ∧
      p.fr = tFr ∧ (∀ t, tUnposted.team c.rk c.team = some t → t.image = none) ∧ tUnposted.postRec 0 tFr = (s1, some q)) := by
  refine ⟨⟨rfl, rfl, rfl, rfl, rfl, rfl⟩, err_of (by decide +kernel), tree_of (by decide +kernel), ⟨_, rfl, by decide +kernel⟩, ⟨_, rfl, by decide +kernel⟩,
    ⟨_, Team.placedOn 0, rfl, by decide +kernel⟩, ⟨{ Team.placedOn 0 with pre := true }, by decide +kernel⟩,
    ⟨{ Team.placedOn 0 with pre := true, preStep := 1 }, by decide +kernel⟩, tNew_first,
    ⟨by decide +kernel, tImaged_first⟩, ⟨_, by decide +kernel, rfl, by decide +kernel⟩,
    ⟨by decide +kernel, tPressed_need⟩, ?_⟩
  obtain ⟨s1, q, h⟩ := pair_of (x := tUnposted.postRec 0 tFr) (by decide +kernel)
  refine ⟨_, _, s1, q, rfl, rfl, rfl, rfl, rfl, ?_, h⟩
  intro t ht
  have : tUnposted.team 1 0 = some (Team.placedOn 0) := by decide +kernel
  rw [Option.some.inj (ht.symm.trans this)]
  rfl
-- The host.

/-- The host port is up, in phase 6, with FARG naming region 1's RCB. -/
def tHost (busy : Bool) (teams : Tab Team) : State :=
  let s := tIdle id
  { s with teams := teams, port := { s.port with up := true, phase := 6, farg := 0x80000, busy := busy } }
/-- Extent 63 of a trained port, 256 MiB at the base of its window. -/
def tExt (valid : Bool) (st : Nat) : State :=
  let s := tHost false []
  { s with crews := [], pool := { s.pool with trainedA := true, exts := [(63, ⟨valid, false, false, 0, 1, 0, 0, st⟩)] } }

theorem witness_CommandsComplete :
    ((tHost true []).port.up = true ∧ (tHost true []).port.phase ≠ 15 ∧ (tHost true []).port.busy = true) ∧
    ((tHost false []).port.busy = false ∧ (10 : Word) = BitVec.ofNat 32 (2 * 4 + 2) ∧ (14 : Word) = BitVec.ofNat 32 (3 * 4 + 2) ∧ (8 : Word) = BitVec.ofNat 32 (2 * 4 + 0)) ∧
    (let s := tHost false [(teamKey 1 0, Team.placedOn 0)]
     s.byRcb s.port.farg.toNat = some (1, Region.plain) ∧ s.region 1 = some Region.plain ∧ Region.plain.state < 2 ∧ Region.plain.kind % 2 = 1 ∧
      (0 : Word).toNat < Region.plain.grid ∧ (∀ kv ∈ s.teams, kv.2.pre = true → kv.2.st = .placed → kv.1 / 2 ^ 48 ∉ s.subtree 1) ∧
      s.leavesAt s.port.farg.toNat = [(1, Region.plain)]) ∧
    (let s := tHost false [(teamKey 1 0, { Team.placedOn 0 with pre := true })]
     ∃ kv ∈ s.teams, kv.2.pre = true ∧ kv.2.st = .placed ∧ kv.1 / 2 ^ 48 ∈ s.subtree 1) ∧
    ((2 : DWord).getLsbD 1 = true ∧ 0x40 ≤ 0x40 ∧ 0x40 % 8 = 0 ∧ (0x7F8 < 0x800 ∨ 0x1000 ≤ 0x7F8) ∧ (0x1000 < 0x800 ∨ 0x1000 ≤ 0x1000)) ∧
    (let x := (tExt false 0).extent 63
     let v : DWord := 0x8000000000000000
     x.valid = false ∧ v.getLsbD 63 = true ∧ 0 < x.len ∧ (if v.getLsbD 61 then (tExt false 0).pool.trainedB else (tExt false 0).pool.trainedA) = true ∧
      ∀ kv ∈ (tExt false 0).pool.exts, kv.2.valid = true → kv.2.meets (x.put0 v) = false) ∧
    (((tExt true 2).extent 63).valid = true ∧ ((tExt true 2).extent 63).st ≤ 2 ∧ ((tExt true 1).extent 63).st = 1 ∧
      ((tExt true 2).extent 63).st < 3 ∧ (tExt true 2).mem.lines = [] ∧ (tExt true 2).mem.l2 = [] ∧ (tExt true 2).crews = []) := by
  refine ⟨?_, ?_, ?_, ?_, ?_, ?_, ?_⟩ <;> decide +kernel
-- Memory, peers, platform.

/-- A small memory event state: a write-combining entry, a split block, a move, a class request, a failed bank, a trained port. -/
def tMem2 : State :=
  let s := tHost false []
  { s with
    clock := 2 ^ 20
    cores := [(1, { s.coreSt 1 with failed := [17] })]
    fab := { s.fab with rvalid := true }
    mem := { s.mem with
      wcb := [(0, [⟨5, [], 0, 2000⟩])], split := [(0, (1, 0))], moves := [(2 ^ 32, ⟨0x10000, 0x20000, 16, 511, 0x400000, 0⟩)]
      classq := [(0, [⟨0, 0x2000, tId⟩])] } }

theorem witness_MemoryEventsComplete :
    (∃ w r, Tab.get tMem2.mem.wcb 0 [] = w :: r ∧ w.t0 * 5 + w.age * 7 ≤ tMem2.clock * 5) ∧
    (Tab.get tMem2.mem.split 0 (0, 0) = (1, 0) ∧ (1 : Nat) ≠ 0 ∧ 0 + 2 ^ 20 ≤ tMem2.clock) ∧
    (∃ key mv, tMem2.dieMove 1 = some (key, mv)) ∧
    (∃ r q, Tab.get tMem2.mem.classq 0 [] = r :: q ∧
      (∃ x, ({ tMem2 with mem := { tMem2.mem with classq := Tab.put tMem2.mem.classq 0 q } } : State).walk r.fdom r.va = .ok x) ∧
      ∃ s2, ({ tMem2 with mem := { tMem2.mem with classq := Tab.put tMem2.mem.classq 0 q } } : State).performLaters.classFix r.fdom r.va 0 0 = (s2, none)) ∧
    (tMem2.port.up = true ∧ tMem2.port.phase ≠ 15 ∧ 3 ≤ tMem2.port.phase ∧ tMem2.presentAll 0x1000 8 = true ∧
      tMem2.presentAll 0x10000000000000 8 = false ∧
      (let pas := (List.range 8).map (fun i => tMem2.redirect (0x1000 + i))
       ∀ ln ∈ (pas.map lineOf).eraseDups, ln ∉ tMem2.mem.poison ∧ tMem2.mem.homeBad (homeRouter (ln * 128)) ln = false)) ∧
    (0xFFFF8 % 8 = 0 ∧ 0xFFFF8 < 0x100000 ∧ 0x1FFFF8 % 8 = 0 ∧ 0x100000 ≤ 0x1FFFF8 ∧ 0x1FFFF8 < 0x200000 ∧ 127 < 128) ∧
    (tMem2.fab.rvalid = true ∧ 1 ≠ tMem2.fab.frank ∧ 1 ∉ tMem2.fab.unreachable ∧ 9 ≤ 9 ∧ 0x1000 % 8 = 0) ∧
    ((tMem2.coreSt 0).failed = [] ∧ 17 ∉ (tMem2.coreSt 0).failed ∧ 16 ∉ (tMem2.coreSt 1).failed ∧ (tMem2.coreSt 1).failed = [17]) ∧
    ((∀ kv ∈ tMem2.teams, kv.2.st ≠ .placed) ∧ ∃ kv ∈ (tIdle id).teams, kv.2.st = .placed) := by
  refine ⟨⟨_, _, rfl, by decide +kernel⟩, by decide +kernel, ⟨_, _, rfl⟩, ⟨_, _, rfl, ⟨(0x607, 0x400000, 30), rfl⟩, done_of (by decide +kernel)⟩,
    by decide +kernel, by decide, by decide +kernel, by decide +kernel, by decide +kernel⟩

/-- A platform in a phase, with power groups, fabric words and images. -/
def tPlat (phase : Nat) (up : Bool) (words : Tab DWord) : State :=
  let s := tHost false []
  { s with
    clock := 140000000
    port := { s.port with phase := phase, up := up }
    fab := { s.fab with words := words, ports := words.map Prod.fst, setAside := [(3, 140000000)] }
    power := { s.power with cycles := [(0, [(1, 5)])], groups := [(1, ⟨[(2, 0)], 1, 0, 0, 0, 0, 0, some 5⟩)] } }

/-- A crew's slot stands first in its core's issue order. -/
def tGives : State :=
  let s := tState (tRegs 0 [])
  { s with cores := Tab.put s.cores 0 { s.coreSt 0 with order := [tId * 2] } }

theorem tGives_asks : ∃ q, tGives.askOf 0 (.core 0 []) = some q := Option.isSome_iff_exists.1 (by decide +kernel)

theorem witness_PlatformEventsComplete :
    (let s := tPlat 2 true [(71, 0x800000000)]
     (Tab.get s.power.lastWrite 31 0 + 1024 ≤ s.clock ∧ Tab.find s.power.floor 31 = none ∧ s.clock % 8 = 0) ∧
     (Tab.get s.power.cycles 0 [] = [(1, 5)] ∧ 0 < 5 ∧ s.region 1 = some Region.plain ∧ Region.plain.state < 2 ∧
       Tab.get s.power.intervals 0 0 < s.clock / 140000) ∧
     (31 ∉ s.power.asked ∧ s.xopAsks 31 = [] ∧ (s.overdueCores 31 = [] ∧ ∀ r ∈ s.power.withheld, reqCluster r ≠ 31) ∧
       (tGives.coreSt 0).stalled = [] ∧ ∃ q, tGives.askOf 0 (.core 0 []) = some q) ∧
     (∃ g, Tab.find s.power.groups 1 = some g ∧ g.members = [(2, 0)] ∧ g.period + 70000 ≤ s.clock ∧ g.ends = some 5 ∧ 5 ≤ s.clock) ∧
     (71 ∈ s.fab.ports ∧ (Tab.get s.fab.words 71 0).getLsbD 35 = true ∧ 71 ∉ (tPlat 2 true []).fab.ports ∧ 71 ∉ s.fab.fenced) ∧
     (Tab.find s.fab.setAside 3 = some 140000000 ∧ 140000000 ≤ s.clock) ∧
     (s.port.phase = 2 ∧ s.port.failed = [] ∧ s.port.up = true)) ∧
    ((tPlat 0 false []).port.phase = 0 ∧ (tPlat 1 false []).port.phase = 1) ∧
    ((tPlat 3 true []).port.phase = 3 ∧ (tPlat 3 true []).port.up = true) ∧
    ((tPlat 3 false []).port.phase = 3 ∧ (tPlat 3 false []).port.up = false ∧
      (tPlat 3 false []).port.phaseAt + 140000000 ≤ (tPlat 3 false []).clock ∧ 32 ∉ (tPlat 3 false []).port.failed) ∧
    ((tPlat 5 true []).port.phase = 5 ∧ (tPlat 5 true []).fab.words = [] ∧ (tPlat 5 true []).fab.fenced = []) := by
  refine ⟨⟨by decide +kernel, by decide +kernel, ⟨by decide +kernel, by decide +kernel, by decide +kernel, by decide +kernel, tGives_asks⟩, ⟨_, rfl, by decide +kernel⟩, by decide +kernel, by decide +kernel, by decide +kernel⟩, by decide +kernel⟩

-- The remaining statements.

theorem witness_DecodeAndEncodeAgree :
    encode (.mma 15 0 15 7 255 true false) = some (0x50#7 ++ 15#4 ++ 0#4 ++ 15#4 ++ 7#3 ++ 255#8 ++ 1#1 ++ 0#1) ∧
    (∀ a t s m, Instr.mma 15 0 15 7 255 true false ≠ .mscale a t s m 3) ∧
    decodeWord (0x50#7 ++ 15#4 ++ 0#4 ++ 15#4 ++ 7#3 ++ 255#8 ++ 1#1 ++ 0#1) = .ok (.mma 15 0 15 7 255 true false) := by
  refine ⟨by decide +kernel, by simp, rfl⟩

/-- A word placed for the next step: its agent is eligible, the word is fetched from package memory and decodes. -/
def tStep (w : Nat) : State := State.reset.withFetchWord 32 w

def tStepB (w : Nat) : Bool :=
  match (tStep w).turns with
  | .issue a :: rest =>
    let s1 : State := { tStep w with turns := rest, cur := a }
    s1.eligible a && s1.mayIssue a && (match s1.translateNow (s1.whoOf a) (s1.pcOf a).toNat aFetch with
      | (s2, .ok h) => h.sp == .pkg && h.pa == 0x1000 && !s2.mem.homePoisoned (homeRouter h.pa) (lineOf h.pa)
      | _ => false)
  | _ => false

/-- A crew far outside what is mapped: its fetch fails. -/
def tLost : State := let s := tIdle (fun c => { c with s0 := { c.s0 with pc := 0x100000000000 } }); { s with turns := [.issue (.crew tId 0)] }

theorem witness_StepRunsDecodedWord :
    tStepB 0x02000000 = true ∧ (∃ i, decodeWord 0x02000000 = .ok i) ∧ (∃ r, decodeWord 0 = .error r) ∧
    ({ tLost with turns := [] } : State).eligible (.crew tId 0) = true ∧
    (match ({ tLost with turns := [] } : State).fetchWord (tLost.whoOf (.crew tId 0)) (tLost.pcOf (.crew tId 0)) with
      | (_, .error _) => true
      | _ => false) = true ∧
    (State.reset.eligible (.crew 0 0) = false) ∧
    ((tIdle id).pick 0).isSome = true ∧ (Instr.deviceReset).isEvent = true :=
  ⟨by decide +kernel, ⟨_, rfl⟩, ⟨_, rfl⟩, by decide +kernel, by decide +kernel, rfl, by decide +kernel, rfl⟩

theorem witness_ResetState : 0 ≤ 32 ∧ 32 ≤ 32 := by decide

/-- A canonical state with contents, and its next step. -/
theorem witness_MemoriesStayCanonical : (tStep 0x02000000).canonical ∧ (tStep 0x02000000).mem.pkg ≠ [] ∧ ∃ t, step (tStep 0x02000000) = .next t := by
  refine ⟨⟨by decide +kernel, by decide +kernel, by decide +kernel, by decide +kernel, by decide +kernel, by decide +kernel⟩, by decide +kernel, ?_⟩
  have h : (match step (tStep 0x02000000) with
      | .next _ => true
      | _ => false) = true := by decide +kernel
  revert h
  cases step (tStep 0x02000000) with
  | next t => exact fun _ => ⟨t, rfl⟩
  | fault f => exact fun h => absurd h (by simp)
  | refused r => exact fun h => absurd h (by simp)

-- Witnesses of single clauses.

/-- A heat with a result whose window ends with the next word, and one with a result that stays in its window. -/
def tPends (left : Nat) (ws : List RegW) : Heat := { tHeat (tRegs 0 []) with pend := [⟨ws, left, 0x1000, 1, 0, 0, .clean⟩] }
def tWith (h : Heat) : State := { tState h.wrk with crews := [(tId, { tCrew h.wrk with heat := some h })] }

theorem witness_WindowsEnd :
    let h := tPends 1 [.v 5 1 zeroLanes 2, .s 3 7]
    InHeat (tWith h) tId 0 { tCrew h.wrk with heat := some h } h ∧ RegW.v 5 1 zeroLanes 2 ∈ h.soon ∧ (vecKeys h.soon).Nodup ∧
    RegW.s 3 7 ∈ h.soon ∧ (∀ y, RegW.s 3 y ∈ h.soon → y = 7) ∧ 4 ∉ vecKeys h.soon ∧ (∀ x, RegW.s 4 x ∉ h.soon) ∧
    ∀ m x, RegW.p 1 m x ∉ h.soon := by
  refine ⟨inHeat_of (by decide +kernel), by decide, by decide, by decide, ?_, by decide, ?_, ?_⟩ <;> simp [Heat.soon, Heat.ending, tPends]

/-- A register of each format that the shaped words read, over zeros, with its tag. -/
def tShape (fmt : Nat) (tags : Tab Nat) : Regs := { tRegs (BitVec.ofNat 40 (fmt * 16)) [] with tag := tags }

theorem witness_ShapedValues :
    let ok : Except Stop Res → Bool := fun x => match x with
      | .ok _ => true
      | .error _ => false
    let on : Regs → (Crew → Heat → Except Stop Res) → Bool := fun r f => ok (f (tCrew r) (tHeat r))
    ((tCrew (tRegs 0 [])).lanes (tHeat (tRegs 0 []))).getLsbD 5 = true ∧
    ((Instr.imadw ⟨2, 0, 1, 0, 0, false⟩).wf = true ∧ on (tRegs 0x10000 []) (imadwCalc ⟨2, 0, 1, 0, 0, false⟩) = true) ∧
    ((Instr.fdot2 ⟨2, 0, 1, 0, 0, false⟩).wf = true ∧ on (tShape fmtFP32 []) (fdot2Calc ⟨2, 0, 1, 0, 0, false⟩) = true ∧
      on (tShape fmtFP32 [(0, fmtFP16), (1, fmtFP16)]) (fdot2Calc ⟨2, 0, 1, 0, 0, false⟩) = true) ∧
    ((Instr.cvt ⟨2, 0, BitVec.ofNat 5 fmtBF16, 0, 0⟩).wf = true ∧ on (tShape fmtFP32 []) (cvtCalc false ⟨2, 0, BitVec.ofNat 5 fmtBF16, 0, 0⟩) = true) ∧
    ((Instr.cvti ⟨2, 0, BitVec.ofNat 5 fmtINT32, 0, 0⟩).wf = true ∧ on (tShape fmtINT8 []) (cvtCalc true ⟨2, 0, BitVec.ofNat 5 fmtINT32, 0, 0⟩) = true) ∧
    ((Instr.cvt ⟨2, 0, BitVec.ofNat 5 fmtFP32, 6, 0⟩).wf = true ∧ on (tShape fmtG4 []) (cvtCalc false ⟨2, 0, BitVec.ofNat 5 fmtFP32, 6, 0⟩) = true) ∧
    ((Instr.pack ⟨2, 0, 1, false⟩).wf = true ∧ on (tShape fmtBF16 []) (packCalc false ⟨2, 0, 1, false⟩) = true) ∧
    ((Instr.unpack ⟨2, 0, 0, false⟩).wf = true ∧ on (tShape fmtBF16 []) (packCalc true ⟨2, 0, 0, false⟩) = true) ∧
    ((Instr.qscale ⟨8, 0, 4, 0, 0⟩).wf = true ∧ on (tShape fmtE4M3 []) (qscaleCalc ⟨8, 0, 4, 0, 0⟩) = true) ∧
    ((Instr.mxscale ⟨8, 0, 0, 5, 0⟩).wf = true ∧ on (tShape fmtE4M3 []) (mxscaleCalc ⟨8, 0, 0, 5, 0⟩) = true) ∧
    ((Instr.red .fadd ⟨2, 0, 0, 0⟩).wf = true ∧ on (tShape fmtFP32 []) (redCalc .fadd .red ⟨2, 0, 0, 0⟩) = true) ∧
    ((Instr.scan .iadd true ⟨2, 0, 0, 0⟩).wf = true ∧ on (tRegs 0x10000 []) (redCalc .iadd .excl ⟨2, 0, 0, 0⟩) = true) := by
  decide +kernel

/-- The identity is a permutation of the lanes. -/
theorem witness_Routes : (List.range 32).Nodup ∧ (∀ p ∈ List.range 32, p < 32) := by decide

/-- STX to the crew's own team's scratch. -/
def tStx : MemOp := ⟨2, 1, 0, 0, 0, true, .w, true, true⟩
theorem witness_StxWaits :
    (Instr.stx ⟨2, 1, 0, 0, true, true, false⟩).store = some tStx ∧ (Instr.stx ⟨2, 1, 0, 0, true, true, false⟩).wf = true ∧
    InHeat (tState tMem) tId 0 (tCrew tMem) (tHeat tMem) ∧ tStx.x = true ∧
    ∃ s1 ls, ((tState tMem).setCrew tId (tCrew tMem)).checkLanes ((tState tMem).whoCrew tId (tCrew tMem))
      ((tState tMem).siteCrew tId (tCrew tMem)) (tCrew tMem).com.watchFail true
      (tStx.accs (tCrew tMem) (tHeat tMem) 4 aWrite) = (s1, .ok ls) ∧ (ls.length == 32) = true :=
  ⟨rfl, by decide, tInHeat _, rfl, ok_of (by decide +kernel)⟩

/-- No reservation of a barrier-table entry is held. -/
theorem witness_NothingReserved : ((tBar tTeamMode tBar2).setCrew tId (tCrew (tRegs tTeamMode []))).granted (resBarrier 0) tId = false := by
  decide +kernel

/-- A split of three groups with a free other slot needs a push; of two it needs none. -/
theorem witness_SplitsPart :
    let c := tCrew (tRegs 0 [])
    let s := tState (tRegs 0 [])
    s.crew tId = some c ∧ (c.slot 1).free = true ∧ (∃ u, s.pushPlan c 0 = some u) ∧ s.pushPlan c 1 = none ∧
    (∃ m f, 3 < 32 ∧ (m : Word).getLsbD 3 = true ∧ (f : Nat → DWord) 3 = 0x1000) ∧
    ∃ o : Crew, o = { c with s1 := ⟨0x2000, 1, 0, [], false⟩ } ∧ (o.slot 1).free = false :=
  ⟨rfl, rfl, ⟨_, rfl⟩, by decide +kernel, ⟨8, fun _ => 0x1000, by decide, by decide, rfl⟩, _, rfl, rfl⟩

/-- Words that are barred: an ill-formed one, one in the 24th place, a destination in a window, a 33rd destination, a temporary
never written; and words of other profiles. -/
theorem witness_BarredWords :
    let bad : Instr := .iadd ⟨22, 0, 0, 2, 0, false⟩
    let add : Instr := .iadd ⟨2, 0, 1, 0, 0, false⟩
    let tmp : Instr := .iadd ⟨2, 30, 1, 0, 0, false⟩
    let h := tHeat (tRegs 0 [])
    (encode bad).isSome = true ∧ bad.wf = false ∧ (encode add).isSome = true ∧ add.closes = false ∧
    (∃ p ∈ ({ h with pend := [⟨[.v 2 1 zeroLanes 2], 4, 0x1000, 1, 0, 0, .clean⟩] } : Heat).pend, ∃ r ∈ p.ws, r.name ∈ [2]) ∧
    32 < (((List.range' 100 32) ++ [2].filter (· < 1024)).eraseDups).length ∧
    (∃ o rd g, tmp.intLane = some (o, rd, g) ∧ ∃ k ∈ h.sources o rd, 1024 ≤ k ∧ k ∉ h.temps) ∧
    (∃ m, (Instr.ld ⟨2, 1, 0, 0, 0, true, .w⟩).load = some m) ∧ (Instr.ld ⟨2, 1, 0, 0, 0, true, .w⟩).wf = true ∧
    (∃ w, encode (.tset ⟨0, 0, 0⟩) = some w ∧ majorCrew (opc w).toNat = false) ∧
    (∃ w, encode add = some w ∧ ∀ k < 3, majorEng k (opc w).toNat = false) ∧
    (let e := { tEng id with off := 23 }
     e.entry.isSome ∧ 23 ≤ e.off) := by
  refine ⟨by decide, by decide, by decide, by decide, ⟨_, List.mem_singleton_self _, _, List.mem_singleton_self _, by decide⟩, by decide +kernel,
    ⟨_, _, _, rfl, (tHeat (tRegs 0 [])).key 30, by decide +kernel⟩, ⟨_, rfl⟩, by decide, ⟨_, rfl, by decide⟩, ⟨_, rfl, by decide⟩, by decide⟩

/-- TLBI of all entries: nothing to wait for; a heat of another crew that holds an earlier access; its wait over. CLASS with and
without a place in the class engine. -/
theorem witness_SystemWordsWait :
    let r := tRegs 0 [(1, 0x2000), (2, 2), (3, 0)]
    let c := tCrew r
    let h := tHeat r
    let s := tState r
    let o : Crew := { c with no := 1, heat := some { h with buf := [.store [⟨.pkg, 64, 7, true⟩] 0] } }
    let s' : State := { s with crews := s.crews ++ [(crewKey 1 0 1, o)] }
    let after : State → State := fun s => (((s.setCrew tId c).seal tId).performLaters.markOld (some tId)).invalTlb
      (tlbNames (fieldOf (r.rdS 2) 0 2) (fieldOf (r.rdS 2) 2 2) (r.rdS 1).toNat 0)
    let q : State := { s with mem := { s.mem with classq := [(0, List.replicate 64 ⟨0, 0x2000, 5⟩)] } }
    (fieldOf (r.rdS 2) 0 2 ≠ 3 ∧ fieldOf (r.rdS 2) 4 60 = 0) ∧ c.wait ≠ .drain ∧ (after s).oldLeft = false ∧
    InHeat s' tId 0 c h ∧ (after s').oldLeft = true ∧
    (let w : Crew := { c with wait := .drain }
     let sw : State := { s with crews := [(tId, w)] }
     InHeat sw tId 0 w h ∧ (sw.setCrew tId w).oldLeft = false) ∧
    (s.setCrew tId c).admitted (resClass 0) tId = true ∧ (s.whoCrew tId c).die = 0 ∧
    (∃ s1, (((s.setCrew tId c).seal tId).claim (resClass 0) tId).classNow (s.whoCrew tId c) (r.rdS 1).toNat (bits (r.rdS 3).toNat 0 2)
      (s.coreOf c) = (s1, none)) ∧
    (∀ h1, (((s.setCrew tId c).seal tId).heatOf tId) = some h1 → ∀ p ∈ h1.pend, p.left ≤ 1 → p.got.bad = none) ∧
    (q.setCrew tId c).admitted (resClass 0) tId = false := by
  refine ⟨by decide +kernel, by decide, by decide +kernel, inHeat_of (by decide +kernel), by decide +kernel,
    ⟨inHeat_of (by decide +kernel), by decide +kernel⟩, by decide +kernel, by decide +kernel, done_of (by decide +kernel), ?_, by decide +kernel⟩
  intro h1 hh
  have : (((tState (tRegs 0 [(1, 0x2000), (2, 2), (3, 0)])).setCrew tId (tCrew (tRegs 0 [(1, 0x2000), (2, 2), (3, 0)]))).seal tId).heatOf tId
    = some { tHeat (tRegs 0 [(1, 0x2000), (2, 2), (3, 0)]) with sealed := true } := by decide +kernel
  rw [this] at hh
  obtain rfl := Option.some.inj hh
  simp [tHeat, Heat.openAt]

theorem leOf_length : ∀ n v, (leOf n v).length = n
  | 0, _ => rfl
  | n + 1, v => by simp [leOf, leOf_length n]

/-- The certificate chain ends with a signature, so it is not empty. -/
theorem chain_length (m : Milden) : 0 < m.chain.length := by
  simp only [Milden.chain, Milden.aliasCert, ed448Sign, List.length_append, leOf_length]
  omega

theorem witness_MoreEvents :
    -- a crew parked with a reservation; clusters admitted in this clock; an owed spill while a heat is open
    (let s := { (tIdle (fun c => { c with park := some ⟨tFr, none, false, 0, none, 0⟩ })).setTicket 0 ⟨1, 0, [], [(tId, 0)], 0⟩ with clock := 256 }
     ∃ c, s.crew tId = some c ∧ c.park.isSome = true ∧ (s.ticketOf 0).reserved = [(tId, 0)]) ∧
    (4 ≤ ({ tIdle id with admits := 4 } : State).admits) ∧
    (∃ w : Word, w ≠ 0) ∧
    -- a host in recovery, an option it does not support, memory whose home copies are good
    (let s := { tHost false [] with port := { (tHost false []).port with phase := 15 } }
     s.port.up = true ∧ s.port.phase = 15 ∧ 0x200000 % 8 = 0 ∧ 0x200000 < 0x201000 ∧ 0x201000 < 2 ^ 24) ∧
    ((tHost false []).port.phase ≠ 15 ∧ HostOpt.ats ≠ .plain) ∧
    (tMem2.homePoisoned ((List.range 8).map (fun i => tMem2.redirect (0x1000 + i))) = false) ∧
    ((tMem2.engs = []) ∧ (0 ∉ tMem2.fab.unreachable) ∧ ∃ s : State, s = { tMem2 with crews := [] } ∧ s.crews = [] ∧ s.engs = []) ∧
    -- the platform
    ((3 : Nat) ∈ ({ tPlat 2 true [] with fab := { (tPlat 2 true []).fab with fenced := [3] } } : State).fab.fenced ∧
      31 ∈ ({ tPlat 2 true [] with power := { (tPlat 2 true []).power with asked := [31] } } : State).power.asked ∧
      0 < (tPlat 2 true []).mil.chain.length) := by
  refine ⟨⟨_, rfl, rfl, by decide +kernel⟩, by decide, ⟨1, by decide⟩, by decide, by decide, by decide +kernel,
    ⟨by decide +kernel, by decide +kernel, _, rfl, rfl, by decide +kernel⟩, List.mem_singleton_self _, List.mem_singleton_self _,
    chain_length _⟩

-- Single steps and values that the spec writes out.

/-- What one lane of a register reads after an instruction ran in the small crew's heat. -/
def tLane (s : State) (i : Instr) (k l : Nat) : Option Nat :=
  match exec i s with
  | .next t => (t.crew tId).bind (fun c => c.heat.map (fun h => (lane (h.wrk.rdV k) l).toNat))
  | _ => none
def tUni (s : State) (i : Instr) (n : Nat) : Option Nat :=
  match exec i s with
  | .next t => (t.crew tId).bind (fun c => c.heat.map (fun h => (h.wrk.rdS n).toNat))
  | _ => none
def tFlags (s : State) (i : Instr) : Option Nat :=
  match exec i s with
  | .next t => (t.crew tId).bind (fun c => c.heat.map (fun h => h.wrk.asw.toNat))
  | _ => none
/-- The same value in every lane. -/
def tAll (x : Nat) : Lanes := lanesOf (fun _ => BitVec.ofNat 32 x)

/-- The hand encodings of Table 6-1. -/
theorem test_hand_encodings :
    cmpVal (decodeVal fmtE4M3 0x3E) (.fin false 7 (-2) false) = 0 ∧ cmpVal (decodeVal fmtE5M2 0xC2) (.fin true 3 0 false) = 0 ∧
    cmpVal (decodeVal fmtE2M3 0x03) (.fin false 3 (-3) false) = 0 ∧ cmpVal (decodeVal fmtE3M2 0x15) (.fin false 5 0 false) = 0 ∧
    cmpVal (decodeVal fmtE2M1 0xE) (.fin true 4 0 false) = 0 := by decide +kernel

/-- 1.0625 and 500 in E4M3 (Numbers Worked Through), and 1.03125 with the two draws named there. -/
theorem test_ties_and_saturation :
    ([rndRNE, rndRNA, rndRUP, rndRTZ, rndRDN].map (fun m => (roundTo fmtE4M3 ⟨m, false, false⟩ 0 (.fin false 17 (-4) false)).1))
      = [0x38, 0x39, 0x39, 0x38, 0x38] ∧
    roundTo fmtE4M3 ⟨rndRNE, false, false⟩ 0 (.fin false 500 0 false) = (0x7F, flOF ||| flNX) ∧
    roundTo fmtE4M3 ⟨rndRTZ, true, false⟩ 0 (.fin false 500 0 false) = (0x7E, flOF ||| flNX) ∧
    (roundTo fmtE4M3 ⟨rndSR, false, false⟩ 0x60000000 (.fin false 33 (-5) false)).1 = 0x38 ∧
    (roundTo fmtE4M3 ⟨rndSR, false, false⟩ 0xD0000000 (.fin false 33 (-5) false)).1 = 0x39 := by decide +kernel

/-- The seed of lane 3 of crew 2 in team 5 and its first two steps. -/
theorem test_seed_and_steps :
    crewSeed 5 2 3 = 0x9E376DFA ∧ lfsrStep 0x9E376DFA = 0x4F1BB6FD ∧ lfsrStep 0x4F1BB6FD = 0xA7ADDB7D := by decide

/-- Sixteen values into G4: header 0x6E81, first word 0x9A8D6E81, inexact and underflow (Table 6-2). -/
theorem test_grist_block :
    (gristEncode fmtG4 ⟨rndRNE, false, false⟩ []
      ([650, -200, 150, 75, 0, 0, -300, 360, 700, 10, -50, 25, 375, -375].map (fun x : Int => divFin (decide (x < 0)) x.natAbs 0 100 0)
        ++ [.fin true 0 0 false, .fin false 5 0 false])).1 % 2 ^ 32 = 0x9A8D6E81 := by decide +kernel

/-- Digit 0 of Table 9-5: all ones plus one is zero with a carry. -/
theorem test_iaddc_chain :
    let r := { tRegs 0 [] with v := [(0, tAll 0xFFFFFFFF), (1, tAll 0xFFFFFFFF), (2, tAll 0xFFFFFFFF), (4, tAll 1)], mode := 2 <<< 15 }
    [8, 9, 10, 11].map (fun k => tLane (tState r) (.iaddc ⟨8, 0, 4, 2, 0, false⟩) k 5) = [some 0, some 0, some 0, some 1] := by
  decide +kernel

/-- The 20-bit immediates of R149 and R161: MOVH over zero, SMOVH sign-extended. -/
theorem test_immediates :
    tLane (tState (tRegs 0 [])) (.movh 3 0x3F800) 3 31 = some 0x3F800000 ∧
    tUni (tState (tRegs 0 [])) (.smovh 2 0x80000) 2 = some 0xFFFFFFFF80000000 := by decide +kernel

/-- Every lane receives its neighbour: only stage 0 is set (R195). -/
theorem test_control_string :
    let r := { tRegs 0 [] with v := [(3, lanesOf (fun l => BitVec.ofNat 32 (l ^^^ 1)))] }
    tUni (tState r) (.permset 10 3 0) 10 = some 0xFFFF ∧ tUni (tState r) (.permset 10 3 0) 11 = some 0 ∧
    tUni (tState r) (.permset 10 3 0) 12 = some 0 := by decide +kernel

/-- 400 to INT8 with SGN: 0x90 wrapped, 0x7F with OF saturated (the example at R181's conversions). -/
theorem test_cvti_int8 :
    let r := fun m : BitVec 40 =>
      { tRegs (BitVec.ofNat 40 (fmtINT8 * 16 + 2 ^ 14) ||| m) [] with v := [(1, tAll 400)], tag := [(1, fmtINT32)] }
    let i : Instr := .cvti ⟨2, 1, BitVec.ofNat 5 fmtINT32, 0, 0⟩
    tLane (tState (r 0)) i 2 0 = some 0x90 ∧ tLane (tState (r 0x1000)) i 2 0 = some 0x7F ∧
    (tFlags (tState (r 0x1000)) i).map (fun f => f / 4 % 2) = some 1 := by decide +kernel

/-- Lanes 0 to 3 of one AADD name one word holding 10, with addends 1 to 4: they receive 10, 11, 13 and 16, and the word ends at
20 (R230). -/
theorem test_aadd_lanes :
    let r := { tAt 0 with v := [(4, lanesOf (fun l => BitVec.ofNat 32 (l + 1)))] }
    let s := tState r
    let s := { s with
      crews := s.crews.map (fun kv => (kv.1, { kv.2 with s0 := { kv.2.s0 with mask := 15 } }))
      mem := { s.mem with scr := Memory.putBytes s.mem.scr ((r.rdS 1).toNat) (leOf 4 10) } }
    let i : Instr := .aadd ⟨4, 1, 0, 0, false, true, false⟩
    [0, 1, 2, 3].map (fun l => tLane s i 4 l) = [some 10, some 11, some 13, some 16] ∧
    (match exec i s with
      | .next t => leNat ((List.range 4).map (fun k => Memory.get t.mem.scr ((r.rdS 1).toNat + k)))
      | _ => 0) = 20 := by decide +kernel

/-- A BRK at offset 5 of an unsealed heat at 0x10400: TRETPC is 0x10400 and TRETCTL 0x501. -/
theorem test_brk_saves :
    let s := tIdle (fun c => { c.setSlot 0 { c.slot 0 with pc := 0x10414 } with
      heat := some { Heat.openAt 0 0 0x10400 c.com with off := 5 } })
    let s := { s with regions := [(1, { Region.plain with w := Region.plain.w.set 8 0x2000 })] }
    (match exec (.brk 0) s with
      | .next t => (t.crew tId).map (fun (c : Crew) => (c.com.tretpc.toNat, c.com.tretctl.toNat))
      | _ => none) = some (0x10400, 0x501) := by decide +kernel

/-- The consumer team (3, 2, 0) needs bits 21 to 23 (R336). -/
theorem test_dependency_map :
    let c := { Region.plain with w := Region.plain.w.set 5 0x0200000100080008 }
    let p := { Region.plain with w := Region.plain.w.set 5 0x0200000100040008 }
    mapNeeds [0, 0, 0x00000004FFFF0002, 0x0000000100000001, 0x0000000100000001] c p (3 + 8 * 2) = [21, 22, 23] := by decide +kernel

end
end

section
/-! SUPPORT. The lanes that a crew's slots and its divergence stack hold: what Table 3-2 does to them at a join, and what an
exit does to the slot, the stack and the other slot (R42, R43, R61, R139). -/

namespace Sys2Proof.Machine

-- The other slot, and an emptied slot.

theorem Crew.slot_other_setSlot (c : Crew) {n : Nat} (x : PcSlot) (hn : n < 2) :
    (c.setSlot n x).slot (1 - n) = c.slot (1 - n) :=
  Crew.slot_setSlot_other c x hn (by omega) (by omega)

theorem Crew.slot_setSlot_of_other (c : Crew) {n : Nat} (y : PcSlot) (hn : n < 2) :
    (c.setSlot (1 - n) y).slot n = c.slot n :=
  Crew.slot_setSlot_other c y (by omega) hn (by omega)

@[simp] theorem Crew.setSlot_setSlot (c : Crew) (n : Nat) (x y : PcSlot) : (c.setSlot n x).setSlot n y = c.setSlot n y := by
  unfold Crew.setSlot; split <;> rfl

@[simp] theorem PcSlot.free_none : PcSlot.none.free = true := rfl

theorem PcSlot.mask_of_free {x : PcSlot} (h : x.free = true) : x.mask = 0 := by simpa [PcSlot.free] using h

-- The crew whose lanes `m` have exited, the crew with another stack, and the crew that gives linkage units back (R139).

def Crew.markExited (c : Crew) (m : Word) : Crew := { c with exited := c.exited ||| m }
def Crew.restack (c : Crew) (r : List StackEntry) : Crew := { c with stack := r }

@[simp] theorem Crew.exited_markExited (c : Crew) (m : Word) : (c.markExited m).exited = c.exited ||| m := rfl
@[simp] theorem Crew.slot_markExited (c : Crew) (m : Word) (n : Nat) : (c.markExited m).slot n = c.slot n := rfl
@[simp] theorem Crew.com_markExited (c : Crew) (m : Word) : (c.markExited m).com = c.com := rfl
@[simp] theorem Crew.heat_markExited (c : Crew) (m : Word) : (c.markExited m).heat = c.heat := rfl
@[simp] theorem Crew.stack_markExited (c : Crew) (m : Word) : (c.markExited m).stack = c.stack := rfl
@[simp] theorem Crew.trap_markExited (c : Crew) (m : Word) : (c.markExited m).trap = c.trap := rfl
@[simp] theorem Crew.ret_markExited (c : Crew) (m : Word) : (c.markExited m).ret = c.ret := rfl

@[simp] theorem Crew.stack_restack (c : Crew) (r : List StackEntry) : (c.restack r).stack = r := rfl
@[simp] theorem Crew.slot_restack (c : Crew) (r : List StackEntry) (n : Nat) : (c.restack r).slot n = c.slot n := rfl
@[simp] theorem Crew.exited_restack (c : Crew) (r : List StackEntry) : (c.restack r).exited = c.exited := rfl
@[simp] theorem Crew.com_restack (c : Crew) (r : List StackEntry) : (c.restack r).com = c.com := rfl
@[simp] theorem Crew.heat_restack (c : Crew) (r : List StackEntry) : (c.restack r).heat = c.heat := rfl

theorem Crew.dropLinks_ring (c : Crew) : ∃ r, c.dropLinks = { c with ring := r } := by
  unfold Crew.dropLinks
  split
  · exact ⟨_, rfl⟩
  · exact ⟨c.ring, rfl⟩

@[simp] theorem Crew.slot_dropLinks (c : Crew) (n : Nat) : c.dropLinks.slot n = c.slot n := by
  obtain ⟨r, hr⟩ := c.dropLinks_ring; rw [hr]; rfl
@[simp] theorem Crew.exited_dropLinks (c : Crew) : c.dropLinks.exited = c.exited := by
  obtain ⟨r, hr⟩ := c.dropLinks_ring; rw [hr]
@[simp] theorem Crew.com_dropLinks (c : Crew) : c.dropLinks.com = c.com := by
  obtain ⟨r, hr⟩ := c.dropLinks_ring; rw [hr]
@[simp] theorem Crew.heat_dropLinks (c : Crew) : c.dropLinks.heat = c.heat := by
  obtain ⟨r, hr⟩ := c.dropLinks_ring; rw [hr]
@[simp] theorem Crew.stack_dropLinks (c : Crew) : c.dropLinks.stack = c.stack := by
  obtain ⟨r, hr⟩ := c.dropLinks_ring; rw [hr]
@[simp] theorem Crew.trap_dropLinks (c : Crew) : c.dropLinks.trap = c.trap := by
  obtain ⟨r, hr⟩ := c.dropLinks_ring; rw [hr]
@[simp] theorem Crew.ret_dropLinks (c : Crew) : c.dropLinks.ret = c.ret := by
  obtain ⟨r, hr⟩ := c.dropLinks_ring; rw [hr]

-- Joins.

/-- The lanes of slot `n`, of the other slot, and of the stack's entries from the top. -/
def Crew.masks (c : Crew) (n : Nat) : List Word :=
  (c.slot n).mask :: (c.slot (1 - n)).mask :: c.stack.map (fun e => e.mask)

theorem Crew.masks_setSlot (c : Crew) {n : Nat} (x : PcSlot) (hn : n < 2) :
    (c.setSlot n x).masks n = x.mask :: (c.slot (1 - n)).mask :: c.stack.map (fun e => e.mask) := by
  simp [Crew.masks, Crew.slot_other_setSlot c x hn]

theorem Crew.masks_setSlot_both (c : Crew) {n : Nat} (x y : PcSlot) (hn : n < 2) :
    ((c.setSlot n x).setSlot (1 - n) y).masks n = x.mask :: y.mask :: c.stack.map (fun e => e.mask) := by
  simp [Crew.masks, Crew.slot_setSlot_of_other _ y hn]

/-- The lanes that a list of masks holds. -/
def lanesHeld (l : List Word) : Word := l.foldl (· ||| ·) 0

/-- No two masks of a list hold a lane together. -/
def lanesApart (l : List Word) : Prop := l.Pairwise (fun a b => a &&& b = 0)

theorem Crew.lanesHeld_masks (c : Crew) {n : Nat} (hn : n < 2) :
    lanesHeld (c.masks n) = c.stack.foldl (fun m e => m ||| e.mask) (c.s0.mask ||| c.s1.mask) := by
  have h : (c.slot n).mask ||| (c.slot (1 - n)).mask = c.s0.mask ||| c.s1.mask := by
    obtain rfl | rfl : n = 0 ∨ n = 1 := by omega
    · rfl
    · exact BitVec.or_comm _ _
  simp [lanesHeld, Crew.masks, List.foldl_map, h]

theorem Crew.lanesApart_masks (c : Crew) {n : Nat} (hn : n < 2) :
    lanesApart (c.masks n) ↔
      (c.s0.mask :: c.s1.mask :: c.stack.map (fun e => e.mask)).Pairwise (fun a b => a &&& b = 0) := by
  obtain rfl | rfl : n = 0 ∨ n = 1 := by omega
  · rfl
  · exact (List.Perm.swap _ _ _).pairwise_iff (fun h => by rwa [BitVec.and_comm] at h)

/-- Table 3-2, row by row, moves lanes in two ways only: a parked other slot's lanes merge into the slot, and the stack's top
entry goes into a free other slot. What both keep, a resolution keeps. -/
theorem Crew.resolveJ_keeps_masks {P : List Word → Prop} (merge : ∀ a b r, P (a :: b :: r) → P ((a ||| b) :: 0 :: r))
    (pop : ∀ a e r, P (a :: 0 :: e :: r) → P (a :: e :: r)) {n : Nat} (hn : n < 2) (k : Nat) (c : Crew)
    (h : P (c.masks n)) : P ((Crew.resolveJ k c n).1.masks n) := by
  induction k generalizing c with
  | zero => exact h
  | succ k ih =>
    simp only [Crew.resolveJ]
    split
    case isTrue => -- the other slot waits at the same place: its lanes join
      apply ih
      rw [Crew.masks_setSlot_both c _ _ hn]
      exact merge _ _ _ h
    split
    case isTrue => rwa [Crew.masks_setSlot c _ hn] -- the other slot runs: the slot parks
    split
    case isTrue hfree => -- the other slot is free
      split
      next e r hs =>
        change P (Crew.masks (Crew.restack _ r) n)
        apply pop
        simpa [Crew.masks, Crew.slot_setSlot_of_other _ _ hn, hs, PcSlot.mask_of_free hfree] using h
      next => rwa [Crew.masks_setSlot c _ hn]
    split <;> rwa [Crew.masks_setSlot c _ hn] -- two slots that cannot join: one is parked, the lower one runs

theorem lanesHeld_merge (a b : Word) (r : List Word) : lanesHeld ((a ||| b) :: 0 :: r) = lanesHeld (a :: b :: r) := by
  simp [lanesHeld]

theorem lanesHeld_pop (a e : Word) (r : List Word) : lanesHeld (a :: e :: r) = lanesHeld (a :: 0 :: e :: r) := by
  simp [lanesHeld]

theorem lanesApart_merge (a b : Word) (r : List Word) (h : lanesApart (a :: b :: r)) :
    lanesApart ((a ||| b) :: 0 :: r) := by
  simp only [lanesApart, List.pairwise_cons, List.mem_cons, forall_eq_or_imp] at h ⊢
  obtain ⟨⟨-, ha⟩, hb, hr⟩ := h
  have or_apart : ∀ x ∈ r, (a ||| b) &&& x = 0 := fun x hx => by
    rw [BitVec.and_comm, BitVec.and_or_distrib_left, BitVec.and_comm x, BitVec.and_comm x, ha x hx, hb x hx]; rfl
  exact ⟨⟨by simp, or_apart⟩, fun x _ => by simp, hr⟩

theorem lanesApart_pop (a e : Word) (r : List Word) (h : lanesApart (a :: 0 :: e :: r)) : lanesApart (a :: e :: r) :=
  h.sublist ((List.sublist_cons_self _ _).cons_cons a)

theorem Crew.resolveJ_lanesHeld {n : Nat} (hn : n < 2) (k : Nat) (c : Crew) :
    lanesHeld ((Crew.resolveJ k c n).1.masks n) = lanesHeld (c.masks n) :=
  Crew.resolveJ_keeps_masks (P := fun l => lanesHeld l = lanesHeld (c.masks n))
    (fun a b r h => (lanesHeld_merge a b r).trans h) (fun a e r h => (lanesHeld_pop a e r).trans h) hn k c rfl

theorem Crew.resolveJ_lanesApart {n : Nat} (hn : n < 2) (k : Nat) (c : Crew) (h : lanesApart (c.masks n)) :
    lanesApart ((Crew.resolveJ k c n).1.masks n) :=
  Crew.resolveJ_keeps_masks lanesApart_merge lanesApart_pop hn k c h

-- Exits.

section
variable {s : State} {id n : Nat} {c : Crew} {m : Word} (hc : s.crew id = some c)
include hc

theorem State.exitLanes_of_left (hl : (c.slot n).mask &&& ~~~m ≠ 0) (pc : DWord) :
    s.exitLanes id n m pc = (s.setCrew id ((c.markExited m).setSlot n
      { c.slot n with mask := (c.slot n).mask &&& ~~~m, pc := pc + 4 })).checkTarget id n pc := by
  have left_bne : ((c.slot n).mask &&& ~~~m != 0) = true := bne_iff_ne.mpr hl
  calc s.exitLanes id n m pc
      = (s.setCrew id ((c.markExited m).setSlot n { c.slot n with mask := (c.slot n).mask &&& ~~~m })).goto
          id n (pc + 4) pc := by simp only [State.exitLanes, hc]; exact if_pos left_bne
    _ = _ := by simp [State.goto]

theorem State.exitLanes_of_pop (hl : (c.slot n).mask &&& ~~~m = 0) {e : StackEntry} {r : List StackEntry}
    (hs : c.stack = e :: r) (pc : DWord) :
    s.exitLanes id n m pc = (s.setCrew id (((c.markExited m).setSlot n
      ⟨e.pc, e.mask, e.base, e.chain, false⟩).restack r).dropLinks).checkTarget id n e.src := by
  have left_empty : ¬((c.slot n).mask &&& ~~~m != 0) = true := by simpa using hl
  simp only [State.exitLanes, hc]
  refine (if_neg left_empty).trans ?_
  simp only [hs, Crew.markExited, Crew.restack]

theorem State.exitLanes_of_empty (hl : (c.slot n).mask &&& ~~~m = 0) (hs : c.stack = []) (pc : DWord) :
    s.exitLanes id n m pc = s.setCrew id ((c.markExited m).setSlot n PcSlot.none).dropLinks := by
  have left_empty : ¬((c.slot n).mask &&& ~~~m != 0) = true := by simpa using hl
  simp only [State.exitLanes, hc]
  refine (if_neg left_empty).trans ?_
  simp only [hs, Crew.markExited]

end

/-- A slot at a join executes its heat when no lanes stand beside it and none wait in the stack (Table 3-2, fourth row). -/
theorem Crew.resolveJ_of_alone {c : Crew} {n : Nat} (k : Nat) (ho : (c.slot (1 - n)).free = true) (hs : c.stack = []) :
    (Crew.resolveJ (k + 1) c n).2 = true := by
  simp [Crew.resolveJ, ho, hs]

theorem Crew.canOpen_of_alone {c : Crew} {n : Nat} (hx : (c.slot n).free = false) (ho : (c.slot (1 - n)).free = true)
    (hs : c.stack = []) (ht : c.trap.cause = 0) (hr : c.ret ≠ some n) : c.canOpen n = true := by
  simp [Crew.canOpen, hx, ht, hr, Crew.resolveJ_of_alone 3 ho hs]

/-- Beside a slot that an exit leaves free, with an empty stack, the other slot executes the heat at its join. -/
theorem Crew.canOpen_other_of_emptied {c : Crew} {n : Nat} (hn : n < 2) (hs : c.stack = [])
    (hx : (c.slot (1 - n)).free = false) (ht : c.trap.cause = 0) (hr : c.ret ≠ some (1 - n)) :
    (c.setSlot n PcSlot.none).dropLinks.canOpen (1 - n) = true := by
  have other_twice : 1 - (1 - n) = n := by omega
  apply Crew.canOpen_of_alone
  case hx => simpa [Crew.slot_other_setSlot _ _ hn] using hx
  case ho => simp [other_twice]
  case hs => simpa using hs
  case ht => simpa using ht
  case hr => simpa using hr

/-- Settles O35: a resolution is rows of Table 3-2 that each keep the lanes held and keep them apart; an exit is one of three
cases, by the lanes that the slot keeps and by the stack. -/
theorem joinsAndExitsKeepTheLanes : Obligations.JoinsAndExitsKeepTheLanes := by
  unfold Obligations.JoinsAndExitsKeepTheLanes
  refine ⟨fun c n k hn => ?_, fun s id n c m pc hc hn => ?_⟩
  · intro all apart
    constructor
    · simpa only [Crew.lanesHeld_masks _ hn] using Crew.resolveJ_lanesHeld hn k c
    · simpa only [Crew.lanesApart_masks _ hn] using Crew.resolveJ_lanesApart hn k c
  · intro left other
    by_cases hl : left = 0
    case neg => -- the slot keeps lanes
      exact ⟨(c.markExited m).setSlot n { c.slot n with mask := left, pc := pc + 4 }, by simp, by simp, by simp,
        Crew.slot_other_setSlot _ _ hn, fun _ => ⟨State.exitLanes_of_left hc hl pc, by simp, by simp⟩,
        fun h => absurd h hl, fun h => absurd h hl⟩
    case pos =>
      cases hs : c.stack with
      | cons e r => -- the emptied slot takes the top entry
        refine ⟨(((c.markExited m).setSlot n ⟨e.pc, e.mask, e.base, e.chain, false⟩).restack r).dropLinks, by simp,
          by simp, by simp, by simp [Crew.slot_other_setSlot _ _ hn, other], fun h => absurd hl h, fun _ e' r' h => ?_,
          fun _ h => nomatch h⟩
        obtain ⟨rfl, rfl⟩ := List.cons.inj h
        exact ⟨State.exitLanes_of_pop hc hl hs pc, by simp, by simp⟩
      | nil => -- the emptied slot stands free
        exact ⟨((c.markExited m).setSlot n PcSlot.none).dropLinks, by simp, by simp, by simp,
          by simp [Crew.slot_other_setSlot _ _ hn, other], fun h => absurd hl h, fun _ _ _ h => absurd h.symm (List.cons_ne_nil _ _),
          fun _ _ => ⟨State.exitLanes_of_empty hc hl hs pc, by simp, by simp [hs],
            fun _ hfree ht hr => Crew.canOpen_other_of_emptied hn hs hfree ht hr⟩⟩

end Sys2Proof.Machine
end

section
/-! SUPPORT. VOTE, ELECT, MATCH and SHFL (R189 to R192): what each leaves when it completes, the words that are ILLEGAL or
FORMAT, and the fields that the decoder requires to be zero. -/

namespace Sys2Proof

-- The decoder.

theorem need_ne_ok {b : Bool} (hb : b = false) (i j : Instr) : need b i ≠ .ok j := by
  simp [need, hb]

theorem decodeWord_of_cross {w : Word} (lo : 0x22 ≤ (opc w).toNat) (hi : (opc w).toNat < 0x28) :
    decodeWord w = decodeCross w := by
  have control : ¬(opc w).toNat < 0x10 := by omega
  have integer : ¬(opc w).toNat < 0x19 := by omega
  have float : ¬(opc w).toNat < 0x22 := by omega
  simp [decodeWord, control, integer, float, hi]

section
variable {w : Word}

theorem decodeWord_major22 (hop : opc w = 0x22) : decodeWord w = decodeCross w :=
  decodeWord_of_cross (by simp [hop]) (by simp [hop])

theorem decodeWord_major23 (hop : opc w = 0x23) : decodeWord w = decodeCross w :=
  decodeWord_of_cross (by simp [hop]) (by simp [hop])

/-- VOTE's extent is zero (R189). -/
theorem decodeWord_vote (hop : opc w = 0x22) (hf : fld w 0 3 = 0) (hb : (fB w).toNat < 4) :
    ∃ op, decodeWord w = need (fE w == 0) (.vote op (fD w) (fA w) (fL w)) := by
  simp only [decodeWord_major22 hop, decodeCross, hop, hf, BitVec.reduceToNat]
  split
  case h_5 => grind -- four sub-operations, none left
  all_goals exact ⟨_, rfl⟩

/-- VOTE has four sub-operations (R189). -/
theorem decodeWord_vote_sub (hop : opc w = 0x22) (hf : fld w 0 3 = 0) (hb : 4 ≤ (fB w).toNat) :
    decodeWord w = .error .function := by
  simp only [decodeWord_major22 hop, decodeCross, hop, hf, BitVec.reduceToNat]
  split
  case h_5 => rfl
  all_goals omega

/-- ELECT's A, B and extent are zero (R190). -/
theorem decodeWord_elect (hop : opc w = 0x22) (hf : fld w 0 3 = 1) :
    decodeWord w = need (fA w == 0 && fB w == 0 && fE w == 0) (.elect (fD w) (fL w)) := by
  simp only [decodeWord_major22 hop, decodeCross, hop, hf, BitVec.reduceToNat]

/-- MATCH's B and extent are zero (R191). -/
theorem decodeWord_match (hop : opc w = 0x22) (hf : fld w 0 3 = 2) :
    decodeWord w = need (fB w == 0 && fE w == 0) (.matchLanes (fD w) (fA w) (fL w)) := by
  simp only [decodeWord_major22 hop, decodeCross, hop, hf, BitVec.reduceToNat]

/-- SHFL has four modes (R192). -/
theorem decodeWord_shfl_mode (hop : opc w = 0x23) (hf : 4 ≤ (fld w 0 3).toNat) : decodeWord w = .error .function := by
  simp only [decodeWord_major23 hop, decodeCross, hop, BitVec.reduceToNat]
  split
  case h_5 => rfl
  all_goals omega

/-- A word of VOTE, ELECT or MATCH with a set reserved field, or a sub-operation that does not exist, holds no instruction. -/
theorem decodeWord_ne_ok_of_reserved (hop : opc w = 0x22)
    (bad : (fld w 0 3 = 0 ∧ (4 ≤ (fB w).toNat ∨ fE w ≠ 0)) ∨ (fld w 0 3 = 1 ∧ (fA w ≠ 0 ∨ fB w ≠ 0 ∨ fE w ≠ 0)) ∨
      (fld w 0 3 = 2 ∧ (fB w ≠ 0 ∨ fE w ≠ 0))) (i : Instr) : decodeWord w ≠ .ok i := by
  rcases bad with ⟨vote, fields⟩ | ⟨elect, fields⟩ | ⟨matched, fields⟩
  · by_cases few : (fB w).toNat < 4
    · obtain ⟨op, hw⟩ := decodeWord_vote hop vote few
      exact hw ▸ need_ne_ok (beq_eq_false_iff_ne.mpr (fields.resolve_left (by omega))) _ _
    · simp [decodeWord_vote_sub hop vote (by omega)]
  · exact decodeWord_elect hop elect ▸ need_ne_ok (by grind) _ _
  · exact decodeWord_match hop matched ▸ need_ne_ok (by grind) _ _

end

end Sys2Proof

namespace Sys2Proof.Machine

variable {s : State} {id n : Nat} {c : Crew} {h : Heat}

-- The words.

/-- Operands that pass every check but that of their tags raise FORMAT. -/
theorem check_format {src dst other : List Nat} (R : Readable c h src dst other) :
    c.check h src dst other true false = .error stopFormat := by
  have passes := check_ok R
  have legal : (h.unread src || h.windowed (dst ++ other) || h.tooMany dst) = false := by
    refine Bool.eq_false_iff.mpr fun illegal => ?_
    simp only [Crew.check, firstStop, Bool.not_true, Bool.false_or, illegal, if_true] at passes
    cases passes
  simp only [Crew.check, firstStop, Bool.not_true, Bool.not_false, Bool.false_or, legal, Bool.false_eq_true, if_false, if_true]

/-- A word without flags and draws that holds no operand. -/
theorem crewWord_plain (H : InHeat s id n c h) {la : Nat} {f : Crew → Heat → Except Stop Res} {ws : List RegW}
    (hf : f c h = .ok ⟨ws, 0, none⟩) :
    s.crewWord true (regEff la heldNone f) = .next (s.afterWord id c h la [] ws 0 none) :=
  crewWord_regEff H hf (admits_zero h)

/-- What VOTE writes, from the contributing lanes `m` and those of them whose predicate is 1 (R189). -/
def voteValue (op : VoteOp) (p m : Word) : DWord :=
  match op with
  | .ballot => p.setWidth 64
  | .any => if p = 0 then 0 else 1
  | .all => if p = m then 1 else 0
  | .uni => if p = 0 ∨ p = m then 1 else 0

theorem exec_vote (H : InHeat s id n c h) (op : VoteOp) {d a : BitVec 5} {l : BitVec 4} (ha : predOk a = true)
    (R : Readable c h [] [] [nameS d]) :
    exec (.vote op d a l) s = .next (s.afterWord id c h l.toNat []
      [.s d.toNat (voteValue op (h.wrk.rdP a.toNat &&& c.lanes h) (c.lanes h))] 0 none) := by
  change s.crewWord (predOk a) _ = _
  rw [ha]
  apply crewWord_plain H
  simp only [check_ok R]
  cases op <;> simp [voteValue]

theorem exec_vote_illegal (H : InHeat s id n c h) (op : VoteOp) {d a : BitVec 5} {l : BitVec 4} (ha : predOk a = false) :
    exec (.vote op d a l) s = .next ((s.setCrew id c).raise id n ⟨cILLEGAL, 0, 0⟩ none false) := by
  change s.crewWord (predOk a) _ = _
  rw [ha, crewWord_illegal H]

theorem exec_elect (H : InHeat s id n c h) {d : BitVec 5} {l : BitVec 4} (hd : predDst d = true)
    (R : Readable c h [] [] [nameP d]) :
    exec (.elect d l) s = .next (s.afterWord id c h l.toNat []
      [.p d.toNat (c.lanes h) (1#32 <<< lowest (c.lanes h))] 0 none) := by
  change s.crewWord (predDst d) _ = _
  rw [hd]
  exact crewWord_plain H (by simp only [check_ok R])

theorem exec_elect_illegal (H : InHeat s id n c h) {d : BitVec 5} {l : BitVec 4} (hd : predDst d = false) :
    exec (.elect d l) s = .next ((s.setCrew id c).raise id n ⟨cILLEGAL, 0, 0⟩ none false) := by
  change s.crewWord (predDst d) _ = _
  rw [hd, crewWord_illegal H]

theorem exec_matchLanes (H : InHeat s id n c h) {d a : BitVec 5} {l : BitVec 4}
    (R : Readable c h [h.key a.toNat] [h.key d.toNat] []) :
    exec (.matchLanes d a l) s = .next (s.afterWord id c h l.toNat []
      [.v (h.key d.toNat) (c.lanes h) (lanesOf (fun x => maskOf (fun y =>
        (c.lanes h).getLsbD y && lane (h.wrk.rdV (h.key a.toNat)) y == lane (h.wrk.rdV (h.key a.toNat)) x))) fmtINT32]
      0 none) := by
  change s.crewWord true _ = _
  exact crewWord_plain H (by simp only [check_ok R])

/-- The vector register that SHFL's B names: one under idx, else none (R192). -/
def shflB (h : Heat) (md : ShflMode) (o : OpLB) : List Nat := if md = .idx then [h.key o.b.toNat] else []

/-- What SHFL writes: each contributing lane takes A of the lane its mode names, when that lane is active, else its own. -/
def shflWrites (c : Crew) (h : Heat) (md : ShflMode) (o : OpLB) : List RegW :=
  let src := shflFrom md (h.wrk.rdV (h.key o.b.toNat)) (h.wrk.rdS o.b.toNat)
  vecW (h.keys o.d o.e) (c.lanes h) (perLane (c.lanes h) [] (fun l =>
    h.wrk.at_ (h.keys o.a o.e) (if src l < 32 ∧ (c.active h).getLsbD (src l) = true then src l else l)))
    (fun j => h.wrk.rdTag ((h.keys o.a o.e).getD j 0))

theorem exec_shfl_format (H : InHeat s id n c h) {md : ShflMode} {o : OpLB} (wf : (Instr.shfl md o).wf = true)
    (ht : h.wrk.tagsIn (shflB h md o) [fmtINT32, fmtBITS] = false)
    (R : Readable c h (h.keys o.a o.e ++ shflB h md o) (h.keys o.d o.e) []) :
    exec (.shfl md o) s = .next ((s.setCrew id c).raise id n ⟨cFORMAT, 0, 0⟩ none false) := by
  change s.crewWord (Instr.shfl md o).wf _ = _
  rw [wf]
  refine crewWord_stop H (st := stopFormat) ?_
  have refused := check_format R
  cases md <;> simp_all [regEff, shflB]

theorem exec_shfl (H : InHeat s id n c h) {md : ShflMode} {o : OpLB} (wf : (Instr.shfl md o).wf = true)
    (ht : h.wrk.tagsIn (shflB h md o) [fmtINT32, fmtBITS] = true)
    (R : Readable c h (h.keys o.a o.e ++ shflB h md o) (h.keys o.d o.e) []) :
    exec (.shfl md o) s = .next (s.afterWord id c h o.l.toNat [] (shflWrites c h md o) 0 none) := by
  change s.crewWord (Instr.shfl md o).wf _ = _
  rw [wf]
  apply crewWord_plain H
  have passes := check_ok R
  cases md <;> simp_all [shflB, shflWrites]

/-- Settles O10: each word's checks pass or stop it, and its results follow from its entry; the decoder requires the fields
that the entries reserve to be zero. -/
theorem voteAndShuffleWordsComplete : Obligations.VoteAndShuffleWordsComplete := by
  unfold Obligations.VoteAndShuffleWordsComplete
  refine ⟨fun s id n c h d a l H => ⟨fun ha R => ?_, exec_elect H, fun op => exec_vote_illegal H op, exec_elect_illegal H,
    exec_matchLanes H⟩, fun s id n c h md o wf H => ⟨exec_shfl_format H wf, exec_shfl H wf⟩,
    fun w => decodeWord_ne_ok_of_reserved, fun w hop hf i => by simp [decodeWord_shfl_mode hop hf]⟩
  exact ⟨exec_vote H .ballot ha R, exec_vote H .any ha R, exec_vote H .all ha R, exec_vote H .uni ha R⟩

end Sys2Proof.Machine
end

section
section
/-! SUPPORT. Facts of lists and natural numbers that core Lean does not have; the model's files import no library. -/

namespace Sys2Proof.Machine

section

variable {α β : Type}

theorem getD_of_lt (l : List α) (d : α) {n : Nat} (h : n < l.length) : l.getD n d = l[n] := by
  simp [List.getD, h]

theorem getD_of_ge (l : List α) (d : α) {n : Nat} (h : l.length ≤ n) : l.getD n d = d := by
  simp [List.getD, List.getElem?_eq_none h]

theorem getD_append_left (l r : List α) (d : α) (n : Nat) (h : n < l.length) : (l ++ r).getD n d = l.getD n d := by
  simp [List.getD, List.getElem?_append_left h]

theorem getD_append_right (l r : List α) (d : α) (n : Nat) (h : l.length ≤ n) : (l ++ r).getD n d = r.getD (n - l.length) d := by
  simp [List.getD, List.getElem?_append_right h]

theorem flatMap_ext {l : List α} {f g : α → List β} (h : ∀ x ∈ l, f x = g x) : l.flatMap f = l.flatMap g := by
  rw [List.flatMap_def, List.flatMap_def, List.map_congr_left h]

theorem filterMap_ext {l : List α} {f g : α → Option β} (h : ∀ x ∈ l, f x = g x) : l.filterMap f = l.filterMap g := by
  induction l with
  | nil => rfl
  | cons x r ih =>
    rw [List.filterMap_cons, List.filterMap_cons, h x List.mem_cons_self, ih (fun y hy => h y (List.mem_cons_of_mem _ hy))]

theorem nodup_map_of {l : List α} {f : α → β} (inj : ∀ a ∈ l, ∀ b ∈ l, f a = f b → a = b) (h : l.Nodup) : (l.map f).Nodup :=
  List.pairwise_map.2 (h.imp_of_mem fun ha hb differ same => differ (inj _ ha _ hb same))

theorem inj_of_nodup_map {l : List α} {f : α → β} (h : (l.map f).Nodup) {a b : α} (ha : a ∈ l) (hb : b ∈ l) (same : f a = f b) : a = b := by
  induction l with
  | nil => cases ha
  | cons x r ih =>
    obtain ⟨fresh, rest⟩ := List.nodup_cons.1 h
    rcases List.mem_cons.1 ha with rfl | inA <;> rcases List.mem_cons.1 hb with rfl | inB
    · rfl
    · exact absurd (same ▸ List.mem_map_of_mem inB) fresh
    · exact absurd (same ▸ List.mem_map_of_mem inA) fresh
    · exact ih rest inA inB

/-- Induction along a list by pairs. -/
theorem pairsInduction {motive : List α → Prop} (nil : motive []) (singleton : ∀ a, motive [a])
    (cons_cons : ∀ a b t, motive t → motive (a :: b :: t)) : ∀ l, motive l
  | [] => nil
  | [a] => singleton a
  | a :: b :: t => cons_cons a b t (pairsInduction nil singleton cons_cons t)

end

theorem even_or_odd (n : Nat) : ∃ k, n = 2 * k ∨ n = 2 * k + 1 := ⟨n / 2, by omega⟩

/-- Distinct numbers below `n` are at most `n`. -/
theorem length_le_of_nodup_lt {n : Nat} {l : List Nat} (once : l.Nodup) (below : ∀ x ∈ l, x < n) : l.length ≤ n := by
  induction n generalizing l with
  | zero =>
    cases l with
    | nil => exact Nat.le_refl 0
    | cons x r => exact absurd (below x List.mem_cons_self) (Nat.not_lt_zero x)
  | succ n ih =>
    have rest : (l.erase n).length ≤ n := ih (once.erase n) (fun x hx => by
      obtain ⟨differ, mem⟩ := once.mem_erase_iff.1 hx
      have := below x mem
      omega)
    have := List.length_erase (a := n) (l := l)
    split at this <;> omega

/-- A condition that admits fewer elements counts fewer. -/
theorem countP_lt_countP {α : Type} {p q : α → Bool} {l : List α} (sub : ∀ x ∈ l, p x = true → q x = true) {a : α} (mem : a ∈ l)
    (fails : p a = false) (holds : q a = true) : l.countP p < l.countP q := by
  obtain ⟨l₁, l₂, rfl⟩ := List.append_of_mem mem
  have before := List.countP_mono_left (l := l₁) (p := p) (q := q) (fun x hx => sub x (List.mem_append_left _ hx))
  have after := List.countP_mono_left (l := l₂) (p := p) (q := q) (fun x hx => sub x (List.mem_append_right _ (List.mem_cons_of_mem _ hx)))
  simp only [List.countP_append, List.countP_cons, fails, holds, Bool.false_eq_true, if_false, if_true]
  omega

end Sys2Proof.Machine
end

/-! SUPPORT. Decoding and encoding agree: for each format and each shape of operands, which words a packing gives, in terms of the
fields that the decoder reads; then the two directions, by the arms of the decoder and by the constructors of the instructions. -/

namespace Sys2Proof

-- Adjacent fields of a word.

theorem fld_eq_append_iff {m n : Nat} (w : Word) (lo : Nat) (x : BitVec m) (y : BitVec n) :
    fld w lo (m + n) = x ++ y ↔ fld w (lo + n) m = x ∧ fld w lo n = y := by
  have halves : fld w lo (m + n) = fld w (lo + n) m ++ fld w lo n := by
    ext i hi
    simp only [fld, BitVec.getElem_extractLsb', BitVec.getElem_append]
    split <;> grind
  constructor
  · intro h
    have high := congrArg (fun v => v.extractLsb' n m) (halves.symm.trans h)
    have low := congrArg (fun v => v.extractLsb' 0 n) (halves.symm.trans h)
    simp [BitVec.extractLsb'_append_eq_of_le, BitVec.extractLsb'_append_eq_of_add_le] at high low
    exact ⟨high, low⟩
  · rintro ⟨rfl, rfl⟩; exact halves

section
variable (w : Word)

theorem fld_eq_ofBool_iff (n : Nat) (b : Bool) : fld w n 1 = BitVec.ofBool b ↔ bitOf w n = b := by
  rw [← ofBool_bitOf]; cases b <;> cases bitOf w n <;> decide

theorem fld_bit_eq_zero_iff (n : Nat) : fld w n 1 = 0#1 ↔ bitOf w n = false := fld_eq_ofBool_iff w n false

-- Packed words.

@[simp] theorem packA_eq_iff {op : BitVec 7} {d a b : BitVec 5} {e : BitVec 3} {h : BitVec 2} {f : BitVec 5} :
    packA op d a b e h f = w ↔ opc w = op ∧ fD w = d ∧ fA w = a ∧ fB w = b ∧ fE w = e ∧ fH w = h ∧ fF w = f :=
  ⟨by rintro rfl; simp, by rintro ⟨rfl, rfl, rfl, rfl, rfl, rfl, rfl⟩; exact packA_fields w⟩

@[simp] theorem packL_eq_iff {op : BitVec 7} {d a b : BitVec 5} {e : BitVec 3} {l : BitVec 4} {f : BitVec 3} :
    packL op d a b e l f = w ↔ opc w = op ∧ fD w = d ∧ fA w = a ∧ fB w = b ∧ fE w = e ∧ fL w = l ∧ fld w 0 3 = f :=
  ⟨by rintro rfl; simp, by rintro ⟨rfl, rfl, rfl, rfl, rfl, rfl, rfl⟩; exact packL_fields w⟩

@[simp] theorem packI_eq_iff {op : BitVec 7} {d : BitVec 5} {i : BitVec 20} : packI op d i = w ↔ opc w = op ∧ fD w = d ∧ fI w = i :=
  ⟨by rintro rfl; simp, by rintro ⟨rfl, rfl, rfl⟩; exact packI_fields w⟩

@[simp] theorem packE_eq_iff {op : BitVec 7} {d a b : BitVec 5} {i : BitVec 10} :
    packE op d a b i = w ↔ opc w = op ∧ fD w = d ∧ fA w = a ∧ fB w = b ∧ fld w 0 10 = i :=
  ⟨by rintro rfl; simp, by rintro ⟨rfl, rfl, rfl, rfl, rfl⟩; exact packE_fields w⟩

@[simp] theorem packX_eq_iff {op : BitVec 7} {x y z : BitVec 4} {s : BitVec 3} {m : BitVec 8} {v : BitVec 2} :
    packX op x y z s m v = w ↔ opc w = op ∧ fld w 21 4 = x ∧ fld w 17 4 = y ∧ fld w 13 4 = z ∧ fld w 10 3 = s ∧
      fld w 2 8 = m ∧ fld w 0 2 = v :=
  ⟨by rintro rfl; simp, by rintro ⟨rfl, rfl, rfl, rfl, rfl, rfl, rfl⟩; exact packX_fields w⟩

theorem fld_whole : fld w 0 32 = w := by simp [fld]

@[simp] theorem packJ_eq_iff {op : BitVec 7} {p : BitVec 3} {i : Bool} {o : BitVec 21} :
    packJ op p i o = w ↔ opc w = op ∧ fld w 22 3 = p ∧ bitOf w 21 = i ∧ fld w 0 21 = o :=
  calc packJ op p i o = w
      ↔ fld w 0 32 = op ++ p ++ BitVec.ofBool i ++ o := by rw [fld_whole, eq_comm, packJ]
    _ ↔ fld w 21 11 = op ++ p ++ BitVec.ofBool i ∧ fld w 0 21 = o := fld_eq_append_iff w 0 _ o
    _ ↔ (fld w 22 10 = op ++ p ∧ fld w 21 1 = BitVec.ofBool i) ∧ fld w 0 21 = o :=
      and_congr_left' (fld_eq_append_iff w 21 (op ++ p) (BitVec.ofBool i))
    _ ↔ ((fld w 25 7 = op ∧ fld w 22 3 = p) ∧ fld w 21 1 = BitVec.ofBool i) ∧ fld w 0 21 = o :=
      and_congr_left' (and_congr_left' (fld_eq_append_iff w 22 op p))
    _ ↔ _ := by simp only [fld_eq_ofBool_iff, and_assoc, opc]

/-- The words of CSRR and CSRW (R313). -/
@[simp] theorem packCsr_eq_iff {op : BitVec 7} {d : BitVec 5} {c : BitVec 10} :
    op ++ d ++ c ++ 0#10 = w ↔ opc w = op ∧ fD w = d ∧ fld w 10 10 = c ∧ fld w 0 10 = 0 :=
  calc op ++ d ++ c ++ 0#10 = w
      ↔ fld w 0 32 = op ++ d ++ c ++ 0#10 := by rw [fld_whole, eq_comm]
    _ ↔ fld w 10 22 = op ++ d ++ c ∧ fld w 0 10 = 0#10 := fld_eq_append_iff w 0 _ 0#10
    _ ↔ (fld w 20 12 = op ++ d ∧ fld w 10 10 = c) ∧ fld w 0 10 = 0#10 := and_congr_left' (fld_eq_append_iff w 10 (op ++ d) c)
    _ ↔ ((fld w 25 7 = op ∧ fld w 20 5 = d) ∧ fld w 10 10 = c) ∧ fld w 0 10 = 0#10 :=
      and_congr_left' (and_congr_left' (fld_eq_append_iff w 20 op d))
    _ ↔ _ := by simp only [and_assoc, opc, fD]; rfl

-- Fields of fields.

@[simp] theorem fF_eq_ofBool_append_iff {k : Bool} {f : BitVec 4} : fF w = BitVec.ofBool k ++ f ↔ bitOf w 4 = k ∧ fld w 0 4 = f :=
  (fld_eq_append_iff w 0 _ f).trans (and_congr_left' (fld_eq_ofBool_iff w 4 k))

@[simp] theorem fF_eq_zero_append_iff {f : BitVec 4} : fF w = 0#1 ++ f ↔ bitOf w 4 = false ∧ fld w 0 4 = f :=
  fF_eq_ofBool_append_iff w (k := false)

@[simp] theorem fH_eq_ofBools_iff {x y : Bool} : fH w = BitVec.ofBool x ++ BitVec.ofBool y ↔ bitOf w 6 = x ∧ bitOf w 5 = y :=
  (fld_eq_append_iff w 5 _ _).trans (and_congr (fld_eq_ofBool_iff w 6 x) (fld_eq_ofBool_iff w 5 y))

@[simp] theorem fH_eq_zero_append_ofBool_iff {y : Bool} : fH w = 0#1 ++ BitVec.ofBool y ↔ bitOf w 6 = false ∧ bitOf w 5 = y :=
  fH_eq_ofBools_iff w (x := false)

@[simp] theorem fH_eq_ofBool_append_zero_iff {x : Bool} : fH w = BitVec.ofBool x ++ 0#1 ↔ bitOf w 6 = x ∧ bitOf w 5 = false :=
  fH_eq_ofBools_iff w (y := false)

@[simp] theorem fld_0_2_eq_ofBools_iff {x y : Bool} :
    fld w 0 2 = BitVec.ofBool x ++ BitVec.ofBool y ↔ bitOf w 1 = x ∧ bitOf w 0 = y :=
  (fld_eq_append_iff w 0 _ _).trans (and_congr (fld_eq_ofBool_iff w 1 x) (fld_eq_ofBool_iff w 0 y))

@[simp] theorem fld_0_3_eq_ofBool_append_iff {x : Bool} {f : BitVec 2} :
    fld w 0 3 = BitVec.ofBool x ++ f ↔ bitOf w 2 = x ∧ fld w 0 2 = f :=
  (fld_eq_append_iff w 0 _ f).trans (and_congr_left' (fld_eq_ofBool_iff w 2 x))

@[simp] theorem fld_0_3_eq_append_ofBool_iff {f : BitVec 2} {x : Bool} :
    fld w 0 3 = f ++ BitVec.ofBool x ↔ fld w 1 2 = f ∧ bitOf w 0 = x :=
  (fld_eq_append_iff w 0 f _).trans (and_congr_right' (fld_eq_ofBool_iff w 0 x))

@[simp] theorem fld_1_2_eq_ofBools_iff {x y : Bool} :
    fld w 1 2 = BitVec.ofBool x ++ BitVec.ofBool y ↔ bitOf w 2 = x ∧ bitOf w 1 = y :=
  (fld_eq_append_iff w 1 _ _).trans (and_congr (fld_eq_ofBool_iff w 2 x) (fld_eq_ofBool_iff w 1 y))

@[simp] theorem fld_0_3_eq_ofBools_iff {x y z : Bool} : fld w 0 3 = BitVec.ofBool x ++ BitVec.ofBool y ++ BitVec.ofBool z ↔
    bitOf w 2 = x ∧ bitOf w 1 = y ∧ bitOf w 0 = z :=
  (fld_0_3_eq_append_ofBool_iff w (f := BitVec.ofBool x ++ BitVec.ofBool y)).trans
    ((and_congr_left' (fld_1_2_eq_ofBools_iff w)).trans and_assoc)

@[simp] theorem fld_0_3_eq_zero_append_iff {f : BitVec 2} : fld w 0 3 = 0#1 ++ f ↔ bitOf w 2 = false ∧ fld w 0 2 = f :=
  fld_0_3_eq_ofBool_append_iff w (x := false)

@[simp] theorem fld_0_3_eq_ofBools_zero_iff {x y : Bool} : fld w 0 3 = BitVec.ofBool x ++ BitVec.ofBool y ++ 0#1 ↔
    bitOf w 2 = x ∧ bitOf w 1 = y ∧ bitOf w 0 = false :=
  fld_0_3_eq_ofBools_iff w (z := false)

@[simp] theorem fld_0_2_eq_zero_append_iff {y : Bool} : fld w 0 2 = 0#1 ++ BitVec.ofBool y ↔ bitOf w 1 = false ∧ bitOf w 0 = y :=
  fld_0_2_eq_ofBools_iff w (x := false)

@[simp] theorem fB_eq_append_ofBool_iff {x : Bool} : fB w = 0#4 ++ BitVec.ofBool x ↔ fld w 11 4 = 0#4 ∧ bitOf w 10 = x :=
  (fld_eq_append_iff w 10 0#4 _).trans (and_congr_right' (fld_eq_ofBool_iff w 10 x))

@[simp] theorem fD_eq_ofBool_append_iff {k : Bool} {f : BitVec 4} : fD w = BitVec.ofBool k ++ f ↔ bitOf w 24 = k ∧ fld w 20 4 = f :=
  (fld_eq_append_iff w 20 _ f).trans (and_congr_left' (fld_eq_ofBool_iff w 24 k))

@[simp] theorem fI_eq_srd_iff {k : BitVec 2} {s : BitVec 8} :
    fI w = k ++ 0#10 ++ s ↔ fld w 18 2 = k ∧ fld w 8 10 = 0#10 ∧ fld w 0 8 = s :=
  (fld_eq_append_iff w 0 (k ++ 0#10) s).trans ((and_congr_left' (fld_eq_append_iff w 8 k 0#10)).trans and_assoc)

@[simp] theorem fld_0_10_eq_transfer_iff {g : Bool} {s : BitVec 5} :
    fld w 0 10 = 0#4 ++ BitVec.ofBool g ++ s ↔ fld w 6 4 = 0#4 ∧ bitOf w 5 = g ∧ fF w = s :=
  (fld_eq_append_iff w 0 (0#4 ++ BitVec.ofBool g) s).trans ((and_congr_left' ((fld_eq_append_iff w 5 0#4 _).trans
    (and_congr_right' (fld_eq_ofBool_iff w 5 g)))).trans and_assoc)

@[simp] theorem fld_0_10_eq_append_iff {k : BitVec 3} : fld w 0 10 = 0#7 ++ k ↔ fld w 3 7 = 0#7 ∧ fld w 0 3 = k :=
  fld_eq_append_iff w 0 0#7 k

-- Zero fields.

theorem fld_eq_zero_iff (lo m n : Nat) : fld w lo (m + n) = 0#(m + n) ↔ fld w (lo + n) m = 0#m ∧ fld w lo n = 0#n := by
  rw [← fld_eq_append_iff, BitVec.zero_append_zero]

@[simp] theorem fld_5_5_eq_zero_iff : fld w 5 5 = 0#5 ↔ fE w = 0#3 ∧ fH w = 0#2 := fld_eq_zero_iff w 5 3 2
@[simp] theorem fld_5_10_eq_zero_iff : fld w 5 10 = 0#10 ↔ fB w = 0#5 ∧ fE w = 0#3 ∧ fH w = 0#2 :=
  (fld_eq_zero_iff w 5 5 5).trans (and_congr_right' (fld_5_5_eq_zero_iff w))
@[simp] theorem fld_5_20_eq_zero_iff :
    fld w 5 20 = 0#20 ↔ fD w = 0#5 ∧ fA w = 0#5 ∧ fB w = 0#5 ∧ fE w = 0#3 ∧ fH w = 0#2 :=
  (fld_eq_zero_iff w 5 5 15).trans (and_congr_right' ((fld_eq_zero_iff w 5 5 10).trans
    (and_congr_right' (fld_5_10_eq_zero_iff w))))
@[simp] theorem fld_0_10_eq_zero_iff : fld w 0 10 = 0#10 ↔ fE w = 0#3 ∧ fH w = 0#2 ∧ fF w = 0#5 :=
  (fld_eq_zero_iff w 0 5 5).trans ((and_congr_left' (fld_5_5_eq_zero_iff w)).trans and_assoc)
@[simp] theorem fld_0_15_eq_zero_iff : fld w 0 15 = 0#15 ↔ fB w = 0#5 ∧ fE w = 0#3 ∧ fH w = 0#2 ∧ fF w = 0#5 :=
  (fld_eq_zero_iff w 0 5 10).trans (and_congr_right' (fld_0_10_eq_zero_iff w))
@[simp] theorem fld_0_20_eq_zero_iff :
    fld w 0 20 = 0#20 ↔ fA w = 0#5 ∧ fB w = 0#5 ∧ fE w = 0#3 ∧ fH w = 0#2 ∧ fF w = 0#5 :=
  (fld_eq_zero_iff w 0 5 15).trans (and_congr_right' (fld_0_15_eq_zero_iff w))
@[simp] theorem fI_eq_zero_iff : fI w = 0#20 ↔ fA w = 0#5 ∧ fB w = 0#5 ∧ fE w = 0#3 ∧ fH w = 0#2 ∧ fF w = 0#5 :=
  fld_0_20_eq_zero_iff w
@[simp] theorem fld_0_5 : fld w 0 5 = fF w := rfl
@[simp] theorem fld_7_3 : fld w 7 3 = fE w := rfl
@[simp] theorem fld_0_25_eq_zero_iff :
    fld w 0 25 = 0#25 ↔ fD w = 0#5 ∧ fA w = 0#5 ∧ fB w = 0#5 ∧ fE w = 0#3 ∧ fH w = 0#2 ∧ fF w = 0#5 :=
  (fld_eq_zero_iff w 0 5 20).trans (and_congr_right' (fld_0_20_eq_zero_iff w))
@[simp] theorem fld_0_6_eq_zero_iff : fld w 0 6 = 0#6 ↔ bitOf w 5 = false ∧ fF w = 0#5 :=
  (fld_eq_zero_iff w 0 1 5).trans (and_congr_left' (fld_eq_ofBool_iff w 5 false))
@[simp] theorem fld_10_10_eq_zero_iff : fld w 10 10 = 0#10 ↔ fA w = 0#5 ∧ fB w = 0#5 := fld_eq_zero_iff w 10 5 5
@[simp] theorem fld_3_12_eq_zero_iff : fld w 3 12 = 0#12 ↔ fB w = 0#5 ∧ fld w 3 7 = 0#7 := fld_eq_zero_iff w 3 5 7
@[simp] theorem fld_4_6_eq_zero_iff : fld w 4 6 = 0#6 ↔ fE w = 0#3 ∧ fH w = 0#2 ∧ bitOf w 4 = false :=
  (fld_eq_zero_iff w 4 5 1).trans ((and_congr (fld_5_5_eq_zero_iff w) (fld_eq_ofBool_iff w 4 false)).trans and_assoc)
@[simp] theorem fld_4_11_eq_zero_iff : fld w 4 11 = 0#11 ↔ fB w = 0#5 ∧ fE w = 0#3 ∧ fH w = 0#2 ∧ bitOf w 4 = false :=
  (fld_eq_zero_iff w 4 5 6).trans (and_congr_right' (fld_4_6_eq_zero_iff w))
end

-- Words of operand shapes.
section
variable {w : Word}

@[simp] theorem encU_eq_iff {op : BitVec 7} {f : BitVec 4} {o : OpU} : encU op f o = w ↔ opc w = op ∧ fld w 0 4 = f ∧ opU w = o := by
  obtain ⟨d, a, b, e, h, k⟩ := o
  simp only [encU, packA_eq_iff, fF_eq_ofBool_append_iff, opU, OpU.mk.injEq]
  grind

@[simp] theorem encV_eq_iff {op : BitVec 7} {f : BitVec 4} {o : OpV} : encV op f o = w ↔ opc w = op ∧ fld w 0 4 = f ∧
    (fB w = 0 ∧ bitOf w 4 = false ∧ bitOf w 6 = false) ∧ opV w = o := by
  obtain ⟨d, a, e, h⟩ := o
  simp only [encV, packA_eq_iff, fF_eq_zero_append_iff, fH_eq_zero_append_ofBool_iff, opV, OpV.mk.injEq]
  grind

@[simp] theorem encL_eq_iff {op : BitVec 7} {f : BitVec 3} {o : OpL} :
    encL op f o = w ↔ opc w = op ∧ fld w 0 3 = f ∧ fB w = 0 ∧ opL w = o := by
  obtain ⟨d, a, e, l⟩ := o
  simp only [encL, packL_eq_iff, opL, OpL.mk.injEq]
  grind

@[simp] theorem encLB_eq_iff {op : BitVec 7} {f : BitVec 3} {o : OpLB} :
    encLB op f o = w ↔ opc w = op ∧ fld w 0 3 = f ∧ opLB w = o := by
  obtain ⟨d, a, b, e, l⟩ := o
  simp only [encLB, packL_eq_iff, opLB, OpLB.mk.injEq]
  grind

@[simp] theorem enc3_eq_iff {op : BitVec 7} {f : BitVec 5} {o : Op3} :
    enc3 op f o = w ↔ opc w = op ∧ fF w = f ∧ (fE w = 0 ∧ fH w = 0) ∧ op3 w = o := by
  obtain ⟨d, a, b⟩ := o
  simp only [enc3, packA_eq_iff, op3, Op3.mk.injEq]
  grind

@[simp] theorem enc2_eq_iff {op : BitVec 7} {f : BitVec 5} {o : Op2} :
    enc2 op f o = w ↔ opc w = op ∧ fF w = f ∧ (fB w = 0 ∧ fE w = 0 ∧ fH w = 0) ∧ op2 w = o := by
  obtain ⟨d, a⟩ := o
  simp only [enc2, packA_eq_iff, op2, Op2.mk.injEq]
  grind

@[simp] theorem encSy_eq_iff {op : BitVec 7} {f : BitVec 3} {o : OpSy} :
    encSy op f o = w ↔ opc w = op ∧ fld w 0 3 = f ∧ fE w = 0 ∧ opSy w = o := by
  obtain ⟨d, a, b, l⟩ := o
  simp only [encSy, packL_eq_iff, opSy, OpSy.mk.injEq]
  grind

@[simp] theorem encAt_eq_iff {op : BitVec 7} {o : OpAt} : encAt op o = w ↔ opc w = op ∧ fE w = 0 ∧ opAt w = o := by
  obtain ⟨d, a, b, l, n, k, x⟩ := o
  simp only [encAt, packL_eq_iff, fld_0_3_eq_ofBools_iff, opAt, OpAt.mk.injEq]
  grind

@[simp] theorem encCache_eq_iff {f : BitVec 3} {o : OpCache} :
    encCache f o = w ↔ opc w = 0x37 ∧ fld w 0 3 = f ∧ (fE w = 0 ∧ fL w = 0) ∧ opCache w = o := by
  obtain ⟨k, s, a, b⟩ := o
  simp only [encCache, packL_eq_iff, fD_eq_ofBool_append_iff, opCache, OpCache.mk.injEq]
  grind

@[simp] theorem encE_eq_iff {op : BitVec 7} {o : OpE} : encE op o = w ↔ opc w = op ∧ fld w 6 4 = 0 ∧ opE w = o := by
  obtain ⟨d, a, b, g, s⟩ := o
  simp only [encE, packE_eq_iff, fld_0_10_eq_transfer_iff, opE, OpE.mk.injEq]
  grind

-- Codes.

@[simp] theorem cond_eq_some_iff (x : BitVec 4) (c : Cond) : cond x.toNat = some c ↔ x = condCode c := by
  cases c <;> revert x <;> decide

@[simp] theorem fcond_eq_some_iff (x : BitVec 4) (c : FCond) : fcond x.toNat = some c ↔ x = fcondCode c := by
  cases c <;> revert x <;> decide

@[simp] theorem cond_condCode (c : Cond) : cond (condCode c).toNat = some c := by cases c <;> rfl

@[simp] theorem fcond_fcondCode (c : FCond) : fcond (fcondCode c).toNat = some c := by cases c <;> rfl

@[simp] theorem redOp_redCode (o : RedOp) : redOp (redCode o) = o := by cases o <;> rfl

@[simp] theorem redCode_redOp (x : BitVec 3) : redCode (redOp x) = x := by revert x; decide

@[simp] theorem memForm_formCode (f : MemForm) : memForm (formCode f) = f := by cases f <;> rfl

@[simp] theorem formCode_memForm (x : BitVec 2) : formCode (memForm x) = x := by revert x; decide

end
/-- The function field with its bit 4. -/
theorem fF_eq_iff {w : Word} {f : BitVec 5} : fF w = f ↔ bitOf w 4 = f.getLsbD 4 ∧ fld w 0 4 = f.extractLsb' 0 4 := by
  have halves : f = BitVec.ofBool (f.getLsbD 4) ++ f.extractLsb' 0 4 := by revert f; decide
  conv => lhs; rw [halves]
  exact fF_eq_ofBool_append_iff w

theorem fF_of_bit4 {w : Word} (h : bitOf w 4 = false) : fF w = 0#1 ++ fld w 0 4 := (fF_eq_zero_append_iff w).2 ⟨h, rfl⟩

theorem fL_eq_zero {w : Word} (hH : fH w = 0#2) (hF : fF w = 0#5) : fL w = 0#4 :=
  ((fld_eq_zero_iff w 3 2 2).2 ⟨hH, ((fld_eq_zero_iff w 0 2 3).1 hF).1⟩)

theorem fld_0_3_eq_zero {w : Word} (hF : fF w = 0#5) : fld w 0 3 = 0#3 := ((fld_eq_zero_iff w 0 2 3).1 hF).2

theorem fH_eq_zero {w : Word} (hL : fL w = 0#4) : fH w = 0#2 := ((fld_eq_zero_iff w 3 2 2).1 hL).1

theorem fF_eq_zero {w : Word} (hL : fL w = 0#4) (h3 : fld w 0 3 = 0#3) : fF w = 0#5 :=
  (fld_eq_zero_iff w 0 2 3).2 ⟨((fld_eq_zero_iff w 3 2 2).1 hL).2, h3⟩

/-- MEXIT's word in format A. -/

@[simp] theorem packX_zero (op : BitVec 7) : packX op 0#4 0#4 0#4 0#3 0#8 0#2 = packA op 0#5 0#5 0#5 0#3 0#2 0#5 := by revert op; decide

-- What a decoding asks for.

@[simp] theorem need_eq_ok_iff {b : Bool} {i j : Instr} : need b i = .ok j ↔ b = true ∧ i = j := by
  cases b <;> simp [need]

@[simp] theorem needV_eq_ok_iff {w : Word} {f : OpV → Instr} {i : Instr} :
    needV w f = .ok i ↔ (fB w = 0 ∧ bitOf w 4 = false ∧ bitOf w 6 = false) ∧ f (opV w) = i := by
  simp [needV, need_eq_ok_iff, and_assoc]

@[simp] theorem needS_eq_ok_iff {w : Word} {i j : Instr} :
    needS w i = .ok j ↔ (fE w = 0 ∧ fH w = 0 ∧ bitOf w 4 = false) ∧ i = j := by
  simp [needS, need_eq_ok_iff]

@[simp] theorem needS2_eq_ok_iff {w : Word} {i j : Instr} :
    needS2 w i = .ok j ↔ (fB w = 0 ∧ fE w = 0 ∧ fH w = 0 ∧ bitOf w 4 = false) ∧ i = j := by
  simp [needS2, need_eq_ok_iff]

theorem encode_of_decodeControl {w : Word} {i : Instr} (h : decodeControl w = .ok i) : encode i = some w := by
  dsimp only [decodeControl] at h
  repeat' split at h
  all_goals simp at h
  all_goals
    obtain ⟨fields, rfl⟩ := h
    refine congrArg some ?_
    simp_all [BitVec.toNat_eq_nat]

theorem encode_of_decodeInteger {w : Word} {i : Instr} (h : decodeInteger w = .ok i) : encode i = some w := by
  dsimp only [decodeInteger] at h
  repeat' split at h
  all_goals simp at h
  all_goals
    obtain ⟨fields, rfl⟩ := h
    refine congrArg some ?_
    simp_all [BitVec.toNat_eq_nat]

theorem encode_of_decodeFloat {w : Word} {i : Instr} (h : decodeFloat w = .ok i) : encode i = some w := by
  dsimp only [decodeFloat] at h
  repeat' split at h
  all_goals simp at h
  all_goals
    obtain ⟨fields, rfl⟩ := h
    refine congrArg some ?_
    simp_all [BitVec.toNat_eq_nat, opL, opV, fF_eq_iff]

theorem encode_of_decodeCross {w : Word} {i : Instr} (h : decodeCross w = .ok i) : encode i = some w := by
  dsimp only [decodeCross] at h
  repeat' split at h
  all_goals simp at h
  all_goals
    obtain ⟨fields, rfl⟩ := h
    refine congrArg some ?_
    simp_all [BitVec.toNat_eq_nat, opL, voteCode, shflCode]

theorem encode_of_decodeUniform {w : Word} {i : Instr} (h : decodeUniform w = .ok i) : encode i = some w := by
  dsimp only [decodeUniform] at h
  repeat' split at h
  all_goals simp at h
  all_goals
    obtain ⟨fields, rfl⟩ := h
    refine congrArg some ?_
    simp_all [BitVec.toNat_eq_nat, fF_of_bit4]

theorem encode_of_decodeMemory {w : Word} {i : Instr} (h : decodeMemory w = .ok i) : encode i = some w := by
  dsimp only [decodeMemory] at h
  repeat' split at h
  all_goals simp at h
  all_goals
    obtain ⟨fields, rfl⟩ := h
    refine congrArg some ?_
    simp_all [BitVec.toNat_eq_nat, opS3, fL_eq_zero, fld_0_3_eq_zero]

theorem encode_of_decodeMatrix {w : Word} {i : Instr} (h : decodeMatrix w = .ok i) : encode i = some w := by
  dsimp only [decodeMatrix] at h
  repeat' split at h
  all_goals simp at h
  all_goals
    obtain ⟨fields, rfl⟩ := h
    refine congrArg some ?_
    simp_all [BitVec.toNat_eq_nat]

theorem encode_of_decodeEngine {w : Word} {i : Instr} (h : decodeEngine w = .ok i) : encode i = some w := by
  dsimp only [decodeEngine] at h
  repeat' split at h
  all_goals simp at h
  all_goals
    obtain ⟨fields, rfl⟩ := h
    refine congrArg some ?_
    simp_all [BitVec.toNat_eq_nat]

theorem encode_of_decodeWord {w : Word} {i : Instr} (h : decodeWord w = .ok i) : encode i = some w := by
  dsimp only [decodeWord] at h
  repeat' split at h
  · exact encode_of_decodeControl h
  · exact encode_of_decodeInteger h
  · exact encode_of_decodeFloat h
  · exact encode_of_decodeCross h
  · exact encode_of_decodeUniform h
  · exact encode_of_decodeMemory h
  · exact encode_of_decodeMatrix h
  · exact encode_of_decodeEngine h

/-- An instruction's word has the opcode and the fields that its encoding gives, and the decoder takes the arm of these. -/
theorem decodeWord_of_encode {w : Word} {i : Instr} (h : encode i = some w) (listed : ∀ a t s m, i ≠ .mscale a t s m 3) :
    decodeWord w = .ok i := by
  cases i
  case mscale a t s m v =>
    have form : v ≠ 3#2 := fun hv => listed a t s m (hv ▸ rfl)
    have fields := Option.some.inj h
    simp at fields
    simp [decodeWord, decodeMatrix, fields, BitVec.toNat_eq_nat, form]
  case vote op _ _ _ =>
    have fields := Option.some.inj h
    simp at fields
    cases op <;> simp [decodeWord, decodeCross, fields, voteCode]
  case shfl m _ =>
    have fields := Option.some.inj h
    simp at fields
    cases m <;> simp [decodeWord, decodeCross, fields, shflCode]
  case scan op x o =>
    have fields := Option.some.inj h
    cases x <;>
      simp at fields <;>
      simp [decodeWord, decodeCross, fields, opL]
  case fclass o =>
    have fields := Option.some.inj h
    simp at fields
    simp [decodeWord, decodeFloat, fields, fcond]
  case retag o f =>
    have fields := Option.some.inj h
    simp [fF_eq_iff] at fields
    simp [decodeWord, decodeFloat, fields, fF_of_bit4, opV]
  case pack | unpack =>
    all_goals
      have fields := Option.some.inj h
      simp at fields
      simp [decodeWord, decodeFloat, fields, fF_of_bit4]
  case sadd | ssub | smul | smulh | sand | sor | sxor | sshl | sshr | ssar | smov | ssel | sbfx | spopc | bcast | pick
      | pand | por | pxor | pnot | pmov | pcnt =>
    all_goals
      have fields := Option.some.inj h
      simp [fF_eq_iff] at fields
      simp [decodeWord, decodeUniform, fields]
  case heat | heatJ | quench | br | bra | brx | call | callx | ret | exit | tret | slide | nop | yield | mode | modem
      | trap | brk | svc | launch | fork | rdv =>
    all_goals
      have fields := Option.some.inj h
      simp at fields
      simp [decodeWord, decodeControl, fields]
  case iadd | iaddc | isub | isubb | imin | imax | iabs | ineg | lea | imul | imulh | imad | imadw | and | or | xor
      | andn | not | sel | shl | shr | sar | rot | popc | clz | brev | bfx | bfi | icmp | mov | movi | movh =>
    all_goals
      have fields := Option.some.inj h
      simp at fields
      simp [decodeWord, decodeInteger, fields]
  case fadd | fsub | fmul | fmin | fmax | fabs | fneg | fcpys | fscale | frnd | ffma | ffms | fdot2 | fcmp | frcp
      | frsq | fsqrt | fdiv | fexp2 | flog2 | fsin | fcos | ftanh | cvt | cvti | tag | qscale | mxscale =>
    all_goals
      have fields := Option.some.inj h
      simp at fields
      simp [decodeWord, decodeFloat, fields]
  case elect | matchLanes | permset | perm | red =>
    all_goals
      have fields := Option.some.inj h
      simp at fields
      simp [decodeWord, decodeCross, fields]
  case scmp | smovi | smovh | srd =>
    all_goals
      have fields := Option.some.inj h
      simp at fields
      simp [decodeWord, decodeUniform, fields]
  case ld | st | ldx | stx | sld | sst | ldc | pref | cflush | cinv | hint | aadd | afadd | amin | amax | aand | aor
      | axor | aswp | acas | acas2 | fence | binit | arrive | arrivex | wait | twait | bar | strike | mwait =>
    all_goals
      have fields := Option.some.inj h
      simp at fields
      simp [decodeWord, decodeMemory, fields, fH_eq_zero, fF_eq_zero, opS3]
  case mma | mzero | msta | dwait | dwaitArm | mexit | gmode | tset | tget | aset | take | give =>
    all_goals
      have fields := Option.some.inj h
      simp at fields
      simp [decodeWord, decodeMatrix, fields]
  case cpy | cpy2 | halo | gath | scat | fill | coll | qfence | esig | eloop | eend | csrr | csrw | tlbi | classPage
      | pwrq | ctxq =>
    all_goals
      have fields := Option.some.inj h
      simp at fields
      simp [decodeWord, decodeEngine, fields]
  all_goals nomatch h

/-- Settles O56: a word is the word of an instruction exactly when its fields are what the encoding packs, and the decoder
reads these fields. -/
theorem decodeAndEncodeAgree : Obligations.DecodeAndEncodeAgree :=
  ⟨fun _ _ => decodeWord_of_encode, fun _ _ => encode_of_decodeWord⟩

end Sys2Proof
end

section
/-! SUPPORT. Register words: the frame of `afterWord` and, word by word, what the issue of a register word leaves. -/

namespace Sys2Proof.Machine

-- The frame of a register word (O1).

/-- A uniform register whose results all agree has their value. -/
theorem Regs.rdS_puts_mem (ws : List RegW) (r : Regs) {k : Nat} {x : DWord} (hk : RegW.s k x ∈ ws)
    (agree : ∀ y, RegW.s k y ∈ ws → y = x) : (r.puts ws).rdS k = x := by
  induction ws generalizing r with
  | nil => simp at hk
  | cons w t ih =>
    rw [Regs.puts_cons]
    by_cases later : RegW.s k x ∈ t
    · exact ih _ later (fun y hy => agree y (List.mem_cons_of_mem _ hy))
    · obtain rfl : RegW.s k x = w := by simpa [later] using hk
      rw [Regs.rdS_puts_other t _ fun y hy => later (agree y (List.mem_cons_of_mem _ hy) ▸ hy)]
      simp [Regs.put, Regs.rdS]

/-- The registers after a word with results `ws` of lookahead `la`, before a window ends. -/
def Heat.wrote (h : Heat) (la : Nat) (ws : List RegW) (fl : Flags) (draws : Option Lanes) : Regs :=
  let r : Regs := { h.wrk with lfsr := draws.getD h.wrk.lfsr }
  let r := if la = 0 then r.puts ws else r
  { r with asw := r.asw ||| fl.setWidth 16 }

theorem State.afterWord_eq (s : State) (id : Nat) (c : Crew) (h : Heat) (la : Nat) (held : List Nat) (ws : List RegW)
    (fl : Flags) (draws : Option Lanes) : ∃ (c' : Crew) (h' : Heat),
      s.afterWord id c h la held ws fl draws = s.setCrew id c' ∧ c'.heat = some h' ∧
      h'.wrk = (h.wrote la ws fl draws).puts h.soon ∧
      h'.pend = (h.pend.filter (fun p => decide (1 < p.left))).map (fun p => { p with left := p.left - 1 })
        ++ (if la = 0 then [] else [⟨ws, la, (c.slot h.slot).pc, h.off, h.gives.length, h.group.length, .clean⟩]) ∧
      h'.off = h.off + 1 ∧ h'.base = h.base ∧ h'.buf = h.buf ∧ h'.group = h.group ∧ h'.sealed = h.sealed ∧ h'.gives = h.gives ∧
      (∃ l, c' = { c.setSlot h.slot { c.slot h.slot with pc := (c.slot h.slot).pc + 4 } with
        heat := some h', wait := .none, latch := l, ring := { c.ring with touched := [] } }) := by
  refine ⟨_, _, rfl, rfl, ?_, rfl, rfl, rfl, rfl, rfl, rfl, rfl, _, rfl⟩
  cases draws <;> rfl

section
variable (h : Heat) {la : Nat} {ws : List RegW} (fl : Flags) (draws : Option Lanes)

/-- What no result of lookahead 0 names is as before. -/
theorem Heat.wrote_other {k : Nat} (hk : la ≠ 0 ∨ k ∉ vecKeys ws) :
    (h.wrote la ws fl draws).rdV k = h.wrk.rdV k ∧ (h.wrote la ws fl draws).rdTag k = h.wrk.rdTag k := by
  by_cases hl : la = 0
  · subst hl
    exact Regs.rdV_puts_other ws { h.wrk with lfsr := draws.getD h.wrk.lfsr } (hk.resolve_left (by simp))
  · simp [Heat.wrote, hl, Regs.rdV, Regs.rdTag]

theorem Heat.wrote_otherS {k : Nat} (hk : la ≠ 0 ∨ ∀ x, RegW.s k x ∉ ws) : (h.wrote la ws fl draws).rdS k = h.wrk.rdS k := by
  by_cases hl : la = 0
  · subst hl
    exact Regs.rdS_puts_other ws { h.wrk with lfsr := draws.getD h.wrk.lfsr } (hk.resolve_left (by simp))
  · simp [Heat.wrote, hl, Regs.rdS]

theorem Heat.wrote_otherP {k : Nat} (hk : la ≠ 0 ∨ ∀ m x, RegW.p k m x ∉ ws) : (h.wrote la ws fl draws).rdP k = h.wrk.rdP k := by
  by_cases hl : la = 0
  · subst hl
    exact Regs.rdP_puts_other ws { h.wrk with lfsr := draws.getD h.wrk.lfsr } (hk.resolve_left (by simp))
  · simp [Heat.wrote, hl, Regs.rdP]

theorem Heat.wrote_mem {k : Nat} {m : Word} {x : Lanes} {g : Nat} (hk : RegW.v k m x g ∈ ws) (once : (vecKeys ws).Nodup) :
    (h.wrote 0 ws fl draws).rdV k = mergeLanes m (h.wrk.rdV k) x ∧ (h.wrote 0 ws fl draws).rdTag k = g :=
  Regs.rdV_puts_mem ws { h.wrk with lfsr := draws.getD h.wrk.lfsr } hk once

/-- What a word with results leaves alone beside registers. -/
theorem Heat.wrote_fields : (h.wrote la ws fl draws).asw = h.wrk.asw ||| fl.setWidth 16 ∧
    (h.wrote la ws fl draws).lfsr = draws.getD h.wrk.lfsr ∧ (h.wrote la ws fl draws).mode = h.wrk.mode ∧
    (h.wrote la ws fl draws).watch = h.wrk.watch ∧ (h.wrote la ws fl draws).tretpc = h.wrk.tretpc ∧
    (h.wrote la ws fl draws).tretctl = h.wrk.tretctl := by
  obtain ⟨mode, asw, lfsr, watch, pc, ctl⟩ := Regs.puts_other ws { h.wrk with lfsr := draws.getD h.wrk.lfsr }
  by_cases hl : la = 0 <;> simp [Heat.wrote, *]
end

theorem lane_mergeLanes (m : Word) (a b : Lanes) {l : Nat} (hl : l < 32) :
    lane (mergeLanes m a b) l = if m.getLsbD l then lane b l else lane a l := by
  simp [mergeLanes, lane_lanesOf, hl]

/-- Settles O1: the registers after the word are what it wrote, with the results whose window ends with it put over that. -/
theorem registerWordFrame : Obligations.RegisterWordFrame := by
  unfold Obligations.RegisterWordFrame
  intro s id n c h la held ws fl draws H hn
  obtain rfl := H.slot
  obtain ⟨c', h', hs, hh, hw, hp, hoff, hbase, hbuf, hgroup, hsealed, hgives, l, rfl⟩ :=
    s.afterWord_eq id c h la held ws fl draws
  have other : ∀ k, k ∉ vecKeys h.soon → _ := fun k hk => Regs.rdV_puts_other h.soon (h.wrote la ws fl draws) hk
  obtain ⟨asw, lfsr, mode, watch, pc, ctl⟩ := h.wrote_fields (la := la) (ws := ws) fl draws
  obtain ⟨mode', asw', lfsr', watch', pc', ctl'⟩ := Regs.puts_other h.soon (h.wrote la ws fl draws)
  have here := Crew.slot_setSlot c h.slot { c.slot h.slot with pc := (c.slot h.slot).pc + 4 }
  rw [hs]
  refine ⟨_, h', rfl, rfl, fun k hk => State.crew_setCrew_other _ _ hk, rfl, (congrArg PcSlot.pc here :),
    (congrArg PcSlot.mask here :), (congrArg PcSlot.base here :), (congrArg PcSlot.chain here :), Crew.slot_setSlot_other c _ hn (by omega) (by omega), Crew.com_setSlot c _ _, Crew.exited_setSlot c _ _,
    Crew.stack_setSlot c _ _, Crew.trap_setSlot c _ _, Crew.park_setSlot c _ _, Crew.toks_setSlot c _ _, rfl,
    Crew.named_setSlot c _ _, hoff, hbase, hbuf, hgroup, hsealed, hgives, ?_⟩
  simp only [hw]
  refine ⟨fun k hk hsoon => ?_, fun k hk hsoon => ?_, fun k hk hsoon => ?_, fun k m x g hm once hk => ?_, fun k x hm agree => ?_,
    ?_, fun k m x g hla hm once hsoon => ?_, asw'.trans asw, lfsr'.trans lfsr, mode'.trans mode, watch'.trans watch,
    pc'.trans pc, ctl'.trans ctl⟩
  · obtain ⟨hv, ht⟩ := h.wrote_other fl draws hk
    obtain ⟨hv', ht'⟩ := other k hsoon
    exact ⟨hv'.trans hv, ht'.trans ht⟩
  · exact (Regs.rdS_puts_other _ _ hsoon).trans (h.wrote_otherS fl draws hk)
  · exact (Regs.rdP_puts_other _ _ hsoon).trans (h.wrote_otherP fl draws hk)
  · obtain ⟨hv, ht⟩ := Regs.rdV_puts_mem _ (h.wrote la ws fl draws) hm once
    exact ⟨ht, fun l hl => by rw [hv, lane_mergeLanes _ _ _ hl, (h.wrote_other fl draws hk).1]⟩
  · exact Regs.rdS_puts_mem _ _ hm agree
  · rw [hp]; split <;> simp
  · subst hla
    obtain ⟨hv, ht⟩ := h.wrote_mem fl draws hm once
    obtain ⟨hv', ht'⟩ := other k hsoon
    exact ⟨ht'.trans ht, fun l hl => by rw [hv', hv, lane_mergeLanes _ _ _ hl]⟩

end Sys2Proof.Machine
end

section
/-! SUPPORT. Register words family by family: what `exec` runs for a word of the family, and that it completes (O2, O4 to O9,
O11, O12). -/

namespace Sys2Proof.Machine

variable {s : State} {id n : Nat} {c : Crew} {h : Heat}

-- The issue of a register word, whatever its flags.

theorem regEff_ok (s : State) (id : Nat) {la : Nat} {held : Heat → List Nat} {f : Crew → Heat → Except Stop Res} {r : Res}
    (hf : f c h = .ok r) : ∃ s', regEff la held f s id c h = .ok (s', r.fl) := by
  simp only [regEff, hf]
  exact ⟨_, rfl⟩

/-- A register word whose function gives a result completes with it, or raises ARITH. -/
theorem crewWord_completes (H : InHeat s id n c h) {la : Nat} {held : Heat → List Nat} {f : Crew → Heat → Except Stop Res}
    {r : Res} (hf : f c h = .ok r) :
    (h.admits r.fl → s.crewWord true (regEff la held f) = .next (s.afterWord id c h la (held h) r.ws r.fl r.lfsr)) ∧
    (¬h.admits r.fl → s.crewWord true (regEff la held f) = .next (s.arithTrap id n c r.fl)) := by
  obtain ⟨s', he⟩ := regEff_ok (s.setCrew id c) id hf
  exact ⟨crewWord_regEff H hf, crewWord_arith H he⟩

/-- A register word without flags that holds operands. -/
theorem crewWord_calm (H : InHeat s id n c h) {la : Nat} {held : Heat → List Nat} {f : Crew → Heat → Except Stop Res}
    {ws : List RegW} (hf : f c h = .ok ⟨ws, 0, none⟩) :
    s.crewWord true (regEff la held f) = .next (s.afterWord id c h la (held h) ws 0 none) :=
  crewWord_regEff H hf (admits_zero h)

-- Integer words (O2).

theorem exec_of_intLane {i : Instr} {o : OpU} {rd : Reads} {g : IntLane} (hi : i.intLane = some (o, rd, g)) (s : State) :
    exec i s = s.crewWord i.wf (regEff 0 (heldU o) (intLanes o rd g)) := by
  unfold Instr.intLane at hi
  split at hi <;> cases hi <;> rfl

/-- Settles O2: the checks pass, so the word completes with what `intLanes` gives. -/
theorem integerWordsComplete : Obligations.IntegerWordsComplete := by
  unfold Obligations.IntegerWordsComplete
  intro s id n c h i o rd g hi wf H pairs ha hb hd R
  rw [exec_of_intLane hi, wf]
  exact crewWord_completes H (intLanes_ok pairs ha hb hd R)

-- Shaped words (O8).

theorem exec_of_calc {i : Instr} {la : Nat} {held : Heat → List Nat} {f : Crew → Heat → Except Stop Res}
    (hi : i.calc = some (la, held, f)) (s : State) : exec i s = s.crewWord i.wf (regEff la held f) := by
  unfold Instr.calc at hi
  split at hi <;> cases hi <;> rfl

/-- Settles O8: the word's function of the crew's registers gives the result with which it completes. -/
theorem shapedWordsComplete : Obligations.ShapedWordsComplete := by
  unfold Obligations.ShapedWordsComplete
  intro s id n c h i la held f r hi wf H hf
  rw [exec_of_calc hi, wf]
  exact crewWord_completes H hf

-- Float words (O6, O7).

theorem exec_of_floatWord {i : Instr} {w : FloatWord} (hi : i.floatWord = some w) (s : State) :
    exec i s = s.crewWord i.wf (regEff w.la w.held (floatCalc w.o w.rd w.draws w.bTag w.tag w.op)) := by
  unfold Instr.floatWord at hi
  split at hi <;> cases hi <;> rfl

/-- The pairs that R68 asks of a float word's operands. -/
theorem pairsLegal_of_pairsFor {wide : Bool} {o : OpU} {rd : Reads} (hp : pairsFor wide o rd = true) :
    pairsLegal wide ([o.d, o.a] ++ (if rd.b && !o.k then [o.b] else [])) o.e = true := by
  cases wide
  · rfl
  · cases hb : rd.b <;> cases hk : o.k <;> simp_all [pairsFor, pairsLegal]

/-- What a float word gives where its operands pass the checks (R172). -/
def floatRes (c : Crew) (h : Heat) (w : FloatWord) : Res :=
  let f := modeFmt h.wrk.mode
  let rn := modeRnd h.wrk.mode
  let b := slotBits f
  drawLanes c h (fun out => vecW (h.keys w.o.d w.o.e) (c.lanes h) out (fun _ => w.tag f)) (fun l st =>
    let ea := elemsOf b (h.laneA w.o l)
    let eb := elemsOf b (h.laneB w.o w.rd (b == 64) l)
    let ed := elemsOf b (h.laneD w.o w.rd l)
    let x := drawEach (if w.draws then rn else { rn with mode := rndRNE })
      (fun j d => w.op f rn d (ea.getD j 0) (eb.getD j 0) (ed.getD j 0)) (List.range ea.length) st
    (regsOfElems b x.1, x.2.1, x.2.2))

theorem floatCalc_ok {w : FloatWord} (hf : fmtIsFloat (modeFmt h.wrk.mode) = true)
    (pairs : pairsFor (modeFmt h.wrk.mode == fmtFP64) w.o w.rd = true)
    (ha : h.wrk.accepts (modeFmt h.wrk.mode) (h.keys w.o.a w.o.e) = true)
    (hb : h.wrk.accepts (w.bTag (modeFmt h.wrk.mode)) (h.keysB w.o w.rd) = true)
    (hd : h.wrk.accepts (modeFmt h.wrk.mode) (h.keysD w.o w.rd) = true)
    (R : Readable c h (h.sources w.o w.rd) (h.keys w.o.d w.o.e) []) :
    floatCalc w.o w.rd w.draws w.bTag w.tag w.op c h = .ok (floatRes c h w) := by
  have hd' : (!w.rd.d || h.wrk.accepts (modeFmt h.wrk.mode) (h.keys w.o.d w.o.e)) = true := by
    cases hrd : w.rd.d <;> simp_all [Heat.keysD]
  have passes := check_ok R
  simp only [Heat.sources, Heat.keysB, Heat.keysD] at passes
  simp only [Heat.keysB] at hb
  simp only [floatCalc, hf, ha, hb, hd', pairsLegal_of_pairsFor pairs, Bool.and_self]
  rw [passes]
  rfl

/-- Settles O6: the checks pass, so the word completes with what `floatCalc` gives. -/
theorem floatWordsComplete : Obligations.FloatWordsComplete := by
  unfold Obligations.FloatWordsComplete
  intro s id n c h i w hi wf H hf pairs ha hb hd R
  rw [exec_of_floatWord hi, wf]
  exact crewWord_completes H (floatCalc_ok hf pairs ha hb hd R)

/-- Settles O7: the checks pass, and the predicate and flags are those of R175. -/
theorem floatCompareCompletes : Obligations.FloatCompareCompletes := by
  unfold Obligations.FloatCompareCompletes
  intro s id n c h cc o wf H hf pairs ha hb R
  change (_ → s.crewWord (Instr.fcmp cc o).wf _ = _) ∧ (_ → s.crewWord (Instr.fcmp cc o).wf _ = _)
  rw [wf]
  refine crewWord_completes H (r := ⟨_, _, none⟩) ?_
  have keysB : h.keysB o readsB = if o.k then [] else h.keys o.b o.e := by cases hk : o.k <;> simp [Heat.keysB, readsB, hk]
  have legal : pairsLegal (modeFmt h.wrk.mode == fmtFP64) ([o.a] ++ (if o.k then [] else [o.b])) o.e = true := by
    by_cases h64 : modeFmt h.wrk.mode = fmtFP64
    · obtain ⟨pa, pb⟩ := pairs h64
      cases hk : o.k <;> simp_all [pairsLegal]
    · simp [pairsLegal, h64]
  have passes := check_ok R
  rw [keysB] at passes hb
  simp only [fcmpCalc, hf, ha, hb, legal, Bool.and_self, passes]
  simp only [Heat.laneA, Heat.laneB, keysB]
  rfl

-- Comparison and immediates (O5).

theorem exec_icmp (H : InHeat s id n c h) {cc : Cond} {o : OpU} (wf : (Instr.icmp cc o).wf = true)
    (pairs : (intModeOf h.wrk.mode).w = 64 → pairOk o.a o.e = true ∧ (o.k = true ∨ pairOk o.b o.e = true))
    (ha : h.wrk.accepts (intTag (modeIw h.wrk.mode)) (h.keys o.a o.e) = true)
    (hb : h.wrk.accepts (intTag (modeIw h.wrk.mode)) (h.keysB o readsB) = true)
    (R : Readable c h (h.keys o.a o.e ++ h.keysB o readsB) [] [nameP o.d]) :
    let q := intModeOf h.wrk.mode
    exec (.icmp cc o) s = .next (s.afterWord id c h 0 (heldU o h)
      [.p o.d.toNat (c.lanes h) (maskOf (fun l =>
        let ea := elemsOf q.w (h.laneA o l)
        let eb := elemsOf q.w (h.laneB o readsB (q.w == 64) l)
        (List.range ea.length).all (fun j => condHolds cc (q.val (ea.getD j 0)) (q.val (eb.getD j 0)))))] 0 none) := by
  intro q
  change s.crewWord (Instr.icmp cc o).wf _ = _
  rw [wf]
  refine crewWord_calm H ?_
  have keysB : h.keysB o readsB = if o.k then [] else h.keys o.b o.e := by cases hk : o.k <;> simp [Heat.keysB, readsB, hk]
  have legal : ((intModeOf h.wrk.mode).w != 64 || (pairOk o.a o.e && (o.k || pairOk o.b o.e))) = true := by
    by_cases h64 : (intModeOf h.wrk.mode).w = 64
    · obtain ⟨pa, pb⟩ := pairs h64
      simp [pa, pb]
    · simp [h64]
  have passes := check_ok R
  rw [keysB] at passes hb
  simp only [icmpCalc, ha, hb, legal, Bool.and_self, passes]
  simp only [q, Heat.laneA, Heat.laneB, keysB]
  rfl

/-- Settles O5. -/
theorem compareAndImmediateWords : Obligations.CompareAndImmediateWords := by
  unfold Obligations.CompareAndImmediateWords
  intro s id n c h H
  refine ⟨fun cc o => exec_icmp H, fun d i R => ?_, fun d i R => ?_⟩
  · change s.crewWord true _ = _
    exact crewWord_plain H (by simp [immCalc, check_ok R])
  · change s.crewWord true _ = _
    exact crewWord_plain H (by simp [immCalc, check_ok R, Regs.at_, List.head!])

-- Tags and moves (O9).

/-- Settles O9. -/
theorem tagAndMoveWords : Obligations.TagAndMoveWords := by
  unfold Obligations.TagAndMoveWords
  intro s id n c h H
  refine ⟨fun d f e wf R => ?_, fun o f wf R => ?_, fun d a e wf R => ?_, fun o R => ?_⟩
  · change s.crewWord (Instr.tag d f e).wf _ = _
    rw [wf]
    exact crewWord_plain H (by simp only [check_ok R])
  · change s.crewWord (Instr.retag o f).wf _ = _
    rw [wf]
    exact crewWord_calm H (by simp only [check_ok R])
  · change s.crewWord (Instr.bcast d a e).wf _ = _
    rw [wf]
    exact crewWord_plain H (by simp only [check_ok R])
  · change s.crewWord true _ = _
    exact crewWord_calm H (held := fun h => if o.h then [h.key o.a.toNat] else []) (by simp only [check_ok R])

-- Permutations (O11).

/-- Settles O11. -/
theorem permutationWordsComplete : Obligations.PermutationWordsComplete := by
  unfold Obligations.PermutationWordsComplete
  intro s id n c h H
  refine ⟨fun d a l wf tags R => ?_, fun o wf R => ?_⟩
  · change (_ → s.crewWord (Instr.permset d a l).wf _ = _) ∧ (_ → s.crewWord (Instr.permset d a l).wf _ = _)
    rw [wf]
    exact crewWord_completes H (r := ⟨_, flIf _ flNV, none⟩) (by simp only [tags, check_ok R] <;> rfl)
  · change s.crewWord (Instr.perm o).wf _ = _
    rw [wf]
    exact crewWord_plain H (by simp only [check_ok R, Nat.add_zero])

-- Uniform and predicate words (O12).

theorem shiftLeft_of_le (a b : DWord) : (if 64 ≤ b.toNat then 0 else a <<< b.toNat) = a <<< b.toNat := by
  split
  · rename_i hb; exact (BitVec.shiftLeft_eq_zero hb).symm
  · rfl

theorem ushiftRight_of_le (a b : DWord) : (if 64 ≤ b.toNat then 0 else a >>> b.toNat) = a >>> b.toNat := by
  split
  · rename_i hb; exact (BitVec.ushiftRight_eq_zero hb).symm
  · rfl

theorem sshiftRight_min (a b : DWord) : a.sshiftRight (min 64 b.toNat) = a.sshiftRight b.toNat := by
  ext i hi
  simp only [BitVec.getElem_sshiftRight]
  by_cases hb : b.toNat ≤ 64
  · simp [Nat.min_eq_right hb]
  · simp [Nat.min_eq_left (by omega : 64 ≤ b.toNat), show ¬(64 + i < 64) by omega, show ¬(b.toNat + i < 64) by omega]

/-- A wrapped integer is the word of that integer. -/
theorem ofNat_wrapInt (x : Int) : BitVec.ofNat 64 (wrapInt 64 x) = BitVec.ofInt 64 x := by
  apply BitVec.eq_of_toNat_eq
  have below : (x % (2 ^ 64 : Nat)).toNat < 2 ^ 64 := by omega
  rw [wrapInt, BitVec.toNat_ofNat, BitVec.toNat_ofInt, Nat.mod_eq_of_lt below]

theorem intVal_64 (sgn : Bool) (a : DWord) : intVal 64 sgn a.toNat = if sgn then a.toInt else (a.toNat : Int) := by
  have := a.isLt
  cases sgn
  · simp [intVal]; omega
  · simp only [intVal, signed, BitVec.toInt_eq_toNat_cond, if_true]
    split <;> split <;> omega

theorem exec_of_uniform {i : Instr} {d : BitVec 5} {f : (Nat → DWord) → Bool → DWord} (hi : i.uniform = some (d, f))
    (s : State) : exec i s = uniWord d f s := by
  unfold Instr.uniform at hi
  split at hi <;> cases hi
  case h_4 o =>
    change uniWord o.d (fun r g => BitVec.ofNat 64 (wrapInt 64
      (intVal 64 g (r o.a.toNat).toNat * intVal 64 g (r o.b.toNat).toNat / (2 ^ 64 : Nat)))) s = _
    congr 1
    funext r g
    cases g <;> simp [ofNat_wrapInt, intVal_64]
  case h_8 o =>
    change uniWord o.d (fun r _ => if 64 ≤ (r o.b.toNat).toNat then 0 else r o.a.toNat <<< (r o.b.toNat).toNat) s = _
    simp only [shiftLeft_of_le]
  case h_9 o =>
    change uniWord o.d (fun r _ => if 64 ≤ (r o.b.toNat).toNat then 0 else r o.a.toNat >>> (r o.b.toNat).toNat) s = _
    simp only [ushiftRight_of_le]
  case h_10 o =>
    change uniWord o.d (fun r _ => (r o.a.toNat).sshiftRight (min 64 (r o.b.toNat).toNat)) s = _
    simp only [sshiftRight_min]
  all_goals rfl

theorem exec_of_predicate {i : Instr} {d : BitVec 5} {f : (Nat → Word) → Word} (hi : i.predicate = some (d, f)) (s : State) :
    exec i s = predWord i d f s := by
  unfold Instr.predicate at hi
  split at hi <;> cases hi <;> rfl

/-- Settles O12. -/
theorem uniformWordsComplete : Obligations.UniformWordsComplete := by
  unfold Obligations.UniformWordsComplete
  intro s id n c h H
  refine ⟨fun i d f hi R => ?_, fun o R => ?_, fun cc o hd R => ?_, fun i d f hi wf R => ?_, fun o ha R => ?_⟩
  · rw [exec_of_uniform hi, uniWord, sharedWord_crew H]
    exact crewWord_plain H (by simp only [check_ok R])
  · change s.sharedWord true _ _ _ _ = _
    rw [sharedWord_crew H]
    exact crewWord_plain H (by simp only [check_ok R])
  · change s.sharedWord (predDst o.d) _ _ _ _ = _
    rw [sharedWord_crew H, hd]
    exact crewWord_plain H (by simp only [check_ok R])
  · rw [exec_of_predicate hi, predWord, sharedWord_crew H, wf]
    exact crewWord_plain H (by simp only [check_ok R])
  · change s.sharedWord (predOk o.a) _ _ _ _ = _
    rw [sharedWord_crew H, ha]
    exact crewWord_plain H (by simp only [check_ok R])

end Sys2Proof.Machine
end

section
/-! SUPPORT. What register words of the extent's shape write, register by register and lane by lane: logic words on whole
registers (O4), integer words at IW 2 (O3). -/

namespace Sys2Proof.Machine

variable {s : State} {id n : Nat} {c : Crew} {h : Heat}

-- The registers of a block.

theorem length_codesHW (x r w : Nat) : (codesHW x r w).length = r * w := by simp [codesHW, List.map_const']

@[simp] theorem length_keys (h : Heat) (x : BitVec 5) (e : BitVec 3) : (h.keys x e).length = extN e := by
  simp [Heat.keys, blockCodes, length_codesHW, extN]

/-- The codes of a legal block are distinct codes of registers (R104). -/
theorem codesHW_legal {x r w : Nat} (hb : blockHW x r w = true) :
    (codesHW x r w).Nodup ∧ ∀ k ∈ codesHW x r w, k < 32 := by
  simp only [blockHW, Bool.and_eq_true, decide_eq_true_eq, Bool.or_eq_true] at hb
  obtain ⟨hw, hr⟩ := hb
  refine ⟨List.pairwise_flatMap.2 ⟨fun i _ => nodup_map_of (fun a _ b _ hab => by omega) List.nodup_range, ?_⟩, fun k hk => ?_⟩
  · refine List.nodup_range.imp fun {i j} differ => ?_
    simp only [List.mem_map, List.mem_range]
    rintro _ ⟨a, ha, rfl⟩ _ ⟨b, hb, rfl⟩
    omega
  · simp only [codesHW, List.mem_flatMap, List.mem_range, List.mem_map] at hk
    obtain ⟨i, hi, j, hj, rfl⟩ := hk
    omega

theorem key_inj {a b : Nat} (hbase : h.base ≤ 1000) (ha : a < 32) (hb : b < 32) (hk : h.key a = h.key b) : a = b := by
  unfold Heat.key at hk
  split at hk <;> split at hk <;> omega

/-- The registers of a legal block are distinct (R101). -/
theorem keys_nodup {x : BitVec 5} {e : BitVec 3} (hbase : h.base ≤ 1000) (hb : blockOk x e = true) : (h.keys x e).Nodup := by
  obtain ⟨once, below⟩ := codesHW_legal hb
  exact nodup_map_of (fun a ha b hb => key_inj hbase (below a ha) (below b hb)) once

-- The results of a word of lookahead 0 over a block.

theorem vecKeys_vecW (ks : List Nat) (m : Word) (outs : List (List Nat)) (tag : Nat → Nat) : vecKeys (vecW ks m outs tag) = ks := by
  have : vecKeys (vecW ks m outs tag) = (List.range ks.length).map (fun i => ks.getD i 0) := by
    rw [vecKeys, vecW, List.filterMap_map]
    exact congrFun List.filterMap_eq_map _
  rw [this]
  exact List.ext_getElem (by simp) fun i _ hi => by simp [List.getElem?_eq_getElem hi]

theorem mem_vecW {ks : List Nat} (m : Word) (outs : List (List Nat)) (tag : Nat → Nat) {j : Nat} (hj : j < ks.length) :
    RegW.v (ks.getD j 0) m (outs.map (fun o => BitVec.ofNat 32 (o.getD j 0))) (tag j) ∈ vecW ks m outs tag :=
  List.mem_map.mpr ⟨j, List.mem_range.mpr hj, rfl⟩

theorem lane_map_getD (outs : List (List Nat)) (j l : Nat) :
    lane (outs.map (fun o => BitVec.ofNat 32 (o.getD j 0))) l = BitVec.ofNat 32 ((outs.getD l []).getD j 0) := by
  simp only [lane, List.getD, List.getElem?_map]
  cases outs[l]? <;> rfl

theorem perLane_getD {α : Type} (m : Word) (d x : α) (f : Nat → α) {l : Nat} (hl : l < 32) :
    (perLane m d f).getD l x = if m.getLsbD l then f l else d := by
  simp [perLane, List.getD, hl]

/-- No result whose window ends names a destination of a readable word (R116). -/
theorem Readable.soon {src dst other : List Nat} (R : Readable c h src dst other) : ∀ k ∈ dst, k ∉ vecKeys h.soon := by
  intro k hk hmem
  obtain ⟨w, hw, named⟩ := List.mem_filterMap.mp hmem
  obtain ⟨p, hp, hpw⟩ := List.mem_flatMap.mp hw
  have fresh := R.window p (List.mem_filter.mp hp).1 w hpw
  cases w with
  | v k' m x g =>
    obtain rfl : k' = k := by simpa using named
    exact fresh (List.mem_append_left _ hk)
  | s _ _ => simp at named
  | p _ _ _ => simp at named

/-- Results leave a register with what they leave it from other registers that agree on it. -/
theorem Regs.puts_congr (ws : List RegW) {r r' : Regs} {k : Nat} (hv : r.rdV k = r'.rdV k) (ht : r.rdTag k = r'.rdTag k) :
    (r.puts ws).rdV k = (r'.puts ws).rdV k ∧ (r.puts ws).rdTag k = (r'.puts ws).rdTag k := by
  induction ws generalizing r r' with
  | nil => exact ⟨hv, ht⟩
  | cons w t ih =>
    rw [Regs.puts_cons, Regs.puts_cons]
    cases w with
    | v k' m x g =>
      by_cases hk : k = k'
      · subst hk
        have hv' : Tab.get r.v k zeroLanes = Tab.get r'.v k zeroLanes := hv
        exact ih (by simp [Regs.put, Regs.rdV, hv']) (by simp [Regs.put, Regs.rdTag])
      · have get : ∀ q : Regs, (q.put (.v k' m x g)).rdV k = q.rdV k ∧ (q.put (.v k' m x g)).rdTag k = q.rdTag k := fun q => by
          simp [Regs.put, Regs.rdV, Regs.rdTag, Tab.get, Tab.find_put_other _ _ hk]
        exact ih (by rw [(get r).1, (get r').1, hv]) (by rw [(get r).2, (get r').2, ht])
    | s _ _ => exact ih hv ht
    | p _ _ _ => exact ih hv ht

/-- Results of vector registers leave the uniform registers and the predicates. -/
theorem Regs.puts_vecW (ks : List Nat) (m : Word) (outs : List (List Nat)) (tag : Nat → Nat) (r : Regs) :
    (r.puts (vecW ks m outs tag)).s = r.s ∧ (r.puts (vecW ks m outs tag)).p = r.p := by
  simp only [Regs.puts, vecW, List.foldl_map]
  constructor
  · rw [foldl_keep (g := Regs.s)]
    exact fun _ _ => rfl
  · rw [foldl_keep (g := Regs.p)]
    exact fun _ _ => rfl

/-- Results leave the uniform registers and the predicates with what they leave them from other registers that agree on them. -/
theorem Regs.puts_congrSP (ws : List RegW) {r r' : Regs} (hs : r.s = r'.s) (hp : r.p = r'.p) :
    (r.puts ws).s = (r'.puts ws).s ∧ (r.puts ws).p = (r'.puts ws).p := by
  induction ws generalizing r r' with
  | nil => exact ⟨hs, hp⟩
  | cons w t ih =>
    rw [Regs.puts_cons, Regs.puts_cons]
    cases w <;> exact ih (by simp [Regs.put, hs]) (by simp [Regs.put, hp])

/-- The registers after a word of lookahead 0 without flags that writes the block `ks` lane by lane. -/
def Heat.wroteBlock (h : Heat) (ks : List Nat) (m : Word) (outs : List (List Nat)) (tag : Nat → Nat) : Regs :=
  (h.wrote 0 (vecW ks m outs tag) 0 none).puts h.soon

section
variable (h : Heat) (ks : List Nat) (m : Word) (outs : List (List Nat)) (tag : Nat → Nat)

theorem Heat.wroteBlock_asw : (h.wroteBlock ks m outs tag).asw = h.wrk.asw := by
  rw [Heat.wroteBlock, (Regs.puts_other _ _).2.1, h.wrote_fields 0 none |>.1]
  simp

theorem Heat.wroteBlock_mode : (h.wroteBlock ks m outs tag).mode = h.wrk.mode := by
  rw [Heat.wroteBlock, (Regs.puts_other _ _).1, (h.wrote_fields 0 none).2.2.1]

theorem Heat.wroteBlock_uniform : (h.wroteBlock ks m outs tag).s = (h.wrk.puts h.soon).s ∧
    (h.wroteBlock ks m outs tag).p = (h.wrk.puts h.soon).p := by
  obtain ⟨hs, hp⟩ := Regs.puts_vecW ks m outs tag { h.wrk with lfsr := h.wrk.lfsr }
  exact Regs.puts_congrSP _ hs hp

theorem Heat.wroteBlock_other {k : Nat} (hk : k ∉ ks) : (h.wroteBlock ks m outs tag).rdV k = (h.wrk.puts h.soon).rdV k ∧
    (h.wroteBlock ks m outs tag).rdTag k = (h.wrk.puts h.soon).rdTag k := by
  obtain ⟨hv, ht⟩ := h.wrote_other (la := 0) 0 none (.inr ((vecKeys_vecW ks m outs tag).symm ▸ hk :))
  exact Regs.puts_congr _ hv ht

theorem Heat.wroteBlock_mem {src other : List Nat} (R : Readable c h src ks other) (once : ks.Nodup) {j : Nat}
    (hj : j < ks.length) : (h.wroteBlock ks m outs tag).rdTag (ks.getD j 0) = tag j ∧
      ∀ l, l < 32 → lane ((h.wroteBlock ks m outs tag).rdV (ks.getD j 0)) l =
        if m.getLsbD l then BitVec.ofNat 32 ((outs.getD l []).getD j 0) else lane (h.wrk.rdV (ks.getD j 0)) l := by
  have mem : ks.getD j 0 ∈ ks := by simp [hj]
  obtain ⟨hv, ht⟩ := h.wrote_mem 0 none (mem_vecW m outs tag hj) ((vecKeys_vecW ks m outs tag).symm ▸ once :)
  obtain ⟨hv', ht'⟩ := Regs.rdV_puts_other _ (h.wrote 0 (vecW ks m outs tag) 0 none) (R.soon _ mem)
  refine ⟨ht'.trans ht, fun l hl => ?_⟩
  rw [Heat.wroteBlock, hv', hv, lane_mergeLanes _ _ _ hl, lane_map_getD]
end

-- Functions of register words.

/-- A function of register numbers computes one of register words, whatever the operands that are not read. -/
def Computes (rd : Reads) (op : Nat → Nat → Nat → Nat) (f : Word → Word → Word → Word) : Prop :=
  ∀ (a b d : Word) (x y : Nat), op a.toNat (if rd.b then b.toNat else x) (if rd.d then d.toNat else y) = (f a b d).toNat

/-- The words of A, B and D at position `j` of the block in lane `l`. -/
def Heat.wordA (h : Heat) (o : OpU) (j l : Nat) : Word := lane (h.wrk.rdV ((h.keys o.a o.e).getD j 0)) l
def Heat.wordB (h : Heat) (o : OpU) (j l : Nat) : Word :=
  if o.k then (h.wrk.rdS o.b.toNat).setWidth 32 else lane (h.wrk.rdV ((h.keys o.b o.e).getD j 0)) l
def Heat.wordD (h : Heat) (o : OpU) (j l : Nat) : Word := lane (h.wrk.rdV ((h.keys o.d o.e).getD j 0)) l

section
variable {o : OpU} {rd : Reads} {j l : Nat}

theorem at_getD (r : Regs) {ks : List Nat} (l : Nat) (hj : j < ks.length) :
    (r.at_ ks l).getD j 0 = (lane (r.rdV (ks.getD j 0)) l).toNat := by
  simp [Regs.at_, List.getD, hj]

@[simp] theorem length_laneA (h : Heat) (o : OpU) (l : Nat) : (h.laneA o l).length = extN o.e := by
  simp [Heat.laneA, Regs.at_]

theorem laneA_getD (hj : j < extN o.e) : (h.laneA o l).getD j 0 = (h.wordA o j l).toNat := at_getD _ _ (by simpa using hj)

theorem laneB_getD (hb : rd.b = true) (hj : j < extN o.e) : (h.laneB o rd false l).getD j 0 = (h.wordB o j l).toNat := by
  simp only [Heat.laneB, hb, if_true, Regs.opB, Heat.wordB, Heat.keysB, Bool.true_and]
  cases hk : o.k
  · exact at_getD _ _ (by simpa using hj)
  · simp [uniformRegs, List.getD, hj]

theorem laneD_getD (hd : rd.d = true) (hj : j < extN o.e) : (h.laneD o rd l).getD j 0 = (h.wordD o j l).toNat := by
  simp only [Heat.laneD, hd, if_true]
  exact at_getD _ _ (by simpa using hj)

/-- What a function of register words gives at one position of a block. -/
theorem Computes.at_lane {op : Nat → Nat → Nat → Nat} {f : Word → Word → Word → Word} (hc : Computes rd op f)
    (hj : j < extN o.e) : op ((h.laneA o l).getD j 0) ((h.laneB o rd false l).getD j 0) ((h.laneD o rd l).getD j 0) =
      (f (h.wordA o j l) (h.wordB o j l) (h.wordD o j l)).toNat := by
  rw [← hc (h.wordA o j l) (h.wordB o j l) (h.wordD o j l) ((h.laneB o rd false l).getD j 0) ((h.laneD o rd l).getD j 0),
    laneA_getD hj]
  congr 1
  · split
    · rename_i hb; exact laneB_getD hb hj
    · rfl
  · split
    · rename_i hd; exact laneD_getD hd hj
    · rfl
end

-- Logic words (O4).

theorem notWord_toNat (a : Word) : notWord a.toNat = (~~~a).toNat := by simp [notWord]

/-- What `exec` runs for a logic word, and that it computes the word's function. -/
theorem exec_of_logic {i : Instr} {o : OpU} {rd : Reads} {f : Word → Word → Word → Word} (hi : i.logic = some (o, rd, f)) :
    ∃ wide op, (∀ s, exec i s = s.crewWord i.wf (regEff 0 (heldU o) (logicCalc wide o rd op))) ∧ Computes rd op f ∧
      (wide = true → ∀ v, i ≠ .mov v) := by
  unfold Instr.logic at hi
  split at hi <;> cases hi
  case h_7.refl => exact ⟨false, _, fun _ => rfl, fun _ _ _ _ _ => rfl, nofun⟩
  all_goals refine ⟨true, _, fun _ => rfl, fun a b d x y => ?_, nofun⟩
  all_goals simp [readsB, readsBD, notWord_toNat]

theorem Instr.blockOk_of_logic {i : Instr} {o : OpU} {rd : Reads} {f : Word → Word → Word → Word}
    (hi : i.logic = some (o, rd, f)) (wf : i.wf = true) : blockOk o.d o.e = true := by
  unfold Instr.logic at hi
  split at hi <;> cases hi <;> simp_all [Instr.wf, OpU.wf, OpV.wf, vAsU]

/-- Settles O4: the word writes its block with what its function gives in every lane. -/
theorem logicWordsComplete : Obligations.LogicWordsComplete := by
  unfold Obligations.LogicWordsComplete
  intro s id n c h i o rd f hi wf H hbase pairs R
  obtain ⟨wide, op, hexec, hc, notMov⟩ := exec_of_logic hi
  have legal : pairsFor (wide && (intModeOf h.wrk.mode).w == 64) o rd = true := by
    cases wide
    · rfl
    · exact pairs.resolve_left fun ⟨v, hv⟩ => notMov rfl v hv
  obtain ⟨c', h', ht, hh, hw, -⟩ := s.afterWord_eq id c h 0 (heldU o h) _ 0 none
  refine ⟨_, c', h', (hexec s).trans (wf ▸ crewWord_calm H (logicCalc_ok legal R)), ht, hh, ?_⟩
  rw [hw]
  refine ⟨h.wroteBlock_asw _ _ _ _, fun k hk => h.wroteBlock_other _ _ _ _ hk, fun j hj l hl => ?_⟩
  · obtain ⟨htag, hlane⟩ := h.wroteBlock_mem _ _ _ _ R (keys_nodup hbase (Instr.blockOk_of_logic hi wf)) (by simpa using hj)
    refine ⟨htag, (hlane l hl).trans ?_⟩
    rw [perLane_getD _ _ _ _ hl]
    by_cases hm : (c.lanes h).getLsbD l = true
    · have value := hc.at_lane (h := h) (l := l) hj
      simp only [hm, if_true, List.getD, List.getElem?_map, length_keys, List.getElem?_range hj, Option.map_some,
        Option.getD_some] at value ⊢
      rw [value, BitVec.ofNat_toNat, BitVec.setWidth_eq]
      rfl
    · simp only [hm, Bool.false_eq_true, if_false]

-- Integer words at IW 2 (O3).

/-- Elements of 32 bits are whole registers. -/
theorem elemsOf_32 {rs : List Nat} (hr : ∀ r ∈ rs, r < 2 ^ 32) : elemsOf 32 rs = rs := by
  have : ∀ r ∈ rs, (List.range (32 / 32)).map (fun i => bits r (32 * i) 32) = [r] := fun r hm => by
    simpa [bits] using hr r hm
  rw [elemsOf, if_neg (by decide), flatMap_ext this, List.flatMap_singleton' rs]

theorem regsOfElems_32 {es : List Nat} (he : ∀ e ∈ es, e < 2 ^ 32) : regsOfElems 32 es = es := by
  refine List.ext_getElem (by simp [regsOfElems, ceilDiv]) fun i h₁ h₂ => ?_
  have : es[i] < 2 ^ 32 := he _ (List.getElem_mem h₂)
  simpa [regsOfElems, List.getD, List.getElem?_eq_getElem h₂] using this

theorem at_lt (r : Regs) (ks : List Nat) (l : Nat) : ∀ x ∈ r.at_ ks l, x < 2 ^ 32 := by
  intro x hx
  obtain ⟨k, -, rfl⟩ := List.mem_map.mp hx
  exact (lane (r.rdV k) l).isLt

theorem laneB_lt (h : Heat) (o : OpU) (rd : Reads) (l : Nat) : ∀ x ∈ h.laneB o rd false l, x < 2 ^ 32 := by
  intro x hx
  simp only [Heat.laneB, Regs.opB, uniformRegs, Bool.false_eq_true, if_false] at hx
  split at hx
  · split at hx
    · obtain ⟨_, -, rfl⟩ := List.mem_map.mp hx
      exact Nat.mod_lt _ (by decide)
    · exact at_lt _ _ _ x hx
  · cases hx

theorem laneD_lt (h : Heat) (o : OpU) (rd : Reads) (l : Nat) : ∀ x ∈ h.laneD o rd l, x < 2 ^ 32 := by
  intro x hx
  simp only [Heat.laneD] at hx
  split at hx
  · exact at_lt _ _ _ x hx
  · cases hx

theorem orFlags_zero {fs : List Flags} (hf : ∀ f ∈ fs, f = 0) : orFlags fs = 0 := by
  induction fs with
  | nil => rfl
  | cons f t ih =>
    obtain ⟨rfl, ht⟩ := List.forall_mem_cons.mp hf
    simpa [orFlags] using ih ht

/-- An element operation computes a function of 32-bit words, and sets no flag. -/
def Computes32 (rd : Reads) (op : ElemOp) (f : Bool → Word → Word → Word → Word) : Prop :=
  ∀ g, Computes rd (fun a b d => (op ⟨32, g, false⟩ a b d).1) (f g) ∧ ∀ a b d, (op ⟨32, g, false⟩ a b d).2 = 0

/-- One lane of an integer word at IW 2. -/
theorem Computes32.eachElem {rd : Reads} {op : ElemOp} {f : Bool → Word → Word → Word → Word} (hc : Computes32 rd op f)
    (h : Heat) (o : OpU) (g : Bool) (l : Nat) :
    eachElem op ⟨32, g, false⟩ (h.laneA o l) (h.laneB o rd false l) (h.laneD o rd l) =
      ((List.range (extN o.e)).map (fun j => (f g (h.wordA o j l) (h.wordB o j l) (h.wordD o j l)).toNat), 0) := by
  have value : ∀ j ∈ List.range (extN o.e), (op ⟨32, g, false⟩ ((h.laneA o l).getD j 0) ((h.laneB o rd false l).getD j 0)
      ((h.laneD o rd l).getD j 0)).1 = (f g (h.wordA o j l) (h.wordB o j l) (h.wordD o j l)).toNat :=
    fun j hj => (hc g).1.at_lane (List.mem_range.mp hj)
  have regsA : elemsOf 32 (h.laneA o l) = h.laneA o l := elemsOf_32 (at_lt h.wrk (h.keys o.a o.e) l)
  simp only [Machine.eachElem, regsA, elemsOf_32 (laneB_lt h o rd l), elemsOf_32 (laneD_lt h o rd l), length_laneA, List.map_map]
  refine Prod.ext ?_ (orFlags_zero ?_)
  · simp only [Function.comp_def]
    rw [List.map_congr_left value, regsOfElems_32]
    intro e he
    obtain ⟨j, -, rfl⟩ := List.mem_map.mp he
    exact BitVec.isLt _
  · intro fl hfl
    obtain ⟨j, -, rfl⟩ := List.mem_map.mp hfl
    exact (hc g).2 _ _ _

/-- The integer that a word stands for. -/
theorem val_32 (g : Bool) (a : Word) : IntMode.val ⟨32, g, false⟩ a.toNat = if g then a.toInt else (a.toNat : Int) := by
  have := a.isLt
  cases g
  · simp [IntMode.val, intVal]; omega
  · simp only [IntMode.val, intVal, signed, BitVec.toInt_eq_toNat_cond, if_true]
    split <;> split <;> omega

/-- The word of an integer. -/
theorem wrapInt_32 (x : Int) : wrapInt 32 x = (BitVec.ofInt 32 x).toNat := by
  simp [wrapInt, BitVec.toNat_ofInt]

theorem ofInt_val (g : Bool) (a : Word) : BitVec.ofInt 32 (IntMode.val ⟨32, g, false⟩ a.toNat) = a := by
  rw [val_32]
  cases g <;> simp

/-- Table 9-4's results without saturation: the integer's word. -/
theorem res_32 (g : Bool) (x : Int) : IntMode.res ⟨32, g, false⟩ x = ((BitVec.ofInt 32 x).toNat, 0) := by
  simp [IntMode.res, intResult, wrapInt_32]

theorem wrap_32 (g : Bool) (x : Int) : IntMode.wrap ⟨32, g, false⟩ x = ((BitVec.ofInt 32 x).toNat, 0) := by
  simp [IntMode.wrap, wrapInt_32]

/-- An operation whose result is the word of an integer computes `f` when that integer's word does. -/
theorem computes32_of_int {rd : Reads} {op : ElemOp} {f : Bool → Word → Word → Word → Word} (v : Bool → Nat → Nat → Nat → Int)
    (hop : ∀ g a b d, op ⟨32, g, false⟩ a b d = ((BitVec.ofInt 32 (v g a b d)).toNat, 0))
    (hv : ∀ g (a b d : Word) x y, BitVec.ofInt 32 (v g a.toNat (if rd.b then b.toNat else x) (if rd.d then d.toNat else y)) = f g a b d) :
    Computes32 rd op f :=
  fun g => ⟨fun a b d x y => by simp only [hop, hv], fun a b d => by simp only [hop]⟩

theorem min_val (g : Bool) (a b : Word) : BitVec.ofInt 32 (min (if g then a.toInt else (a.toNat : Int)) (if g then b.toInt else b.toNat)) =
    if (if g then a.slt b else a.ult b) then a else b := by
  cases g
  · by_cases hab : a.toNat < b.toNat
    · simp [Int.min_eq_left (show (a.toNat : Int) ≤ b.toNat by omega), BitVec.ult, hab]
    · simp [Int.min_eq_right (show (b.toNat : Int) ≤ a.toNat by omega), BitVec.ult, hab]
  · by_cases hab : a.toInt < b.toInt
    · simp [Int.min_eq_left (Int.le_of_lt hab), BitVec.slt, hab]
    · simp [Int.min_eq_right (Int.not_lt.mp hab), BitVec.slt, hab]

theorem max_val (g : Bool) (a b : Word) : BitVec.ofInt 32 (max (if g then a.toInt else (a.toNat : Int)) (if g then b.toInt else b.toNat)) =
    if (if g then a.slt b else a.ult b) then b else a := by
  cases g
  · by_cases hab : a.toNat < b.toNat
    · simp [Int.max_eq_right (show (a.toNat : Int) ≤ b.toNat by omega), BitVec.ult, hab]
    · simp [Int.max_eq_left (show (b.toNat : Int) ≤ a.toNat by omega), BitVec.ult, hab]
  · by_cases hab : a.toInt < b.toInt
    · simp [Int.max_eq_right (Int.le_of_lt hab), BitVec.slt, hab]
    · simp [Int.max_eq_left (Int.not_lt.mp hab), BitVec.slt, hab]

theorem extract_ofInt (z : Int) : (BitVec.ofInt 64 z).extractLsb' 32 32 = BitVec.ofInt 32 (z / (2 ^ 32 : Nat)) := by
  apply BitVec.eq_of_toNat_eq
  simp only [BitVec.extractLsb'_toNat, BitVec.toNat_ofInt, Nat.shiftRight_eq_div_pow]
  omega

theorem mulh_val (g : Bool) (a b : Word) :
    BitVec.ofInt 32 ((if g then a.toInt else (a.toNat : Int)) * (if g then b.toInt else b.toNat) / (2 ^ 32 : Nat)) =
      (if g then a.signExtend 64 * b.signExtend 64 else a.setWidth 64 * b.setWidth 64 : BitVec 64).extractLsb' 32 32 := by
  rw [← extract_ofInt, BitVec.ofInt_mul]
  cases g
  · simp only [Bool.false_eq_true, if_false, BitVec.ofInt_natCast, BitVec.ofNat_toNat]
  · rfl

theorem ediv_pow_min (x : Int) (n : Nat) (hl : -2 ^ 31 ≤ x) (hu : x < 2 ^ 31) : x / (2 ^ min n 32 : Nat) = x / (2 ^ n : Nat) := by
  by_cases hn : n ≤ 32
  · rw [Nat.min_eq_left hn]
  · have big : (2 ^ 32 : Nat) ≤ 2 ^ n := Nat.pow_le_pow_right (by decide) (by omega)
    rw [Nat.min_eq_right (by omega)]
    rcases Int.lt_or_le x 0 with neg | pos
    · rw [Int.ediv_eq_neg_one_of_neg_of_le neg (by omega), Int.ediv_eq_neg_one_of_neg_of_le neg (by omega)]
    · rw [Int.ediv_eq_zero_of_lt pos (by omega), Int.ediv_eq_zero_of_lt pos (by omega)]

theorem sar_val (a b : Word) : BitVec.ofInt 32 (a.toInt / (2 ^ min b.toNat 32 : Nat)) = a.sshiftRight b.toNat := by
  rw [ediv_pow_min _ _ (BitVec.le_toInt a) (BitVec.toInt_lt (x := a)), BitVec.sshiftRight, Int.shiftRight_eq_div_pow]

theorem rot_val (a : Word) {n : Nat} (hn : n < 32) :
    (a.toNat * 2 ^ n + a.toNat / 2 ^ (32 - n)) % 2 ^ 32 = (a.rotateLeft n).toNat := by
  have split32 : 2 ^ (32 - n) * 2 ^ n = 2 ^ 32 := by rw [← Nat.pow_add]; congr 1; omega
  have low : a.toNat / 2 ^ (32 - n) < 2 ^ n := Nat.div_lt_of_lt_mul (split32 ▸ a.isLt)
  have high : a.toNat * 2 ^ n % 2 ^ 32 = a.toNat % 2 ^ (32 - n) * 2 ^ n := by rw [← split32, Nat.mul_mod_mul_right]
  have below : a.toNat % 2 ^ (32 - n) * 2 ^ n + a.toNat / 2 ^ (32 - n) < 2 ^ 32 := by
    have := Nat.mod_lt a.toNat (Nat.two_pow_pos (32 - n))
    calc _ < (a.toNat % 2 ^ (32 - n) + 1) * 2 ^ n := by rw [Nat.add_mul, Nat.one_mul]; omega
      _ ≤ 2 ^ (32 - n) * 2 ^ n := Nat.mul_le_mul_right _ this
      _ = 2 ^ 32 := split32
  rw [BitVec.toNat_rotateLeft, Nat.mod_eq_of_lt hn, Nat.shiftLeft_eq, Nat.shiftRight_eq_div_pow, high,
    ← Nat.shiftLeft_eq (a.toNat % _), ← Nat.shiftLeft_add_eq_or_of_lt low, Nat.shiftLeft_eq, ← Nat.mod_add_mod, high,
    Nat.mod_eq_of_lt below]

theorem shl_val (a b : Word) : (if 32 ≤ b.toNat then 0 else a.toNat * 2 ^ b.toNat % 2 ^ 32) = (a <<< b.toNat).toNat := by
  split
  · rename_i hb; rw [BitVec.shiftLeft_eq_zero hb]; rfl
  · rw [BitVec.toNat_shiftLeft, Nat.shiftLeft_eq]

theorem shr_val (a b : Word) : (if 32 ≤ b.toNat then 0 else a.toNat / 2 ^ b.toNat) = (a >>> b.toNat).toNat := by
  split
  · rename_i hb; rw [BitVec.ushiftRight_eq_zero hb]; rfl
  · rw [BitVec.toNat_ushiftRight, Nat.shiftRight_eq_div_pow]

theorem perLane_fst (m : Word) (f : Nat → List Nat) :
    (perLane m ([], (0 : Flags)) (fun l => (f l, 0))).map Prod.fst = perLane m [] f := by
  simp only [perLane, List.map_map, Function.comp_def]
  exact List.map_congr_left fun l _ => by split <;> rfl

theorem perLane_flags (m : Word) (f : Nat → List Nat) :
    orFlags ((perLane m ([], (0 : Flags)) (fun l => (f l, 0))).map Prod.snd) = 0 := by
  refine orFlags_zero fun fl hfl => ?_
  simp only [perLane, List.map_map, Function.comp_def, List.mem_map] at hfl
  obtain ⟨l, -, rfl⟩ := hfl
  split <;> rfl

/-- What `exec` runs for a word at 32 bits, and that it computes the word's function. -/
theorem exec_of_word32 {i : Instr} {o : OpU} {rd : Reads} {f : Bool → Word → Word → Word → Word}
    (hi : i.word32 = some (o, rd, f)) : ∃ op, i.intLane = some (o, rd, eachElem op) ∧ Computes32 rd op f := by
  unfold Instr.word32 at hi
  split at hi <;> cases hi <;> refine ⟨_, rfl, ?_⟩
  case h_1.refl =>
    exact computes32_of_int _ (fun _ _ _ _ => res_32 _ _) fun g a b d x y => by
      simp only [readsB, if_true, BitVec.ofInt_add, ofInt_val]
  case h_2.refl =>
    exact computes32_of_int _ (fun _ _ _ _ => res_32 _ _) fun g a b d x y => by
      simp only [readsB, if_true, Int.sub_eq_add_neg, BitVec.ofInt_add, BitVec.ofInt_neg, ofInt_val, BitVec.sub_eq_add_neg]
  case h_3.refl =>
    exact computes32_of_int _ (fun _ _ _ _ => wrap_32 _ _) fun g a b d x y => by
      simp only [val_32, readsB, if_true, min_val]
  case h_4.refl =>
    exact computes32_of_int _ (fun _ _ _ _ => wrap_32 _ _) fun g a b d x y => by
      simp only [val_32, readsB, if_true, max_val]
  case h_5.refl =>
    exact computes32_of_int _ (fun _ _ _ _ => res_32 _ _) fun g a b d x y => by
      simp only [BitVec.ofInt_neg, ofInt_val]
  case h_6.refl =>
    exact computes32_of_int _ (fun _ _ _ _ => res_32 _ _) fun g a b d x y => by
      simp only [readsB, if_true, BitVec.ofInt_add, ofInt_val, BitVec.ofInt_natCast, BitVec.ofNat_mul, BitVec.ofNat_toNat,
        BitVec.setWidth_eq, BitVec.mul_comm b]
      rfl
  case h_7.refl =>
    exact computes32_of_int _ (fun _ _ _ _ => res_32 _ _) fun g a b d x y => by
      simp only [readsB, if_true, BitVec.ofInt_mul, ofInt_val]
  case h_8.refl =>
    exact computes32_of_int _ (fun _ _ _ _ => wrap_32 _ _) fun g a b d x y => by
      simp only [val_32, readsB, if_true, mulh_val]
  case h_9.refl =>
    exact computes32_of_int _ (fun _ _ _ _ => res_32 _ _) fun g a b d x y => by
      simp only [readsBD, if_true, BitVec.ofInt_add, BitVec.ofInt_mul, ofInt_val]
  case h_10.refl => exact fun g => ⟨fun a b d x y => shl_val a b, fun _ _ _ => rfl⟩
  case h_11.refl => exact fun g => ⟨fun a b d x y => shr_val a b, fun _ _ _ => rfl⟩
  case h_12.refl =>
    refine computes32_of_int _ (fun _ _ _ _ => wrap_32 _ _) fun g a b d x y => ?_
    have value : signed 32 a.toNat = a.toInt := val_32 true a
    simp only [readsB, if_true, value, sar_val]
  case h_13.refl => exact fun g => ⟨fun a b d x y => rot_val a (Nat.mod_lt _ (Nat.succ_pos 31)), fun _ _ _ => rfl⟩

theorem Instr.blockOk_of_word32 {i : Instr} {o : OpU} {rd : Reads} {f : Bool → Word → Word → Word → Word}
    (hi : i.word32 = some (o, rd, f)) (wf : i.wf = true) : blockOk o.d o.e = true := by
  unfold Instr.word32 at hi
  split at hi <;> cases hi <;> simp_all [Instr.wf, OpU.wf, OpV.wf, vAsU]

/-- Settles O3: elements of 32 bits are whole registers, and each operation computes its function of them. -/
theorem integerWordsAt32Bits : Obligations.IntegerWordsAt32Bits := by
  unfold Obligations.IntegerWordsAt32Bits
  intro s id n c h i o rd f hi wf H hbase hiw hsat ha hb hd R
  obtain ⟨op, hlane, hc⟩ := exec_of_word32 hi
  have hq : intModeOf h.wrk.mode = ⟨32, modeSgn h.wrk.mode, false⟩ := by simp [intModeOf, hiw, hsat, iwBits]
  have htag : intTag (modeIw h.wrk.mode) = fmtINT32 := by rw [hiw]; rfl
  have ok := intLanes_ok (g := eachElem op) (by rw [hq]; rfl) (htag ▸ ha) (htag ▸ hb) (htag ▸ hd) R
  simp only [hq, htag, show ((32 : Nat) == 64) = false from rfl, hc.eachElem, perLane_fst, perLane_flags] at ok
  obtain ⟨c', h', ht, hh, hw, -⟩ := s.afterWord_eq id c h 0 (heldU o h) _ 0 none
  refine ⟨_, c', h', (exec_of_intLane hlane s).trans (wf ▸ crewWord_calm H ok), ht ▸ State.crew_setCrew_same s id c', hh, ?_⟩
  rw [hw]
  refine ⟨h.wroteBlock_asw _ _ _ _, fun j hj l hl => ?_⟩
  obtain ⟨tag, value⟩ := h.wroteBlock_mem _ _ _ _ R (keys_nodup hbase (Instr.blockOk_of_word32 hi wf)) (by simpa using hj)
  refine ⟨tag, (value l hl).trans ?_⟩
  rw [perLane_getD _ _ _ _ hl]
  by_cases hm : (c.lanes h).getLsbD l = true
  · simp [hj, hm, Heat.wordA, Heat.wordB, Heat.wordD]
  · simp only [hm, Bool.false_eq_true, if_false]

end Sys2Proof.Machine
end

section
/-! SUPPORT. Memory words: what `exec` runs for loads, stores and uniform accesses, and what they leave (O13 to O17). -/

namespace Sys2Proof.Machine

variable {s s1 : State} {id n : Nat} {c : Crew} {h : Heat}

-- Shared steps of memory words.

theorem laneCheck_ok {src dst other : List Nat} (R : Readable c h src dst other) :
    c.laneCheck h src dst other true true = .ok () := by
  simp [Crew.laneCheck, check_ok R]

/-- A load's results enter the heat where no error of the data stops it (R129). -/
theorem emitLoad_seen (s : State) (id : Nat) (ws : List RegW) {la : Nat} {g : Got} (hg : la = 0 → g.bad = none) :
    s.emitLoad id ws la g = .ok (s.emitted id (g.seen ws) la g) := by
  cases hb : g.bad with
  | none => simp [emitLoad_good _ _ _ _ _ hb, Got.seen, hb]
  | some m =>
    have : la ≠ 0 := fun h => by simp [hg h] at hb
    simp only [State.emitLoad, hb, this, if_false, Got.seen, Option.isSome_some, if_true]
    rfl

theorem checkLanes_pend {w : Who} {x : Site} {f : Acc → Option Fail} {lv : Bool} {as : List (Nat × Acc)}
    {r : Except Stop (List (Nat × List Hit))} (h : s.checkLanes w x f lv as = (s1, r)) (id : Nat) :
    s1.crewPend id = s.crewPend id := by
  have := checkLanes_crews s w x f lv as
  rw [h] at this
  exact crewPend_of_crews this id

/-- The words of a read before its results enter the heat keep the windows calm. -/
theorem read_calm (hc : s1.calm id) (w : Who) (cache : Nat) (ls : List (Nat × List Hit)) (mode : BitVec 40) (ho : Option Heat) :
    (((s1.sealedFor id ls).readLanes w cache ho ls).1.loadAcquire id mode).calm id := by
  refine calm_of_pend ?_ hc
  rw [crewPend_of_crews (loadAcquire_crews _ _ _), readLanes_pend, sealedFor_pend]

theorem InHeat.checked_calm (H : InHeat s id n c h) {w : Who} {x : Site} {f : Acc → Option Fail} {lv : Bool}
    {as : List (Nat × Acc)} {r : Except Stop (List (Nat × List Hit))}
    (hk : (s.setCrew id c).checkLanes w x f lv as = (s1, r)) : s1.calm id :=
  calm_of_pend (checkLanes_pend hk id) H.calm

-- Loads (O13).

theorem exec_of_load {i : Instr} {m : MemOp} (hi : i.load = some m) (s : State) : exec i s = s.crewWord i.wf (loadEff m) := by
  unfold Instr.load at hi
  split at hi <;> cases hi <;> rfl

/-- Settles O13: every check passes, and the results enter the heat at the end. -/
theorem loadWordsComplete : Obligations.LoadWordsComplete := by
  unfold Obligations.LoadWordsComplete
  intro s s1 id n c h i m ls hi wf H hord hform R mode w hk s2 r s3 g hg
  rw [exec_of_load hi, wf]
  have hla : m.l.toNat = 0 → g.bad = none := fun hl => hg (by simpa using (BitVec.toNat_inj (y := 0)).mp hl)
  refine crewWord_next H (s' := s3.emitted id _ m.l.toNat g) ?_ (admits_zero h)
    (emitted_calm _ _ _ (read_calm (H.checked_calm hk) w _ ls mode _))
  have emits := emitLoad_seen s3 id (vecW (h.keys m.d m.e) (c.lanes h) (loadOuts m mode r.2)
    (fun _ => formTag m.f (modeFmt mode))) hla
  have checked : (s.setCrew id c).checkLanes ((s.setCrew id c).whoCrew id c) ((s.setCrew id c).siteCrew id c) c.com.watchFail true
    (m.accs c h (formBytes m.f (modeFmt h.wrk.mode) (extN m.e)) aRead) = (s1, .ok ls) := hk
  simp only [loadEff, hord, hform, Bool.and_self, laneCheck_ok R, checked]
  split
  · rename_i st stops
    cases stops.symm.trans emits
  · rename_i t done
    cases done.symm.trans emits
    rfl

-- Stores (O15, O16).

theorem exec_of_store {i : Instr} {m : MemOp} (hi : i.store = some m) (s : State) : exec i s = s.crewWord i.wf (storeEff m) := by
  unfold Instr.store at hi
  split at hi <;> cases hi <;> rfl

/-- The cells of a store's lanes. -/
def storedCells (h : Heat) (m : MemOp) (ls : List (Nat × List Hit)) : List MemCell :=
  ls.flatMap (fun l => cellsOf l.2 (storeImage m.f (modeFmt h.wrk.mode) (h.wrk.at_ (h.keys m.d m.e) l.1)
    (formBytes m.f (modeFmt h.wrk.mode) (extN m.e))))

theorem exec_store {i : Instr} {m : MemOp} {ls : List (Nat × List Hit)} (hi : i.store = some m) (wf : i.wf = true)
    (H : InHeat s id n c h) (hord : storeOrd h.wrk.mode = true) (hform : formOk m.f (modeFmt h.wrk.mode) m.d m.e = true)
    (R : Readable c h (h.baseKeys m.k m.a ++ h.keys m.d m.e) [] [])
    (hgrist : gristStop h.wrk (h.keys m.d m.e) (m.accs c h (formBytes m.f (modeFmt h.wrk.mode) (extN m.e)) aWrite) = none)
    (hk : (s.setCrew id c).checkLanes (s.whoCrew id c) (s.siteCrew id c) c.com.watchFail true
      (m.accs c h (formBytes m.f (modeFmt h.wrk.mode) (extN m.e)) aWrite) = (s1, .ok ls)) :
    exec i s = .next ((s1.storeCells id h (!m.x && (modeStore h.wrk.mode == 2 || decide (5 ≤ modeScope h.wrk.mode)))
      (storedCells h m ls) h.wrk.mode).nextWord id 0) := by
  rw [exec_of_store hi, wf]
  refine crewWord_next H ?_ (admits_zero h) (calm_of_pend (storeCells_pend s1 id h _ _ _ id) (H.checked_calm hk))
  have checked : (s.setCrew id c).checkLanes ((s.setCrew id c).whoCrew id c) ((s.setCrew id c).siteCrew id c) c.com.watchFail true
    (m.accs c h (formBytes m.f (modeFmt h.wrk.mode) (extN m.e)) aWrite) = (s1, .ok ls) := hk
  simp only [storeEff, hord, hform, Bool.and_self, laneCheck_ok R, hgrist, checked, storedCells]

/-- Settles O15. -/
theorem storeWordsComplete : Obligations.StoreWordsComplete := by
  unfold Obligations.StoreWordsComplete
  intro s s1 id n c h i m ls hi wf H hord hform R mode size hgrist hk
  exact exec_store hi wf H hord hform R hgrist hk

theorem setCrew_crew {s : State} {id : Nat} {c : Crew} (hc : s.crew id = some c) (k : Nat) : (s.setCrew id c).crew k = s.crew k := by
  by_cases hk : k = id
  · rw [hk, State.crew_setCrew_same, hc]
  · exact State.crew_setCrew_other s c hk

theorem checkLanes_crew {w : Who} {x : Site} {f : Acc → Option Fail} {lv : Bool} {as : List (Nat × Acc)}
    {r : Except Stop (List (Nat × List Hit))} (h : s.checkLanes w x f lv as = (s1, r)) (k : Nat) : s1.crew k = s.crew k := by
  have := checkLanes_crews s w x f lv as
  rw [h] at this
  exact congrArg (Tab.find · k) this

/-- A crew at its next word: what the word left of its heat, aged. -/
theorem nextWord_of_heat (hc : s.crew id = some c) (hh : c.heat = some h) : ∃ c',
    s.nextWord id 0 = s.setCrew id c' ∧ c'.com = c.com ∧ c'.heat = some { (h.flag 0).age with off := h.off + 1 } := by
  refine ⟨_, State.updCrew_of hc _, ?_, ?_⟩
  · simp [hh, Crew.advance]
  · simp [hh, Crew.advance, Heat.flag]

@[simp] theorem Heat.flag_zero (h : Heat) : h.flag 0 = h := by simp [Heat.flag]

/-- A store that neither leaves the package nor overflows the buffer waits in it (R48). -/
theorem storeCells_buffer (s : State) (id : Nat) (h : Heat) {cells : List MemCell} (mode : BitVec 40)
    (hin : ∀ x ∈ cells, ∀ k3 d, x.sp ≠ .ext k3 d) (hne : cells ≠ []) (hfit : bufLines h.buf cells ≤ 32) :
    s.storeCells id h false cells mode = s.buffer id (.store cells mode) := by
  have empty : cells.isEmpty = false := by simpa using hne
  unfold State.storeCells
  rw [if_neg, empty, if_neg (by simp), if_neg (Nat.not_lt.mpr hfit)]
  rw [Bool.false_or, List.any_eq_true]
  rintro ⟨x, hx, leaves⟩
  split at leaves
  · exact hin x hx _ _ ‹_›
  · cases leaves

theorem buffer_of_heat (hc : s.crew id = some c) (hh : c.heat = some h) (o : BufOp) :
    s.buffer id o = s.setCrew id { c with heat := some { h with buf := h.buf ++ [o] } } := by
  rw [State.buffer, State.updCrew_of hc, hh, Option.map_some]

/-- Settles O16: the store is the last operation of the buffer, and only the windows age. -/
theorem storesWaitInTheHeat : Obligations.StoresWaitInTheHeat := by
  unfold Obligations.StoresWaitInTheHeat
  intro s s1 id n c h i m ls hi wf H hord hform R mode size hgrist hk cells stays hin hne hfit
  have later : (!m.x && (modeStore mode == 2 || decide (5 ≤ modeScope mode))) = false := by
    rcases stays with hx | ⟨hst, hsc⟩
    · simp [hx]
    · simp [hst, Nat.not_le.mpr hsc]
  have crew1 : s1.crew id = some c := by rw [checkLanes_crew hk, State.crew_setCrew_same]
  have run := exec_store hi wf H hord hform R hgrist hk
  rw [later, storeCells_buffer s1 id h _ (cells := storedCells h m ls) hin hne hfit, buffer_of_heat crew1 H.heat] at run
  obtain ⟨c', hnext, hcom, hheat⟩ := nextWord_of_heat (State.crew_setCrew_same s1 id
    { c with heat := some { h with buf := h.buf ++ [.store (storedCells h m ls) h.wrk.mode] } }) rfl
  rw [hnext, State.setCrew_setCrew] at run
  refine ⟨_, c', _, run, State.crew_setCrew_same _ _ _, hheat, rfl, fun k hk' => ?_, ?_, ?_, ?_, hcom⟩
  · rw [State.crew_setCrew_other _ _ hk', checkLanes_crew hk, State.crew_setCrew_other _ _ hk']
  all_goals rw [Heat.flag_zero, Heat.age_eq] <;> rfl

-- Uniform accesses (O17).

/-- LDC's pages are of storage that it may name, whatever its address. -/
theorem ldc_storage {mode : BitVec 40} (hs : modeStore mode = 1 ∨ modeStore mode = 3) :
    (modeStore mode == 0 || modeStore mode == 2) = false := by
  rcases hs with hs | hs <;> simp [hs]

/-- Settles O17. -/
theorem uniformAccessesComplete : Obligations.UniformAccessesComplete := by
  unfold Obligations.UniformAccessesComplete
  intro s s1 id n c h ls H mode w chk
  refine ⟨?_, fun o z hord R hk => ?_, ?_⟩
  · intro o sx z hord R hk s2 r s3 g hg
    have hla : o.l.toNat = 0 → g.bad = none := fun hl => hg (by simpa using (BitVec.toNat_inj (y := 0)).mp hl)
    change s.sharedWord true _ _ _ _ = _
    rw [sharedWord_crew H]
    refine crewWord_next H (s' := s3.emitted id _ o.l.toNat g) ?_ (admits_zero h)
      (emitted_calm _ _ _ (read_calm (H.checked_calm hk) w _ ls mode _))
    have emits := emitLoad_seen s3 id [.s o.d.toNat (extendTo64 sx (slBytes z) (leNat (r.2.flatMap Prod.snd)))] hla
    have checked : (s.setCrew id c).checkLanes ((s.setCrew id c).whoCrew id c) ((s.setCrew id c).siteCrew id c) c.com.watchFail
      false (uniAcc (h.wrk.rdS o.a.toNat) o.o.toNat (slBytes z) aRead h.wrk.mode) = (s1, .ok ls) := hk
    have ord : loadOrd h.wrk.mode = true := hord
    simp only [ord, check_ok R, checked]
    split
    · rename_i st stops
      cases stops.symm.trans emits
    · rename_i t done
      cases done.symm.trans emits
      rfl
  · change s.sharedWord true _ _ _ _ = _
    rw [sharedWord_crew H]
    refine crewWord_next H ?_ (admits_zero h) (calm_of_pend (storeCells_pend s1 id h _ _ _ id) (H.checked_calm hk))
    have checked : (s.setCrew id c).checkLanes ((s.setCrew id c).whoCrew id c) ((s.setCrew id c).siteCrew id c) c.com.watchFail
      false (uniAcc (h.wrk.rdS o.a.toNat) o.o.toNat (slBytes z) aWrite h.wrk.mode) = (s1, .ok ls) := hk
    have ord : storeOrd h.wrk.mode = true := hord
    simp only [ord, check_ok R, checked, mode]
  · intro d a o e l t wf f fmt hs hord hform hst R as hk n s2 bs s3 g hg
    have hla : l.toNat = 0 → g.bad = none := fun hl => hg (by simpa using (BitVec.toNat_inj (y := 0)).mp hl)
    change s.crewWord (Instr.ldc d a o e l t).wf _ = _
    rw [wf]
    have calm : s3.calm id := by
      refine calm_of_pend ?_ (H.checked_calm hk)
      have filled : s3.crewPend id = s2.crewPend id := crewPend_of_crews (loadAcquire_crews _ _ _) id
      rw [filled]
      simp only [s2]
      split
      · exact seal_pend _ _ _
      · rfl
    refine crewWord_next H (s' := s3.emitted id _ l.toNat g) ?_ (admits_zero h) (emitted_calm _ _ _ calm)
    have checked : (s.setCrew id c).checkLanes ((s.setCrew id c).whoCrew id c) ((s.setCrew id c).siteCrew id c) c.com.watchFail
      false ((uniAcc (h.wrk.rdS a.toNat) o.toNat (formBytes (if t then .t else .w) (modeFmt h.wrk.mode) (extN e)) aRead h.wrk.mode).map
        (fun x => (x.1, { x.2 with page := 1 }))) = (s1, .ok ls) := hk
    have ord : loadOrd h.wrk.mode = true := hord
    have form : formOk (if t then .t else .w) (modeFmt h.wrk.mode) d e = true := hform
    obtain ⟨fo, hfo⟩ : ∃ fo : Hit → Option Byte, ∀ x, ((if (ls.flatMap Prod.snd).any (fun x => x.se) then s1.seal id
      else s1).heatOf id).bind (fun h => h.forward x.sp x.pa) = fo x := ⟨_, fun _ => rfl⟩
    have bytes : bs = hs.map (fun x => (fo x).getD (s2.constByte w n x)) := List.map_congr_left fun x _ => by rw [← hfo]
    have emits : ∀ bs', bs' = bs → s3.emitLoad id (vecW (h.keys d e) (c.lanes h)
        ((List.range 32).map (fun _ => loadImage f fmt (extN e) (modeSgn mode) bs')) (fun _ => formTag f fmt)) l.toNat g =
        .ok (s3.emitted id (g.seen (vecW (h.keys d e) (c.lanes h)
          ((List.range 32).map (fun _ => loadImage f fmt (extN e) (modeSgn mode) bs)) (fun _ => formTag f fmt))) l.toNat g) := by
      rintro _ rfl
      exact emitLoad_seen s3 id _ hla
    have storage : (modeStore h.wrk.mode == 0 || modeStore h.wrk.mode == 2) = false := ldc_storage hst
    simp only [ord, form, Bool.and_self, check_ok R, storage, Bool.and_false, Bool.false_eq_true, if_false, checked, hfo]
    split
    · rename_i st stops
      cases stops.symm.trans (emits _ (bytes ▸ List.map_congr_left fun x _ => by cases fo x <;> rfl))
    · rename_i t done
      cases done.symm.trans (emits _ (bytes ▸ List.map_congr_left fun x _ => by cases fo x <;> rfl))
      rfl

end Sys2Proof.Machine
end

section
/-! SUPPORT. What a check of lanes answers, and loads of scratch and register space (O14). -/

namespace Sys2Proof.Machine

variable {s s1 : State} {id n : Nat} {c : Crew} {h : Heat}

-- What the lanes together give.

/-- The lowest lane of the first failure among some lanes, given that of the lanes before them (R243). -/
def worstOf (o : Option (Nat × Fail)) (r : Nat × LaneRes) : Option (Nat × Fail) :=
  match r.2, o with
  | .fail f, none => some (r.1, f)
  | .fail f, some g => if f.rank < g.2.rank then some (r.1, f) else some g
  | _, o => o

/-- A conflict or wait of a lane. -/
def pausesOf (r : Nat × LaneRes) : Option Stop :=
  match r.2 with
  | .conflict va => some (.conflict va)
  | .wait w => some (.wait w)
  | _ => none

/-- The bytes of a lane that resolved. -/
def hitsOf (r : Nat × LaneRes) : Nat × List Hit :=
  (r.1, match r.2 with
    | .ok hs => hs
    | _ => [])

theorem laneOutcome_eq (lv : Bool) (rs : List (Nat × LaneRes)) : laneOutcome lv rs =
    match rs.foldl worstOf none with
    | some (l, f) => .error (.fault f (if lv then some l else none))
    | none => match rs.findSome? pausesOf with
      | some st => .error st
      | none => .ok (rs.map hitsOf) := rfl

theorem worstOf_isSome (rs : List (Nat × LaneRes)) (o : Option (Nat × Fail)) (ho : o.isSome) :
    (rs.foldl worstOf o).isSome := by
  induction rs generalizing o with
  | nil => exact ho
  | cons r t ih =>
    refine ih _ ?_
    obtain ⟨g, rfl⟩ := Option.isSome_iff_exists.mp ho
    unfold worstOf
    split
    · rfl
    · split <;> rfl
    · rfl

/-- Where no failure is raised, no lane fails. -/
theorem worstOf_none {rs : List (Nat × LaneRes)} (h : rs.foldl worstOf none = none) : ∀ r ∈ rs, ∀ f, r.2 ≠ .fail f := by
  induction rs with
  | nil => simp
  | cons r t ih =>
    rw [List.foldl_cons] at h
    have first : worstOf none r = none := by
      refine Classical.byContradiction fun some_ => ?_
      have := worstOf_isSome t _ (Option.isSome_iff_ne_none.mpr some_)
      simp [h] at this
    rw [first] at h
    intro x hx f hf
    rcases List.mem_cons.mp hx with rfl | hx
    · simp [worstOf, hf] at first
    · exact ih h x hx f hf

/-- Lanes that together resolve each resolve. -/
theorem laneOutcome_ok {lv : Bool} {rs : List (Nat × LaneRes)} {ls : List (Nat × List Hit)} (h : laneOutcome lv rs = .ok ls) :
    ls.map Prod.fst = rs.map Prod.fst ∧ ∀ p ∈ ls, (p.1, LaneRes.ok p.2) ∈ rs := by
  rw [laneOutcome_eq] at h
  split at h
  · cases h
  · rename_i noFail
    split at h
    · cases h
    · rename_i noPause
      cases h
      refine ⟨by simp [hitsOf], fun p hp => ?_⟩
      obtain ⟨r, hr, rfl⟩ := List.mem_map.mp hp
      have fails := worstOf_none noFail r hr
      have pauses := List.findSome?_eq_none_iff.mp noPause r hr
      obtain ⟨l, res⟩ := r
      cases res with
      | ok hs => exact hr
      | fail f => exact absurd rfl (fails f)
      | conflict va => simp [pausesOf] at pauses
      | wait w => simp [pausesOf] at pauses

-- Accesses of scratch and register space.

/-- A byte of scratch or register space. -/
def Hit.inScratch (x : Hit) : Prop := x.se = false ∧ (x.sp = .scr ∨ ∃ k, x.sp = .reg k)

theorem inScratch_hitsAt {sp : Space} (hsp : sp = .scr ∨ ∃ k, sp = .reg k) (a n : Nat) : ∀ x ∈ hitsAt sp a n, x.inScratch := by
  intro x hx
  obtain ⟨i, -, rfl⟩ := List.mem_map.mp hx
  exact ⟨rfl, hsp⟩

theorem teamPlace_inScratch {x : Site} {a : Acc} {hs : List Hit} (h : s.teamPlace x a = .ok hs) : ∀ y ∈ hs, y.inScratch := by
  unfold State.teamPlace at h
  dsimp only at h
  repeat' split at h
  all_goals cases h
  exact inScratch_hitsAt (.inl rfl) _ _

theorem regPlace_inScratch {x : Site} {a : Acc} {hs : List Hit} (h : s.regPlace x a = .ok hs) : ∀ y ∈ hs, y.inScratch := by
  unfold State.regPlace at h
  dsimp only at h
  repeat' split at h
  all_goals cases h
  exact inScratch_hitsAt (.inr ⟨_, rfl⟩) _ _

/-- An access that names scratch changes no state, and its bytes lie in scratch or register space. -/
theorem resolve_scratch (w : Who) (x : Site) (f : Option Fail) {a : Acc} (ha : a.storage = 0) :
    (s.resolve w x f a).1 = s ∧ ∀ hs, (s.resolve w x f a).2 = .ok hs → ∀ y ∈ hs, y.inScratch := by
  unfold State.resolve
  split
  · exact ⟨rfl, nofun⟩
  · split
    · exact ⟨rfl, fun hs h => teamPlace_inScratch h⟩
    · split
      · exact ⟨rfl, fun hs h => regPlace_inScratch h⟩
      · split
        · exact ⟨rfl, fun hs h => by cases h; exact inScratch_hitsAt (.inl rfl) _ _⟩
        · exact ⟨rfl, nofun⟩

theorem foldl_resolve_scratch (w : Who) (x : Site) (f : Acc → Option Fail) (as : List (Nat × Acc))
    (ha : ∀ la ∈ as, la.2.storage = 0) (rs : List (Nat × LaneRes)) :
    as.foldl (fun (a : State × List (Nat × LaneRes)) la =>
      ((a.1.resolve w x (f la.2) la.2).1, a.2 ++ [(la.1, (a.1.resolve w x (f la.2) la.2).2)])) (s, rs) =
      (s, rs ++ as.map (fun la => (la.1, (s.resolve w x (f la.2) la.2).2))) := by
  induction as generalizing rs with
  | nil => simp
  | cons la t ih =>
    rw [List.foldl_cons, (resolve_scratch w x (f la.2) (ha la (List.mem_cons_self ..))).1,
      ih (fun y hy => ha y (List.mem_cons_of_mem _ hy))]
    simp

/-- A check of lanes that name scratch changes no state; the lanes are those checked. -/
theorem checkLanes_scratch {w : Who} {x : Site} {f : Acc → Option Fail} {lv : Bool} {as : List (Nat × Acc)}
    {ls : List (Nat × List Hit)} (ha : ∀ la ∈ as, la.2.storage = 0) (hk : s.checkLanes w x f lv as = (s1, .ok ls)) :
    s1 = s ∧ ls.map Prod.fst = as.map Prod.fst ∧ ∀ p ∈ ls, ∀ y ∈ p.2, y.inScratch := by
  have run : s.checkLanes w x f lv as = (s, laneOutcome lv (as.map (fun la => (la.1, (s.resolve w x (f la.2) la.2).2)))) := by
    unfold State.checkLanes
    have := foldl_resolve_scratch (s := s) w x f as ha []
    simp only [List.nil_append] at this
    dsimp only
    rw [this]
  obtain ⟨rfl, outcome⟩ := Prod.mk.inj (run.symm.trans hk)
  obtain ⟨lanes, oks⟩ := laneOutcome_ok outcome
  refine ⟨rfl, by simpa [Function.comp_def] using lanes, fun p hp => ?_⟩
  obtain ⟨la, hla, eq⟩ := List.mem_map.mp (oks p hp)
  exact (resolve_scratch w x (f la.2) (ha la hla)).2 p.2 (Prod.mk.inj eq).2

/-- Reading scratch and register space changes no cache. -/
theorem touchHits_scratch (w : Who) (cache : Nat) {hs : List Hit} (h : ∀ x ∈ hs, x.inScratch) : s.touchHits w cache hs = s := by
  have none_ : ∀ sp : Space, sp = .pkg ∨ sp = .peer → hs.filter (fun x => x.sp == sp) = [] := fun sp hsp =>
    List.filter_eq_nil_iff.mpr fun x hx => by
      rcases (h x hx).2 with e | ⟨k, e⟩ <;> rcases hsp with rfl | rfl <;> simp [e]
  have ext : ∀ x ∈ hs, ∀ p, x.sp ≠ .ext false p := fun x hx p => by
    rcases (h x hx).2 with e | ⟨k, e⟩ <;> simp [e]
  unfold State.touchHits
  dsimp only
  rw [none_ .pkg (.inl rfl), none_ .peer (.inr rfl), List.filterMap_eq_nil_iff.mpr]
  · simp
  · intro x hx
    split
    · exact absurd ‹_› (ext x hx _)
    · rfl

theorem ownFirst_scratch (w : Who) {ps : List (Space × Nat)} (h : ∀ p ∈ ps, p.1 ≠ .pkg) : s.ownFirst w ps = s := by
  have owes : ∀ c : Crew, c.owes ps = false := fun c => by
    simp only [Crew.owes, List.any_eq_false, Bool.and_eq_true, beq_iff_eq, not_and, Bool.not_eq_true]
    exact fun q _ l _ p hp hpkg => absurd hpkg (h p hp)
  unfold State.ownFirst
  split
  · rfl
  · rename_i id _
    rw [if_neg]
    cases s.crew id <;> simp [owes]

/-- Reading scratch and register space gives each lane's bytes, the heat's own buffered stores first, and changes nothing. -/
theorem readLanes_scratch (w : Who) (cache : Nat) (h : Heat) {ls : List (Nat × List Hit)}
    (hin : ∀ p ∈ ls, ∀ y ∈ p.2, y.inScratch) :
    s.readLanes w cache (some h) ls = (s, ls.map (fun p => (p.1, s.laneBytes w h p.2))) := by
  have all : ∀ y ∈ ls.flatMap Prod.snd, y.inScratch := fun y hy => by
    obtain ⟨p, hp, hy⟩ := List.mem_flatMap.mp hy
    exact hin p hp y hy
  have own : s.ownFirst w (ls.flatMap (fun l => l.2.map (fun x => (x.sp, x.pa)))) = s := by
    refine ownFirst_scratch w fun p hp => ?_
    simp only [List.mem_flatMap, List.mem_map] at hp
    obtain ⟨l, hl, y, hy, rfl⟩ := hp
    rcases (hin l hl y hy).2 with e | ⟨k, e⟩ <;> simp [e]
  unfold State.readLanes
  dsimp only
  rw [own, touchHits_scratch w cache all]
  refine Prod.ext rfl (List.map_congr_left fun p _ => Prod.ext rfl (List.map_congr_left fun x _ => ?_))
  simp only [Option.bind_some]
  cases h.forward x.sp x.pa <;> rfl

-- A word whose results enter the heat at once.

/-- The state after a word whose results enter the heat at once is that of a register word. -/
theorem emitted_nextWord (H : InHeat s id n c h) (ws : List RegW) (g : Got) :
    ((s.setCrew id c).emitted id ws 0 g).nextWord id 0 = s.afterWord id c h 0 [] ws 0 none := by
  have emits : (s.setCrew id c).emitted id ws 0 g = (s.setCrew id c).setCrew id (c.emit h ws 0 (c.slot h.slot).pc .clean) := by
    rw [State.emitted, State.updCrew_of (State.crew_setCrew_same s id c)]
    simp only [H.heat]
    rfl
  let f : Crew → Heat → Except Stop Res := fun _ _ => .ok ⟨ws, 0, none⟩
  have runs : regEff 0 heldNone f (s.setCrew id c) id c h = .ok ((s.setCrew id c).emitted id ws 0 g, 0) := by
    rw [emits]; rfl
  have effect := crewWord_next H runs (admits_zero h) (emitted_calm ws 0 g H.calm)
  have register := crewWord_plain H (la := 0) (f := f) rfl
  exact Host.Outcome.next.inj (effect.symm.trans register)

theorem poisoned_setCrew (hc : s.crew id = some c) (w : Who) (hs : List Hit) :
    (s.setCrew id c).poisoned w hs = s.poisoned w hs := by
  simp only [State.poisoned, setCrew_crew hc]
  rfl

theorem got_good {w : Who} {lv : Bool} {as : List (Nat × Acc)} {ls : List (Nat × List Hit)}
    (h : s.poisoned w (ls.flatMap Prod.snd) = false) : (s.got w lv as ls).bad = none := by
  have each : ∀ l ∈ ls, s.poisoned w l.2 = false := fun l hl => by
    simp only [State.poisoned, List.any_eq_false] at h ⊢
    exact fun x hx => h x (List.mem_flatMap.mpr ⟨l, hl, hx⟩)
  simp only [State.got, Option.map_eq_none_iff, List.find?_eq_none]
  exact fun l hl => by simp [each l hl]

theorem accs_storage (m : MemOp) (c : Crew) (h : Heat) (size kind : Nat) :
    ∀ la ∈ m.accs c h size kind, la.2.storage = m.storage h.wrk.mode := by
  intro la hla
  obtain ⟨l, -, rfl⟩ := List.mem_map.mp hla
  rfl

theorem accs_lanes (m : MemOp) (c : Crew) (h : Heat) (size kind : Nat) :
    (m.accs c h size kind).map Prod.fst = lanesIn (c.lanes h) := by
  simp [MemOp.accs, Function.comp_def]

theorem mem_lanesIn {m : Word} {l : Nat} : l ∈ lanesIn m ↔ l < 32 ∧ m.getLsbD l = true := by simp [lanesIn]

theorem nodup_lanesIn (m : Word) : (lanesIn m).Nodup := List.nodup_range.filter _

theorem Got.seen_good {g : Got} (hg : g.bad = none) (ws : List RegW) : g.seen ws = ws := by simp [Got.seen, hg]

theorem Instr.blockOk_of_load {i : Instr} {m : MemOp} (hi : i.load = some m) (wf : i.wf = true) : blockOk m.d m.e = true := by
  unfold Instr.load at hi
  split at hi <;> cases hi <;> simp_all [Instr.wf]

/-- The register image of one lane of a load. -/
theorem loadOuts_getD (m : MemOp) (mode : BitVec 40) {vs : List (Nat × List Byte)} (once : (vs.map Prod.fst).Nodup) {l : Nat}
    {bs : List Byte} (hl : l < 32) (hm : (l, bs) ∈ vs) :
    (loadOuts m mode vs).getD l [] = loadImage m.f (modeFmt mode) (extN m.e) (modeSgn mode) bs := by
  have found : vs.find? (fun v => v.1 == l) = some (l, bs) := by
    have some_ : (vs.find? (fun v => v.1 == l)).isSome := by simpa using ⟨bs, hm⟩
    obtain ⟨v, hv⟩ := Option.isSome_iff_exists.mp some_
    have key : v.1 = l := by simpa using List.find?_some hv
    rw [hv, inj_of_nodup_map once (List.mem_of_find?_eq_some hv) hm key]
  simp only [loadOuts, List.getD, List.getElem?_map, List.getElem?_range hl, Option.map_some, Option.getD_some, found]

/-- Settles O14. -/
theorem scratchLoadsReadAndKeepMemory : Obligations.ScratchLoadsReadAndKeepMemory := by
  unfold Obligations.ScratchLoadsReadAndKeepMemory
  intro s s1 id n c h i m ls hi wf H hbase hst hord hla hform R mode w hk good
  have run := loadWordsComplete s s1 id n c h i m ls hi wf H (by simp [loadOrd, hord]) hform R hk
  obtain ⟨rfl, lanes, plain⟩ := checkLanes_scratch (fun la hla => (accs_storage m c h _ _ la hla).trans hst) hk
  rw [accs_lanes] at lanes
  have unsealed : (s.setCrew id c).sealedFor id ls = s.setCrew id c := by
    rw [State.sealedFor, if_neg]
    simp only [List.any_eq_true, not_exists, not_and, Bool.not_eq_true]
    exact fun p hp y hy => (plain p hp y hy).1
  have heat : (s.setCrew id c).heatOf id = some h := by simp [State.heatOf, H.heat]
  have relaxed : (s.setCrew id c).loadAcquire id h.wrk.mode = s.setCrew id c := if_neg (by simp [hord])
  have clean := got_good (lv := true) (as := m.accs c h (formBytes m.f (modeFmt mode) (extN m.e)) aRead)
    ((poisoned_setCrew H.crew w (ls.flatMap Prod.snd)).trans good)
  simp only [unsealed, heat, readLanes_scratch _ _ h plain, relaxed, hla] at run
  have run' := (run fun _ => clean).trans (congrArg _ (emitted_nextWord H _ _))
  rw [Got.seen_good clean] at run'
  obtain ⟨c', h', ht, hh, hw, -, -, -, hbuf, -⟩ := s.afterWord_eq id c h 0 [] _ 0 none
  refine ⟨_, c', h', run'.trans (congrArg _ ht), State.crew_setCrew_same s id c', hh, rfl,
    fun k hk => State.crew_setCrew_other s c' hk, hbuf, ?_⟩
  rw [hw]
  have block := fun j (hj : j < extN m.e) => h.wroteBlock_mem (h.keys m.d m.e) (c.lanes h)
    (loadOuts m mode (ls.map (fun p => (p.1, (s.setCrew id c).laneBytes w h p.2)))) (fun _ => formTag m.f (modeFmt mode)) R
    (keys_nodup hbase (Instr.blockOk_of_load hi wf)) ((length_keys h m.d m.e).symm ▸ hj)
  obtain ⟨uniform, predicates⟩ := h.wroteBlock_uniform (h.keys m.d m.e) (c.lanes h)
    (loadOuts m mode (ls.map (fun p => (p.1, (s.setCrew id c).laneBytes w h p.2)))) (fun _ => formTag m.f (modeFmt mode))
  refine ⟨h.wroteBlock_asw _ _ _ _, h.wroteBlock_mode _ _ _ _, uniform, predicates,
    fun k hk => h.wroteBlock_other _ _ _ _ hk, fun l hs hl j hj => ?_, fun j hj => ⟨(block j hj).1, fun l hl off => ?_⟩⟩
  · have lane_ : l ∈ lanesIn (c.lanes h) := lanes ▸ List.mem_map_of_mem hl
    obtain ⟨below, on⟩ := mem_lanesIn.mp lane_
    refine ((block j hj).2 l below).trans ?_
    have once : ((ls.map (fun p => (p.1, (s.setCrew id c).laneBytes w h p.2))).map Prod.fst).Nodup := by
      rw [List.map_map]
      exact (congrArg List.Nodup lanes).mpr (nodup_lanesIn _)
    rw [if_pos on, loadOuts_getD m mode once below (List.mem_map_of_mem hl)]
  · exact ((block j hj).2 l hl).trans (if_neg (by simp [off]))

end Sys2Proof.Machine
end

section
/-! SUPPORT. Little-endian bytes, scratch atomics (O20), fences (O21). -/

namespace Sys2Proof.Machine

variable {s s1 : State} {id n : Nat} {c : Crew} {h : Heat}

-- Little-endian bytes.

theorem length_leOf (n v : Nat) : (leOf n v).length = n := by
  induction n generalizing v with
  | zero => rfl
  | succ n ih => simp [leOf, ih]

/-- Byte `i` of a number. -/
theorem leOf_getD {n i : Nat} (v : Nat) (hi : i < n) : (leOf n v).getD i 0 = BitVec.ofNat 8 (v / 2 ^ (8 * i)) := by
  induction n generalizing v i with
  | zero => omega
  | succ n ih =>
    cases i with
    | zero => simp [leOf]
    | succ i =>
      have := ih (v / 256) (by omega : i < n)
      rw [leOf, List.getD_cons_succ, this, Nat.div_div_eq_div_mul, show (256 : Nat) = 2 ^ 8 from rfl, ← Nat.pow_add]
      congr 3; omega

theorem leNat_leOf (n v : Nat) : leNat (leOf n v) = v % 2 ^ (8 * n) := by
  induction n generalizing v with
  | zero => simp [leOf, leNat, Nat.mod_one]
  | succ n ih =>
    rw [leOf, leNat, ih, BitVec.toNat_ofNat, show 8 * (n + 1) = 8 + 8 * n by grind, Nat.pow_add]
    exact (Nat.mod_mul ..).symm

-- Bytes written one after the other.

/-- Consecutive bytes put one by one. -/
theorem get_foldl_put (v : Nat → Byte) (a n : Nat) {m : Memory} (hm : Memory.wf m = true) (x : Nat) :
    Memory.get (((List.range n).map (fun i => (a + i, v i))).foldl (fun g kv => Memory.put g kv.1 kv.2) m) x =
      if a ≤ x ∧ x < a + n then v (x - a) else Memory.get m x := by
  induction n with
  | zero => exact (if_neg (by omega)).symm
  | succ n ih =>
    rw [List.range_succ, List.map_append, List.foldl_append, List.map_singleton, List.foldl_cons, List.foldl_nil,
      Memory.get_put _ _ _ _ (Memory.wf_puts _ _ _ hm), ih]
    by_cases hx : x = a + n
    · rw [if_pos hx, if_pos (by omega), hx, Nat.add_sub_cancel_left]
    · rw [if_neg hx]
      by_cases hin : a ≤ x ∧ x < a + n
      · rw [if_pos hin, if_pos (by omega)]
      · rw [if_neg hin, if_neg (by omega)]

-- Scratch atomics (O20).

/-- What a plain store of a region leaves of one byte of scratch: in a barrier word the writable bits alone (R261). -/
def State.scrByte (s : State) (rk x : Nat) (b : Byte) : Byte :=
  match s.barWord rk (x / 2 ^ 24) (x % 2 ^ 24) with
  | none => b
  | some w =>
    let k : Byte := BitVec.ofNat 8 (bits barKeep (8 * (x - w)) 8)
    (Memory.get s.mem.scr x &&& ~~~k) ||| (b &&& k)

theorem scrCells_range (s : State) (rk a n : Nat) (v : Nat → Byte) :
    s.scrCells rk ((List.range n).map (fun i => (a + i, v i))) = (List.range n).map (fun i => (a + i, s.scrByte rk (a + i) (v i))) := by
  rw [State.scrCells, List.map_map]
  refine List.map_congr_left fun i _ => ?_
  simp only [Function.comp_apply, State.scrByte]
  cases s.barWord rk ((a + i) / 2 ^ 24) ((a + i) % 2 ^ 24) <;> rfl

/-- Scratch after an atomic on it. -/
theorem rmw_scr (s : State) (w : Who) (scope cache a n : Nat) (f : Nat → Nat) (hm : Memory.wf s.mem.scr = true) (x : Nat) :
    Memory.get (s.rmw w scope cache .scr a n f).1.mem.scr x = if a ≤ x ∧ x < a + n then
      s.scrByte w.rk x (BitVec.ofNat 8 (f (leNat (Memory.getBytes s.mem.scr a n)) / 2 ^ (8 * (x - a)))) else Memory.get s.mem.scr x := by
  simp only [State.rmw, MemSys.putScratch, scrCells_range]
  rw [get_foldl_put (fun i => s.scrByte w.rk (a + i) _) a n hm x]
  by_cases hx : a ≤ x ∧ x < a + n
  · rw [if_pos hx, if_pos hx, Nat.add_sub_cancel' hx.1, leOf_getD _ (by omega)]
  · rw [if_neg hx, if_neg hx]

/-- Settles O20. -/
theorem scratchAtomicsChangeTheirBytes : Obligations.ScratchAtomicsChangeTheirBytes := by
  unfold Obligations.ScratchAtomicsChangeTheirBytes
  intro s w op mode a n d d2 hn hm r
  have get := rmw_scr s w (modeScope mode) (modeCache mode) a n (fun v => op.apply n mode v d d2) hm
  refine ⟨rfl, fun plain => ?_, fun i b hi hb => ?_, fun x hx => ?_, rfl, rfl, rfl, rfl, rfl⟩
  · rw [← leNat_leOf]
    congr 1
    refine List.ext_getElem (by simp [Memory.getBytes, length_leOf]) fun i h₁ h₂ => ?_
    have hi : i < n := by simpa [length_leOf] using h₂
    have value := leOf_getD (op.apply n mode r.2 d d2) hi
    rw [getD_of_lt _ _ h₂] at value
    rw [value]
    simp only [Memory.getBytes, List.getElem_map, List.getElem_range]
    refine (get (a + i)).trans ?_
    rw [if_pos (by omega), Nat.add_sub_cancel_left, State.scrByte, plain i hi]
    rfl
  · refine (get (a + i)).trans ?_
    rw [if_pos (by omega), Nat.add_sub_cancel_left, State.scrByte, hb]
    rfl
  · exact (get x).trans (if_neg (by omega))

-- Words of engine contexts.

/-- A word of an open engine heat whose effect completes, in a context whose profile has it. -/
theorem sharedWord_eng {k : Nat} {e : Eng} {s' : State} (H : InEngine s k e) {wf wfE : Bool} {eff : Eff} {kinds : Nat → Bool}
    {effE : EngEff} (ok : (kinds (engKind k) && wfE) = true) (he : effE s k e = .ok s') :
    s.sharedWord wf eff kinds wfE effE = .next (s'.nextEngWord k) := by
  have late : ¬ 23 ≤ e.off := by have := H.room; omega
  have opened : e.entry.isNone = false := by simpa using H.entry
  simp only [State.sharedWord, H.cur, H.eng, State.issueEng, ok, opened, late, he]
  rfl

-- Fences (O21).

/-- A word without operands passes the checks of the heat. -/
theorem check_formed (R : Readable c h [] [] []) {o : Bool} (ho : o = true) : c.check h [] [] [] o true = .ok () :=
  ho ▸ check_ok R

/-- Settles O21: in a crew the fence's acquire and its buffered release leave the windows alone. -/
theorem fencesComplete : Obligations.FencesComplete := by
  unfold Obligations.FencesComplete
  refine ⟨?_, ?_⟩
  · intro s id n c h H R o sc st ordered s1
    change s.sharedWord true _ _ _ _ = _
    have calm1 : s1.calm id := by
      refine calm_of_pend ?_ H.calm
      by_cases h2 : o = 2
      · simp only [s1, h2, if_true]
      · simp only [s1, h2, if_false, crewPend_of_crews (acquireCrew_crews _ _ _ _), performLater_pend]
    rw [sharedWord_crew H]
    refine crewWord_next H (s' := if o = 1 then s1 else s1.buffer id (.release sc st)) ?_ (admits_zero h) ?_
    · simp only [check_formed R (show (modeOrd h.wrk.mode != 0) = true by simpa using ordered)]
      rfl
    · by_cases h1 : o = 1
      · simpa only [h1, if_true] using calm1
      · simpa only [h1, if_false] using calm_of_pend (buffer_pend _ _ _ _) calm1
  · intro s k e H kind o sc glob ordered w s1
    refine sharedWord_eng H (by simp [kindM, kind]) ?_
    have relaxed : ¬ modeOrd e.mode = 0 := ordered
    simp only [relaxed, if_false, Bool.and_eq_true, Bool.or_eq_true, beq_iff_eq, bne_iff_ne, ne_eq]
    rfl

-- Translations and reads write no memory.

/-- The memories of the machine are the same: those of the memory system, the pool's devices, and the saved allotments. -/
def State.sameStore (s t : State) : Prop := s.mem.sameBytes t.mem ∧ t.pool.dev = s.pool.dev ∧ t.teams = s.teams

theorem State.sameStore.refl (s : State) : s.sameStore s := ⟨.refl _, rfl, rfl⟩

theorem State.sameStore.trans {a b c : State} (h : a.sameStore b) (g : b.sameStore c) : a.sameStore c :=
  ⟨h.1.trans g.1, g.2.1.trans h.2.1, g.2.2.trans h.2.2⟩

theorem State.sameStore_foldl {β : Type} {f : State → β → State} (hf : ∀ (s : State) (b : β), s.sameStore (f s b)) (xs : List β)
    (s : State) : s.sameStore (xs.foldl f s) := by
  induction xs generalizing s with
  | nil => exact .refl s
  | cons x r ih => exact (hf s x).trans (ih _)

/-- A change of the memory system that writes no byte. -/
theorem State.sameStore_of_mem {s : State} {m : MemSys} (h : s.mem.sameBytes m) : s.sameStore { s with mem := m } := ⟨h, rfl, rfl⟩

theorem MemSys.homeWrite_same (m : MemSys) (t pa : Nat) (bs : List Byte) : m.sameBytes (m.homeWrite t pa bs) :=
  MemSys.storePkg_same ..

theorem lookup_same (s : State) (w : Who) (va : Nat) : s.sameStore (s.lookup w va).1 := by
  unfold State.lookup
  dsimp only
  split
  · exact .refl s
  · split
    · exact .refl s
    · exact State.sameStore_of_mem ⟨rfl, rfl, rfl, rfl⟩

theorem orLeaf_same (s : State) (w : Who) (x : Xl) (mask : Nat) : s.sameStore (s.orLeaf w x mask) := by
  unfold State.orLeaf
  dsimp only
  split
  · exact .refl s
  · exact State.sameStore_of_mem (.trans (MemSys.homeWrite_same ..) ⟨rfl, rfl, rfl, rfl⟩)

theorem translateC_same (s : State) (w : Who) (va k : Nat) (chk : Bool) : s.sameStore (s.translateC w va k chk).1 := by
  have looked := lookup_same s w va
  unfold State.translateC
  split
  · exact .refl s
  · split
    · rename_i h; rw [h] at looked; exact looked
    · rename_i h
      rw [h] at looked
      dsimp only
      repeat' split
      all_goals first
        | exact looked
        | exact looked.trans (orLeaf_same ..)

theorem setCrew_same (s : State) (id : Nat) (c : Crew) : s.sameStore (s.setCrew id c) := ⟨.refl _, rfl, rfl⟩

theorem updCrew_same (s : State) (id : Nat) (f : Crew → Crew) : s.sameStore (s.updCrew id f) := by
  unfold State.updCrew
  split
  · exact setCrew_same ..
  · exact .refl s

/-- One piece of a virtual access keeps what its translation keeps. -/
theorem vaPlace_keep {P : State → Prop} {w : Who} {k : Nat} {chk : Bool}
    (step : ∀ (s : State) (va : Nat), P s → P (s.translateC w va k chk).1) {s : State} (h : P s) {a : Acc} (ha : a.k = k)
    (f : Option Fail) : P (s.vaPlace w a f chk).1 := by
  subst ha
  have folded : ∀ (l : List (Nat × Nat)) (x : State × List Hit × List Fail × Bool), P x.1 →
      P (l.foldl (fun (x : State × List Hit × List Fail × Bool) p =>
        let (s, hs, fs, cf) := x
        let fs := fs ++ (if p.1 < 2 ^ 57 then s.leafFails w a p.1 else [])
        match s.translateC w p.1 a.k chk with
        | (s, .ok h) =>
          match a.allows h with
          | some f => (s, hs, fs ++ [f], cf)
          | none => (s, hs ++ (List.range p.2).map (fun j => { h with pa := h.pa + j }), fs ++ s.deadStop w a h, cf)
        | (s, .fail f) => (s, hs, fs ++ [f], cf)
        | (s, .conflict h) => (s, hs, fs ++ (a.allows h).toList, true)) x).1 := by
    intro l
    induction l with
    | nil => exact fun x hx => hx
    | cons p r ih =>
      intro x hx
      obtain ⟨t, hs, fs, cf⟩ := x
      refine ih _ ?_
      have ht := step t p.1 hx
      dsimp only
      split
      · rename_i h; rw [h] at ht; split <;> exact ht
      · rename_i h; rw [h] at ht; exact ht
      · rename_i h; rw [h] at ht; exact ht
  have := folded (pieces a.va a.n) (s, [], [], false) h
  unfold State.vaPlace
  dsimp only at this ⊢
  split
  · exact this
  · split <;> exact this

theorem vaPlace_same (s : State) (w : Who) (a : Acc) (f : Option Fail) (chk : Bool) : s.sameStore (s.vaPlace w a f chk).1 :=
  vaPlace_keep (P := s.sameStore) (fun t va h => h.trans (translateC_same t w va _ chk)) (.refl s) rfl f

theorem lineHit_same (s : State) (w : Who) (va : Nat) (mode : BitVec 40) : s.sameStore (s.lineHit w va mode).1 := by
  have placed := vaPlace_same s w (lineAcc va aRead mode) none true
  unfold State.lineHit
  split
  · rename_i h; rw [h] at placed; exact placed
  · exact .refl s

theorem lineHit_crews (s : State) (w : Who) (va : Nat) (mode : BitVec 40) : (s.lineHit w va mode).1.crews = s.crews := by
  have placed := vaPlace_crews s w (lineAcc va aRead mode) none true
  unfold State.lineHit
  split
  · rename_i h; rw [h] at placed; exact placed
  · rfl

theorem touchHits_same (s : State) (w : Who) (cache : Nat) (hs : List Hit) : s.sameStore (s.touchHits w cache hs) := by
  refine State.sameStore_of_mem (.trans (b := if fillsNone cache then _ else _) ?_ (MemSys.same_foldl (fun m x => MemSys.extFetch_same ..) _ _))
  have touched := MemSys.same_foldl (f := fun m (ln : Nat × Bool) => m.touchLine w.port ln.1 cache ln.2
      ((hs.filter (fun h => h.sp == .pkg)).any (fun h => lineOf h.pa == ln.1 && m.misses w.port h.pa)))
    (fun m x => MemSys.touchLine_same ..) (((hs.filter (fun h => h.sp == .pkg)).map (fun h => (lineOf h.pa, h.cls == 0))).eraseDups) s.mem
  split
  · exact touched
  · exact touched.trans (MemSys.same_foldl (fun m x => MemSys.fillPeer_same ..) _ _)

theorem ownLine_same (s : State) (w : Who) (va : Nat) (h : Hit) : s.sameStore (s.ownLine w va h) := by
  have looked := lookup_same s w va
  unfold State.ownLine
  split
  · rename_i s' x e
    rw [e] at looked
    have owned := (MemSys.prepStore_same s'.mem s'.clock w.port 4 (lineOf h.pa) (h.cls == 0)).trans
      (MemSys.putAt_same _ (s'.mem.prepStore s'.clock w.port 4 (lineOf h.pa) (h.cls == 0)).2 (lineOf h.pa) [])
    split
    · exact looked.trans (State.sameStore_of_mem owned)
    · exact looked
  · rename_i e; rw [e] at looked; exact looked

theorem ownLine_crews (s : State) (w : Who) (va : Nat) (h : Hit) : (s.ownLine w va h).crews = s.crews := by
  have looked := lookup_crews s w va
  unfold State.ownLine
  split
  · rename_i e
    rw [e] at looked
    split <;> exact looked
  · rename_i e; rw [e] at looked; exact looked

theorem prefLine_same (sub : Nat) (w : Who) (mode : BitVec 40) (s : State) (la : Nat × Nat) : s.sameStore (prefLine sub w mode s la) := by
  have found := lineHit_same s w la.2 mode
  unfold prefLine
  split
  · rename_i h; rw [h] at found; exact found
  · rename_i h
    rw [h] at found
    repeat' split
    · exact found.trans (touchHits_same ..)
    · exact found.trans (State.sameStore_of_mem (MemSys.fillL2_same ..))
    · exact found
    · exact found.trans (ownLine_same ..)

theorem prefLine_crews (sub : Nat) (w : Who) (mode : BitVec 40) (s : State) (la : Nat × Nat) :
    (prefLine sub w mode s la).crews = s.crews := by
  have found := lineHit_crews s w la.2 mode
  unfold prefLine
  split
  · rename_i h; rw [h] at found; exact found
  · rename_i h
    rw [h] at found
    repeat' split
    · exact found
    · exact found
    · exact found
    · exact (ownLine_crews ..).trans found

-- Cache and placement words (O18).

/-- The effect of a cache word leaves scratch, the other storage and the other crews. -/
structure State.quiet (id : Nat) (s t : State) : Prop where
  store : s.sameStore t
  others : ∀ k, k ≠ id → t.crew k = s.crew k

theorem State.quiet.trans {a b c : State} (h : a.quiet id b) (g : b.quiet id c) : a.quiet id c :=
  ⟨h.store.trans g.store, fun k hk => (g.others k hk).trans (h.others k hk)⟩

theorem State.quiet_of_crews {a b : State} (h : a.sameStore b) (hc : b.crews = a.crews) : a.quiet id b :=
  ⟨h, fun k _ => by simp only [State.crew, hc]⟩

theorem State.quiet.refl (s : State) : s.quiet id s := State.quiet_of_crews (.refl s) rfl

theorem setCrew_quiet (s : State) (id : Nat) (c : Crew) : s.quiet id (s.setCrew id c) :=
  ⟨setCrew_same .., fun _ hk => State.crew_setCrew_other s c hk⟩

theorem updCrew_quiet (s : State) (id : Nat) (f : Crew → Crew) : s.quiet id (s.updCrew id f) := by
  unfold State.updCrew
  split
  · exact setCrew_quiet ..
  · exact .refl s

theorem State.quiet_foldl {β : Type} {f : State → β → State} (hf : ∀ (s : State) (b : β), s.quiet id (f s b)) (xs : List β)
    (s : State) : s.quiet id (xs.foldl f s) := by
  induction xs generalizing s with
  | nil => exact .refl s
  | cons x r ih => exact (hf s x).trans (ih _)

/-- The lines of CFLUSH and CINV, each checked as a load. -/
theorem lineChecks_keep {P : State → Prop} {w : Who} {mode : BitVec 40} {f : Nat × Nat → Option Fail}
    (step : ∀ (s : State) (a : Acc) (f : Option Fail), P s → P (s.vaPlace w a f false).1) (as : List (Nat × Nat))
    (x : State × List (Nat × LaneRes)) (h : P x.1) : P (as.foldl (fun (x : State × List (Nat × LaneRes)) la =>
      let r := x.1.vaPlace w (lineAcc la.2 aRead mode) (f la) false
      (r.1, x.2 ++ [(la.1, r.2)])) x).1 := by
  induction as generalizing x with
  | nil => exact h
  | cons la r ih => exact ih _ (step _ _ _ h)

theorem vaPlace_quiet (s : State) (w : Who) (a : Acc) (f : Option Fail) (chk : Bool) : s.quiet id (s.vaPlace w a f chk).1 :=
  State.quiet_of_crews (vaPlace_same ..) (vaPlace_crews ..)

theorem buffer_quiet (s : State) (id : Nat) (o : BufOp) : s.quiet id (s.buffer id o) := updCrew_quiet ..

/-- The buffering of a flush at the first byte of each line. -/
def bufferFirst (id : Nat) (op : Hit → BufOp) (s : State) (l : Nat × List Hit) : State :=
  match l.2 with
  | x :: _ => if x.sp = .pkg ∨ x.sp = .peer then s.buffer id (op x) else s
  | [] => s

theorem bufferFirst_quiet (id : Nat) (op : Hit → BufOp) (s : State) (l : Nat × List Hit) : s.quiet id (bufferFirst id op s l) := by
  unfold bufferFirst
  split
  · split
    · exact buffer_quiet ..
    · exact .refl s
  · exact .refl s

theorem bufferFirst_pend (id j : Nat) (op : Hit → BufOp) (s : State) (l : Nat × List Hit) :
    (bufferFirst id op s l).crewPend j = s.crewPend j := by
  unfold bufferFirst
  split
  · split
    · exact buffer_pend ..
    · rfl
  · rfl

/-- HINT's advice for a line joins the queue of the agent's die. -/
def hintLine (sub : Nat) (w : Who) (mode : BitVec 40) (s : State) (la : Nat × Nat) : State :=
  match s.lineHit w la.2 mode with
  | (s, some x) =>
    let q := Tab.get s.pool.hints w.die [] ++ [.hint (x.pa / 65536) sub]
    { s with pool := { s.pool with hints := Tab.put s.pool.hints w.die q } }
  | (s, none) => s

theorem hintLine_quiet (sub : Nat) (w : Who) (mode : BitVec 40) (s : State) (la : Nat × Nat) :
    s.quiet id (hintLine sub w mode s la) := by
  have same := lineHit_same s w la.2 mode
  have crews := lineHit_crews s w la.2 mode
  unfold hintLine
  split <;> (rename_i h; rw [h] at same crews)
  · exact .trans (State.quiet_of_crews same crews) (State.quiet_of_crews ⟨.refl _, rfl, rfl⟩ rfl)
  · exact State.quiet_of_crews same crews

theorem hintLine_crews (sub : Nat) (w : Who) (mode : BitVec 40) (s : State) (la : Nat × Nat) :
    (hintLine sub w mode s la).crews = s.crews := by
  have crews := lineHit_crews s w la.2 mode
  unfold hintLine
  split <;> (rename_i h; rw [h] at crews; exact crews)

/-- A cache word that completes: where it leaves the crew, and what stays. -/
theorem cacheWord_quiet (H : InHeat s id n c h) {eff : Eff} {s' : State} (he : eff (s.setCrew id c) id c h = .ok (s', 0))
    (calm : s'.calm id) (q : (s.setCrew id c).quiet id s') :
    s.crewWord true eff = .next (s'.nextWord id 0) ∧ ∀ t, s.crewWord true eff = .next t →
      t.mem.scr = s.mem.scr ∧ t.mem.ext = s.mem.ext ∧ t.mem.peer = s.mem.peer ∧ ∀ k, k ≠ id → t.crew k = s.crew k := by
  have done := crewWord_next H he (admits_zero h) calm
  refine ⟨done, fun t ht => ?_⟩
  cases done.symm.trans ht
  obtain ⟨⟨⟨_, ext, peer, scr⟩, _, _⟩, others⟩ := ((setCrew_quiet s id c).trans q).trans (updCrew_quiet s' id _)
  exact ⟨scr, ext, peer, others⟩

/-- CFLUSH and CINV whose lines all pass buffer one operation for each line that a cache can hold. -/
theorem flushEff_ok {o : OpCache} (R : Readable c h (h.baseKeys o.k o.a) [] []) (deep : modeStore h.wrk.mode ≠ 0) (watched : Bool)
    {op : Nat → Bool → BufOp} {op' : Hit → BufOp}
    (hop : ∀ x : Hit, op' x = if x.sp = .pkg then op x.pa (x.cls == 0) else op (peerLine x.pa * 128) true)
    {r : State × List (Nat × LaneRes)} (hr : (cacheAddrs o c h).foldl (fun (x : State × List (Nat × LaneRes)) la =>
        let r := x.1.vaPlace (s.whoCrew id c) (lineAcc la.2 aRead h.wrk.mode)
          (if watched then c.com.watchFail { (lineAcc la.2 aRead h.wrk.mode) with k := aWrite } else none) false
        (r.1, x.2 ++ [(la.1, r.2)])) (s, []) = r)
    {ls : List (Nat × List Hit)} (done : laneOutcome true r.2 = .ok ls) :
    flushEff o watched op s id c h = .ok (ls.foldl (bufferFirst id op') r.1, 0) := by
  have buffered : ∀ (s : State) (l : Nat × List Hit), bufferFirst id op' s l = match l.2 with
      | x :: _ => if x.sp == .pkg then s.buffer id (op x.pa (x.cls == 0))
        else if x.sp == .peer then s.buffer id (op (peerLine x.pa * 128) true) else s
      | [] => s := by
    rintro s ⟨_, _ | ⟨x, _⟩⟩
    · rfl
    · simp only [bufferFirst, hop]
      by_cases pkg : x.sp = .pkg <;> simp [pkg]
  obtain rfl := hr
  simp only [flushEff, laneCheck_ok R, deep, if_false, done, funext fun s => funext (buffered s)] <;> rfl

/-- Settles O18: every line is translated alone, and what a word buffers stays in its own crew. -/
theorem cacheWordsComplete : Obligations.CacheWordsComplete := by
  unfold Obligations.CacheWordsComplete
  intro s id n c h o H R mode w s0 keep site shared same checked
  have passes : c.laneCheck h (h.baseKeys o.k o.a) [] [] true true = .ok () := laneCheck_ok R
  have checkedCalm : ∀ b, (checked b).1.calm id := fun b =>
    lineChecks_keep (P := fun s => s.calm id) (fun s a f => calm_of_pend (crewPend_of_crews (vaPlace_crews ..) id)) _ _ H.calm
  have checkedQuiet : ∀ b, s0.quiet id (checked b).1 := fun b =>
    lineChecks_keep (P := s0.quiet id) (fun s a f q => q.trans (vaPlace_quiet ..)) _ _ (.refl s0)
  have flushed : ∀ (b : Bool) (op : Nat → Bool → BufOp) (op' : Hit → BufOp) (ls : List (Nat × List Hit)),
      laneOutcome true (checked b).2 = .ok ls →
      (∀ x : Hit, op' x = if x.sp = .pkg then op x.pa (x.cls == 0) else op (peerLine x.pa * 128) true) → modeStore mode ≠ 0 →
      s.crewWord true (flushEff o b op) = .next ((ls.foldl (bufferFirst id op') (checked b).1).nextWord id 0) ∧
      same (s.crewWord true (flushEff o b op)) := fun b op op' ls done hop deep =>
    cacheWord_quiet H (flushEff_ok R deep b hop rfl done)
      (calm_of_pend (foldl_keep (g := fun s : State => s.crewPend id) _ (bufferFirst_pend id id op') ls _) (checkedCalm b))
      ((checkedQuiet b).trans (State.quiet_foldl (bufferFirst_quiet id op') ls _))
  refine ⟨fun scratch i hi wf => ?_, fun deep => ⟨fun wf => ?_, fun wf ls done => ?_, fun wf ls done => ?_, fun wf => ?_⟩⟩
  · simp only [List.mem_cons, List.not_mem_nil, or_false] at hi
    have passed : modeStore h.wrk.mode = 0 := scratch
    rcases hi with rfl | rfl | rfl | rfl
    · change s.crewWord (Instr.pref o).wf _ = _
      rw [wf]
      exact crewWord_next H (by simp only [passes, passed, if_true]; rfl) (admits_zero h) H.calm
    · change s.crewWord (Instr.cflush o).wf _ = _
      rw [wf]
      exact crewWord_next H (by simp only [flushEff, passes, passed, if_true]; rfl) (admits_zero h) H.calm
    · change s.crewWord (Instr.cinv o).wf _ = _
      rw [wf]
      exact crewWord_next H (by simp only [flushEff, passes, passed, if_true]; rfl) (admits_zero h) H.calm
    · change s.crewWord (Instr.hint o).wf _ = _
      rw [wf]
      exact crewWord_next H (by simp only [passes, passed, if_true]; rfl) (admits_zero h) H.calm
  · change s.crewWord (Instr.pref o).wf _ = _ ∧ same (s.crewWord (Instr.pref o).wf _)
    rw [wf]
    refine cacheWord_quiet H (by simp only [passes, if_neg (show ¬ modeStore h.wrk.mode = 0 from deep)]; rfl) ?_
      (State.quiet_foldl (fun s la => State.quiet_of_crews (prefLine_same ..) (prefLine_crews ..)) _ _)
    exact calm_of_pend (crewPend_of_crews (foldl_keep (g := State.crews) _ (prefLine_crews _ _ _) _ _) id) H.calm
  · change s.crewWord (Instr.cflush o).wf _ = _ ∧ same (s.crewWord (Instr.cflush o).wf _)
    rw [wf]
    exact flushed false _ (fun x => .flush (site x) (o.s == 1) (shared x)) ls done (fun x => by by_cases pkg : x.sp = .pkg <;> simp [site, shared, pkg]) deep
  · change s.crewWord (Instr.cinv o).wf _ = _ ∧ same (s.crewWord (Instr.cinv o).wf _)
    rw [wf]
    exact flushed true _ (fun x => .inval (site x)) ls done (fun x => by by_cases pkg : x.sp = .pkg <;> simp [site, pkg]) deep
  · change s.crewWord (Instr.hint o).wf _ = _ ∧ same (s.crewWord (Instr.hint o).wf _)
    rw [wf]
    refine cacheWord_quiet (s' := (cacheAddrs o c h).foldl (hintLine o.s.toNat w mode) s0) H
      (by simp only [passes, if_neg (show ¬ modeStore h.wrk.mode = 0 from deep)]; rfl) ?_
      (State.quiet_foldl (fun s la => hintLine_quiet ..) _ _)
    exact calm_of_pend (crewPend_of_crews (foldl_keep (g := State.crews) _ (hintLine_crews _ _ _) _ _) id) H.calm

end Sys2Proof.Machine
end

section
/-! SUPPORT. Atomic words (O19). -/

namespace Sys2Proof.Machine

variable {s s1 : State} {id n : Nat} {c : Crew} {h : Heat}

theorem laneCheck_formed {src dst other : List Nat} (R : Readable c h src dst other) {legal fmtOk : Bool} (hl : legal = true)
    (hf : fmtOk = true) : c.laneCheck h src dst other legal fmtOk = .ok () := by
  subst hl hf
  exact laneCheck_ok R

theorem exec_of_atomic {i : Instr} {a : AtomicWord} (hi : i.atomic = some a) (s : State) :
    exec i s = s.crewWord i.wf (atomicEff a.k a.d a.a a.o a.l.toNat a.n a.b) := by
  unfold Instr.atomic at hi
  split at hi <;> cases hi <;> rfl

theorem atomicPlaces_crews (s : State) (id : Nat) (c : Crew) (h : Heat) (as : List (Nat × Acc)) :
    (s.atomicPlaces id c h as).1.crews = s.crews := by
  unfold State.atomicPlaces
  dsimp only
  refine foldl_keep (g := fun (x : State × List (Nat × LaneRes)) => x.1.crews) _ (fun x la => ?_) as (s, [])
  dsimp only
  split
  · rfl
  · exact resolve_crews ..

theorem aopTaken_pend (s : State) (j : Nat) (ls : List (Nat × List Hit)) (id : Nat) :
    (s.aopTaken j ls).crewPend id = s.crewPend id := by
  unfold State.aopTaken
  split
  · exact updCrew_pend _ j (fun c => { c with aopBad := 0 }) (fun _ => rfl) _
  · rfl

/-- Old values read and new ones written lane by lane keep every crew. -/
theorem rmws_crews (w : Who) (sc k bytes : Nat) (f : AtLane → Nat → Nat) (ls : List AtLane) (x : State × List (Nat × Nat)) :
    (ls.foldl (fun (x : State × List (Nat × Nat)) l =>
      let (s, old) := x.1.rmw w sc k l.sp l.a bytes (f l)
      (s, x.2 ++ [(l.lane, old)])) x).1.crews = x.1.crews :=
  foldl_keep (g := fun (x : State × List (Nat × Nat)) => x.1.crews) _ (fun x l => rmw_crews x.1 w sc k l.sp l.a bytes (f l)) ls x

theorem atomicLanes_pend (s : State) (j : Nat) (w : Who) (op : AtOp) (bytes : Nat) (mode : BitVec 40) (ls : List AtLane) (id : Nat) :
    (s.atomicLanes j w op bytes mode ls).1.crewPend id = s.crewPend id := by
  have released : (if atRelease mode then s.releaseCrew j (modeScope mode) 3 else s).crewPend id = s.crewPend id := by
    split
    · exact releaseCrew_pend ..
    · rfl
  have performed := (crewPend_of_crews (rmws_crews w (modeScope mode) (modeCache mode) bytes
    (fun l v => op.apply bytes mode v l.d l.d2) ls (((if atRelease mode then s.releaseCrew j (modeScope mode) 3 else s).ownFirst w
      (ls.map (fun l => (l.sp, l.a)))), [])) id).trans ((ownFirst_pend _ w _ id).trans released)
  unfold State.atomicLanes
  dsimp only
  split
  · exact (crewPend_of_crews (acquireCrew_crews ..) id).trans performed
  · exact performed

/-- What an atomic that is no member of a group does once its lanes have their places: `q` holds its lanes and its mode, `g` what
its data met, `away` the lanes turned away. -/
def State.performAtomic (s : State) (id : Nat) (c : Crew) (q : QMember) (dst : List Nat) (la : Nat) (nr : Bool) (g : Got) (away : Nat → Bool) :
    Except Stop (State × Flags) :=
  match (q.slices.map resAtomic).find? (fun r => !s.admitted r id) with
  | some r => .error (.held ((s.refuseOnce r id).updCrew id (fun c => { c with wait := .ticket r 0 s.clock false })))
  | none =>
    let s := q.slices.foldl (fun s x => s.claim (resAtomic x) id) s
    if nr && modeUse q.mode == 1 && modeOrd q.mode == 0 && g.bad.isNone && q.lanes.all (fun l => l.sp == .pkg) then
      .ok (s.updCrew id (fun c => { c with later := c.later ++ [q] }), 0)
    else
      let (s, olds) := s.atomicLanes id (s.whoCrew id c) q.op q.bytes q.mode (q.lanes.filter (fun l => !away l.lane))
      if nr then (match g.bad with
        | some m => .error (s.metNow id m)
        | none => .ok (s, 0))
      else
        match s.emitLoad id (atResult dst q.mask q.tag (olds ++ (q.lanes.filter (fun l => away l.lane)).map (fun l => (l.lane, 0)))) la g with
        | .error st => .error st
        | .ok s => .ok (s, 0)

/-- A deferred atomic: it waits for the crew's next release. -/
def QMember.deferred (q : QMember) (nr : Bool) (g : Got) : Bool :=
  nr && modeUse q.mode == 1 && modeOrd q.mode == 0 && g.bad.isNone && q.lanes.all (fun l => l.sp == .pkg)

theorem find?_admitted {q : QMember} (room : ∀ x ∈ q.slices, s.admitted (resAtomic x) id = true) :
    (q.slices.map resAtomic).find? (fun r => !s.admitted r id) = none := by
  simpa [List.find?_eq_none] using room

theorem performAtomic_deferred {q : QMember} {dst : List Nat} {la : Nat} {nr : Bool} {g : Got} {away : Nat → Bool}
    (room : ∀ x ∈ q.slices, s.admitted (resAtomic x) id = true) (later : q.deferred nr g = true) :
    s.performAtomic id c q dst la nr g away =
      .ok ((q.slices.foldl (fun s x => s.claim (resAtomic x) id) s).updCrew id (fun c => { c with later := c.later ++ [q] }), 0) := by
  unfold State.performAtomic
  rw [find?_admitted room]
  exact if_pos later

/-- An atomic that is performed at once. -/
theorem performAtomic_now {q : QMember} {dst : List Nat} {la : Nat} {nr : Bool} {g : Got} {away : Nat → Bool}
    (room : ∀ x ∈ q.slices, s.admitted (resAtomic x) id = true) (now : ¬ q.deferred nr g = true)
    (clean : nr = true ∨ la = 0 → g.bad = none) {r : State × List (Nat × Nat)}
    (hr : (q.slices.foldl (fun s x => s.claim (resAtomic x) id) s).atomicLanes id
      ((q.slices.foldl (fun s x => s.claim (resAtomic x) id) s).whoCrew id c) q.op q.bytes q.mode
      (q.lanes.filter (fun l => !away l.lane)) = r) :
    s.performAtomic id c q dst la nr g away = .ok (if nr then r.1 else r.1.emitted id
      (g.seen (atResult dst q.mask q.tag (r.2 ++ (q.lanes.filter (fun l => away l.lane)).map (fun l => (l.lane, 0))))) la g, 0) := by
  unfold State.performAtomic
  rw [find?_admitted room]
  refine (if_neg now).trans ?_
  rw [hr]
  cases nr with
  | true => simp only [if_true, clean (.inl rfl)]
  | false => simp only [Bool.false_eq_true, if_false, emitLoad_seen _ _ _ (fun l0 => clean (.inr l0))]

/-- A QUANTUM atomic joins its group, with the place of its word. -/
def State.joinGroup (s : State) (id : Nat) (dst : List Nat) (m : QMember) : State :=
  s.updCrew id (fun c => match c.heat with
    | some h => { c with heat := some { h with dests := (h.dests ++ dst).eraseDups, group := h.group ++ [{ m with mask := c.lanes h, pc := (c.slot h.slot).pc, off := h.off }] } }
    | none => c)

/-- Settles O19: once its lanes have their places, an atomic joins its group, waits, or is performed. -/
theorem atomicWordsComplete : Obligations.AtomicWordsComplete := by
  unfold Obligations.AtomicWordsComplete
  intro s s1 id n c h i a ls hi wf H mode use m ks dst itag tag ordered round window ints floats R noK3 as hk away g lanes s1' s2 q s3 defers
  rw [exec_of_atomic hi, wf]
  have legal : ((modeUse h.wrk.mode != 4 || modeOrd h.wrk.mode == 0) && !(a.k.op == .fadd && (modeRnd h.wrk.mode).mode == rndSR)
      && !(modeUse h.wrk.mode == 3 && dst.any (fun x => decide (1024 ≤ x)))) = true := by
    simp only [Bool.and_eq_true, Bool.or_eq_true, bne_iff_ne, beq_iff_eq, Bool.not_eq_true', Bool.and_eq_false_iff, beq_eq_false_iff_ne,
      List.any_eq_false, decide_eq_true_eq, Nat.not_le]
    exact ⟨⟨Decidable.not_or_of_imp ordered, Decidable.not_or_of_imp round⟩, Decidable.not_or_of_imp window⟩
  have formats : ((!a.k.op.int || h.wrk.accepts itag ks)
      && (!(a.k.op == .fadd) || (modeFmt h.wrk.mode == (if a.k.bytes = 8 then fmtFP64 else fmtFP32) && h.wrk.accepts (modeFmt h.wrk.mode) ks))) = true := by
    simp only [Bool.and_eq_true, Bool.or_eq_true, Bool.not_eq_true', beq_iff_eq, beq_eq_false_iff_ne]
    exact ⟨(Bool.eq_false_or_eq_true _).symm.imp_right ints, Decidable.not_or_of_imp floats⟩
  have passes := laneCheck_formed R legal formats
  have placed : (s.setCrew id c).atomicPlaces id c h ((lanesIn (c.lanes h)).map (fun l => (l, (⟨addrOf (h.baseAt a.b a.a l) a.o.toNat a.k.bytes, a.k.bytes, aAtomic,
      modeStore h.wrk.mode, modeScope h.wrk.mode, a.k.bytes, false, !(a.k.k3 && (s.setCrew id c).port.aopcap.getLsbD (if a.k.bytes = 4 then 0 else if a.k.bytes = 8 then 1 else 2)), 0⟩ : Acc)))) = (s1, .ok ls) := hk
  have calm1 : s1'.calm id := by
    have crews := atomicPlaces_crews (s.setCrew id c) id c h as
    rw [hk] at crews
    exact calm_of_pend ((aopTaken_pend ..).trans (crewPend_of_crews crews id)) H.calm
  have calm2 : s2.calm id := by
    refine calm_of_pend ?_ calm1
    by_cases h4 : use = 4
    · simp only [s2, h4, if_true]
    · simp only [s2, h4, if_false, seal_pend]
  have calm3 : s3.calm id :=
    calm_of_pend (crewPend_of_crews (foldl_keep (g := State.crews) _ (fun s x => claim_crews s _ id) q.slices s2) id) calm2
  have effect : atomicEff a.k a.d a.a a.o a.l.toNat a.n a.b (s.setCrew id c) id c h =
      if (as.isEmpty && use == 3 && (decide (4 ≤ (h.members (modeQgrp mode)).length) || decide (5 ≤ modeScope mode))) = true then
        .error (.fault ⟨cSCOPE, 0, 0⟩ none)
      else if use = 3 then .ok (s2.joinGroup id dst { q with grp := modeQgrp mode, dest := dst }, 0)
      else s2.performAtomic id c q dst a.l.toNat a.n g away := by
    unfold atomicEff
    dsimp only
    rw [passes]
    dsimp only
    rw [placed]
    rfl
  have known : q.deferred a.n g = true ↔ g.bad = none ∧ defers := by
    unfold QMember.deferred
    simp only [Bool.and_eq_true, beq_iff_eq, Option.isNone_iff_eq_none, List.all_eq_true, defers, q]
    exact ⟨fun ⟨⟨⟨⟨h1, h2⟩, h3⟩, h4⟩, h5⟩ => ⟨h4, h1, h2, h3, h5⟩, fun ⟨h4, h1, h2, h3, h5⟩ => ⟨⟨⟨⟨h1, h2⟩, h3⟩, h4⟩, h5⟩⟩
  have lone : use ≠ 3 → atomicEff a.k a.d a.a a.o a.l.toNat a.n a.b (s.setCrew id c) id c h =
      s2.performAtomic id c q dst a.l.toNat a.n g away := fun other => by
    rw [effect, if_neg (by simp [other]), if_neg other]
  refine ⟨fun other room clean now => ?_, fun room good later => ?_, fun quantum limits => ?_⟩
  · have performed := atomicLanes_pend s3 id (s3.whoCrew id c) a.k.op a.k.bytes mode (lanes.filter (fun l => !away l.lane)) id
    refine crewWord_next H ((lone other).trans (performAtomic_now room (fun x => now (known.mp x).2) ?_ rfl)) (admits_zero h) ?_
    · exact fun x => clean (x.imp_right fun l0 => by simpa using (BitVec.toNat_inj (y := 0)).mp l0)
    · have calm4 := calm_of_pend performed calm3
      split
      · exact calm4
      · exact emitted_calm _ _ _ calm4
  · refine crewWord_next H ((lone ?_).trans (performAtomic_deferred room (known.mpr ⟨good, later⟩))) (admits_zero h) ?_
    · rw [later.2.1]; decide
    · exact calm_of_pend (updCrew_pend s3 id (fun c' => { c' with later := c'.later ++ [q] }) (fun _ => rfl) id) calm3
  · refine crewWord_next (s' := s2.joinGroup id dst { q with grp := modeQgrp mode, dest := dst }) H ?_ (admits_zero h) ?_
    · rw [effect, if_neg ?_, if_pos quantum]
      simp only [Bool.and_eq_true, List.isEmpty_iff, Bool.or_eq_true, decide_eq_true_eq]
      rintro ⟨⟨none, _⟩, full⟩
      have := limits none
      omega
    · refine calm_of_pend (updCrew_pend s2 id _ (fun c => ?_) id) calm2
      dsimp only
      split
      · rename_i e; simp [e]
      · rfl
end Sys2Proof.Machine
end

section
/-! SUPPORT. Words that engine contexts share with crews (O22), special values (O23), modes and hints (O24). -/

namespace Sys2Proof.Machine

variable {s : State} {id n k : Nat} {c : Crew} {h : Heat} {e : Eng}

-- Engine contexts (O22).

theorem Eng.setS_free {r : Nat} (free : ∀ p ∈ e.pend, p.reg ≠ r) (x : DWord) : e.setS r x = .ok (e.putS r x) := by
  have : e.pend.any (fun p => p.reg == r) = false := by simpa using free
  simp [Eng.setS, this]

theorem Eng.setLater_free {r : Nat} (free : ∀ p ∈ e.pend, p.reg ≠ r) (la : Nat) (x : DWord) (g : Got) :
    e.setLater r la x g = .ok (e.withResult r la x g) := by
  have : e.pend.any (fun p => p.reg == r) = false := by simpa using free
  unfold Eng.setLater Eng.withResult
  split
  · exact e.setS_free free x
  · simp [this]

/-- A word whose effect is on the context's own registers. -/
theorem sharedWord_own (H : InEngine s k e) {wf wfE : Bool} {eff : Eff} {kinds : Nat → Bool} {f : Eng → Except Stop Eng} {e' : Eng}
    (ok : (kinds (engKind k) && wfE) = true) (hf : f e = .ok e') :
    s.sharedWord wf eff kinds wfE (ownEff f) = .next ((s.setEng k e').nextEngWord k) :=
  sharedWord_eng H ok (by simp only [ownEff, hf])

/-- Settles O22: each word's effect is one write of the context's own state, or an access that passes. -/
theorem engineUniformWordsComplete : Obligations.EngineUniformWordsComplete := by
  unfold Obligations.EngineUniformWordsComplete
  intro s k e H put free
  refine ⟨fun i d f hi hd => ?_, fun o hd => ?_, ?_, fun i d f hi wf => ?_, fun o wf hd => ?_,
    fun d sel x hd hx => ?_, ?_, ?_, fun i m hm => ?_, fun i m hm => ?_, ?_, ?_⟩
  · rw [exec_of_uniform hi]
    exact sharedWord_own H rfl (e.setS_free hd _)
  · exact sharedWord_own H rfl (e.setS_free hd _)
  · intro cc o wf v
    change s.sharedWord _ _ kindAll (predDst o.d) _ = _
    exact sharedWord_own H wf rfl
  · rw [exec_of_predicate hi]
    exact sharedWord_own H wf rfl
  · change s.sharedWord _ _ kindAll (predOk o.a) _ = _
    exact sharedWord_own H wf (e.setS_free hd _)
  · refine ⟨s.freeCount + 1, ?_⟩
    have value : s.engSpecial k e sel.toNat = some x := by
      rcases hx with ⟨rfl, kind, rfl⟩ | ⟨rfl, rfl⟩ | ⟨rfl, rfl⟩
      · exact if_neg kind
      · rfl
      · rfl
    exact sharedWord_eng H rfl (by simp only [value, e.setS_free hd])
  · exact sharedWord_own H rfl rfl
  · exact sharedWord_own H rfl rfl
  · exact sharedWord_own H rfl (by rw [hm])
  · exact sharedWord_own H rfl (by rw [hm])
  · intro kind o sx z s1 ls ordered hd hk w r s2 g clean
    refine sharedWord_eng (s' := s2.setEng k _) H (by simp [kindM, kind]) ?_
    simp only [ordered, Bool.not_true, Bool.false_eq_true, if_false, hk]
    split
    · rename_i m bad
      cases clean.symm.trans bad
    · rw [e.setLater_free hd]
  · intro kind o z s1 ls ordered hk w s2
    refine sharedWord_eng H (by simp [kindM, kind]) ?_
    simp only [ordered, Bool.not_true, Bool.false_eq_true, if_false, hk]
    rfl

-- Special values (O23).

/-- A word that its own check refuses raises ILLEGAL. -/
theorem crewWord_refused (H : InHeat s id n c h) {eff : Eff} (he : eff (s.setCrew id c) id c h = .error stopIllegal) :
    s.crewWord true eff = .next ((s.setCrew id c).raise id n ⟨cILLEGAL, 0, 0⟩ none false) := crewWord_stop H he

/-- A crew whose lane 0 has exited and still stands in its slot's mask, at an SRD of ACTIVE. -/
def exitedRegs : Regs := { Regs.start with mode := 0, s := [] }
def exitedHeat : Heat := Heat.openAt 0 0 0xFFC exitedRegs
def exitedCrew : Crew := { Crew.fresh_ 1 0 0 32 8 0x1000 0 with com := exitedRegs, heat := some exitedHeat, exited := 1 }
def exitedId : Nat := crewKey 1 0 0
def exitedState : State := { State.reset.place 32 0 with turns := [], cur := .crew exitedId 0, crews := [(exitedId, exitedCrew)] }

/-- What a uniform register of the crew's open heat holds after a word. -/
def uniformAfter (d : Nat) : Host.Outcome State Fault Refusal → DWord
  | .next t => ((t.crew exitedId).bind (fun c => c.heat)).elim 0 (fun h => h.wrk.rdS d)
  | _ => 0

/-- Refutes O23: SEL 0x0F reads the slot's mask, and the statement takes the exited lanes out of it. A state where the mask
still holds an exited lane, which no hypothesis excludes, tells the two apart. -/
theorem not_specialValuesComplete : ¬ Obligations.SpecialValuesComplete := by
  unfold Obligations.SpecialValuesComplete
  intro holds
  have inHeat : InHeat exitedState exitedId 0 exitedCrew exitedHeat :=
    ⟨rfl, by decide +kernel, rfl, rfl, by decide +kernel, by decide +kernel, rfl, fun _ none => (nomatch none), by decide +kernel⟩
  have region : ∃ r, exitedState.region exitedCrew.rk = some r := Option.isSome_iff_exists.mp (by decide +kernel)
  have team : ∃ t, exitedState.team exitedCrew.rk exitedCrew.team = some t := Option.isSome_iff_exists.mp (by decide +kernel)
  obtain ⟨r, hr⟩ := region
  obtain ⟨t, ht⟩ := team
  have readable : Readable exitedCrew exitedHeat [] [] [nameS 3] :=
    ⟨fun _ none => (nomatch none), fun _ none => (nomatch none), by decide +kernel, fun _ none => (nomatch none), by decide +kernel,
      fun _ none => (nomatch none), by decide +kernel, by decide +kernel⟩
  have active : ∀ (s : State) (id n : Nat) (c : Crew) (h : Heat) (d : BitVec 5), InHeat s id n c h → s.region c.rk = some r →
      s.team c.rk c.team = some t → Readable c h [] [] [nameS d] → exec (.srd d 0 0x0F) s =
        .next (s.afterWord id c h 0 [] [.s d.toNat (BitVec.ofNat 64 ((c.slot n).mask &&& ~~~c.exited).toNat)] 0 none) :=
    fun s id n c h d H hr ht R => (holds s id n c h r t d 0x0F H hr ht).1 R (by decide)
  have stated : uniformAfter 3 (exec (.srd 3 0 0x0F) exitedState) = 0xFFFFFFFE := by
    have value : BitVec.ofNat 64 ((exitedCrew.slot 0).mask &&& ~~~exitedCrew.exited).toNat = 0xFFFFFFFE := by decide +kernel
    rw [active _ _ _ _ _ 3 inHeat hr ht readable, value]
    decide +kernel
  have modelled : uniformAfter 3 (exec (.srd 3 0 0x0F) exitedState) = 0xFFFFFFFF := by decide +kernel
  exact absurd (stated.symm.trans modelled) (by decide)

-- Modes and hints (O24).

/-- A word that changes its open heat alone. -/
theorem sharedWord_heat (H : InHeat s id n c h) {f : Crew → Heat → Except Stop Heat} {kinds : Nat → Bool} {wfE : Bool} {effE : EngEff}
    {h' : Heat} (hf : f c h = .ok h') (windows : h'.pend = h.pend) :
    s.sharedWord true (heatEff f) kinds wfE effE = .next ((s.setCrew id { c with heat := some h' }).nextWord id 0) := by
  rw [sharedWord_crew H]
  refine crewWord_next H (s' := s.setCrew id { c with heat := some h' }) ?_ (admits_zero h) ?_
  · simp only [heatEff, hf, State.setCrew_setCrew]
  · intro ps hp
    simp only [State.crewPend, State.crew_setCrew_same, Option.bind_some, Option.map_some, Option.some.injEq] at hp
    exact hp ▸ windows ▸ H.windows

/-- A word whose heat effect is refused. -/
theorem sharedWord_heatRefused (H : InHeat s id n c h) {f : Crew → Heat → Except Stop Heat} {kinds : Nat → Bool} {wfE : Bool}
    {effE : EngEff} (hf : f c h = .error stopIllegal) :
    s.sharedWord true (heatEff f) kinds wfE effE = .next ((s.setCrew id c).raise id n ⟨cILLEGAL, 0, 0⟩ none false) := by
  rw [sharedWord_crew H]
  exact crewWord_refused H (by simp only [heatEff, hf])

/-- The low 20 bits and the others, as masks. -/
theorem lowMask_bits : ∀ b < 20, (0xFFFFF#40).getLsbD b = true ∧ (0xFFFFF#40).getLsbD (20 + b) = false ∧
    (~~~(0xFFFFF#40)).getLsbD b = false ∧ (~~~(0xFFFFF#40)).getLsbD (20 + b) = true := by decide

theorem newMode_low {i : BitVec 20} {m m' : BitVec 40} (hm : newMode true i m = some m') :
    m'.extractLsb' 0 20 = i ∧ m'.extractLsb' 20 20 = m.extractLsb' 20 20 := by
  simp only [newMode, if_true] at hm
  split at hm
  · cases hm
  · cases hm
    constructor <;> (ext b hb; obtain ⟨_, _, low, high⟩ := lowMask_bits b hb)
    · simp only [BitVec.getElem_extractLsb', Nat.zero_add, BitVec.getLsbD_or, BitVec.getLsbD_and, low]
      simp [hb, show b < 40 by omega]
    · simp [-BitVec.reduceNot, high]

theorem newMode_high {i : BitVec 20} {m m' : BitVec 40} (hm : newMode false i m = some m') :
    m'.extractLsb' 20 20 = i ∧ m'.extractLsb' 0 20 = m.extractLsb' 0 20 := by
  simp only [newMode, Bool.false_eq_true, if_false] at hm
  split at hm
  · cases hm
  · cases hm
    constructor <;> (ext b hb; obtain ⟨low, high, _, _⟩ := lowMask_bits b hb)
    · simp only [BitVec.getElem_extractLsb', BitVec.getLsbD_or, BitVec.getLsbD_and, high]
      simp [hb, show 20 + b < 40 by omega]
    · simp [low, hb]

/-- Settles O24: each word changes its open heat alone. -/
theorem hintAndModeWordsComplete : Obligations.HintAndModeWordsComplete := by
  unfold Obligations.HintAndModeWordsComplete
  intro s id n c h H put illegal
  refine ⟨sharedWord_heat H rfl rfl, sharedWord_heat H rfl rfl, fun i => ?_, fun i => ?_, fun i m m' hm => ?_, fun i m m' hm => ?_,
    fun outside => sharedWord_heatRefused H (if_pos outside), fun inside => sharedWord_heat H (if_neg inside) rfl⟩
  · split
    · rename_i m hm
      exact sharedWord_heat H (by rw [hm]) rfl
    · rename_i hm
      exact sharedWord_heatRefused H (by rw [hm])
  · split
    · rename_i m hm
      exact sharedWord_heat H (by rw [hm]) rfl
    · rename_i hm
      exact sharedWord_heatRefused H (by rw [hm])
  · exact newMode_low hm
  · exact newMode_high hm

end Sys2Proof.Machine
end

section
/-! SUPPORT. Barrier words (O25, O26), strikes and monitored waits (O27). -/

namespace Sys2Proof.Machine

variable {s s1 : State} {id n w : Nat} {c : Crew} {h : Heat}

-- What events on barrier words leave of the crews.

theorem putBar_crews (s : State) (w : Nat) (b : BarW) (all : Bool) : (s.putBar w b all).crews = s.crews := by
  unfold State.putBar
  dsimp only
  repeat' split
  all_goals rfl

theorem putBar_others (s : State) (w : Nat) (b : BarW) (all : Bool) :
    (s.putBar w b all).mem.pkg = s.mem.pkg ∧ (s.putBar w b all).mem.ext = s.mem.ext ∧ (s.putBar w b all).mem.peer = s.mem.peer := by
  unfold State.putBar
  dsimp only
  repeat' split
  all_goals exact ⟨rfl, rfl, rfl⟩

theorem wakeWord_pend (s : State) (w id : Nat) : (s.wakeWord w).crewPend id = s.crewPend id := by
  refine mapCrews_pend s _ (fun kv => ?_) (fun kv => ?_) id
  all_goals
    dsimp only
    split
    · split <;> rfl
    · rfl

theorem barEvent_pend (s : State) (w : Nat) (b : BarW) (id : Nat) : (s.barEvent w b).crewPend id = s.crewPend id := by
  unfold State.barEvent
  dsimp only
  split
  · exact (wakeWord_pend ..).trans (crewPend_of_crews (putBar_crews ..) id)
  · exact crewPend_of_crews (putBar_crews ..) id

theorem arrival_pend {va add g : Nat} (ha : s.arrival id c va add = .ok (s1, w, g)) : s1.crewPend id = s.crewPend id := by
  unfold State.arrival at ha
  dsimp only at ha
  split at ha
  · cases ha
  · split at ha
    · cases ha
    · split at ha
      · cases ha
      · cases ha
        exact (barEvent_pend ..).trans ((releaseCrew_pend ..).trans (seal_pend ..))

/-- A uniform result without an error of its data enters the heat. -/
theorem emitS_ok (s : State) (id : Nat) (d : BitVec 5) (x la : Nat) :
    s.emitS id d x la = .ok (s.emitted id [.s d.toNat (BitVec.ofNat 64 x)] la .clean, 0) := by
  simp only [State.emitS, emitLoad_good _ _ _ _ .clean rfl]

-- Barrier words (O25).

theorem claim_ungranted {r : Nat} (hg : s.granted r id = false) : s.claim r id = s := by
  simp [State.claim, hg]

/-- The compare of a wait that stands nowhere, on a word of a past generation. -/
theorem waitWord_passed {tok va : Nat} {bar : Bool} {limit : Option Nat}
    (hg : s.granted (resBarrier (s.coreOf c / 96)) id = false) (low : 1 ≤ (s.bar w).bsc) (high : (s.bar w).bsc ≤ 4)
    (past : (s.bar w).gen ≠ tok) : s.waitWord id c w tok limit bar va =
      .ok (s.acquireCrew id (max (s.bar w).bsc (Tab.get s.mem.lowered w 0)) 3, 0) := by
  have legal : ((s.bar w).bsc == 0 || decide (5 ≤ (s.bar w).bsc)) = false := by
    simp only [Bool.or_eq_false_iff, beq_eq_false_iff_ne, decide_eq_false_iff_not]; omega
  simp [State.waitWord, State.wakeAcquire, legal, claim_ungranted hg, hg, past]

/-- The same on a word of the present generation, with a limit of 0. -/
theorem waitWord_late (hw : c.wait = .none) {tok va : Nat} {bar : Bool}
    (hg : s.granted (resBarrier (s.coreOf c / 96)) id = false) (low : 1 ≤ (s.bar w).bsc) (high : (s.bar w).bsc ≤ 4)
    (now : (s.bar w).gen = tok) : s.waitWord id c w tok (some 0) bar va = .ok (s, 1) := by
  have legal : ((s.bar w).bsc == 0 || decide (5 ≤ (s.bar w).bsc)) = false := by
    simp only [Bool.or_eq_false_iff, beq_eq_false_iff_ne, decide_eq_false_iff_not]; omega
  simp [State.waitWord, State.overLimit, hw, legal, claim_ungranted hg, hg, now]

theorem waitAt_place (hw : c.wait = .none) {va k tok : Nat} {limit : Option Nat} {bar : Bool}
    (hp : s.barPlace (s.siteCrew id c) va k = .ok w) : s.waitAt id c va k tok limit bar = s.waitWord id c w tok limit bar va := by
  simp [State.waitAt, State.waitAgain, hw, hp]

/-- Settles O25: every event and acquire leaves the windows alone. -/
theorem barrierWordsComplete : Obligations.BarrierWordsComplete := by
  unfold Obligations.BarrierWordsComplete
  intro s s1 id n c h w g H hw s0 tok acq unreserved
  have acqCalm : ∀ (t : State) (sc : Nat), t.calm id → (acq t sc).calm id := fun t sc ht =>
    calm_of_pend (crewPend_of_crews (acquireCrew_crews ..) id) ht
  refine ⟨?_, fun o R => ⟨fun (ha : (s.setCrew id c).arrival ..= _) => ?_, fun (ha : (s.setCrew id c).arrival .. = _) => ?_⟩, ?_, ?_, ?_⟩
  · intro o R aligned low high hp v b zero idle fresh t
    refine crewWord_next H (s' := ({ t with mem := { t.mem with lowered := Tab.del t.mem.lowered w } } : State).putBar w _ true) ?_
      (admits_zero h) (calm_of_pend ((crewPend_of_crews (putBar_crews ..) id).trans (seal_pend s0 id id)) H.calm)
    have placed : (s.setCrew id c).barPlace ((s.setCrew id c).siteCrew id c) (barAddr h o.a o.o) aWrite = .ok w := hp
    have scope : (modeScope h.wrk.mode == 0 || decide (5 ≤ modeScope h.wrk.mode)) = false := by
      simp only [Bool.or_eq_false_iff, beq_eq_false_iff_ne, decide_eq_false_iff_not]; omega
    have free : ¬ ((decide (3 ≤ modeScope h.wrk.mode) && (h.wrk.rdS o.d.toNat).toNat != 0) || ((s.setCrew id c).seal id |>.bar w).wait != 0
        || ((s.setCrew id c).seal id |>.bar w).arr != 0) = true := by
      simp only [Bool.or_eq_true, Bool.and_eq_true, decide_eq_true_eq, bne_iff_ne, not_or, not_and, ne_eq, Classical.not_not]
      exact ⟨⟨zero, idle⟩, fresh⟩
    simp only [check_ok R, scope, Bool.and_false, Bool.false_eq_true, if_false, placed, if_neg free] <;> rfl
  · refine crewWord_next H ?_ (admits_zero h) (emitted_calm _ _ _ (calm_of_pend (arrival_pend ha) H.calm))
    simp only [arriveEff, check_ok R, Bool.false_eq_true, if_false, ha, emitS_ok]
  · refine crewWord_next H ?_ (admits_zero h) (emitted_calm _ _ _ (calm_of_pend (arrival_pend ha) H.calm))
    simp only [arriveEff, check_ok R, if_true, ha, emitS_ok]
  · intro o R hp free b low high past
    have placed : (s.setCrew id c).barPlace ((s.setCrew id c).siteCrew id c) (barAddr h o.a o.o) aRead = .ok w := hp
    have passed : ∀ limit bar va, (s.setCrew id c).waitWord id c w (fieldOf (h.wrk.rdS o.d.toNat) 0 32) limit bar va =
        .ok (acq s0 b.bsc, 0) := fun _ _ _ => waitWord_passed free low high past
    refine crewWord_next H (s' := acq s0 b.bsc) ?_ (admits_zero h) (acqCalm _ _ H.calm)
    simp only [check_ok R, waitAt_place hw placed, passed]
  · intro o R hp free b low high
    have placed : (s.setCrew id c).barPlace ((s.setCrew id c).siteCrew id c) (barAddr h o.a o.o) aRead = .ok w := hp
    refine ⟨fun past => ?_, fun now zero => ?_⟩
    · have passed : ∀ limit bar va, (s.setCrew id c).waitWord id c w (fieldOf (h.wrk.rdS o.d.toNat) 0 32) limit bar va =
          .ok (acq s0 b.bsc, 0) := fun _ _ _ => waitWord_passed free low high past
      refine crewWord_next H (s' := (acq s0 b.bsc).emitted id _ o.l.toNat .clean) ?_ (admits_zero h)
        (emitted_calm _ _ _ (acqCalm _ _ H.calm))
      simp only [check_ok R, waitAt_place hw placed, passed, emitS_ok] <;> rfl
    · have late : (s.setCrew id c).waitWord id c w (fieldOf (h.wrk.rdS o.d.toNat) 0 32) (some 0) false (barAddr h o.a o.o) =
          .ok (s0, 1) := waitWord_late hw free low high now
      refine crewWord_next H (s' := s0.emitted id _ o.l.toNat .clean) ?_ (admits_zero h) (emitted_calm _ _ _ H.calm)
      simp only [check_ok R, waitAt_place hw placed, zero, late, emitS_ok] <;> rfl
  · intro a o R (ha : (s.setCrew id c).arrival .. = _) free b low high past
    refine crewWord_next H (s' := acq s1 b.bsc) ?_ (admits_zero h) (acqCalm _ _ (calm_of_pend (arrival_pend ha) H.calm))
    simp only [check_ok R, hw, ha, waitWord_passed free low high past] <;> rfl

-- Events on barrier words (O26).

/-- The fields of a barrier word, each in its range. -/
structure BarW.Fits (b : BarW) : Prop where
  arr : b.arr < 2 ^ 16
  exp : b.exp < 2 ^ 16
  gen : b.gen < 2 ^ 32
  pend : b.pend < 2 ^ 48
  pendn : b.pendn < 2 ^ 48
  pexp : b.pexp < 2 ^ 48
  wait : b.wait < 2 ^ 16
  bsc : b.bsc < 2 ^ 3

theorem BarW.num_lt {b : BarW} (F : b.Fits) : b.num < 2 ^ (8 * 64) := by
  obtain ⟨h1, h2, h3, h4, h5, h6, h7, h8⟩ := F
  simp only [BarW.num]
  omega

theorem BarW.ofNum_num {b : BarW} (F : b.Fits) : BarW.ofNum b.num = b := by
  obtain ⟨h1, h2, h3, h4, h5, h6, h7, h8⟩ := F
  obtain ⟨arr, exp, gen, pend, pendn, pexp, wait, bsc⟩ := b
  simp only [BarW.ofNum, BarW.num, bits, Nat.shiftRight_eq_div_pow, BarW.mk.injEq] at *
  refine ⟨?_, ?_, ?_, ?_, ?_, ?_, ?_, ?_⟩ <;> omega

/-- Bytes put at an offset, place by place. -/
theorem get_foldl_puts (v : Nat → Byte) (a : Nat) (l : List Nat) {m : Memory} (hm : Memory.wf m = true) (x : Nat) :
    Memory.get ((l.map (fun i => (a + i, v i))).foldl (fun g kv => Memory.put g kv.1 kv.2) m) x =
      if a ≤ x ∧ x - a ∈ l then v (x - a) else Memory.get m x := by
  induction l generalizing m with
  | nil => simp
  | cons i r ih =>
    rw [List.map_cons, List.foldl_cons, ih (Memory.wf_put _ _ _ hm), Memory.get_put _ _ _ _ hm]
    by_cases hr : a ≤ x ∧ x - a ∈ r
    · rw [if_pos hr, if_pos ⟨hr.1, List.mem_cons_of_mem _ hr.2⟩]
    · rw [if_neg hr]
      by_cases hx : x = a + i
      · subst hx
        simp
      · rw [if_neg hx, if_neg]
        rintro ⟨low, inside⟩
        rcases List.mem_cons.mp inside with rfl | inside
        · omega
        · exact hr ⟨low, inside⟩

theorem barBytes_scr (hw : w < imgBase) : s.barBytes w = Memory.getBytes s.mem.scr w 64 := if_pos hw

/-- Bytes of a word that differ from its new ones. -/
def State.barChanged (s : State) (w : Nat) (b : BarW) : List Nat :=
  (List.range 64).filter (fun i => (s.barBytes w).getD i 0 != (leOf 64 b.num).getD i 0)

theorem getD_getBytes (m : Memory) (a : Nat) {i n : Nat} (hi : i < n) : (Memory.getBytes m a n).getD i 0 = Memory.get m (a + i) := by
  simp [Memory.getBytes, List.getD_eq_getElem?_getD, hi]

theorem putBar_get (b : BarW) (hw : w < imgBase) (hm : Memory.wf s.mem.scr = true) (x : Nat) :
    Memory.get (s.putBar w b false).mem.scr x =
      if w ≤ x ∧ x < w + 64 then (leOf 64 b.num).getD (x - w) 0 else Memory.get s.mem.scr x := by
  have written : (s.putBar w b false).mem.scr = ((s.barChanged w b).map (fun i => (w + i, (leOf 64 b.num).getD i 0))).foldl
      (fun g kv => Memory.put g kv.1 kv.2) s.mem.scr := by
    simp only [State.putBar, hw, if_true, Bool.false_and, Bool.false_or]
    rfl
  rw [written, get_foldl_puts (fun i => (leOf 64 b.num).getD i 0) w _ hm]
  by_cases hx : w ≤ x ∧ x < w + 64
  · rw [if_pos hx]
    split
    · rfl
    · rename_i same
      have old : (s.barBytes w).getD (x - w) 0 = (leOf 64 b.num).getD (x - w) 0 := by
        refine Classical.byContradiction fun differs => ?_
        exact same ⟨hx.1, by simp only [State.barChanged, List.mem_filter, List.mem_range, bne_iff_ne]; exact ⟨by omega, differs⟩⟩
      rw [← old, barBytes_scr hw, getD_getBytes _ _ (by omega), Nat.add_sub_cancel' hx.1]
  · rw [if_neg hx, if_neg]
    rintro ⟨low, changed⟩
    have := List.mem_range.mp ((List.mem_filter.1 changed).1)
    omega

/-- A word of scratch reads the fields written to it. -/
theorem bar_putBar {b : BarW} (F : b.Fits) (hw : w < imgBase) (hm : Memory.wf s.mem.scr = true) : (s.putBar w b false).bar w = b := by
  have bytes : (s.putBar w b false).barBytes w = leOf 64 b.num := by
    rw [barBytes_scr hw]
    refine List.ext_getElem (by simp [Memory.getBytes, length_leOf]) fun i h₁ h₂ => ?_
    have hi : i < 64 := by simpa [length_leOf] using h₂
    rw [← getD_of_lt _ 0, ← getD_of_lt _ 0, getD_getBytes _ _ hi, putBar_get b hw hm,
      if_pos (by omega), Nat.add_sub_cancel_left]
  rw [State.bar, bytes, leNat_leOf, Nat.mod_eq_of_lt (BarW.num_lt F), BarW.ofNum_num F]

/-- What the test after an event leaves of a word. -/
theorem BarW.test_pos {b : BarW} (h : (b.bsc = 1 ∨ b.bsc = 2) ∧ b.exp ≤ b.arr ∧ b.pend = 0) :
    b.test = ({ b with gen := (b.gen + 1) % 2 ^ 32, arr := b.arr - b.exp, pend := (b.pexp + b.pendn) % 2 ^ 48, pendn := 0 }, true) :=
  if_pos (by simpa [and_assoc] using h)

theorem BarW.test_neg {b : BarW} (h : ¬((b.bsc = 1 ∨ b.bsc = 2) ∧ b.exp ≤ b.arr ∧ b.pend = 0)) : b.test = (b, false) :=
  if_neg (by simpa [and_assoc] using h)

theorem BarW.test_fits {b : BarW} (F : b.Fits) : b.test.1.Fits := by
  unfold BarW.test
  split
  · exact ⟨Nat.lt_of_le_of_lt (Nat.sub_le ..) F.arr, F.exp, Nat.mod_lt _ (by decide), Nat.mod_lt _ (by decide), Nat.two_pow_pos 48, F.pexp, F.wait, F.bsc⟩
  · exact F

theorem barEvent_mem (s : State) (w : Nat) (b : BarW) : (s.barEvent w b).mem = (s.putBar w b.test.1 false).mem := by
  unfold State.barEvent
  dsimp only
  split <;> rfl

theorem bar_of_mem {t : State} (h : t.mem = s.mem) (hw : w < imgBase) : t.bar w = s.bar w := by
  simp only [State.bar, barBytes_scr hw, h]

/-- A crew after an update of every crew that keeps the keys. -/
theorem find_map_crews (f : Nat × Crew → Nat × Crew) (hk : ∀ kv, (f kv).1 = kv.1) (l : Tab Crew) (k : Nat) :
    Tab.find (l.map f) k = (Tab.find l k).map (fun c => (f (k, c)).2) := by
  induction l with
  | nil => rfl
  | cons kv r ih =>
    obtain ⟨j, c⟩ := kv
    have key := hk (j, c)
    simp only [List.map_cons, Tab.find, key]
    by_cases hj : j = k
    · subst hj
      simp
    · simp [hj, ih]

/-- Every waiter of the word is woken. -/
theorem wakeWord_waiter {k g t0 : Nat} {bar : Bool} (hc : s.crew k = some c) (hw : c.wait = .barrier w g t0 bar) :
    (s.wakeWord w).crew k = some { c with wait := .barrier w (2 ^ 32) t0 bar } := by
  have := find_map_crews (fun kv => match kv.2.wait with
    | .barrier w' _ t b => if w' = w then (kv.1, { kv.2 with wait := .barrier w' (2 ^ 32) t b }) else kv
    | _ => kv) (fun kv => by
      dsimp only
      split
      · split <;> rfl
      · rfl) s.crews k
  rw [show Tab.find s.crews k = some c from hc] at this
  refine Eq.trans this ?_
  simp [hw]

/-- Settles O26: the written bytes of a word are the fields that the test leaves. -/
theorem barrierEventsRelease : Obligations.BarrierEventsRelease := by
  unfold Obligations.BarrierEventsRelease
  refine ⟨fun s k e mode w n gen => ?_, ?_⟩
  · intro s1 s2 b
    have lowered : s.lowerWord k e mode w n gen = match s2.barLower w n gen with
        | (s', true) => (s', none)
        | (_, false) => (s1, some ⟨cACCESS, 0, 0⟩) := rfl
    refine ⟨fun now => ?_, fun past next => ?_, fun past other => ?_⟩
    · rw [lowered, show s2.barLower w n gen = _ from if_pos now]
      rfl
    · rw [lowered, show s2.barLower w n gen = _ from (if_neg past).trans (if_pos next)]
      rfl
    · rw [lowered, show s2.barLower w n gen = _ from (if_neg past).trans (if_neg other)]
  · intro s w b hw hm h1 h2 h3 h4 h5 h6 h7 h8 t
    have F : b.Fits := ⟨h1, h2, h3, h4, h5, h6, h7, h8⟩
    have written : t.bar w = b.test.1 := by
      rw [bar_of_mem (barEvent_mem s w b) hw, bar_putBar (BarW.test_fits F) hw hm]
    refine ⟨fun done => ⟨?_, fun k c g t0 bar hc wait => ?_⟩, fun open_ => ⟨?_, ?_⟩, fun x hx => ?_, ?_, ?_, ?_⟩
    · rw [written, BarW.test_pos done]
    · refine ⟨{ c with wait := .barrier w (2 ^ 32) t0 bar }, ?_, rfl⟩
      simp only [t, State.barEvent, BarW.test_pos done, if_true]
      exact wakeWord_waiter (by simpa only [State.crew, putBar_crews] using hc) wait
    · rw [written, BarW.test_neg open_]
    · simp only [t, State.barEvent, BarW.test_neg open_, Bool.false_eq_true, if_false, putBar_crews]
    · rw [barEvent_mem, putBar_get _ hw hm, if_neg (by omega)]
    · rw [barEvent_mem, (putBar_others ..).1]
    · rw [barEvent_mem, (putBar_others ..).2.1]
    · rw [barEvent_mem, (putBar_others ..).2.2]

-- Strikes and monitored waits (O27).

theorem updRegion_crews (s : State) (rk : Nat) (f : Region → Region) : (s.updRegion rk f).crews = s.crews := by
  unfold State.updRegion
  split <;> rfl

theorem strikeCheck_crews (s : State) (rk : Nat) : (s.strikeCheck rk).crews = s.crews := by
  unfold State.strikeCheck
  split
  · rfl
  · split
    · rfl
    · refine foldl_keep (g := State.crews) _ (fun s kv => ?_) _ s
      dsimp only
      split
      · rfl
      · split
        · rfl
        · exact updRegion_crews ..

theorem monitorRead_crews (s : State) (w : Who) (scope : Nat) (x : Hit) (n : Nat) : (s.monitorRead w scope x n).1.crews = s.crews := by
  unfold State.monitorRead
  split <;> rfl

/-- Settles O27: each check of the word passes in turn. -/
theorem strikeAndMonitorWordsComplete : Obligations.StrikeAndMonitorWordsComplete := by
  unfold Obligations.StrikeAndMonitorWordsComplete
  intro s id n c h H hw s0
  refine ⟨?_, ?_⟩
  · intro o w r t R va sc legal hp hr ht inst i s1 own scope agreed fresh idle word s2
    have calm2 : s2.calm id := calm_of_pend ((crewPend_of_crews (updRegion_crews ..) id).trans
      ((releaseCrew_pend ..).trans (seal_pend ..))) H.calm
    refine crewWord_next H (s' := (s2.emitted id [.s o.d.toNat (BitVec.ofNat 64 i.gen)] 0 .clean).strikeCheck c.rk) ?_ (admits_zero h)
      (calm_of_pend (crewPend_of_crews (strikeCheck_crews ..) id) (emitted_calm _ _ _ calm2))
    have place : (s.setCrew id c).barPlace ((s.setCrew id c).siteCrew id c) (h.wrk.rdS o.a.toNat).toNat aAtomic = .ok w := hp
    have region : (s.setCrew id c).region c.rk = some r := hr
    have team : (s.setCrew id c).team c.rk c.team = some t := ht
    have level : ¬ ((h.wrk.rdS o.a.toNat).toNat % 64 = 0 && !(modeScope h.wrk.mode == 3 || modeScope h.wrk.mode == 4)) = true := by
      rcases legal with h3 | h3 <;> simp [show modeScope h.wrk.mode = _ from h3]
    have mine : ¬ ((s.setCrew id c).teamAt c.rk w != some c.team) = true := by simpa using own
    have scopes : ¬ ((((s.setCrew id c).seal id).bar w).bsc != modeScope h.wrk.mode || (match r.strikeScope with
        | some x => x != modeScope h.wrk.mode
        | none => false)) = true := by
      simp only [Bool.or_eq_true, bne_iff_ne, ne_eq, not_or, Classical.not_not]
      refine ⟨scope, ?_⟩
      split
      · rename_i y hy
        simpa using agreed y hy
      · simp
    have done : ¬ (!(((s.setCrew id c).seal id).crewEntries c |>.filter ((s.setCrew id c).seal id).entryPending).isEmpty) = true := by
      simpa using idle
    have first : ¬ ((Tab.get r.strikes ((s.setCrew id c).strikeInst c (modeScope h.wrk.mode)) ⟨0, [], []⟩).struck.contains id) = true := by
      simpa using fresh
    simp only [check_ok R, if_neg level, place, region, team, if_neg mine, if_neg first, hw]
    refine (if_neg scopes).trans ((if_neg done).trans ?_)
    simp only [emitS_ok] <;> rfl
  · intro o wd s1 ls R mode m va a w ordered device window hk x inner r s2 g differs clean
    have calm2 : s2.calm id := calm_of_pend (crewPend_of_crews ((loadAcquire_crews ..).trans (monitorRead_crews ..)) id) (H.checked_calm hk)
    have checked : (s.setCrew id c).checkLanes ((s.setCrew id c).whoCrew id c) ((s.setCrew id c).siteCrew id c) c.com.watchFail false
        [(0, ⟨addrOf (h.wrk.rdS o.a.toNat).toNat o.o.toNat (if wd then 8 else 4), if wd then 8 else 4, aRead, modeStore h.wrk.mode,
          modeScope h.wrk.mode, if wd then 8 else 4, false, false, 2⟩)] = (s1, .ok ls) := hk
    have inDevice : (modeStore h.wrk.mode == 2) = false := by simpa using device
    refine crewWord_next H (s' := s2.emitted id (g.seen [.s o.d.toNat (BitVec.ofNat 64 r.2.2)]) o.l.toNat g) ?_ (admits_zero h)
      (emitted_calm _ _ _ calm2)
    have inWindow : ¬ (decide (addrOf (h.wrk.rdS o.a.toNat).toNat o.o.toNat (if wd then 8 else 4) % (if wd then 8 else 4) = 0)
        && modeStore h.wrk.mode == 0 && addrOf (h.wrk.rdS o.a.toNat).toNat o.o.toNat (if wd then 8 else 4) / 2 ^ 24 == 0xFF) = true := by
      simp only [Bool.and_eq_true, beq_iff_eq, not_and]
      exact fun low => window low.2
    have passes : c.check h [] [] [nameS o.d] (loadOrd h.wrk.mode) true = .ok () := by
      rw [show loadOrd h.wrk.mode = true from ordered]
      exact check_ok R
    have internal : ¬ (match x.sp with
        | .ext _ _ => true
        | _ => false) = true := by
      split
      · rename_i k3 d e
        exact absurd e (inner k3 d)
      · simp
    have seen : s2.emitLoad id [.s o.d.toNat (BitVec.ofNat 64 r.2.2)] o.l.toNat g =
        .ok (s2.emitted id (g.seen [.s o.d.toNat (BitVec.ofNat 64 r.2.2)]) o.l.toNat g) :=
      emitLoad_seen _ _ _ (fun l0 => clean (by simpa using (BitVec.toNat_inj (y := 0)).mp l0))
    simp only [passes, inDevice, Bool.and_false, Bool.false_eq_true, if_false, if_neg inWindow, checked, hw]
    refine (if_neg internal).trans ((if_pos (bne_iff_ne.mpr differs)).trans ?_)
    have finish : ∀ y, s2.emitLoad id [.s o.d.toNat (BitVec.ofNat 64 r.2.2)] o.l.toNat g = .ok y →
        (match s2.emitLoad id [.s o.d.toNat (BitVec.ofNat 64 r.2.2)] o.l.toNat g with
        | .error e => (.error e : Except Stop (State × Flags))
        | .ok s => .ok (s, 0)) = .ok (y, 0) := fun y hy => by rw [hy]
    exact finish _ seen

end Sys2Proof.Machine
end

section
/-! SUPPORT. Heats open (O28), joins (O29). -/

namespace Sys2Proof.Machine

variable {s : State} {id n : Nat} {c : Crew}

theorem bothWord_idle (H : Idle s id n c) (f : State → Nat → Nat → Crew → State) (g : State → Nat → Eng → State) :
    s.bothWord f g = .next (f (s.setCrew id c) id n c) := by
  simp only [State.bothWord, H.cur, H.issuer]

theorem heatCrew_idle (H : Idle s id n c) (t : State) (f : State → State) : t.heatCrew id n c f = f t := by
  simp only [State.heatCrew, H.heat, H.bad]

/-- Settles O28: the fields of the opened heat, one by one. -/
theorem heatsOpen : Obligations.HeatsOpen := by
  unfold Obligations.HeatsOpen
  refine ⟨fun s id n c H hn => ?_, fun s k e hcur he closed => ?_⟩
  · have opened : exec .heat s = .next ((s.setCrew id c).openHeat id n c) := by
      change s.bothWord _ _ = _
      rw [bothWord_idle H, heatCrew_idle H]
    refine ⟨_, _, opened.trans (congrArg _ (State.setCrew_setCrew ..)), rfl, rfl, rfl, rfl, rfl, rfl, rfl, rfl, rfl, rfl, rfl, rfl, rfl,
      rfl, rfl, ?_⟩
    have here := Crew.slot_setSlot c n { c.slot n with pc := (c.slot n).pc + 4 }
    exact ⟨(congrArg PcSlot.pc here :), (congrArg PcSlot.mask here :), (congrArg PcSlot.base here :), (congrArg PcSlot.chain here :),
      Crew.slot_other_setSlot c _ hn, Crew.com_setSlot .., Crew.stack_setSlot ..⟩
  · have opens : e.entry.isSome = false := by simp [closed]
    have engine : ∀ f, s.bothWord f State.heatEng = .next (s.heatEng k e) := fun f => by simp only [State.bothWord, hcur, he]
    have set : s.heatEng k e = s.setEng k { e with entry := some e.pc, pc := e.pc + 4, off := 1, wait := .none } :=
      if_neg (by simp [opens])
    exact ⟨(engine _).trans (congrArg _ set), (engine _).trans (congrArg _ set)⟩

-- Joins (O29).

/-- One reading of Table 3-2. -/
theorem Crew.resolveJ_succ (k : Nat) (c : Crew) (n : Nat) : Crew.resolveJ (k + 1) c n =
    if !(c.slot (1 - n)).free && (c.slot (1 - n)).parked && (c.slot (1 - n)).pc == (c.slot n).pc &&
        (c.slot (1 - n)).base == (c.slot n).base && sameChain (c.slot (1 - n)).chain (c.slot n).chain then
      Crew.resolveJ k ((c.setSlot n { c.slot n with mask := (c.slot n).mask ||| (c.slot (1 - n)).mask }).setSlot (1 - n) PcSlot.none) n
    else if !(c.slot (1 - n)).free && !(c.slot (1 - n)).parked then (c.setSlot n { c.slot n with parked := true }, false)
    else if (c.slot (1 - n)).free then
      match c.stack with
      | e :: r =>
        ({ (c.setSlot n { c.slot n with parked := true }).setSlot (1 - n)
            { pc := e.pc, mask := e.mask, base := e.base, chain := e.chain, parked := false } with stack := r }, false)
      | [] => (c.setSlot n { c.slot n with parked := false }, true)
    else if (c.slot n).pc.toNat ≤ (c.slot (1 - n)).pc.toNat then (c.setSlot n { c.slot n with parked := false }, true)
    else (c.setSlot n { c.slot n with parked := true }, false) := rfl

/-- Settles O29: the branches of the table, one by one. -/
theorem joinsResolve : Obligations.JoinsResolve := by
  unfold Obligations.JoinsResolve
  refine ⟨fun s id n c H => ?_, fun c n calm stands back => ?_, ?_⟩
  · have done : exec .heatJ s = .next ((s.setCrew id c).joinHeat id n c) := by
      change s.bothWord _ _ = _
      rw [bothWord_idle H, heatCrew_idle H]
    refine ⟨done, fun run kept => ?_⟩
    rw [done]
    unfold State.joinHeat
    dsimp only
    rw [if_neg (by omega), if_pos run]
  · simp [Crew.canOpen, stands, back, calm]
  · intro c n k hn x o same r
    have other := fun y => Crew.slot_other_setSlot c y hn
    have here := Crew.slot_setSlot c n
    have table := Crew.resolveJ_succ k c n
    have joins : o.free = false → o.parked = true → ((!(c.slot (1 - n)).free && (c.slot (1 - n)).parked &&
        (c.slot (1 - n)).pc == (c.slot n).pc && (c.slot (1 - n)).base == (c.slot n).base &&
        sameChain (c.slot (1 - n)).chain (c.slot n).chain) = true ↔ same) := fun busy parked => by
      simp [same, show (c.slot (1 - n)).free = false from busy, show (c.slot (1 - n)).parked = true from parked, o, x, and_assoc]
    refine ⟨fun free empty => ?_, fun busy running => ?_, fun busy parked joined => ?_, fun busy parked apart low => ?_,
      fun busy parked apart high => ?_, fun e rest free stack => ?_⟩
    · have : r = (c.setSlot n { x with parked := false }, true) := by
        simp [r, table, show (c.slot (1 - n)).free = true from free, empty, x]
      rw [this]
      exact ⟨rfl, here _, other _⟩
    · have : r = (c.setSlot n { x with parked := true }, false) := by
        simp [r, table, show (c.slot (1 - n)).free = false from busy, show (c.slot (1 - n)).parked = false from running, x]
      rw [this]
      exact ⟨rfl, here _, other _⟩
    · exact table.trans (if_pos ((joins busy parked).mpr joined))
    · have : r = (c.setSlot n { x with parked := false }, true) := by
        refine table.trans ((if_neg (fun j => apart ((joins busy parked).mp j))).trans ?_)
        simp [show (c.slot (1 - n)).free = false from busy, show (c.slot (1 - n)).parked = true from parked, x,
          show (c.slot n).pc.toNat ≤ (c.slot (1 - n)).pc.toNat from low]
      rw [this]
      exact ⟨rfl, other _⟩
    · have : r = (c.setSlot n { x with parked := true }, false) := by
        refine table.trans ((if_neg (fun j => apart ((joins busy parked).mp j))).trans ?_)
        simp [show (c.slot (1 - n)).free = false from busy, show (c.slot (1 - n)).parked = true from parked, x,
          show ¬ (c.slot n).pc.toNat ≤ (c.slot (1 - n)).pc.toNat from Nat.not_le.mpr high]
      rw [this]
      exact ⟨rfl, (congrArg PcSlot.parked (here _) :), other _⟩
    · have : r = ({ (c.setSlot n { x with parked := true }).setSlot (1 - n) ⟨e.pc, e.mask, e.base, e.chain, false⟩ with stack := rest },
          false) := by
        simp [r, table, show (c.slot (1 - n)).free = true from free, stack, x]
      rw [this]
      refine ⟨rfl, rfl, ?_, Crew.slot_setSlot ..⟩
      exact congrArg PcSlot.parked ((Crew.slot_setSlot_of_other (c.setSlot n { x with parked := true }) _ hn).trans (here _))

end Sys2Proof.Machine
end

section
/-! SUPPORT. The permutation network (O30): the looping of Route assigns every line a side, its sub-permutations are routed on
disjoint control bits, and the network that reads them performs the permutation. -/

namespace Sys2Proof.Machine

-- Partners: lines 2 k and 2 k + 1.

theorem partner_partner (t : Nat) : t ^^^ 1 ^^^ 1 = t := by rw [Nat.xor_assoc, Nat.xor_self, Nat.xor_zero]

theorem partner_eq {a b : Nat} (h : a ^^^ 1 = b ^^^ 1) : a = b := by
  rw [← partner_partner a, h, partner_partner]

theorem partner_even (k : Nat) : (2 * k) ^^^ 1 = 2 * k + 1 := by
  have half : (2 * k ^^^ 1) / 2 = k := by
    rw [Nat.xor_div_two, Nat.mul_div_cancel_left k (by decide)]
    exact Nat.xor_zero k
  have low : (2 * k ^^^ 1) % 2 = 1 := by
    have := Nat.xor_mod_two_pow (a := 2 * k) (b := 1) (n := 1)
    rwa [Nat.pow_one, Nat.mul_mod_right] at this
  omega

theorem partner_odd (k : Nat) : (2 * k + 1) ^^^ 1 = 2 * k := by
  rw [← partner_even, partner_partner]

theorem partner_ne (t : Nat) : t ^^^ 1 ≠ t := by
  rcases even_or_odd t with ⟨k, rfl | rfl⟩
  · rw [partner_even]; omega
  · rw [partner_odd]; omega

theorem partner_lt {t h : Nat} (ht : t < 2 * h) : t ^^^ 1 < 2 * h := by
  rcases even_or_odd t with ⟨k, rfl | rfl⟩
  · rw [partner_even]; omega
  · rw [partner_odd]; omega

-- Tables of sides.

/-- A line with a side has a partner on the other one. -/
def paired (t : Tab Nat) : Prop := ∀ j v, Tab.find t j = some v → v < 2 ∧ Tab.find t (j ^^^ 1) = some (1 - v)

/-- A line gets side 0 and its partner side 1. -/
def splitPair (t : Tab Nat) (j : Nat) : Tab Nat := Tab.put (Tab.put t j 0) (j ^^^ 1) 1

theorem find_splitPair (t : Tab Nat) (j b : Nat) :
    Tab.find (splitPair t j) b = if b = j ^^^ 1 then some 1 else if b = j then some 0 else Tab.find t b := by
  rw [splitPair, Tab.find_put, Tab.find_put]

theorem find_splitPair_same (t : Tab Nat) (j : Nat) : Tab.find (splitPair t j) j = some 0 := by
  rw [find_splitPair, if_neg (partner_ne j).symm, if_pos rfl]

theorem find_splitPair_partner (t : Tab Nat) (j : Nat) : Tab.find (splitPair t j) (j ^^^ 1) = some 1 := by
  rw [find_splitPair, if_pos rfl]

theorem find_splitPair_other (t : Tab Nat) {j b : Nat} (h : b ≠ j) (h' : b ≠ j ^^^ 1) : Tab.find (splitPair t j) b = Tab.find t b := by
  rw [find_splitPair, if_neg h', if_neg h]

theorem paired_splitPair {t : Tab Nat} (ht : paired t) (j : Nat) : paired (splitPair t j) := by
  intro b v hb
  by_cases h1 : b = j ^^^ 1
  · subst h1
    rw [find_splitPair_partner] at hb
    cases hb
    rw [partner_partner, find_splitPair_same]
    exact ⟨by decide, rfl⟩
  · by_cases h2 : b = j
    · subst h2
      rw [find_splitPair_same] at hb
      cases hb
      rw [find_splitPair_partner]
      exact ⟨by decide, rfl⟩
    · rw [find_splitPair_other t h2 h1] at hb
      rw [find_splitPair_other t (fun h => h1 (by rw [← h, partner_partner])) (fun h => h2 (partner_eq h))]
      exact ht b v hb

theorem unset_partner {t : Tab Nat} (ht : paired t) {j : Nat} (hj : Tab.find t j = none) : Tab.find t (j ^^^ 1) = none := by
  cases h : Tab.find t (j ^^^ 1) with
  | none => rfl
  | some v =>
    have := (ht _ _ h).2
    rw [partner_partner, hj] at this
    cases this

-- Permutations as lists.

/-- A permutation of 0 to n - 1. -/
structure IsPerm (n : Nat) (pi : List Nat) : Prop where
  length : pi.length = n
  nodup : pi.Nodup
  lt : ∀ p ∈ pi, p < n

variable {n h : Nat} {pi : List Nat}

theorem IsPerm.getD_lt (P : IsPerm n pi) {t : Nat} (ht : t < n) : pi.getD t 0 < n := by
  have hl : t < pi.length := P.length ▸ ht
  rw [getD_of_lt _ _ hl]
  exact P.lt _ (List.getElem_mem hl)

theorem IsPerm.inj (P : IsPerm n pi) {a b : Nat} (ha : a < n) (hb : b < n) (h : pi.getD a 0 = pi.getD b 0) : a = b := by
  have la : a < pi.length := P.length ▸ ha
  have lb : b < pi.length := P.length ▸ hb
  rw [getD_of_lt _ _ la, getD_of_lt _ _ lb] at h
  exact (List.getElem_inj P.nodup).mp h

theorem IsPerm.mem (P : IsPerm n pi) {i : Nat} (hi : i < n) : i ∈ pi := by
  refine Classical.byContradiction fun absent => ?_
  have longer : (i :: pi).length ≤ n := length_le_of_nodup_lt (List.nodup_cons.2 ⟨absent, P.nodup⟩) (fun x hx => by
    rcases List.mem_cons.1 hx with rfl | old
    · exact hi
    · exact P.lt x old)
  rw [List.length_cons, P.length] at longer
  omega

/-- The inverse finds each line's output. -/
theorem IsPerm.invert_getD (P : IsPerm n pi) {i : Nat} (hi : i < n) :
    (invert pi).getD i 0 < n ∧ pi.getD ((invert pi).getD i 0) 0 = i := by
  have found : pi.findIdx (· == i) < pi.length := List.findIdx_lt_length_of_exists ⟨i, P.mem hi, by simp⟩
  have here : (invert pi).getD i 0 = pi.findIdx (· == i) := by
    have : i < (List.range pi.length).length := by rw [List.length_range, P.length]; exact hi
    simp [invert, List.getD_eq_getElem?_getD, P.length, hi]
  have value : pi[pi.findIdx (· == i)] = i := by simpa using List.findIdx_getElem (p := (· == i)) (xs := pi) (w := found)
  rw [here, getD_of_lt _ _ found]
  exact ⟨P.length ▸ found, value⟩

-- The looping of Route.

/-- The tables give an output and the input it takes the same side. -/
def agreeAt (pi : List Nat) (T : Tab Nat × Tab Nat) (t : Nat) : Prop := Tab.find T.1 t = Tab.find T.2 (pi.getD t 0)

/-- Between two loops: every line that has a side agrees with the line it is routed to. -/
structure Balanced (n : Nat) (pi : List Nat) (T : Tab Nat × Tab Nat) : Prop where
  side : paired T.1
  ins : paired T.2
  agree : ∀ t < n, agreeAt pi T t

/-- Inside the loop that started at `j0`, before position `j` gets its side: the partner of `j0` has side 1 and its input none,
the partner of `j` has none and its input side 1; at the start the two are one and neither has a side. -/
structure Looping (n : Nat) (pi : List Nat) (j0 j : Nat) (T : Tab Nat × Tab Nat) : Prop where
  side : paired T.1
  ins : paired T.2
  unset : Tab.find T.1 j = none
  agree : ∀ t < n, t ≠ j ^^^ 1 → t ≠ j0 ^^^ 1 → agreeAt pi T t
  last : Tab.find T.2 (pi.getD (j0 ^^^ 1) 0) = none
  ends : j = j0 ∨ j ≠ j0 ∧ Tab.find T.1 (j0 ^^^ 1) = some 1 ∧ Tab.find T.2 (pi.getD (j ^^^ 1) 0) = some 1

theorem Balanced.looping {T : Tab Nat × Tab Nat} (B : Balanced (2 * h) pi T) {j : Nat} (hj : j < 2 * h) (unset : Tab.find T.1 j = none) :
    Looping (2 * h) pi j j T :=
  ⟨B.side, B.ins, unset, fun t ht _ _ => B.agree t ht,
    (B.agree _ (partner_lt hj)).symm.trans (unset_partner B.side unset), .inl rfl⟩

/-- The tables after one position of a loop. -/
def loopStep (pi : List Nat) (j : Nat) (T : Tab Nat × Tab Nat) : Tab Nat × Tab Nat := (splitPair T.1 j, splitPair T.2 (pi.getD j 0))

/-- The next position of a loop. -/
def loopNext (pi : List Nat) (j : Nat) : Nat := (invert pi).getD (pi.getD j 0 ^^^ 1) 0 ^^^ 1

theorem routeLoop_succ (pi : List Nat) (fuel j : Nat) (T : Tab Nat × Tab Nat) :
    routeLoop pi (invert pi) (fuel + 1) j T = if (Tab.find (loopStep pi j T).1 (loopNext pi j)).isSome then loopStep pi j T
      else routeLoop pi (invert pi) fuel (loopNext pi j) (loopStep pi j T) := rfl

variable {j0 j : Nat} {T : Tab Nat × Tab Nat}

theorem loopNext_lt (P : IsPerm (2 * h) pi) (hj : j < 2 * h) : loopNext pi j < 2 * h :=
  partner_lt (P.invert_getD (partner_lt (P.getD_lt hj))).1

theorem getD_loopNext (P : IsPerm (2 * h) pi) (hj : j < 2 * h) : pi.getD (loopNext pi j ^^^ 1) 0 = pi.getD j 0 ^^^ 1 := by
  rw [loopNext, partner_partner]
  exact (P.invert_getD (partner_lt (P.getD_lt hj))).2

theorem Looping.ne_last (L : Looping n pi j0 j T) : j ≠ j0 ^^^ 1 := by
  rintro rfl
  rcases L.ends with e | ⟨_, e, _⟩
  · exact partner_ne _ e
  · rw [L.unset] at e; cases e

/-- The input of the position has no side yet. -/
theorem Looping.input_unset (L : Looping n pi j0 j T) (hj : j < n) : Tab.find T.2 (pi.getD j 0) = none :=
  (L.agree j hj (partner_ne j).symm L.ne_last).symm.trans L.unset

theorem loopStep_side (j : Nat) (T : Tab Nat × Tab Nat) {t : Nat} (h1 : t ≠ j) (h2 : t ≠ j ^^^ 1) :
    Tab.find (loopStep pi j T).1 t = Tab.find T.1 t := find_splitPair_other _ h1 h2

/-- After a position, all lines agree but the two ends of the loop. -/
theorem Looping.step_agree (P : IsPerm (2 * h) pi) (L : Looping (2 * h) pi j0 j T) (hj : j < 2 * h) {t : Nat} (ht : t < 2 * h)
    (next : t ≠ loopNext pi j ^^^ 1) (last : t ≠ j0 ^^^ 1) : agreeAt pi (loopStep pi j T) t := by
  have unset := L.input_unset hj
  by_cases hj' : t = j
  · subst hj'
    exact (find_splitPair_same _ _).trans (find_splitPair_same _ _).symm
  · have input : pi.getD t 0 ≠ pi.getD j 0 := fun e => hj' (P.inj ht hj e)
    have input' : pi.getD t 0 ≠ pi.getD j 0 ^^^ 1 := fun e =>
      next (P.inj ht (partner_lt (loopNext_lt P hj)) (e.trans (getD_loopNext P hj).symm))
    have kept : Tab.find (loopStep pi j T).2 (pi.getD t 0) = Tab.find T.2 (pi.getD t 0) := find_splitPair_other _ input input'
    by_cases hp : t = j ^^^ 1
    · subst hp
      rcases L.ends with e | ⟨_, _, e⟩
      · exact absurd (e ▸ rfl) last
      · exact (find_splitPair_partner _ _).trans (kept.trans e).symm
    · exact (loopStep_side j T hj' hp).trans ((L.agree t ht hp last).trans kept.symm)

/-- The partner of the loop's start has side 1 after every position. -/
theorem Looping.step_last (L : Looping n pi j0 j T) : Tab.find (loopStep pi j T).1 (j0 ^^^ 1) = some 1 := by
  rcases L.ends with e | ⟨ne, e, _⟩
  · subst e
    exact find_splitPair_partner _ _
  · rw [loopStep_side j T L.ne_last.symm (fun h => ne (partner_eq h).symm), e]

/-- A loop that meets a position with a side has closed. -/
theorem Looping.closes (P : IsPerm (2 * h) pi) (L : Looping (2 * h) pi j0 j T) (hj : j < 2 * h)
    (met : (Tab.find (loopStep pi j T).1 (loopNext pi j)).isSome) : loopNext pi j = j0 := by
  refine Classical.byContradiction fun open_ => ?_
  have input := getD_loopNext P hj
  have unset := unset_partner L.ins (L.input_unset hj)
  have ne : loopNext pi j ^^^ 1 ≠ j := fun e => partner_ne (pi.getD j 0) (by rw [← input, e])
  have away : loopNext pi j ^^^ 1 ≠ j ^^^ 1 := fun e => by
    rcases L.ends with e' | ⟨_, _, e'⟩
    · exact open_ ((partner_eq e).trans e')
    · rw [← e, input, unset] at e'; cases e'
  have agree := L.agree _ (partner_lt (loopNext_lt P hj)) away (fun e => open_ (partner_eq e))
  have absent : Tab.find T.1 (loopNext pi j ^^^ 1) = none := agree.trans (input ▸ unset)
  have absent' : Tab.find T.1 (loopNext pi j) = none := partner_partner (loopNext pi j) ▸ unset_partner L.side absent
  rw [loopStep_side j T (fun e => away (by rw [e])) (fun e => ne (by rw [e, partner_partner])), absent'] at met
  cases met

/-- The next position of a loop that has not closed. -/
theorem Looping.step (P : IsPerm (2 * h) pi) (L : Looping (2 * h) pi j0 j T) (hj : j < 2 * h) (hj0 : j0 < 2 * h)
    (free : Tab.find (loopStep pi j T).1 (loopNext pi j) = none) : Looping (2 * h) pi j0 (loopNext pi j) (loopStep pi j T) := by
  have started : Tab.find (loopStep pi j T).1 j0 = some 0 := by
    have := (paired_splitPair L.side j _ _ L.step_last).2
    rwa [partner_partner] at this
  have apart : loopNext pi j ≠ j0 := fun e => by rw [e, started] at free; cases free
  refine ⟨paired_splitPair L.side j, paired_splitPair L.ins _, free, fun t ht next last => L.step_agree P hj ht next last, ?_,
    .inr ⟨apart, L.step_last, ?_⟩⟩
  · refine (find_splitPair_other _ (fun e => L.ne_last (P.inj hj (partner_lt hj0) e.symm)) (fun e => apart ?_)).trans L.last
    exact (partner_eq (P.inj (partner_lt hj0) (partner_lt (loopNext_lt P hj)) (e.trans (getD_loopNext P hj).symm))).symm
  · rw [getD_loopNext P hj]
    exact find_splitPair_partner _ _

/-- A loop that closes leaves the tables balanced. -/
theorem Looping.balanced (P : IsPerm (2 * h) pi) (L : Looping (2 * h) pi j0 j T) (hj : j < 2 * h) (closed : loopNext pi j = j0) :
    Balanced (2 * h) pi (loopStep pi j T) := by
  refine ⟨paired_splitPair L.side j, paired_splitPair L.ins _, fun t ht => ?_⟩
  by_cases last : t = j0 ^^^ 1
  · subst last
    refine L.step_last.trans (Eq.symm ?_)
    rw [← closed, getD_loopNext P hj]
    exact find_splitPair_partner _ _
  · exact L.step_agree P hj ht (closed ▸ last) last

/-- Positions without a side. -/
def unsetCount (n : Nat) (T : Tab Nat × Tab Nat) : Nat := (List.range n).countP (fun t => (Tab.find T.1 t).isNone)

/-- A position of a loop takes no side away. -/
theorem loopStep_keeps (j : Nat) (T : Tab Nat × Tab Nat) {t : Nat} (set : Tab.find T.1 t ≠ none) :
    Tab.find (loopStep pi j T).1 t ≠ none := by
  simp only [loopStep, find_splitPair]
  split
  · simp
  · split
    · simp
    · exact set

theorem unsetCount_step (hj : j < n) (unset : Tab.find T.1 j = none) : unsetCount n (loopStep pi j T) < unsetCount n T := by
  refine countP_lt_countP (fun t _ open_ => ?_) (List.mem_range.mpr hj) ?_ (by rw [unset]; rfl)
  · have left := Option.isNone_iff_eq_none.1 open_
    exact Option.isNone_iff_eq_none.2 (Classical.byContradiction fun set => loopStep_keeps j T set left)
  · simp [loopStep, find_splitPair_same]

/-- A loop with fuel for every position without a side closes, and gives its start a side. -/
theorem routeLoop_balanced (P : IsPerm (2 * h) pi) (hj0 : j0 < 2 * h) (fuel : Nat) : ∀ (j : Nat) (T : Tab Nat × Tab Nat), j < 2 * h →
    Looping (2 * h) pi j0 j T → unsetCount (2 * h) T ≤ fuel → Balanced (2 * h) pi (routeLoop pi (invert pi) fuel j T) ∧
      ∀ t, t = j ∨ Tab.find T.1 t ≠ none → Tab.find (routeLoop pi (invert pi) fuel j T).1 t ≠ none := by
  induction fuel with
  | zero =>
    intro j T hj L few
    exact absurd (unsetCount_step (pi := pi) hj L.unset) (by omega)
  | succ fuel ih =>
    intro j T hj L few
    have less := unsetCount_step (pi := pi) hj L.unset
    have sides : ∀ t, t = j ∨ Tab.find T.1 t ≠ none → Tab.find (loopStep pi j T).1 t ≠ none := by
      rintro t (rfl | set)
      · simp [loopStep, find_splitPair_same]
      · exact loopStep_keeps j T set
    rw [routeLoop_succ]
    split
    · rename_i met
      exact ⟨L.balanced P hj (L.closes P hj met), sides⟩
    · rename_i met
      have free : Tab.find (loopStep pi j T).1 (loopNext pi j) = none := by simpa using met
      obtain ⟨balanced, kept⟩ := ih _ _ (loopNext_lt P hj) (L.step P hj hj0 free) (by omega)
      exact ⟨balanced, fun t ht => kept t (.inr (sides t ht))⟩

/-- The tables after the loops from the even lines `ks`. -/
def routeSides (pi : List Nat) (ks : List Nat) (T : Tab Nat × Tab Nat) : Tab Nat × Tab Nat :=
  ks.foldl (fun t k => if (Tab.find t.1 (2 * k)).isSome then t else routeLoop pi (invert pi) pi.length (2 * k) t) T

theorem unsetCount_le (n : Nat) (T : Tab Nat × Tab Nat) : unsetCount n T ≤ n :=
  Nat.le_trans List.countP_le_length (Nat.le_of_eq List.length_range)

theorem routeSides_balanced (P : IsPerm (2 * h) pi) (ks : List Nat) : ∀ T, (∀ k ∈ ks, k < h) → Balanced (2 * h) pi T →
    Balanced (2 * h) pi (routeSides pi ks T) ∧
      ∀ t, (∃ k ∈ ks, t = 2 * k) ∨ Tab.find T.1 t ≠ none → Tab.find (routeSides pi ks T).1 t ≠ none := by
  induction ks with
  | nil =>
    intro T _ B
    exact ⟨B, fun t ht => ht.resolve_left (fun ⟨_, hk, _⟩ => nomatch hk)⟩
  | cons k r ih =>
    intro T hk B
    have hk0 : 2 * k < 2 * h := by have := hk k (List.mem_cons_self ..); omega
    have rest : ∀ k ∈ r, k < h := fun k hr => hk k (List.mem_cons_of_mem _ hr)
    by_cases set : (Tab.find T.1 (2 * k)).isSome
    · have same : routeSides pi (k :: r) T = routeSides pi r T := by simp only [routeSides, List.foldl_cons, set, if_true]
      obtain ⟨balanced, kept⟩ := ih T rest B
      rw [same]
      refine ⟨balanced, fun t ht => kept t ?_⟩
      rcases ht with ⟨k', hk', rfl⟩ | ht
      · rcases List.mem_cons.mp hk' with rfl | hk'
        · exact .inr (by simpa [Option.isSome_iff_ne_none] using set)
        · exact .inl ⟨k', hk', rfl⟩
      · exact .inr ht
    · have unset : Tab.find T.1 (2 * k) = none := by simpa using set
      have looped : routeSides pi (k :: r) T = routeSides pi r (routeLoop pi (invert pi) pi.length (2 * k) T) := by
        simp only [routeSides, List.foldl_cons, set, Bool.false_eq_true, if_false]
      obtain ⟨closed, sides⟩ := routeLoop_balanced P hk0 pi.length (2 * k) T hk0 (B.looping hk0 unset)
        (P.length ▸ unsetCount_le _ _)
      obtain ⟨balanced, kept⟩ := ih _ rest closed
      rw [looped]
      refine ⟨balanced, fun t ht => kept t ?_⟩
      rcases ht with ⟨k', hk', rfl⟩ | ht
      · rcases List.mem_cons.mp hk' with rfl | hk'
        · exact .inr (sides _ (.inl rfl))
        · exact .inl ⟨k', hk', rfl⟩
      · exact .inr (sides t (.inr ht))

/-- Sides of outputs and inputs that route a permutation: partners differ, and an output has the side of its input. -/
structure Sided (h : Nat) (pi : List Nat) (side ins : Nat → Nat) : Prop where
  side_lt : ∀ k < h, side (2 * k) < 2
  ins_lt : ∀ k < h, ins (2 * k) < 2
  side_odd : ∀ k < h, side (2 * k + 1) = 1 - side (2 * k)
  ins_odd : ∀ k < h, ins (2 * k + 1) = 1 - ins (2 * k)
  agree : ∀ t < 2 * h, side t = ins (pi.getD t 0)

theorem paired_get {t : Tab Nat} (ht : paired t) {k : Nat} (set : Tab.find t (2 * k) ≠ none) :
    Tab.get t (2 * k) 0 < 2 ∧ Tab.get t (2 * k + 1) 0 = 1 - Tab.get t (2 * k) 0 := by
  obtain ⟨v, hv⟩ := Option.ne_none_iff_exists'.mp set
  obtain ⟨lt, odd⟩ := ht _ _ hv
  rw [partner_even] at odd
  simp only [Tab.get, hv, odd, Option.getD_some, and_true]
  exact lt

theorem routeSides_sided (P : IsPerm (2 * h) pi) : Sided h pi
    (fun t => Tab.get (routeSides pi (List.range h) ([], [])).1 t 0) (fun t => Tab.get (routeSides pi (List.range h) ([], [])).2 t 0) := by
  have start : Balanced (2 * h) pi (([], []) : Tab Nat × Tab Nat) :=
    ⟨fun j v hv => (nomatch hv), fun j v hv => (nomatch hv), fun t _ => rfl⟩
  obtain ⟨B, sides⟩ := routeSides_balanced P (List.range h) ([], []) (fun k hk => List.mem_range.mp hk) start
  have even : ∀ k < h, Tab.find (routeSides pi (List.range h) ([], [])).1 (2 * k) ≠ none := fun k hk =>
    sides _ (.inl ⟨k, List.mem_range.mpr hk, rfl⟩)
  have all : ∀ t < 2 * h, Tab.find (routeSides pi (List.range h) ([], [])).1 t ≠ none := by
    intro t ht
    rcases even_or_odd t with ⟨k, rfl | rfl⟩
    · exact even k (by omega)
    · intro none
      have := unset_partner B.side none
      rw [partner_odd] at this
      exact even k (by omega) this
  have input : ∀ i < 2 * h, Tab.find (routeSides pi (List.range h) ([], [])).2 i ≠ none := by
    intro i hi
    obtain ⟨ht, hp⟩ := P.invert_getD hi
    exact hp ▸ (B.agree _ ht) ▸ all _ ht
  exact ⟨fun k hk => (paired_get B.side (even k hk)).1, fun k hk => (paired_get B.ins (input _ (by omega))).1,
    fun k hk => (paired_get B.side (even k hk)).2, fun k hk => (paired_get B.ins (input _ (by omega))).2,
    fun t ht => congrArg (fun o => o.getD 0) (B.agree t ht)⟩

-- Control bits.

/-- The bits that a number has. -/
def hasBits (N : Nat) (S : Nat → Prop) : Prop := ∀ e, N.testBit e = true ↔ S e

/-- Numbers without a common bit add bit by bit. -/
theorem testBit_add_apart (e : Nat) : ∀ {a b : Nat}, (∀ i, ¬(a.testBit i = true ∧ b.testBit i = true)) →
    (a + b).testBit e = (a.testBit e || b.testBit e) := by
  induction e with
  | zero =>
    intro a b apart
    have := apart 0
    simp only [Nat.testBit_zero, decide_eq_true_eq] at this ⊢
    rw [Bool.eq_iff_iff]
    simp only [Bool.or_eq_true, decide_eq_true_eq]
    omega
  | succ e ih =>
    intro a b apart
    have low := apart 0
    simp only [Nat.testBit_zero, decide_eq_true_eq] at low
    rw [Nat.testBit_add_one, Nat.testBit_add_one, Nat.testBit_add_one, show (a + b) / 2 = a / 2 + b / 2 by omega]
    exact ih fun i => by simpa only [Nat.testBit_add_one] using apart (i + 1)

theorem hasBits_add {a b : Nat} {S S' : Nat → Prop} (ha : hasBits a S) (hb : hasBits b S') (apart : ∀ e, S e → ¬S' e) :
    hasBits (a + b) (fun e => S e ∨ S' e) := by
  intro e
  rw [testBit_add_apart e (fun i both => apart i ((ha i).mp both.1) ((hb i).mp both.2)), Bool.or_eq_true, ha e, hb e]

theorem hasBits_bit {v : Nat} (hv : v < 2) (m : Nat) : hasBits (v * 2 ^ m) (fun e => v = 1 ∧ e = m) := by
  intro e
  obtain rfl | rfl : v = 0 ∨ v = 1 := by omega
  · simp
  · simp [Nat.testBit_two_pow, eq_comm]

theorem ctlBit_eq (ctl st k : Nat) : ctlBit ctl st k = (ctl.testBit (16 * st + k)).toNat := by
  rw [Nat.toNat_testBit, ctlBit, bits, Nat.shiftRight_eq_div_pow, Nat.pow_one]

theorem ctlBit_of {ctl st k v : Nat} (hv : v < 2) (h : ctl.testBit (16 * st + k) = true ↔ v = 1) : ctlBit ctl st k = v := by
  rw [ctlBit_eq]
  cases hb : ctl.testBit (16 * st + k) with
  | false =>
    have : v ≠ 1 := fun e => by rw [h.mpr e] at hb; cases hb
    simp; omega
  | true => simpa using (h.mp hb).symm

-- The control string.

/-- The control bits of one level's switches: those of the input stage and those of the output stage. -/
def ownBits (side ins : Nat → Nat) (d c : Nat) : Nat → Nat
  | 0 => 0
  | k + 1 => ownBits side ins d c k + ins (2 * k) * 2 ^ (16 * d + c + k) + side (2 * k) * 2 ^ (16 * (8 - d) + c + k)

theorem foldl_ownBits (side ins : Nat → Nat) (d c h : Nat) : (List.range h).foldl (fun a k =>
    a + ins (2 * k) * 2 ^ (16 * d + c + k) + side (2 * k) * 2 ^ (16 * (8 - d) + c + k)) 0 = ownBits side ins d c h := by
  induction h with
  | zero => rfl
  | succ h ih => rw [List.range_succ, List.foldl_append, ih]; rfl

/-- The sub-permutations of the upper and of the lower half network. -/
def upperPerm (pi : List Nat) (side : Nat → Nat) (h : Nat) : List Nat := (List.range h).map (fun k => pi.getD (2 * k + side (2 * k)) 0 / 2)
def lowerPerm (pi : List Nat) (side : Nat → Nat) (h : Nat) : List Nat := (List.range h).map (fun k => pi.getD (2 * k + 1 - side (2 * k)) 0 / 2)

theorem route_succ (P : IsPerm (2 * h) pi) (fuel d q : Nat) : ∃ side ins, Sided h pi side ins ∧
    route (fuel + 1) d q pi = ownBits side ins d (q * h) h + route fuel (d + 1) (2 * q) (upperPerm pi side h) +
      route fuel (d + 1) (2 * q + 1) (lowerPerm pi side h) := by
  refine ⟨_, _, routeSides_sided P, ?_⟩
  have half : pi.length / 2 = h := by rw [P.length]; omega
  rw [← foldl_ownBits]
  simp only [route, half]
  rfl

/-- Where the bits of a sub-network lie: its columns of the stages from `d` to 8 - `d`. -/
def region (fuel d q e : Nat) : Prop := ∃ st k, d ≤ st ∧ st ≤ 8 - d ∧ k < 2 ^ fuel ∧ e = 16 * st + q * 2 ^ fuel + k

theorem ownBits_has {side ins : Nat → Nat} {d c : Nat} (hd : d < 4) (hc : c + h ≤ 16) (hs : ∀ k < h, side (2 * k) < 2)
    (hi : ∀ k < h, ins (2 * k) < 2) : hasBits (ownBits side ins d c h) (fun e =>
      ∃ k < h, (ins (2 * k) = 1 ∧ e = 16 * d + c + k) ∨ (side (2 * k) = 1 ∧ e = 16 * (8 - d) + c + k)) := by
  induction h with
  | zero => exact fun e => by simp [ownBits]
  | succ h ih =>
    have before := ih (by omega) (fun k hk => hs k (by omega)) (fun k hk => hi k (by omega))
    have first := hasBits_add before (hasBits_bit (hi h (by omega)) (16 * d + c + h)) (by rintro e ⟨k, hk, b | b⟩ ⟨_, b'⟩ <;> omega)
    have second := hasBits_add first (hasBits_bit (hs h (by omega)) (16 * (8 - d) + c + h))
      (by rintro e (⟨k, hk, b | b⟩ | b) ⟨_, b'⟩ <;> omega)
    intro e
    refine (second e).trans ⟨?_, ?_⟩
    · rintro ((⟨k, hk, b⟩ | b) | b)
      · exact ⟨k, by omega, b⟩
      · exact ⟨h, by omega, .inl b⟩
      · exact ⟨h, by omega, .inr b⟩
    · rintro ⟨k, hk, b⟩
      by_cases last : k = h
      · subst last
        exact b.elim (fun b => .inl (.inr b)) .inr
      · exact .inl (.inl ⟨k, by omega, b⟩)

variable {fuel d q : Nat} {side ins : Nat → Nat}

/-- The columns of a network lie within a stage. -/
theorem columns_le (hd : fuel + d = 4) (hq : q < 2 ^ d) : q * 2 ^ fuel + 2 ^ fuel ≤ 16 := by
  have := Nat.mul_le_mul_right (2 ^ fuel) hq
  rw [← Nat.pow_add, show d + fuel = 4 by omega, Nat.succ_mul] at this
  exact this

/-- The columns of the upper and of the lower half of a network, by their offset in it. -/
theorem region_upper {e : Nat} : region fuel (d + 1) (2 * q) e ↔
    ∃ st k, d < st ∧ st < 8 - d ∧ k < 2 ^ fuel ∧ e = 16 * st + q * 2 ^ (fuel + 1) + k := by
  have : 2 * q * 2 ^ fuel = q * 2 ^ (fuel + 1) := by grind
  simp only [region, this]
  exact exists_congr fun st => exists_congr fun k => by constructor <;> rintro ⟨h1, h2, h3⟩ <;> exact ⟨by omega, by omega, h3⟩

theorem region_lower {e : Nat} : region fuel (d + 1) (2 * q + 1) e ↔
    ∃ st k, d < st ∧ st < 8 - d ∧ k < 2 ^ fuel ∧ e = 16 * st + q * 2 ^ (fuel + 1) + 2 ^ fuel + k := by
  have : 16 * 0 + (2 * q + 1) * 2 ^ fuel = q * 2 ^ (fuel + 1) + 2 ^ fuel := by grind
  simp only [Nat.mul_zero, Nat.zero_add] at this
  simp only [region, this, Nat.add_assoc]
  exact exists_congr fun st => exists_congr fun k => by constructor <;> rintro ⟨h1, h2, h3⟩ <;> exact ⟨by omega, by omega, h3⟩

/-- One half's permutation: the outputs `a k` that have one side. -/
theorem halfPerm_isPerm (P : IsPerm (2 * h) pi) (S : Sided h pi side ins) {a : Nat → Nat} {v : Nat}
    (pair : ∀ k < h, a k / 2 = k) (same : ∀ k < h, side (a k) = v) : IsPerm h ((List.range h).map (fun k => pi.getD (a k) 0 / 2)) := by
  have inside : ∀ k < h, a k < 2 * h := fun k hk => by have := pair k hk; omega
  refine ⟨by simp, nodup_map_of ?_ List.nodup_range, ?_⟩
  · intro k hk k' hk' e
    rw [List.mem_range] at hk hk'
    have one : pi.getD (a k) 0 = pi.getD (a k') 0 := by
      have sides : ins (pi.getD (a k) 0) = ins (pi.getD (a k') 0) := by
        rw [← S.agree _ (inside k hk), ← S.agree _ (inside k' hk'), same k hk, same k' hk']
      have lt := P.getD_lt (inside k hk)
      rcases even_or_odd (pi.getD (a k) 0) with ⟨m, hm | hm⟩ <;>
        rcases even_or_odd (pi.getD (a k') 0) with ⟨m', hm' | hm'⟩ <;> rw [hm, hm'] at e sides ⊢
      · omega
      · have : m = m' := by omega
        subst this
        have := S.ins_odd m (by omega)
        have := S.ins_lt m (by omega)
        omega
      · have : m = m' := by omega
        subst this
        have := S.ins_odd m (by omega)
        have := S.ins_lt m (by omega)
        omega
      · omega
    have := P.inj (inside k hk) (inside k' hk') one
    rw [← pair k hk, ← pair k' hk', this]
  · intro p hp
    obtain ⟨k, hk, rfl⟩ := List.mem_map.mp hp
    have := P.getD_lt (inside k (List.mem_range.mp hk))
    omega

theorem Sided.upper (S : Sided h pi side ins) {k : Nat} (hk : k < h) : side (2 * k + side (2 * k)) = 0 := by
  have := S.side_lt k hk
  obtain e | e : side (2 * k) = 0 ∨ side (2 * k) = 1 := by omega
  · rw [e, Nat.add_zero, e]
  · rw [e, S.side_odd k hk, e]

theorem Sided.lower (S : Sided h pi side ins) {k : Nat} (hk : k < h) : side (2 * k + 1 - side (2 * k)) = 1 := by
  have := S.side_lt k hk
  obtain e | e : side (2 * k) = 0 ∨ side (2 * k) = 1 := by omega
  · rw [e, Nat.sub_zero, S.side_odd k hk, e]
  · rw [e, Nat.add_sub_cancel, e]

/-- The output of a pair that has side 0, and the one that has side 1. -/
theorem Sided.line_upper (S : Sided h pi side ins) {l : Nat} (hl : l < 2 * h) (zero : side l = 0) :
    2 * (l / 2) + side (2 * (l / 2)) = l := by
  rcases even_or_odd l with ⟨k, rfl | rfl⟩
  · rw [show 2 * k / 2 = k by omega, zero, Nat.add_zero]
  · have := S.side_lt k (by omega)
    have := S.side_odd k (by omega)
    rw [show (2 * k + 1) / 2 = k by omega]
    omega

theorem Sided.line_lower (S : Sided h pi side ins) {l : Nat} (hl : l < 2 * h) (other : side l ≠ 0) :
    2 * (l / 2) + 1 - side (2 * (l / 2)) = l ∧ side l = 1 := by
  rcases even_or_odd l with ⟨k, rfl | rfl⟩
  · have := S.side_lt k (by omega)
    rw [show 2 * k / 2 = k by omega]
    omega
  · have := S.side_lt k (by omega)
    have := S.side_odd k (by omega)
    rw [show (2 * k + 1) / 2 = k by omega]
    omega

theorem upperPerm_isPerm (P : IsPerm (2 * h) pi) (S : Sided h pi side ins) : IsPerm h (upperPerm pi side h) :=
  halfPerm_isPerm P S (fun k hk => by have := S.side_lt k hk; omega) (fun _ hk => S.upper hk)

theorem lowerPerm_isPerm (P : IsPerm (2 * h) pi) (S : Sided h pi side ins) : IsPerm h (lowerPerm pi side h) :=
  halfPerm_isPerm P S (fun k hk => by have := S.side_lt k hk; omega) (fun _ hk => S.lower hk)

theorem half_lt {d q : Nat} (hq : q < 2 ^ d) : 2 * q < 2 ^ (d + 1) ∧ 2 * q + 1 < 2 ^ (d + 1) := by
  rw [Nat.pow_succ]; omega

/-- The bits of one level of Route: its own switches' and those of its halves, all apart. -/
theorem level_bits (S : Sided (2 ^ (fuel + 1)) pi side ins) (hd : d < 4) (hc : q * 2 ^ (fuel + 1) + 2 ^ (fuel + 1) ≤ 16) {a b : Nat}
    (ha : ∀ e, a.testBit e = true → region fuel (d + 1) (2 * q) e) (hb : ∀ e, b.testBit e = true → region fuel (d + 1) (2 * q + 1) e) :
    hasBits (ownBits side ins d (q * 2 ^ (fuel + 1)) (2 ^ (fuel + 1)) + a + b) (fun e =>
      ((∃ k < 2 ^ (fuel + 1), (ins (2 * k) = 1 ∧ e = 16 * d + q * 2 ^ (fuel + 1) + k) ∨
        (side (2 * k) = 1 ∧ e = 16 * (8 - d) + q * 2 ^ (fuel + 1) + k)) ∨ a.testBit e = true) ∨ b.testBit e = true) := by
  have own := ownBits_has hd hc S.side_lt S.ins_lt
  have width : 2 ^ (fuel + 1) = 2 ^ fuel + 2 ^ fuel := by grind
  refine hasBits_add (hasBits_add own (fun e => Iff.rfl) ?_) (fun e => Iff.rfl) ?_
  · rintro e ⟨k, hk, own⟩ he
    obtain ⟨st, k', h1, h2, h3, h4⟩ := region_upper.mp (ha e he)
    omega
  · rintro e (⟨k, hk, own⟩ | he) he'
    · obtain ⟨st, k', h1, h2, h3, h4⟩ := region_lower.mp (hb e he')
      omega
    · obtain ⟨st, k, h1, h2, h3, h4⟩ := region_upper.mp (ha e he)
      obtain ⟨st', k', h1', h2', h3', h4'⟩ := region_lower.mp (hb e he')
      omega

/-- Route sets bits of its own network alone. -/
theorem route_bits (fuel : Nat) : ∀ (d q : Nat) (pi : List Nat), fuel + d = 4 → q < 2 ^ d → IsPerm (2 ^ (fuel + 1)) pi →
    ∀ e, (route fuel d q pi).testBit e = true → region fuel d q e := by
  induction fuel with
  | zero =>
    intro d q pi hd hq P e he
    have bit := (hasBits_bit (P.getD_lt (by decide : 0 < 2 ^ (0 + 1))) (16 * 4 + q) e).mp he
    exact ⟨4, 0, by omega, by omega, by decide, by omega⟩
  | succ fuel ih =>
    intro d q pi hd hq P e he
    have P' : IsPerm (2 * 2 ^ (fuel + 1)) pi := by rwa [← Nat.pow_succ']
    obtain ⟨side, ins, S, eq⟩ := route_succ P' fuel d q
    obtain ⟨qu, ql⟩ := half_lt hq
    have hu := ih (d + 1) (2 * q) _ (by omega) qu (upperPerm_isPerm P' S)
    have hl := ih (d + 1) (2 * q + 1) _ (by omega) ql (lowerPerm_isPerm P' S)
    have width : 2 ^ (fuel + 1) = 2 ^ fuel + 2 ^ fuel := by grind
    rw [eq] at he
    rcases (level_bits S (by omega) (columns_le hd hq) hu hl e).mp he with (⟨k, hk, own | own⟩ | he) | he
    · exact ⟨d, k, Nat.le_refl _, by omega, hk, own.2⟩
    · exact ⟨8 - d, k, by omega, Nat.le_refl _, hk, own.2⟩
    · obtain ⟨st, k, h1, h2, h3, h4⟩ := region_upper.mp (hu e he)
      exact ⟨st, k, by omega, by omega, by omega, h4⟩
    · obtain ⟨st, k, h1, h2, h3, h4⟩ := region_lower.mp (hl e he)
      exact ⟨st, 2 ^ fuel + k, by omega, by omega, by omega, by omega⟩

-- The network.

theorem flatMap_pairs (f g : Nat → Word) (h : Nat) : ((List.range h).flatMap (fun k => [f k, g k])).length = 2 * h ∧
    ∀ k < h, ((List.range h).flatMap (fun k => [f k, g k])).getD (2 * k) 0 = f k ∧
      ((List.range h).flatMap (fun k => [f k, g k])).getD (2 * k + 1) 0 = g k := by
  induction h with
  | zero => exact ⟨rfl, fun k hk => absurd hk (Nat.not_lt_zero k)⟩
  | succ h ih =>
    obtain ⟨length, values⟩ := ih
    rw [List.range_succ, List.flatMap_append]
    refine ⟨by rw [List.length_append, length]; rfl, fun k hk => ?_⟩
    by_cases last : k = h
    · subst last
      rw [getD_append_right _ _ _ _ (by omega), getD_append_right _ _ _ _ (by omega), length]
      simp
    · rw [getD_append_left _ _ _ _ (by omega), getD_append_left _ _ _ _ (by omega)]
      exact values k (by omega)

/-- The words that enter the upper and the lower half network. -/
theorem half_inputs (S : Sided h pi side ins) (x : List Word) {i : Nat} (hi : i < 2 * h) :
    (ins i = 0 → ((List.range h).map (fun k => x.getD (2 * k + ins (2 * k)) 0)).getD (i / 2) 0 = x.getD i 0) ∧
    (ins i = 1 → ((List.range h).map (fun k => x.getD (2 * k + 1 - ins (2 * k)) 0)).getD (i / 2) 0 = x.getD i 0) := by
  have half : i / 2 < h := by omega
  have at_ : ∀ f : Nat → Word, ((List.range h).map f).getD (i / 2) 0 = f (i / 2) := fun f => by
    simp [List.getD_eq_getElem?_getD, half]
  rw [at_, at_]
  have lt := S.ins_lt _ half
  have odd := S.ins_odd _ half
  rcases even_or_odd i with ⟨k, rfl | rfl⟩
  · rw [show 2 * k / 2 = k by omega] at lt ⊢
    exact ⟨fun e => by rw [e, Nat.add_zero], fun e => by rw [e, Nat.add_sub_cancel]⟩
  · rw [show (2 * k + 1) / 2 = k by omega] at lt odd ⊢
    exact ⟨fun e => by rw [show ins (2 * k) = 1 by omega], fun e => by rw [show ins (2 * k) = 0 by omega, Nat.sub_zero]⟩

/-- One level of the network, where its switches stand as the sides say. -/
theorem benes_succ {ctl : Nat} {x : List Word} (hx : x.length = 2 * h) (S : Sided h pi side ins)
    (hin : ∀ k < h, ctlBit ctl d (q * h + k) = ins (2 * k)) (hout : ∀ k < h, ctlBit ctl (8 - d) (q * h + k) = side (2 * k)) {l : Nat}
    (hl : l < 2 * h) : (benes ctl (fuel + 1) d q x).getD l 0 =
      if side l = 0 then
        (benes ctl fuel (d + 1) (2 * q) ((List.range h).map (fun k => x.getD (2 * k + ins (2 * k)) 0))).getD (l / 2) 0
      else (benes ctl fuel (d + 1) (2 * q + 1) ((List.range h).map (fun k => x.getD (2 * k + 1 - ins (2 * k)) 0))).getD (l / 2) 0 := by
  have half : x.length / 2 = h := by omega
  have upper : (List.range h).map (fun k => x.getD (2 * k + ctlBit ctl d (q * h + k)) 0) =
      (List.range h).map (fun k => x.getD (2 * k + ins (2 * k)) 0) :=
    List.map_congr_left fun k hk => by rw [hin k (List.mem_range.mp hk)]
  have lower : (List.range h).map (fun k => x.getD (2 * k + 1 - ctlBit ctl d (q * h + k)) 0) =
      (List.range h).map (fun k => x.getD (2 * k + 1 - ins (2 * k)) 0) :=
    List.map_congr_left fun k hk => by rw [hin k (List.mem_range.mp hk)]
  generalize hu : benes ctl fuel (d + 1) (2 * q) ((List.range h).map (fun k => x.getD (2 * k + ins (2 * k)) 0)) = u
  generalize hw : benes ctl fuel (d + 1) (2 * q + 1) ((List.range h).map (fun k => x.getD (2 * k + 1 - ins (2 * k)) 0)) = w
  have out : benes ctl (fuel + 1) d q x = (List.range h).flatMap (fun k =>
      [if side (2 * k) = 0 then u.getD k 0 else w.getD k 0, if side (2 * k) = 0 then w.getD k 0 else u.getD k 0]) := by
    simp only [benes, half, upper, lower, hu, hw]
    refine flatMap_ext fun k hk => ?_
    rw [hout k (List.mem_range.mp hk)]
    split <;> rfl
  rw [out]
  obtain ⟨_, values⟩ := flatMap_pairs (fun k => if side (2 * k) = 0 then u.getD k 0 else w.getD k 0)
    (fun k => if side (2 * k) = 0 then w.getD k 0 else u.getD k 0) h
  rcases even_or_odd l with ⟨k, rfl | rfl⟩
  · rw [(values k (by omega)).1, show 2 * k / 2 = k by omega]
  · rw [(values k (by omega)).2, show (2 * k + 1) / 2 = k by omega]
    have := S.side_lt k (by omega)
    have := S.side_odd k (by omega)
    by_cases e : side (2 * k) = 0
    · rw [if_pos e, if_neg (by omega)]
    · rw [if_neg e, if_pos (by omega)]

/-- A network whose control bits are those of Route performs the permutation. -/
theorem benes_routes (fuel : Nat) : ∀ (d q ctl : Nat) (pi : List Nat) (x : List Word), fuel + d = 4 → q < 2 ^ d →
    IsPerm (2 ^ (fuel + 1)) pi → x.length = 2 ^ (fuel + 1) →
    (∀ e, region fuel d q e → ctl.testBit e = (route fuel d q pi).testBit e) →
    ∀ l < 2 ^ (fuel + 1), (benes ctl fuel d q x).getD l 0 = x.getD (pi.getD l 0) 0 := by
  induction fuel with
  | zero =>
    intro d q ctl pi x hd hq P hx hctl l hl
    have first := P.getD_lt (by decide : 0 < 2 ^ (0 + 1))
    have switch : ctlBit ctl 4 q = pi.getD 0 0 := ctlBit_of first (by
      rw [hctl _ ⟨4, 0, by omega, by omega, by decide, by omega⟩]
      exact (hasBits_bit first (16 * 4 + q) _).trans (and_iff_left rfl))
    have second := P.getD_lt (by decide : 1 < 2 ^ (0 + 1))
    have differ : pi.getD 1 0 ≠ pi.getD 0 0 := fun e => absurd (P.inj (by decide) (by decide) e) (by decide)
    simp only [benes, switch]
    obtain rfl | rfl : l = 0 ∨ l = 1 := by omega
    · rfl
    · rw [show pi.getD 1 0 = 1 - pi.getD 0 0 by omega]
      rfl
  | succ fuel ih =>
    intro d q ctl pi x hd hq P hx hctl l hl
    have P' : IsPerm (2 * 2 ^ (fuel + 1)) pi := by rwa [← Nat.pow_succ']
    obtain ⟨side, ins, S, eq⟩ := route_succ P' fuel d q
    obtain ⟨qu, ql⟩ := half_lt hq
    have Pu := upperPerm_isPerm P' S
    have Pl := lowerPerm_isPerm P' S
    have hu := route_bits fuel (d + 1) (2 * q) _ (by omega) qu Pu
    have hlw := route_bits fuel (d + 1) (2 * q + 1) _ (by omega) ql Pl
    have bits := level_bits S (by omega) (columns_le hd hq) hu hlw
    rw [← eq] at bits
    have hl' : l < 2 * 2 ^ (fuel + 1) := by rwa [← Nat.pow_succ']
    have own : ∀ st k, k < 2 ^ (fuel + 1) → d ≤ st → st ≤ 8 - d →
        ctl.testBit (16 * st + (q * 2 ^ (fuel + 1) + k)) = (route (fuel + 1) d q pi).testBit (16 * st + (q * 2 ^ (fuel + 1) + k)) :=
      fun st k hk h1 h2 => hctl _ ⟨st, k, h1, h2, hk, by omega⟩
    have columns := columns_le hd hq
    have width : 2 ^ (fuel + 1) = 2 ^ fuel + 2 ^ fuel := by grind
    rw [benes_succ (h := 2 ^ (fuel + 1)) (by rw [hx, Nat.pow_succ']) S ?_ ?_ hl']
    · have upper : ∀ e, region fuel (d + 1) (2 * q) e → ctl.testBit e =
          (route fuel (d + 1) (2 * q) (upperPerm pi side (2 ^ (fuel + 1)))).testBit e := by
        intro e he
        obtain ⟨st, k, h1, h2, h3, rfl⟩ := region_upper.mp he
        rw [hctl _ ⟨st, k, by omega, by omega, by omega, rfl⟩, Bool.eq_iff_iff, bits]
        refine ⟨?_, fun b => .inl (.inr b)⟩
        rintro ((⟨k', hk', b⟩ | b) | b)
        · omega
        · exact b
        · obtain ⟨st', k', h1', h2', h3', h4'⟩ := region_lower.mp (hlw _ b); omega
      have lower : ∀ e, region fuel (d + 1) (2 * q + 1) e → ctl.testBit e =
          (route fuel (d + 1) (2 * q + 1) (lowerPerm pi side (2 ^ (fuel + 1)))).testBit e := by
        intro e he
        obtain ⟨st, k, h1, h2, h3, rfl⟩ := region_lower.mp he
        rw [hctl _ ⟨st, 2 ^ fuel + k, by omega, by omega, by omega, by omega⟩, Bool.eq_iff_iff, bits]
        refine ⟨?_, .inr⟩
        rintro ((⟨k', hk', b⟩ | b) | b)
        · omega
        · obtain ⟨st', k', h1', h2', h3', h4'⟩ := region_upper.mp (hu _ b); omega
        · exact b
      have half : l / 2 < 2 ^ (fuel + 1) := by omega
      have inputs := half_inputs S x (P'.getD_lt hl')
      split
      · rename_i side0
        have line := S.line_upper hl' side0
        rw [ih (d + 1) (2 * q) ctl _ _ (by omega) qu Pu (by simp) upper _ half, upperPerm,
          show ((List.range (2 ^ (fuel + 1))).map (fun k => pi.getD (2 * k + side (2 * k)) 0 / 2)).getD (l / 2) 0 = pi.getD l 0 / 2 by
            simp [List.getD_eq_getElem?_getD, half, line]]
        exact inputs.1 ((S.agree l hl').symm.trans side0)
      · rename_i side1
        obtain ⟨line, one⟩ := S.line_lower hl' side1
        rw [ih (d + 1) (2 * q + 1) ctl _ _ (by omega) ql Pl (by simp) lower _ half, lowerPerm,
          show ((List.range (2 ^ (fuel + 1))).map (fun k => pi.getD (2 * k + 1 - side (2 * k)) 0 / 2)).getD (l / 2) 0 = pi.getD l 0 / 2 by
            simp [List.getD_eq_getElem?_getD, half, line]]
        exact inputs.2 ((S.agree l hl').symm.trans one)
    · intro k hk
      refine ctlBit_of (S.ins_lt k hk) ?_
      rw [own d k hk (Nat.le_refl _) (by omega), bits]
      refine ⟨?_, fun one => .inl (.inl ⟨k, hk, .inl ⟨one, by omega⟩⟩)⟩
      rintro ((⟨k', hk', b | b⟩ | b) | b)
      · rw [show k = k' by omega]; exact b.1
      · omega
      · obtain ⟨st, k', h1, h2, h3, h4⟩ := region_upper.mp (hu _ b); omega
      · obtain ⟨st, k', h1, h2, h3, h4⟩ := region_lower.mp (hlw _ b); omega
    · intro k hk
      refine ctlBit_of (S.side_lt k hk) ?_
      rw [own (8 - d) k hk (by omega) (Nat.le_refl _), bits]
      refine ⟨?_, fun one => .inl (.inl ⟨k, hk, .inr ⟨one, by omega⟩⟩)⟩
      rintro ((⟨k', hk', b | b⟩ | b) | b)
      · omega
      · rw [show k = k' by omega]; exact b.1
      · obtain ⟨st, k', h1, h2, h3, h4⟩ := region_upper.mp (hu _ b); omega
      · obtain ⟨st, k', h1, h2, h3, h4⟩ := region_lower.mp (hlw _ b); omega

/-- Settles O30: Route of the whole string is the network at level 0. -/
theorem routesPerformPermutations : Obligations.RoutesPerformPermutations := by
  unfold Obligations.RoutesPerformPermutations
  intro pi x length nodup lt hx l hl
  exact benes_routes 4 0 0 _ pi x rfl (by decide) ⟨length, nodup, lt⟩ hx (fun _ _ => rfl) l hl

end Sys2Proof.Machine
end

section
/-! SUPPORT. What a closer does once its plan has passed, in crews and engine contexts; the groups of a split; parking a crew.
With them the branches (O31). -/

namespace Sys2Proof.Machine

variable {s : State} {id n : Nat} {c : Crew} {h : Heat}

-- Closers.

theorem Closing.issuer (H : Closing s id n c h) : s.issuer id = some (s.setCrew id c, c) := by
  simp [State.issuer, H.crew, Crew.settle_of_none (Crew.drain_of_heat H.heat) H.named]

theorem Heat.met_none {h : Heat} (good : ∀ p ∈ h.pend, p.got.bad = none) (f : Pend → Bool) : h.met f = none := by
  refine List.findSome?_eq_none_iff.2 fun p hp => ?_
  simp [good p (List.mem_filter.1 hp).1]

/-- A closer whose plan passes closes its heat: one that names results, or whose results met no error. -/
theorem closeCrew_passed (heat : c.heat = some h) (slot : h.slot = n) (skip : h.skip ≠ some h.off) {quench names : Bool} {plan : Plan}
    {s' : State} {go : State → State} (tret : (h.tret && !quench) = false) (passes : plan s id c h.ahead = .ok (s', go))
    (busy : s.regHold id h = none) (gives : c.giveRefill h = []) (calm : names = true ∨ ∀ p ∈ h.pend, p.got.bad = none) :
    s.closeCrew id n c true quench names plan = s'.finishClose id n names go := by
  have met : (if names then none else h.met (fun _ => true)) = none := by
    rcases calm with rfl | good
    · rfl
    · simp [Heat.met_none good]
  have skip : (h.skip == some h.off) = false := by simpa using skip
  simp only [State.closeCrew, heat, slot, tret, skip, passes, busy, gives, met]
  simp

theorem Closing.completes (H : Closing s id n c h) {quench names : Bool} {plan : Plan} {eng : State → Nat → Eng → State} {s' : State}
    {go : State → State} (passes : plan (s.setCrew id c) id c h.ahead = .ok (s', go))
    (calm : names = true ∨ ∀ p ∈ h.pend, p.got.bad = none) :
    s.closer true quench names plan eng = .next (s'.finishClose id n names go) := by
  simp only [State.closer, State.bothWord, H.cur, H.issuer]
  exact congrArg _ (closeCrew_passed H.heat H.slot H.skip (by simp [H.tret]) passes H.busy H.gives calm)

theorem EngClosing.closes {k : Nat} {e e' : Eng} {t : DWord} (H : EngClosing s k e) {f : Eng → Except Stop (Eng × DWord)}
    (passes : f (e.age true) = .ok (e', t)) : s.closeEng k e true f = (s.setEng k e').engGo k e.pc t := by
  have entry : e.entry.isNone = false := by simpa using H.entry
  have room : ¬24 ≤ e.off := Nat.not_le.2 H.room
  simp only [State.closeEng, passes, entry, room]
  rfl

theorem EngClosing.completes {k : Nat} {e e' : Eng} {t : DWord} (H : EngClosing s k e) {wf quench names : Bool} {plan : Plan}
    {f : Eng → Except Stop (Eng × DWord)} (passes : f (e.age true) = .ok (e', t)) :
    s.closer wf quench names plan (fun s k e => s.closeEng k e true f) = .next ((s.setEng k e').engGo k e.pc t) := by
  simp only [State.closer, State.bothWord, H.cur, H.eng, H.closes passes]

theorem badTarget_none {t : DWord} (low : fieldOf t 57 7 = 0) (aligned : fieldOf t 0 2 = 0) : badTarget t = none := by
  simp [badTarget, low, aligned]

/-- A plan whose target passes its checks goes on. -/
theorem badTarget_passes {α : Type} {t : DWord} (low : fieldOf t 57 7 = 0) (aligned : fieldOf t 0 2 = 0) (x : Except Stop α) :
    (match badTarget t with
      | some st => .error st
      | none => x) = x := by
  rw [badTarget_none low aligned]

-- The groups of a split (R41).

theorem maskOf_getLsbD (f : Nat → Bool) {l : Nat} (hl : l < 32) : (maskOf f).getLsbD l = f l := by
  have bits : ∀ k, k ≤ 32 → ((List.range k).foldl (fun m l => if f l then m ||| (1#32 <<< l) else m) (0 : Word)).getLsbD l =
      (decide (l < k) && f l) := by
    intro k
    induction k with
    | zero => simp
    | succ k ih =>
      intro hk
      rw [List.range_succ, List.foldl_append, List.foldl_cons, List.foldl_nil]
      by_cases hf : f k = true
      · rw [if_pos hf, BitVec.getLsbD_or, ih (by omega), BitVec.getLsbD_shiftLeft, BitVec.getLsbD_one]
        rcases Nat.lt_trichotomy l k with lt | rfl | gt
        · simp [lt, show l < k + 1 by omega]
        · simp [hf, hl]
        · simp [show ¬l < k by omega, show ¬l < k + 1 by omega, show l - k ≠ 0 by omega]
      · rw [if_neg hf, ih (by omega)]
        by_cases e : l = k
        · subst e; simp [hf]
        · simp [show l < k + 1 ↔ l < k by omega]
  exact (bits 32 (Nat.le_refl _)).trans (by simp [hl])

theorem lanesIn_maskOf (f : Nat → Bool) : lanesIn (maskOf f) = (List.range 32).filter f :=
  List.filter_congr fun _ hl => maskOf_getLsbD f (List.mem_range.1 hl)

theorem lanesIn_group (f : Nat → DWord) (m : Word) (t : DWord) :
    lanesIn (maskOf (fun l => m.getLsbD l && f l == t)) = (lanesIn m).filter (fun l => f l == t) := by
  rw [lanesIn_maskOf, lanesIn, List.filter_filter]
  exact List.filter_congr fun l _ => Bool.and_comm _ _

theorem map_filter_ne (f : Nat → DWord) (t : DWord) (l : List Nat) :
    (l.map f).filter (fun u => !u == t) = (l.filter (fun x => !f x == t)).map f := by
  rw [List.filter_map]; rfl

theorem nodup_eraseDups (l : List DWord) : l.eraseDups.Nodup := by
  induction h : l.length using Nat.strongRecOn generalizing l with
  | _ k ih =>
    cases l with
    | nil => simp
    | cons a r =>
      rw [List.eraseDups_cons, List.nodup_cons]
      refine ⟨by simp, ih _ ?_ _ rfl⟩
      have := List.length_filter_le (fun b => !b == a) r
      simp only [List.length_cons] at h
      omega

/-- Targets in the order of their first lanes. -/
theorem pairwise_first (f : Nat → DWord) (l : List Nat) (sorted : l.Pairwise (· < ·)) :
    (l.map f).eraseDups.Pairwise (fun t u =>
      (l.filter (fun x => f x == t)).headD 0 < (l.filter (fun x => f x == u)).headD 0) := by
  induction hk : l.length using Nat.strongRecOn generalizing l with
  | _ k ih =>
    cases l with
    | nil => simp
    | cons a r =>
      obtain ⟨first, later⟩ := List.pairwise_cons.1 sorted
      rw [List.map_cons, List.eraseDups_cons, map_filter_ne, List.pairwise_cons]
      have rest : ∀ u, u ≠ f a → (a :: r).filter (fun x => f x == u) = (r.filter (fun x => !f x == f a)).filter (fun x => f x == u) := by
        intro u hu
        rw [List.filter_cons_of_neg (by simpa using fun e => hu e.symm), List.filter_filter]
        refine List.filter_congr fun x _ => ?_
        by_cases e : f x = u <;> simp [e, hu]
      constructor
      · intro u hu
        obtain ⟨x, hx, rfl⟩ := List.mem_map.1 (List.mem_eraseDups.1 hu)
        obtain ⟨hr, hne⟩ := List.mem_filter.1 hx
        have hne : f x ≠ f a := by simpa using hne
        rw [rest _ hne, List.filter_cons_of_pos (by simp)]
        have own : x ∈ (r.filter (fun y => !f y == f a)).filter (fun y => f y == f x) := by simp [hr, hne]
        obtain ⟨y, q, hy⟩ := List.exists_cons_of_ne_nil (List.ne_nil_of_mem own)
        have : y ∈ (r.filter (fun y => !f y == f a)).filter (fun y => f y == f x) := by simp [hy]
        rw [hy]
        exact first y (List.mem_filter.1 (List.mem_filter.1 this).1).1
      · have shorter := List.length_filter_le (fun x => !f x == f a) r
        simp only [List.length_cons] at hk
        refine (ih _ (by omega) _ (later.filter _) rfl).imp_of_mem fun {t u} ht hu lt => ?_
        have other : ∀ v ∈ ((r.filter (fun x => !f x == f a)).map f).eraseDups, v ≠ f a := by
          intro v hv
          obtain ⟨x, hx, rfl⟩ := List.mem_map.1 (List.mem_eraseDups.1 hv)
          simpa using (List.mem_filter.1 hx).2
        rwa [rest t (other t ht), rest u (other u hu)]

theorem sorted_lanesIn (m : Word) : (lanesIn m).Pairwise (· < ·) := List.pairwise_lt_range.filter _

/-- A group holds exactly the lanes with its target, and is not empty. -/
theorem groupBy_mask {f : Nat → DWord} {m w : Word} {t : DWord} (hw : (t, w) ∈ groupBy f m) :
    w ≠ 0 ∧ ∀ l, l < 32 → (w.getLsbD l = true ↔ m.getLsbD l = true ∧ f l = t) := by
  obtain ⟨t', ht, e⟩ := List.mem_map.1 hw
  obtain ⟨rfl, rfl⟩ := Prod.mk.inj e
  have bits : ∀ l, l < 32 → ((maskOf (fun l => m.getLsbD l && f l == t')).getLsbD l = true ↔ m.getLsbD l = true ∧ f l = t') := by
    intro l hl
    rw [maskOf_getLsbD _ hl, Bool.and_eq_true, beq_iff_eq]
  refine ⟨fun empty => ?_, bits⟩
  obtain ⟨l, hl, rfl⟩ := List.mem_map.1 (List.mem_eraseDups.1 ht)
  obtain ⟨hl, hm⟩ := mem_lanesIn.1 hl
  have := (bits l hl).2 ⟨hm, rfl⟩
  rw [empty] at this
  simp at this

theorem groupBy_targets (f : Nat → DWord) (m : Word) : (groupBy f m).map Prod.fst = ((lanesIn m).map f).eraseDups := by
  rw [groupBy, List.map_map]
  exact List.map_id _

theorem groupBy_covers {f : Nat → DWord} {m : Word} {l : Nat} (hl : l < 32) (hm : m.getLsbD l = true) : ∃ w, (f l, w) ∈ groupBy f m :=
  ⟨_, List.mem_map.2 ⟨f l, List.mem_eraseDups.2 (List.mem_map.2 ⟨l, mem_lanesIn.2 ⟨hl, hm⟩, rfl⟩), rfl⟩⟩

theorem groupBy_lowest (f : Nat → DWord) (m : Word) : (groupBy f m).Pairwise (fun a b => lowest a.2 < lowest b.2) := by
  rw [groupBy, List.pairwise_map]
  simp only [lowest, lanesIn_group]
  exact pairwise_first f _ (sorted_lanesIn m)

-- Parking a crew.

theorem State.crew_of_crews {s t : State} (hc : t.crews = s.crews) (k : Nat) : t.crew k = s.crew k := by rw [State.crew, hc]; rfl

theorem freeBar_crews (s : State) (id w : Nat) : (s.freeBar id w).crews = s.crews := by
  unfold State.freeBar
  dsimp only
  split
  · exact (grantNext_crews _ _).trans (putBar_crews ..)
  · exact putBar_crews ..

theorem dropMonitor_crews (s : State) (id : Nat) : (s.dropMonitor id).crews = s.crews := by
  unfold State.dropMonitor
  split
  · exact grantNext_crews _ _
  · rfl

theorem updCrew_of_crews {t : State} (same : t.crews = s.crews) (hc : s.crew id = some c) (f : Crew → Crew) :
    (t.updCrew id f).crews = (s.setCrew id (f c)).crews := by
  rw [State.updCrew_of ((State.crew_of_crews same id).trans hc)]
  exact congrArg (fun x => Tab.put x id (f c)) same

/-- Giving up a wait changes the wait of that crew alone. -/
theorem unwait_crews (hc : s.crew id = some c) : ∃ w, (s.unwait id).crew id = some { c with wait := w } ∧
    (c.wait = .none → w = .none) ∧ ∀ k, k ≠ id → (s.unwait id).crew k = s.crew k := by
  have upd : ∀ {t : State} (w : Wait), t.crews = s.crews →
      (t.updCrew id (fun c => { c with wait := w })).crew id = some { c with wait := w } ∧
      ∀ k, k ≠ id → (t.updCrew id (fun c => { c with wait := w })).crew k = s.crew k := by
    intro t w same
    have := updCrew_of_crews same hc (fun c => { c with wait := w })
    exact ⟨(State.crew_of_crews this id).trans (State.crew_setCrew_same ..),
      fun k hk => (State.crew_of_crews this k).trans (State.crew_setCrew_other _ _ hk)⟩
  simp only [State.unwait, hc]
  split
  · rename_i w g t b hw
    obtain ⟨a, b⟩ := upd (if b = true then .arrived g else .none) (freeBar_crews s id w)
    exact ⟨_, a, by simp [hw], b⟩
  · rename_i w g t b hw
    obtain ⟨a, b⟩ := upd (t := s) (if b = true then .arrived g else .none) rfl
    exact ⟨_, a, by simp [hw], b⟩
  · obtain ⟨a, b⟩ := upd .none (dropMonitor_crews s id)
    exact ⟨_, a, fun _ => rfl, b⟩
  · rename_i g hw
    exact ⟨c.wait, hc, fun idle => idle, fun _ _ => rfl⟩
  · obtain ⟨a, b⟩ := upd (t := s) .none rfl
    exact ⟨_, a, fun _ => rfl, b⟩

theorem notice_crews (s : State) (v : Nat) : (s.notice v).crews = s.crews := by
  unfold State.notice; split <;> rfl

theorem postRec_crews (s : State) (d : Nat) (r : FaultRec) : (s.postRec d r).1.crews = s.crews := by
  unfold State.postRec
  dsimp only
  split
  · rfl
  · dsimp only
    split
    · exact notice_crews _ _
    · rfl

/-- What a fault keeps: what its counts, its record and the queue of faults all keep. -/
theorem post_keep {α : Type} (g : State → α) (counts : ∀ s l, g { s with regions := l } = g s) (queues : ∀ s p, g { s with port := p } = g s)
    (records : ∀ s d r, g (State.postRec s d r).1 = g s) (s : State) (d k : Nat) (e : Bool) (r : FaultRec) :
    g (s.post d k e r).1 = g s := by
  have counted : ∀ s rk f, g (State.updRegion s rk f) = g s := by
    intro s rk f
    unfold State.updRegion
    split
    · exact counts ..
    · rfl
  unfold State.post
  -- Only what these keep matters, and the kernel must not compute them.
  generalize State.postRec = posting at records ⊢
  generalize State.updRegion = counting at counted ⊢
  generalize s.regions.find? (fun kv => kv.2.rcb == r.rcb) = region
  generalize r.info.testBit 23 = fatal
  have ends : ∀ v : State, g v = g s → g (if v.port.unposted.any (fun u => u.fdom == d) then
      ({ v with port := { v.port with unposted := v.port.unposted ++ [⟨d, k, e, r⟩] } }, none)
    else
      match posting v d r with
      | (s, some q) => (s, some q)
      | (s, none) => ({ s with port := { s.port with unposted := s.port.unposted ++ [⟨d, k, e, r⟩] } }, none)).1 = g s := by
    intro v hv
    have posted := (records v d r).trans hv
    split
    · exact (queues ..).trans hv
    · split
      · rename_i hp
        rwa [hp] at posted
      · rename_i hp
        rw [hp] at posted
        exact (queues ..).trans posted
  cases region with
  | none =>
    cases fatal with
    | false =>
      refine ends _ ?_
      rfl
    | true => exact ends _ (queues ..)
  | some kv =>
    cases fatal with
    | false => exact ends _ (counted ..)
    | true => exact ends _ ((queues ..).trans (counted ..))
theorem post_crews (s : State) (d k : Nat) (e : Bool) (r : FaultRec) : (s.post d k e r).1.crews = s.crews :=
  post_keep State.crews (fun _ _ => rfl) (fun _ _ => rfl) postRec_crews s d k e r

/-- Parking sets the crew's record, and ends its wait; other crews stay as they are. -/
theorem parkCrew_crew (hc : s.crew id = some c) (r : FaultRec) (late : Bool) : ∃ w q,
    (s.parkCrew id n r late).crew id = some { c with wait := w, park := some ⟨r, q, late, n, none, 0⟩, kept := false } ∧
    (c.wait = .none → w = .none) ∧ ∀ k, k ≠ id → (s.parkCrew id n r late).crew k = s.crew k := by
  obtain ⟨w, own, idle, others⟩ := unwait_crews hc
  simp only [State.parkCrew, hc]
  have posted := post_crews (s.unwait id) (s.whoCrew id c).fdom id false r
  have upd := updCrew_of_crews posted own
  exact ⟨w, _, (State.crew_of_crews (upd _) id).trans (State.crew_setCrew_same ..), idle,
    fun k hk => (State.crew_of_crews (upd _) k).trans ((State.crew_setCrew_other _ _ hk).trans (others k hk))⟩

-- Splits (R41, R44).

/-- A request takes a place in its core's queue, and changes nothing else of the crew. -/
theorem ask_eq (s : State) (c new : Crew) : ∃ a, s.ask c new = { new with ring := { new.ring with asked := a } } := by
  unfold State.ask
  split
  · exact ⟨_, rfl⟩
  · exact ⟨new.ring.asked, rfl⟩

/-- The crew of a split that the stack has room for. -/
def State.splitCrew (s : State) (c : Crew) (n : Nat) (keep : DWord × Word) (second : Option StackEntry) (pushed : List StackEntry)
    (units : List Nat) (entries : Nat) : Crew :=
  let c := c.setSlot n { c.slot n with pc := keep.1, mask := keep.2 }
  let c := match second with
    | some g => c.setSlot (1 - n) { pc := g.pc, mask := g.mask, base := g.base, chain := g.chain, parked := false }
    | none => c
  s.ask c { c with
    stack := pushed ++ c.stack, split := none
    ring := { c.ring with todo := c.ring.todo ++ units, entries := entries } }

theorem splitCrew_eq (s : State) (c : Crew) {n : Nat} (hn : n < 2) (keep : DWord × Word) (second : Option StackEntry)
    (pushed : List StackEntry) (units : List Nat) (entries : Nat) :
    let c' := s.splitCrew c n keep second pushed units entries
    c'.slot n = { c.slot n with pc := keep.1, mask := keep.2 } ∧
    (∀ g, second = some g → c'.slot (1 - n) = { pc := g.pc, mask := g.mask, base := g.base, chain := g.chain, parked := false }) ∧
    (second = none → c'.slot (1 - n) = c.slot (1 - n)) ∧ c'.stack = pushed ++ c.stack ∧ c'.com = c.com ∧ c'.exited = c.exited := by
  intro c'
  obtain ⟨a, made⟩ := ask_eq s (match second with
    | some g => (c.setSlot n { c.slot n with pc := keep.1, mask := keep.2 }).setSlot (1 - n)
        { pc := g.pc, mask := g.mask, base := g.base, chain := g.chain, parked := false }
    | none => c.setSlot n { c.slot n with pc := keep.1, mask := keep.2 }) _
  have made : c' = _ := made
  rw [made]
  cases second with
  | none =>
    exact ⟨Crew.slot_setSlot .., by simp, fun _ => Crew.slot_other_setSlot c _ hn, congrArg (pushed ++ ·) (Crew.stack_setSlot ..),
      Crew.com_setSlot .., Crew.exited_setSlot ..⟩
  | some g =>
    exact ⟨(Crew.slot_setSlot_of_other _ _ hn).trans (Crew.slot_setSlot ..),
      fun _ e => (Crew.slot_setSlot ..).trans (by rw [Option.some.inj e]), by simp,
      congrArg (pushed ++ ·) ((Crew.stack_setSlot ..).trans (Crew.stack_setSlot ..)),
      (Crew.com_setSlot ..).trans (Crew.com_setSlot ..), (Crew.exited_setSlot ..).trans (Crew.exited_setSlot ..)⟩

/-- A split with room for its entries: the slot's group, the second group, the entries pushed, and the checks of both targets. -/
theorem branchTo_room (hc : s.crew id = some c) (h : Heat) (src : DWord) (g : DWord × Word) (r : List (DWord × Word)) :
    let x := c.slot n
    let entry : DWord × Word → StackEntry := fun t => ⟨t.1, t.2, x.base, x.chain, src, false⟩
    let free := (c.slot (1 - n)).free
    let down := (if free then r.drop 1 else r).map entry
    (∀ units k e, s.pushPlan c down.length = some (units, k, e) →
      let c' := s.splitCrew c n g (if free then (r.map entry).head? else none) down units e
      let s1 := (s.setCrew id c').checkTarget id n src
      s.branchTo id n h src (g :: r) = if free = true ∧ r ≠ [] then s1.checkTarget id (1 - n) src else s1) ∧
    (s.pushPlan c down.length = none → ∃ c' p, (s.branchTo id n h src (g :: r)).crew id = some c' ∧ c'.slot n = x ∧
      c'.slot (1 - n) = c.slot (1 - n) ∧ c'.stack = c.stack ∧ c'.park = some p ∧ p.fr.cause = cSTACK ∧ p.late = true) := by
  intro x entry free down
  have pushed : (if free then (r.map entry).drop 1 else r.map entry) = down := by
    cases hf : free <;> simp [down, hf]
  have split : s.branchTo id n h src (g :: r) = s.makeSplit id ⟨n, entry g, r.map entry, h.entry, src, h.off⟩ := by
    simp only [State.branchTo, hc, entry, x]
  have any : (free && !(r.map entry).isEmpty) = true ↔ free = true ∧ r ≠ [] := by cases r <;> simp
  constructor
  · intro units k e room c' s1
    rw [split]
    simp only [State.makeSplit, hc]
    rw [show (if (c.slot (1 - n)).free = true then (r.map entry).drop 1 else r.map entry) = down from pushed, room]
    dsimp only
    by_cases both : free = true ∧ r ≠ []
    · rw [if_pos both]
      exact (if_pos (any.2 both)).trans rfl
    · rw [if_neg both]
      exact (if_neg (fun y => both (any.1 y))).trans rfl
  · intro full
    rw [split]
    simp only [State.makeSplit, hc]
    rw [show (if (c.slot (1 - n)).free = true then (r.map entry).drop 1 else r.map entry) = down from pushed, full]
    dsimp only
    obtain ⟨w, q, parked, -⟩ := parkCrew_crew (n := n) (State.crew_setCrew_same s id { c with split := some ⟨n, entry g, r.map entry, h.entry, src, h.off⟩ })
      { s.crewRec c n ⟨cSTACK, 0, 0⟩ none with heatpc := h.entry, wordpc := src, off := h.off } true
    exact ⟨_, _, parked, rfl, rfl, rfl, rfl, rfl, rfl⟩

/-- BRX whose targets pass their checks. -/
theorem Closing.brx (H : Closing s id h.slot c h) (a b : BitVec 5) (hb : Bool) (wf : (Instr.brx a b hb).wf = true)
    (tags : h.ahead.wrk.tagsIn [h.ahead.key b.toNat] [fmtINT32, fmtBITS] = true) (R : Readable c h.ahead [h.ahead.key b.toNat] [] [])
    (dest : Nat → DWord) (hd : dest = fun l => if (c.lanes h.ahead).getLsbD l then
      h.ahead.wrk.rdS a.toNat + ((lane (h.ahead.wrk.rdV (h.ahead.key b.toNat)) l).signExtend 64 <<< 2) else (c.slot h.ahead.slot).pc + 4)
    (ok : ∀ l, l < 32 → (c.lanes h.ahead).getLsbD l = true → fieldOf (dest l) 57 7 = 0 ∧ fieldOf (dest l) 0 2 = 0) :
    exec (.brx a b hb) s = .next (((s.setCrew id c).setCrew id (c.latched (if hb then [h.ahead.key b.toNat] else []))).finishClose id h.slot true
      (fun s => s.branchTo id h.ahead.slot h.ahead (c.slot h.ahead.slot).pc (groupBy dest (c.active h)))) := by
  have targets : ∀ t ∈ (lanesIn (c.lanes h.ahead)).map dest, fieldOf t 57 7 = 0 ∧ fieldOf t 0 2 = 0 := by
    intro t ht
    obtain ⟨l, hl, rfl⟩ := List.mem_map.1 ht
    exact ok l (mem_lanesIn.1 hl).1 (mem_lanesIn.1 hl).2
  have aligned : ((lanesIn (c.lanes h.ahead)).map dest).find? (fun t => fieldOf t 0 2 != 0) = none :=
    List.find?_eq_none.2 fun t ht => by simp [(targets t ht).2]
  have low : ((lanesIn (c.lanes h.ahead)).map dest).find? (fun t => fieldOf t 57 7 != 0) = none :=
    List.find?_eq_none.2 fun t ht => by simp [(targets t ht).1]
  have passed := check_ok R
  subst hd
  change execBrx a b hb s = _
  unfold execBrx
  rw [wf]
  refine H.completes ?_ (.inl rfl)
  change (match c.check h.ahead [h.ahead.key b.toNat] [] [] true (h.ahead.wrk.tagsIn [h.ahead.key b.toNat] [fmtINT32, fmtBITS]) with
    | .error e => (.error e : Except Stop (State × (State → State)))
    | .ok () => match ((lanesIn (c.lanes h.ahead)).map _).find? (fun t => fieldOf t 0 2 != 0),
        ((lanesIn (c.lanes h.ahead)).map _).find? (fun t => fieldOf t 57 7 != 0) with
      | some t, _ => .error (.fault ⟨cALIGN, 0, t.toNat⟩ none)
      | none, some t => .error (.fault ⟨cACCESS, aFetch, t.toNat⟩ none)
      | none, none => _) = _
  rw [tags, passed]
  dsimp only
  rw [aligned, low]
  rfl

/-- Settles O31: a closer's plan passes, and a split gives its groups to the slot, a free other slot and the stack. -/
theorem branchesComplete : Obligations.BranchesComplete := by
  unfold Obligations.BranchesComplete
  refine ⟨fun s id n c h H => ?_, fun f m => ⟨groupBy_targets f m ▸ nodup_eraseDups _, groupBy_lowest f m, fun t w => groupBy_mask,
    fun l => groupBy_covers⟩, fun s id n c h src g r hc hn => ?_, fun s k e H => ?_⟩
  · intro s0 pc r
    obtain rfl := H.slot
    exact ⟨show execQuench s = _ from H.completes (if_neg (by simp [show h.ahead.tret = false from H.tret])) (.inl rfl),
      fun p i o => show execBr p i o s = _ from H.completes rfl (.inl rfl),
      fun a low aligned => show execBra a s = _ from H.completes (badTarget_passes low aligned _) (.inl rfl),
      fun a b hb wf tags R => H.brx a b hb wf tags R _ rfl⟩
  · intro x o entry down
    obtain ⟨room, full⟩ := branchTo_room hc h src g r
    refine ⟨fun units hu => ?_, full⟩
    obtain ⟨first, second, none, stack, com, exited⟩ := splitCrew_eq s c hn g (if o.free then (r.map entry).head? else none) down units.1 units.2.2
    refine ⟨_, first, fun t q free more => second (entry t) (by simp [free, more]), ?_, stack, com, exited,
      room units.1 units.2.1 units.2.2 hu⟩
    rintro (busy | last)
    · exact none (by simp [busy])
    · exact none (by simp [last])
  · intro go
    refine ⟨show execQuench s = _ from H.completes rfl, fun p i o => ?_,
      fun a low aligned => show execBra a s = _ from H.completes (badTarget_passes low aligned _)⟩
    · refine (show execBr p i o s = _ from H.completes rfl).trans ?_
      have guard : ((e.age true).guard && ((e.age true).rdP p.toNat != i)) = true ↔ e.guard ∧ e.rdP p.toNat ≠ i := by
        rw [Bool.and_eq_true, bne_iff_ne]; rfl
      by_cases taken : e.guard ∧ e.rdP p.toNat ≠ i
      · rw [if_pos (guard.2 taken), if_pos taken]; rfl
      · rw [if_neg (fun x => taken (guard.1 x)), if_neg taken]; rfl

end Sys2Proof.Machine
end

section
/-! SUPPORT. Calls (O33), returns, exits and SLIDE (O34), BRK, SVC and TRAP (O36), the return from a handler (O38). -/

namespace Sys2Proof.Machine

variable {s : State} {id n : Nat} {c : Crew} {h : Heat}

-- Calls (O33).

theorem updCrew_uid (s : State) (id : Nat) (f : Crew → Crew) : (s.updCrew id f).uid = s.uid := by
  unfold State.updCrew
  split <;> rfl

/-- A call's record pushed on slot `n` and its window at `callee`, moved past the other slot's registers or not; then the target. -/
def State.pushCall (c : Crew) (b k callee id n : Nat) (links : Nat) (todo : List Nat) (t : DWord) (s : State) : State :=
  let pc := (c.slot n).pc
  let moved := callee != b + k
  let s' := s.updCrew id (fun c =>
    let c := if moved then c.copyRegs (b + k) callee (24 - k) (c.slot n).mask else c
    let x := c.slot n
    let c := c.setSlot n { x with base := callee, chain := ⟨s.uid, pc + 4, b, k, moved, callee, false⟩ :: x.chain }
    s.ask c { c with ring := { c.ring with todo := todo, links := links } })
  { s' with uid := s'.uid + 1 }.goto id n t pc

theorem pushCall_eq (c : Crew) (b k callee id n links : Nat) (todo : List Nat) (t : DWord) (s : State) :
    State.pushCall c b k callee id n links todo t s =
      let s' := s.updCrew id (fun c' =>
        let c' := if callee != b + k then c'.copyRegs (b + k) callee (24 - k) (c'.slot n).mask else c'
        let x := c'.slot n
        let c' := c'.setSlot n { x with
          base := callee, chain := ⟨s.uid, (c.slot n).pc + 4, b, k, callee != b + k, callee, false⟩ :: x.chain }
        s.ask c' { c' with ring := { c'.ring with todo := todo, links := links } })
      { s' with uid := s.uid + 1 }.goto id n t (c.slot n).pc := by
  unfold State.pushCall
  dsimp only
  rw [updCrew_uid]

/-- A call whose callee's window the frame has room for. -/
theorem callPlan_ok {k callee : Nat} {target : Heat → DWord → DWord} {indirect : Bool} {todo : List Nat}
    (hcallee : callee = match c.useRange (1 - h.slot) with
      | some (lo, hi) => if h.base + k ≤ hi ∧ lo ≤ h.base + k + 23 then hi + 1 else h.base + k
      | none => h.base + k)
    (hk : 0 < k) (within : callee ≤ 1000)
    (direct : indirect = true → badTarget (target h (c.slot h.slot).pc) = none)
    (room : s.framePlan (c.setSlot h.slot { c.slot h.slot with base := h.base }) h.slot callee
      (if callee != h.base + k then (List.range (24 - k)).flatMap (fun i => [h.base + k + i, callee + i]) else []) 1 = .ok todo) :
    callPlan k target indirect s id c h = .ok (s, State.pushCall c h.base k callee id h.slot (c.unitPlan (s.dstkOf c) 1 0).2.1 todo
      (target h (c.slot h.slot).pc)) := by
  have target_ok : (if indirect then badTarget (target h (c.slot h.slot).pc) else none) = none := by
    cases indirect with
    | false => rfl
    | true => exact direct rfl
  have positive : k ≠ 0 := Nat.pos_iff_ne_zero.1 hk
  cases hu : c.useRange (1 - h.slot) with
  | none =>
    have at_ : callee = h.base + k := by simpa only [hu] using hcallee
    subst at_
    simp only [callPlan, hu, positive, target_ok, Nat.not_lt.2 within, room, if_false]
    rfl
  | some range =>
    obtain ⟨lo, hi⟩ := range
    have at_ : (if (decide (h.base + k ≤ hi) && decide (lo ≤ h.base + k + 23)) = true then hi + 1 else h.base + k) = callee := by
      rw [hcallee, hu]
      simp only [Bool.and_eq_true, decide_eq_true_eq]
    simp only [callPlan, hu, at_, positive, target_ok, Nat.not_lt.2 within, room, if_false]
    rfl

/-- Settles O33: the plan of a call passes, and an engine context pushes its return address. -/
theorem callsComplete : Obligations.CallsComplete := by
  unfold Obligations.CallsComplete
  refine ⟨fun s id n c h k a o todo H good => ?_, fun s k e a o H short => ?_⟩
  · obtain rfl := H.slot
    intro s0 pc b callee moved copy dstk links push wf wfx hk within room
    have plan : ∀ t, push t = State.pushCall c h.base k.toNat callee id h.slot (c.unitPlan (s0.dstkOf c) 1 0).2.1 todo t :=
      fun t => funext fun s => (pushCall_eq ..).symm
    refine ⟨?_, fun low aligned => ?_⟩
    · change execCall k o s = _
      unfold execCall
      rw [wf, plan]
      exact H.completes (callPlan_ok (h := h.ahead) rfl hk within (by simp) room) (.inr good)
    · change execCallx k a s = _
      unfold execCallx
      rw [wfx, plan]
      exact H.completes (callPlan_ok (h := h.ahead) rfl hk within (fun _ => badTarget_none low aligned) room) (.inr good)
  · intro go
    have space : ¬8 ≤ (e.age true).rets.length := Nat.not_le.2 short
    have calls : ∀ target indirect, (indirect = true → badTarget (target (e.age true)) = none) →
        engCall 0 target indirect (e.age true) = .ok (Eng.age { e with rets := (e.pc + 4) :: e.rets } true, target (e.age true)) := by
      intro target indirect direct
      have target_ok : (if indirect then badTarget (target (e.age true)) else none) = none := by
        cases indirect with
        | false => rfl
        | true => exact direct rfl
      simp only [engCall, target_ok, if_neg space]
      rfl
    exact ⟨show execCall 0 o s = _ from H.completes (calls _ false (by simp)),
      fun low aligned => show execCallx 0 a s = _ from H.completes (calls _ true fun _ => badTarget_none low aligned)⟩

-- Returns, exits and SLIDE (O34).

/-- An exit that leaves the slot a lane, or whose top entry is in place, leaves. -/
theorem exitPlan_ok {lanes : Crew → Heat → Word} (stays : (c.slot h.slot).mask &&& ~~~lanes c h ≠ 0 ∨
    (c.exitRefill h.slot (s.dstkOf c) = [] ∧ ∀ e ∈ c.stack.head?, e.bad = false)) :
    exitPlan lanes s id c h = .ok (s, fun s => s.exitLanes id h.slot (lanes c h) (c.slot h.slot).pc) := by
  have refilled : ¬(((c.slot h.slot).mask &&& ~~~lanes c h = 0 && !(c.exitRefill h.slot (s.dstkOf c)).isEmpty) = true) := by
    rcases stays with left | ⟨refilled, -⟩
    · rw [decide_eq_false left]; simp
    · simp [refilled]
  have sound : ¬(((c.slot h.slot).mask &&& ~~~lanes c h = 0 && c.stack.head?.any (fun e => e.bad)) = true) := by
    rcases stays with left | ⟨-, sound⟩
    · rw [decide_eq_false left]; simp
    · cases top : c.stack.head? with
      | none => simp
      | some e => simp [sound e top]
  exact (if_neg refilled).trans (if_neg sound)

theorem vecKeys_copies (f : Nat → Nat) (m : Word) (x : Nat → Lanes) (g : Nat → Nat) (l : List Nat) :
    vecKeys (l.map (fun i => .v (f i) m (x i) (g i))) = l.map f := by
  induction l with
  | nil => rfl
  | cons a r ih => simp [ih]

/-- Copied registers: those outside the destination stay, those in it take the source's tag and, in the lanes, its words. -/
theorem copyRegs_com (c : Crew) (src dst n : Nat) (m : Word) :
    (∀ q, (∀ i, i < n → q ≠ dst + i) → (c.copyRegs src dst n m).com.rdV q = c.com.rdV q ∧
      (c.copyRegs src dst n m).com.rdTag q = c.com.rdTag q) ∧
    ∀ i, i < n → (c.copyRegs src dst n m).com.rdTag (dst + i) = c.com.rdTag (src + i) ∧ ∀ l, l < 32 →
      lane ((c.copyRegs src dst n m).com.rdV (dst + i)) l =
        if m.getLsbD l then lane (c.com.rdV (src + i)) l else lane (c.com.rdV (dst + i)) l := by
  have keys := vecKeys_copies (fun i => dst + i) m (fun i => c.com.rdV (src + i)) (fun i => c.com.rdTag (src + i)) (List.range n)
  constructor
  · intro q out
    refine Regs.rdV_puts_other _ c.com ?_
    rw [keys]
    rintro hq
    obtain ⟨i, hi, e⟩ := List.mem_map.1 hq
    exact out i (List.mem_range.1 hi) e.symm
  · intro i hi
    have once : (vecKeys _).Nodup := keys ▸ nodup_map_of (fun a _ b _ e => Nat.add_left_cancel e) List.nodup_range
    have own : RegW.v (dst + i) m (c.com.rdV (src + i)) (c.com.rdTag (src + i)) ∈
        (List.range n).map (fun i => .v (dst + i) m (c.com.rdV (src + i)) (c.com.rdTag (src + i))) :=
      List.mem_map.2 ⟨i, List.mem_range.2 hi, rfl⟩
    obtain ⟨words, tag⟩ := Regs.rdV_puts_mem _ c.com own once
    refine ⟨tag, fun l hl => ?_⟩
    rw [show (c.copyRegs src dst n m).com.rdV (dst + i) = _ from words, lane_mergeLanes _ _ _ hl]

/-- A return's copies: where the call moved its window, its registers go back to the caller's. -/
def Crew.copiedBack (c : Crew) (top : LinkRec) (n : Nat) : Crew :=
  if top.moved then c.copyRegs top.callee (top.caller + top.k) (24 - top.k) (c.slot n).mask else c

theorem copiedBack_com (c : Crew) (top : LinkRec) (n : Nat) :
    (top.moved = false → (c.copiedBack top n).com = c.com) ∧
    (top.moved = true →
      (∀ q, (∀ i, i < 24 - top.k → q ≠ top.caller + top.k + i) →
        (c.copiedBack top n).com.rdV q = c.com.rdV q ∧ (c.copiedBack top n).com.rdTag q = c.com.rdTag q) ∧
      ∀ i, i < 24 - top.k → (c.copiedBack top n).com.rdTag (top.caller + top.k + i) = c.com.rdTag (top.callee + i) ∧ ∀ l, l < 32 →
        lane ((c.copiedBack top n).com.rdV (top.caller + top.k + i)) l = if (c.slot n).mask.getLsbD l then
          lane (c.com.rdV (top.callee + i)) l else lane (c.com.rdV (top.caller + top.k + i)) l) := by
  unfold Crew.copiedBack
  constructor
  · intro stays
    simp [stays]
  · intro moved
    rw [if_pos moved]
    exact copyRegs_com c top.callee (top.caller + top.k) (24 - top.k) (c.slot n).mask

theorem copiedBack_other (c : Crew) (top : LinkRec) (n : Nat) : (∀ k, (c.copiedBack top n).slot k = c.slot k) ∧
    (c.copiedBack top n).stack = c.stack ∧ (c.copiedBack top n).exited = c.exited ∧ (c.copiedBack top n).heat = c.heat := by
  unfold Crew.copiedBack
  split <;> exact ⟨fun _ => rfl, rfl, rfl, rfl⟩

/-- The crew after a return: the copies back, the caller's base, the records below. -/
def Crew.returned (c : Crew) (top : LinkRec) (rest : List LinkRec) (n : Nat) : Crew :=
  { (c.copiedBack top n).setSlot n { (c.copiedBack top n).slot n with base := top.caller, chain := rest } with ret := none }

theorem doReturn_eq {top : LinkRec} {rest : List LinkRec} (hc : s.crew id = some c) (chain : (c.slot n).chain = top :: rest)
    (src : DWord) : s.doReturn id n src = (s.setCrew id (c.returned top rest n)).goto id n top.ret src := by
  simp only [State.doReturn, hc, chain]
  rfl

/-- RET of an engine context takes the newest return address. -/
def Eng.popRet (e : Eng) : Except Stop (Eng × DWord) :=
  match e.rets with
  | [] => .error stopIllegal
  | t :: r => .ok ({ e with rets := r }, t)

/-- Settles O34: the plans of RET and EXIT pass, the record's copies go back, and SLIDE moves the base. -/
theorem returnsExitsAndSlidesComplete : Obligations.ReturnsExitsAndSlidesComplete := by
  unfold Obligations.ReturnsExitsAndSlidesComplete
  refine ⟨fun s id n c h H good => ?_, fun s id n src c top rest hc hn chain => ?_, fun s id n c h m todo H wf => ?_,
    fun s k e t r H rets => ?_⟩
  · obtain rfl := H.slot
    intro s0 pc stays
    have ret : exec .ret s = s.closer true false false retPlan (fun s k e => s.closeEng k e true (fun e => match e.rets with
        | [] => .error stopIllegal
        | t :: r => .ok ({ e with rets := r }, t))) := by
      change execRet s = _
      simp only [execRet, State.closer, State.bothWord, H.cur, H.issuer, H.heat, Option.isNone_some, Bool.false_and] <;> rfl
    refine ⟨fun top rest chain refilled sound token => ret.trans (H.completes ?_ (.inr good)),
      fun chain stays => ret.trans (H.completes ?_ (.inr good)),
      fun stays => show execExit s = _ from H.completes (exitPlan_ok (h := h.ahead) stays) (.inr good)⟩
    · simp [retPlan, Heat.ahead, chain, refilled, sound, token, s0, pc]
    · refine (if_pos (by simp [Heat.ahead, chain])).trans ?_
      exact exitPlan_ok (h := h.ahead) (lanes := Crew.active) stays
  · intro to_
    refine ⟨_, doReturn_eq hc chain src, ?_⟩
    obtain ⟨still, copied⟩ := copiedBack_com c top n
    obtain ⟨slots, stack, exited, heat⟩ := copiedBack_other c top n
    have com : (c.returned top rest n).com = (c.copiedBack top n).com := Crew.com_setSlot ..
    exact ⟨(Crew.slot_setSlot ..).trans (by rw [slots]), (Crew.slot_other_setSlot _ _ hn).trans (slots _), (Crew.stack_setSlot ..).trans stack,
      (Crew.exited_setSlot ..).trans exited, (Crew.heat_setSlot ..).trans heat, rfl, com ▸ still, com ▸ copied⟩
  · obtain rfl := H.slot
    intro b floor above below room
    change s.crewWord (Instr.slide m).wf _ = _
    rw [wf]
    have slid : ¬((b < floor || 1000 < b) = true) := by simp; omega
    refine crewWord_next H (s' := s.setCrew id { c with heat := some { h with base := b.toNat, owed := todo } }) ?_ (admits_zero h) ?_
    · refine (if_neg slid).trans ?_
      rw [room]
      exact congrArg (fun t => Except.ok (t, 0)) (State.setCrew_setCrew ..)
    · intro ps hp
      simp only [State.crewPend, State.crew_setCrew_same, Option.bind_some, Option.map_some, Option.some.injEq] at hp
      exact hp ▸ H.windows
  · have pops : (e.age true).popRet = .ok (Eng.age { e with rets := r } true, t) := by
      simp only [Eng.popRet, show (e.age true).rets = t :: r from rets]
      rfl
    change execRet s = _
    simp only [execRet, State.bothWord, H.cur, H.eng]
    exact congrArg _ (H.closes pops)

-- BRK, SVC and TRAP (O36).

theorem sharedWord_engStop {k : Nat} {e : Eng} (H : InEngine s k e) {wf wfE : Bool} {eff : Eff} {kinds : Nat → Bool} {effE : EngEff}
    {st : Stop} (ok : (kinds (engKind k) && wfE) = true) (he : effE s k e = .error st) :
    s.sharedWord wf eff kinds wfE effE = .next (s.stopEngAt k st) := by
  have late : ¬ 23 ≤ e.off := by have := H.room; omega
  have opened : e.entry.isNone = false := by simpa using H.entry
  simp only [State.sharedWord, H.cur, H.eng, State.issueEng, ok, opened, late, he]
  rfl

/-- Settles O36: BRK stops at its word; SVC and TRAP close their heat. -/
theorem trapWordsComplete : Obligations.TrapWordsComplete := by
  unfold Obligations.TrapWordsComplete
  refine ⟨fun s id n c h code H => ?_, fun s id n c h code H good => ?_, fun s k e code H => ?_, fun s k e code H => ?_⟩
  · change execBrk code s = _
    unfold execBrk
    rw [sharedWord_crew H]
    exact crewWord_stop (st := .trap cBREAK code.toNat) H rfl
  · obtain rfl := H.slot
    exact ⟨show execSvc code s = _ from H.completes rfl (.inr good), show execTrap code s = _ from H.completes rfl (.inr good)⟩
  · change execBrk code s = _
    unfold execBrk
    exact sharedWord_engStop (st := .trap cBREAK code.toNat) H rfl rfl
  · intro e'
    have entry : e.entry.isNone = false := by simpa using H.entry
    have stays : ¬((e.entry.isNone || decide (24 ≤ e.off)) = true) := by
      have := H.room
      simp [entry]
      omega
    have closes : ∀ cause, s.engTrap k e cause code.toNat =
        (s.setEng k e').stopEng k (s.engRec k e' ⟨cause, code.toNat, 0⟩ (e.pc + 4) e.pc 0) true := fun cause => if_neg stays
    constructor
    · change execSvc code s = _
      simp only [execSvc, State.closer, State.bothWord, H.cur, H.eng, closes]
    · change execTrap code s = _
      simp only [execTrap, State.closer, State.bothWord, H.cur, H.eng, closes]

-- The return from a handler (O38).

theorem heldSkip (b : Bool) (k n : Nat) :
    (if b = true then some k else none).map (· + 32 * n + 64) = if b = true then some (k + 32 * n + 64) else none := by
  split <;> rfl

/-- The crew whose handler returns into the heat `h` that the trap interrupted. -/
def Crew.resumed (c : Crew) (n : Nat) (h : Heat) : Crew :=
  let ctl := c.com.tretctl
  let skip := if ctl.getLsbD 0 then some (fieldOf ctl 8 5) else none
  let com := { c.com with mode := c.trap.saveMode }
  { c.setSlot n { c.slot n with pc := h.entry + BitVec.ofNat 64 (4 * h.off), base := (c.slot n).base } with
    com := com, trap := ⟨0, 0, c.trap.info, c.trap.saveMode, c.trap.saveDepth, none⟩
    heat := some { h with wrk := h.rebase com, skip := skip }, skip := skip.map (· + 32 * n + 64) }

theorem trapReturn_heat (hc : s.crew id = some c) (heat : c.trap.heat = some h) (src : DWord) :
    s.trapReturn id n src = s.setCrew id (c.resumed n h) := by
  simp only [State.trapReturn, hc, heat]
  rfl

/-- Settles O38: the plan of QUENCH with TRET, and the two ends of a return. -/
theorem trapsReturn : Obligations.TrapsReturn := by
  unfold Obligations.TrapsReturn
  refine ⟨fun s id n c h cur hc heat slot skip named tret busy gives depth => ?_,
    fun s id n c h cur hc heat slot skip named tret depth => ?_, fun s id n src c h hc heat slot hn => ?_,
    fun s id n src c hc heat hn => ?_⟩
  · have issuer : s.issuer id = some (s.setCrew id c, c) := by
      simp [State.issuer, hc, Crew.settle_of_none (Crew.drain_of_heat heat) named]
    obtain rfl := slot
    change execQuench s = _
    simp only [execQuench, State.closer, State.bothWord, cur, issuer]
    refine congrArg _ (closeCrew_passed heat rfl skip (by simp) ?_ busy gives (.inl rfl))
    simp [Heat.ahead, tret, depth]
  · have issuer : s.issuer id = some (s.setCrew id c, c) := by
      simp [State.issuer, hc, Crew.settle_of_none (Crew.drain_of_heat heat) named]
    obtain rfl := slot
    have skip : (h.skip == some h.off) = false := by simpa using skip
    have depth : ((c.slot h.slot).chain.length != c.trap.saveDepth) = true := by simpa using depth
    change execQuench s = _
    simp only [execQuench, State.closer, State.bothWord, cur, issuer, State.closeCrew, heat, skip, Heat.ahead, tret, depth, State.stopCrew]
    simp
  · intro ctl
    obtain rfl := slot
    have slot : (c.resumed h.slot h).slot h.slot = _ := Crew.slot_setSlot ..
    refine ⟨c.resumed h.slot h, _, ?_, rfl, rfl, rfl, rfl, heldSkip .., (congrArg PcSlot.pc slot :), (congrArg PcSlot.mask slot :),
      rfl, rfl, rfl, rfl, rfl, rfl, rfl⟩
    rw [trapReturn_heat hc heat]
    exact State.crew_setCrew_same ..
  · simp only [State.trapReturn, hc, heat, heldSkip]

end Sys2Proof.Machine
end

section
/-! SUPPORT. The first failure among lanes (O40), traps (O37) and faults (O39) of a crew. -/

namespace Sys2Proof.Machine

variable {s : State} {id n : Nat} {c : Crew} {h : Heat}

-- The first failure (O40).

theorem rank_eq (f : Fail) : f.rank = [cILLEGAL, cFORMAT, cALIGN, cSCOPE, cPAGE, cACCESS, cEXTENT].idxOf f.cause + 1 := by
  simp only [Fail.rank, List.idxOf_cons, List.idxOf_nil, cond_eq_ite, beq_iff_eq, eq_comm (b := f.cause)]
  repeat' split
  all_goals rfl

/-- A failure that comes before another: an earlier check, or the same of a lower or the same lane. -/
def before (x y : Nat × Fail) : Prop := x.2.rank < y.2.rank ∨ (x.2.rank = y.2.rank ∧ x.1 ≤ y.1)

theorem before.trans {x y z : Nat × Fail} (h : before x y) (g : before y z) : before x z := by
  unfold before at *; omega

theorem before.refl (x : Nat × Fail) : before x x := .inr ⟨rfl, Nat.le_refl _⟩

/-- One lane more: the worst so far, or this lane's failure, comes before both. -/
theorem worstOf_before {o : Option (Nat × Fail)} {r : Nat × LaneRes} {x : Nat × Fail} (hx : worstOf o r = some x)
    (low : ∀ g ∈ o, g.1 < r.1) :
    (o = some x ∨ r = (x.1, .fail x.2)) ∧ (∀ g ∈ o, before x g) ∧ ∀ f, r.2 = .fail f → before x (r.1, f) := by
  unfold worstOf at hx
  split at hx
  · rename_i f hf
    cases hx
    exact ⟨.inr (Prod.ext rfl hf), by simp, fun g hg => by rw [hf] at hg; cases hg; exact .refl _⟩
  · rename_i f g hf
    have lower := low g rfl
    split at hx
    · rename_i less
      cases hx
      refine ⟨.inr (Prod.ext rfl hf), fun g' hg' => ?_, fun g hg => by rw [hf] at hg; cases hg; exact .refl _⟩
      cases hg'
      exact .inl less
    · rename_i notLess
      cases hx
      refine ⟨.inl rfl, fun g' hg' => ?_, fun f' hf' => ?_⟩
      · cases hg'
        exact .refl _
      · rw [hf] at hf'
        cases hf'
        unfold before
        dsimp only
        omega
  · rename_i notFirst notLater
    refine ⟨.inl hx, fun g hg => ?_, fun f hf => ?_⟩
    · rw [hx] at hg
      cases hg
      exact .refl _
    · rw [hx] at notLater
      exact absurd rfl (notLater f x hf)

theorem worstOf_eq_none {o : Option (Nat × Fail)} {r : Nat × LaneRes} (h : worstOf o r = none) : o = none ∧ ∀ f, r.2 ≠ .fail f := by
  unfold worstOf at h
  split at h
  · cases h
  · split at h <;> cases h
  · rename_i notFirst notLater
    exact ⟨h, fun f hf => notFirst f hf h⟩

theorem foldl_worstOf {rs : List (Nat × LaneRes)} {o : Option (Nat × Fail)} {x : Nat × Fail} (hx : rs.foldl worstOf o = some x)
    (sorted : rs.Pairwise (fun a b => a.1 < b.1)) (low : ∀ g ∈ o, ∀ r ∈ rs, g.1 < r.1) :
    (o = some x ∨ (x.1, LaneRes.fail x.2) ∈ rs) ∧ (∀ g ∈ o, before x g) ∧ ∀ l f, (l, LaneRes.fail f) ∈ rs → before x (l, f) := by
  induction rs generalizing o with
  | nil =>
    refine ⟨.inl hx, fun g hg => ?_, by simp⟩
    rw [List.foldl_nil] at hx
    rw [hx] at hg
    cases hg
    exact .refl _
  | cons r t ih =>
    obtain ⟨first, later⟩ := List.pairwise_cons.1 sorted
    have lows : ∀ g ∈ o, g.1 < r.1 := fun g hg => low g hg r List.mem_cons_self
    have next : ∀ g ∈ worstOf o r, ∀ q ∈ t, g.1 < q.1 := by
      intro g hg q hq
      rcases (worstOf_before hg lows).1 with e | e
      · exact Nat.lt_trans (lows g e) (first q hq)
      · exact (congrArg Prod.fst e) ▸ first q hq
    obtain ⟨from_, olds, news⟩ := ih hx later next
    cases hw : worstOf o r with
    | some y =>
      obtain ⟨fromY, oldsY, newsY⟩ := worstOf_before hw lows
      have xy := olds y hw
      refine ⟨?_, fun g hg => xy.trans (oldsY g hg), fun l f hlf => ?_⟩
      · rcases from_ with e | m
        · rw [hw] at e
          cases e
          exact fromY.imp_right fun e => List.mem_cons.2 (.inl e.symm)
        · exact .inr (List.mem_cons_of_mem _ m)
      · rcases List.mem_cons.1 hlf with rfl | m
        · exact xy.trans (newsY f rfl)
        · exact news l f m
    | none =>
      obtain ⟨rfl, noFail⟩ := worstOf_eq_none hw
      refine ⟨?_, by simp, fun l f hlf => ?_⟩
      · rw [hw] at from_
        exact from_.imp_right (List.mem_cons_of_mem _)
      · rcases List.mem_cons.1 hlf with rfl | m
        · exact absurd rfl (noFail f)
        · exact news l f m

/-- Settles O40: the fold over the lanes keeps the failure that comes before every other. -/
theorem theFirstFailureIsRaised : Obligations.TheFirstFailureIsRaised := by
  unfold Obligations.TheFirstFailureIsRaised
  intro lv rs sorted rank
  refine ⟨fun ⟨l, f, hf⟩ => ?_, fun ls hls => ?_⟩
  · cases hw : rs.foldl worstOf none with
    | none => exact absurd rfl (worstOf_none hw _ hf f)
    | some x =>
      obtain ⟨from_, -, news⟩ := foldl_worstOf hw sorted (by simp)
      refine ⟨x.1, x.2, from_.resolve_left (by simp), by rw [laneOutcome_eq, hw], fun l' f' hf' => ?_⟩
      have := news l' f' hf'
      unfold before at this
      simp only [rank_eq] at this
      exact this.imp Nat.lt_of_succ_lt_succ (fun a => ⟨Nat.succ.inj a.1, a.2⟩)
  · obtain ⟨lanes, each⟩ := laneOutcome_ok hls
    exact ⟨lanes, fun l hs hm => each (l, hs) hm⟩

-- Traps (O37).

theorem updRegion_mem (s : State) (rk : Nat) (f : Region → Region) : (s.updRegion rk f).mem = s.mem := by
  unfold State.updRegion
  split <;> rfl

/-- The crew that enters its handler in slot `n` with the registers and slots of `c`. -/
def Crew.enters (c : Crew) (n cause info depth : Nat) (trape ctl : DWord) (m : BitVec 40) (h : Option Heat) (pc : DWord) : Crew :=
  { c.setSlot n { c.slot n with pc := trape, parked := false } with
    com := { c.com with mode := 0, tretpc := pc, tretctl := ctl }
    trap := ⟨n, cause, info, m, depth, h⟩
    heat := none, wait := .none, last := 1 - n, skip := none }

theorem enters_slot (c : Crew) (n cause info depth : Nat) (trape ctl : DWord) (m : BitVec 40) (h : Option Heat) (pc : DWord) :
    (c.enters n cause info depth trape ctl m h pc).slot n = { c.slot n with pc := trape, parked := false } := Crew.slot_setSlot ..

theorem enters_other (c : Crew) {n : Nat} (hn : n < 2) (cause info depth : Nat) (trape ctl : DWord) (m : BitVec 40) (h : Option Heat)
    (pc : DWord) : (c.enters n cause info depth trape ctl m h pc).slot (1 - n) = c.slot (1 - n) := Crew.slot_other_setSlot c _ hn

theorem enters_fields (c : Crew) (n cause info depth : Nat) (trape ctl : DWord) (m : BitVec 40) (h : Option Heat) (pc : DWord) :
    let c' := c.enters n cause info depth trape ctl m h pc
    c'.park = c.park ∧ c'.stack = c.stack ∧ c'.exited = c.exited := by
  unfold Crew.enters Crew.setSlot
  split <;> exact ⟨rfl, rfl, rfl⟩

/-- The other slot opens no heat while a handler runs. -/
theorem enters_alone (c : Crew) {n cause : Nat} (hn : n < 2) (some_ : cause ≠ 0) (info depth : Nat) (trape ctl : DWord) (m : BitVec 40)
    (h : Option Heat) (pc : DWord) : (c.enters n cause info depth trape ctl m h pc).canOpen (1 - n) = false := by
  have other : n ≠ 1 - n := by omega
  simp [Crew.canOpen, Crew.enters, some_, other]

/-- The return control word of a trap: the offset and whether to skip the word. -/
def trapCtl (cause off : Nat) : DWord := BitVec.ofNat 64 (off * 256 + (if cause = cBREAK then 1 else 0))

theorem trapCtl_fields (cause : Nat) {off : Nat} (small : off < 24) :
    fieldOf (trapCtl cause off) 8 5 = off ∧ (trapCtl cause off).getLsbD 0 = decide (cause = cBREAK) := by
  have value : (trapCtl cause off).toNat = off * 256 + (if cause = cBREAK then 1 else 0) := by
    rw [trapCtl, BitVec.toNat_ofNat, Nat.mod_eq_of_lt]
    split <;> omega
  constructor
  · rw [fieldOf, value, bits]
    split <;> omega
  · rw [BitVec.getLsbD, value, Nat.testBit_zero]
    split
    · next same => exact decide_eq_decide.2 (iff_of_true (by omega) same)
    · next differ => exact decide_eq_decide.2 (iff_of_false (by omega) differ)

/-- A trap of a crew with a handler, outside it. -/
theorem trap_enters {code cause : Nat} {r : Region} (hc : s.crew id = some c) (hr : s.region c.rk = some r) (handler : r.trape ≠ 0)
    (outside : c.trap.cause = 0) (svc : Option (DWord × Nat)) :
    s.trap id n cause code svc =
      let off := match svc, c.heat with
        | some x, _ => x.2
        | none, some h => h.off
        | none, none => 0
      let depth := (c.slot n).chain.length
      let ctl := trapCtl cause off
      match c.heat with
      | none => s.setCrew id (c.enters n cause (code + off * 2 ^ 20) depth r.trape ctl c.com.mode none ((svc.map Prod.fst).getD (c.slot n).pc))
      | some h =>
        if h.sealed then s.setCrew id (c.enters n cause (code + off * 2 ^ 20) depth r.trape ctl h.wrk.mode (some h) c.com.tretpc)
        else (s.updRegion c.rk (fun g => { g with discards := g.discards + 1 })).setCrew id
          (c.discard.enters n cause (code + off * 2 ^ 20) depth r.trape ctl c.com.mode none h.entry) := by
  have enters : ¬((r.trape = 0 || c.trap.cause != 0) = true) := by
    rw [decide_eq_false handler]
    simp [outside]
  simp only [State.trap, hc, hr]
  exact (if_neg enters).trans rfl

theorem discard_fields (heat : c.heat = some h) (slot : h.slot = n) (hn : n < 2) :
    c.discard.slot n = { c.slot n with pc := h.entry } ∧ c.discard.slot (1 - n) = c.slot (1 - n) ∧ c.discard.com = c.com ∧
    c.discard.park = c.park ∧ c.discard.stack = c.stack ∧ c.discard.exited = c.exited ∧ c.discard.heat = none ∧
    c.discard.wait = c.wait := by
  subst slot
  simp only [Crew.discard, heat]
  exact ⟨Crew.slot_setSlot .., Crew.slot_other_setSlot _ _ hn, Crew.com_setSlot .., Crew.park_setSlot .., Crew.stack_setSlot ..,
    Crew.exited_setSlot .., trivial, Crew.wait_setSlot ..⟩

/-- Settles O37: the crew of each way into the handler. -/
theorem trapsEnterTheHandler : Obligations.TrapsEnterTheHandler := by
  unfold Obligations.TrapsEnterTheHandler
  refine ⟨fun s id n code off pc c r hc heat hn hr handler outside small => ?_,
    fun s id n cause code c h r hc heat slot hn hr handler outside small => ?_⟩
  · have entered := trap_enters (n := n) (code := code) (cause := cSVC) hc hr handler outside (some (pc, off))
    simp only [heat] at entered
    have svc : BitVec.ofNat 64 (off * 256) = trapCtl cSVC off := by
      rw [trapCtl, if_neg (by decide), Nat.add_zero]
    have slot := enters_slot c n cSVC (code + off * 2 ^ 20) (c.slot n).chain.length r.trape (trapCtl cSVC off) c.com.mode none pc
    exact ⟨_, entered, rfl, enters_other c hn .., (congrArg PcSlot.pc slot :), (congrArg PcSlot.mask slot :), (congrArg PcSlot.base slot :),
      rfl, by rw [svc]; rfl, enters_alone c hn (by decide) ..⟩
  · have entered := trap_enters (n := n) (code := code) (cause := cause) hc hr handler outside none
    obtain ⟨ctlOff, ctlBit⟩ := trapCtl_fields cause small
    simp only [heat] at entered
    by_cases sealed : h.sealed = true
    · rw [if_pos sealed] at entered
      rw [entered]
      have slotN := enters_slot c n cause (code + h.off * 2 ^ 20) (c.slot n).chain.length r.trape (trapCtl cause h.off) h.wrk.mode (some h) c.com.tretpc
      obtain ⟨park, stack, exited⟩ := enters_fields c n cause (code + h.off * 2 ^ 20) (c.slot n).chain.length r.trape
        (trapCtl cause h.off) h.wrk.mode (some h) c.com.tretpc
      exact ⟨_, State.crew_setCrew_same .., rfl, fun k hk => State.crew_setCrew_other _ _ hk, rfl, park, stack, enters_other c hn .., exited,
        fun some_ => enters_alone c hn some_ .., (congrArg PcSlot.pc slotN :), (congrArg PcSlot.mask slotN :), (congrArg PcSlot.base slotN :),
        (congrArg PcSlot.chain slotN :), rfl, rfl, rfl, rfl, (if_pos sealed).symm, (if_pos sealed).symm, rfl,
        fun unsealed => absurd (sealed.symm.trans unsealed) (by decide), ctlOff, ctlBit, rfl, rfl, rfl, rfl, rfl⟩
    · rw [if_neg sealed] at entered
      rw [entered]
      obtain ⟨dSlot, dOther, dCom, dPark, dStack, dExited, -, -⟩ := discard_fields heat slot hn
      have slotN := enters_slot c.discard n cause (code + h.off * 2 ^ 20) (c.slot n).chain.length r.trape (trapCtl cause h.off) c.com.mode
        none h.entry
      rw [dSlot] at slotN
      obtain ⟨park, stack, exited⟩ := enters_fields c.discard n cause (code + h.off * 2 ^ 20) (c.slot n).chain.length r.trape
        (trapCtl cause h.off) c.com.mode none h.entry
      have others : ∀ k, k ≠ id → (s.updRegion c.rk (fun g => { g with discards := g.discards + 1 })).crew k = s.crew k :=
        fun k _ => State.crew_of_crews (updRegion_crews ..) k
      exact ⟨_, State.crew_setCrew_same .., updRegion_mem .., fun k hk => (State.crew_setCrew_other _ _ hk).trans (others k hk), rfl,
        park.trans dPark, stack.trans dStack, (enters_other c.discard hn ..).trans dOther, exited.trans dExited,
        fun some_ => enters_alone c.discard hn some_ .., (congrArg PcSlot.pc slotN :), (congrArg PcSlot.mask slotN :),
        (congrArg PcSlot.base slotN :), (congrArg PcSlot.chain slotN :), rfl, rfl, rfl, rfl, (if_neg sealed).symm, (if_neg sealed).symm, rfl,
        fun _ => rfl, ctlOff, ctlBit, (congrArg Regs.v dCom :), (congrArg Regs.tag dCom :), (congrArg Regs.s dCom :),
        (congrArg Regs.p dCom :), (congrArg Regs.asw dCom :)⟩

-- Faults (O39).

theorem updCrew_mem (s : State) (id : Nat) (f : Crew → Crew) : (s.updCrew id f).mem = s.mem := by
  unfold State.updCrew
  split <;> rfl

theorem notice_mem (s : State) (v : Nat) : (s.notice v).mem = s.mem := by
  unfold State.notice
  split <;> rfl

theorem postRec_scr (s : State) (d : Nat) (r : FaultRec) : (s.postRec d r).1.mem.scr = s.mem.scr := by
  unfold State.postRec
  dsimp only
  split
  · rfl
  · have kept := fun pa bs pa' bs' =>
      ((MemSys.homeWrite_same s.mem s.clock pa bs).trans (MemSys.homeWrite_same _ s.clock pa' bs')).2.2.2
    dsimp only
    split
    · exact (congrArg MemSys.scr (notice_mem _ _)).trans (kept ..)
    · exact kept ..

/-- A crew that waits for nothing parks without a change of scratch. -/
theorem parkCrew_scr (hc : s.crew id = some c) (idle : c.wait = .none) (r : FaultRec) (late : Bool) :
    (s.parkCrew id n r late).mem.scr = s.mem.scr := by
  have posted := post_keep (fun s => s.mem.scr) (fun _ _ => rfl) (fun _ _ => rfl) postRec_scr (s.unwait id) (s.whoCrew id c).fdom id false r
  have unwaited : (s.unwait id).mem = s.mem := by
    simp only [State.unwait, hc, idle]
    exact updCrew_mem ..
  simp only [State.parkCrew, hc]
  rw [updCrew_mem]
  exact posted.trans (congrArg MemSys.scr unwaited)

/-- Settles O39: the record of the fault, and the crew that is parked with it. -/
theorem faultsParkTheCrew : Obligations.FaultsParkTheCrew := by
  unfold Obligations.FaultsParkTheCrew
  intro s id n f lane nested c h hc heat slot hn idle
  by_cases sealed : h.sealed = true
  · have raised : s.raise id n f lane nested = s.parkCrew id n { s.crewRec c n f lane with
        nested := nested, sealed := h.sealed, off := h.off, heatpc := h.entry } false := by
      simp only [State.raise, State.raiseWith, hc, heat, sealed, if_true]
    obtain ⟨w, q, parked, -⟩ := parkCrew_crew (n := n) hc { s.crewRec c n f lane with
        nested := nested, sealed := h.sealed, off := h.off, heatpc := h.entry } false
    rw [raised]
    exact ⟨_, _, parked, rfl, rfl, rfl, rfl, rfl, rfl, rfl, rfl, rfl, rfl, rfl, rfl, rfl, rfl, rfl, rfl, rfl, rfl, rfl, rfl, rfl, rfl, rfl,
      fun unsealed => absurd (sealed.symm.trans unsealed) (by decide), fun _ => ⟨heat, rfl⟩, parkCrew_scr hc idle _ _⟩
  · have raised : s.raise id n f lane nested =
        ((s.updRegion c.rk (fun g => { g with discards := g.discards + 1 })).setCrew id c.discard).parkCrew id n
          { s.crewRec c n f lane with nested := nested, sealed := h.sealed, off := h.off, heatpc := h.entry } false := by
      simp only [State.raise, State.raiseWith, hc, heat, sealed]
      rfl
    obtain ⟨dSlot, dOther, dCom, -, dStack, dExited, dHeat, dWait⟩ := discard_fields heat slot hn
    have own := State.crew_setCrew_same (s.updRegion c.rk (fun g => { g with discards := g.discards + 1 })) id c.discard
    obtain ⟨w, q, parked, -⟩ := parkCrew_crew (n := n) own { s.crewRec c n f lane with
        nested := nested, sealed := h.sealed, off := h.off, heatpc := h.entry } false
    rw [raised]
    exact ⟨_, _, parked, rfl, rfl, rfl, rfl, rfl, rfl, rfl, rfl, rfl, rfl, rfl, rfl, rfl, rfl, rfl, rfl, rfl, dCom, dStack, dExited, dOther,
      (congrArg PcSlot.mask dSlot :), (congrArg PcSlot.base dSlot :), fun _ => ⟨dHeat, (congrArg PcSlot.pc dSlot :)⟩,
      fun yes => absurd yes sealed, (parkCrew_scr own (dWait.trans idle) _ _).trans (congrArg MemSys.scr (updRegion_mem ..))⟩

end Sys2Proof.Machine
end

section
/-! SUPPORT. The commit of a heat whose stores lie in scratch (O32). -/

namespace Sys2Proof.Machine

variable {s : State} {id n : Nat} {c : Crew} {h : Heat}

-- Stores of scratch outside the barrier words.

/-- Cells of scratch that no barrier word of the region holds. -/
def State.plainScr (s : State) (rk : Nat) (cells : List MemCell) : Prop :=
  ∀ x ∈ cells, x.sp = .scr ∧ s.barWord rk (x.a / 2 ^ 24) (x.a % 2 ^ 24) = none

theorem foldl_same {α β : Type} {f : β → α → β} {l : List α} (same : ∀ b, ∀ a ∈ l, f b a = b) (b : β) : l.foldl f b = b := by
  induction l with
  | nil => rfl
  | cons a r ih =>
    rw [List.foldl_cons, same b a List.mem_cons_self]
    exact ih fun b x hx => same b x (List.mem_cons_of_mem _ hx)

theorem scrCells_plain {rk : Nat} {cells : List MemCell} (plain : s.plainScr rk cells) :
    s.scrCells rk (cells.map (fun x => (x.a, x.b))) = cells.map (fun x => (x.a, x.b)) := by
  rw [State.scrCells, List.map_map]
  refine List.map_congr_left fun x hx => ?_
  simp only [Function.comp_apply, (plain x hx).2]

theorem storeExts_scr (m : MemSys) {cells : List MemCell} (scr : ∀ x ∈ cells, x.sp = .scr) : m.storeExts cells = m := by
  have none_ : (cells.filterMap (fun x => match x.sp with
      | .ext _ _ => some x.a
      | _ => none)) = [] := List.filterMap_eq_nil_iff.2 fun x hx => by rw [scr x hx]
  have same : cells.foldl (fun m x => match x.sp with
      | .ext k3 p => MemSys.storeExt m k3 p [(x.a, x.b)]
      | _ => m) m = m := foldl_same (fun b x hx => by rw [scr x hx]) m
  unfold MemSys.storeExts
  dsimp only
  refine (congrArg (fun l : List Nat => (l.eraseDups.map lineOf).eraseDups.foldl _ _) none_).trans ?_
  exact same

theorem wroteBy_scr (m : MemSys) (rk : Nat) {cells : List MemCell} (scr : ∀ x ∈ cells, x.sp = .scr) :
    m.wroteBy rk (cells.map (fun x => (x.sp, x.a))) = m := by
  have none_ : (cells.map (fun x => (x.sp, x.a))).filterMap (fun x => poolPlace x.1 x.2) = [] := by
    refine List.filterMap_eq_nil_iff.2 fun y hy => ?_
    obtain ⟨x, hx, rfl⟩ := List.mem_map.1 hy
    rw [scr x hx]
    rfl
  rw [MemSys.wroteBy, none_]
  rfl

/-- A store of such cells writes them and changes nothing else. -/
theorem performStore_scr (hc : s.crew id = some c) (closed : c.heat = none) {cells : List MemCell} (plain : s.plainScr c.rk cells)
    (mode : BitVec 40) :
    s.performStore id cells mode = { s with mem := s.mem.putScratch (cells.map (fun x => (x.a, x.b))) } := by
  have scr : ∀ x ∈ cells, x.sp = .scr := fun x hx => (plain x hx).1
  have own : s.ownFirst (s.whoCrew id c) (cells.map (fun x => (x.sp, x.a))) = s := ownFirst_scratch _ fun p hp => by
    obtain ⟨x, hx, rfl⟩ := List.mem_map.1 hp
    simp [scr x hx]
  have pkg : ∀ tr, cells.filter (fun x => x.sp == .pkg && x.tree == tr) = [] := fun tr =>
    List.filter_eq_nil_iff.2 fun x hx => by simp [scr x hx]
  have peer : cells.filter (fun x => x.sp == .peer) = [] := List.filter_eq_nil_iff.2 fun x hx => by simp [scr x hx]
  have mine : cells.filter (fun x => x.sp == .scr) = cells := List.filter_eq_self.2 fun x hx => by simp [scr x hx]
  simp only [State.performStore, hc, own, pkg, peer, mine, closed, Option.isSome_none, Bool.false_and, MemSys.storePkg, scrCells_plain plain,
    storeExts_scr _ scr, wroteBy_scr _ _ scr, List.map_nil, List.eraseDups_nil, List.foldl_nil]
  exact foldl_same (fun b x hx => by rw [scr x (List.mem_filter.1 hx).1]) _

/-- Stores of the buffer whose cells are such cells, none of them a release. -/
def State.plainOps (s : State) (rk : Nat) (ops : List BufOp) : Prop :=
  ∀ o ∈ ops, ∃ cells mode, o = .store cells mode ∧ modeOrd mode ≠ 2 ∧ s.plainScr rk cells

/-- Memory after buffered stores of scratch. -/
def MemSys.putOps (m : MemSys) (ops : List BufOp) : MemSys :=
  ops.foldl (fun m o => match o with
    | .store cells _ => m.putScratch (cells.map (fun x => (x.a, x.b)))
    | _ => m) m

theorem performOps_scr (closed : c.heat = none) {ops : List BufOp} (s : State) (hc : s.crew id = some c) (plain : s.plainOps c.rk ops) :
    ops.foldl (State.performOp id) s = { s with mem := s.mem.putOps ops } := by
  induction ops generalizing s with
  | nil => rfl
  | cons o r ih =>
    obtain ⟨cells, mode, rfl, relaxed, cellsPlain⟩ := plain o List.mem_cons_self
    have step : State.performOp id s (.store cells mode) = { s with mem := s.mem.putScratch (cells.map (fun x => (x.a, x.b))) } := by
      simp only [State.performOp, if_neg relaxed]
      exact performStore_scr hc closed cellsPlain mode
    rw [List.foldl_cons, step]
    exact ih _ hc (fun o ho => plain o (List.mem_cons_of_mem _ ho))

theorem putScratch_other (m : MemSys) (bs : List (Nat × Byte)) : (m.putScratch bs).pkg = m.pkg ∧ (m.putScratch bs).ext = m.ext ∧
    (m.putScratch bs).peer = m.peer ∧ (m.putScratch bs).lines = m.lines := ⟨rfl, rfl, rfl, rfl⟩

theorem putOps_other (m : MemSys) (ops : List BufOp) : (m.putOps ops).pkg = m.pkg ∧ (m.putOps ops).ext = m.ext ∧
    (m.putOps ops).peer = m.peer ∧ (m.putOps ops).lines = m.lines := by
  induction ops generalizing m with
  | nil => exact ⟨rfl, rfl, rfl, rfl⟩
  | cons o r ih =>
    cases o with
    | store cells mode => exact ih (m.putScratch (cells.map (fun x => (x.a, x.b))))
    | release a b => exact ih m
    | flush a b d => exact ih m
    | inval a => exact ih m

/-- A byte after cells have been put, as the latest cell that names it. -/
theorem get_cells (a : Nat) (d : Byte) {cells : List MemCell} (scr : ∀ x ∈ cells, x.sp = .scr) {m : Memory} (hm : Memory.wf m = true)
    {o : Option Byte} (before : Memory.get m a = o.getD d) :
    Memory.get ((cells.map (fun x => (x.a, x.b))).foldl (fun g kv => Memory.put g kv.1 kv.2) m) a =
      (cells.foldl (fun o x => if x.sp == .scr && x.a == a then some x.b else o) o).getD d := by
  induction cells generalizing m o with
  | nil => exact before
  | cons x r ih =>
    rw [List.map_cons, List.foldl_cons, List.foldl_cons]
    refine ih (fun y hy => scr y (List.mem_cons_of_mem _ hy)) (Memory.wf_put _ _ _ hm) ?_
    rw [Memory.get_put _ _ _ _ hm, scr x List.mem_cons_self]
    by_cases here : a = x.a
    · simp [here]
    · simp [here, before, Ne.symm here]

theorem get_putOps (a : Nat) (d : Byte) {rk : Nat} {ops : List BufOp} (plain : s.plainOps rk ops) {m : MemSys} (hm : Memory.wf m.scr = true)
    {o : Option Byte} (before : Memory.get m.scr a = o.getD d) :
    Memory.get (m.putOps ops).scr a = (ops.foldl (fun o b => match b with
      | .store cells _ => cells.foldl (fun o x => if x.sp == .scr && x.a == a then some x.b else o) o
      | _ => o) o).getD d := by
  induction ops generalizing m o with
  | nil => exact before
  | cons b r ih =>
    obtain ⟨cells, mode, rfl, -, cellsPlain⟩ := plain b List.mem_cons_self
    refine ih (m := m.putScratch _) (fun o ho => plain o (List.mem_cons_of_mem _ ho)) (Memory.wf_puts _ _ _ hm) ?_
    exact get_cells a d (fun x hx => (cellsPlain x hx).1) hm before

-- The registers of a commit.

theorem Tab.find_filter {α : Type} (t : Tab α) (p : Nat → Bool) (k : Nat) :
    Tab.find (t.filter (fun kv => p kv.1)) k = if p k then Tab.find t k else none := by
  induction t with
  | nil => simp [Tab.find]
  | cons kv r ih =>
    obtain ⟨j, v⟩ := kv
    by_cases here : j = k
    · subst here
      cases hp : p j
      · rw [List.filter_cons_of_neg (by simp [hp]), ih]
        simp [hp]
      · rw [List.filter_cons_of_pos (by simp [hp])]
        simp [Tab.find]
    · have skip : Tab.find ((j, v) :: r) k = Tab.find r k := by simp [Tab.find, here]
      rw [skip, ← ih]
      cases hp : p j
      · rw [List.filter_cons_of_neg (by simp [hp])]
      · rw [List.filter_cons_of_pos (by simp [hp])]
        simp [Tab.find, here]

theorem commit_rdV (r : Regs) (k : Nat) : (k < 1024 → r.commit.rdV k = r.rdV k ∧ r.commit.rdTag k = r.rdTag k) ∧
    (1024 ≤ k → r.commit.rdV k = zeroLanes ∧ r.commit.rdTag k = fmtBITS) := by
  have words := Tab.find_filter r.v (fun k => decide (k < 1024)) k
  have tags := Tab.find_filter r.tag (fun k => decide (k < 1024)) k
  constructor
  · intro small
    rw [if_pos (by simpa using small)] at words tags
    exact ⟨congrArg (Option.getD · zeroLanes) words, congrArg (Option.getD · fmtBITS) tags⟩
  · intro temporary
    rw [if_neg (by simpa using temporary)] at words tags
    exact ⟨congrArg (Option.getD · zeroLanes) words, congrArg (Option.getD · fmtBITS) tags⟩

/-- The commit of a heat whose stores are such stores: the crew, and memory after the stores. -/
theorem commit_eq (hc : s.crew id = some c) (heat : c.heat = some h) (plain : s.plainOps c.rk h.buf) (names : Bool) :
    s.commit id names = (({ s with mem := s.mem.putOps h.buf } : State).setCrew id (s.ask c (c.commitRegs h names)).drain).updRegion c.rk
      (fun g => { g with heats := g.heats + 1 }) := by
  have closed : (s.ask c (c.commitRegs h names)).heat = none ∧ (s.ask c (c.commitRegs h names)).rk = c.rk := by
    obtain ⟨a, asked⟩ := ask_eq s c (c.commitRegs h names)
    rw [asked]
    exact ⟨rfl, Crew.rk_setSlot ..⟩
  simp only [State.commit, hc, heat]
  generalize s.ask c (c.commitRegs h names) = d at closed ⊢
  obtain ⟨closed, rk⟩ := closed
  rw [performOps_scr closed _ (State.crew_setCrew_same ..) (by rw [rk]; exact plain)]
  exact congrArg (fun t => State.updRegion t c.rk _) (State.updCrew_setCrew { s with mem := s.mem.putOps h.buf } id d Crew.drain)

/-- The fields of a crew after its registers have committed. -/
theorem commitRegs_fields (c : Crew) (h : Heat) (gives : h.gives = []) (small : h.slot < 2) :
    let k := c.commitRegs h true
    let late := h.skip.isSome && c.skip.any (fun k => k / 32 % 2 == h.slot && decide (64 ≤ k))
    k.com = (if late then { h.wrk.commit with tretctl := h.wrk.tretctl &&& ~~~(1 : DWord) } else h.wrk.commit) ∧
    k.slot h.slot = { c.slot h.slot with base := h.base } ∧ k.slot (1 - h.slot) = c.slot (1 - h.slot) ∧ k.stack = c.stack ∧
    k.exited = c.exited ∧ k.trap = c.trap ∧ k.toks = c.toks ∧ k.named.length = c.named.length + h.pend.length ∧ k.inbox = c.inbox := by
  intro k late
  have late_eq : (c.skip.any (fun k => k / 32 % 2 == h.slot) && h.skip.isSome && c.skip.any (fun k => decide (64 ≤ k))) = late := by
    cases hs : c.skip <;> simp [late, hs, Bool.and_comm, Bool.and_left_comm, Bool.and_assoc]
  refine ⟨?_, Crew.slot_setSlot .., Crew.slot_other_setSlot _ _ small, Crew.stack_setSlot .., Crew.exited_setSlot .., Crew.trap_setSlot .., ?_, ?_,
    Crew.inbox_setSlot ..⟩
  · simp only [k, Crew.commitRegs, gives, List.foldl_nil, if_true, late_eq]
    rfl
  · simp [k, Crew.commitRegs, gives]
  · simp [k, Crew.commitRegs, gives]

/-- Settles O32: the crew's registers, then scratch byte by byte. -/
theorem commitsApply : Obligations.CommitsApply := by
  unfold Obligations.CommitsApply
  intro s id c h hc heat gives small hm inbox stores late t
  have plain : s.plainOps c.rk h.buf := stores
  have made := commit_eq hc heat plain true
  obtain ⟨com, slot, other, stack, exited, trap, toks, named, box⟩ := commitRegs_fields c h gives small
  obtain ⟨a, asked⟩ := ask_eq s c (c.commitRegs h true)
  have drained : (s.ask c (c.commitRegs h true)).drain =
      { c.commitRegs h true with ring := { (c.commitRegs h true).ring with asked := a }, inbox := [] } := by
    rw [asked]
    simp only [Crew.drain, box, inbox]
    rfl
  rw [drained] at made
  have crews : t.crews = (s.setCrew id _).crews := (congrArg State.crews made).trans (updRegion_crews ..)
  have mem : t.mem = s.mem.putOps h.buf := (congrArg State.mem made).trans (updRegion_mem ..)
  obtain ⟨pkg, ext, peer, lines⟩ := putOps_other s.mem h.buf
  have late_com : ∀ {α : Type} (f : Regs → α), (∀ r x, f { r with tretctl := x } = f r) → f (c.commitRegs h true).com = f h.wrk.commit := by
    intro α f keeps
    rw [com]
    split
    · exact keeps ..
    · rfl
  refine ⟨_, (State.crew_of_crews crews id).trans (State.crew_setCrew_same ..),
    fun k hk => (State.crew_of_crews crews k).trans (State.crew_setCrew_other _ _ hk), rfl, fun k hk => ?_, fun k hk => ?_,
    late_com Regs.s (fun _ _ => rfl), late_com Regs.p (fun _ _ => rfl), late_com Regs.mode (fun _ _ => rfl), late_com Regs.asw (fun _ _ => rfl),
    late_com Regs.lfsr (fun _ _ => rfl), late_com Regs.watch (fun _ _ => rfl), late_com Regs.tretpc (fun _ _ => rfl), ?_, slot, other, stack,
    exited, trap, toks, rfl, named, fun a => ?_, by rw [mem]; exact pkg, by rw [mem]; exact ext, by rw [mem]; exact peer, by rw [mem]; exact lines⟩
  · exact ⟨(late_com (fun r => r.rdV k) (fun _ _ => rfl)).trans ((commit_rdV h.wrk k).1 hk).1,
      (late_com (fun r => r.rdTag k) (fun _ _ => rfl)).trans ((commit_rdV h.wrk k).1 hk).2⟩
  · exact ⟨(late_com (fun r => r.rdV k) (fun _ _ => rfl)).trans ((commit_rdV h.wrk k).2 hk).1,
      (late_com (fun r => r.rdTag k) (fun _ _ => rfl)).trans ((commit_rdV h.wrk k).2 hk).2⟩
  · refine (congrArg Regs.tretctl com).trans ?_
    split <;> rfl
  · rw [mem]
    exact get_putOps a _ plain hm (o := none) rfl

end Sys2Proof.Machine
end

section
/-! SUPPORT. System words complete (O47), and are refused without privilege (O48). -/

namespace Sys2Proof.Machine

variable {s : State} {id n : Nat} {c : Crew} {h : Heat}

/-- A word that ends with a result whose data is clean. -/
theorem crewWord_emitted (H : InHeat s id n c h) {eff : Eff} {t : State} {ws : List RegW}
    (he : eff (s.setCrew id c) id c h = (match t.emitLoad id ws 0 .clean with
      | .error e => .error e
      | .ok t => .ok (t, 0)))
    (hc : t.calm id) : s.crewWord true eff = .next ((t.emitted id ws 0 .clean).nextWord id 0) := by
  rw [emitLoad_good _ _ _ _ .clean rfl] at he
  exact crewWord_next H he (admits_zero h) (emitted_calm _ _ _ hc)

theorem seal_calm (H : InHeat s id n c h) : ((s.setCrew id c).seal id).calm id := calm_of_pend (seal_pend ..) H.calm

-- Privilege (O48).

theorem csrPriv_listed {r : Nat} (privileged : csrPriv r = true) : csrListed r = true ∧ csrRO r = false ∧ ¬0x20 ≤ r := by
  simp only [csrPriv, Bool.and_eq_true, decide_eq_true_eq] at privileged
  obtain ⟨low, high⟩ := privileged
  have : r = 0x10 ∨ r = 0x11 ∨ r = 0x12 := by omega
  rcases this with rfl | rfl | rfl <;> decide

theorem csrRO_of_le {r : Nat} (low : r ≤ 3) : csrRO r = true := by simpa [csrRO] using low

theorem crewWord_access (H : InHeat s id n c h) {eff : Eff} (he : eff (s.setCrew id c) id c h = .error stopAccess) :
    s.crewWord true eff = .next ((s.setCrew id c).raise id n ⟨cACCESS, 0, 0⟩ none false) := crewWord_stop H he

/-- Settles O48: each word's check of privilege, or of its register's number. -/
theorem privilegeIsChecked : Obligations.PrivilegeIsChecked := by
  unfold Obligations.PrivilegeIsChecked
  intro s id n c h H access illegal
  refine ⟨fun without => ⟨fun d r privileged R => ?_, fun d r privileged => ?_, fun a b => ?_, fun a b => ?_, fun o R throttle => ?_⟩,
    fun d r unlisted => ⟨?_, ?_⟩, fun d r low => ?_⟩
  all_goals have free : (s.setCrew id c).privileged c.rk = s.privileged c.rk := rfl
  · change execCsrr d r s = _
    rw [execCsrr, sharedWord_crew H]
    refine crewWord_access H ?_
    simp only [(csrPriv_listed privileged).1, check_ok R, privileged, free, without]
    rfl
  · change execCsrw d r s = _
    obtain ⟨listed, writable, low⟩ := csrPriv_listed privileged
    refine crewWord_access H ?_
    simp only [listed, writable, low, free, without]
    rfl
  · change execTlbi a b s = _
    refine crewWord_access H (if_pos ?_)
    simp [free, without]
  · change execClassPage a b s = _
    refine crewWord_access H (if_pos ?_)
    simp [free, without]
  · change execPwrq o s = _
    refine crewWord_access H ?_
    simp only [check_ok R, throttle, free, without]
    rfl
  · change execCsrr d r s = _
    rw [execCsrr, sharedWord_crew H]
    exact crewWord_refused H (if_pos (by simp [unlisted]))
  · change execCsrw d r s = _
    exact crewWord_refused H (if_pos (by simp [unlisted]))
  · change execCsrw d r s = _
    exact crewWord_refused H (if_pos (by simp [csrRO_of_le low]))

-- System words (O47).

theorem askTier_crews (s : State) (die fdom va tier : Nat) : (s.askTier die fdom va tier).crews = s.crews := by
  unfold State.askTier
  split
  · rfl
  · split
    · rfl
    · split <;> rfl

theorem csrPut_crews (s : State) (r : Nat) (x : DWord) : (s.csrPut r x).crews = s.crews := by
  unfold State.csrPut
  split <;> rfl

theorem calm_of_heatOf (calm : ∀ h, s.heatOf id = some h → ∀ p ∈ h.pend, p.left ≤ 1 → p.got.bad = none) : s.calm id := by
  intro ps hp
  unfold State.crewPend at hp
  cases hc : s.crew id with
  | none => simp [hc] at hp
  | some c =>
    cases hh : c.heat with
    | none => simp [hc, hh] at hp
    | some h =>
      simp only [hc, hh, Option.bind_some, Option.map_some, Option.some.injEq] at hp
      exact hp ▸ calm h (by simp [State.heatOf, hc, hh])

/-- A privileged TLBI whose operand passes its checks. -/
theorem tlbi_allowed {v : DWord} (privileged : s.privileged c.rk = true) (range : fieldOf v 0 2 ≠ 3)
    (rest : fieldOf v 4 60 = 0) (size : fieldOf v 0 2 = 0 → fieldOf v 2 2 ≠ 3) :
    (!s.privileged c.rk || bits v.toNat 0 2 == 3 || bits v.toNat 4 60 != 0 || (bits v.toNat 0 2 == 0 && bits v.toNat 2 2 == 3)) = false := by
  simp only [fieldOf] at range rest size
  simp [privileged, range, rest]
  exact size

/-- TLBI of a privileged crew: what it drops, and its wait for the accesses translated before. -/
theorem tlbi_issues (H : InHeat s id n c h) {a b : BitVec 5} (allowed : (!s.privileged c.rk || bits (h.wrk.rdS b.toNat).toNat 0 2 == 3 ||
      bits (h.wrk.rdS b.toNat).toNat 4 60 != 0 || (bits (h.wrk.rdS b.toNat).toNat 0 2 == 0 && bits (h.wrk.rdS b.toNat).toNat 2 2 == 3)) = false) :
    let s0 := s.setCrew id c
    let s1 := ((s0.seal id).performLaters.markOld (some id)).invalTlb (tlbNames (bits (h.wrk.rdS b.toNat).toNat 0 2)
      (bits (h.wrk.rdS b.toNat).toNat 2 2) (h.wrk.rdS a.toNat).toNat 0)
    (c.wait ≠ .drain → s1.oldLeft = false → execTlbi a b s = .next (s1.nextWord id 0)) ∧
    (c.wait ≠ .drain → s1.oldLeft = true → execTlbi a b s = .next (s1.updCrew id (fun c => { c with wait := .drain }))) ∧
    (c.wait = .drain → s0.oldLeft = false → execTlbi a b s = .next (s0.nextWord id 0)) := by
  intro s0 s1
  have calm1 : s1.calm id := calm_of_pend ((invalTlb_pend ..).trans ((markOld_pend ..).trans ((performLaters_pend ..).trans (seal_pend ..)))) H.calm
  obtain ⟨eff, word, effect⟩ : ∃ eff : Eff, execTlbi a b s = s.crewWord true eff ∧ eff s0 id c h = (match c.wait with
      | .drain => if s0.oldLeft then .error (.wait .drain) else .ok (s0, 0)
      | _ => if s1.oldLeft then .error (.held (s1.updCrew id (fun c => { c with wait := .drain }))) else .ok (s1, 0)) :=
    ⟨_, rfl, if_neg (Bool.eq_false_iff.1 allowed)⟩
  clear_value s1
  rw [word]
  refine ⟨fun hw done => crewWord_next H ?_ (admits_zero h) calm1, fun hw left => crewWord_stop (st := .held _) H ?_,
    fun hw done => crewWord_next H ?_ (admits_zero h) H.calm⟩
  · rw [effect]
    split
    · exact absurd ‹_› hw
    · exact if_neg (by rw [done]; decide)
  · rw [effect]
    split
    · exact absurd ‹_› hw
    · exact if_pos left
  · rw [effect, hw]
    exact if_neg (by rw [done]; decide)

/-- Settles O47: each word passes its checks and has its effect, or waits. -/
theorem systemWordsComplete : Obligations.SystemWordsComplete := by
  unfold Obligations.SystemWordsComplete
  refine ⟨fun s id n c h H => ?_, fun s k e d r H kind listed low privileged free => ?_⟩
  · intro s0 out
    have kept : (s.setCrew id c).privileged c.rk = s.privileged c.rk := rfl
    refine ⟨fun d r R listed privileged => ?_, fun d r listed high => ?_, fun d r priv privileged => ?_, fun a b => ?_, fun a b s1 => ?_, fun o R => ?_,
      fun o r R region inside => ?_⟩
    · change execCsrr d r s = _
      have value : BitVec.ofNat 64 (if 0x20 ≤ r.toNat then (Tab.get h.wrk.watch (r.toNat - 0x20) 0).toNat else s.csr r.toNat) =
          if 0x20 ≤ r.toNat then Tab.get h.wrk.watch (r.toNat - 0x20) 0 else BitVec.ofNat 64 (s.csr r.toNat) := by
        split
        · rw [BitVec.ofNat_toNat, BitVec.setWidth_eq]
        · rfl
      have allowed : ¬((csrPriv r.toNat && !s.privileged c.rk) = true) := by
        cases hp : csrPriv r.toNat
        · simp
        · simp [privileged hp]
      rw [execCsrr, sharedWord_crew H]
      refine (crewWord_emitted H (t := s0) (ws := [.s d.toNat _]) ?_ H.calm).trans (congrArg (fun x => Host.Outcome.next ((s0.emitted id [.s d.toNat x] 0
        .clean).nextWord id 0)) value.symm)
      simp only [listed, check_ok R, kept, if_neg allowed]
      rfl
    · change execCsrw d r s = _
      have writable : csrRO r.toNat = false := by
        simp only [csrRO, decide_eq_false_iff_not]
        omega
      refine crewWord_next H (s' := s.setCrew id _) ?_ (admits_zero h) ?_
      · simp only [listed, writable, high, if_true, State.setCrew_setCrew]
        rfl
      · intro ps hp
        simp only [State.crewPend, State.crew_setCrew_same, Option.bind_some, Option.map_some, Option.some.injEq] at hp
        exact hp ▸ H.windows
    · change execCsrw d r s = _
      obtain ⟨listed, writable, low⟩ := csrPriv_listed priv
      refine crewWord_next H ?_ (admits_zero h) (calm_of_pend (crewPend_of_crews (csrPut_crews ..) id) (seal_calm H))
      simp only [listed, writable, if_neg low, kept, privileged]
      rfl
    · intro v privileged range rest size s1
      exact tlbi_issues H (tlbi_allowed privileged range rest size)
    · intro v va w s2 privileged cls bits_ low
      have allowed : ¬((!s.privileged c.rk || bits v 0 2 == 3 || v &&& 0x303 != v) = true) := by simp [privileged, cls, bits_]
      have inside : ¬(2 ^ 57 ≤ va) := Nat.not_le.2 low
      refine ⟨fun admitted done calm => ?_, fun refused => ?_⟩
      · have place : (s.setCrew id c).admitted (resClass ((s.setCrew id c).whoCrew id c).die) id = true := admitted
        have passes : (((s.setCrew id c).seal id).claim (resClass ((s.setCrew id c).whoCrew id c).die) id).classNow ((s.setCrew id c).whoCrew id c)
          (h.wrk.rdS a.toNat).toNat (bits (h.wrk.rdS b.toNat).toNat 0 2) ((s.setCrew id c).coreOf c) = (s1, none) := done
        refine crewWord_next H (s' := s1.askTier w.die w.fdom va (bits v 8 2)) ?_ (admits_zero h)
          (calm_of_pend (crewPend_of_crews (askTier_crews ..) id) (calm_of_heatOf calm))
        refine (if_neg allowed).trans ((if_neg inside).trans ((if_neg (by rw [place]; decide)).trans ?_))
        rw [passes]
        rfl
      · have full : (s.setCrew id c).admitted (resClass ((s.setCrew id c).whoCrew id c).die) id = false := refused
        refine crewWord_stop (st := .held _) H ?_
        exact (if_neg allowed).trans ((if_neg inside).trans (if_pos (by rw [full]; decide)))
    · intro s1 key want ok
      have calm1 : s1.calm id := seal_calm H
      refine ⟨fun op => ?_, fun op r region => ?_, fun op => ?_, fun op privileged => ⟨fun yes => ?_, fun no => ?_⟩⟩
      · refine crewWord_emitted H ?_ calm1
        simp only [check_ok R, op]
        rfl
      · have here : ((s.setCrew id c).seal id).region c.rk = some r := region
        refine crewWord_emitted H ?_ calm1
        simp only [check_ok R, op, here]
        rfl
      · refine crewWord_emitted H ?_ calm1
        simp only [check_ok R, op]
        rfl
      · have all : (decide (3 ≤ want) && decide (want ≤ 8) && decide (want ≤ s1.ceilOf key)) = true := by
          obtain ⟨low, high, ceiling⟩ := yes
          simp [low, high, ceiling]
        refine crewWord_emitted H (t := { s1 with power := { s1.power with req := Tab.put s1.power.req key want } }) ?_ calm1
        have all : (decide (3 ≤ fieldOf (h.wrk.rdS o.b.toNat) 0 4) && decide (fieldOf (h.wrk.rdS o.b.toNat) 0 4 ≤ 8) &&
          decide (fieldOf (h.wrk.rdS o.b.toNat) 0 4 ≤ ((s.setCrew id c).seal id).ceilOf (sliceKey ((s.setCrew id c).coreOf c)))) = true := all
        simp only [check_ok R, op, kept, privileged, all]
        rfl
      · have some_ : (decide (3 ≤ want) && decide (want ≤ 8) && decide (want ≤ s1.ceilOf key)) = false := by
          simpa [ok, Nat.not_le, and_assoc] using no
        refine crewWord_emitted H (t := s1) ?_ calm1
        have some_ : (decide (3 ≤ fieldOf (h.wrk.rdS o.b.toNat) 0 4) && decide (fieldOf (h.wrk.rdS o.b.toNat) 0 4 ≤ 8) &&
          decide (fieldOf (h.wrk.rdS o.b.toNat) 0 4 ≤ ((s.setCrew id c).seal id).ceilOf (sliceKey ((s.setCrew id c).coreOf c)))) = false := some_
        simp only [check_ok R, op, kept, privileged, some_]
        rfl
    · have here : (s.setCrew id c).region c.rk = some r := region
      refine crewWord_emitted H (t := s0) ?_ H.calm
      simp only [check_ok R, here, if_neg (Nat.not_le.2 inside)]
      rfl
  · refine ⟨s.freeCount + 1, ?_⟩
    have allowed : ¬((csrPriv r.toNat && !s.privileged e.rk) = true) := by
      cases hp : csrPriv r.toNat
      · simp
      · simp [privileged hp]
    change execCsrr d r s = _
    unfold execCsrr
    refine sharedWord_eng H (by rw [kind]; rfl) ?_
    simp only [listed, if_neg allowed, if_neg (Nat.not_le.2 low), Eng.setS_free free]
    rfl

end Sys2Proof.Machine
end

section
/-! SUPPORT. Programs of engine contexts start (O43); tokens, FORK, RDV and LAUNCH complete (O42). -/

namespace Sys2Proof.Machine

variable {s : State} {id n : Nat} {c : Crew} {h : Heat}

-- The start of a program (O43).

/-- The state of a free context's new program, before the acquire of R411. -/
def State.startFree (s : State) (x : Starter) (k : Nat) (arg pc : DWord) : State :=
  let gen := ((Tab.get s.forks k (0, 0)).1 + 1) % 2 ^ 24
  let e := Eng.forked gen k x pc (Tab.put ((s.eng k).getD Eng.start).s 0 arg)
  let s := { s with forks := Tab.put s.forks k (gen, 0) }.setEng k e
  match s.team x.rk x.team with
  | some t => { s with teams := Tab.put s.teams (teamKey x.rk x.team) { t with engs := (k * 2 ^ 24 + gen) :: t.engs } }
  | none => s

theorem startFree_fields (s : State) (x : Starter) (k : Nat) (arg pc : DWord) :
    let gen := ((Tab.get s.forks k (0, 0)).1 + 1) % 2 ^ 24
    (s.startFree x k arg pc).crews = s.crews ∧ (s.startFree x k arg pc).mem = s.mem ∧
    (s.startFree x k arg pc).forks = Tab.put s.forks k (gen, 0) ∧
    (s.startFree x k arg pc).engs = Tab.put s.engs k (Eng.forked gen k x pc (Tab.put ((s.eng k).getD Eng.start).s 0 arg)) := by
  unfold State.startFree
  dsimp only
  split <;> exact ⟨rfl, rfl, rfl, rfl⟩

theorem startProgram_busy {k : Nat} (busy : ((s.eng k).getD Eng.start).busy = true) (x : Starter) (w arg pc : DWord) :
    s.startProgram x k w arg pc = (s, 0) := if_pos busy

theorem startProgram_free {k : Nat} (free : ((s.eng k).getD Eng.start).busy = false) (x : Starter) (w arg pc : DWord) :
    s.startProgram x k w arg pc = ((s.startFree x k arg pc).engAcquire ((s.startFree x k arg pc).whoEng k
        (Eng.forked (((Tab.get s.forks k (0, 0)).1 + 1) % 2 ^ 24) k x pc (Tab.put ((s.eng k).getD Eng.start).s 0 arg))) (forkScope w),
      BitVec.ofNat 64 (2 ^ 63 + ((Tab.get s.forks k (0, 0)).1 + 1) % 2 ^ 24 * 2 ^ 24 + fieldOf w 16 4 * 2 ^ 16 + fieldOf w 0 8)) :=
  if_neg (by simp [free])

theorem startProgram_crews (s : State) (x : Starter) (k : Nat) (w arg pc : DWord) : (s.startProgram x k w arg pc).1.crews = s.crews := by
  cases busy : ((s.eng k).getD Eng.start).busy with
  | true => rw [startProgram_busy busy]
  | false =>
    rw [startProgram_free busy]
    exact (startFree_fields s x k arg pc).1

/-- KIND and INDEX of a target word are small. -/
theorem targetOk_small {w : DWord} (ok : targetOk w = true) : fieldOf w 16 4 < 3 ∧ fieldOf w 0 8 < 32 := by
  simp only [targetOk, Bool.and_eq_true, Bool.or_eq_true, beq_iff_eq, decide_eq_true_eq] at ok
  omega

/-- The fields of a handle. -/
theorem handle_fields {gen kind idx : Nat} (hg : gen < 2 ^ 24) (hk : kind < 3) (hi : idx < 32) :
    let r : DWord := BitVec.ofNat 64 (2 ^ 63 + gen * 2 ^ 24 + kind * 2 ^ 16 + idx)
    r.getLsbD 63 = true ∧ fieldOf r 24 24 = gen ∧ fieldOf r 16 4 = kind ∧ fieldOf r 0 8 = idx := by
  intro r
  have value : r.toNat = 2 ^ 63 + gen * 2 ^ 24 + kind * 2 ^ 16 + idx := by
    rw [BitVec.toNat_ofNat, Nat.mod_eq_of_lt]
    omega
  refine ⟨?_, ?_, ?_, ?_⟩
  · rw [BitVec.getLsbD, value, Nat.testBit_eq_decide_div_mod_eq, decide_eq_true_eq]
    omega
  all_goals
    rw [fieldOf, value, bits, Nat.shiftRight_eq_div_pow]
    omega

/-- Settles O43: a busy context stays, and a free one holds the new program. -/
theorem programsStartOnFreeContexts : Obligations.ProgramsStartOnFreeContexts := by
  unfold Obligations.ProgramsStartOnFreeContexts
  intro s x k w arg pc ok old r gen
  refine ⟨fun busy => startProgram_busy busy .., fun free => ?_⟩
  have starts : r = _ := startProgram_free free x w arg pc
  obtain ⟨crews, mem, forks, engs⟩ := startFree_fields s x k arg pc
  obtain ⟨kind, idx⟩ := targetOk_small ok
  obtain ⟨top, hgen, hkind, hidx⟩ := handle_fields (Nat.mod_lt _ (Nat.two_pow_pos 24)) kind idx
  rw [starts]
  refine ⟨top, hgen, hkind, hidx, fun j hj => ?_, crews, ?_, ?_, Eng.forked gen k x pc (Tab.put old.s 0 arg), ?_, rfl, rfl, ?_, fun n hn => ?_,
    fun n hn => ?_, rfl, rfl, rfl, rfl, rfl, rfl, rfl, rfl, rfl⟩
  · exact (congrArg (fun t => Tab.find t j) engs).trans (Tab.find_put_other _ _ hj)
  · exact ((MemSys.acquire_same ..).2.2.2).trans (congrArg MemSys.scr mem)
  · exact (congrArg (fun t => Tab.get t k (0, 0)) forks).trans (Tab.get_put_same ..)
  · exact (congrArg (fun t => Tab.find t k) engs).trans (Tab.find_put_same ..)
  · exact Tab.get_put_same ..
  · exact Tab.get_put_other _ _ _ hn
  · simp [Eng.rdP, hn, Eng.forked, Eng.start, Tab.get, Tab.find]

-- Tokens, programs, launches (O42).

theorem forkStop_none {w pc : DWord} (plain : w.getLsbD 63 = false) (gen : fieldOf w 24 24 = 0) (ok : targetOk w = true)
    (aligned : fieldOf pc 0 2 = 0) : forkStop w pc = none := by
  unfold forkStop
  rw [plain, gen, ok, aligned]
  rfl

theorem startProgram_eng {e : Eng} {k j : Nat} (he : s.eng j = some e) (x : Starter) (w arg pc : DWord) :
    ∃ e', (s.startProgram x k w arg pc).1.eng j = some e' := by
  cases busy : ((s.eng k).getD Eng.start).busy with
  | true => exact ⟨e, by rw [startProgram_busy busy]; exact he⟩
  | false =>
    rw [startProgram_free busy]
    obtain ⟨-, -, -, engs⟩ := startFree_fields s x k arg pc
    have find := congrArg (fun t => Tab.find t j) engs
    by_cases hj : j = k
    · subst hj
      exact ⟨_, find.trans (Tab.find_put_same ..)⟩
    · exact ⟨e, find.trans ((Tab.find_put_other _ _ hj).trans he)⟩

/-- What LAUNCH does with a message read without an error. -/
theorem launch_tail {w : Who} {as : List (Nat × Acc)} {ls : List (Nat × List Hit)} {r : State × List (Nat × List Byte)}
    (good : (r.1.got w false as ls).bad = none) (id : Nat) (d : BitVec 5) :
    (match (r.1.got w false as ls).bad with
      | some m => (.error (r.1.metNow id m) : Except Stop (State × Flags))
      | none =>
        (if decide (256 ≤ r.1.port.queue.length) then r.1 else r.1.enqueue (wordsOf 8 (r.2.flatMap Prod.snd))).emitS id d
          (decide (256 ≤ r.1.port.queue.length)).toNat 0) =
      .ok ((if decide (256 ≤ r.1.port.queue.length) then r.1 else r.1.enqueue (wordsOf 8 (r.2.flatMap Prod.snd))).emitted id
        [.s d.toNat (BitVec.ofNat 64 (decide (256 ≤ r.1.port.queue.length)).toNat)] 0 .clean, 0) := by
  rw [good]
  exact emitS_ok ..

/-- Settles O42: each word passes its checks and has its effect. -/
theorem tokenAndProgramWordsComplete : Obligations.TokenAndProgramWordsComplete := by
  unfold Obligations.TokenAndProgramWordsComplete
  refine ⟨fun s id n c h H => ?_, fun s k e H kind => ⟨fun o free => ?_, fun o r free => ?_⟩⟩
  · intro s0 out
    have calm1 : (s0.seal id).calm id := seal_calm H
    refine ⟨fun a good => ?_, fun a t found returned => ?_, fun o R => ?_, fun o r R => ?_, fun o s1 ls R => ?_⟩
    · change s.crewWord true _ = _
      refine crewWord_next H ?_ (admits_zero h) (calm_of_pend (updCrew_pend _ _ _ ?_ id) (calm_of_pend (releaseCrew_pend ..) calm1))
      · exact if_neg (by rw [good]; decide)
      · intro c
        cases c.heat <;> rfl
    · change s.crewWord true _ = _
      refine crewWord_next H ?_ (admits_zero h) (calm_of_pend (crewPend_of_crews (acquireCrew_crews ..) id)
        (calm_of_pend (updCrew_pend _ _ (fun c => { c with toks := c.toks.filter (fun t => tokBase t.word != tokBase (h.wrk.rdS a.toNat)) })
          (fun _ => rfl) id) calm1))
      simp only [found, returned, if_true]
      rfl
    · intro w pc plain gen0 ok aligned core r
      have passes : forkStop w pc = none := forkStop_none plain gen0 ok aligned
      have calmR : r.1.calm id := calm_of_pend (crewPend_of_crews (startProgram_crews ..) id) (calm_of_pend (releaseCrew_pend ..) calm1)
      obtain ⟨eff, word, effect⟩ : ∃ eff : Eff, exec (.fork o) s = s.crewWord true eff ∧ eff s0 id c h =
          (match c.check h [] [] [nameS o.d] true true with
            | .error e => .error e
            | .ok () => match forkStop w pc with
              | some st => .error st
              | none => match r.1.emitLoad id [.s o.d.toNat r.2] 0 .clean with
                | .error e => .error e
                | .ok s => .ok (s, 0)) := ⟨_, sharedWord_crew H .., rfl⟩
      clear_value r
      rw [word]
      exact crewWord_emitted H (by rw [effect, check_ok R, passes] <;> rfl) calmR
    · intro w s1 handle ok joined
      have allowed : ¬((!w.getLsbD 63 || !targetOk w) = true) := by rw [handle, ok]; decide
      change s.sharedWord true _ _ _ _ = _
      rw [sharedWord_crew H]
      refine crewWord_emitted H ?_ (calm_of_pend (crewPend_of_crews (acquireCrew_crews ..) id) calm1)
      simp only [check_ok R]
      refine (if_neg allowed).trans ?_
      have joined : ((s.setCrew id c).seal id).joined (((s.setCrew id c).seal id).handleHome c.rk c.team
        (((s.setCrew id c).seal id).coreOf c / 96) (h.wrk.rdS o.a.toNat)) (fieldOf (h.wrk.rdS o.a.toNat) 24 24) = some r := joined
      simp only [joined]
      rfl
    · intro w a hk s2 r clean
      have checked : (s.setCrew id c).checkLanes ((s.setCrew id c).whoCrew id c) ((s.setCrew id c).siteCrew id c) c.com.watchFail false
        [(0, ⟨(h.wrk.rdS o.a.toNat).toNat, 64, aRead, 3, 4, 64, false, false, 0⟩)] = (s1, .ok ls) := hk
      have calm2 : r.1.calm id := calm_of_pend ((readLanes_pend ..).trans ((releaseCrew_pend ..).trans (seal_pend ..))) (H.checked_calm hk)
      have good : (r.1.got ((s.setCrew id c).whoCrew id c) false [(0, ⟨(h.wrk.rdS o.a.toNat).toNat, 64, aRead, 3, 4, 64, false, false, 0⟩)]
        ls).bad = none := clean
      change s.crewWord true _ = _
      by_cases full : 256 ≤ r.1.port.queue.length
      · rw [if_pos full]
        refine crewWord_next H ?_ (admits_zero h) (emitted_calm _ _ _ calm2)
        simp only [check_ok R, checked]
        refine (launch_tail good id o.d).trans ?_
        simp only [full] <;> rfl
      · rw [if_neg full]
        refine crewWord_next H ?_ (admits_zero h) (emitted_calm _ _ _ (calm_of_pend (crewPend_of_crews rfl id) calm2))
        simp only [check_ok R, checked]
        refine (launch_tail good id o.d).trans ?_
        simp only [full] <;> rfl
  · intro w pc plain gen0 ok aligned s1 r
    have passes : forkStop w pc = none := forkStop_none plain gen0 ok aligned
    obtain ⟨e', he'⟩ : ∃ e', r.1.eng k = some e' := startProgram_eng (s := s1) H.eng ..
    refine ⟨e', he', ?_⟩
    change s.sharedWord true _ kindM true _ = _
    refine sharedWord_eng H (by rw [kind]; rfl) ?_
    have passes : forkStop (e.rdS o.a.toNat) (e.rdS o.b.toNat) = none := passes
    have here : ((s.engRelease (s.whoEng k e) (forkScope (e.rdS o.a.toNat))).startProgram ⟨e.rk, e.team, e.crew, e.core⟩
      (targetKey (engUnit k) (e.rdS o.a.toNat)) (e.rdS o.a.toNat) (e.rdS o.d.toNat) (e.rdS o.b.toNat)).1.eng k = some e' := he'
    simp only [passes, Eng.setS_free free, here]
    rfl
  · intro w handle ok joined
    have allowed : ¬((!w.getLsbD 63 || !targetOk w) = true) := by rw [handle, ok]; decide
    have joined : s.joined (s.handleHome e.rk e.team (engUnit k) (e.rdS o.a.toNat)) (fieldOf (e.rdS o.a.toNat) 24 24) = some r := joined
    change s.sharedWord true _ kindM true _ = _
    refine sharedWord_eng H (by rw [kind]; rfl) ((if_neg allowed).trans ?_)
    simp only [joined, Eng.setS_free free]
    rfl

end Sys2Proof.Machine
end

section
/-! SUPPORT. The words of Miller contexts complete (O44). -/

namespace Sys2Proof.Machine

variable {s : State} {k : Nat} {e : Eng}

/-- An X operation that waits for no slot and passes the checks of its issue is queued and adds 1 to its set-slot. -/
theorem xIssue_ok {op : Instr} {slot : BitVec 3} {w : BitVec 8} (ready : e.waits w = false) (room : e.dep slot.toNat < 255)
    (passes : s.xCheck k (e.xop s.uid op slot.toNat s.clock) = none) :
    xIssue op slot w s k e = .ok ({ s with uid := s.uid + 1 }.setEng k { e.setDep slot.toNat (e.dep slot.toNat + 1) with
      xops := e.xops ++ [e.xop s.uid op slot.toNat s.clock] }) := by
  have go : ¬(e.waits w || decide (255 ≤ e.dep slot.toNat)) = true := by simp [ready, room]
  refine (if_neg go).trans ?_
  simp only [passes]
  rfl

/-- GMODE's checks fail for no core of the gang. -/
theorem gang_free {cores : List Nat} (own : ∀ c ∈ cores, s.foreignCrew e.rk c = false)
    (mine : ∀ c ∈ cores, ∀ k', (s.coreSt c).grid = some k' → k' = k) :
    cores.any (fun c => s.foreignCrew e.rk c || (match (s.coreSt c).grid with
      | some k' => k' != k
      | none => false)) = false := by
  rw [List.any_eq_false]
  intro c hc
  have hmine := mine c hc
  cases grid : (s.coreSt c).grid with
  | none => simp [own c hc]
  | some k' => simp [own c hc, hmine k' grid]

/-- Settles O44: each word's effect passes its checks. -/
theorem matrixWordsComplete : Obligations.MatrixWordsComplete := by
  unfold Obligations.MatrixWordsComplete
  refine ⟨fun s k e H kind => ?_, fun s k e H kind idle => ?_⟩
  · have miller {w : Bool} (ok : w = true) : (kindM (engKind k) && w) = true := by rw [kind, ok]; rfl
    intro next
    refine ⟨fun i slot w hi ready room passes => ?_, fun w ready => ?_, fun m slot room => ?_, fun a => ?_, fun o wf free mask fmt => ?_,
      fun o wf free group => ?_, fun o wf free => ?_⟩
    · have issues := xIssue_ok ready room passes
      rcases hi with ⟨a, t, u, z, r, rfl⟩ | ⟨a, rfl⟩ | ⟨a, t, v, hv, rfl⟩ | ⟨a, t, z, rfl⟩
      · exact sharedWord_eng H (miller rfl) issues
      · exact sharedWord_eng H (miller rfl) issues
      · exact sharedWord_eng H (miller (by simpa using hv)) issues
      · exact sharedWord_eng H (miller rfl) issues
    · exact sharedWord_eng H (miller rfl) (if_neg (by rw [ready]; decide))
    · exact sharedWord_own H (miller rfl) (if_neg (by omega))
    · intro x cores grid turn mask some_core own mine idle_cores free_cores
      have checked : ¬(x.toNat &&& 0x10FF7 != x.toNat || cores.isEmpty || cores.any (fun c =>
          s.foreignCrew e.rk c || (match (s.coreSt c).grid with
            | some k' => k' != k
            | none => false))) = true := by
        rw [gang_free own mine, mask]
        simpa using some_core
      have no_results : ¬(grid && turn.any s.vectorBusy) = true := by simpa using idle_cores
      have no_operation : ¬(!grid && turn.any (e.occupies k)) = true := by simpa using free_cores
      exact sharedWord_eng H (miller rfl) ((if_neg checked).trans ((if_neg no_results).trans (if_neg no_operation)))
    · have allowed : ¬((e.rdS o.a.toNat).toNat &&& tileMask o.b.toNat != (e.rdS o.a.toNat).toNat ||
          (o.b.toNat == 2 && fmtReserved (bits (e.rdS o.a.toNat).toNat 0 5))) = true := by
        have fmt : o.b.toNat = 2 → fmtReserved (bits (e.rdS o.a.toNat).toNat 0 5) = false := fun h => fmt (BitVec.eq_of_toNat_eq h)
        simpa [mask] using fmt
      exact sharedWord_own H (miller wf) ((if_neg (by simp [free])).trans (if_neg allowed))
    · have allowed : ¬(o.b.toNat == 1 && decide (6 ≤ bits (e.rdS o.a.toNat).toNat 16 3)) = true := by
        have group : o.b.toNat = 1 → bits (e.rdS o.a.toNat).toNat 16 3 < 6 := fun h => group (BitVec.eq_of_toNat_eq h)
        simpa using group
      have seed : o.b.toNat = 2 ↔ o.b = 2 := ⟨fun h => BitVec.eq_of_toNat_eq h, fun h => h ▸ rfl⟩
      simp only [next, ← seed]
      exact sharedWord_own H (miller wf) ((if_neg (by simp [free])).trans (if_neg allowed))
    · exact sharedWord_own H (miller wf) (e.setS_free free _)
  · have open_heat : ¬(engKind k != 0 || e.entry.isNone || decide (24 ≤ e.off)) = true := by
      have entry : e.entry.isNone = false := by simpa using H.entry
      simp [kind, entry, H.room]
    have none_left : ¬(!e.xops.isEmpty) = true := by simp [idle]
    change execMexit s = _
    simp only [execMexit, H.cur, H.eng]
    exact (if_neg open_heat).trans (if_neg none_left)

end Sys2Proof.Machine
end

section
/-! SUPPORT. The words of Flume queues and Tailrace contexts complete (O45). -/

namespace Sys2Proof.Machine

variable {s : State} {k : Nat} {e : Eng}

theorem Eng.not_full (few : e.ents.length < 17) : ¬e.full = true := by
  simpa [Eng.full] using few

/-- An entry that passes the checks of its issue joins a queue with room. -/
theorem queueEntry_ok {mk : State → Eng → Entry} {chk : Eng → Entry → Option Stop} (few : e.ents.length < 17)
    (passes : chk e (mk s e) = none) :
    queueEntry mk chk s k e = .ok ({ s with uid := s.uid + 1 }.setEng k { e with ents := e.ents ++ [mk s e] }) := by
  refine (if_neg (Eng.not_full few)).trans ?_
  simp only [passes]

/-- A transfer that its profile has and that passes the checks of its issue queues its entry. -/
theorem transfer_ok (H : InEngine s k e) (few : e.ents.length < 17) {op : Instr} {o : OpE} {kinds : Nat → Bool}
    {chk : Entry → Option Stop} (profile : (kinds (engKind k) && (op.wf && !(o.g && engKind k == 2))) = true)
    (passes : chk (e.entryOf s.uid op o.d o.a o.b (if o.g then e.rdS o.s.toNat else 0) [] s.clock) = none) :
    transfer op o kinds chk s = .next (({ s with uid := s.uid + 1 }.setEng k { e with ents := e.ents ++
      [e.entryOf s.uid op o.d o.a o.b (if o.g then e.rdS o.s.toNat else 0) [] s.clock] }).nextEngWord k) := by
  have word : transfer op o kinds chk s = s.engWord kinds (op.wf && !(o.g && engKind k == 2)) (queueEntry (fun s e =>
      e.entryOf s.uid op o.d o.a o.b (if o.g then e.rdS o.s.toNat else 0) [] s.clock) (fun _ n => chk n)) := by
    simp only [transfer, H.cur]
  exact word.trans (sharedWord_eng H profile (queueEntry_ok few passes))

theorem toNat_ne_31 {b : BitVec 5} (pair : b ≠ 31) : (b.toNat != 31) = true := by
  simpa using fun h => pair (BitVec.eq_of_toNat_eq h)

theorem tooLong_none {n : Nat} (short : n ≤ 2 ^ 40) : tooLong n = none := if_neg (Nat.not_lt.2 short)

theorem pairBad_none {n : Entry} (low : fieldOf n.b1 41 23 = 0) (size : fieldOf n.b1 32 8 ≤ 8) : pairBad n = none :=
  if_neg (by simp [low, size])

/-- A Flume queue has every transfer, a Tailrace context those without a signal. -/
theorem transfer_profile {g : Bool} (kind : engKind k = 1 ∨ (engKind k = 2 ∧ g = false)) :
    (kindFT (engKind k) && (true && !(g && engKind k == 2))) = true := by
  rcases kind with kind | ⟨kind, rfl⟩ <;> rw [kind]
  · cases g <;> rfl
  · rfl

theorem kindFT_of (kind : engKind k = 1 ∨ engKind k = 2) : kindFT (engKind k) = true := by
  rcases kind with kind | kind <;> rw [kind] <;> rfl

/-- Settles O45: each entry passes its checks and joins the queue; the closers count or end. -/
theorem transferWordsComplete : Obligations.TransferWordsComplete := by
  unfold Obligations.TransferWordsComplete
  refine ⟨fun s k e H few => ?_, fun s k e H kind => ⟨fun d o => ?_, fun empty => ?_⟩⟩
  · intro queued entry
    refine ⟨fun o kind => ⟨fun short => ⟨?_, ?_⟩, fun pair short => ?_⟩, fun kind o pair low size => ⟨?_, ?_⟩, fun kind d a b g pair => ?_,
      fun d a kd known kind => ?_, fun kind a => ?_, fun kind d s1 s2 bs ps => ?_⟩
    · exact transfer_ok H few (transfer_profile kind) (tooLong_none short)
    · exact transfer_ok H few (transfer_profile kind) (tooLong_none short)
    · have wf : (Instr.cpy2 o).wf = true := toNat_ne_31 pair
      exact transfer_ok H few (by rw [wf]; exact transfer_profile kind) (tooLong_none short)
    · have wf : (Instr.gath o).wf = true := toNat_ne_31 pair
      exact transfer_ok H few (by rw [wf, kind]; cases o.g <;> rfl) (pairBad_none low size)
    · have wf : (Instr.scat o).wf = true := toNat_ne_31 pair
      exact transfer_ok H few (by rw [wf, kind]; cases o.g <;> rfl) (pairBad_none low size)
    · have wf : (Instr.halo d a b g).wf = true := toNat_ne_31 pair
      exact sharedWord_eng H (by rw [wf, kind]; rfl) (queueEntry_ok few rfl)
    · have wf : (Instr.esig d a kd).wf = true := by simpa [Instr.wf] using known
      have word : exec (.esig d a kd) s = s.engWord kindFT (Instr.wf (.esig d a kd) && !(engKind k == 2 && kd != 2))
          (queueEntry (fun s e => e.entryOf s.uid (.esig d a kd) d a 0 0 [] s.clock) (fun _ _ => none)) := by
        change execEsig d a kd s = _
        simp only [execEsig, H.cur]
      refine word.trans (sharedWord_eng H ?_ (queueEntry_ok few rfl))
      rw [wf]
      rcases kind with kind | ⟨kind, rfl⟩ <;> rw [kind] <;> rfl
    · intro x m c low mine
      have allowed : ¬((engKind k == 2 && fieldOf x 16 48 != 0) || !m.testBit (engIdx k)) = true := by
        rw [mine]
        simpa using low
      exact sharedWord_eng H (by rw [kindFT_of kind]; rfl) ((if_neg (Eng.not_full few)).trans (if_neg allowed))
    · intro x w c plain aligned block good peers ranks
      have allowed : ¬(x.getLsbD 63 || x.toNat % 64 != 0) = true := by rw [plain, aligned]; decide
      refine sharedWord_eng H (by rw [kind]; rfl) ((if_neg (Eng.not_full few)).trans ((if_neg allowed).trans ?_))
      have block : s.engRead k e 0 [(0, ⟨(e.rdS d.toNat).toNat, 64, aRead, 1, modeScope e.mode, 64, false, false, 0⟩)] = .ok (s1, bs) := block
      have good : ¬collBad w = true := by rw [good]; decide
      simp only [block]
      refine (if_neg good).trans ?_
      simp only [c, w] at peers
      simp only [peers]
      rfl
  · intro a x go
    have closes {e' : Eng} {t : DWord} (h : (if x = 0 then .ok (a, e.pc + 4)
        else .ok (a.putS d.toNat (x - 1), if x - 1 = 0 then e.pc + 4 else e.pc + (o.signExtend 64 <<< 2)) : Except Stop (Eng × DWord)) =
          .ok (e', t)) : exec (.eloop d o) s = go e' t := by
      change execEloop d o s = _
      simp only [execEloop, H.cur, H.eng, kindFT_of kind]
      exact congrArg _ (H.closes h)
    refine ⟨fun zero => closes (if_pos zero), fun one => closes ?_, fun more => closes ?_⟩
    · rw [one]; rfl
    · have h0 : x ≠ 0 := by bv_omega
      have h1 : x - 1 ≠ 0 := by bv_omega
      rw [if_neg h0, if_neg h1]
  · have open_heat : ¬(!kindFT (engKind k) || e.entry.isNone || decide (24 ≤ e.off)) = true := by
      have entry : e.entry.isNone = false := by simpa using H.entry
      simp [kindFT_of kind, entry, H.room]
    have none_left : ¬(!e.ents.isEmpty) = true := by simp [empty]
    change execEend s = _
    simp only [execEend, H.cur, H.eng]
    exact (if_neg open_heat).trans (if_neg none_left)

end Sys2Proof.Machine
end

section
/-! SUPPORT. Words without a meaning, late words and words of another profile are ILLEGAL (O41, O46). -/

namespace Sys2Proof.Machine

variable {s s' : State} {id n k : Nat} {c : Crew} {h : Heat} {e : Eng} {i : Instr} {w : Word}

-- How each word is issued.

/-- How an instruction that is no closer is issued: a crew refuses it unless it is well-formed and of the crews' profile, and an
engine context unless it is well-formed and of the profile of its kind. -/
structure WordIssues (i : Instr) (major : Nat) : Prop where
  crew : ∃ ok, (ok = true → i.wf = true ∧ majorCrew major = true) ∧ ∀ (s s' : State) (id n : Nat) (c : Crew), s.cur = .crew id n →
    s.issuer id = some (s', c) → ∃ eff, exec i s = .next (s'.issueCrew id n c ok eff)
  eng : ∀ (s : State) (k : Nat) (e : Eng), s.cur = .eng k → s.eng k = some e →
    ∃ ok eff, (ok = true → i.wf = true ∧ majorEng (engKind k) major = true) ∧ exec i s = .next (s.issueEng k e ok eff)

/-- A context refuses a word that is not for it. -/
theorem issueEng_refused (s : State) (k : Nat) (e : Eng) (eff : EngEff) : s.issueEng k e false eff = s.raiseEng k ⟨cILLEGAL, 0, 0⟩ := rfl

/-- Words of crews alone. -/
theorem WordIssues.own {m : Nat} {eff : Eff} (word : ∀ s, exec i s = s.crewWord i.wf eff) (major : majorCrew m = true) :
    WordIssues i m where
  crew := ⟨i.wf, fun wf => ⟨wf, major⟩, fun s s' id n c cur iss => ⟨eff, by simp only [word, State.crewWord, cur, iss]⟩⟩
  eng := fun s k e cur eng => ⟨false, fun _ _ _ => .ok s, nofun, by simp only [word, State.crewWord, cur, eng, issueEng_refused]⟩

/-- Words of crews and engine contexts. -/
theorem WordIssues.shared {m : Nat} {eff : Eff} {kinds : Nat → Bool} {wfE : Bool} {effE : EngEff}
    (word : ∀ s, exec i s = s.sharedWord i.wf eff kinds wfE effE) (major : majorCrew m = true) (wf : wfE = true → i.wf = true)
    (majors : ∀ k, kinds k = true → majorEng k m = true) : WordIssues i m where
  crew := ⟨i.wf, fun wf => ⟨wf, major⟩, fun s s' id n c cur iss => ⟨eff, by simp only [word, State.sharedWord, cur, iss]⟩⟩
  eng := fun s k e cur eng => ⟨kinds (engKind k) && wfE, effE, fun ok => by
    obtain ⟨kind, ok⟩ := Bool.and_eq_true_iff.1 ok
    exact ⟨wf ok, majors _ kind⟩, by simp only [word, State.sharedWord, cur, eng]⟩

/-- Words of engine contexts alone. -/
theorem WordIssues.engine {m : Nat} {kinds : Nat → Bool} {wfE : Bool} {effE : EngEff}
    (word : ∀ s, exec i s = s.engWord kinds wfE effE) (wf : wfE = true → i.wf = true) (majors : ∀ k, kinds k = true → majorEng k m = true) :
    WordIssues i m where
  crew := ⟨false, nofun, fun s s' id n c cur iss => ⟨noEff, by simp only [word, State.engWord, State.sharedWord, cur, iss]⟩⟩
  eng := fun s k e cur eng => ⟨kinds (engKind k) && wfE, effE, fun ok => by
    obtain ⟨kind, ok⟩ := Bool.and_eq_true_iff.1 ok
    exact ⟨wf ok, majors _ kind⟩, by simp only [word, State.engWord, State.sharedWord, cur, eng]⟩

-- The majors, in the order of the decoder.

theorem kindM_major {m : Nat} (major : majorEng 0 m = true) (k : Nat) (kind : kindM k = true) : majorEng k m = true :=
  (eq_of_beq kind : k = 0) ▸ major

theorem kindF_major {m : Nat} (major : majorEng 1 m = true) (k : Nat) (kind : kindF k = true) : majorEng k m = true :=
  (eq_of_beq kind : k = 1) ▸ major

theorem kindT_major {m : Nat} (major : majorEng 2 m = true) (k : Nat) (kind : kindT k = true) : majorEng k m = true :=
  (eq_of_beq kind : k = 2) ▸ major

theorem kindFT_major {m : Nat} (flume : majorEng 1 m = true) (tail : majorEng 2 m = true) (k : Nat) (kind : kindFT k = true) :
    majorEng k m = true := by
  rcases Bool.or_eq_true_iff.1 kind with kind | kind
  · exact (eq_of_beq kind : k = 1) ▸ flume
  · exact (eq_of_beq kind : k = 2) ▸ tail

theorem issues_of_decodeInteger (hw : decodeInteger w = .ok i) : WordIssues i (opc w).toNat := by
  dsimp only [decodeInteger] at hw
  repeat' split at hw
  all_goals simp at hw
  all_goals
    obtain ⟨fields, rfl⟩ := hw
    rw [‹(opc w).toNat = _›]
    exact .own (fun _ => rfl) rfl

theorem issues_of_decodeFloat (hw : decodeFloat w = .ok i) : WordIssues i (opc w).toNat := by
  dsimp only [decodeFloat] at hw
  repeat' split at hw
  all_goals simp at hw
  all_goals
    obtain ⟨fields, rfl⟩ := hw
    rw [‹(opc w).toNat = _›]
    exact .own (fun _ => rfl) rfl

theorem issues_of_decodeCross (hw : decodeCross w = .ok i) : WordIssues i (opc w).toNat := by
  dsimp only [decodeCross] at hw
  repeat' split at hw
  all_goals simp at hw
  all_goals
    obtain ⟨fields, rfl⟩ := hw
    rw [‹(opc w).toNat = _›]
    exact .own (fun _ => rfl) rfl

theorem issues_of_decodeUniform (hw : decodeUniform w = .ok i) : WordIssues i (opc w).toNat := by
  dsimp only [decodeUniform] at hw
  repeat' split at hw
  all_goals simp at hw
  all_goals
    obtain ⟨fields, rfl⟩ := hw
    rw [‹(opc w).toNat = _›]
  iterate 17 · exact .shared (fun _ => rfl) rfl id (fun _ _ => rfl)
  · exact .shared (fun _ => rfl) rfl (fun _ => rfl) (fun _ _ => rfl)
  iterate 2 · exact .own (fun _ => rfl) rfl
  iterate 6 · exact .shared (fun _ => rfl) rfl id (fun _ _ => rfl)

theorem issues_of_decodeMemory (hw : decodeMemory w = .ok i) : WordIssues i (opc w).toNat := by
  dsimp only [decodeMemory] at hw
  repeat' split at hw
  all_goals simp at hw
  all_goals
    obtain ⟨fields, rfl⟩ := hw
    rw [‹(opc w).toNat = _›]
  iterate 4 · exact .own (fun _ => rfl) rfl
  iterate 2 · exact .shared (fun _ => rfl) rfl id (kindM_major rfl)
  iterate 15 · exact .own (fun _ => rfl) rfl
  · exact .shared (fun _ => rfl) rfl id (kindM_major rfl)
  all_goals exact .own (fun _ => rfl) rfl

theorem issues_of_decodeMatrix (hw : decodeMatrix w = .ok i) (plain : i.closes = false) : WordIssues i (opc w).toNat := by
  dsimp only [decodeMatrix] at hw
  repeat' split at hw
  all_goals simp at hw
  all_goals
    obtain ⟨fields, rfl⟩ := hw
    rw [‹(opc w).toNat = _›]
  iterate 2 · exact .engine (fun _ => rfl) id (kindM_major rfl)
  · exact .engine (fun _ => rfl) (fun _ => rfl) (kindM_major rfl)
  iterate 3 · exact .engine (fun _ => rfl) id (kindM_major rfl)
  · cases plain
  iterate 4 · exact .engine (fun _ => rfl) id (kindM_major rfl)
  all_goals exact .own (fun _ => rfl) rfl

/-- Transfers look at the kind of their context before they are issued. -/
theorem WordIssues.transfer {m : Nat} {o : OpE} {op : Instr} {kinds : Nat → Bool} {chk : Entry → Option Stop}
    (word : ∀ s, exec i s = Machine.transfer op o kinds chk s) (wf : op.wf = i.wf) (majors : ∀ k, kinds k = true → majorEng k m = true) :
    WordIssues i m where
  crew := ⟨false, nofun, fun s s' id n c cur iss => ⟨noEff, by
    simp only [word, Machine.transfer, State.engWord, State.sharedWord, cur, iss]⟩⟩
  eng := fun s k e cur eng => ⟨kinds (engKind k) && (op.wf && !(o.g && engKind k == 2)),
      queueEntry (fun s e => e.entryOf s.uid op o.d o.a o.b (if o.g then e.rdS o.s.toNat else 0) [] s.clock) (fun _ n => chk n), fun ok => by
    simp only [Bool.and_eq_true] at ok
    exact ⟨wf ▸ ok.2.1, majors _ ok.1⟩, by simp only [word, Machine.transfer, State.engWord, State.sharedWord, cur, eng]⟩

theorem issues_esig (d a : BitVec 5) (x : BitVec 3) {m : Nat} (majors : ∀ k, kindFT k = true → majorEng k m = true) :
    WordIssues (.esig d a x) m where
  crew := ⟨false, nofun, fun s s' id n c cur iss => ⟨noEff, by
    change execEsig d a x s = _
    simp only [execEsig, State.engWord, State.sharedWord, cur, iss]⟩⟩
  eng := fun s k e cur eng => ⟨kindFT (engKind k) && (Instr.wf (.esig d a x) && !(engKind k == 2 && x != 2)),
      queueEntry (fun s e => e.entryOf s.uid (.esig d a x) d a 0 0 [] s.clock) (fun _ _ => none), fun ok => by
    simp only [Bool.and_eq_true] at ok
    exact ⟨ok.2.1, majors _ ok.1⟩, by
    change execEsig d a x s = _
    simp only [execEsig, State.engWord, State.sharedWord, cur, eng]⟩

theorem issues_of_decodeEngine (hw : decodeEngine w = .ok i) (plain : i.closes = false) : WordIssues i (opc w).toNat := by
  dsimp only [decodeEngine] at hw
  repeat' split at hw
  all_goals simp at hw
  all_goals
    obtain ⟨fields, rfl⟩ := hw
    rw [‹(opc w).toNat = _›]
  iterate 2 · exact .transfer (fun _ => rfl) rfl (kindFT_major rfl rfl)
  · exact .engine (fun _ => rfl) id (kindF_major rfl)
  iterate 2 · exact .transfer (fun _ => rfl) rfl (kindF_major rfl)
  · exact .transfer (fun _ => rfl) rfl (kindFT_major rfl rfl)
  · exact .engine (fun _ => rfl) id (kindT_major rfl)
  · exact .engine (fun _ => rfl) id (kindFT_major rfl rfl)
  · exact issues_esig _ _ _ (kindFT_major rfl rfl)
  iterate 2 · cases plain
  · exact .shared (fun _ => rfl) rfl id (kindM_major rfl)
  all_goals exact .own (fun _ => rfl) rfl

theorem issues_of_decodeControl (hw : decodeControl w = .ok i) (plain : i.closes = false) (heat : i ≠ .heat) (heatJ : i ≠ .heatJ) :
    WordIssues i (opc w).toNat := by
  dsimp only [decodeControl] at hw
  repeat' split at hw
  all_goals simp at hw
  all_goals
    obtain ⟨fields, rfl⟩ := hw
    rw [‹(opc w).toNat = _›]
  · exact absurd rfl heat
  · exact absurd rfl heatJ
  iterate 8 · cases plain
  · exact .shared (fun _ => rfl) rfl nofun (fun _ _ => rfl)
  · exact .own (fun _ => rfl) rfl
  iterate 4 · exact .shared (fun _ => rfl) rfl id (fun _ _ => rfl)
  · cases plain
  · exact .shared (fun _ => rfl) rfl id (fun _ _ => rfl)
  · cases plain
  · exact .own (fun _ => rfl) rfl
  all_goals exact .shared (fun _ => rfl) rfl id (kindM_major rfl)

/-- Every word but HEAT, HEAT.J and the closers is issued as its profile and its form say. -/
theorem issues_of_encode (hi : encode i = some w) (plain : i.closes = false) (heat : i ≠ .heat) (heatJ : i ≠ .heatJ) :
    WordIssues i (opc w).toNat := by
  by_cases unlisted : ∃ a t s m, i = .mscale a t s m 3
  · obtain ⟨a, t, x, m, rfl⟩ := unlisted
    obtain rfl := Option.some.inj hi
    rw [opc_packX]
    exact .engine (fun _ => rfl) (fun _ => rfl) (kindM_major rfl)
  · have hw := decodeWord_of_encode hi fun a t x m same => unlisted ⟨a, t, x, m, same⟩
    dsimp only [decodeWord] at hw
    repeat' split at hw
    · exact issues_of_decodeControl hw plain heat heatJ
    · exact issues_of_decodeInteger hw
    · exact issues_of_decodeFloat hw
    · exact issues_of_decodeCross hw
    · exact issues_of_decodeUniform hw
    · exact issues_of_decodeMemory hw
    · exact issues_of_decodeMatrix hw plain
    · exact issues_of_decodeEngine hw plain

-- Refusals of crews.

theorem issueCrew_refused (H : InHeat s id n c h) (eff : Eff) :
    (s.setCrew id c).issueCrew id n c false eff = (s.setCrew id c).raise id n ⟨cILLEGAL, 0, 0⟩ none false := by
  have early : ¬23 ≤ h.off := Nat.not_le.2 H.room
  simp [State.issueCrew, H.heat, H.slot, early, H.skip]

/-- From the 24th place on every word that closes no heat is refused. -/
theorem issueCrew_late (heat : c.heat = some h) (slot : h.slot = n) (late : 23 ≤ h.off) (ok : Bool) (eff : Eff) :
    s.issueCrew id n c ok eff = s.raise id n ⟨cILLEGAL, 0, 0⟩ none false := by
  simp [State.issueCrew, heat, slot, late]

theorem closer_refused (H : InHeat s id n c h) {quench names : Bool} {plan : Plan} {eng : State → Nat → Eng → State} :
    s.closer false quench names plan eng = .next ((s.setCrew id c).raise id n ⟨cILLEGAL, 0, 0⟩ none false) := by
  simp [State.closer, State.bothWord, H.cur, H.issuer, State.closeCrew, H.heat, H.slot, H.skip]

/-- HEAT and HEAT.J inside a heat are refused. -/
theorem heatCrew_refused (heat : c.heat = some h) (slot : h.slot = n) (skip : ¬(h.skip = some h.off ∧ h.off < 23)) (f : State → State) :
    s.heatCrew id n c f = s.raise id n ⟨cILLEGAL, 0, 0⟩ none false := by
  simp only [State.heatCrew, heat, slot]
  simp [skip]

/-- A crew refuses a closer that is ill-formed or not of its profile. -/
theorem exec_of_closer_refused (H : InHeat s id n c h) (hi : encode i = some w) (closes : i.closes = true)
    (bad : i.wf = false ∨ majorCrew (opc w).toNat = false) :
    exec i s = .next ((s.setCrew id c).raise id n ⟨cILLEGAL, 0, 0⟩ none false) := by
  cases i
  case bra | ret | exit =>
    all_goals
      obtain rfl := Option.some.inj hi
      rw [opc_packA] at bad
      rcases bad with bad | bad <;> cases bad
  case quench | trap | svc =>
    all_goals
      obtain rfl := Option.some.inj hi
      rw [opc_packI] at bad
      rcases bad with bad | bad <;> cases bad
  case br =>
    obtain rfl := Option.some.inj hi
    rw [opc_packJ] at bad
    rcases bad with bad | bad <;> cases bad
  case brx a b x =>
    obtain rfl := Option.some.inj hi
    rw [opc_packA] at bad
    obtain bad | bad := bad
    · change execBrx a b x s = _
      rw [execBrx, bad]
      exact closer_refused H
    · cases bad
  case call k o =>
    obtain rfl := Option.some.inj hi
    rw [opc_packI] at bad
    obtain bad | bad := bad
    · change execCall k o s = _
      rw [execCall, bad]
      exact closer_refused H
    · cases bad
  case callx k a =>
    obtain rfl := Option.some.inj hi
    rw [opc_packA] at bad
    obtain bad | bad := bad
    · change execCallx k a s = _
      rw [execCallx, bad]
      exact closer_refused H
    · cases bad
  case mexit =>
    change execMexit s = _
    simp only [execMexit, H.cur, H.issuer, issueCrew_refused H]
  case eloop d o =>
    change execEloop d o s = _
    simp only [execEloop, H.cur, H.issuer, issueCrew_refused H]
  case eend =>
    change execEend s = _
    simp only [execEend, H.cur, H.issuer, issueCrew_refused H]
  all_goals cases closes

/-- A crew refuses every word that is ill-formed or not of its profile. -/
theorem exec_refused (H : InHeat s id n c h) (hi : encode i = some w) (bad : i.wf = false ∨ majorCrew (opc w).toNat = false) :
    exec i s = .next ((s.setCrew id c).raise id n ⟨cILLEGAL, 0, 0⟩ none false) := by
  by_cases closes : i.closes = true
  · exact exec_of_closer_refused H hi closes bad
  by_cases heat : i = .heat
  · subst heat
    obtain rfl := Option.some.inj hi
    rw [opc_packI] at bad
    rcases bad with bad | bad <;> cases bad
  by_cases heatJ : i = .heatJ
  · subst heatJ
    obtain rfl := Option.some.inj hi
    rw [opc_packI] at bad
    rcases bad with bad | bad <;> cases bad
  obtain ⟨⟨ok, good, issues⟩, -⟩ := issues_of_encode hi (eq_false_of_ne_true closes) heat heatJ
  obtain ⟨eff, word⟩ := issues s _ id n c H.cur H.issuer
  have refused : ok = false := by
    cases ok with
    | false => rfl
    | true =>
      obtain ⟨wf, major⟩ := good rfl
      rw [wf, major] at bad
      rcases bad with bad | bad <;> cases bad
  rw [word, refused, issueCrew_refused H]

/-- From the 24th place on a crew refuses every word that closes no heat. -/
theorem exec_late (cur : s.cur = .crew id n) (crew : s.crew id = some c) (named : c.named = []) (open_ : c.heat = some h)
    (slot : h.slot = n) (late : 23 ≤ h.off) (hi : encode i = some w) (plain : i.closes = false) :
    exec i s = .next ((s.setCrew id c).raise id n ⟨cILLEGAL, 0, 0⟩ none false) := by
  have iss : s.issuer id = some (s.setCrew id c, c) := by
    simp [State.issuer, crew, Crew.settle_of_none (Crew.drain_of_heat open_) named]
  have skip : ¬(h.skip = some h.off ∧ h.off < 23) := fun x => absurd late (Nat.not_le.2 x.2)
  by_cases heat : i = .heat
  · subst heat
    change s.bothWord _ _ = _
    simp only [State.bothWord, cur, iss, heatCrew_refused open_ slot skip]
  by_cases heatJ : i = .heatJ
  · subst heatJ
    change s.bothWord _ _ = _
    simp only [State.bothWord, cur, iss, heatCrew_refused open_ slot skip]
  obtain ⟨⟨ok, -, issues⟩, -⟩ := issues_of_encode hi plain heat heatJ
  obtain ⟨eff, word⟩ := issues s _ id n c cur iss
  rw [word, issueCrew_late open_ slot late]

-- Refusals of engine contexts.

theorem issueEng_late (late : 23 ≤ e.off) (ok : Bool) (eff : EngEff) : s.issueEng k e ok eff = s.raiseEng k ⟨cILLEGAL, 0, 0⟩ := by
  simp [State.issueEng, late]

theorem heatEng_refused (opened : e.entry.isSome) : s.heatEng k e = s.raiseEng k ⟨cILLEGAL, 0, 0⟩ := if_pos opened

/-- A context refuses a closer that stops ILLEGAL. -/
theorem closeEng_illegal (H : InEngine s k e) {f : Eng → Except Stop (Eng × DWord)} (stops : f (e.age true) = .error stopIllegal) :
    s.closeEng k e true f = s.raiseEng k ⟨cILLEGAL, 0, 0⟩ := by
  have entry : e.entry.isNone = false := by simpa using H.entry
  have room : ¬24 ≤ e.off := by have := H.room; omega
  simp only [State.closeEng, stops, entry, room]
  rfl

/-- From the 24th place on a context refuses every word that closes no heat. -/
theorem exec_eng_late (cur : s.cur = .eng k) (eng : s.eng k = some e) (opened : e.entry.isSome) (late : 23 ≤ e.off)
    (hi : encode i = some w) (plain : i.closes = false) : exec i s = .next (s.raiseEng k ⟨cILLEGAL, 0, 0⟩) := by
  by_cases heat : i = .heat
  · subst heat
    change s.bothWord _ _ = _
    simp only [State.bothWord, cur, eng, heatEng_refused opened]
  by_cases heatJ : i = .heatJ
  · subst heatJ
    change s.bothWord _ _ = _
    simp only [State.bothWord, cur, eng, heatEng_refused opened]
  obtain ⟨ok, eff, -, word⟩ := (issues_of_encode hi plain heat heatJ).eng s k e cur eng
  rw [word, issueEng_late late]

/-- A word of Flume queues and Tailrace contexts that is not of the profile of its context. -/
theorem kindFT_refused {m : Nat} {wf : Bool} (bad : wf = false ∨ majorEng (engKind k) m = false) (good : wf = true)
    (majors : ∀ k, kindFT k = true → majorEng k m = true) : kindFT (engKind k) = false := by
  refine eq_false_of_ne_true fun kind => ?_
  rw [good, majors _ kind] at bad
  rcases bad with bad | bad <;> cases bad

/-- A context refuses a closer that is ill-formed or not of the profile of its kind. -/
theorem exec_of_engCloser_refused (H : InEngine s k e) (hi : encode i = some w) (closes : i.closes = true)
    (bad : i.wf = false ∨ majorEng (engKind k) (opc w).toNat = false) : exec i s = .next (s.raiseEng k ⟨cILLEGAL, 0, 0⟩) := by
  cases i
  case bra | ret | exit =>
    all_goals
      obtain rfl := Option.some.inj hi
      rw [opc_packA] at bad
      rcases bad with bad | bad <;> cases bad
  case quench | trap | svc =>
    all_goals
      obtain rfl := Option.some.inj hi
      rw [opc_packI] at bad
      rcases bad with bad | bad <;> cases bad
  case br =>
    obtain rfl := Option.some.inj hi
    rw [opc_packJ] at bad
    rcases bad with bad | bad <;> cases bad
  case brx a b x =>
    show execBrx a b x s = _
    simp only [execBrx, State.closer, State.bothWord, H.cur, H.eng]
  case call x o =>
    obtain rfl := Option.some.inj hi
    rw [opc_packI] at bad
    obtain bad | bad := bad
    · have slide : (x.toNat != 0) = true := by
        simp [Instr.wf] at bad
        simp
        omega
      show execCall x o s = _
      simp only [execCall, State.closer, State.bothWord, H.cur, H.eng]
      exact congrArg _ (closeEng_illegal H (if_pos slide))
    · cases bad
  case callx x a =>
    obtain rfl := Option.some.inj hi
    rw [opc_packA] at bad
    obtain bad | bad := bad
    · have slide : (x.toNat != 0) = true := by
        simp [Instr.wf] at bad
        simp
        omega
      show execCallx x a s = _
      simp only [execCallx, State.closer, State.bothWord, H.cur, H.eng]
      exact congrArg _ (closeEng_illegal H (if_pos slide))
    · cases bad
  case mexit =>
    obtain rfl := Option.some.inj hi
    rw [opc_packX] at bad
    have kind : (engKind k != 0) = true := by
      rw [bne_iff_ne]
      intro miller
      rw [miller] at bad
      rcases bad with bad | bad <;> cases bad
    show execMexit s = _
    simp only [execMexit, H.cur, H.eng, kind]
    rfl
  case eloop d o =>
    obtain rfl := Option.some.inj hi
    rw [opc_packE] at bad
    have kind : kindFT (engKind k) = false := kindFT_refused bad rfl (kindFT_major rfl rfl)
    show execEloop d o s = _
    simp only [execEloop, H.cur, H.eng, kind]
    rfl
  case eend =>
    obtain rfl := Option.some.inj hi
    rw [opc_packE] at bad
    have kind : kindFT (engKind k) = false := kindFT_refused bad rfl (kindFT_major rfl rfl)
    show execEend s = _
    simp only [execEend, H.cur, H.eng, kind]
    rfl
  all_goals cases closes

/-- A context refuses every word that is ill-formed or not of the profile of its kind. -/
theorem exec_eng_refused (H : InEngine s k e) (hi : encode i = some w)
    (bad : i.wf = false ∨ majorEng (engKind k) (opc w).toNat = false) : exec i s = .next (s.raiseEng k ⟨cILLEGAL, 0, 0⟩) := by
  by_cases closes : i.closes = true
  · exact exec_of_engCloser_refused H hi closes bad
  by_cases heat : i = .heat
  · subst heat
    obtain rfl := Option.some.inj hi
    rw [opc_packI] at bad
    rcases bad with bad | bad <;> cases bad
  by_cases heatJ : i = .heatJ
  · subst heatJ
    obtain rfl := Option.some.inj hi
    rw [opc_packI] at bad
    rcases bad with bad | bad <;> cases bad
  obtain ⟨ok, eff, good, word⟩ := (issues_of_encode hi (eq_false_of_ne_true closes) heat heatJ).eng s k e H.cur H.eng
  have refused : ok = false := by
    cases ok with
    | false => rfl
    | true =>
      obtain ⟨wf, major⟩ := good rfl
      rw [wf, major] at bad
      rcases bad with bad | bad <;> cases bad
  rw [word, refused, issueEng_refused]

/-- Settles O46: both agents refuse what is not of their profile, and EXIT is refused by its own arm. -/
theorem wordsBelongToTheirAgents : Obligations.WordsBelongToTheirAgents := by
  unfold Obligations.WordsBelongToTheirAgents
  refine ⟨fun s id n c h i w H hi major => exec_refused H hi (.inr major), fun s k e i w H hi major => exec_eng_refused H hi (.inr major),
    fun s k e H => ?_⟩
  show execExit s = _
  simp only [execExit, State.closer, State.bothWord, H.cur, H.eng]

-- Operands that are ILLEGAL.

/-- The operands of a word that R116, R47 or R49 bars. -/
theorem check_barred {src dst names : List Nat} (barred : (∃ p ∈ h.pend, ∃ r ∈ p.ws, r.name ∈ dst) ∨
      32 < ((h.dests ++ dst.filter (· < 1024)).eraseDups).length ∨ ∃ k ∈ src, 1024 ≤ k ∧ k ∉ h.temps) (more : List Nat)
    (sub : ∀ k ∈ src, k ∈ more) (legal fmtOk : Bool) : c.check h more dst names legal fmtOk = .error stopIllegal := by
  have illegal : (!legal || h.unread more || h.windowed (dst ++ names) || h.tooMany dst) = true := by
    rcases barred with ⟨p, hp, r, hr, named⟩ | many | ⟨x, hx, temp, unwritten⟩
    · have windowed : h.windowed (dst ++ names) = true := by
        simp only [Heat.windowed, List.any_eq_true]
        exact ⟨p, hp, r, hr, by simp [named]⟩
      simp [windowed]
    · have tooMany : h.tooMany dst = true := decide_eq_true many
      simp [tooMany]
    · have unread : h.unread more = true := by
        simp only [Heat.unread, List.any_eq_true]
        exact ⟨x, sub x hx, by simp [temp, unwritten]⟩
      simp [unread]
  simp only [Crew.check, firstStop, illegal, if_true]

/-- Integer words with such operands stop. -/
theorem intLanes_barred {o : OpU} {rd : Reads} {g : IntLane} (barred : (∃ p ∈ h.pend, ∃ r ∈ p.ws, r.name ∈ h.keys o.d o.e) ∨
      32 < ((h.dests ++ (h.keys o.d o.e).filter (· < 1024)).eraseDups).length ∨ ∃ k ∈ h.sources o rd, 1024 ≤ k ∧ k ∉ h.temps) :
    intLanes o rd g c h = .error stopIllegal := by
  have stops (legal fmtOk : Bool) : c.check h (h.keys o.a o.e ++ (if rd.b && !o.k then h.keys o.b o.e else []) ++
      (if rd.d then h.keys o.d o.e else [])) (h.keys o.d o.e) [] legal fmtOk = .error stopIllegal := check_barred barred _ (fun _ hk => hk) ..
  simp only [intLanes, stops]

/-- Settles O41: both agents refuse what has no meaning or comes late, and the checks of operands stop what R116, R47 and R49
bar. -/
theorem undecodedWordsAreIllegal : Obligations.UndecodedWordsAreIllegal := by
  unfold Obligations.UndecodedWordsAreIllegal
  refine ⟨fun s id n c h H => ?_, fun s k => rfl, fun s id n c h i w H hi => ?_, fun s k e i w H hi wf => exec_eng_refused H hi (.inl wf),
    fun s id n c h i w cur crew named open_ slot late hi plain => exec_late cur crew named open_ slot late hi plain,
    fun s k e i w cur eng opened late hi plain => exec_eng_late cur eng opened late hi plain⟩
  · simp only [State.undecoded, H.issuer, issueCrew_refused H]
  · intro illegal barred
    refine ⟨fun wf => exec_refused H hi (.inl wf), fun o rd g lane bar => ?_, fun m load wf bar => ?_⟩
    · rw [exec_of_intLane lane]
      cases wf : i.wf with
      | false => exact crewWord_illegal H
      | true =>
        refine crewWord_stop (st := stopIllegal) H ?_
        simp only [regEff, intLanes_barred bar]
    · rw [exec_of_load load, wf]
      refine crewWord_stop (st := .fault ⟨cILLEGAL, 0, 0⟩ (lanesIn (c.lanes h)).head?) H ?_
      have stops : c.laneCheck h (h.baseKeys m.k m.a) (h.keys m.d m.e) []
          (loadOrd h.wrk.mode && formOk m.f (modeFmt h.wrk.mode) m.d m.e) true =
            .error (.fault ⟨cILLEGAL, 0, 0⟩ (lanesIn (c.lanes h)).head?) := by
        rw [Crew.laneCheck, check_barred bar _ (fun _ hk => hk)]
        rfl
      simp only [loadEff, stops]

end Sys2Proof.Machine
end

section
/-! SUPPORT. Written words decode (O55), a step runs what stands at its turn (O57), and the state at reset (O58). -/

namespace Sys2Proof.Machine

variable {s : State}

/-- Settles O55: each word evaluates to its instruction. -/
theorem decodeWrittenWords : Obligations.DecodeWrittenWords := by
  unfold Obligations.DecodeWrittenWords
  refine ⟨rfl, rfl, rfl, rfl, rfl, rfl, rfl, rfl, rfl, rfl, rfl, rfl, rfl, rfl, rfl, rfl, rfl, rfl, rfl⟩

-- Steps (O57).

/-- What a turn does, with the turns after it listed. -/
def State.taken (s : State) (t : Turn) : Host.Outcome State Fault Refusal :=
  match t with
  | .issue a => s.issueTurn (s.chosen a)
  | .core c => s.issueTurn (s.pick c)
  | .event e => if e.isEvent then exec e s else .next s
  | .combine c => .next (s.performLater c)
  | .evict h ln => .next (s.evictLine h ln)
  | .evictTree r gran level => .next (s.evictTree r gran level)
  | .evictTlb h n => .next (s.evictTlb h n)
  | .tick => .next s.tick

theorem step_turn {t : Turn} {rest : List Turn} (ht : s.turns = t :: rest) : step s = tidied (({ s with turns := rest } : State).taken t) := by
  unfold step
  rw [ht]
  cases t <;> rfl

theorem step_idle (ht : s.turns = []) : step s = .next s.tick.tidy := by
  unfold step
  rw [ht]
  rfl

/-- The agent whose turn passes leaves the state as it stands. -/
theorem issueTurn_none (s : State) : s.issueTurn none = .next s := rfl

theorem issueTurn_withheld {s' : State} {a : Agent} (no : s.mayIssue a = false) : s.issueTurn (some (s', a)) = .next s := by
  simp [State.issueTurn, no]

theorem issueTurn_granted {s' : State} {a : Agent} (yes : s.mayIssue a = true) :
    s.issueTurn (some (s', a)) = (s'.useGrant a).run exec a := by
  simp [State.issueTurn, yes]

theorem run_passed {a : Agent} (no : s.eligible a = false) (ex : Instr → State → Host.Outcome State Fault Refusal) :
    s.run ex a = .next s := by
  simp [State.run, no]

/-- An eligible agent whose fetch fails meets the fault. -/
theorem run_fetchFault {a : Agent} {s2 : State} {f : Fail} (yes : s.eligible a = true) (ex : Instr → State → Host.Outcome State Fault Refusal)
    (fetched : ({ s with cur := a } : State).fetchWord (({ s with cur := a } : State).whoOf a) (({ s with cur := a } : State).pcOf a) = (s2, .error f)) :
    s.run ex a = .next (s2.fetchFault a f) := by
  simp only [State.run, yes, fetched, if_true]

/-- An eligible agent runs the word it fetches. -/
theorem run_fetched {a : Agent} {s2 : State} {w : Word} (yes : s.eligible a = true) (ex : Instr → State → Host.Outcome State Fault Refusal)
    (fetched : ({ s with cur := a } : State).fetchWord (({ s with cur := a } : State).whoOf a) (({ s with cur := a } : State).pcOf a) = (s2, .ok w)) :
    s.run ex a = match decodeWord w with
      | .ok i => ex i s2
      | .error _ => .next (s2.undecoded a) := by
  simp only [State.run, yes, fetched, if_true] <;> rfl

/-- A fetch from good package memory gives the four bytes there. -/
theorem fetchWord_pkg {w : Who} {pc : DWord} {s2 : State} {h : Hit} (found : s.translateNow w pc.toNat aFetch = (s2, .ok h))
    (pkg : h.sp = .pkg) (good : s2.mem.homePoisoned (homeRouter h.pa) (lineOf h.pa) = false) :
    s.fetchWord w pc = (s2, .ok (wordOfBytes (s2.mem.homeByte h.pa) (s2.mem.homeByte (h.pa + 1)) (s2.mem.homeByte (h.pa + 2))
      (s2.mem.homeByte (h.pa + 3)))) := by
  simp only [State.fetchWord, found, pkg, good]
  rfl

/-- Settles O57: each kind of turn, and for an issue each stage from the core's choice to the word. -/
theorem stepRunsDecodedWord : Obligations.StepRunsDecodedWord := by
  unfold Obligations.StepRunsDecodedWord
  intro s rest s0
  refine ⟨fun k => rfl, fun id n => ⟨fun s' a chosen => ?_, fun c s' crew picked => ?_⟩,
    fun a ht => ⟨fun passes => ?_, fun s' chosen => ⟨fun no => ?_, fun yes no => ?_, fun yes eligible => ?_⟩⟩,
    fun c s' id n cr ht picked crew core => ?_, fun c ht passes => ?_, fun e ht event => ?_, fun c ht => step_turn ht,
    fun h ln ht => step_turn ht, fun r g l ht => step_turn ht, fun h n ht => step_turn ht, fun ht => step_turn ht, step_idle⟩
  · simp only [State.chosen] at chosen
    split at chosen
    next c crew =>
      obtain ⟨picked, same⟩ := Option.filter_eq_some_iff.1 chosen
      exact ⟨eq_of_beq same, c, crew, picked⟩
    next => cases chosen
  · simp only [State.chosen, crew, picked]
    exact if_pos (beq_self_eq_true _)
  · rw [step_turn ht, State.taken, passes]
    rfl
  · rw [step_turn ht, State.taken, chosen, issueTurn_withheld no]
    rfl
  · rw [step_turn ht, State.taken, chosen, issueTurn_granted yes, run_passed no]
    rfl
  · have issues : step s = tidied ((s'.useGrant a).run exec a) := by rw [step_turn ht, State.taken, chosen, issueTurn_granted yes]
    intro s1
    refine ⟨fun s2 f fetched => ?_, fun s2 h found pkg good => ?_⟩
    · rw [issues, run_fetchFault eligible exec fetched]
      rfl
    · have fetched := fetchWord_pkg found pkg good
      refine ⟨fun i decoded => ?_, fun r decoded => ?_⟩
      · rw [issues, run_fetched eligible exec fetched, decoded]
      · rw [issues, run_fetched eligible exec fetched, decoded]
        rfl
  · have chosen : s0.chosen (.crew id n) = some (s', .crew id n) := by
      simp only [State.chosen, crew, core, picked]
      exact if_pos (beq_self_eq_true _)
    rw [step_turn ht, step_turn (s := { s with turns := .issue (.crew id n) :: rest }) rfl]
    change tidied (s0.issueTurn (s0.pick c)) = tidied (s0.issueTurn (s0.chosen (.crew id n)))
    rw [picked, chosen]
  · rw [step_turn ht, State.taken, passes]
    rfl
  · rw [step_turn ht, State.taken, if_pos event]

-- Reset (O58).

theorem pwaRefill_start : pwaRefill (BitVec.ofNat 64 (16 * 2 ^ 56 + 1048576 * 2 ^ 32 + 4096)) = 4096 := by
  simp [pwaRefill, fieldOf, bits]

theorem refillOf_reset (g : Nat) : State.reset.refillOf g = 4096 := by
  have floor (x : Nat) : Tab.get State.reset.power.floor g x = x := rfl
  have allowance (x : DWord) : Tab.get State.reset.power.pwa g x = x := rfl
  rw [State.refillOf, State.pwaOf, floor, allowance, pwaRefill_start]

/-- A fresh crew's uniform registers: the argument address in s0, else zero. -/
theorem fresh_s (args : DWord) (n : Nat) : Tab.get (if args = 0 then [] else [(0, args)]) n 0 = if n = 0 then args else 0 := by
  by_cases zero : args = 0
  · rw [if_pos zero, zero]
    exact (ite_self 0).symm
  · rw [if_neg zero]
    by_cases hn : n = 0 <;> simp [hn, eq_comm (a := 0), Tab.get, Tab.find]

/-- Settles O58: every field is written out in the reset state. -/
theorem resetState : Obligations.ResetState := by
  unfold Obligations.ResetState
  refine ⟨rfl, rfl, rfl, rfl, rfl, rfl, rfl, rfl, rfl, rfl, rfl, rfl, rfl, rfl, rfl, rfl, rfl, refillOf_reset, fun _ => rfl,
    ⟨rfl, rfl, rfl, rfl, rfl, fun kv h => absurd h (List.not_mem_nil)⟩, fun a => rfl, rfl, fun rk team no lanes cap pc args hl => ?_⟩
  refine ⟨rfl, rfl, rfl, rfl, fresh_s args 0, rfl, rfl, fun n => ⟨rfl, rfl, fun hn => ⟨?_, ?_⟩⟩, rfl, fun l hl => lane_lanesOf _ hl⟩
  · exact (fresh_s args n).trans (if_neg (Nat.ne_of_gt hn))
  · exact if_neg (Nat.ne_of_gt hn)

end Sys2Proof.Machine
end

section
/-! SUPPORT. Events of crews complete (O49). -/

namespace Sys2Proof.Machine

variable {s : State} {id n : Nat} {c : Crew}

-- What a fetch keeps: the agent whose turn it is, and that every crew exists.

/-- The agent whose turn it is stays, and so does every crew. -/
def State.stays (s t : State) : Prop := t.cur = s.cur ∧ ∀ id, (s.crew id).isSome → (t.crew id).isSome

theorem State.stays.refl (s : State) : s.stays s := ⟨rfl, fun _ h => h⟩

theorem State.stays.trans {a b d : State} (h : a.stays b) (g : b.stays d) : a.stays d :=
  ⟨g.1.trans h.1, fun id x => g.2 id (h.2 id x)⟩

theorem State.stays_of_crews {s t : State} (cur : t.cur = s.cur) (crews : t.crews = s.crews) : s.stays t :=
  ⟨cur, fun id h => by rwa [State.crew_of_crews crews id]⟩

theorem State.stays_foldl {β : Type} {f : State → β → State} (hf : ∀ (s : State) (b : β), s.stays (f s b)) (xs : List β) (s : State) :
    s.stays (xs.foldl f s) := by
  induction xs generalizing s with
  | nil => exact .refl s
  | cons x xs ih => exact (hf s x).trans (ih _)

theorem setCrew_stays (s : State) (id : Nat) (c : Crew) : s.stays (s.setCrew id c) := by
  refine ⟨rfl, fun k h => ?_⟩
  by_cases hk : k = id
  · subst hk
    rw [State.crew_setCrew_same]
    rfl
  · rwa [State.crew_setCrew_other s c hk]

theorem updCrew_stays (s : State) (id : Nat) (f : Crew → Crew) : s.stays (s.updCrew id f) := by
  unfold State.updCrew
  split
  · exact setCrew_stays ..
  · exact .refl s

theorem grantNext_stays (s : State) (r : Nat) : s.stays (s.grantNext r) := by
  refine State.stays_of_crews ?_ (grantNext_crews s r)
  unfold State.grantNext
  dsimp only
  split <;> rfl

theorem putBar_stays (s : State) (w : Nat) (b : BarW) (all : Bool) : s.stays (s.putBar w b all) := by
  refine State.stays_of_crews ?_ (putBar_crews s w b all)
  unfold State.putBar
  dsimp only
  split
  · rfl
  · split <;> rfl

theorem freeBar_stays (s : State) (id w : Nat) : s.stays (s.freeBar id w) := by
  unfold State.freeBar
  dsimp only
  split
  · exact (putBar_stays ..).trans ((State.stays_of_crews rfl rfl).trans (grantNext_stays ..))
  · exact putBar_stays ..

theorem dropMonitor_stays (s : State) (id : Nat) : s.stays (s.dropMonitor id) := by
  unfold State.dropMonitor
  split
  · exact (State.stays_of_crews rfl rfl).trans (grantNext_stays ..)
  · exact .refl s

theorem unwait_stays (s : State) (id : Nat) : s.stays (s.unwait id) := by
  unfold State.unwait
  split
  · exact .refl s
  · split
    · exact (freeBar_stays ..).trans (updCrew_stays ..)
    · exact updCrew_stays ..
    · exact (dropMonitor_stays ..).trans (updCrew_stays ..)
    · exact .refl s
    · exact updCrew_stays ..

theorem postRec_cur (s : State) (d : Nat) (r : FaultRec) : (s.postRec d r).1.cur = s.cur := by
  unfold State.postRec State.notice
  dsimp only
  split
  · rfl
  · split
    · split <;> rfl
    · rfl

theorem post_stays (s : State) (d k : Nat) (e : Bool) (r : FaultRec) : s.stays (s.post d k e r).1 :=
  State.stays_of_crews (post_keep State.cur (fun _ _ => rfl) (fun _ _ => rfl) postRec_cur s d k e r) (post_crews s d k e r)

theorem parkCrew_stays (s : State) (id slot : Nat) (r : FaultRec) (late : Bool) : s.stays (s.parkCrew id slot r late) := by
  unfold State.parkCrew
  split
  · exact .refl s
  · exact ((unwait_stays s id).trans (post_stays ..)).trans (updCrew_stays ..)

theorem updRegion_stays (s : State) (rk : Nat) (f : Region → Region) : s.stays (s.updRegion rk f) := by
  refine State.stays_of_crews ?_ (updRegion_crews s rk f)
  unfold State.updRegion
  split <;> rfl

theorem raise_stays (s : State) (id slot : Nat) (f : Fail) (lane : Option Nat) (nested : Bool) : s.stays (s.raise id slot f lane nested) := by
  unfold State.raise State.raiseWith
  split
  · exact .refl s
  · dsimp only
    split
    · exact parkCrew_stays ..
    · split
      · exact parkCrew_stays ..
      · exact ((updRegion_stays ..).trans (setCrew_stays ..)).trans (parkCrew_stays ..)

theorem setEng_stays (s : State) (k : Nat) (e : Eng) : s.stays (s.setEng k e) := State.stays_of_crews rfl rfl

theorem setFork_stays (s : State) (e : Eng) (st : Nat) : s.stays (s.setFork e st) := by
  unfold State.setFork
  split
  · exact State.stays_of_crews rfl rfl
  · exact .refl s

theorem engStopped_stays (s : State) (k : Nat) : s.stays (s.engStopped k) := by
  unfold State.engStopped
  split
  · split
    · exact (State.stays_of_crews rfl rfl).trans (setFork_stays ..)
    · exact .refl s
  · exact .refl s

theorem stopEng_stays (s : State) (k : Nat) (r : FaultRec) (late : Bool) : s.stays (s.stopEng k r late) := by
  unfold State.stopEng
  split
  · exact .refl s
  · dsimp only
    split
    · exact post_stays ..
    · exact ((post_stays ..).trans (setEng_stays ..)).trans (engStopped_stays ..)

theorem raiseEng_stays (s : State) (k : Nat) (f : Fail) : s.stays (s.raiseEng k f) := by
  unfold State.raiseEng
  split
  · exact .refl s
  · exact stopEng_stays ..

theorem rmw_stays (s : State) (w : Who) (sc k : Nat) (sp : Space) (a n : Nat) (f : Nat → Nat) : s.stays (s.rmw w sc k sp a n f).1 := by
  refine State.stays_of_crews ?_ (rmw_crews s w sc k sp a n f)
  unfold State.rmw
  dsimp only
  repeat' split
  all_goals rfl

theorem performLater_stays (s : State) (id : Nat) : s.stays (s.performLater id) := by
  unfold State.performLater
  split
  · exact .refl s
  · exact ((setCrew_stays ..).trans (State.stays_foldl (fun s q => State.stays_foldl (fun s l => rmw_stays ..) _ _) _ _)).trans
      (State.stays_foldl (fun s x => grantNext_stays ..) _ _)

theorem performLaters_stays (s : State) : s.stays s.performLaters := State.stays_foldl performLater_stays _ _

theorem reclass_stays (s : State) (base size : Nat) (tree : Bool) : s.stays (s.reclass base size tree) := by
  refine ⟨rfl, fun id h => ?_⟩
  have found := find_map_crews (fun kv : Nat × Crew => (kv.1, { kv.2 with heat := kv.2.heat.map (fun h => { h with
    buf := h.buf.map (BufOp.reclass (fun a => decide (base ≤ a) && decide (a < base + size)) tree) }) })) (fun _ => rfl) s.crews id
  exact (congrArg Option.isSome found).trans (Option.isSome_map.trans h)

theorem invalTlb_stays (s : State) (p : Xl → Bool) : s.stays (s.invalTlb p) := State.stays_of_crews rfl rfl

theorem classFix_stays (s : State) (fdom va cls owner : Nat) : s.stays (s.classFix fdom va cls owner).1 := by
  unfold State.classFix
  split
  · exact .refl s
  · split
    · exact .refl s
    · dsimp only
      split
      · refine ((State.stays.trans ?_ (State.stays_foldl (fun s f => reclass_stays s f _ _) _ _)).trans (invalTlb_stays ..))
        exact State.stays_of_crews rfl rfl
      · exact State.stays_of_crews rfl rfl

theorem classDone_stays (s : State) (key : Nat) : s.stays (s.classDone key) := by
  unfold State.classDone
  dsimp only
  split
  · split
    · exact (updCrew_stays ..).trans (setEng_stays ..)
    · exact updCrew_stays ..
  · exact updCrew_stays ..

theorem classFail_stays (s : State) (key : Nat) (f : Fail) : s.stays (s.classFail key f) := by
  unfold State.classFail
  split
  · split
    · exact .refl s
    · exact raise_stays ..
  · exact raiseEng_stays ..

theorem classRun_stays (s : State) (die : Nat) : s.stays (s.classRun die) := by
  unfold State.classRun
  split
  · exact .refl s
  · dsimp only
    have taken : ∀ q, s.stays (({ s with mem := { s.mem with classq := Tab.put s.mem.classq die q } } : State).grantNext (resClass die)) :=
      fun q => (State.stays_of_crews rfl rfl).trans (grantNext_stays ..)
    split
    · exact (taken _).trans ((State.stays_of_crews rfl rfl).trans (classDone_stays ..))
    · have fixed := fun (t : State) (a b : Nat) => (performLaters_stays t).trans (classFix_stays t.performLaters a b 0 0)
      split
      next t h =>
        exact (taken _).trans ((h ▸ fixed _ _ _ : State.stays _ t).trans (classDone_stays ..))
      next t f h =>
        exact (taken _).trans ((h ▸ fixed _ _ _ : State.stays _ t).trans ((classDone_stays ..).trans (classFail_stays ..)))

theorem classNow_stays (s : State) (w : Who) (va cls owner : Nat) : s.stays (s.classNow w va cls owner).1 :=
  ((State.stays_foldl (fun s _ => classRun_stays s w.die) _ s).trans (performLaters_stays _)).trans (classFix_stays ..)

theorem translate_stays (s : State) (w : Who) (va k : Nat) : s.stays (s.translate w va k).1 := by
  refine State.stays_of_crews ?_ (translateC_crews ..)
  have found : (s.lookup w va).1.cur = s.cur := by
    unfold State.lookup
    dsimp only
    repeat' split
    all_goals rfl
  have marked : ∀ (t : State) (x : Xl) (m : Nat), (t.orLeaf w x m).cur = t.cur := by
    intro t x m
    unfold State.orLeaf
    dsimp only
    split <;> rfl
  unfold State.translate State.translateC
  split
  · rfl
  · split
    next h =>
      rw [h] at found
      exact found
    next h =>
      rw [h] at found
      dsimp only
      repeat' split
      · exact found
      · exact found
      · exact found
      all_goals exact (marked ..).trans found

theorem translateNow_stays (s : State) (w : Who) (va k : Nat) : s.stays (s.translateNow w va k).1 := by
  have first := translate_stays s w va k
  unfold State.translateNow
  split
  next t x h =>
    rw [h] at first
    have now := first.trans (classNow_stays t w va 0 0)
    split
    next t' f h' => rwa [h'] at now
    next t' h' =>
      rw [h'] at now
      exact now.trans (translate_stays ..)
  next => exact first

theorem fetchWord_stays (s : State) (w : Who) (pc : DWord) : s.stays (s.fetchWord w pc).1 := by
  have found := translateNow_stays s w pc.toNat aFetch
  unfold State.fetchWord
  split
  all_goals
    rename_i h
    rwa [h] at found

-- A blocked word again.

/-- The words that block have the meaning that a wake gives them. -/
theorem waitWordMeaning_blocks {i : Instr} (blocks : i.blocks = true) (s : State) : waitWordMeaning i s = exec i s := by
  cases i
  case mwait | wait | twait | bar => all_goals rfl
  all_goals cases blocks

/-- The words that block are words of crews alone. -/
theorem exec_of_blocks {i : Instr} (blocks : i.blocks = true) (cur : s.cur = .crew id n) (there : (s.crew id).isSome) :
    ∃ t, exec i s = .next t := by
  obtain ⟨c, hc⟩ := Option.isSome_iff_exists.1 there
  have word (wf : Bool) (eff : Eff) : ∃ t, s.crewWord wf eff = .next t := by
    simp only [State.crewWord, cur, State.issuer, hc, Option.map_some]
    exact ⟨_, rfl⟩
  cases i
  case mwait | wait | twait | bar => all_goals exact word _ _
  all_goals cases blocks

/-- A blocked crew's word is performed again where its wait says so. -/
theorem again_runs {h : Heat} {p : Crew → Bool} (hc : s.crew id = some c) (hh : c.heat = some h) (hp : p c = true) :
    s.again id p = s.run waitWordMeaning (.crew id h.slot) := by
  simp only [State.again, hc, hh, hp, if_true]

/-- Settles O49: each event finds its condition and has its effect. -/
theorem crewEventsComplete : Obligations.CrewEventsComplete := by
  unfold Obligations.CrewEventsComplete
  intro s id c hc
  refine ⟨fun p r named good => ?_, fun w hw => ?_, fun item rest s1 todo here first moved => ?_, fun n b s1 wait here first brought => ?_,
    fun k b s1 wait here first brought => ?_, fun h i w s1 hh eligible fetched decoded blocks => ?_, fun res t0 q reserved aged waits => ?_, rfl,
    fun many => ?_, fun n eligible starved fresh => ?_, fun t team placed exited heat park todo toks => ?_⟩
  · intro got
    refine ⟨?_, ?_, { s.crewRec c c.last ⟨cPOISON, 0, p.got.reads.head?.elim 0 (fun r => r.va)⟩
      (p.got.reads.head?.bind (fun r => r.lane)) with wordpc := p.pc }, rfl, rfl, rfl, rfl, ?_⟩
    · change Host.Outcome.next (s.arrive id cPOISON false none) = _
      simp only [State.arrive, hc, named]
      rfl
    · change Host.Outcome.next (s.arrive id cACCESS false none) = _
      simp only [State.arrive, hc, named]
      rfl
    · change Host.Outcome.next (s.arrive id cPOISON true none) = _
      simp only [State.arrive, hc, named, good]
      rfl
  · change Host.Outcome.next (if w = 0 then _ else s.updCrew id (fun c => { c with aopBad := w })) = _
    rw [if_neg hw, State.updCrew_of hc]
  · have asks : ¬(c.park.isSome || !s.firstAsker id c) = true := by simp [here, first]
    change Host.Outcome.next (s.sluiceSpill id) = _
    cases heat : c.heat with
    | none =>
      have moved : s.transfer id item c.last = (s1, none) := by rwa [heat] at moved
      simp only [State.sluiceSpill, hc, todo, if_neg asks, heat, moved]
    | some h =>
      have moved : s.transfer id item h.slot = (s1, none) := by rwa [heat] at moved
      simp only [State.sluiceSpill, hc, todo, if_neg asks, heat, moved]
  · have asks : ¬(c.park.isSome || !s.firstAsker id c) = true := by simp [here, first]
    change Host.Outcome.next (s.sluiceRefill id) = _
    simp only [State.sluiceRefill, hc, wait, if_neg asks, List.foldl_cons, List.foldl_nil, brought]
    rfl
  · have asks : ¬(c.park.isSome || !s.firstAsker id c) = true := by simp [here, first]
    change Host.Outcome.next (s.sluiceRefill id) = _
    simp only [State.sluiceRefill, hc, wait, if_neg asks, brought]
  · have stays := fetchWord_stays ({ s with cur := .crew id h.slot } : State) (s.whoCrew id c) (c.slot h.slot).pc
    rw [fetched] at stays
    obtain ⟨t, meaning⟩ := exec_of_blocks blocks stays.1 (stays.2 id (Option.isSome_iff_exists.2 ⟨c, hc⟩))
    have runs : s.run waitWordMeaning (.crew id h.slot) = .next t := by
      have fetched : ({ s with cur := .crew id h.slot } : State).fetchWord (({ s with cur := .crew id h.slot } : State).whoOf (.crew id h.slot))
          (({ s with cur := .crew id h.slot } : State).pcOf (.crew id h.slot)) = (s1, .ok w) := by
        have who : ({ s with cur := .crew id h.slot } : State).whoOf (.crew id h.slot) = s.whoCrew id c := by
          change (match s.crew id with
            | some c => s.whoCrew id c
            | none => _) = _
          rw [hc]
        have pc : ({ s with cur := .crew id h.slot } : State).pcOf (.crew id h.slot) = (c.slot h.slot).pc := by
          change (match s.crew id with
            | some c => (c.slot h.slot).pc
            | none => 0) = _
          rw [hc]
        rw [who, pc, fetched]
      rw [run_fetched eligible waitWordMeaning fetched, decoded]
      exact (waitWordMeaning_blocks blocks s1).trans meaning
    have again {p : Crew → Bool} (hp : p c = true) : s.again id p = .next t := (again_runs hc hh hp).trans runs
    refine ⟨t, meaning, fun m hm wait mine fired => again ?_, fun r g t0 b wait granted => again ?_, fun p g t0 wait limit => again ?_,
      fun r g t0 wait queued => again ?_⟩
    · simp only [wait, List.any_eq_true, Bool.and_eq_true]
      exact ⟨rfl, m, hm, by simpa using mine, fired⟩
    · simp only [wait, granted]
    · simp only [wait]
      simpa using limit
    · simp only [wait, queued]
  · change execReservationExpiry res s = _
    cases wait : c.wait with
    | ticket r g t b =>
      have unclaimed : (r != res || c.park.isSome) = true := by
        rcases waits with other | parked
        · have hr : r ≠ res := fun same => other g t b (same ▸ wait)
          simp [hr]
        · simp [parked]
      simp only [execReservationExpiry, reserved, List.find?_cons, hc, wait, aged, decide_true, Bool.true_and, unclaimed, List.erase_cons_head]
    | _ => simp only [execReservationExpiry, reserved, List.find?_cons, hc, wait, aged, decide_true, Bool.true_and, List.erase_cons_head]
  · have full : s.admitOne = s := by
      simp only [State.admitOne, if_neg (Nat.not_lt.2 many)]
    change Host.Outcome.next s.admitOne.admitOne.admitOne.admitOne = _
    rw [full, full, full, full]
  · change execStarvationPromotion id n s = _
    simp only [execStarvationPromotion, hc]
    exact if_pos (by simp [eligible, starved, fresh])
  · change execCrewRetirement id s = _
    simp only [execCrewRetirement, hc, team]
    refine if_pos ?_
    have returned : (c.toks.isEmpty || !s.millerOf c) = true := by simpa using toks
    simp [State.crewOver, placed, exited, heat, park, todo, returned]

end Sys2Proof.Machine
end

section
/-! SUPPORT. Events of engine contexts complete (O50). -/

namespace Sys2Proof.Machine

variable {s : State} {k : Nat} {e : Eng}

/-- The first entry with one property is the first with two, when it has the second too. -/
theorem find?_and {α : Type} {p q : α → Bool} {x : α} {l : List α} (found : l.find? p = some x) (hq : q x = true) :
    l.find? (fun y => p y && q y) = some x := by
  rw [List.find?_eq_some_iff_append] at found ⊢
  obtain ⟨hp, before, after, rfl, none_⟩ := found
  exact ⟨by rw [hp, hq]; rfl, before, after, rfl, fun y hy => by simp [Bool.not_eq_true' _ ▸ none_ y hy]⟩

theorem xGoes_live (live : e.live = true) : s.xGoes e = true := by simp [State.xGoes, live]

/-- A started operation whose owners hold good elements has its effect. -/
theorem xFinish_effect {x : XOp} {ps : List (Nat × Crew)} (he : s.eng k = some e)
    (found : e.xops.find? (fun y => y.id == x.id) = some x) (started : x.started = true) (owners : s.owners k e x.acc = some ps)
    (whole : x.loads = true → ∀ p ∈ ps, x.acc.lost p.2 = false) :
    s.xFinish k x.id = match s.xEffect k e x ps with
      | .ok s => (s.xReturn k e x).xRemove k x.id
      | .error (.fault f _) => s.xFault k x f
      | .error (.after s f) => s.xFault k x f
      | .error (.conflict va) => s.classAsk (s.whoEng k e).die (s.whoEng k e).fdom va k
      | .error _ => s := by
  have good : ¬(x.loads && ps.any (fun p => x.acc.lost p.2)) = true := by simpa using whole
  simp only [State.xFinish, he, find?_and found started, owners, if_neg good] <;> rfl

theorem xOperationCompletion_granted {x : Nat} (granted : .xop k x ∈ s.power.granted) :
    exec (.xOperationCompletion k x) s = .next (s.xFinish k x) :=
  if_pos (List.contains_iff_mem.2 granted)

/-- The oldest entry of a context that goes on, once it need not wait and its units are granted, is performed. -/
theorem engineEntryCompletion_performs {n : Entry} {r : List Entry} (he : s.eng k = some e) (live : e.live = true) (ents : e.ents = n :: r)
    (ready : s.entryWaits k e n = false) (paid : n.unpaid k = false) :
    exec (.engineEntryCompletion k) s = match s.doEntry k e n with
      | .ok (s', none) => .next (State.popEntry { s' with freeCount := s'.freeCount + (1 + 512 * 2 ^ 40) } k)
      | .ok (s', some f) => .next (State.entryFault { s' with freeCount := s'.freeCount + (1 + 512 * 2 ^ 40) } k n f)
      | .error (.fault f _) => .next (State.entryFault { s with freeCount := s.freeCount + (1 + 512 * 2 ^ 40) } k n f)
      | .error (.after s f) => .next (State.entryFault { s with freeCount := s.freeCount + (1 + 512 * 2 ^ 40) } k n f)
      | .error (.conflict va) => .next (s.classAsk (s.whoEng k e).die (s.whoEng k e).fdom va k)
      | .error _ => .next s := by
  have goes : ¬(!e.live || s.entryWaits k e n || n.unpaid k) = true := by simp [live, ready, paid]
  change execEngineEntryCompletion k s = _
  simp only [execEngineEntryCompletion, he, ents, if_neg goes] <;> rfl

/-- Settles O50: each event finds its condition and has its effect. -/
theorem engineEventsComplete : Obligations.EngineEventsComplete := by
  unfold Obligations.EngineEventsComplete
  intro s k e he live
  refine ⟨fun x hx found => ⟨fun ready => ?_, fun ps s1 started granted owners whole effect => ?_,
      fun ps s1 f started granted owners whole effect => ?_, fun waits unowned limit elapsed => ?_⟩,
    fun n r ents => ⟨fun ready paid => ?_,
      fun here all => ?_, fun waits limit elapsed => ?_⟩⟩
  · change execXOperationStart k x.id s = _
    simp only [execXOperationStart, he, found, xGoes_live live, ready]
    rfl
  · rw [xOperationCompletion_granted granted, xFinish_effect he found started owners whole, effect]
  · rw [xOperationCompletion_granted granted, xFinish_effect he found started owners whole, effect]
  · change execTokenWaitTimeout k x.id s = _
    simp only [execTokenWaitTimeout, he, find?_and found (q := fun x => !x.started) (by rw [waits]; rfl)]
    exact if_pos (by simp [xGoes_live live, limit, elapsed, unowned])
  · have performs := engineEntryCompletion_performs he live ents ready paid
    refine ⟨fun s1 done => ?_, fun s1 x done => ?_, fun f l done => ?_, fun s1 f done => ?_⟩
    all_goals
      rw [done] at performs
      exact ⟨_, performs⟩
  · change execQfenceMatch k s = _
    simp only [execQfenceMatch, he, ents]
    exact if_pos (by simpa [here] using all)
  · change execEngineWaitTimeout k s = _
    simp only [execEngineWaitTimeout, he, ents]
    exact if_pos (by simpa [live, limit, elapsed] using waits)

end Sys2Proof.Machine
end

section
/-! SUPPORT. Events of the Headrace complete (O51). -/

namespace Sys2Proof.Machine

variable {s : State}

/-- A record of a crew whose team has no image is posted as it stands. -/
theorem FaultRec.image_kept {r : FaultRec} (plain : r.image = false) : { r with image := r.image || false } = r := by
  cases r
  simp_all

/-- What holds of every function holds of the posting of records: the kernel then has no posting to compute. -/
theorem holds_of_all {α : Type} {motive : α → Prop} (x : α) (all : ∀ y, motive y) : motive x := all x

/-- The oldest fault that waited is posted, for a crew of a team without an image. -/
theorem deferredFaultPosting_posts {fdom key q : Nat} {c : Crew} {p : Park} {fr : FaultRec} {s1 : State} {us : List Unposted}
    (unposted : s.port.unposted = ⟨fdom, key, false, fr⟩ :: us) (plain : fr.image = false) (crew : s.crew key = some c)
    (park : c.park = some p) (same : p.fr = fr) (noImage : ∀ t, s.team c.rk c.team = some t → t.image = none)
    (posted : s.postRec fdom fr = (s1, some q)) :
    execDeferredFaultPosting fdom s = .next (State.setCrew
      { s1 with port := { s1.port with unposted := s1.port.unposted.erase ⟨fdom, key, false, fr⟩ } } key
      { c with park := some { p with seq := some q } }) := by
  have first : s.port.unposted.find? (fun u => u.fdom == fdom) = some ⟨fdom, key, false, fr⟩ := by
    rw [unposted, List.find?_cons]
    simp
  have crew1 : s1.crew key = some c := by
    have kept := postRec_crews s fdom fr
    rw [posted] at kept
    rw [State.crew_of_crews kept, crew]
  have here : ({ s1 with port := { s1.port with unposted := s1.port.unposted.erase ⟨fdom, key, false, fr⟩ } } : State).crew key = some c := crew1
  have whole : { fr with image := fr.image || false } = fr := FaultRec.image_kept plain
  have recorded : ¬(p.fr != fr) = true := by simp [same]
  subst same
  delta execDeferredFaultPosting
  revert posted
  induction s.postRec using holds_of_all with
  | all posting =>
    intro posted
    cases team : s.team c.rk c.team with
    | none =>
      simp only [first, crew, team, Bool.false_eq_true, if_false, Option.isSome_none, whole, posted, here, park, if_neg recorded]
    | some t =>
      simp only [first, crew, team, noImage t team, Bool.false_eq_true, if_false, Option.isSome_none, whole, posted, here, park, if_neg recorded]

/-- Settles O51: each event finds its condition and has its effect. -/
theorem schedulerEventsComplete : Obligations.SchedulerEventsComplete := by
  unfold Obligations.SchedulerEventsComplete
  intro s
  refine ⟨fun msg up len => ?_, fun msg q queue => ?_, fun rcb rk r found live => ⟨fun kind waits inputs => ?_, fun done => ?_,
      fun team t there ended => ?_, fun team t there placed pre step holders stops => ?_, fun team t slot there free placed step idle => ?_,
      fun team s1 first there => ?_⟩,
    fun rk team s1 first => ?_, fun core rk team r mark region empty fresh => ?_, fun key v t free need => ?_,
    fun fdom key c p fr s1 q us unposted plain crew park same noImage posted => ?_⟩
  · change execLaunchMessage 0 msg s = _
    have linked : ¬(!s.port.up) = true := by simp [up]
    rw [execLaunchMessage, if_neg linked]
    by_cases room : s.port.ready = true ∧ s.port.queue.length < 256
    · rw [if_pos room]
      exact if_neg (by simp [room.1, room.2, len])
    · rw [if_neg room]
      exact if_pos (by simpa [len, Decidable.imp_iff_not_or] using room)
  · intro root
    refine ⟨fun bad => ?_, fun s1 e off good visited => ?_, fun s1 ns good visited few => ?_⟩
    · change execAdmission s = _
      simp only [execAdmission, queue]
      exact if_pos bad
    · change execAdmission s = _
      have good : ¬msgBad msg = true := by simp [good]
      have visited : State.visitTree (rw msg 0 0 57) 258 [(rw msg 0 0 57, none, 0)] s [] = (s1, .error (e, off)) := visited
      simp only [execAdmission, queue, if_neg good, visited]
    · change execAdmission s = _
      have good : ¬msgBad msg = true := by simp [good]
      have visited : State.visitTree (rw msg 0 0 57) 258 [(rw msg 0 0 57, none, 0)] s [] = (s1, .ok ns) := visited
      simp only [execAdmission, queue, if_neg good, visited]
      exact if_neg (Nat.not_lt.2 few)
  · change execNodeReady rcb s = _
    simp only [execNodeReady, found]
    exact if_neg (by simp [kind, waits, inputs, live])
  · change execRegionCompletion rcb s = _
    simp only [execRegionCompletion, found]
    exact if_neg (by simp [done, live])
  · change execTeamRetirement rcb team s = _
    simp only [execTeamRetirement, found, there]
    exact if_neg (by simp [ended])
  · change execTeamPreemption rcb team s = _
    have stop_ (id : Nat) (mine : id ∈ (s.crews.filter (fun kv => kv.2.rk == rk && kv.2.team == team)).map Prod.fst) (c : Crew)
        (crew : s.crew id = some c) : c.canStop = true := by
      obtain ⟨kv, hkv, rfl⟩ := List.mem_map.1 mine
      obtain ⟨member, mine⟩ := List.mem_filter.1 hkv
      obtain ⟨region, own⟩ := Bool.and_eq_true_iff.1 mine
      exact stops kv member (eq_of_beq region) (eq_of_beq own) c crew
    simp only [execTeamPreemption, found, there]
    refine (if_neg (by simp [placed, pre, step])).trans ?_
    simp only [holders, List.foldl_nil, List.any_nil, Bool.false_or]
    refine if_neg ?_
    rw [Bool.not_eq_true', Bool.not_eq_false, List.all_eq_true]
    intro id mine
    cases crew : s.crew id with
    | none => rfl
    | some c => exact stop_ id mine c crew
  · change execContextImageWrite rcb team s = _
    simp only [execContextImageWrite, found, there, free]
    exact if_neg (by simp [placed, step, idle])
  · change execTeamResumption rcb team s = _
    simp only [execTeamResumption, found, first]
    exact if_pos (by simp [there])
  · change execTeamPlacement s = _
    simp only [execTeamPlacement, first]
  · change execApportioningChange core s = _
    simp only [execApportioningChange, mark, region]
    exact if_neg (by simp [empty, fresh])
  · change execPriorityPreemption (t.core / 384) s = _
    simp only [execPriorityPreemption, need]
    exact (if_neg (by simpa using Option.isSome_iff_ne_none.1 free)).trans (if_neg (by simp))
  · exact deferredFaultPosting_posts unposted plain crew park same noImage posted

end Sys2Proof.Machine
end

section
/-! SUPPORT. Commands and registers of the host complete (O52). -/

namespace Sys2Proof.Machine

variable {s : State}

/-- What the host's command and register frame adds to a command's effect: DONE counts it, unless teams must leave first. -/
def State.counted (s : State) : State := if s.port.busy = true then s else { s with port := { s.port with done := s.port.done + 1 } }

/-- A command written while another is in progress is lost. -/
theorem command_lost (up : s.port.up = true) (busy : s.port.busy = true) (f : State → State) :
    s.command f = { s with port := { s.port with lost := true } } := by
  simp [State.command, up, busy]

/-- A command written while none is in progress has its effect, and DONE counts it. -/
theorem command_counted (up : s.port.up = true) (idle : s.port.busy = false) (f : State → State) : s.command f = (f s).counted := by
  rw [State.command, if_neg (by simp [up]), if_neg (by simp [idle])]
  rfl

theorem State.counted_of_busy {t : State} (busy : t.port.busy = true) : t.counted = t := if_pos busy

/-- Registers answer. -/
theorem barUp_of (up : s.port.up = true) (phase : s.port.phase ≠ 15) : s.barUp = true := by
  simp [State.barUp, up, phase]

/-- ABORT at a region of the tree whose subtree has no team on its way into an image, or some. -/
theorem abortAt_live {rk : Nat} {r : Region} (region : s.region rk = some r) (live : r.state < 2) :
    s.abortAt rk = if s.teams.any (fun kv => kv.2.pre && kv.2.st == .placed && (s.subtree rk).contains (kv.1 / 2 ^ 48)) then
      { s with port := { s.port with abortReq := s.port.abortReq ++ [rk], busy := true } } else s.abortRegion rk 0 := by
  simp only [State.abortAt, region]
  exact if_neg (Nat.not_le.2 live)

/-- The effect of SHOOT's range and size. -/
theorem execShoot_range (up : s.port.up = true) (idle : s.port.busy = false) {sc va : Nat} (size : sc < 4) (range : va < 3)
    (named : va = 0 → sc < 3) (fdom : BitVec 12) :
    let s1 := (s.performLaters.markOld none).invalTlb (tlbNames va sc s.port.farg.toNat fdom.toNat)
    execShoot fdom (BitVec.ofNat 32 (sc * 4 + va)) s =
      .next (State.counted (if s1.oldLeft then { s1 with port := { s1.port with busy := true } } else s1)) := by
  have value : (BitVec.ofNat 32 (sc * 4 + va)).toNat = sc * 4 + va := by
    rw [BitVec.toNat_ofNat, Nat.mod_eq_of_lt (by omega)]
  have low : (sc * 4 + va) % 4 = va := by omega
  have high : (sc * 4 + va) / 4 = sc := by omega
  have listed : ¬(decide (16 ≤ sc * 4 + va) || va == 3 || (va == 0 && sc == 3)) = true := by
    simp only [Bool.or_eq_true, Bool.and_eq_true, decide_eq_true_eq, beq_iff_eq, not_or, not_and]
    omega
  intro s1
  rw [execShoot, command_counted up idle]
  simp only [value, low, high, if_neg listed]
  rfl

/-- The dirty bytes that are lost with an extent's lines, and what stays. -/
theorem dropLines_effect (s : State) (x : Extent) :
    (s.dropLines x).1.pool = s.pool ∧ (s.dropLines x).1.crews = s.crews ∧ (s.dropLines x).1.engs = s.engs ∧
    (s.dropLines x).1.mem.wrote = s.mem.wrote ∧ (s.dropLines x).1.mem.pkg = s.mem.pkg ∧ (s.dropLines x).1.mem.ext = s.mem.ext ∧
    (s.mem.lines = [] → s.mem.l2 = [] → (s.dropLines x).2 = []) ∧
    (∀ kv, kv ∈ (s.dropLines x).1.mem.l2 ↔ kv ∈ s.mem.l2 ∧ (x.shared = true ∨ x.holds (kv.1 * 128) = false)) ∧
    (x.shared = false → ∀ kv ∈ s.mem.l2, x.holds (kv.1 * 128) = true → ∀ j, j < 128 → kv.2.dirty.getLsbD j = true →
      kv.1 % 2 ^ 45 * 128 + j ∈ (s.dropLines x).2) ∧
    (s.dropLines x).1.mem.tree = (if x.shared then s.mem.tree else s.mem.tree.filter (fun kv => !x.holds kv.2.gbase)) ∧
    (s.dropLines x).1.mem.fabShare = (if x.shared then s.mem.fabShare else s.mem.fabShare.filter (fun ln => !x.holds (ln * 128))) := by
  cases shared : x.shared with
  | true =>
    simp only [State.dropLines, shared, if_true, Bool.not_true, Bool.false_and, List.mem_filter]
    refine ⟨trivial, trivial, trivial, trivial, trivial, trivial, fun noLines noHome => ?_, fun kv => ?_, fun own => ?_, trivial, trivial⟩
    · simp [noLines, noHome]
    · simp
    · cases own
  | false =>
    simp only [State.dropLines, shared, Bool.false_eq_true, if_false, Bool.not_false, Bool.true_and, List.mem_filter]
    refine ⟨trivial, trivial, trivial, trivial, trivial, trivial, fun noLines noHome => ?_, fun kv => ?_, fun _ kv there held j hj dirty => ?_, trivial, trivial⟩
    · simp [noLines, noHome]
    · simp
    · rw [List.mem_eraseDups, List.mem_flatMap]
      refine ⟨kv, List.mem_append_right _ (List.mem_filter.2 ⟨there, held⟩), List.mem_map.2 ⟨j, List.mem_filter.2 ⟨?_, dirty⟩, rfl⟩⟩
      exact List.mem_range.2 hj

/-- Without crews and contexts no load in flight is lost. -/
theorem loseReads_idle (crews : s.crews = []) (engs : s.engs = []) (gone : Space × Nat → Bool) (cause : Nat) :
    s.loseReads gone cause = s := by
  cases s
  cases crews
  cases engs
  rfl

/-- Without crews no store in flight is lost. -/
theorem loseStores_idle (crews : s.crews = []) (mine : Space → Nat → Bool) (cause : Nat) : s.loseStores mine cause = (s, []) := by
  rw [State.loseStores, crews]
  rfl

/-- EXTENT_REMOVAL of a mapped extent: what is dropped, and what is lost with it. -/
theorem extentRemoval_drops {e : Nat} (valid : (s.extent e).valid = true) (st : (s.extent e).st < 3) :
    let x := s.extent e
    let d := (s.setExtent e { x with st := 3 }).dropLines x
    let by_ := d.2.map (fun pa => (pa, Tab.get s.mem.wrote (pa - x.wbase + x.base) 0))
    let q := d.1.loseStores x.cell cEXTENT
    let t := q.1.loseReads (fun y => x.cell y.1 (y.2 * 128)) cEXTENT
    exec (.extentRemoval e) s = .next { t with pool := { t.pool with errlog := t.pool.errlog ++ by_ ++ q.2 } } := by
  intro x d by_ q t
  have wrote : d.1.mem.wrote = s.mem.wrote := (dropLines_effect (s.setExtent e { x with st := 3 }) x).2.2.2.1
  have mapped : ¬(!x.valid || decide (3 ≤ x.st)) = true := by simp [x, valid, st]
  change execExtentRemoval e s = _
  rw [execExtentRemoval]
  refine (if_neg mapped).trans ?_
  have lost : d.2.map (fun pa => (pa, Tab.get d.1.mem.wrote (pa - x.wbase + x.base) 0)) = by_ := by rw [wrote]
  rw [← lost]

/-- Settles O52: each command's and each register's condition and effect. -/
theorem commandsComplete : Obligations.CommandsComplete := by
  unfold Obligations.CommandsComplete
  intro s up phase done
  have answers : ¬(!s.barUp) = true := by simp [barUp_of up phase]
  refine ⟨fun busy i hi => ?_, fun idle fdom seq => ⟨?_, ?_, ?_, ?_, fun rk r found region live => ⟨fun clear => ?_, fun waits => ?_,
      fun kind grid => ?_⟩⟩,
    fun idle rk r leaves => ⟨?_, ?_⟩, fun v one => ?_, fun off v low aligned command status extents => ?_, ?_, ?_, fun port => ?_⟩
  · have lost := command_lost up busy
    simp only [List.mem_cons, List.not_mem_nil, or_false] at hi
    rcases hi with rfl | rfl | rfl | rfl | rfl | rfl | rfl | rfl
    all_goals exact congrArg Host.Outcome.next (lost _)
  · exact congrArg Host.Outcome.next (command_counted up idle _)
  · exact congrArg Host.Outcome.next (command_counted up idle _)
  · exact congrArg Host.Outcome.next (command_counted up idle _)
  · intro sc va size range value named s1
    subst value
    refine ⟨fun left => (execShoot_range up idle size range named fdom).trans ?_,
      fun left => (execShoot_range up idle size range named fdom).trans ?_⟩
    · rw [if_neg (by rw [left]; exact Bool.false_ne_true)]
      rfl
    · rw [if_pos left, State.counted_of_busy rfl]
  · change Host.Outcome.next (s.command _) = _
    rw [command_counted up idle]
    simp only [found, abortAt_live region live]
    rw [if_neg]
    · rfl
    · simpa [and_assoc] using clear
  · change Host.Outcome.next (s.command _) = _
    rw [command_counted up idle]
    simp only [found, abortAt_live region live]
    rw [if_pos, State.counted_of_busy rfl]
    simpa [and_assoc] using waits
  · change Host.Outcome.next (s.command _) = _
    rw [command_counted up idle]
    simp only [found]
    rw [if_neg (by simp [kind, live, grid])]
    rfl
  · change Host.Outcome.next (s.command _) = _
    rw [command_counted up idle]
    simp only [leaves, List.foldl_cons, List.foldl_nil]
    rfl
  · change Host.Outcome.next (s.command _) = _
    rw [command_counted up idle]
    simp only [leaves, List.foldl_cons, List.foldl_nil]
    rfl
  · exact if_pos (by simp [barUp_of up phase, one])
  · change execRegisterWrite off 8 v s = _
    rw [execRegisterWrite, if_neg answers, if_neg (Nat.not_lt.2 low), if_neg (by simp [aligned]), if_neg command, if_neg status, if_neg (by simp; omega)]
  · change execRegisterWrite 0x118 8 5 s = _
    rw [execRegisterWrite, if_neg answers]
    rfl
  · intro e v small x
    refine ⟨fun fresh valid sized trained apart => ?_, fun valid st => ?_, fun st => ?_, ?_⟩
    · change ∃ tag f, execPoolExtentMap e v s = _
      have free : ¬(!s.barUp || decide (64 ≤ e) || (s.extent e).valid) = true := by
        simp only [Bool.or_eq_true, not_or]
        exact ⟨⟨answers, by simpa using small⟩, by simp [show (s.extent e).valid = false from fresh]⟩
      have room : s.pool.exts.any (fun kv => kv.2.valid && kv.2.meets (x.put0 v)) = false := by
        simpa using apart
      have ready : (if (x.put0 v).port then s.pool.trainedB else s.pool.trainedA) = true := trained
      have sized : ((x.put0 v).len == 0) = false := by
        exact beq_false_of_ne (Nat.pos_iff_ne_zero.1 sized)
      refine ⟨(Config.freeDWord s.freeCount).setWidth 32, s.freeCount + 1, ?_⟩
      rw [execPoolExtentMap]
      refine (if_neg free).trans (if_neg ?_)
      change ¬(!(if (x.put0 v).port then s.pool.trainedB else s.pool.trainedA) || (x.put0 v).len == 0 ||
        s.pool.exts.any (fun kv => kv.2.valid && kv.2.meets (x.put0 v))) = true
      rw [ready, sized, room]
      simp
    · change execExtentRelease e v s = _
      rw [execExtentRelease]
      refine (if_neg ?_).trans ((if_neg (by simp [show (s.extent e).valid = true from valid])).trans ?_)
      · simp only [Bool.or_eq_true, not_or]
        exact ⟨answers, by simpa using small⟩
      · rw [if_pos st]
    · exact if_neg (by simp [show (s.extent e).st = 1 from st])
    · intro valid st d by_ q t
      obtain ⟨pool, crews, engs, -, pkg, ext, none, home, dirty, tree, share⟩ := dropLines_effect (s.setExtent e { x with st := 3 }) x
      refine ⟨extentRemoval_drops valid st, fun noCrews noEngs => ?_, ?_, (congrArg Pool.errlog pool :), (congrArg Pool.dev pool :), pkg, ext,
        none, home, dirty, tree, share⟩
      · have lost : q = (d.1, []) := loseStores_idle (crews.trans noCrews) x.cell cEXTENT
        have read : d.1.loseReads (fun y => x.cell y.1 (y.2 * 128)) cEXTENT = d.1 := loseReads_idle (crews.trans noCrews) (engs.trans noEngs) _ _
        have kept : t = q.1.loseReads (fun y => x.cell y.1 (y.2 * 128)) cEXTENT := rfl
        rw [kept, lost]
        exact ⟨read, rfl⟩
      · change Tab.get d.1.pool.exts e extent0 = _
        rw [pool]
        exact Tab.get_put_same _ _ _ _
  · change Host.Outcome.next _ = _
    simp only [State.setPool, Bool.and_eq_true, beq_iff_eq]

end Sys2Proof.Machine
end

section
/-! SUPPORT. Events of memory, the host port and peers complete (O53). -/

namespace Sys2Proof.Machine

variable {s : State}

/-- A read of BAR0 outside recovery, at an aligned offset of a listed part of the control block. -/
theorem hostRead_bar0 (up : s.port.up = true) {off : Nat} (aligned : off % 8 = 0) (small : off < 2 ^ 24)
    (here : s.port.phase ≠ 15 ∨ barMailbox off = true) :
    execHostRead 0 off 8 ⟨none, .plain⟩ s =
      if barOpen off then .next ((s.freeBytes 8).1.setPort { (s.freeBytes 8).1.port with lastRead := (s.freeBytes 8).2 })
      else if barTelemetry off then
        .next (s.setPort { s.port with lastRead := (List.range 8).map (fun i => Config.telemetryByte (off + i) s.report) })
      else if barTable off then
        .next (s.setPort { s.port with lastRead := leOf 8 (Tab.get s.port.msix ((off - 0x300000) / 8) 0).toNat })
      else .next (s.setPort { s.port with lastRead := leOf 8 (s.barRegister off).toNat }) := by
  have refused : ¬(decide (s.port.phase = 15) && !barMailbox off) = true := by
    rcases here with phase | mailbox
    · simp [phase]
    · simp [mailbox]
  rw [execHostRead, if_neg (by simp [up]), if_neg (by simp), if_neg (by simp), if_neg (by simpa [aligned] using small), if_neg refused]

/-- The parts of the control block do not meet. -/
theorem barOpen_low {off : Nat} (low : off < 0x200000) : barOpen off = false := by
  simp only [barOpen, barMailbox, Bool.or_eq_false_iff, Bool.and_eq_false_iff, decide_eq_false_iff_not]
  omega

/-- In recovery the control block answers nowhere but in the mailbox (R403). -/
theorem hostRead_recovery (up : s.port.up = true) (phase : s.port.phase = 15) {off : Nat} (aligned : off % 8 = 0) (small : off < 2 ^ 24)
    (outside : off < 0x200000 ∨ 0x201000 ≤ off) :
    execHostRead 0 off 8 ⟨none, .plain⟩ s = .next { s with port := { s.port with lastRead := [] } } := by
  have mailbox : barMailbox off = false := by
    simp only [barMailbox, Bool.and_eq_false_iff, decide_eq_false_iff_not]
    omega
  rw [execHostRead, if_neg (by simp [up]), if_neg (by simp), if_neg (by simp), if_neg (by simpa [aligned] using small),
    if_pos (by simp [phase, mailbox])]
  rfl

/-- In recovery no other register answers. -/
theorem barUp_recovery (phase : s.port.phase = 15) : s.barUp = false := by
  simp [State.barUp, phase]

/-- A copy of the lines that HOST_LINK_DOWN keeps. -/
theorem mem_kept_lines {ls : Tab Line} {ext : Nat → Nat} (kv : Nat × Line) :
    kv ∈ ls.filter (fun kv => !((kv.1 / 2 ^ 45 == ioHolder 0 && ext (kv.1 % 2 ^ 45 * 128) == 0) || kv.1 / 2 ^ 45 == hostHolder)) ↔
      kv ∈ ls ∧ kv.1 / 2 ^ 45 ≠ hostHolder ∧ ¬(kv.1 / 2 ^ 45 = ioHolder 0 ∧ ext (kv.1 % 2 ^ 45 * 128) = 0) := by
  rw [List.mem_filter]
  refine and_congr_right (fun _ => ?_)
  simp only [Bool.not_eq_true', Bool.or_eq_false_iff, Bool.and_eq_false_iff, beq_eq_false_iff_ne, ne_eq]
  grind

/-- Settles O53: each event's condition and effect. -/
theorem memoryEventsComplete : Obligations.MemoryEventsComplete := by
  unfold Obligations.MemoryEventsComplete
  intro s
  refine ⟨fun core w r entries aged => ?_, fun block l t level split quiet => ?_, ?_, fun die => rfl, ?_, ?_,
    fun off up phase aligned low => ?_, fun off up phase aligned low high => ?_, fun up phase => ⟨fun off aligned small outside => ?_,
      fun off aligned low high => ?_, fun off len c => ?_, fun off bs b o => ?_, fun off w v => ?_⟩,
    fun off len bs c b o up phase option => ⟨?_, ?_⟩, fun off bs up phase => ?_, fun line j b hj => ?_, ?_, fun cxl trained => ?_,
    fun rank valid other => ⟨fun pa len present => ?_, fun pa bs present => ?_, fun op mode pa d d2 listed aligned present => ?_,
      fun key team rows sig => ?_, fun pa len absent => ?_⟩,
    fun line level j b hj => ?_, ?_, fun core bank hcore hbank works => ⟨?_, fun ln fresh => ?_, fun ln b r failed => ?_⟩,
    fun idle => ?_, fun placed => ?_⟩
  · change execWcbAgeingExpiry core w.line s = _
    have first : (w :: r).find? (fun x => x.line == w.line && decide (x.t0 * 5 + x.age * 7 ≤ s.clock * 5)) = some w :=
      List.find?_cons_of_pos (by simpa using aged)
    simp only [execWcbAgeingExpiry, entries, first, List.erase_cons_head]
  · change execSplitLevelDecay block s = _
    simp only [execSplitLevelDecay, level]
    exact if_neg (by simpa [split] using quiet)
  · intro die key mv move s0 m mv' home s1
    change execMigrationStep die s = _
    simp only [execMigrationStep, move]
    rfl
  · intro die r q x s2 queue s1 walk fixed
    change Host.Outcome.next (s.classRun die) = _
    have walk : (State.grantNext { s with mem := { s.mem with classq := Tab.put s.mem.classq die q } } (resClass die)).walk r.fdom r.va
      = .ok x := walk
    have fixed : (State.grantNext { s with mem := { s.mem with classq := Tab.put s.mem.classq die q } }
      (resClass die)).performLaters.classFix r.fdom r.va 0 0 = (s2, none) := fixed
    simp only [State.classRun, queue, walk, fixed]
  · intro off len up phase present pas clean
    change execHostRead 2 off len ⟨none, .plain⟩ s = _
    have clean : s.homePoisoned ((List.range len).map (fun i => s.redirect (off + i))) = false := clean
    rw [execHostRead, if_neg (by simp [up]), if_neg (by simp), if_pos rfl, if_neg phase, State.hostMemRead, if_neg (by simp [present])]
    simp only [clean, Bool.false_eq_true, if_false]
    rfl
  · change execHostRead 0 off 8 ⟨none, .plain⟩ s = _
    have telemetry : ¬barTelemetry off = true := by
      simp only [barTelemetry, Bool.and_eq_true, decide_eq_true_eq]
      omega
    have table : ¬barTable off = true := by
      simp only [barTable, Bool.and_eq_true, decide_eq_true_eq]
      omega
    rw [hostRead_bar0 up aligned (by omega) (.inl phase), if_neg (by simp [barOpen_low (show off < 0x200000 by omega)]),
      if_neg telemetry, if_neg table]
    rfl
  · change execHostRead 0 off 8 ⟨none, .plain⟩ s = _
    have telemetry : barTelemetry off = true := by
      simp only [barTelemetry, Bool.and_eq_true, decide_eq_true_eq]
      omega
    rw [hostRead_bar0 up aligned (by omega) (.inl phase), if_neg (by simp [barOpen_low high]), if_pos telemetry]
    rfl
  · exact hostRead_recovery up phase aligned small outside
  · change execHostRead 0 off 8 ⟨none, .plain⟩ s = _
    have mailbox : barMailbox off = true := by
      simp only [barMailbox, Bool.and_eq_true, decide_eq_true_eq]
      omega
    rw [hostRead_bar0 up aligned (by omega) (.inr mailbox), if_pos (by simp [barOpen, mailbox])]
    rfl
  · change execHostRead 2 off len ⟨c, .plain⟩ s = _
    rw [execHostRead, if_neg (by simp [up]), if_neg (by simp), if_pos rfl, if_pos phase]
  · exact if_pos (by simp [barUp_recovery phase])
  · exact if_pos (by simp [barUp_recovery phase])
  · change execHostRead 2 off len ⟨c, o⟩ s = _
    rw [execHostRead, if_neg (by simp [up]), if_pos (by simpa using option)]
    rfl
  · change execHostWrite off bs ⟨b, o⟩ s = _
    rw [execHostWrite, if_neg (by simp [barUp_of up phase]), if_pos (by simpa using option)]
    rfl
  · intro cells
    change execHostWrite off bs ⟨false, .plain⟩ s = _
    rw [execHostWrite, if_neg (by simp [barUp_of up phase]), if_neg (by simp)]
    cases present : s.presentAll off bs.length with
    | true => exact if_neg (by simp)
    | false => exact if_pos rfl
  · intro p m
    change execHostSnoop line [(j, b)] false s = _
    have inside : [(j, b)].filter (fun kv => decide (kv.1 < 128)) = [(j, b)] := by simp [hj]
    rw [execHostSnoop, inside]
    rfl
  · intro far s0 s1
    refine ⟨fun engs => ?_, _, rfl, fun kv => mem_kept_lines kv⟩
    have none : s0.engs = [] := engs
    change State.loseEngs _ _ _ = _
    rw [State.loseEngs, show ({ s0 with crews := s0.crews.map (fun kv => (kv.1, s0.loseLoads far cPOISON kv.2)) } : State).engs = [] from none]
    rfl
  · exact if_neg (Nat.not_lt.2 trained)
  · change execPeerAccessRequest rank (.read pa len) s = _
    rw [execPeerAccessRequest, if_neg (by simp [valid, other]), if_pos present]
  · change execPeerAccessRequest rank (.write pa bs) s = _
    rw [execPeerAccessRequest, if_neg (by simp [valid, other]), if_pos present]
  · change execPeerAccessRequest rank (.atomic op 8 mode pa d d2) s = _
    rw [execPeerAccessRequest, if_neg (by simp [valid, other])]
    refine congrArg Host.Outcome.next (if_pos ?_)
    simp [listed, aligned, present]
  · change execPeerAccessRequest rank (.halo key team rows sig) s = _
    rw [execPeerAccessRequest, if_neg (by simp [valid, other])]
  · change execPeerAccessRequest rank (.read pa len) s = _
    rw [execPeerAccessRequest, if_neg (by simp [valid, other]), if_neg (by simp [absent])]
  · change execFabricTeardown ⟨line, level⟩ [(j, b)] s = _
    have inside : [(j, b)].filter (fun kv => decide (kv.1 < 128)) = [(j, b)] := by simp [hj]
    rw [execFabricTeardown, inside]
    rfl
  · intro rank reached lost wcb s1 q t
    have fresh : (if s.fab.unreachable.contains rank then s.fab.unreachable else s.fab.unreachable ++ [rank]) =
        s.fab.unreachable ++ [rank] := if_neg (by simpa using reached)
    refine ⟨?_, fun crews engs => ?_⟩
    · change execPeerUnreachable rank s = _
      rw [execPeerUnreachable, fresh]
      rfl
    · have held : q = (s1, []) := loseStores_idle (s := s1) crews _ cPOISON
      have kept : t = q.1.loseReads (fun y => y.1 == .peer && y.2 / 2 ^ 36 == rank) cPOISON := rfl
      rw [kept, held]
      exact ⟨loseReads_idle (s := s1) crews engs _ _, rfl⟩
  · exact if_neg (by simp [Nat.not_le.2 hcore, Nat.not_le.2 hbank, works])
  · intro c c'
    change execSoftError core bank (.line ln) s = _
    simp only [execSoftError]
    exact (if_neg (by simp [Nat.not_le.2 hcore, Nat.not_le.2 hbank, fresh])).trans (if_pos (by simp [fresh]))
  · change execSoftError core bank (.line ln) s = _
    have other : b ≠ bank := fun same => works (by simp [failed, same])
    simp only [execSoftError]
    exact (if_neg (by simp [Nat.not_le.2 hcore, Nat.not_le.2 hbank, failed, other])).trans (if_neg (by simp [failed]))
  · refine if_neg ?_
    simpa using idle
  · refine if_pos ?_
    simpa using placed

end Sys2Proof.Machine
end

section
/-! SUPPORT. Events of power, the fabric's ports, reset, bring-up and Milden complete (O54). -/

namespace Sys2Proof.Machine

variable {s : State} {g : Nat}

-- The clock of a cluster's allowance (R345).

/-- A core's request is an issue of that core's cluster. -/
theorem askOf_core {c : Nat} {l : List (Nat × Nat)} {q : PowerAsk} (asks : s.askOf g (.core c l) = some q) :
    c / 96 = g ∧ ∃ id n, q.ask = .issue (.crew id n) := by
  simp only [State.askOf] at asks
  split at asks
  · cases asks
  · next here =>
    split at asks
    · cases asks
      exact ⟨by simpa using here, _, _, rfl⟩
    · cases asks

/-- Without a request in the clock the allowance is refilled. -/
theorem clusterClock_refills (cluster : g < 32) (first : g ∉ s.power.asked) (xops : s.xopAsks g = []) (overdue : s.overdueCores g = [])
    (none : ∀ r ∈ s.power.withheld, reqCluster r ≠ g) :
    s.clusterClock g [] = { s with power := { s.power with
      allow := Tab.put s.power.allow g (s.refilled g), asked := g :: s.power.asked } } := by
  have mine : s.power.withheld.filter (fun r => reqCluster r == g) = [] := by simpa using none
  have others : s.power.withheld.filter (fun r => reqCluster r != g) = s.power.withheld := by simpa using none
  have standing : s.standing g [] = [] := by simp [State.standing, mine, overdue]
  have asks : s.asks g [] = [] := by simp [State.asks, xops]
  rw [State.clusterClock, if_neg (by simp [cluster, first])]
  simp only [State.holdAll, List.foldl_nil, standing, asks, grantAll, others, State.leftOf, List.filter_nil, List.append_nil, State.payMoves]
  rfl

/-- A core's one request in the clock is granted where the allowance pays for it, else withheld. -/
theorem clusterClock_asks (cluster : g < 32) (first : g ∉ s.power.asked) (xops : s.xopAsks g = []) (overdue : s.overdueCores g = [])
    (none : ∀ r ∈ s.power.withheld, reqCluster r ≠ g) {c : Nat} {l : List (Nat × Nat)} {q : PowerAsk}
    (stalled : (s.coreSt c).stalled = l.map (fun x => 2 * x.1 + x.2)) (request : s.askOf g (.core c l) = some q) :
    s.clusterClock g [.core c l] = { s with power := { s.power with
      allow := Tab.put s.power.allow g
        (if q.weight + (7 - q.pri) * pwaThr (s.pwaOf g) ≤ s.refilled g then s.refilled g - q.weight else s.refilled g)
      asked := g :: s.power.asked
      granted := s.power.granted ++ (if q.weight + (7 - q.pri) * pwaThr (s.pwaOf g) ≤ s.refilled g then [q.ask] else [])
      withheld := s.power.withheld ++
        (if q.weight + (7 - q.pri) * pwaThr (s.pwaOf g) ≤ s.refilled g then [] else [.core c l]) } } := by
  obtain ⟨here, id, n, issue⟩ := askOf_core request
  have mine : s.power.withheld.filter (fun r => reqCluster r == g) = [] := by simpa using none
  have others : s.power.withheld.filter (fun r => reqCluster r != g) = s.power.withheld := by simpa using none
  have held : s.holdAll g [.core c l] = s := by
    simp only [State.holdAll, List.foldl_cons, List.foldl_nil, State.holdSlots, stalled, if_true, ite_self]
  have standing : s.standing g [.core c l] = [.core c l] := by simp [State.standing, mine, overdue, addReq]
  have asks : s.asks g [.core c l] = [q] := by simp [State.asks, xops, request, insertAsk]
  rw [State.clusterClock, if_neg (by simp [cluster, first])]
  simp only [held, standing, asks, grantAll, others]
  by_cases pays : q.weight + (7 - q.pri) * pwaThr (s.pwaOf g) ≤ s.refilled g
  · have left : s.leftOf g [.core c l] [.issue (.crew id n)] = [] := by simp [State.leftOf, request, issue]
    simp only [if_neg (Nat.not_lt.2 pays), if_pos pays, left, State.payMoves, List.foldl_cons, List.foldl_nil, issue]
    rfl
  · have left : s.leftOf g [.core c l] [] = [.core c l] := by simp [State.leftOf, request]
    simp only [if_pos (Nat.not_le.1 pays), if_neg pays, left, State.payMoves, List.foldl_nil]
    rfl

/-- A cluster whose clocks all counted for one region charges that region its whole energy. -/
theorem energyInterval_charges {nj rk n : Nat} {r : Region} (cycles : Tab.get s.power.cycles g [] = [(rk, n)]) (some_ : 0 < n)
    (region : s.region rk = some r) (alone : r.state < 2 ∨ r.parent = none) (ended : Tab.get s.power.intervals g 0 < s.clock / 140000) :
    execEnergyInterval g nj s = .next ((s.updRegion rk (fun r => { r with energy := r.energy + nj })).setPower { s.power with
      cycles := Tab.put s.power.cycles g [], intervals := Tab.put s.power.intervals g (s.clock / 140000)
      idle := Tab.put s.power.idle g (Tab.get s.power.idle g 0) }) := by
  have whole : nj * n / n = nj := Nat.mul_div_cancel nj some_
  have up : (if 2 ≤ r.state then r.parent else none) = none := by
    rcases alone with live | top
    · exact if_neg (Nat.not_le.2 live)
    · rw [top, ite_self]
  have charged : State.charge 300 rk nj s = s.updRegion rk (fun r => { r with energy := r.energy + nj }) := by
    rw [State.charge]
    simp only [region, up]
  have kept : (s.updRegion rk (fun r => { r with energy := r.energy + nj })).power = s.power ∧
      (s.updRegion rk (fun r => { r with energy := r.energy + nj })).clock = s.clock := by
    rw [State.updRegion, show Tab.find s.regions rk = some r from region]
    exact ⟨rfl, rfl⟩
  rw [execEnergyInterval, if_neg (Nat.not_le.2 ended)]
  simp only [cycles, List.foldl_cons, List.foldl_nil, region, Option.isSome_some, if_true, Nat.zero_add, whole, charged, kept, Nat.sub_self,
    Nat.add_zero]

-- Bring-up.

/-- A sole word of a port decides which ports are accepted. -/
theorem acceptedPorts_one (p : Nat) (v : DWord) : acceptedPorts [(p, v)] = if capPass p v then [p] else [] := by
  cases pass : capPass p v <;> simp [acceptedPorts, pass]

/-- The first capability word while the ports train. -/
theorem capabilityWord_first {p : Nat} {v : DWord} (port : p < 72) (phase : s.port.phase = 5) (words : s.fab.words = [])
    (fenced : s.fab.fenced = []) :
    execCapabilityWord p v s = .next { s with fab := { s.fab with
      words := [(p, v)], ports := if capPass p v then [p] else [], fenced := if capPass p v then [] else [p]
      frank := if capPass p v then capRank v else s.fab.frank, rvalid := capPass p v } } := by
  have put : Tab.put s.fab.words p v = [(p, v)] := by
    rw [words]
    rfl
  rw [execCapabilityWord]
  refine (if_neg (by simp [phase, port, fenced])).trans ?_
  simp only [put, acceptedPorts_one, fenced]
  cases pass : capPass p v with
  | true => simp [Tab.get, Tab.find, State.setFab]
  | false => simp [State.setFab]

/-- Every link of a mask has trained where none has failed. -/
theorem trainedMask_all (failed : s.port.failed = []) (base : Nat) : s.trainedMask base = 0xFFFF := by
  simp only [State.trainedMask, failed, List.contains_nil, Bool.false_eq_true, if_false]
  decide

/-- A request that the mailbox answers joins the transcript with its answer. -/
theorem spdm_answers (answers : s.barUp = true) (code : Nat) (ops : List Byte) (a : List Byte → SpdmAnswer) :
    s.spdm code ops a = { s with mil := { s.mil with
      transcript := s.mil.transcript ++ Config.spdmBytes code ops
      answers := a (s.mil.transcript ++ Config.spdmBytes code ops) :: s.mil.answers } } := by
  rw [State.spdm, if_neg (by simp [answers])]
  rfl

/-- Settles O54: each event's condition and effect. -/
theorem platformEventsComplete : Obligations.PlatformEventsComplete := by
  unfold Obligations.PlatformEventsComplete
  intro s
  refine ⟨fun g v cluster => ⟨?_, ?_, fun quiet free => ?_, fun i slice window => ?_, fun asked reqs => ?_,
      fun first xops overdue none => ⟨congrArg Host.Outcome.next (clusterClock_refills cluster first xops overdue none),
        fun c l q stalled request => congrArg Host.Outcome.next (clusterClock_asks cluster first xops overdue none stalled request)⟩,
      fun nj rk n r cycles some_ region alone ended => ⟨_, energyInterval_charges cycles some_ region alone ended, rfl, rfl⟩⟩,
    fun n g group => ⟨?_, fun period => ?_, fun t ends over_ => ?_⟩, fun p port works => ?_, fun rank us p port sends low high => ?_,
    fun rank => rfl, fun rank t aside over_ => ?_, fun p v port phase words fenced => capabilityWord_first port phase words fenced,
    fun p v fenced => ?_, ?_, fun phase => ?_, fun phase => ?_, fun phase failed => ?_, fun phase up => ?_, fun phase => ?_,
    fun phase down late works => ?_, fun which image sig up three => ?_, fun version sig => ?_, ?_, fun up phase => ?_⟩
  · change execPowerAllowanceWrite g true v s = _
    rw [execPowerAllowanceWrite, if_neg (Nat.not_le.2 cluster), if_pos rfl]
    rfl
  · change execPowerAllowanceWrite g false v s = _
    rw [execPowerAllowanceWrite, if_neg (Nat.not_le.2 cluster), if_neg Bool.false_ne_true]
    rfl
  · exact if_neg (by simp [cluster, quiet, free])
  · exact if_neg (by simp [cluster, slice, window])
  · change Host.Outcome.next (s.clusterClock g reqs) = _
    rw [State.clusterClock, if_pos (by simp [asked])]
  · intro r v members x
    change execSlackReport n [(r, x)] s = _
    simp only [execSlackReport, group, members, List.map_cons, List.map_nil, List.find?_cons, beq_self_eq_true]
    rfl
  · change execPaceUpdate n s = _
    simp only [execPaceUpdate, group]
    exact if_neg (Nat.not_lt.2 period)
  · change execGroupEnd n s = _
    simp only [execGroupEnd, group, ends, if_pos over_]
    rfl
  · change execPortFence p s = _
    have fresh : (if s.fab.fenced.contains p then s.fab.fenced else s.fab.fenced ++ [p]) = s.fab.fenced ++ [p] := if_neg (by simpa using works)
    rw [execPortFence, if_neg (Nat.not_le.2 port), fresh]
    rfl
  · change execSetAsideNotice rank us s = _
    have sends : s.fab.ports.any (fun p => (Tab.get s.fab.words p 0).getLsbD 35) = true := List.any_eq_true.2 ⟨p, port, sends⟩
    rw [execSetAsideNotice, sends]
    exact if_neg (by simp [Nat.one_le_iff_ne_zero.1 low, high])
  · change execSetAsideExpiry rank s = _
    simp only [execSetAsideExpiry, aside, if_pos over_]
    rfl
  · exact if_pos (by simp [fenced])
  · change execDeviceReset s = _
    rw [execDeviceReset]
    cases s.beforeReset.afterReset.loadImages [0] with
    | none => rfl
    | some t => rfl
  · change execPhaseAdvance s = _
    simp only [execPhaseAdvance, phase]
    cases s.loadImages [0] with
    | none => rfl
    | some t => rfl
  · change execPhaseAdvance s = _
    simp only [execPhaseAdvance, phase]
    cases s.loadImages [1, 2] with
    | none => rfl
    | some t => rfl
  · change execPhaseAdvance s = _
    simp only [execPhaseAdvance, phase, trainedMask_all failed]
    exact congrArg Host.Outcome.next (if_pos (by decide))
  · change execPhaseAdvance s = _
    simp only [execPhaseAdvance, phase]
    exact congrArg Host.Outcome.next (if_pos (by simp [up]))
  · have advance : ∃ f, execPhaseAdvance s = .next ((State.setPort (s.setFab f) { s.port with ready := true }).toPhase 6) := by
      simp only [execPhaseAdvance, phase]
      exact ⟨_, rfl⟩
    obtain ⟨f, advance⟩ := advance
    exact ⟨_, advance, rfl⟩
  · change execLinkTrainingTimeout 32 s = _
    rw [execLinkTrainingTimeout]
    refine (if_neg ?_).trans (if_neg (by decide))
    simp [phase, phaseLinks, down, late, works]
  · intro good
    change execFirmwareUpdate which image sig s = _
    rw [execFirmwareUpdate]
    refine (if_neg (by simp [up, three])).trans ?_
    cases s.mil.imageOk image sig with
    | false => rfl
    | true => rfl
  · intro key
    change execSecurityVersionRaise version sig s = _
    simp only [execSecurityVersionRaise, Bool.and_eq_true, decide_eq_true_eq, beq_iff_eq, and_assoc]
    exact (apply_ite Host.Outcome.next _ _ _).symm
  · intro s1
    change execMildenReset s = _
    change (match s1.loadImages [0] with
      | some s => Host.Outcome.next s
      | none => .next s1.recover) = _
    cases s1.loadImages [0] with
    | none => rfl
    | some t => rfl
  · intro got
    have answers : s.barUp = true := barUp_of up phase
    refine ⟨?_, ?_, ?_, ?_, fun off len inside => ?_, fun nonce => ?_, fun nonce => ?_, fun code => ?_⟩
    · exact congrArg Host.Outcome.next (spdm_answers (s := s.setMil { s.mil with transcript := [] }) answers _ _ _)
    · exact congrArg Host.Outcome.next (spdm_answers answers _ _ _)
    · exact congrArg Host.Outcome.next (spdm_answers answers _ _ _)
    · exact congrArg Host.Outcome.next (spdm_answers answers _ _ _)
    · refine (congrArg Host.Outcome.next (spdm_answers answers _ _ _)).trans ?_
      rw [if_neg (by simpa using inside)]
    · rfl
    · rfl
    · exact congrArg Host.Outcome.next (spdm_answers answers _ _ _)

end Sys2Proof.Machine
end

section
/-! SUPPORT. Images of elements in registers (R170): what elements a list of registers holds, and what registers a list of
elements fills. For the values of the words of derived operands (O60). -/

namespace Sys2Proof.Machine

-- Digits.

/-- A number of `n` digits of `b` bits, the first lowest. -/
def ofDigits (b : Nat) (x : Nat → Nat) (n : Nat) : Nat := (List.range n).foldl (fun a j => a + x j * 2 ^ (b * j)) 0

theorem ofDigits_succ (b : Nat) (x : Nat → Nat) (n : Nat) : ofDigits b x (n + 1) = ofDigits b x n + x n * 2 ^ (b * n) := by
  simp [ofDigits, List.range_succ]

theorem ofDigits_lt {b : Nat} {x : Nat → Nat} {n : Nat} (small : ∀ j, j < n → x j < 2 ^ b) : ofDigits b x n < 2 ^ (b * n) := by
  induction n with
  | zero => simp [ofDigits]
  | succ n ih =>
    have low : ofDigits b x n < 2 ^ (b * n) := ih (fun j hj => small j (by omega))
    have top : (x n + 1) * 2 ^ (b * n) ≤ 2 ^ b * 2 ^ (b * n) := Nat.mul_le_mul_right _ (small n (by omega))
    rw [ofDigits_succ, Nat.mul_succ, Nat.pow_add, Nat.mul_comm (2 ^ (b * n))]
    rw [Nat.add_mul] at top
    omega

/-- A digit of a number. -/
theorem bits_ofDigits {b : Nat} {x : Nat → Nat} {n i : Nat} (small : ∀ j, j < n → x j < 2 ^ b) (hi : i < n) :
    bits (ofDigits b x n) (b * i) b = x i := by
  induction n with
  | zero => omega
  | succ n ih =>
    have low : ∀ j, j < n → x j < 2 ^ b := fun j hj => small j (by omega)
    rw [ofDigits_succ, bits, Nat.shiftRight_eq_div_pow]
    rcases Nat.lt_succ_iff_lt_or_eq.1 hi with before | rfl
    · have split : 2 ^ (b * n) = 2 ^ (b * i) * (2 ^ b * 2 ^ (b * (n - i - 1))) := by
        rw [← Nat.pow_add, ← Nat.pow_add]
        congr 1
        obtain ⟨k, rfl⟩ : ∃ k, n = i + 1 + k := ⟨n - i - 1, by omega⟩
        rw [show i + 1 + k - i - 1 = k from by omega]
        grind
      rw [split, ← Nat.mul_assoc, Nat.mul_comm (x n), Nat.mul_assoc, Nat.add_mul_div_left _ _ (Nat.two_pow_pos _), Nat.mul_left_comm,
        Nat.add_mul_mod_self_left, ← Nat.shiftRight_eq_div_pow]
      exact ih low before
    · rw [Nat.add_mul_div_right _ _ (Nat.two_pow_pos _), Nat.div_eq_of_lt (ofDigits_lt low), Nat.zero_add]
      exact Nat.mod_eq_of_lt (small i (by omega))

theorem bits_lt (v lo n : Nat) : bits v lo n < 2 ^ n := Nat.mod_lt _ (Nat.two_pow_pos _)

theorem bits_eq_div (v lo n : Nat) : bits v lo n = v / 2 ^ lo % 2 ^ n := by rw [bits, Nat.shiftRight_eq_div_pow]

-- Lists of equal parts.

/-- An entry of parts of equal length. -/
theorem getD_flatMap_range {α β : Type} (f : α → Nat → β) (n : Nat) {rs : List α} {d : α} {e : β} {q i : Nat} (hq : q < rs.length)
    (hi : i < n) : (rs.flatMap (fun r => (List.range n).map (f r))).getD (q * n + i) e = f (rs.getD q d) i := by
  induction rs generalizing q with
  | nil => simp at hq
  | cons r t ih =>
    rw [List.flatMap_cons]
    cases q with
    | zero =>
      rw [Nat.zero_mul, Nat.zero_add, getD_append_left _ _ _ _ (by simpa using hi)]
      simp [List.getD, hi]
    | succ q =>
      rw [getD_append_right _ _ _ _ (by rw [List.length_map, List.length_range, Nat.add_mul, Nat.one_mul]; omega)]
      have next : (q + 1) * n + i - ((List.range n).map (f r)).length = q * n + i := by
        rw [List.length_map, List.length_range, Nat.succ_mul]
        omega
      rw [next, ih (by simpa using hq)]
      rfl

-- Slots.

/-- Widths of an element's slot in a register image. -/
abbrev SlotWidth (sb : Nat) : Prop := sb ∈ [4, 8, 16, 32, 64]

theorem slotWidth_cases {sb : Nat} (slot : SlotWidth sb) : sb = 64 ∨ sb ≠ 64 ∧ sb * (32 / sb) = 32 ∧ 0 < 32 / sb := by
  simp only [SlotWidth, List.mem_cons, List.not_mem_nil, or_false] at slot
  rcases slot with rfl | rfl | rfl | rfl | rfl <;> decide

theorem slotWidth_slotBits (f : Nat) : SlotWidth (slotBits f) := by
  have counts : epr f = 1 ∨ epr f = 2 ∨ epr f = 8 ∨ epr f = 0 ∨ epr f = 4 := by
    unfold epr
    split
    · exact .inl rfl
    · split
      · exact .inr (.inl rfl)
      · split
        · exact .inr (.inr (.inl rfl))
        · split
          · exact .inr (.inr (.inr (.inl rfl)))
          · exact .inr (.inr (.inr (.inr rfl)))
  unfold slotBits
  split
  · decide
  · rcases counts with h | h | h | h | h <;> rw [h] <;> decide

-- Pairs of registers.

theorem pairUp_getD {rs : List Nat} {j : Nat} (hj : 2 * j + 1 < rs.length) :
    (pairUp rs).getD j 0 = rs.getD (2 * j) 0 + 2 ^ 32 * rs.getD (2 * j + 1) 0 := by
  induction j generalizing rs with
  | zero =>
    match rs, hj with
    | a :: b :: t, _ => rfl
  | succ j ih =>
    match rs, hj with
    | a :: b :: t, hj =>
      rw [pairUp, List.getD_cons_succ, ih (by rw [List.length_cons, List.length_cons] at hj; omega)]
      rfl

theorem length_pairUp (rs : List Nat) : (pairUp rs).length = rs.length / 2 := by
  match rs with
  | [] => rfl
  | [_] => simp [pairUp]
  | _ :: _ :: t =>
    rw [pairUp, List.length_cons, length_pairUp t, List.length_cons, List.length_cons]
    omega

theorem pairUp_lt {rs : List Nat} (small : ∀ x ∈ rs, x < 2 ^ 32) : ∀ x ∈ pairUp rs, x < 2 ^ 64 := by
  match rs with
  | [] => simp [pairUp]
  | [_] => simp [pairUp]
  | a :: b :: t =>
    intro x hx
    rw [pairUp, List.mem_cons] at hx
    rcases hx with rfl | later
    · have := small a (by simp)
      have := small b (by simp)
      omega
    · exact pairUp_lt (fun y hy => small y (by simp [hy])) x later

-- Elements of registers.

theorem length_elemsOf {sb : Nat} (rs : List Nat) : (elemsOf sb rs).length = if sb = 64 then rs.length / 2 else rs.length * (32 / sb) := by
  unfold elemsOf
  split
  · exact length_pairUp rs
  · simp [List.map_const']

theorem elemsOf_getD {sb : Nat} (narrow : sb ≠ 64) (some_ : 0 < 32 / sb) {rs : List Nat} {j : Nat} (hj : j / (32 / sb) < rs.length) :
    (elemsOf sb rs).getD j 0 = bits (rs.getD (j / (32 / sb)) 0) (sb * (j % (32 / sb))) sb := by
  rw [elemsOf, if_neg narrow]
  have place : j = j / (32 / sb) * (32 / sb) + j % (32 / sb) := by rw [Nat.mul_comm, Nat.div_add_mod]
  conv => lhs; rw [place]
  exact getD_flatMap_range (fun r i => bits r (sb * i) sb) _ hj (Nat.mod_lt _ some_)

theorem elemsOf_lt {sb : Nat} {rs : List Nat} (small : ∀ x ∈ rs, x < 2 ^ 32) : ∀ x ∈ elemsOf sb rs, x < 2 ^ sb := by
  intro x hx
  unfold elemsOf at hx
  split at hx
  · next wide => exact wide ▸ pairUp_lt small x hx
  · obtain ⟨r, -, hx⟩ := List.mem_flatMap.1 hx
    obtain ⟨i, -, rfl⟩ := List.mem_map.1 hx
    exact bits_lt _ _ _

/-- An entry of a list of small numbers is small, and so is one past its end. -/
theorem getD_lt {b : Nat} {xs : List Nat} (small : ∀ x ∈ xs, x < 2 ^ b) (j : Nat) : xs.getD j 0 < 2 ^ b := by
  rw [List.getD]
  cases found : xs[j]? with
  | none => exact Nat.two_pow_pos _
  | some x => exact small x (List.mem_of_getElem? found)

-- Registers of elements.

theorem length_regsOfElems (sb : Nat) (es : List Nat) :
    (regsOfElems sb es).length = if sb = 64 then 2 * es.length else ceilDiv es.length (32 / sb) := by
  unfold regsOfElems
  split
  · simp [List.map_const', Nat.mul_comm]
  · simp

theorem regsOfElems_narrow {sb : Nat} (narrow : sb ≠ 64) {es : List Nat} {q : Nat} (hq : q < (regsOfElems sb es).length) :
    (regsOfElems sb es).getD q 0 = ofDigits sb (fun i => es.getD (q * (32 / sb) + i) 0 % 2 ^ sb) (32 / sb) := by
  rw [length_regsOfElems, if_neg narrow] at hq
  rw [regsOfElems, if_neg narrow]
  simp [List.getD, hq, ofDigits]

theorem regsOfElems_wide {es : List Nat} {j : Nat} (hj : j < es.length) :
    (regsOfElems 64 es).getD (2 * j) 0 = es.getD j 0 % 2 ^ 32 ∧ (regsOfElems 64 es).getD (2 * j + 1) 0 = es.getD j 0 / 2 ^ 32 % 2 ^ 32 := by
  have parts : regsOfElems 64 es = es.flatMap (fun e => (List.range 2).map (fun i => e / 2 ^ (32 * i) % 2 ^ 32)) := by
    rw [regsOfElems, if_pos rfl]
    exact flatMap_ext (fun e _ => by simp [List.range_succ])
  rw [parts, Nat.mul_comm 2 j]
  have low := getD_flatMap_range (fun e i => e / 2 ^ (32 * i) % 2 ^ 32) 2 (d := 0) (e := 0) hj (show 0 < 2 by omega)
  have high := getD_flatMap_range (fun e i => e / 2 ^ (32 * i) % 2 ^ 32) 2 (d := 0) (e := 0) hj (show 1 < 2 by omega)
  exact ⟨by simpa using low, by simpa using high⟩

theorem regsOfElems_lt {sb : Nat} (slot : SlotWidth sb) (es : List Nat) : ∀ x ∈ regsOfElems sb es, x < 2 ^ 32 := by
  intro x hx
  rcases slotWidth_cases slot with rfl | ⟨narrow, whole, -⟩
  · rw [regsOfElems, if_pos rfl] at hx
    obtain ⟨e, -, hx⟩ := List.mem_flatMap.1 hx
    simp only [List.mem_cons, List.not_mem_nil, or_false] at hx
    rcases hx with rfl | rfl <;> exact Nat.mod_lt _ (by decide)
  · rw [regsOfElems, if_neg narrow] at hx
    obtain ⟨q, -, rfl⟩ := List.mem_map.1 hx
    have small := ofDigits_lt (b := sb) (x := fun i => es.getD (q * (32 / sb) + i) 0 % 2 ^ sb) (n := 32 / sb)
      (fun j _ => Nat.mod_lt _ (Nat.two_pow_pos _))
    rw [whole] at small
    exact small

/-- A register that an element of a list lies in is one of the list's registers. -/
theorem place_lt_ceilDiv {j len n : Nat} (hj : j < len) (some_ : 0 < n) : j / n < ceilDiv len n := by
  have := Nat.div_add_mod j n
  rw [ceilDiv, Nat.lt_div_iff_mul_lt some_]
  have : j / n * n ≤ j := Nat.div_mul_le_self j n
  omega

/-- Registers that hold the image of elements give the elements back, with the bits of their slots. -/
theorem elemsOf_image {sb : Nat} (slot : SlotWidth sb) {es ws : List Nat}
    (image : ∀ i, i < (regsOfElems sb es).length → ws.getD i 0 = (regsOfElems sb es).getD i 0)
    (room : (regsOfElems sb es).length ≤ ws.length) {j : Nat} (hj : j < es.length) :
    (elemsOf sb ws).getD j 0 = es.getD j 0 % 2 ^ sb := by
  rcases slotWidth_cases slot with rfl | ⟨narrow, -, some_⟩
  · have size : (regsOfElems 64 es).length = 2 * es.length := by rw [length_regsOfElems, if_pos rfl]
    obtain ⟨low, high⟩ := regsOfElems_wide hj
    rw [elemsOf, if_pos rfl, pairUp_getD (by omega), image (2 * j) (by omega), image (2 * j + 1) (by omega), low, high]
    omega
  · have here : j / (32 / sb) < (regsOfElems sb es).length := by
      rw [length_regsOfElems, if_neg narrow]
      exact place_lt_ceilDiv hj some_
    rw [elemsOf_getD narrow some_ (by omega), image _ here, regsOfElems_narrow narrow here,
      bits_ofDigits (fun i _ => Nat.mod_lt _ (Nat.two_pow_pos _)) (Nat.mod_lt _ some_), Nat.mul_comm, Nat.div_add_mod]

-- Registers as one number.

theorem joinRegs_lt {rs : List Nat} (small : ∀ x ∈ rs, x < 2 ^ 32) : joinRegs rs < 2 ^ (32 * rs.length) := by
  induction rs with
  | nil => simp [joinRegs]
  | cons r t ih =>
    have head := small r (by simp)
    have tail := ih (fun x hx => small x (by simp [hx]))
    rw [joinRegs, List.length_cons, Nat.mul_succ, Nat.pow_add, Nat.mul_comm (2 ^ (32 * t.length))]
    have : 2 ^ 32 * (joinRegs t + 1) ≤ 2 ^ 32 * 2 ^ (32 * t.length) := Nat.mul_le_mul_left _ tail
    omega

/-- A register of a number of registers. -/
theorem bits_joinRegs {rs : List Nat} (small : ∀ x ∈ rs, x < 2 ^ 32) (i : Nat) : bits (joinRegs rs) (32 * i) 32 = rs.getD i 0 := by
  induction rs generalizing i with
  | nil => simp [joinRegs, bits]
  | cons r t ih =>
    have head := small r (by simp)
    rw [joinRegs]
    cases i with
    | zero =>
      rw [bits_eq_div, Nat.mul_zero, Nat.pow_zero, Nat.div_one, Nat.add_mul_mod_self_left, Nat.mod_eq_of_lt head]
      rfl
    | succ i =>
      rw [List.getD_cons_succ, ← ih (fun x hx => small x (by simp [hx])), bits_eq_div, bits_eq_div, Nat.mul_succ, Nat.add_comm (32 * i),
        Nat.pow_add, ← Nat.div_div_eq_div_mul, Nat.add_mul_div_left _ _ (by decide), Nat.div_eq_of_lt head, Nat.zero_add]

/-- Splitting a number into registers keeps its bits in their range. -/
theorem joinRegs_splitRegs (m n : Nat) : joinRegs (splitRegs m n) = n % 2 ^ (32 * m) := by
  induction m generalizing n with
  | zero => simp [splitRegs, joinRegs, Nat.mod_one]
  | succ m ih =>
    have shift : (List.range m).map (fun i => bits n (32 * (i + 1)) 32) = splitRegs m (n / 2 ^ 32) := by
      refine List.map_congr_left (fun i _ => ?_)
      rw [bits_eq_div, bits_eq_div, Nat.div_div_eq_div_mul, ← Nat.pow_add, Nat.mul_succ, Nat.add_comm 32]
    rw [splitRegs, List.range_succ_eq_map, List.map_cons, List.map_map, joinRegs]
    change bits n 0 32 + 2 ^ 32 * joinRegs ((List.range m).map (fun i => bits n (32 * (i + 1)) 32)) = _
    rw [shift, ih, Nat.mul_succ, Nat.add_comm (32 * m), Nat.pow_add, Nat.mod_mul, bits_eq_div, Nat.pow_zero, Nat.div_one]

end Sys2Proof.Machine
end

section
/-! SUPPORT. Rounded results lie in the bits of their formats (R71, R84, R85, R182), Grist blocks in the bytes of theirs (R76),
and integers are read and wrapped as numbers of their width (R150). For the values of the words of derived operands (O60). -/

namespace Sys2Proof.Machine

-- Formats.

/-- What the fields of a format keep: the greatest finite value lies below the top of the exponent field. -/
structure FFmt.Sound (t : FFmt) : Prop where
  top : t.emax + t.bias + 1 ≤ 2 ^ t.ebits
  low : 0 ≤ t.emax + t.bias
  sig : t.maxN < 2 ^ t.prec

theorem ffmt_sound (f : Nat) : (ffmt f).Sound := by
  unfold ffmt
  repeat' split
  all_goals exact ⟨by decide, by decide, by decide⟩

/-- A format's element, its sign included, lies in its slot. -/
theorem signAt_lt_slotBits (f : Nat) : (ffmt f).signAt + 1 ≤ slotBits f := by
  have slots := slotWidth_slotBits f
  unfold ffmt
  repeat' split
  iterate 8
    · next same =>
      subst same
      decide
  · have : slotBits f ≠ 0 → 4 ≤ slotBits f := by
      simp only [SlotWidth, List.mem_cons, List.not_mem_nil, or_false] at slots
      omega
    refine this ?_
    rintro zero
    rw [zero] at slots
    revert slots
    decide

theorem two_pow_signAt_le (f : Nat) : 2 ^ ((ffmt f).signAt + 1) ≤ 2 ^ slotBits f := Nat.pow_le_pow_right (by decide) (signAt_lt_slotBits f)

theorem withSign_lt {f mag : Nat} (neg : Bool) (small : mag < 2 ^ (ffmt f).signAt) : withSign f neg mag < 2 ^ ((ffmt f).signAt + 1) := by
  rw [withSign, Nat.pow_succ]
  split <;> omega

/-- The bits of a finite magnitude in range lie below the sign. -/
theorem magBits_lt {t : FFmt} (sound : t.Sound) {n : Nat} {q : Int} (hn : n ≤ 2 ^ t.prec) (hq : q ≤ t.emax - t.fbits)
    (last : q = t.emax - t.fbits → n ≤ t.maxN) : magBits t n q < 2 ^ t.signAt := by
  obtain ⟨top, low, sig⟩ := sound
  have whole : 2 ^ t.signAt = 2 ^ t.ebits * 2 ^ t.fbits := by rw [FFmt.signAt, Nat.pow_add]
  have field : ∀ x : Int, x ≤ t.emax - t.fbits → (x + t.fbits + t.bias).toNat + 1 ≤ 2 ^ t.ebits := by
    intro x hx
    have : (((x + t.fbits + t.bias).toNat + 1 : Nat) : Int) ≤ ((2 ^ t.ebits : Nat) : Int) := by
      push_cast
      omega
    exact_mod_cast this
  have bound : ∀ x : Int, x ≤ t.emax - t.fbits → ∀ y, y < 2 ^ t.fbits → (x + t.fbits + t.bias).toNat * 2 ^ t.fbits + y < 2 ^ t.signAt := by
    intro x hx y hy
    have := Nat.mul_le_mul_right (2 ^ t.fbits) (field x hx)
    rw [Nat.succ_mul] at this
    omega
  have half : 2 ^ t.prec = 2 * 2 ^ t.fbits := by rw [FFmt.prec, Nat.pow_succ, Nat.mul_comm]
  rw [magBits]
  by_cases carry : n = 2 ^ t.prec
  · simp only [if_pos carry, Nat.lt_irrefl, if_false, Nat.sub_self]
    refine bound (q + 1) ?_ 0 (Nat.two_pow_pos _)
    have : q ≠ t.emax - t.fbits := fun same => by
      have := last same
      omega
    omega
  · simp only [if_neg carry]
    split
    · rw [whole]
      have := Nat.le_mul_of_pos_left (2 ^ t.fbits) (Nat.two_pow_pos t.ebits)
      omega
    · exact bound q hq _ (by omega)

theorem largest_lt (f : Nat) (neg : Bool) : largest f neg < 2 ^ ((ffmt f).signAt + 1) := by
  obtain ⟨top, low, sig⟩ := ffmt_sound f
  exact withSign_lt neg (magBits_lt (ffmt_sound f) (Nat.le_of_lt sig) (Int.le_refl _) (fun _ => Nat.le_refl _))

theorem infBits_lt (f : Nat) (neg : Bool) : infBits f neg < 2 ^ ((ffmt f).signAt + 1) := by
  refine withSign_lt neg ?_
  rw [FFmt.signAt, Nat.pow_add]
  exact Nat.mul_lt_mul_of_pos_right (Nat.sub_lt (Nat.two_pow_pos _) (by decide)) (Nat.two_pow_pos _)

theorem canonNaN_lt {f : Nat} (float : f ≠ fmtE8M0) : canonNaN f < 2 ^ ((ffmt f).signAt + 1) := by
  unfold canonNaN
  repeat' split
  iterate 6
    · next same =>
      subst same
      decide
  · exact Nat.two_pow_pos _

-- Rounding.

theorem lt_two_pow_bitLen {m : Nat} : m < 2 ^ bitLen m := by
  unfold bitLen
  split
  · next zero => simp [zero]
  · exact Nat.lt_log2_self

/-- A magnitude of `k` bits rounds into `p` bits, or to the power above. -/
theorem roundQ_le {mode m d k p : Nat} {neg st : Bool} {e q : Int} (hm : m < 2 ^ k) (fits : (k : Int) + e ≤ p + q) :
    (roundQ mode neg m e st q d).1 ≤ 2 ^ p := by
  rw [roundQ]
  split
  · next above =>
    obtain ⟨x, hx⟩ : ∃ x : Nat, e - q = x := ⟨(e - q).toNat, by omega⟩
    rw [hx, Int.toNat_natCast]
    calc m * 2 ^ x ≤ 2 ^ k * 2 ^ x := Nat.mul_le_mul_right _ (Nat.le_of_lt hm)
      _ = 2 ^ (k + x) := (Nat.pow_add _ _ _).symm
      _ ≤ 2 ^ p := Nat.pow_le_pow_right (by decide) (by omega)
  · obtain ⟨x, hx⟩ : ∃ x : Nat, q - e = x := ⟨(q - e).toNat, by omega⟩
    have below : m / 2 ^ x < 2 ^ p := by
      rw [Nat.div_lt_iff_lt_mul (Nat.two_pow_pos _), ← Nat.pow_add]
      exact Nat.lt_of_lt_of_le hm (Nat.pow_le_pow_right (by decide) (by omega))
    have step (up : Bool) : (if up then m / 2 ^ x + 1 else m / 2 ^ x) ≤ 2 ^ p := by split <;> omega
    simp only [hx, Int.toNat_natCast]
    exact step _

theorem overflowBits_lt (f : Nat) (c : Rnd) (neg : Bool) : overflowBits f c neg < 2 ^ ((ffmt f).signAt + 1) := by
  unfold overflowBits
  repeat' split
  · exact largest_lt f neg
  · exact largest_lt f neg
  · exact infBits_lt f neg
  · next same =>
    subst same
    decide
  · exact largest_lt f neg

theorem encInf_lt (f : Nat) (sat neg : Bool) : encInf f sat neg < 2 ^ ((ffmt f).signAt + 1) := by
  unfold encInf
  repeat' split
  · exact largest_lt f neg
  · exact infBits_lt f neg
  · next same =>
    subst same
    decide
  · exact largest_lt f neg

theorem roundFin_lt (f : Nat) (c : Rnd) (d : Nat) (neg : Bool) (m : Nat) (e : Int) (st : Bool) :
    (roundFin f c d neg m e st).1 < 2 ^ ((ffmt f).signAt + 1) := by
  rw [roundFin]
  split
  · exact withSign_lt neg (Nat.two_pow_pos _)
  · generalize (if m = 0 then (1, e - 1) else (m, e) : Nat × Int) = x
    dsimp only
    split
    · exact withSign_lt neg (Nat.two_pow_pos _)
    · split
      · exact overflowBits_lt f c neg
      · next range =>
        simp only [Bool.or_eq_true, decide_eq_true_eq, Bool.and_eq_true, not_or, not_and, Int.not_lt, Nat.not_lt] at range
        obtain ⟨below, last⟩ := range
        refine withSign_lt neg (magBits_lt (ffmt_sound f) ?_ below (fun same => last same.symm))
        refine roundQ_le lt_two_pow_bitLen ?_
        rw [FFmt.prec, expOf]
        push_cast
        omega

/-- A rounded result lies in the bits of its format. -/
theorem roundTo_lt {f : Nat} (float : f ≠ fmtE8M0) (c : Rnd) (d : Nat) (v : Val) : (roundTo f c d v).1 < 2 ^ slotBits f := by
  refine Nat.lt_of_lt_of_le ?_ (two_pow_signAt_le f)
  cases v with
  | nan s => exact canonNaN_lt float
  | inf n => exact encInf_lt f c.sat n
  | fin n m e st => exact roundFin_lt f c d n m e st

theorem roundE8M0_lt (c : Rnd) (d : Nat) (v : Val) : (roundE8M0 c d v).1 < 2 ^ slotBits fmtE8M0 := by
  change _ < 2 ^ 8
  have last (r : Int) (fl fl' : Flags) :
      (if 127 < r then (if c.sat then 0xFE else 0xFF, fl) else ((r + 127).toNat, fl') : Nat × Flags).1 < 2 ^ 8 := by
    split
    · dsimp only
      cases c.sat <;> decide
    · dsimp only
      omega
  unfold roundE8M0
  split
  · decide
  · decide
  · cases c.sat <;> decide
  · split
    · decide
    · generalize (if _ = 0 then (1, _ - 1) else (_, _) : Nat × Int) = x
      dsimp only
      split
      · decide
      · exact last _ _ _

theorem wrapInt_lt (w : Nat) (x : Int) : wrapInt w x < 2 ^ w := by
  have := Int.emod_lt_of_pos x (show (0 : Int) < ((2 ^ w : Nat) : Int) by exact_mod_cast Nat.two_pow_pos w)
  rw [wrapInt]
  omega

theorem roundInt_lt (w : Nat) (sgn : Bool) (c : Rnd) (d : Nat) (v : Val) : (roundInt w sgn c d v).1 < 2 ^ w := by
  have clipped (lo hi r : Int) (fl : Flags) : (if r < lo then (wrapInt w lo, flNV) else if hi < r then (wrapInt w hi, flNV)
      else (wrapInt w r, fl) : Nat × Flags).1 < 2 ^ w := by
    split
    · exact wrapInt_lt _ _
    · split <;> exact wrapInt_lt _ _
  cases v with
  | nan s => exact Nat.two_pow_pos _
  | inf n => exact wrapInt_lt _ _
  | fin neg m e st => exact clipped _ _ _ _

/-- A conversion's result lies in the slot of its format. -/
theorem convertTo_lt (f : Nat) (sgn : Bool) (c : Rnd) (d : Nat) (v : Val) : (convertTo f sgn c d v).1 < 2 ^ slotBits f := by
  rw [convertTo]
  split
  · exact roundInt_lt _ _ _ _ _
  · split
    · next scale => exact scale ▸ roundE8M0_lt c d v
    · next float => exact roundTo_lt float c d v

-- Minimum and maximum.

theorem flushIn_lt {f x : Nat} (ftz : Bool) (small : x < 2 ^ slotBits f) : flushIn f ftz x < 2 ^ slotBits f := by
  rw [flushIn]
  split
  · exact Nat.lt_of_lt_of_le (withSign_lt _ (Nat.two_pow_pos _)) (two_pow_signAt_le f)
  · exact small

theorem minMax_lt {f a b : Nat} (float : f ≠ fmtE8M0) (mx ftz : Bool) (ha : a < 2 ^ slotBits f) (hb : b < 2 ^ slotBits f) :
    (minMax mx f ftz a b).1 < 2 ^ slotBits f := by
  rw [minMax]
  split
  · exact Nat.lt_of_lt_of_le (canonNaN_lt float) (two_pow_signAt_le f)
  · split
    · exact flushIn_lt ftz hb
    · split
      · exact flushIn_lt ftz ha
      · split
        · exact flushIn_lt ftz ha
        · exact flushIn_lt ftz hb

-- Grist blocks (R76, R79).

theorem foldl_range_scaled (a b : Nat) (x : Nat → Nat) (n : Nat) :
    (List.range n).foldl (fun t i => t + x i * 2 ^ (a + b * i)) 0 = 2 ^ a * ofDigits b x n := by
  induction n with
  | zero => simp [ofDigits]
  | succ n ih =>
    rw [List.range_succ, List.foldl_append, ih, ofDigits_succ, List.foldl_cons, List.foldl_nil, Nat.pow_add]
    grind

theorem gristExp_le {k : Nat} {mx : Val} {fuel E e : Nat} (found : gristExp k mx fuel E = some e) : e < E + fuel := by
  induction fuel generalizing E with
  | zero => cases found
  | succ n ih =>
    rw [gristExp] at found
    split at found
    · cases found
      omega
    · have := ih found
      omega

theorem gristElem_le (k : Nat) (c : Rnd) (q : Int) (d : Nat) (x : Val) : (gristElem k c q d x).2.1 ≤ gristMax k := by
  cases x with
  | nan _ => exact Nat.zero_le _
  | inf _ => exact Nat.zero_le _
  | fin neg m e st => exact Nat.min_le_right _ _

/-- A Grist block lies in its bytes. -/
theorem gristEncode_lt (f : Nat) (c : Rnd) (ds : List Nat) (xs : List Val) : (gristEncode f c ds xs).1 < 2 ^ (8 * gristBytes f) := by
  have size : 8 * gristBytes f = 16 + (gristK f + 1) * 16 := by
    unfold gristBytes gristK
    repeat' split
    all_goals rfl
  have least : 2 ^ 16 ≤ 2 ^ (8 * gristBytes f) := by
    rw [size]
    exact Nat.pow_le_pow_right (by decide) (by omega)
  have head : ∀ mu : List Bool, (List.range 8).foldl (fun a j => a + (mu.getD j false).toNat * 2 ^ (8 + j)) 0 < 2 ^ 16 - 2 ^ 8 + 1 := by
    intro mu
    have digits := ofDigits_lt (b := 1) (x := fun j => (mu.getD j false).toNat) (n := 8) (fun j _ => Bool.toNat_lt _)
    have scaled := foldl_range_scaled 8 1 (fun j => (mu.getD j false).toNat) 8
    simp only [Nat.one_mul] at scaled
    rw [scaled]
    omega
  have body : ∀ els : List (Bool × Nat × Bool × Bool), (∀ r ∈ els, r.2.1 ≤ gristMax (gristK f)) →
      (List.range 16).foldl (fun a i => a + ((els.getD i (false, 0, false, false)).2.1
        + (els.getD i (false, 0, false, false)).1.toNat * 2 ^ gristK f) * 2 ^ (16 + (gristK f + 1) * i)) 0 + 2 ^ 16 ≤
        2 ^ (8 * gristBytes f) := by
    intro els small
    have digits : ofDigits (gristK f + 1) (fun i => (els.getD i (false, 0, false, false)).2.1
        + (els.getD i (false, 0, false, false)).1.toNat * 2 ^ gristK f) 16 < 2 ^ ((gristK f + 1) * 16) := by
      refine ofDigits_lt (fun i _ => ?_)
      have mag : (els.getD i (false, 0, false, false)).2.1 ≤ gristMax (gristK f) := by
        rw [List.getD]
        cases found : els[i]? with
        | none => exact Nat.zero_le _
        | some r => exact small r (List.mem_of_getElem? found)
      have sign := Bool.toNat_le (els.getD i (false, 0, false, false)).1
      have := Nat.mul_le_mul_right (2 ^ gristK f) sign
      have := Nat.two_pow_pos (gristK f)
      rw [gristMax] at mag
      rw [Nat.pow_succ]
      omega
    rw [foldl_range_scaled, size, Nat.pow_add 2 16]
    have := Nat.mul_le_mul_left (2 ^ 16) digits
    rw [Nat.mul_succ] at this
    omega
  have whole : ∀ (E : Nat) (mu : List Bool) (els : List (Bool × Nat × Bool × Bool)), E < 255 →
      (∀ r ∈ els, r.2.1 ≤ gristMax (gristK f)) →
      E + (List.range 8).foldl (fun a j => a + (mu.getD j false).toNat * 2 ^ (8 + j)) 0 +
        (List.range 16).foldl (fun a i => a + ((els.getD i (false, 0, false, false)).2.1
          + (els.getD i (false, 0, false, false)).1.toNat * 2 ^ gristK f) * 2 ^ (16 + (gristK f + 1) * i)) 0 < 2 ^ (8 * gristBytes f) := by
    intro E mu els scale small
    have := head mu
    have := body els small
    omega
  have scale (mx : Val) : (gristExp (gristK f) mx 254 1).getD 254 < 255 := by
    cases found : gristExp (gristK f) mx 254 1 with
    | none => decide
    | some e => exact gristExp_le found
  have nan : 255 < 2 ^ (8 * gristBytes f) := Nat.lt_of_lt_of_le (by decide) least
  rw [gristEncode]
  split
  · exact nan
  · split
    · exact nan
    · dsimp only
      split
      · exact Nat.two_pow_pos _
      · split
        · exact nan
        · split
          · exact Nat.two_pow_pos _
          · refine whole _ _ _ (scale _) (fun r hr => ?_)
            obtain ⟨i, -, rfl⟩ := List.mem_map.1 hr
            exact gristElem_le _ _ _ _ _

-- Integers.

/-- IntResult wraps, or saturates at the bounds of its width (R150). -/
theorem intResult_eq (w : Nat) (sgn sat : Bool) (x : Int) : (intResult w sgn sat x).1 =
    ((if sat = false then x else if sgn = true then max (-(2 ^ (w - 1))) (min (2 ^ (w - 1) - 1) x) else max 0 (min (2 ^ w - 1) x)) %
      2 ^ w).toNat := by
  have one : (1 : Int) ≤ 2 ^ (w - 1) := Int.pow_pos (by decide)
  have all : (1 : Int) ≤ 2 ^ w := Int.pow_pos (by decide)
  cases sat with
  | false => simp [intResult, wrapInt]
  | true =>
    cases sgn with
    | false =>
      simp only [intResult, intLo, intHi, wrapInt, Bool.true_and, decide_eq_true_eq, Bool.false_eq_true, if_false, Int.natCast_pow, Int.cast_ofNat_Int]
      split
      · rw [Int.max_eq_left (by omega)]
        simp
      · split
        · rw [Int.min_eq_left (by omega), Int.max_eq_right (by omega)]
          simp
        · rw [Int.min_eq_right (by omega), Int.max_eq_right (by omega)]
          simp
    | true =>
      simp only [intResult, intLo, intHi, wrapInt, Bool.true_and, decide_eq_true_eq, if_true, Int.natCast_pow, Int.cast_ofNat_Int]
      split
      · rw [Int.max_eq_left (by omega)]
        simp
      · split
        · rw [Int.min_eq_left (by omega), Int.max_eq_right (by omega)]
          simp
        · rw [Int.min_eq_right (by omega), Int.max_eq_right (by omega)]
          simp

/-- An element's value by Signed. -/
theorem intVal_eq {w x : Nat} (sgn : Bool) (small : x < 2 ^ w) :
    intVal w sgn x = if sgn = true ∧ 2 ^ (w - 1) ≤ x then (x : Int) - 2 ^ w else x := by
  cases sgn with
  | false => simp [intVal, Nat.mod_eq_of_lt small]
  | true =>
    simp only [intVal, signed, Nat.mod_eq_of_lt small, if_true, true_and]
    split
    · next low => rw [if_neg (Nat.not_le.2 low)]
    · next high =>
      rw [if_pos (Nat.not_lt.1 high)]
      push_cast
      rfl

end Sys2Proof.Machine
end

section
/-! SUPPORT. The draws of a word and the words its results give a lane (R86, R113), and the values of IMADW, FDOT2, PACK, UNPACK
and QSCALE (R152, R173, R184, R186). For O60. -/

namespace Sys2Proof.Machine

variable {c : Crew} {h : Heat} {r : Res} {l : Nat}

-- Draws (R86).

/-- The draw of element `j` of a lane in state `s`. -/
def Rnd.draw (c : Rnd) (s : Word) (j : Nat) : Nat := if c.mode = rndSR then (Nat.repeat lfsrDraw (j + 1) s).toNat else 0

/-- A lane's state after `n` draws. -/
def Rnd.after (c : Rnd) (s : Word) (n : Nat) : Word := if c.mode = rndSR then Nat.repeat lfsrDraw n s else s

theorem repeat_add {α : Type} (f : α → α) (n m : Nat) (a : α) : Nat.repeat f (n + m) a = Nat.repeat f m (Nat.repeat f n a) := by
  induction m with
  | zero => rfl
  | succ m ih => exact congrArg f ih

theorem drawFor_eq (c : Rnd) (s : Word) : drawFor c s = (c.draw s 0, c.after s 1) := by
  unfold drawFor Rnd.draw Rnd.after
  split <;> rfl

theorem Rnd.draw_after (c : Rnd) (s : Word) (n j : Nat) : c.draw (c.after s n) j = c.draw s (n + j) := by
  unfold Rnd.draw Rnd.after
  split
  · rw [← repeat_add]
    rfl
  · rfl

theorem Rnd.after_after (c : Rnd) (s : Word) (n m : Nat) : c.after (c.after s n) m = c.after s (n + m) := by
  unfold Rnd.after
  split
  · rw [repeat_add]
  · rfl

theorem drawAt_eq (h : Heat) (l j : Nat) : h.drawAt l j = (modeRnd h.wrk.mode).draw (lane h.wrk.lfsr l) j := rfl

theorem length_drawEach {α : Type} (c : Rnd) (g : α → Nat → Nat × Flags) (xs : List α) (s : Word) :
    (drawEach c g xs s).1.length = xs.length := by
  induction xs generalizing s with
  | nil => rfl
  | cons x t ih => simp [drawEach, ih]

/-- An element's result, with the element's draw. -/
theorem drawEach_getD {α : Type} (c : Rnd) (g : α → Nat → Nat × Flags) {xs : List α} (s : Word) {j : Nat} (d : α) (hj : j < xs.length) :
    (drawEach c g xs s).1.getD j 0 = (g (xs.getD j d) (c.draw s j)).1 := by
  induction xs generalizing s j with
  | nil => simp at hj
  | cons x t ih =>
    simp only [drawEach, drawFor_eq]
    cases j with
    | zero => rfl
    | succ j =>
      rw [List.getD_cons_succ, List.getD_cons_succ, ih _ (by simpa using hj), Rnd.draw_after, Nat.add_comm 1 j]

theorem length_draws16 (c : Rnd) (n : Nat) (s : Word) : (draws16 c n s).1.length = n := by
  induction n generalizing s with
  | zero => rfl
  | succ n ih => simp [draws16, ih]

theorem draws16_getD (c : Rnd) {n j : Nat} (s : Word) (hj : j < n) : (draws16 c n s).1.getD j 0 = c.draw s j := by
  induction n generalizing s j with
  | zero => omega
  | succ n ih =>
    simp only [draws16, drawFor_eq]
    cases j with
    | zero => rfl
    | succ j => rw [List.getD_cons_succ, ih _ (by omega), Rnd.draw_after, Nat.add_comm 1 j]

theorem draws16_after (c : Rnd) (n : Nat) (s : Word) : (draws16 c n s).2 = c.after s n := by
  induction n generalizing s with
  | zero =>
    unfold Rnd.after
    split <;> rfl
  | succ n ih =>
    simp only [draws16, drawFor_eq]
    rw [ih, Rnd.after_after, Nat.add_comm]

/-- Sixteen draws, as a list. -/
theorem draws16_eq (c : Rnd) (n : Nat) (s : Word) : (draws16 c n s).1 = (List.range n).map (c.draw s) := by
  refine List.ext_getElem (by simp [length_draws16]) (fun j h1 h2 => ?_)
  have here : j < n := by simpa [length_draws16] using h1
  have value := draws16_getD c s here
  rw [getD_of_lt _ _ h1] at value
  simpa using value

-- The words of a lane.

/-- Words that one lane's registers get. -/
theorem words_vecW (ks : List Nat) (m : Word) (outs : List (List Nat)) (tag : Nat → Nat) (fl : Flags) (x : Option Lanes) (l : Nat) :
    Res.words ⟨vecW ks m outs tag, fl, x⟩ l = (List.range ks.length).map (fun i => (outs.getD l []).getD i 0 % 2 ^ 32) := by
  simp only [Res.words, vecW, List.filterMap_map]
  rw [← List.filterMap_eq_map]
  refine filterMap_ext (fun i _ => congrArg some ?_)
  exact (congrArg BitVec.toNat (lane_map_getD outs i l)).trans (BitVec.toNat_ofNat _ _)

theorem words_append (ws ws' : List RegW) (fl : Flags) (x : Option Lanes) (l : Nat) :
    Res.words ⟨ws ++ ws', fl, x⟩ l = Res.words ⟨ws, fl, x⟩ l ++ Res.words ⟨ws', fl, x⟩ l := List.filterMap_append ..

/-- The results of a word that writes the block `ks` lane by lane. -/
def Res.Block (r : Res) (l : Nat) (ks : List Nat) (out : List Nat) : Prop :=
  r.words l = (List.range ks.length).map (fun i => out.getD i 0 % 2 ^ 32)

namespace Res.Block

variable {ks out : List Nat} (b : r.Block l ks out)

include b

theorem length : (r.words l).length = ks.length := by
  rw [b, List.length_map, List.length_range]

theorem getD {i : Nat} (hi : i < ks.length) : (r.words l).getD i 0 = out.getD i 0 % 2 ^ 32 := by
  rw [b]
  simp [List.getD, hi]

theorem lt : ∀ x ∈ r.words l, x < 2 ^ 32 := by
  rw [b]
  intro x hx
  obtain ⟨i, -, rfl⟩ := List.mem_map.1 hx
  exact Nat.mod_lt _ (by decide)

theorem eq (small : ∀ x ∈ out, x < 2 ^ 32) (size : out.length = ks.length) : r.words l = out := by
  refine List.ext_getElem (by rw [b.length, size]) (fun i h1 h2 => ?_)
  have value := b.getD (size ▸ h2)
  rw [getD_of_lt _ _ h1, getD_of_lt _ _ h2, Nat.mod_eq_of_lt (small _ (List.getElem_mem h2))] at value
  exact value

/-- The elements of registers that hold an image. -/
theorem elems {sb : Nat} (slot : SlotWidth sb) {es : List Nat} (image : out = regsOfElems sb es) (room : out.length ≤ ks.length) {j : Nat}
    (hj : j < es.length) : (elemsOf sb (r.words l)).getD j 0 = es.getD j 0 % 2 ^ sb := by
  subst image
  refine elemsOf_image slot (fun i hi => ?_) (b.length ▸ room) hj
  rw [b.getD (Nat.lt_of_lt_of_le hi room), Nat.mod_eq_of_lt (getD_lt (regsOfElems_lt slot es) i)]

end Res.Block

/-- A word that writes a block of registers, lane by lane. -/
theorem Res.block_of {ks : List Nat} {m : Word} {outs : List (List Nat)} {tag : Nat → Nat} {fl : Flags} {x : Option Lanes}
    (made : Res.mk (vecW ks m outs tag) fl x = r) : r.Block l ks (outs.getD l []) ∧ vecKeys r.ws = ks := by
  subst made
  exact ⟨by rw [Res.Block, words_vecW], vecKeys_vecW _ _ _ _⟩

/-- One lane's outcome, without its flags. -/
theorem perLane_fst_getD {m : Word} (f : Nat → List Nat × Flags) (hl : l < 32) (mine : m.getLsbD l = true) :
    ((perLane m ([], 0) f).map Prod.fst).getD l [] = (f l).1 := by
  simp [perLane, List.getD, hl, mine]

/-- What a lane gets from a word whose lanes draw. -/
theorem drawLanes_lane (c : Crew) (h : Heat) (ws : List (List Nat) → List RegW) (g : Nat → Word → List Nat × Flags × Word) (hl : l < 32)
    (mine : (c.lanes h).getLsbD l = true) :
    ∃ outs : List (List Nat), (drawLanes c h ws g).ws = ws outs ∧ outs.getD l [] = (g l (lane h.wrk.lfsr l)).1 := by
  refine ⟨_, rfl, ?_⟩
  simp [List.getD, hl, mine]

/-- What a word whose lanes draw writes to a block. -/
theorem drawLanes_block {ks : List Nat} {tag : Nat → Nat} {g : Nat → Word → List Nat × Flags × Word}
    (made : drawLanes c h (fun out => vecW ks (c.lanes h) out tag) g = r) (hl : l < 32) (mine : (c.lanes h).getLsbD l = true) :
    r.Block l ks (g l (lane h.wrk.lfsr l)).1 := by
  obtain ⟨outs, ws, out⟩ := drawLanes_lane c h (fun out => vecW ks (c.lanes h) out tag) g hl mine
  rw [made] at ws
  have words : r.words l = Res.words ⟨vecW ks (c.lanes h) outs tag, 0, none⟩ l := by
    rw [Res.words, ws]
    rfl
  rw [Res.Block, words, words_vecW, out]

/-- A lane that contributes is one of the 32. -/
theorem lt_of_lane {m : Word} (mine : m.getLsbD l = true) : l < 32 := by
  refine Classical.byContradiction fun out => ?_
  rw [BitVec.getLsbD_of_ge _ _ (by omega)] at mine
  cases mine

/-- Checks that pass found the operands legal and their formats accepted. -/
theorem check_passed {src dst other : List Nat} {legal fmtOk : Bool} (passed : c.check h src dst other legal fmtOk = .ok ()) :
    legal = true ∧ fmtOk = true := by
  cases legal with
  | false =>
    simp only [Crew.check, firstStop, Bool.not_false, Bool.true_or, if_true] at passed
    cases passed
  | true =>
    cases fmtOk with
    | true => exact ⟨rfl, rfl⟩
    | false =>
      simp only [Crew.check, firstStop, Bool.not_false, if_true] at passed
      split at passed
      · cases passed
      · next none =>
        split at none
        · cases none
        · cases none

-- Elements of a block.

theorem at_getD_lt (r : Regs) (ks : List Nat) (l j : Nat) : (r.at_ ks l).getD j 0 < 2 ^ 32 := getD_lt (at_lt r ks l) j

theorem length_at (r : Regs) (ks : List Nat) (l : Nat) : (r.at_ ks l).length = ks.length := List.length_map _

@[simp] theorem length_dkeys (h : Heat) (x : BitVec 5) (m : Nat) : (h.dkeys x m).length = m := by simp [Heat.dkeys, derivedCodes]

/-- B of a word of 32-bit operands, from a block or from a uniform register. -/
theorem opB_getD (r : Regs) (o : OpU) (ks : List Nat) (l : Nat) {j : Nat} (hj : j < extN o.e) :
    (r.opB o false ks l).getD j 0 = if o.k then (r.rdS o.b.toNat).toNat % 2 ^ 32 else (r.at_ ks l).getD j 0 := by
  rw [Regs.opB]
  split
  · simp [uniformRegs, List.getD, hj]
  · rfl

/-- A position of a list of results. -/
theorem map_range_getD {α : Type} (f : Nat → α) (d : α) {n j : Nat} (hj : j < n) : ((List.range n).map f).getD j d = f j := by
  simp [List.getD, hj]

theorem intResult_lt (w : Nat) (sgn sat : Bool) (x : Int) : (intResult w sgn sat x).1 < 2 ^ w := by
  unfold intResult
  split
  · exact wrapInt_lt _ _
  · split <;> exact wrapInt_lt _ _

theorem roundTo_fp32_lt (c : Rnd) (d : Nat) (v : Val) : (roundTo fmtFP32 c d v).1 < 2 ^ 32 := roundTo_lt (f := fmtFP32) (by decide) c d v

/-- An entry of a list of remainders. -/
theorem map_mod_getD (m : Nat) (xs : List Nat) (j : Nat) : (xs.map (fun x => x % m)).getD j 0 = xs.getD j 0 % m := by
  rw [List.getD, List.getD, List.getElem?_map]
  cases xs[j]? with
  | none => exact (Nat.zero_mod m).symm
  | some x => rfl

theorem range_getD {n j : Nat} (d : Nat) (hj : j < n) : (List.range n).getD j d = j := by
  simp [List.getD, hj]

theorem dkeys_getD (h : Heat) (x : BitVec 5) {m j : Nat} (hj : j < m) : (h.dkeys x m).getD j 0 = h.key (x.toNat + j) := by
  simp [Heat.dkeys, derivedCodes, List.getD, hj]

-- IMADW (R152).

/-- Pairs of IMADW. -/
theorem imadw_value {o : OpU} (ok : imadwCalc o c h = .ok r) (mine : (c.lanes h).getLsbD l = true) {j : Nat} (hj : j < extN o.e) :
    (pairUp (r.words l)).getD j 0 = (intResult 64 (modeSgn h.wrk.mode) (modeRnd h.wrk.mode).sat
      (intVal 32 (modeSgn h.wrk.mode) ((h.wrk.at_ (h.keys o.a o.e) l).getD j 0) *
        intVal 32 (modeSgn h.wrk.mode) (if o.k then (h.wrk.rdS o.b.toNat).toNat % 2 ^ 32 else (h.wrk.at_ (h.keys o.b o.e) l).getD j 0) +
        intVal 64 (modeSgn h.wrk.mode) ((pairUp (h.wrk.at_ (vecKeys r.ws) l)).getD j 0))).1 := by
  have hl := lt_of_lane mine
  simp only [imadwCalc] at ok
  split at ok
  · cases ok
  · next passed =>
    obtain ⟨legal, -⟩ := check_passed passed
    have width : (intModeOf h.wrk.mode).w = 32 := eq_of_beq legal
    obtain ⟨block, keys⟩ := Res.block_of (l := l) (Except.ok.inj ok)
    rw [perLane_fst_getD _ hl mine] at block
    have pairs := block.elems (sb := 64) (by decide) rfl (by
      rw [length_regsOfElems, if_pos rfl]
      simp only [List.length_map, List.length_range, length_at, length_keys, length_codesHW, extN]
      exact Nat.le_of_eq (by grind)) (j := j) (by simpa [length_at] using hj)
    rw [elemsOf, if_pos rfl] at pairs
    rw [pairs, keys, List.map_map, map_range_getD _ _ (by simpa [length_at] using hj)]
    simp only [Function.comp_def, IntMode.val, width]
    rw [opB_getD _ _ _ _ hj, Nat.mod_eq_of_lt (intResult_lt _ _ _ _)]
    cases o.k <;> rfl

-- FDOT2 (R173).

/-- The format in which FDOT2 reads its sources. -/
theorem fdot2_format {ks : List Nat} {tag : Nat → Nat} {g : Nat} (named : ∀ k ∈ ks, tag k = g ∨ tag k = fmtBITS)
    (read : (g ≠ fmtBITS ∧ ∃ k ∈ ks, tag k = g) ∨ (g = fmtBF16 ∧ ∀ k ∈ ks, tag k = fmtBITS)) :
    ((ks.map tag).filter (· != fmtBITS)).headD fmtBF16 = g := by
  cases found : (ks.map tag).filter (· != fmtBITS) with
  | nil =>
    have bits : ∀ k ∈ ks, tag k = fmtBITS := by simpa using found
    rcases read with ⟨other, k, hk, rfl⟩ | ⟨rfl, -⟩
    · exact absurd (bits k hk) other
    · rfl
  | cons t rest =>
    have here : t ∈ (ks.map tag).filter (· != fmtBITS) := by rw [found]; exact List.mem_cons_self
    obtain ⟨ht, other⟩ := List.mem_filter.1 here
    obtain ⟨k, hk, rfl⟩ := List.mem_map.1 ht
    exact (named k hk).resolve_right (by simpa using other)

/-- One rounding of the sum of D and the two products. -/
theorem fdot2_value {o : OpU} {g : Nat} (ok : fdot2Calc o c h = .ok r) (mine : (c.lanes h).getLsbD l = true)
    (named : ∀ k ∈ h.keys o.a o.e ++ (if o.k then [] else h.keys o.b o.e), h.wrk.rdTag k = g ∨ h.wrk.rdTag k = fmtBITS)
    (read : (g ≠ fmtBITS ∧ ∃ k ∈ h.keys o.a o.e ++ (if o.k then [] else h.keys o.b o.e), h.wrk.rdTag k = g) ∨
      (g = fmtBF16 ∧ ∀ k ∈ h.keys o.a o.e ++ (if o.k then [] else h.keys o.b o.e), h.wrk.rdTag k = fmtBITS)) {j : Nat} (hj : j < extN o.e) :
    let rn := modeRnd h.wrk.mode
    let a := (h.wrk.at_ (h.keys o.a o.e) l).getD j 0
    let b := if o.k then (h.wrk.rdS o.b.toNat).toNat % 2 ^ 32 else (h.wrk.at_ (h.keys o.b o.e) l).getD j 0
    let half : Nat → Nat → Val := fun x i => valOf g rn.ftz (bits x (16 * i) 16)
    (r.words l).getD j 0 = (roundTo fmtFP32 rn (h.drawAt l j) (sumVals (rn.mode == rndRDN)
      [valOf fmtFP32 rn.ftz ((h.wrk.at_ (h.keys o.d o.e) l).getD j 0), (mulVal (half a 0) (half b 0)).1, (mulVal (half a 1) (half b 1)).1]).1).1 := by
  intro rn a b half
  have format : (((h.keys o.a o.e ++ (if o.k then [] else h.keys o.b o.e)).map h.wrk.rdTag).filter (· != fmtBITS)).headD fmtBF16 = g :=
    fdot2_format named read
  simp only [fdot2Calc, format] at ok
  split at ok
  · cases ok
  · have block := drawLanes_block (Except.ok.inj ok) (lt_of_lane mine) mine
    have kb : (h.wrk.opB o false (if o.k then [] else h.keys o.b o.e) l).getD j 0 = b := by
      rw [opB_getD _ _ _ _ hj]
      simp only [b]
      cases o.k <;> rfl
    rw [block.getD (by simpa using hj), drawEach_getD _ _ _ 0 (by simpa [length_at] using hj), range_getD _ (by simpa [length_at] using hj), kb]
    exact Nat.mod_eq_of_lt (roundTo_fp32_lt _ _ _)

-- PACK and UNPACK (R186).

theorem elemBits_le (f : Nat) : elemBits f ≤ slotBits f := by
  unfold elemBits
  split
  · next six =>
    simp only [Bool.or_eq_true, beq_iff_eq] at six
    rcases six with rfl | rfl <;> decide
  · exact Nat.le_refl _

theorem mod_elemBits_lt (f x : Nat) : x % 2 ^ elemBits f < 2 ^ slotBits f :=
  Nat.lt_of_lt_of_le (Nat.mod_lt _ (Nat.two_pow_pos _)) (Nat.pow_le_pow_right (by decide) (elemBits_le f))

/-- Elements in a register, of a format that is neither of 64 bits nor of Grist blocks. -/
theorem epr_narrow {f : Nat} (narrow : fmtIs64 f = false) (plain : fmtIsGrist f = false) :
    0 < epr f ∧ slotBits f ≠ 64 ∧ 32 / slotBits f = epr f := by
  have counts : epr f = 1 ∨ epr f = 2 ∨ epr f = 8 ∨ epr f = 4 := by
    unfold epr
    split
    · exact .inl rfl
    · split
      · exact .inr (.inl rfl)
      · split
        · exact .inr (.inr (.inl rfl))
        · exact .inr (.inr (.inr (if_neg (by simp [narrow, plain]))))
  rw [slotBits, narrow]
  rcases counts with h | h | h | h <;> rw [h] <;> decide

theorem slotBits_wide {f : Nat} (wide : fmtIs64 f = true) : slotBits f = 64 := by rw [slotBits, if_pos wide]

/-- Registers that the image of elements fills. -/
theorem length_regsOfElems_slotBits {f : Nat} (plain : fmtIsGrist f = false) (es : List Nat) :
    (regsOfElems (slotBits f) es).length = regsOf f es.length := by
  rw [length_regsOfElems, regsOf, plain]
  cases wide : fmtIs64 f with
  | true => rw [slotBits_wide wide]; rfl
  | false =>
    obtain ⟨-, narrow, count⟩ := epr_narrow wide plain
    rw [if_neg narrow, count]
    rfl

/-- Elements that registers hold. -/
theorem length_elemsOf_slotBits {f : Nat} (plain : fmtIsGrist f = false) (rs : List Nat) :
    (elemsOf (slotBits f) rs).length = capOf f rs.length := by
  rw [length_elemsOf, capOf, plain]
  cases wide : fmtIs64 f with
  | true => rw [slotBits_wide wide]; rfl
  | false =>
    obtain ⟨-, narrow, count⟩ := epr_narrow wide plain
    rw [if_neg narrow, count]
    rfl

/-- Formats of PACK and UNPACK have more than one element in a register. -/
theorem packFmt_plain {f : Nat} (listed : packFmt f = true) : fmtIs64 f = false ∧ fmtIsGrist f = false := by
  simp only [packFmt, fmtIsOcp, Bool.or_eq_true, beq_iff_eq, Bool.and_eq_true, decide_eq_true_eq] at listed
  rcases listed with (((((rfl | rfl) | rfl) | rfl) | ⟨low, high⟩) | rfl)
  iterate 4 · exact ⟨rfl, rfl⟩
  · exact (by decide : ∀ g < 21, 16 ≤ g → fmtIs64 g = false ∧ fmtIsGrist g = false) f (Nat.lt_succ_of_le high) low
  · exact ⟨rfl, rfl⟩

theorem pack_value {o : OpV} (ok : packCalc false o c h = .ok r) (mine : (c.lanes h).getLsbD l = true) {j : Nat} (hj : j < extN o.e) :
    (elemsOf (slotBits (modeFmt h.wrk.mode)) (r.words l)).getD j 0 =
      (h.wrk.at_ (h.keys o.a o.e) l).getD j 0 % 2 ^ elemBits (modeFmt h.wrk.mode) := by
  unfold packCalc at ok
  dsimp only at ok
  generalize passed : c.check h _ _ _ _ _ = checked at ok
  cases checked with
  | error x => cases ok
  | ok u =>
    obtain ⟨-, formats⟩ := check_passed passed
    obtain ⟨narrow, plain⟩ := packFmt_plain (Bool.and_eq_true_iff.1 formats).1
    obtain ⟨block, -⟩ := Res.block_of (l := l) (Except.ok.inj ok)
    rw [perLane_getD _ _ _ _ (lt_of_lane mine), if_pos mine, if_neg Bool.false_ne_true, if_neg Bool.false_ne_true] at block
    have value := block.elems (slotWidth_slotBits _) rfl (by
      rw [length_regsOfElems_slotBits plain, regsOf, narrow, plain]
      simp [length_at]) (j := j) (by simpa [length_at] using hj)
    rw [value, map_mod_getD]
    exact Nat.mod_eq_of_lt (mod_elemBits_lt _ _)

theorem unpack_value {o : OpV} (ok : packCalc true o c h = .ok r) (mine : (c.lanes h).getLsbD l = true) {j : Nat}
    (hj : j < extN o.e * epr (modeFmt h.wrk.mode)) :
    (r.words l).getD j 0 = (elemsOf (slotBits (modeFmt h.wrk.mode)) (h.wrk.at_ (h.keys o.a o.e) l)).getD j 0
      % 2 ^ elemBits (modeFmt h.wrk.mode) := by
  unfold packCalc at ok
  dsimp only at ok
  generalize passed : c.check h _ _ _ _ _ = checked at ok
  cases checked with
  | error x => cases ok
  | ok u =>
    obtain ⟨-, formats⟩ := check_passed passed
    obtain ⟨narrow, plain⟩ := packFmt_plain (Bool.and_eq_true_iff.1 formats).1
    obtain ⟨block, -⟩ := Res.block_of (l := l) (Except.ok.inj ok)
    rw [perLane_getD _ _ _ _ (lt_of_lane mine), if_pos mine, if_pos rfl, if_pos rfl] at block
    rw [block.getD (by simpa using hj), map_mod_getD]
    refine Nat.mod_eq_of_lt (Nat.lt_of_lt_of_le (mod_elemBits_lt _ _) (Nat.pow_le_pow_right (by decide) ?_))
    obtain ⟨-, six, -⟩ := epr_narrow narrow plain
    have slots := slotWidth_slotBits (modeFmt h.wrk.mode)
    simp only [List.mem_cons, List.not_mem_nil, or_false] at slots
    omega

-- QSCALE (R184).

theorem qscale_value {o : OpLB} (ok : qscaleCalc o c h = .ok r) (mine : (c.lanes h).getLsbD l = true) {j : Nat}
    (hj : j < extN o.e * epr (modeFmt h.wrk.mode)) :
    let x := (elemsOf (slotBits (modeFmt h.wrk.mode)) (h.wrk.at_ (h.keys o.a o.e) l)).getD j 0
    let e := bits ((h.wrk.at_ [h.key (o.b.toNat + j / 128)] l).getD 0 0) (8 * (j / 32 % 4)) 8
    (r.words l).getD j 0 = (roundTo fmtFP32 (modeRnd h.wrk.mode) (h.drawAt l j)
      (if e = 255 then .nan false else scaleVal (valOf (modeFmt h.wrk.mode) (modeRnd h.wrk.mode).ftz x) ((e : Int) - 127))).1 := by
  intro x e
  simp only [qscaleCalc] at ok
  split at ok
  · cases ok
  · have block := drawLanes_block (Except.ok.inj ok) (lt_of_lane mine) mine
    rw [block.getD (by simpa using hj), drawEach_getD _ _ _ 0 (by simpa using hj), range_getD _ hj]
    have place : j / 32 / 4 = j / 128 := Nat.div_div_eq_div_mul _ _ _
    have inside : j / 128 < ceilDiv (ceilDiv (extN o.e * epr (modeFmt h.wrk.mode)) 32) 4 := by
      rw [← place]
      exact place_lt_ceilDiv (place_lt_ceilDiv hj (by decide)) (by decide)
    have byte : scaleByte (h.wrk.at_ (h.dkeys o.b (ceilDiv (ceilDiv (extN o.e * epr (modeFmt h.wrk.mode)) 32) 4)) l) (j / 32) = e := by
      rw [scaleByte, place, at_getD _ _ (by simpa using inside), dkeys_getD _ _ inside]
      rfl
    rw [byte]
    exact Nat.mod_eq_of_lt (roundTo_fp32_lt _ _ _)

end Sys2Proof.Machine
end

section
/-! SUPPORT. The values of CVT and CVTI (R181 to R183). For O60. -/

namespace Sys2Proof.Machine

variable {c : Crew} {h : Heat} {r : Res} {l : Nat}

-- Lists by positions.

theorem eq_map_range {α : Type} (xs : List α) (d : α) : xs = (List.range xs.length).map (fun i => xs.getD i d) := by
  refine List.ext_getElem (by simp) (fun i h1 h2 => ?_)
  simp [List.getD, List.getElem?_eq_getElem h1]

/-- A part of a list, by positions. -/
theorem take_drop_eq_map {α : Type} {xs : List α} (d : α) {a n : Nat} (inside : a + n ≤ xs.length) :
    (xs.drop a).take n = (List.range n).map (fun t => xs.getD (a + t) d) := by
  refine List.ext_getElem (by simp; omega) (fun i h1 h2 => ?_)
  have here : a + i < xs.length := by simp at h2; omega
  simp [List.getD, List.getElem?_eq_getElem here]

-- Grist streams (R79, R183).

theorem length_gristDecode (f blk : Nat) : (gristDecode f blk).length = 16 := by simp [gristDecode]

theorem bits_mod_two_pow {v lo n k : Nat} (inside : lo + n ≤ k) : bits (v % 2 ^ k) lo n = bits v lo n := by
  obtain ⟨m, rfl⟩ : ∃ m, k = lo + (n + m) := ⟨k - lo - n, by omega⟩
  rw [bits_eq_div, bits_eq_div, Nat.pow_add, Nat.mod_mul_right_div_self, Nat.pow_add, Nat.mod_mul_right_mod]

/-- A block of a stream: the encoding of its sixteen values with its sixteen draws. -/
theorem bits_gristStream (f : Nat) (c : Rnd) {n i : Nat} (vs : List Val) (s : Word) (hi : i < n) :
    bits (gristStream f c n vs s).1 (8 * gristBytes f * i) (8 * gristBytes f) =
      (gristEncode f c ((List.range 16).map (fun t => c.draw s (16 * i + t))) ((vs.drop (16 * i)).take 16)).1 := by
  induction n generalizing i vs s with
  | zero => omega
  | succ n ih =>
    have small := gristEncode_lt f c (draws16 c 16 s).1 (vs.take 16)
    simp only [gristStream]
    cases i with
    | zero =>
      rw [bits_eq_div, Nat.mul_zero, Nat.pow_zero, Nat.div_one, Nat.add_mul_mod_self_left, Nat.mod_eq_of_lt small, draws16_eq]
      simp
    | succ i =>
      have next := ih (vs.drop 16) (draws16 c 16 s).2 (Nat.lt_of_succ_lt_succ hi)
      rw [bits_eq_div, Nat.mul_succ, Nat.add_comm (8 * gristBytes f * i), Nat.pow_add, ← Nat.div_div_eq_div_mul,
        Nat.add_mul_div_left _ _ (Nat.two_pow_pos _), Nat.div_eq_of_lt small, Nat.zero_add, ← bits_eq_div, next, draws16_after, List.drop_drop]
      simp only [Rnd.draw_after, Nat.mul_succ]
      congr 2
      · exact List.map_congr_left (fun t _ => congrArg _ (by omega))
      · rw [Nat.add_comm]

-- Values of a stream.

/-- The exact value of element `j` of a stream. -/
def streamVal (f : Nat) (sgn ftz : Bool) (rs : List Nat) (j : Nat) : Val :=
  if fmtIsGrist f then (gristDecode f (bits (joinRegs rs) (8 * gristBytes f * (j / 16)) (8 * gristBytes f))).getD (j % 16) (.fin false 0 0 false)
  else if fmtIsInt f then ofInt (intVal (slotBits f) sgn ((elemsOf (slotBits f) rs).getD j 0))
  else valOf f ftz ((elemsOf (slotBits f) rs).getD j 0)

/-- The values of a stream are those of its elements. -/
theorem valuesOf_eq {f n : Nat} (sgn ftz : Bool) {rs : List Nat} (blocks : fmtIsGrist f = true → n % 16 = 0)
    (whole : fmtIsGrist f = false → n ≤ (elemsOf (slotBits f) rs).length) :
    valuesOf f sgn ftz n rs = (List.range n).map (streamVal f sgn ftz rs) := by
  cases grist : fmtIsGrist f with
  | true =>
    have parts (i : Nat) : gristDecode f (bits (joinRegs rs) (8 * gristBytes f * i) (8 * gristBytes f)) =
        (List.range 16).map (fun t => (gristDecode f (bits (joinRegs rs) (8 * gristBytes f * i) (8 * gristBytes f))).getD t (.fin false 0 0 false)) := by
      conv => lhs; rw [eq_map_range (gristDecode f _) (.fin false 0 0 false), length_gristDecode]
    have size : n / 16 * 16 = n := by
      have := blocks grist
      omega
    simp only [valuesOf, grist, if_true]
    rw [flatMap_ext (fun i _ => parts i)]
    refine List.ext_getElem (by simp [List.map_const', size]) (fun j h1 h2 => ?_)
    have hj : j < n := by simpa using h2
    have value := getD_flatMap_range (fun i t => (gristDecode f (bits (joinRegs rs) (8 * gristBytes f * i) (8 * gristBytes f))).getD t
      (.fin false 0 0 false)) 16 (rs := List.range (n / 16)) (d := 0) (e := .fin false 0 0 false) (q := j / 16) (i := j % 16)
      (by rw [List.length_range]; omega) (Nat.mod_lt _ (by decide))
    rw [show j / 16 * 16 + j % 16 = j by omega, getD_of_lt _ _ h1, range_getD _ (by omega)] at value
    rw [value]
    simp [streamVal, grist]
  | false =>
    have room := whole grist
    simp only [valuesOf, grist, Bool.false_eq_true, if_false]
    refine List.ext_getElem (by simp [room]) (fun j h1 h2 => ?_)
    have here : j < (elemsOf (slotBits f) rs).length := by simp at h2; omega
    simp only [List.getElem_map, List.getElem_take, List.getElem_range, streamVal, grist, Bool.false_eq_true, if_false, List.getD,
      List.getElem?_eq_getElem here, Option.getD_some]

-- CVT and CVTI.

/-- Elements that a conversion takes from, or gives to, a block of `m` registers. -/
def cvtCount (b f m : Nat) : Nat := if fmtIsGrist b then capOf f m else capOf b m

/-- Registers of a conversion's result. -/
def cvtRegs (b f m : Nat) : Nat := if fmtIsGrist b then m else regsOf f (cvtCount b f m)

/-- Registers of a conversion's source. -/
def Heat.cvtKeys (h : Heat) (o : OpLB) (f : Nat) : List Nat :=
  if fmtIsGrist o.b.toNat then h.dkeys o.a (if fmtIsGrist o.b.toNat then regsOf o.b.toNat (cvtCount o.b.toNat f (extN o.e)) else extN o.e)
  else h.keys o.a o.e

/-- What a conversion gives a lane. -/
def cvtLane (b f n nd : Nat) (sgn : Bool) (rn : Rnd) (rs : List Nat) (s : Word) : List Nat :=
  if fmtIsInt b && fmtIsInt f then
    regsOfElems (slotBits f) (((elemsOf (slotBits b) rs).take n).map (fun x => (intResult (slotBits f) sgn rn.sat (intVal (slotBits b) sgn x)).1))
  else if fmtIsGrist f then splitRegs nd (gristStream f rn (n / 16) (valuesOf b sgn rn.ftz n rs) s).1
  else regsOfElems (slotBits f) (drawEach rn (fun v d => convertTo f sgn rn d v) (valuesOf b sgn rn.ftz n rs) s).1

/-- What a conversion writes. -/
theorem cvt_block {int : Bool} {o : OpLB} (ok : cvtCalc int o c h = .ok r) (mine : (c.lanes h).getLsbD l = true) :
    (∃ kd : List Nat, kd.length = cvtRegs o.b.toNat (modeFmt h.wrk.mode) (extN o.e) ∧
      r.Block l kd (cvtLane o.b.toNat (modeFmt h.wrk.mode) (cvtCount o.b.toNat (modeFmt h.wrk.mode) (extN o.e))
        (cvtRegs o.b.toNat (modeFmt h.wrk.mode) (extN o.e)) (modeSgn h.wrk.mode) (modeRnd h.wrk.mode)
        (h.wrk.at_ (h.cvtKeys o (modeFmt h.wrk.mode)) l) (lane h.wrk.lfsr l))) ∧
    ((fmtIsGrist (modeFmt h.wrk.mode) || fmtIsGrist o.b.toNat) = true → cvtCount o.b.toNat (modeFmt h.wrk.mode) (extN o.e) % 16 = 0) := by
  unfold cvtCalc at ok
  dsimp only at ok
  generalize passed : c.check h _ _ _ _ _ = checked at ok
  cases checked with
  | error x => cases ok
  | ok u =>
    obtain ⟨legal, -⟩ := check_passed passed
    have block := drawLanes_block (Except.ok.inj ok) (lt_of_lane mine) mine
    refine ⟨⟨if fmtIsGrist o.b.toNat then h.keys o.d o.e else h.dkeys o.d (cvtRegs o.b.toNat (modeFmt h.wrk.mode) (extN o.e)), ?_, ?_⟩,
      fun grist => ?_⟩
    · unfold cvtRegs
      cases fmtIsGrist o.b.toNat <;> simp
    · refine (congrArg (r.Block l _) ?_).mp block
      unfold cvtLane
      cases both : fmtIsInt o.b.toNat && fmtIsInt (modeFmt h.wrk.mode) with
      | true =>
        rw [if_pos rfl, if_pos rfl, List.map_map]
        rfl
      | false =>
        rw [if_neg Bool.false_ne_true, if_neg Bool.false_ne_true]
        cases grist : fmtIsGrist (modeFmt h.wrk.mode) with
        | true =>
          rw [if_pos rfl, if_pos rfl]
          rfl
        | false =>
          rw [if_neg Bool.false_ne_true, if_neg Bool.false_ne_true]
          rfl
    · have sixteen := (Bool.and_eq_true_iff.1 legal).2
      rw [grist] at sixteen
      simp only [Bool.not_true, Bool.false_or, Bool.and_eq_true, beq_iff_eq] at sixteen
      exact sixteen.2

/-- The elements that a conversion gives fill no more than its result's registers. -/
theorem regsOf_cvtCount_le (b : Nat) {f : Nat} (m : Nat) (plain : fmtIsGrist f = false) : regsOf f (cvtCount b f m) ≤ cvtRegs b f m := by
  unfold cvtRegs
  split
  · next grist =>
    rw [cvtCount, if_pos grist, regsOf, capOf, plain]
    cases wide : fmtIs64 f with
    | true =>
      rw [if_pos rfl, if_pos rfl]
      omega
    | false =>
      obtain ⟨some_, -, -⟩ := epr_narrow wide plain
      rw [if_neg Bool.false_ne_true, if_neg Bool.false_ne_true, if_neg Bool.false_ne_true, if_neg Bool.false_ne_true, ceilDiv]
      refine Nat.le_of_lt_succ ((Nat.div_lt_iff_lt_mul some_).2 ?_)
      rw [Nat.succ_mul]
      omega
  · exact Nat.le_refl _

/-- The blocks that a conversion gives fill no more than its result's registers. -/
theorem cvtBlocks_le (b : Nat) {f : Nat} (m : Nat) (grist : fmtIsGrist f = true) : cvtCount b f m / 16 * gristBytes f ≤ 4 * cvtRegs b f m := by
  have narrow : fmtIs64 f = false := by
    simp only [fmtIsGrist, Bool.and_eq_true, decide_eq_true_eq] at grist
    obtain ⟨low, high⟩ := grist
    exact (by decide : ∀ g < 27, 24 ≤ g → fmtIs64 g = false) f (Nat.lt_succ_of_le high) low
  unfold cvtRegs
  split
  · next source =>
    rw [cvtCount, if_pos source, capOf, narrow, grist, if_neg Bool.false_ne_true, if_pos rfl, Nat.mul_div_cancel_left _ (by decide)]
    exact Nat.div_mul_le_self _ _
  · rw [regsOf, narrow, grist, if_neg Bool.false_ne_true, if_pos rfl, ceilDiv]
    omega

section
variable {int : Bool} {o : OpLB}

/-- The values that a conversion takes. -/
theorem cvt_values (ok : cvtCalc int o c h = .ok r) (mine : (c.lanes h).getLsbD l = true) :
    valuesOf o.b.toNat (modeSgn h.wrk.mode) (modeRnd h.wrk.mode).ftz (cvtCount o.b.toNat (modeFmt h.wrk.mode) (extN o.e))
      (h.wrk.at_ (h.cvtKeys o (modeFmt h.wrk.mode)) l) =
      (List.range (cvtCount o.b.toNat (modeFmt h.wrk.mode) (extN o.e))).map
        (streamVal o.b.toNat (modeSgn h.wrk.mode) (modeRnd h.wrk.mode).ftz (h.wrk.at_ (h.cvtKeys o (modeFmt h.wrk.mode)) l)) := by
  refine valuesOf_eq _ _ (fun grist => (cvt_block ok mine).2 (by rw [grist, Bool.or_true])) (fun plain => Nat.le_of_eq ?_)
  rw [length_elemsOf_slotBits plain, length_at, Heat.cvtKeys, plain, if_neg Bool.false_ne_true, length_keys, cvtCount, plain,
    if_neg Bool.false_ne_true]

variable (ok : cvtCalc int o c h = .ok r) (mine : (c.lanes h).getLsbD l = true) {j : Nat}
  (hj : j < cvtCount o.b.toNat (modeFmt h.wrk.mode) (extN o.e))

include ok mine hj

/-- A conversion between integers wraps or saturates. -/
theorem cvt_int_value (both : fmtIsInt o.b.toNat = true ∧ fmtIsInt (modeFmt h.wrk.mode) = true) :
    (elemsOf (slotBits (modeFmt h.wrk.mode)) (r.words l)).getD j 0 = (intResult (slotBits (modeFmt h.wrk.mode)) (modeSgn h.wrk.mode)
      (modeRnd h.wrk.mode).sat (intVal (slotBits o.b.toNat) (modeSgn h.wrk.mode)
        ((elemsOf (slotBits o.b.toNat) (h.wrk.at_ (h.cvtKeys o (modeFmt h.wrk.mode)) l)).getD j 0))).1 := by
  obtain ⟨⟨kd, size, block⟩, -⟩ := cvt_block ok mine
  have plain {g : Nat} (int : fmtIsInt g = true) : fmtIsGrist g = false := by
    simp only [fmtIsInt, Bool.and_eq_true, decide_eq_true_eq] at int
    simp only [fmtIsGrist, Bool.and_eq_false_iff, decide_eq_false_iff_not]
    omega
  have source : (elemsOf (slotBits o.b.toNat) (h.wrk.at_ (h.cvtKeys o (modeFmt h.wrk.mode)) l)).length =
      cvtCount o.b.toNat (modeFmt h.wrk.mode) (extN o.e) := by
    rw [length_elemsOf_slotBits (plain both.1), length_at, Heat.cvtKeys, plain both.1, if_neg Bool.false_ne_true, length_keys, cvtCount,
      plain both.1, if_neg Bool.false_ne_true]
  rw [cvtLane, if_pos (by simp [both]), List.take_of_length_le (Nat.le_of_eq source)] at block
  have value := block.elems (slotWidth_slotBits _) rfl (by
    rw [size, length_regsOfElems_slotBits (plain both.2), List.length_map, source]
    exact regsOf_cvtCount_le _ _ (plain both.2)) (j := j) (by rw [List.length_map, source]; exact hj)
  have here := Nat.lt_of_lt_of_eq hj source.symm
  rw [value, getD_of_lt _ _ (by simpa using here), List.getElem_map, getD_of_lt _ _ here]
  exact Nat.mod_eq_of_lt (intResult_lt _ _ _ _)

/-- Any other conversion to elements rounds each value once. -/
theorem cvt_elem_value (other : ¬(fmtIsInt o.b.toNat = true ∧ fmtIsInt (modeFmt h.wrk.mode) = true))
    (plain : fmtIsGrist (modeFmt h.wrk.mode) = false) :
    (elemsOf (slotBits (modeFmt h.wrk.mode)) (r.words l)).getD j 0 = (convertTo (modeFmt h.wrk.mode) (modeSgn h.wrk.mode)
      (modeRnd h.wrk.mode) (h.drawAt l j) (streamVal o.b.toNat (modeSgn h.wrk.mode) (modeRnd h.wrk.mode).ftz
        (h.wrk.at_ (h.cvtKeys o (modeFmt h.wrk.mode)) l) j)).1 := by
  obtain ⟨⟨kd, size, block⟩, -⟩ := cvt_block ok mine
  rw [cvtLane, if_neg (by simpa using other), plain, if_neg Bool.false_ne_true, cvt_values ok mine] at block
  have value := block.elems (slotWidth_slotBits _) rfl (by
    rw [size, length_regsOfElems_slotBits plain, length_drawEach, List.length_map, List.length_range]
    exact regsOf_cvtCount_le _ _ plain) (j := j) (by simpa [length_drawEach] using hj)
  rw [value, drawEach_getD _ _ _ (.inf false) (by simpa using hj), map_range_getD _ _ hj]
  exact Nat.mod_eq_of_lt (convertTo_lt _ _ _ _ _)

end

/-- A conversion to Grist encodes its values by blocks of sixteen. -/
theorem cvt_grist_value {int : Bool} {o : OpLB} (ok : cvtCalc int o c h = .ok r) (mine : (c.lanes h).getLsbD l = true)
    (grist : fmtIsGrist (modeFmt h.wrk.mode) = true) {i : Nat} (hi : i < cvtCount o.b.toNat (modeFmt h.wrk.mode) (extN o.e) / 16) :
    bits (joinRegs (r.words l)) (8 * gristBytes (modeFmt h.wrk.mode) * i) (8 * gristBytes (modeFmt h.wrk.mode)) =
      (gristEncode (modeFmt h.wrk.mode) (modeRnd h.wrk.mode) ((List.range 16).map (fun t => h.drawAt l (16 * i + t)))
        ((List.range 16).map (fun t => streamVal o.b.toNat (modeSgn h.wrk.mode) (modeRnd h.wrk.mode).ftz
          (h.wrk.at_ (h.cvtKeys o (modeFmt h.wrk.mode)) l) (16 * i + t)))).1 := by
  obtain ⟨⟨kd, size, block⟩, -⟩ := cvt_block ok mine
  have other : ¬(fmtIsInt o.b.toNat && fmtIsInt (modeFmt h.wrk.mode)) = true := by
    simp only [fmtIsGrist, fmtIsInt, Bool.and_eq_true, decide_eq_true_eq] at grist ⊢
    omega
  rw [cvtLane, if_neg other, if_pos grist, cvt_values ok mine] at block
  have words := block.eq (fun x hx => by
    obtain ⟨q, -, rfl⟩ := List.mem_map.1 hx
    exact bits_lt _ _ _) (by rw [size, splitRegs, List.length_map, List.length_range])
  have room := cvtBlocks_le o.b.toNat (extN o.e) grist
  have inside : 16 * i + 16 ≤ cvtCount o.b.toNat (modeFmt h.wrk.mode) (extN o.e) := by omega
  rw [words, joinRegs_splitRegs, bits_mod_two_pow, bits_gristStream _ _ _ _ hi, take_drop_eq_map (.inf false) (by simpa using inside)]
  · congr 2
    refine List.map_congr_left (fun t ht => map_range_getD _ _ ?_)
    have := List.mem_range.1 ht
    omega
  · have := Nat.mul_le_mul_right (gristBytes (modeFmt h.wrk.mode)) (Nat.succ_le_of_lt hi)
    rw [Nat.succ_mul] at this
    have split : 8 * gristBytes (modeFmt h.wrk.mode) * i = 8 * (i * gristBytes (modeFmt h.wrk.mode)) := by grind
    omega

end Sys2Proof.Machine
end

section
/-! SUPPORT. The values of MXSCALE (R185). For O60. -/

namespace Sys2Proof.Machine

variable {c : Crew} {h : Heat} {r : Res} {l : Nat}

-- A block and its scale (R92, R185).

/-- A block that has no scale: one of its values is a NaN or an infinity. -/
def mxSpecial (xs : List Val) : Bool := xs.any (fun x => x.isNaN || x.isInf)

/-- The exponent of a block's scale, from its largest magnitude. -/
def mxScale (f : Nat) (xs : List Val) : Int :=
  match xs.foldl maxMag (.fin false 0 0 false) with
  | .fin _ m e _ => if m = 0 then -127 else max (-127) (min 127 (expOf m e - mxEF f))
  | _ => -127

theorem mxScale_range (f : Nat) (xs : List Val) : -127 ≤ mxScale f xs ∧ mxScale f xs ≤ 127 := by
  unfold mxScale
  split
  · split
    · decide
    · omega
  · decide

variable (f : Nat) (rn : Rnd)

/-- The scale byte of a block. -/
theorem mxEncode_scale (ds : List Nat) (xs : List Val) :
    ((mxEncode f rn ds xs).1 : Int) = if mxSpecial xs = true then 255 else mxScale f xs + 127 := by
  have range := mxScale_range f xs
  have sum : (((mxScale f xs + 127).toNat : Nat) : Int) = mxScale f xs + 127 := Int.toNat_of_nonneg (by omega)
  rw [mxEncode, ← mxSpecial]
  split
  · rfl
  · exact sum

theorem mxEncode_scale_lt (ds : List Nat) (xs : List Val) : (mxEncode f rn ds xs).1 < 2 ^ 8 := by
  have range := mxScale_range f xs
  have value := mxEncode_scale f rn ds xs
  split at value <;> omega

theorem length_mxEncode (ds : List Nat) (xs : List Val) : (mxEncode f rn ds xs).2.1.length = xs.length := by
  rw [mxEncode]
  split <;> simp

/-- An element of a block: 0 without a scale, else scaled and rounded with saturation. -/
theorem mxEncode_elem (ds : List Nat) {xs : List Val} {t : Nat} (ht : t < xs.length) :
    (mxEncode f rn ds xs).2.1.getD t 0 = if mxSpecial xs = true then 0 else
      (roundTo f { rn with sat := true } (ds.getD t 0) (scaleVal (xs.getD t (.inf false)) (-mxScale f xs))).1 := by
  rw [mxEncode, ← mxSpecial]
  split
  · simp [List.getD, ht]
  · dsimp only
    rw [List.map_map, map_range_getD _ _ ht]
    rfl

-- The blocks of a stream.

/-- Block `i` of a stream. -/
def mxPart (vs : List Val) (i : Nat) : List Val := (vs.drop (32 * i)).take 32

theorem length_mxBlocks_scales (n : Nat) (vs : List Val) (ds : List Nat) : (mxBlocks f rn n vs ds).1.length = n := by
  induction n generalizing vs ds with
  | zero => rfl
  | succ n ih => simp [mxBlocks, ih]

theorem length_mxBlocks_elems (n : Nat) (vs : List Val) (ds : List Nat) : (mxBlocks f rn n vs ds).2.1.length = min (32 * n) vs.length := by
  induction n generalizing vs ds with
  | zero => simp [mxBlocks]
  | succ n ih =>
    simp only [mxBlocks, List.length_append, ih, length_mxEncode, List.length_take, List.length_drop]
    omega

/-- The scale of a block of a stream. -/
theorem mxBlocks_scale {n i : Nat} (vs : List Val) (ds : List Nat) (hi : i < n) :
    (mxBlocks f rn n vs ds).1.getD i 0 = (mxEncode f rn ((ds.drop (32 * i)).take 32) (mxPart vs i)).1 := by
  induction n generalizing i vs ds with
  | zero => omega
  | succ n ih =>
    cases i with
    | zero => rfl
    | succ i =>
      simp only [mxBlocks, List.getD_cons_succ, ih _ _ (Nat.lt_of_succ_lt_succ hi), mxPart, List.drop_drop]
      rw [Nat.mul_succ, Nat.add_comm 32]

/-- An element of a block of a stream. -/
theorem mxBlocks_elem {n i t : Nat} (vs : List Val) (ds : List Nat) (hi : i < n) (ht : t < (mxPart vs i).length) :
    (mxBlocks f rn n vs ds).2.1.getD (32 * i + t) 0 = (mxEncode f rn ((ds.drop (32 * i)).take 32) (mxPart vs i)).2.1.getD t 0 := by
  induction n generalizing i vs ds with
  | zero => omega
  | succ n ih =>
    simp only [mxBlocks]
    cases i with
    | zero =>
      rw [Nat.mul_zero, Nat.zero_add, getD_append_left _ _ _ _ (by rw [length_mxEncode]; exact ht)]
      rfl
    | succ i =>
      have whole : (vs.take 32).length = 32 := by
        simp only [mxPart, List.length_take, List.length_drop] at ht ⊢
        omega
      have later : mxPart vs (i + 1) = mxPart (vs.drop 32) i := by
        rw [mxPart, mxPart, List.drop_drop, Nat.mul_succ, Nat.add_comm 32]
      rw [later] at ht
      rw [getD_append_right _ _ _ _ (by rw [length_mxEncode, whole]; omega), length_mxEncode, whole,
        show 32 * (i + 1) + t - 32 = 32 * i + t by omega, ih _ _ (Nat.lt_of_succ_lt_succ hi) ht, later, List.drop_drop, Nat.mul_succ,
        Nat.add_comm 32]

-- The word.

/-- Splitting the number of registers gives the registers back. -/
theorem splitRegs_joinRegs {rs : List Nat} (small : ∀ x ∈ rs, x < 2 ^ 32) : splitRegs rs.length (joinRegs rs) = rs := by
  rw [splitRegs, List.map_congr_left (fun i _ => bits_joinRegs small i), ← eq_map_range rs 0]

/-- The format in which a register's tag is read. -/
def Regs.readFmt (r : Regs) (k : Nat) : Nat := if r.rdTag k = fmtBITS then fmtFP32 else r.rdTag k

/-- The values of a lane's registers, each read by its tag. -/
def Regs.tagged (r : Regs) (ftz : Bool) (ks : List Nat) (l : Nat) : List Val :=
  ks.flatMap (fun k => (elemsOf (slotBits (r.readFmt k)) (r.at_ [k] l)).map (valOf (r.readFmt k) ftz))

/-- A register read as FP32, FP16 or BF16 holds the elements of its format. -/
theorem Regs.length_tagged (r : Regs) (ftz : Bool) {ks : List Nat} (l : Nat)
    (formats : r.tagsIn ks [fmtFP32, fmtFP16, fmtBF16, fmtBITS] = true) :
    (r.tagged ftz ks l).length = (ks.map (fun k => epr (r.readFmt k))).sum := by
  rw [Regs.tagged, List.length_flatMap]
  refine congrArg _ (List.map_congr_left (fun k hk => ?_))
  have tag := List.all_eq_true.1 formats k hk
  simp only [List.contains_eq_mem, List.mem_cons, List.not_mem_nil, or_false, decide_eq_true_eq] at tag
  rw [List.length_map, length_elemsOf, length_at, Regs.readFmt]
  rcases tag with tag | tag | tag | tag <;> rw [tag] <;> rfl

omit f rn in
/-- Words of registers that hold small numbers are the numbers. -/
theorem words_eq {ks : List Nat} {m : Word} {outs : List (List Nat)} {tag : Nat → Nat} {fl : Flags} {x : Option Lanes} {out : List Nat}
    (mine : outs.getD l [] = out) (small : ∀ v ∈ out, v < 2 ^ 32) (size : ks.length = out.length) :
    Res.words ⟨vecW ks m outs tag, fl, x⟩ l = out := by
  rw [words_vecW, mine, size]
  conv => rhs; rw [eq_map_range out 0]
  exact List.map_congr_left (fun i _ => Nat.mod_eq_of_lt (getD_lt small i))

/-- What a lane gets from a word that writes two blocks, one after the other. -/
theorem drawLanes_pair {ks ks' : List Nat} {tag tag' : Nat → Nat} {n : Nat} {g : Nat → Word → List Nat × Flags × Word} {first second : List Nat}
    (made : drawLanes c h (fun out => vecW ks (c.lanes h) (out.map (fun x => x.take n)) tag
      ++ vecW ks' (c.lanes h) (out.map (fun x => x.drop n)) tag') g = r)
    (mine : (c.lanes h).getLsbD l = true) (out : (g l (lane h.wrk.lfsr l)).1 = first ++ second)
    (small : ∀ v ∈ first ++ second, v < 2 ^ 32) (size : first.length = n) (size₁ : ks.length = n) (size₂ : ks'.length = second.length) :
    r.words l = first ++ second := by
  obtain ⟨outs, ws, lanes⟩ := drawLanes_lane c h (fun out => vecW ks (c.lanes h) (out.map (fun x => x.take n)) tag
    ++ vecW ks' (c.lanes h) (out.map (fun x => x.drop n)) tag') g (lt_of_lane mine) mine
  rw [made] at ws
  have words : r.words l = Res.words ⟨vecW ks (c.lanes h) (outs.map (fun x => x.take n)) tag
      ++ vecW ks' (c.lanes h) (outs.map (fun x => x.drop n)) tag', 0, none⟩ l := by
    rw [Res.words, ws]
    rfl
  have part (cut : List Nat → List Nat) (nothing : cut [] = []) : (outs.map cut).getD l [] = cut (first ++ second) := by
    rw [← out, ← lanes, List.getD, List.getD, List.getElem?_map]
    cases outs[l]? with
    | none => exact nothing.symm
    | some x => rfl
  rw [words, words_append, words_eq (part _ (List.take_nil ..)) (fun v hv => small v (List.mem_of_mem_take hv)) (by simp [size, size₁]),
    words_eq (part _ (List.drop_nil ..)) (fun v hv => small v (List.mem_of_mem_drop hv)) (by simp [size, size₂]), List.take_append_drop]

variable {f rn} {o : OpLB}

/-- Formats with a scale of 32 elements. -/
theorem ocp_plain {f : Nat} (ocp : fmtIsOcp f = true) : fmtIs64 f = false ∧ fmtIsGrist f = false := by
  simp only [fmtIsOcp, Bool.and_eq_true, decide_eq_true_eq] at ocp
  obtain ⟨low, high⟩ := ocp
  exact (by decide : ∀ g < 21, 16 ≤ g → fmtIs64 g = false ∧ fmtIsGrist g = false) f (Nat.lt_succ_of_le high) low

/-- The blocks that MXSCALE makes of a lane's values. -/
def Heat.mxMade (h : Heat) (vs : List Val) (l : Nat) : List Nat × List Nat × Flags :=
  mxBlocks (modeFmt h.wrk.mode) (modeRnd h.wrk.mode) (ceilDiv vs.length 32) vs (draws16 (modeRnd h.wrk.mode) vs.length (lane h.wrk.lfsr l)).1

/-- Every element has a place in the blocks. -/
theorem length_mxMade (h : Heat) (vs : List Val) (l : Nat) : (h.mxMade vs l).2.1.length = vs.length := by
  rw [Heat.mxMade, length_mxBlocks_elems, ceilDiv]
  omega

/-- The registers that MXSCALE gives a lane: the elements' and then the scales'. -/
theorem mxscale_words (ok : mxscaleCalc o c h = .ok r) (mine : (c.lanes h).getLsbD l = true) {vs : List Val}
    (values : vs = h.wrk.tagged (modeRnd h.wrk.mode).ftz (h.keys o.a o.e) l) :
    fmtIsOcp (modeFmt h.wrk.mode) = true ∧
      r.words l = regsOfElems (slotBits (modeFmt h.wrk.mode)) (h.mxMade vs l).2.1 ++ regsOfElems 8 (h.mxMade vs l).1 ∧
      (regsOfElems (slotBits (modeFmt h.wrk.mode)) (h.mxMade vs l).2.1).length = regsOf (modeFmt h.wrk.mode) vs.length := by
  unfold mxscaleCalc at ok
  dsimp only at ok
  generalize passed : c.check h _ _ _ _ _ = checked at ok
  cases checked with
  | error x => cases ok
  | ok u =>
    obtain ⟨-, formats⟩ := check_passed passed
    obtain ⟨ocp, tags⟩ := Bool.and_eq_true_iff.1 formats
    obtain ⟨-, plain⟩ := ocp_plain ocp
    have count := h.wrk.length_tagged (modeRnd h.wrk.mode).ftz l tags
    rw [← values] at count
    have size : (regsOfElems (slotBits (modeFmt h.wrk.mode)) (h.mxMade vs l).2.1).length = regsOf (modeFmt h.wrk.mode) vs.length := by
      rw [length_regsOfElems_slotBits plain, length_mxMade]
    have bytes : (regsOfElems 8 (h.mxMade vs l).1).length = ceilDiv (ceilDiv vs.length 32) 4 := by
      rw [length_regsOfElems, Heat.mxMade, length_mxBlocks_scales]
      rfl
    have small : ∀ v ∈ regsOfElems 8 (h.mxMade vs l).1, v < 2 ^ 32 := regsOfElems_lt (by decide) _
    refine ⟨ocp, ?_, size⟩
    refine drawLanes_pair (Except.ok.inj ok) mine ?_ (fun v hv => ?_) (size.trans ?_) ?_ ?_
    · have source : (List.range (h.keys o.a o.e).length).flatMap (fun i =>
          (elemsOf (slotBits (h.wrk.readFmt ((h.keys o.a o.e).getD i 0))) (h.wrk.at_ [(h.keys o.a o.e).getD i 0] l)).map
            (valOf (h.wrk.readFmt ((h.keys o.a o.e).getD i 0)) (modeRnd h.wrk.mode).ftz)) = vs := by
        rw [values, Regs.tagged]
        conv => rhs; rw [eq_map_range (h.keys o.a o.e) 0, List.flatMap_map]
      have reads (k : Nat) : (if h.wrk.rdTag k = fmtBITS then fmtFP32 else h.wrk.rdTag k) = h.wrk.readFmt k := rfl
      simp only [reads] at count ⊢
      rw [source, ← count, ← bytes]
      exact congrArg _ (splitRegs_joinRegs small)
    · rcases List.mem_append.1 hv with hv | hv
      · exact regsOfElems_lt (slotWidth_slotBits _) _ v hv
      · exact small v hv
    · rw [count]
      rfl
    · simp
    · rw [length_dkeys, bytes, count]
      rfl

section
variable (ok : mxscaleCalc o c h = .ok r) (mine : (c.lanes h).getLsbD l = true) {vs : List Val}
  (values : vs = h.wrk.tagged (modeRnd h.wrk.mode).ftz (h.keys o.a o.e) l) {i : Nat} (inside : 32 * i < vs.length)

include ok mine values inside

/-- The scale byte of a block. -/
theorem mxscale_scale : (bits ((r.words l).getD (regsOf (modeFmt h.wrk.mode) vs.length + i / 4) 0) (8 * (i % 4)) 8 : Int) =
    if mxSpecial (mxPart vs i) = true then 255 else mxScale (modeFmt h.wrk.mode) (mxPart vs i) + 127 := by
  obtain ⟨-, words, size⟩ := mxscale_words ok mine values
  have scales : (h.mxMade vs l).1.length = ceilDiv vs.length 32 := length_mxBlocks_scales ..
  have hi : i < ceilDiv vs.length 32 := by
    rw [ceilDiv]
    omega
  have place : i / 4 < (regsOfElems 8 (h.mxMade vs l).1).length := by
    rw [length_regsOfElems, scales]
    exact place_lt_ceilDiv hi (by decide)
  rw [words, ← size, getD_append_right _ _ _ _ (Nat.le_add_right ..), Nat.add_sub_cancel_left, regsOfElems_narrow (by decide) place,
    bits_ofDigits (fun _ _ => Nat.mod_lt _ (by decide)) (Nat.mod_lt _ (by decide))]
  have same : i / 4 * (32 / 8) + i % 4 = i := by omega
  rw [same, Heat.mxMade, mxBlocks_scale _ _ _ _ hi, Nat.mod_eq_of_lt (mxEncode_scale_lt ..)]
  exact mxEncode_scale ..

/-- An element of a block. -/
theorem mxscale_elem {t : Nat} (ht : t < (mxPart vs i).length) :
    (elemsOf (slotBits (modeFmt h.wrk.mode)) ((r.words l).take (regsOf (modeFmt h.wrk.mode) vs.length))).getD (32 * i + t) 0 =
      if mxSpecial (mxPart vs i) = true then 0 else (roundTo (modeFmt h.wrk.mode) { modeRnd h.wrk.mode with sat := true }
        (h.drawAt l (32 * i + t)) (scaleVal ((mxPart vs i).getD t (.inf false)) (-mxScale (modeFmt h.wrk.mode) (mxPart vs i)))).1 := by
  obtain ⟨ocp, words, size⟩ := mxscale_words ok mine values
  have hi : i < ceilDiv vs.length 32 := by
    rw [ceilDiv]
    omega
  have part : t < 32 ∧ 32 * i + t < vs.length := by
    simp only [mxPart, List.length_take, List.length_drop] at ht
    omega
  have draw : (((draws16 (modeRnd h.wrk.mode) vs.length (lane h.wrk.lfsr l)).1.drop (32 * i)).take 32).getD t 0 = h.drawAt l (32 * i + t) := by
    rw [drawAt_eq, ← draws16_getD _ _ part.2]
    simp [List.getD, part.1]
  have float : modeFmt h.wrk.mode ≠ fmtE8M0 := fun same => by
    rw [same] at ocp
    cases ocp
  rw [words, ← size, List.take_left, elemsOf_image (slotWidth_slotBits _) (fun _ _ => rfl) (Nat.le_refl _) (by rw [length_mxMade]; exact part.2),
    Heat.mxMade, mxBlocks_elem _ _ _ _ hi ht, mxEncode_elem _ _ _ ht,
    draw]
  split
  · exact Nat.zero_mod _
  · exact Nat.mod_eq_of_lt (roundTo_lt float _ _ _)

end

end Sys2Proof.Machine
end

section
/-! SUPPORT. The values of RED and SCAN (R96, R97, R196). For O60. -/

namespace Sys2Proof.Machine

variable {c : Crew} {h : Heat} {r : Res} {l : Nat}

-- Folds that collect one value at a time.

/-- A fold that appends a value at every step gives a list whose entries are those values. -/
theorem foldl_collects {α σ : Type} {Q : Nat → α → Prop} (step : List α × σ → Nat → List α × σ)
    (grows : ∀ a i, ∃ v st, step a i = (a.1 ++ [v], st) ∧ Q i v) (n : Nat) (st : σ) (d : α) :
    ((List.range n).foldl step ([], st)).1.length = n ∧ ∀ i, i < n → Q i (((List.range n).foldl step ([], st)).1.getD i d) := by
  induction n with
  | zero => exact ⟨rfl, fun i hi => absurd hi (Nat.not_lt_zero i)⟩
  | succ n ih =>
    obtain ⟨size, values⟩ := ih
    obtain ⟨v, st', made, holds⟩ := grows ((List.range n).foldl step ([], st)) n
    rw [List.range_succ, List.foldl_append, List.foldl_cons, List.foldl_nil, made]
    refine ⟨by simp [size], fun i hi => ?_⟩
    rcases Nat.lt_succ_iff_lt_or_eq.1 hi with before | rfl
    · rw [getD_append_left _ _ _ _ (by rw [size]; exact before)]
      exact values i before
    · rw [getD_append_right _ _ _ _ (Nat.le_of_eq size), size, Nat.sub_self]
      exact holds

-- Nodes (R96).

/-- A combination gives the values of `g` on codes of `w` bits, whatever it draws. -/
structure Combines (cb : Combine) (g : Nat → Nat → Nat) (w : Nat) : Prop where
  value : ∀ a b s, a < 2 ^ w → b < 2 ^ w → (cb a b s).1 = g a b
  small : ∀ a b, a < 2 ^ w → b < 2 ^ w → g a b < 2 ^ w

/-- The value of a node is `x`, a code of `w` bits where there is one. -/
structure RNode.Is (w : Nat) (n : RNode) (x : Option Nat) : Prop where
  value : n.map Prod.fst = x
  small : ∀ v ∈ x, v < 2 ^ w

variable {cb : Combine} {g : Nat → Nat → Nat} {w : Nat}

theorem RNode.Is.none : RNode.Is w none none := ⟨rfl, by simp⟩

theorem combineNodes_is (com : Combines cb g w) {a b : RNode} {x y : Option Nat} (ha : a.Is w x) (hb : b.Is w y) (st : Lanes × Flags) :
    RNode.Is w (combineNodes cb st a b).1 (joinNodes g x y) := by
  obtain ⟨rfl, smallA⟩ := ha
  obtain ⟨rfl, smallB⟩ := hb
  match a, b with
  | some (a, i), some (b, j) =>
    have less := com.small a b (smallA a rfl) (smallB b rfl)
    have same := com.value a b (lane st.1 i) (smallA a rfl) (smallB b rfl)
    exact ⟨congrArg some same, fun v hv => by cases hv; exact less⟩
  | some (a, i), none => exact ⟨rfl, smallA⟩
  | none, some (b, j) => exact ⟨rfl, smallB⟩
  | none, none => exact ⟨rfl, smallB⟩

/-- A level whose nodes have the values `x`. -/
def LevelIs (w : Nat) (xs : List RNode) (x : Nat → Option Nat) : Prop := ∀ i, (xs.getD i none).Is w (x i)

theorem levelUp_is (com : Combines cb g w) {xs : List RNode} {x : Nat → Option Nat} (is : LevelIs w xs x) (even : xs.length % 2 = 0)
    (st : Lanes × Flags) : LevelIs w (levelUp cb xs st).1 (fun i => joinNodes g (x (2 * i)) (x (2 * i + 1))) ∧
      (levelUp cb xs st).1.length = xs.length / 2 := by
  induction xs using pairsInduction generalizing x st with
  | nil => 
    refine ⟨fun i => ?_, rfl⟩
    have first := combineNodes_is com (is (2 * i)) (is (2 * i + 1)) st
    simpa [levelUp, combineNodes] using first
  | singleton a => simp at even
  | cons_cons a b t ih => 
    have next := ih (x := fun i => x (i + 2)) (fun i => is (i + 2)) (by rw [List.length_cons, List.length_cons] at even; omega) (combineNodes cb st a b).2
    obtain ⟨values, size⟩ := next
    refine ⟨fun i => ?_, ?_⟩
    · cases i with
      | zero => exact combineNodes_is com (is 0) (is 1) st
      | succ i => exact values i
    · simp only [levelUp, List.length_cons, size]
      omega

/-- The tree over a level of the tree. -/
theorem treeNode_level (g : Nat → Nat → Nat) (x : Nat → Option Nat) (d i : Nat) :
    treeNode g (fun j => joinNodes g (x (2 * j)) (x (2 * j + 1))) d i = treeNode g x (d + 1) i := by
  induction d generalizing i with
  | zero => rfl
  | succ d ih => rw [treeNode, ih, ih]; rfl

/-- The levels of the tree hold its nodes. -/
theorem redLevels_is (com : Combines cb g w) {n : Nat} {xs : List RNode} {x : Nat → Option Nat} (is : LevelIs w xs x) (whole : 2 ^ n ∣ xs.length)
    (st : Lanes × Flags) {d : Nat} (hd : d ≤ n) : LevelIs w ((redLevels cb n xs st).1.getD d []) (treeNode g x d) := by
  induction n generalizing xs x st d with
  | zero =>
    obtain rfl := Nat.le_zero.1 hd
    exact is
  | succ n ih =>
    cases d with
    | zero => exact is
    | succ d =>
      obtain ⟨k, size⟩ := whole
      rw [Nat.pow_succ, Nat.mul_assoc, Nat.mul_left_comm] at size
      obtain ⟨up, half⟩ := levelUp_is com is (by rw [size]; exact Nat.mul_mod_right ..) st
      have next := ih up (by rw [half, size, Nat.mul_div_cancel_left _ (by decide)]; exact Nat.dvd_mul_right ..) (levelUp cb xs st).2
        (Nat.le_of_succ_le_succ hd)
      intro i
      rw [← treeNode_level]
      exact next i

-- The inclusive fold (R97).

theorem double_half_odd {q : Nat} (k : Nat) (odd : q % 2 = 1) : q / 2 * 2 ^ (k + 1) + 2 ^ k = q * 2 ^ k := by
  conv => rhs; rw [show q = q / 2 * 2 + 1 by omega]
  grind

theorem double_half_even {q : Nat} (k : Nat) (even : q % 2 = 0) : q / 2 * 2 ^ (k + 1) = q * 2 ^ k := by
  conv => rhs; rw [show q = q / 2 * 2 by omega]
  grind

/-- The fold over the lanes below `n`, from the level `k` down. -/
theorem scan_is (com : Combines cb g w) {lv : List (List RNode)} {x : Nat → Option Nat} {k : Nat}
    (is : ∀ d, d < k → LevelIs w (lv.getD d []) (treeNode g x d)) (n : Nat) {acc : RNode} {y : Option Nat} (here : acc.Is w y)
    (st : Lanes × Flags) :
    ((List.range k).reverse.foldl (fun (a : RNode × Nat × (Lanes × Flags)) d =>
      if n.testBit d then
        let x := ((lv.getD d []).getD (a.2.1 / 2 ^ d) none)
        let (y, st) := combineNodes cb a.2.2 a.1 x
        (y, a.2.1 + 2 ^ d, st)
      else a) (acc, n / 2 ^ k * 2 ^ k, st)).1.Is w
    ((List.range k).reverse.foldl (fun acc d =>
      if n.testBit d then joinNodes g acc (treeNode g x d (2 * (n / 2 ^ (d + 1)))) else acc) y) := by
  induction k generalizing acc y st with
  | zero => exact here
  | succ k ih =>
    have place : n / 2 ^ (k + 1) * 2 ^ (k + 1) / 2 ^ k = 2 * (n / 2 ^ (k + 1)) := by
      rw [Nat.pow_succ, ← Nat.mul_assoc, Nat.mul_right_comm, Nat.mul_div_cancel _ (Nat.two_pow_pos k), Nat.mul_comm]
    have half : n / 2 ^ (k + 1) = n / 2 ^ k / 2 := by rw [Nat.pow_succ, Nat.div_div_eq_div_mul]
    simp only [List.range_succ, List.reverse_append, List.reverse_singleton, List.singleton_append, List.foldl_cons]
    cases bit : n.testBit k with
    | true =>
      have odd : n / 2 ^ k % 2 = 1 := by simpa [Nat.testBit_eq_decide_div_mod_eq] using bit
      have next : n / 2 ^ (k + 1) * 2 ^ (k + 1) + 2 ^ k = n / 2 ^ k * 2 ^ k := by
        rw [half]
        exact double_half_odd k odd
      simp only [if_true, place, next]
      exact ih (fun d hd => is d (Nat.lt_succ_of_lt hd)) (combineNodes_is com here (is k (Nat.lt_succ_self k) _) st) _
    | false =>
      have even : n / 2 ^ k % 2 = 0 := by simpa [Nat.testBit_eq_decide_div_mod_eq] using bit
      have same : n / 2 ^ (k + 1) * 2 ^ (k + 1) = n / 2 ^ k * 2 ^ k := by
        rw [half]
        exact double_half_even k even
      simp only [Bool.false_eq_true, if_false, same]
      exact ih (fun d hd => is d (Nat.lt_succ_of_lt hd)) here _

theorem scanFold_is (com : Combines cb g w) {lv : List (List RNode)} {x : Nat → Option Nat} (is : ∀ d, d < 6 → LevelIs w (lv.getD d []) (treeNode g x d))
    {n : Nat} (lanes : n < 64) (st : Lanes × Flags) : (scanFold cb lv n st).1.Is w (scanNodes g x n) := by
  have start : n / 2 ^ 6 * 2 ^ 6 = 0 := by omega
  have fold := scan_is com is n RNode.Is.none st
  rw [start] at fold
  exact fold

-- One element position.

/-- What a node gives, with the identity where no lane folds. -/
def RNode.out (ident : Nat) (n : RNode) : Nat :=
  match n with
  | some (x, _) => x
  | none => ident

theorem RNode.Is.out {n : RNode} {y : Option Nat} (is : n.Is w y) {ident : Nat} (least : ident < 2 ^ w) :
    n.out ident = y.getD ident ∧ y.getD ident < 2 ^ w := by
  obtain ⟨rfl, small⟩ := is
  match n with
  | some (x, _) => exact ⟨rfl, small x rfl⟩
  | .none => exact ⟨rfl, least⟩

/-- The contributing lanes' values. -/
def leafOf (m : Word) (x : Nat → Nat) (i : Nat) : Option Nat := if m.getLsbD i then some (x i) else none

/-- The leaves of one element position. -/
def leafNodes (m : Word) (xs : List Nat) : List RNode := (List.range 32).map (fun l => if m.getLsbD l then some (xs.getD l 0, l) else none)

theorem leaves_are {m : Word} {xs : List Nat} (small : ∀ x ∈ xs, x < 2 ^ w) :
    LevelIs w (leafNodes m xs) (leafOf m (fun i => xs.getD i 0)) := by
  intro i
  unfold leafOf leafNodes
  by_cases hi : i < 32
  · rw [map_range_getD _ _ hi]
    split
    · exact ⟨rfl, fun v hv => by cases hv; exact getD_lt small i⟩
    · exact RNode.Is.none
  · rw [getD_of_ge _ _ (by simpa using hi), BitVec.getLsbD_of_ge _ _ (by omega), if_neg Bool.false_ne_true]
    exact RNode.Is.none

/-- One lane's part of a scan: the fold over the lanes below `below i`. -/
def scanLane (cb : Combine) (ident : Nat) (lv : List (List RNode)) (m : Word) (below : Nat → Nat) (a : List Nat × (Lanes × Flags)) (i : Nat) :
    List Nat × (Lanes × Flags) :=
  if m.getLsbD i then (a.1 ++ [(scanFold cb lv (below i) a.2).1.out ident], (scanFold cb lv (below i) a.2).2) else (a.1 ++ [0], a.2)

theorem redElem_red (cb : Combine) (ident : Nat) (m : Word) (xs : List Nat) (st : Lanes × Flags) :
    (redElem cb ident .red m xs st).1 =
      (List.range 32).map (fun _ => (((redLevels cb 5 (leafNodes m xs) st).1.getD 5 []).getD 0 none).out ident) := rfl

theorem redElem_incl (cb : Combine) (ident : Nat) (m : Word) (xs : List Nat) (st : Lanes × Flags) :
    redElem cb ident .incl m xs st = (List.range 32).foldl
      (scanLane cb ident (redLevels cb 5 (leafNodes m xs) st).1 m (fun i => i + 1)) ([], (redLevels cb 5 (leafNodes m xs) st).2) := by
  unfold redElem
  dsimp only
  refine congrArg (fun step => (List.range 32).foldl step ([], (redLevels cb 5 (leafNodes m xs) st).2)) (funext fun a => funext fun i => ?_)
  unfold scanLane leafNodes
  dsimp only
  generalize scanFold cb _ _ a.2 = folded
  rfl

theorem redElem_excl (cb : Combine) (ident : Nat) (m : Word) (xs : List Nat) (st : Lanes × Flags) :
    redElem cb ident .excl m xs st = (List.range 32).foldl
      (scanLane cb ident (redLevels cb 5 (leafNodes m xs) st).1 m (fun i => i)) ([], (redLevels cb 5 (leafNodes m xs) st).2) := by
  unfold redElem
  dsimp only
  refine congrArg (fun step => (List.range 32).foldl step ([], (redLevels cb 5 (leafNodes m xs) st).2)) (funext fun a => funext fun i => ?_)
  unfold scanLane leafNodes
  dsimp only
  generalize scanFold cb _ _ a.2 = folded
  rfl

/-- A contributing lane's entry of a scan. -/
theorem scanLane_getD (ident : Nat) (lv : List (List RNode)) {m : Word} (below : Nat → Nat) (mine : m.getLsbD l = true) (st : Lanes × Flags) :
    ∃ st', ((List.range 32).foldl (scanLane cb ident lv m below) ([], st)).1.getD l 0 = (scanFold cb lv (below l) st').1.out ident := by
  obtain ⟨-, values⟩ := foldl_collects (Q := fun i v => m.getLsbD i = true → ∃ st', v = (scanFold cb lv (below i) st').1.out ident)
    (scanLane cb ident lv m below) (fun a i => by
      unfold scanLane
      cases m.getLsbD i with
      | true => exact ⟨_, _, if_pos rfl, fun _ => ⟨_, rfl⟩⟩
      | false => exact ⟨_, _, if_neg Bool.false_ne_true, fun other => absurd other Bool.false_ne_true⟩) 32 st 0
  exact values l (lt_of_lane mine) mine

/-- What a contributing lane gets at one element position. -/
theorem redElem_value (com : Combines cb g w) {ident : Nat} (least : ident < 2 ^ w) (kind : RedKind) {m : Word} (mine : m.getLsbD l = true)
    {xs : List Nat} (small : ∀ x ∈ xs, x < 2 ^ w) (st : Lanes × Flags) :
    (redElem cb ident kind m xs st).1.getD l 0 = redValue kind g ident m (fun i => xs.getD i 0) l ∧
      redValue kind g ident m (fun i => xs.getD i 0) l < 2 ^ w := by
  have hl := lt_of_lane mine
  have levels (d : Nat) (hd : d < 6) := redLevels_is com (leaves_are (m := m) small) (n := 5) (by simp [leafNodes]) st (Nat.le_of_lt_succ hd)
  cases kind with
  | red =>
    rw [redElem_red, map_range_getD _ _ hl]
    exact (levels 5 (by decide) 0).out least
  | incl =>
    obtain ⟨st', value⟩ := scanLane_getD (cb := cb) ident (redLevels cb 5 (leafNodes m xs) st).1 (fun i => i + 1) mine
      (redLevels cb 5 (leafNodes m xs) st).2
    rw [redElem_incl, value]
    exact (scanFold_is com levels (show l + 1 < 64 by omega) st').out least
  | excl =>
    obtain ⟨st', value⟩ := scanLane_getD (cb := cb) ident (redLevels cb 5 (leafNodes m xs) st).1 (fun i => i) mine
      (redLevels cb 5 (leafNodes m xs) st).2
    rw [redElem_excl, value]
    exact (scanFold_is com levels (show l < 64 by omega) st').out least

end Sys2Proof.Machine
end

section
/-! SUPPORT. The combinations of RED and SCAN, and the word (R96, R196, Table 11-6). For O60. -/

namespace Sys2Proof.Machine

variable {c : Crew} {h : Heat} {r : Res} {l : Nat}

-- The combinations.

theorem float_not_logic {op : RedOp} (float : redIsFloat op = true) : redIsLogic op = false := by
  cases op with
  | and => cases float
  | or => cases float
  | _ => rfl

/-- The width of the elements that RED and SCAN fold. -/
def redWidth (op : RedOp) (mode : BitVec 40) : Nat :=
  if redIsLogic op then 32 else if redIsFloat op then slotBits (modeFmt mode) else iwBits (modeIw mode)

theorem slotWidth_redWidth (op : RedOp) (mode : BitVec 40) : SlotWidth (redWidth op mode) := by
  unfold redWidth
  split
  · decide
  · split
    · exact slotWidth_slotBits _
    · have range : modeIw mode < 2 ^ 2 := bits_lt _ _ _
      unfold iwBits
      exact (by decide : ∀ i < 2 ^ 2, SlotWidth (8 * 2 ^ i)) _ range

theorem iwBits_pos (iw : Nat) : 1 ≤ iwBits iw := by
  have := Nat.two_pow_pos iw
  rw [iwBits]
  omega

/-- Wrapping a code's value gives the code back. -/
theorem wrapInt_intVal {w x : Nat} (sgn : Bool) (small : x < 2 ^ w) : wrapInt w (intVal w sgn x) = x := by
  have whole : ((2 ^ w : Nat) : Int) = 2 ^ w := by push_cast; rfl
  have plain : ((x : Int) % ((2 ^ w : Nat) : Int)).toNat = x := by
    rw [← Int.natCast_emod, Nat.mod_eq_of_lt small, Int.toNat_natCast]
  rw [intVal_eq sgn small, wrapInt]
  split
  · rw [← whole, Int.sub_emod_right, plain]
  · exact plain

/-- The lesser of two codes, by their values. -/
theorem imin_combines (w : Nat) (sgn : Bool) : Combines (fun a b s => (wrapInt w (min (intVal w sgn a) (intVal w sgn b)), 0, s))
    (fun a b => if intVal w sgn a ≤ intVal w sgn b then a else b) w where
  value a b s ha hb := by
    dsimp only
    split
    · next le => rw [Int.min_eq_left le, wrapInt_intVal sgn ha]
    · next more => rw [Int.min_eq_right (by omega), wrapInt_intVal sgn hb]
  small a b ha hb := by
    split
    · exact ha
    · exact hb

/-- The greater of two codes, by their values. -/
theorem imax_combines (w : Nat) (sgn : Bool) : Combines (fun a b s => (wrapInt w (max (intVal w sgn a) (intVal w sgn b)), 0, s))
    (fun a b => if intVal w sgn a ≤ intVal w sgn b then b else a) w where
  value a b s ha hb := by
    dsimp only
    split
    · next le => rw [Int.max_eq_right le, wrapInt_intVal sgn hb]
    · next more => rw [Int.max_eq_left (by omega), wrapInt_intVal sgn ha]
  small a b ha hb := by
    split
    · exact hb
    · exact ha

/-- What RED and SCAN fold two values to. -/
def redPair (op : RedOp) (mode : BitVec 40) (a b : Nat) : Nat :=
  match op with
  | .fadd => (roundTo (modeFmt mode) (modeRnd mode) 0 (sumVals ((modeRnd mode).mode == rndRDN)
      [valOf (modeFmt mode) (modeRnd mode).ftz a, valOf (modeFmt mode) (modeRnd mode).ftz b]).1).1
  | .fmin => (minMax false (modeFmt mode) (modeRnd mode).ftz a b).1
  | .fmax => (minMax true (modeFmt mode) (modeRnd mode).ftz a b).1
  | .iadd => (intResult (iwBits (modeIw mode)) (modeSgn mode) (modeRnd mode).sat
      (intVal (iwBits (modeIw mode)) (modeSgn mode) a + intVal (iwBits (modeIw mode)) (modeSgn mode) b)).1
  | .imin => if intVal (iwBits (modeIw mode)) (modeSgn mode) a ≤ intVal (iwBits (modeIw mode)) (modeSgn mode) b then a else b
  | .imax => if intVal (iwBits (modeIw mode)) (modeSgn mode) a ≤ intVal (iwBits (modeIw mode)) (modeSgn mode) b then b else a
  | .and => a &&& b
  | .or => a ||| b

/-- The combination of every operation, but for FADD's draws. -/
theorem redCombine_combines {op : RedOp} {mode : BitVec 40} (float : redIsFloat op = true → modeFmt mode ≠ fmtE8M0)
    (plain : op = .fadd → (modeRnd mode).mode ≠ rndSR) : Combines (redCombine op mode).1 (redPair op mode) (redWidth op mode) := by
  cases op with
  | fadd =>
    refine ⟨fun a b s _ _ => ?_, fun a b _ _ => roundTo_lt (float rfl) _ _ _⟩
    simp only [redCombine, drawFor, if_neg (plain rfl)]
    rfl
  | fmin => exact ⟨fun a b s _ _ => rfl, fun a b ha hb => minMax_lt (float rfl) _ _ ha hb⟩
  | fmax => exact ⟨fun a b s _ _ => rfl, fun a b ha hb => minMax_lt (float rfl) _ _ ha hb⟩
  | iadd => exact ⟨fun a b s _ _ => rfl, fun a b _ _ => intResult_lt _ _ _ _⟩
  | imin => exact imin_combines _ _
  | imax => exact imax_combines _ _
  | and => exact ⟨fun a b s _ _ => rfl, fun a b ha _ => Nat.lt_of_le_of_lt Nat.and_le_left ha⟩
  | or => exact ⟨fun a b s _ _ => rfl, fun a b ha hb => Nat.or_lt_two_pow ha hb⟩

theorem Combines.congr {cb : Combine} {g g' : Nat → Nat → Nat} {w : Nat} (com : Combines cb g w)
    (same : ∀ a b, a < 2 ^ w → b < 2 ^ w → g' a b = g a b) : Combines cb g' w where
  value a b s ha hb := (com.value a b s ha hb).trans (same a b ha hb).symm
  small a b ha hb := same a b ha hb ▸ com.small a b ha hb

/-- The identity of every operation lies in the elements' bits. -/
theorem redIdent_lt (op : RedOp) (mode : BitVec 40) : (redCombine op mode).2 < 2 ^ redWidth op mode := by
  cases op with
  | fadd => exact Nat.two_pow_pos _
  | fmin => exact Nat.lt_of_lt_of_le (infBits_lt (modeFmt mode) false) (two_pow_signAt_le _)
  | fmax => exact Nat.lt_of_lt_of_le (infBits_lt (modeFmt mode) true) (two_pow_signAt_le _)
  | iadd => exact Nat.two_pow_pos _
  | imin => exact wrapInt_lt _ _
  | imax => exact wrapInt_lt _ _
  | and => exact (by decide : 2 ^ 32 - 1 < 2 ^ 32)
  | or => exact Nat.two_pow_pos _

/-- The identities of the minimum and the maximum of integers (Table 11-6). -/
theorem wrapInt_intHi {w : Nat} (sgn : Bool) (pos : 1 ≤ w) : wrapInt w (intHi w sgn) = if sgn then 2 ^ (w - 1) - 1 else 2 ^ w - 1 := by
  have half : 2 ^ w = 2 * 2 ^ (w - 1) := by rw [← Nat.pow_succ', Nat.succ_eq_add_one, Nat.sub_add_cancel pos]
  have some_ := Nat.two_pow_pos (w - 1)
  cases sgn with
  | true =>
    simp only [wrapInt, intHi, if_true]
    rw [Int.emod_eq_of_lt (by omega) (by omega)]
    omega
  | false =>
    simp only [wrapInt, intHi, Bool.false_eq_true, if_false]
    rw [Int.emod_eq_of_lt (by omega) (by omega)]
    omega

theorem wrapInt_intLo {w : Nat} (sgn : Bool) (pos : 1 ≤ w) : wrapInt w (intLo w sgn) = if sgn then 2 ^ (w - 1) else 0 := by
  have half : 2 ^ w = 2 * 2 ^ (w - 1) := by rw [← Nat.pow_succ', Nat.succ_eq_add_one, Nat.sub_add_cancel pos]
  have some_ := Nat.two_pow_pos (w - 1)
  cases sgn with
  | true =>
    simp only [wrapInt, intLo, if_true]
    rw [← Int.add_emod_right, Int.emod_eq_of_lt (by omega) (by omega)]
    omega
  | false => simp [wrapInt, intLo]

-- The word.

/-- An element of RED or SCAN of floats whose NaN is made canonical (R70). -/
def canonOf (op : RedOp) (mode : BitVec 40) (x : Nat) : Nat :=
  if redIsFloat op && (valOf (modeFmt mode) (modeRnd mode).ftz x).isNaN then canonNaN (modeFmt mode) else x

/-- The elements at one position, in all lanes. -/
def Heat.column (h : Heat) (w : Nat) (ks : List Nat) (j : Nat) : List Nat := (List.range 32).map (fun x => (elemsOf w (h.wrk.at_ ks x)).getD j 0)

/-- A list that a fold has collected. -/
theorem collected_of {α σ : Type} {Q : Nat → α → Prop} {step : List α × σ → Nat → List α × σ} {n : Nat} {st : σ} {d : α} {cols : List α}
    (made : cols = ((List.range n).foldl step ([], st)).1) (grows : ∀ a i, ∃ v st, step a i = (a.1 ++ [v], st) ∧ Q i v) :
    cols.length = n ∧ ∀ j, j < cols.length → Q j (cols.getD j d) := by
  subst made
  obtain ⟨size, values⟩ := foldl_collects step grows n st d
  exact ⟨size, fun j hj => values j (size ▸ hj)⟩

/-- What RED and SCAN write to a contributing lane: the canonical forms of one position's values after another. -/
theorem red_block {op : RedOp} {kind : RedKind} {o : OpL} (ok : redCalc op kind o c h = .ok r) (mine : (c.lanes h).getLsbD l = true) :
    (redIsFloat op = true → fmtIsFloat (modeFmt h.wrk.mode) = true) ∧
    ∃ cols : List (List Nat), r.Block l (h.keys o.d o.e)
        (regsOfElems (redWidth op h.wrk.mode) (cols.map (fun xs => canonOf op h.wrk.mode (xs.getD l 0)))) ∧
      cols.length = (elemsOf (redWidth op h.wrk.mode) (h.wrk.at_ (h.keys o.a o.e) 0)).length ∧ ∀ j, j < cols.length → ∃ st,
        cols.getD j [] = (redElem (redCombine op h.wrk.mode).1 (redCombine op h.wrk.mode).2 kind (c.lanes h)
          (h.column (redWidth op h.wrk.mode) (h.keys o.a o.e) j) st).1 := by
  unfold redCalc at ok
  dsimp only at ok
  generalize passed : c.check h _ _ _ _ _ = checked at ok
  cases checked with
  | error x => cases ok
  | ok u =>
    obtain ⟨-, formats⟩ := check_passed passed
    refine ⟨fun float => ?_, ?_⟩
    · rw [float, float_not_logic float, Bool.false_or] at formats
      exact (Bool.and_eq_true_iff.1 formats).1
    · have block := (Res.block_of (l := l) (Except.ok.inj ok)).1
      rw [map_range_getD _ _ (lt_of_lane mine)] at block
      refine ⟨_, block, ?_⟩
      rw [map_range_getD _ _ (show 0 < 32 by decide)]
      refine collected_of (Q := fun j v => ∃ st, v = (redElem (redCombine op h.wrk.mode).1 (redCombine op h.wrk.mode).2 kind
        (c.lanes h) (h.column (redWidth op h.wrk.mode) (h.keys o.a o.e) j) st).1) rfl (fun a i => ⟨_, _, rfl, a.2, ?_⟩)
      rw [List.map_map]
      rfl

/-- RED and SCAN of floats are performed in an operating format. -/
theorem red_float {op : RedOp} {kind : RedKind} {o : OpL} (ok : redCalc op kind o c h = .ok r) (mine : (c.lanes h).getLsbD l = true)
    (is : redIsFloat op = true) : modeFmt h.wrk.mode ≠ fmtE8M0 := by
  intro same
  have listed := (red_block ok mine).1 is
  rw [same] at listed
  cases listed

/-- The registers of a fold's elements are those of its source. -/
theorem length_regsOfElems_le {w : Nat} (slot : SlotWidth w) {es rs : List Nat} (size : es.length = (elemsOf w rs).length) :
    (regsOfElems w es).length ≤ rs.length := by
  rw [length_regsOfElems, size, length_elemsOf]
  rcases slotWidth_cases slot with rfl | ⟨narrow, -, some_⟩
  · rw [if_pos rfl, if_pos rfl]
    omega
  · rw [if_neg narrow, if_neg narrow, ceilDiv, ← Nat.mul_comm (32 / w)]
    refine Nat.le_of_lt_succ ((Nat.div_lt_iff_lt_mul some_).2 ?_)
    rw [Nat.succ_mul, Nat.mul_comm]
    omega

/-- The lanes that contribute alone have a leaf. -/
theorem redValue_congr {kind : RedKind} {g : Nat → Nat → Nat} {ident : Nat} {m : Word} {x y : Nat → Nat}
    (same : ∀ i, m.getLsbD i = true → x i = y i) : redValue kind g ident m x l = redValue kind g ident m y l := by
  have leaves : (fun i => if m.getLsbD i then some (x i) else none) = (fun i => if m.getLsbD i then some (y i) else none) := by
    funext i
    split
    · next here => rw [same i here]
    · rfl
  unfold redValue
  dsimp only
  rw [leaves]

theorem canonOf_lt {op : RedOp} {mode : BitVec 40} {x : Nat} (float : redIsFloat op = true → modeFmt mode ≠ fmtE8M0)
    (small : x < 2 ^ redWidth op mode) : canonOf op mode x < 2 ^ redWidth op mode := by
  unfold canonOf
  split
  · next nan =>
    have is := (Bool.and_eq_true_iff.1 nan).1
    rw [redWidth, float_not_logic is, is, if_neg Bool.false_ne_true, if_pos rfl]
    exact Nat.lt_of_lt_of_le (canonNaN_lt (float is)) (two_pow_signAt_le _)
  · exact small

/-- What RED and SCAN give a contributing lane. -/
theorem red_value {op : RedOp} {kind : RedKind} {o : OpL} (ok : redCalc op kind o c h = .ok r) (mine : (c.lanes h).getLsbD l = true)
    {g : Nat → Nat → Nat} (com : Combines (redCombine op h.wrk.mode).1 g (redWidth op h.wrk.mode)) {j : Nat}
    (hj : j < (elemsOf (redWidth op h.wrk.mode) (h.wrk.at_ (h.keys o.a o.e) l)).length) :
    (elemsOf (redWidth op h.wrk.mode) (r.words l)).getD j 0 = canonOf op h.wrk.mode (redValue kind g
      (redCombine op h.wrk.mode).2 (c.lanes h)
      (fun x => (elemsOf (redWidth op h.wrk.mode) (h.wrk.at_ (h.keys o.a o.e) x)).getD j 0) l) := by
  obtain ⟨-, cols, block, count, values⟩ := red_block ok mine
  have slot := slotWidth_redWidth op h.wrk.mode
  have float := red_float ok mine
  have same : (elemsOf (redWidth op h.wrk.mode) (h.wrk.at_ (h.keys o.a o.e) l)).length = cols.length := by
    rw [count, length_elemsOf, length_elemsOf, length_at, length_at]
  have here : j < cols.length := same ▸ hj
  obtain ⟨st, column⟩ := values j here
  obtain ⟨value, small⟩ := redElem_value com (redIdent_lt op h.wrk.mode) kind mine
    (xs := h.column (redWidth op h.wrk.mode) (h.keys o.a o.e) j) (fun x hx => by
      obtain ⟨i, -, rfl⟩ := List.mem_map.1 hx
      exact getD_lt (elemsOf_lt (at_lt _ _ _)) j) st
  have leaves : redValue kind g (redCombine op h.wrk.mode).2 (c.lanes h)
      (fun i => (h.column (redWidth op h.wrk.mode) (h.keys o.a o.e) j).getD i 0) l =
      redValue kind g (redCombine op h.wrk.mode).2 (c.lanes h)
        (fun x => (elemsOf (redWidth op h.wrk.mode) (h.wrk.at_ (h.keys o.a o.e) x)).getD j 0) l :=
    redValue_congr (fun i hi => map_range_getD _ _ (lt_of_lane hi))
  have canon : canonOf op h.wrk.mode (redValue kind g (redCombine op h.wrk.mode).2 (c.lanes h)
      (fun i => (h.column (redWidth op h.wrk.mode) (h.keys o.a o.e) j).getD i 0) l) < 2 ^ redWidth op h.wrk.mode :=
    canonOf_lt float small
  rw [block.elems slot rfl (by
    refine Nat.le_trans (length_regsOfElems_le slot (rs := h.wrk.at_ (h.keys o.a o.e) 0) (by rw [List.length_map, count])) ?_
    simp [length_at]) (by simpa using here), getD_of_lt _ _ (by simpa using here), List.getElem_map,
    ← getD_of_lt _ [] here, column, value, Nat.mod_eq_of_lt canon, leaves]

end Sys2Proof.Machine
end

section
/-! The values of the words of derived operands: O60. -/

namespace Sys2Proof.Machine

/-- The source registers of a conversion. -/
theorem cvtKeys_eq (h : Heat) (o : OpLB) (f : Nat) : h.cvtKeys o f =
    if fmtIsGrist o.b.toNat then h.dkeys o.a (regsOf o.b.toNat (cvtCount o.b.toNat f (extN o.e))) else h.keys o.a o.e := by
  unfold Heat.cvtKeys
  split <;> rfl

/-- Settles O60: the words' own functions, read element by element through the images of their registers. -/
theorem shapedWordsValues : Obligations.ShapedWordsValues := by
  unfold Obligations.ShapedWordsValues
  intro c h r l mine mode f rn sgn val clip num
  have value (w x : Nat) (small : x < 2 ^ w) : val w x = intVal w sgn x := (intVal_eq sgn small).symm
  have result (w : Nat) (v : Int) : num w (clip w v) = (intResult w sgn rn.sat v).1 := (intResult_eq w sgn rn.sat v).symm
  refine ⟨?_, ?_, ?_, ?_, ?_, ?_, ?_, ?_⟩
  · intro o _ ok j hj b d
    have hb : b < 2 ^ 32 := by
      simp only [b]
      split
      · exact Nat.mod_lt _ (by decide)
      · exact at_getD_lt _ _ _ _
    rw [result, value 32 _ (at_getD_lt _ _ _ _), value 32 _ hb, value 64 _ (getD_lt (pairUp_lt (at_lt _ _ _)) j)]
    exact imadw_value ok mine hj
  · intro o g _ ok ks named read j hj a b d half
    have halves (x i : Nat) : half x i = valOf g rn.ftz (bits x (16 * i) 16) := by rw [bits_eq_div]
    rw [halves, halves, halves, halves]
    exact fdot2_value ok mine named read hj
  · intro o int _ ok b n src code block v
    have keys : src = h.wrk.at_ (h.cvtKeys o f) l := by rw [cvtKeys_eq]; rfl
    have codes (j : Nat) : code j < 2 ^ slotBits b := getD_lt (elemsOf_lt (at_lt _ _ _)) j
    have values (j : Nat) : v j = streamVal b sgn rn.ftz (h.wrk.at_ (h.cvtKeys o f) l) j := by
      rw [← keys]
      change (if fmtIsGrist b = true then _ else if fmtIsInt b = true then
        Val.fin (decide (val (slotBits b) (code j) < 0)) (val (slotBits b) (code j)).natAbs 0 false else _) = _
      rw [value _ _ (codes j), streamVal, bits_eq_div]
      rfl
    refine ⟨fun plain j hj => ?_, fun grist i hi => ?_⟩
    · rw [result, value _ _ (codes j), values]
      by_cases both : fmtIsInt b = true ∧ fmtIsInt f = true
      · rw [if_pos both, cvt_int_value ok mine hj both, ← keys]
      · rw [if_neg both, cvt_elem_value ok mine hj both plain, convertTo]
        split
        · rfl
        · split <;> rfl
    · simp only [block, values]
      rw [← bits_eq_div]
      exact cvt_grist_value ok mine grist hi
  · intro o _ ok j hj
    exact pack_value ok mine hj
  · intro o _ ok j hj
    exact unpack_value ok mine hj
  · intro o _ ok j hj x e
    have same : e = bits ((h.wrk.at_ [h.key (o.b.toNat + j / 128)] l).getD 0 0) (8 * (j / 32 % 4)) 8 := by
      rw [bits_eq_div] <;> rfl
    rw [same]
    exact qscale_value ok mine hj
  · intro o _ ok read vs nd i inside xs special scale
    have computed : scale = mxScale f xs := by
      simp only [scale, mxScale] <;> cases xs.foldl maxMag (.fin false 0 0 false) <;> rfl
    rw [computed]
    refine ⟨?_, fun t ht => mxscale_elem ok mine rfl inside ht⟩
    have byte := mxscale_scale ok mine rfl inside
    rw [bits_eq_div] at byte
    exact byte
  · intro op kind o _ ok plain w lo hi g ident elem j hj x
    have pairs (a b : Nat) (ha : a < 2 ^ redWidth op mode) (hb : b < 2 ^ redWidth op mode) : g a b = redPair op mode a b := by
      cases op with
      | iadd => exact (congr (congrArg (fun y z => num w (clip w (y + z))) (value w a ha)) (value w b hb)).trans (result w _)
      | imin => exact (congr (congrArg (fun y z : Int => if y ≤ z then a else b) (value w a ha)) (value w b hb) :)
      | imax => exact (congr (congrArg (fun y z : Int => if y ≤ z then b else a) (value w a ha)) (value w b hb) :)
      | _ => rfl
    have least : ident = (redCombine op mode).2 := by
      cases op with
      | imin => exact (wrapInt_intHi sgn (iwBits_pos _)).symm
      | imax => exact (wrapInt_intLo sgn (iwBits_pos _)).symm
      | _ => rfl
    have folded := red_value ok mine ((redCombine_combines (red_float ok mine) plain).congr pairs) hj
    rw [← least] at folded
    refine folded.trans ?_
    simp only [canonOf, Bool.and_eq_true]
    rfl

end Sys2Proof.Machine
end

section
/-! SUPPORT. What keeps every memory in canonical form (log 3): the memory system's range operations, and the first layer of the
state's operations: translations, crews, tickets, barrier words, fault records, parking and traps. For O59. -/

namespace Sys2Proof.Machine

-- Memories.

theorem Tab.above_shift {α : Type} {lo base : Nat} (to_ : Nat) (t : Tab α) (h : Tab.above lo t = true) (hb : base ≤ lo) :
    Tab.above (lo - base + to_) (t.map (fun c => (c.1 - base + to_, c.2))) = true := by
  induction t generalizing lo with
  | nil => rfl
  | cons c r ih =>
    simp only [Tab.above, List.map_cons, Bool.and_eq_true, decide_eq_true_eq] at h ⊢
    obtain ⟨first, rest⟩ := h
    refine ⟨by omega, ?_⟩
    have next := ih rest (by omega)
    rwa [show c.1 + 1 - base + to_ = c.1 - base + to_ + 1 by omega] at next

/-- A table whose keys all lie above a bound. -/
theorem Tab.above_of_keys {α : Type} {lo base : Nat} {t : Tab α} (h : Tab.above lo t = true) (keys : ∀ c ∈ t, base ≤ c.1) :
    Tab.above base t = true := by
  cases t with
  | nil => rfl
  | cons c r =>
    simp only [Tab.above, Bool.and_eq_true, decide_eq_true_eq] at h ⊢
    exact ⟨keys c List.mem_cons_self, h.2⟩

theorem Tab.mem_of_find {α : Type} {t : Tab α} {k : Nat} {x : α} (found : Tab.find t k = some x) : (k, x) ∈ t := by
  induction t with
  | nil => cases found
  | cons c r ih =>
    simp only [Tab.find] at found
    split at found
    · next same =>
      cases found
      subst same
      exact List.mem_cons_self
    · exact List.mem_cons_of_mem _ (ih found)

/-- A range of a memory, moved to another base. -/
theorem Memory.wf_moved {m : Memory} (h : Memory.wf m = true) {base : Nat} (to_ : Nat) {p : Host.Cell → Bool}
    (inside : ∀ c, p c = true → base ≤ c.1) : Memory.wf ((m.filter p).map (fun c => (c.1 - base + to_, c.2))) = true := by
  rw [Memory.wf_iff] at h ⊢
  obtain ⟨rising, filled⟩ := h
  refine ⟨?_, fun c hc => ?_⟩
  · have low : Tab.above base (m.filter p) = true :=
      Tab.above_of_keys (Tab.above_filter m p rising) (fun c hc => inside c (List.mem_filter.1 hc).2)
    exact Tab.above_mono _ (Tab.above_shift to_ _ low (Nat.le_refl _)) (Nat.zero_le _)
  · obtain ⟨d, hd, rfl⟩ := List.mem_map.1 hc
    exact filled d ((List.mem_filter.1 hd).1)

-- Range operations of the memory system.

namespace MemSys

variable {m : MemSys} (hm : m.canonical)

theorem flushRange_same (m : MemSys) (t base size : Nat) : m.sameBytes (m.flushRange t base size) := by
  unfold MemSys.flushRange
  refine .trans (b := MemSys.tearRange _ base size) ?_ ⟨rfl, rfl, rfl, rfl⟩
  exact ((MemSys.same_foldl (fun m kv => MemSys.publishOver_same ..) _ m).trans (MemSys.invalidate_same ..)).trans (MemSys.tearRange_same ..)

include hm

theorem homeWrite_canonical (t pa : Nat) (bs : List Byte) : (m.homeWrite t pa bs).canonical :=
  MemSys.canonical_of_same (MemSys.homeWrite_same ..) hm

theorem flushRange_canonical (t base size : Nat) : (m.flushRange t base size).canonical :=
  MemSys.canonical_of_same (flushRange_same ..) hm

theorem flushPeer_canonical (base size : Nat) : (m.flushPeer base size).canonical := by
  unfold MemSys.flushPeer
  dsimp only
  exact MemSys.canonical_of_same (m := List.foldl (fun m (x : Nat × Nat) => m.drainLine (some x.1) x.2) m _) ⟨rfl, rfl, rfl, rfl⟩
    (MemSys.canonical_foldl (fun m x hm => MemSys.drainLine_canonical hm _ _) _ hm)

theorem flushExt_canonical (port : Nat → Nat) (base size : Nat) : (m.flushExt port base size).canonical :=
  MemSys.canonical_foldl (fun _ _ hm => MemSys.extSnoop_canonical hm _ _ _) _ hm

theorem flushPage_canonical (port : Nat → Nat) (t e at_ nb : Nat) : (m.flushPage port t e at_ nb).canonical := by
  unfold MemSys.flushPage
  split
  · exact MemSys.canonical_foldl (fun _ _ hm => flushRange_canonical hm _ _ _) _ (flushRange_canonical hm _ _ _)
  · split
    · exact flushPeer_canonical hm _ _
    · exact flushExt_canonical hm _ _ _

theorem putAt_canonical (h : Option Nat) (ln : Nat) (bs : List (Nat × Byte)) : (m.putAt h ln bs).canonical :=
  MemSys.canonical_of_same (MemSys.putAt_same ..) hm

theorem markAt_canonical (h : Option Nat) (ln cache : Nat) : (m.markAt h ln cache).canonical :=
  MemSys.canonical_of_same (MemSys.markAt_same ..) hm

theorem extFetch_canonical (d ln : Nat) (own : Bool) : (m.extFetch d ln own).canonical := MemSys.canonical_of_same (MemSys.extFetch_same ..) hm

theorem putExt_canonical (d : Nat) (bs : List (Nat × Byte)) : (m.putExt d bs).canonical := MemSys.canonical_of_same (MemSys.putExt_same ..) hm

theorem evictL1_canonical (t h ln : Nat) : (m.evictL1 t h ln).canonical := MemSys.canonical_of_same (MemSys.evictL1_same ..) hm

theorem evictEntry_canonical (r gran level : Nat) : (m.evictEntry r gran level).canonical :=
  MemSys.canonical_of_same (MemSys.evictEntry_same ..) hm

theorem trimL2_canonical (ln : Nat) : (m.trimL2 ln).canonical := by
  unfold MemSys.trimL2
  dsimp only
  split
  · exact hm
  · split
    · exact MemSys.dropL2_canonical hm _
    · exact hm

theorem trimTree_canonical (cut : Bool) (k : Nat) : (m.trimTree cut k).canonical := by
  unfold MemSys.trimTree
  dsimp only
  split
  · exact hm
  · split
    · exact evictEntry_canonical hm _ _ _
    · exact hm

end MemSys

-- The parts of a state.

namespace State

variable {s t : State}

theorem canonical_iff : s.canonical ↔ s.mem.canonical ∧ Memory.wf s.pool.dev = true ∧ ∀ kv ∈ s.teams, Memory.wf kv.2.scr = true := by
  unfold State.canonical MemSys.canonical
  grind

theorem canonical.mem (hs : s.canonical) : s.mem.canonical := (canonical_iff.1 hs).1

theorem canonical.dev (hs : s.canonical) : Memory.wf s.pool.dev = true := (canonical_iff.1 hs).2.1

theorem canonical.team (hs : s.canonical) {k : Nat} {x : Team} (found : Tab.find s.teams k = some x) : Memory.wf x.scr = true :=
  (canonical_iff.1 hs).2.2 (k, x) (Tab.mem_of_find found)

/-- A state whose memory system is in form, with the devices and teams of one that is. -/
theorem canonical.withMem (hs : s.canonical) {m : MemSys} (hm : m.canonical) : State.canonical { s with mem := m } :=
  canonical_iff.2 ⟨hm, (canonical_iff.1 hs).2⟩

/-- A team is written whose allotment is in form. -/
theorem canonical.putTeam (hs : s.canonical) (k : Nat) {x : Team} (hx : Memory.wf x.scr = true) :
    State.canonical { s with teams := Tab.put s.teams k x } := by
  obtain ⟨hm, hd, ht⟩ := canonical_iff.1 hs
  refine canonical_iff.2 ⟨hm, hd, fun kv hkv => ?_⟩
  rcases Tab.mem_put hkv with rfl | old
  · exact hx
  · exact ht kv old

/-- Teams leave. -/
theorem canonical.dropTeams (hs : s.canonical) {ts : Tab Team} (sub : ∀ kv ∈ ts, kv ∈ s.teams) : State.canonical { s with teams := ts } := by
  obtain ⟨hm, hd, ht⟩ := canonical_iff.1 hs
  exact canonical_iff.2 ⟨hm, hd, fun kv hkv => ht kv (sub kv hkv)⟩

theorem canonical_of_same (same : s.sameStore t) (hs : s.canonical) : t.canonical := by
  obtain ⟨mem, dev, teams⟩ := same
  rw [canonical_iff] at hs ⊢
  rw [dev, teams]
  exact ⟨MemSys.canonical_of_same mem hs.1, hs.2⟩

/-- A state with the devices and teams of one in form, and a memory system in form. -/
theorem canonical.parts (hs : s.canonical) (hm : t.mem.canonical) (dev : t.pool.dev = s.pool.dev) (teams : t.teams = s.teams) :
    t.canonical := by
  rw [canonical_iff, dev, teams]
  exact ⟨hm, (canonical_iff.1 hs).2⟩

/-- Everything that the form is about. -/
def stores (s : State) : Memory × Memory × Memory × Memory × Memory × Tab Team :=
  (s.mem.pkg, s.mem.ext, s.mem.peer, s.mem.scr, s.pool.dev, s.teams)

theorem canonical_of_stores (same : t.stores = s.stores) (hs : s.canonical) : t.canonical := by
  simp only [stores, Prod.mk.injEq] at same
  obtain ⟨pkg, ext, peer, scr, dev, teams⟩ := same
  unfold State.canonical
  rw [pkg, ext, peer, scr, dev, teams]
  exact hs

/-- A fold of steps that keep the form keeps it. -/
theorem canonical_foldl {β : Type} {f : State → β → State} (hf : ∀ (s : State) (b : β), s.canonical → (f s b).canonical) (xs : List β)
    (hs : s.canonical) : (xs.foldl f s).canonical := by
  induction xs generalizing s with
  | nil => exact hs
  | cons x r ih => exact ih (hf s x hs)

/-- The state of an answer with a value. -/
theorem canonical_fst {α : Type} {p : State × α} {x : α} (hp : p.1.canonical) (made : p = (t, x)) : t.canonical := by
  subst made
  exact hp

end State

end Sys2Proof.Machine
end

section
/-! SUPPORT. The state's own operations keep every memory in canonical form: translations, crews, tickets, barrier words, fault
records, parking and traps; accesses of one word, stores performed, sealing and commits. For O59. -/

namespace Sys2Proof.Machine

namespace State

variable {s : State} (hs : s.canonical)

include hs

-- Updates of other parts.

theorem setCrew_canonical {id : Nat} {c : Crew} : (s.setCrew id c).canonical := hs

theorem updCrew_canonical {id : Nat} {f : Crew → Crew} : (s.updCrew id f).canonical := canonical_of_same (updCrew_same ..) hs

theorem updRegion_canonical {rk : Nat} {f : Region → Region} : (s.updRegion rk f).canonical := by
  unfold State.updRegion
  split <;> exact hs

theorem setEng_canonical {k : Nat} {e : Eng} : (s.setEng k e).canonical := hs

theorem notice_canonical {vec : Nat} : (s.notice vec).canonical := by
  unfold State.notice
  split <;> exact hs

theorem setFork_canonical {e : Eng} {st : Nat} : (s.setFork e st).canonical := by
  unfold State.setFork
  split <;> exact hs

theorem laneMode_canonical {k : Nat} : (s.laneMode k).canonical := hs

theorem reclass_canonical {base size : Nat} {tree : Bool} : (s.reclass base size tree).canonical := hs

theorem invalTlb_canonical {p : Xl → Bool} : (s.invalTlb p).canonical := hs.withMem hs.mem

-- Translations.

theorem lookup_canonical {w : Who} {va : Nat} : (s.lookup w va).1.canonical := canonical_of_same (lookup_same ..) hs

theorem translateC_canonical {w : Who} {va k : Nat} {chk : Bool} : (s.translateC w va k chk).1.canonical :=
  canonical_of_same (translateC_same ..) hs

theorem translate_canonical {w : Who} {va k : Nat} : (s.translate w va k).1.canonical := translateC_canonical hs

theorem classFix_canonical {fdom va cls owner : Nat} : (s.classFix fdom va cls owner).1.canonical := by
  unfold State.classFix
  split
  · exact hs
  · split
    · exact hs
    · refine invalTlb_canonical (s := ite _ _ _) ?_
      split
      · refine canonical_foldl (fun _ _ hs => reclass_canonical hs) _ ?_
        exact hs.withMem (MemSys.homeWrite_canonical (MemSys.flushPage_canonical hs.mem ..) ..)
      · exact hs.withMem (MemSys.homeWrite_canonical (MemSys.flushPage_canonical hs.mem ..) ..)

-- Tickets.

theorem setTicket_canonical {r : Nat} {t : Ticket} : (s.setTicket r t).canonical := hs.withMem hs.mem

theorem grantNext_canonical {r : Nat} : (s.grantNext r).canonical := by
  unfold State.grantNext
  dsimp only
  split
  · exact hs
  · exact setTicket_canonical hs

theorem refuse_canonical {r id : Nat} : (s.refuse r id).canonical := setTicket_canonical hs

theorem claim_canonical {r id : Nat} : (s.claim r id).canonical := by
  unfold State.claim
  dsimp only
  split
  · exact setTicket_canonical hs
  · exact hs

theorem refuseOnce_canonical {r id : Nat} : (s.refuseOnce r id).canonical := by
  unfold State.refuseOnce
  split
  · exact hs
  · exact refuse_canonical hs

theorem cancel_canonical {r id : Nat} : (s.cancel r id).canonical := setTicket_canonical hs

-- Barrier words and waits.

theorem putBar_canonical {w : Nat} {b : BarW} {all : Bool} : (s.putBar w b all).canonical := by
  unfold State.putBar
  dsimp only
  split
  · exact hs.withMem (MemSys.putScratch_canonical hs.mem _)
  · split
    · next found => exact hs.putTeam _ (Memory.wf_puts _ _ _ (hs.team found))
    · exact hs

theorem wakeWord_canonical {w : Nat} : (s.wakeWord w).canonical := hs

theorem barEvent_canonical {w : Nat} {b : BarW} : (s.barEvent w b).canonical := by
  unfold State.barEvent
  dsimp only
  split
  · exact wakeWord_canonical (putBar_canonical hs)
  · exact putBar_canonical hs

theorem noteScope_canonical {w scope : Nat} : (s.noteScope w scope).canonical := hs.withMem hs.mem

theorem barLower_canonical {w n gen : Nat} : (s.barLower w n gen).1.canonical := by
  unfold State.barLower
  dsimp only
  split
  · exact barEvent_canonical hs
  · split
    · exact barEvent_canonical hs
    · exact hs

theorem freeBar_canonical {id w : Nat} : (s.freeBar id w).canonical := by
  have put := putBar_canonical hs (w := w) (b := { s.bar w with wait := (s.bar w).wait - 1 }) (all := false)
  unfold State.freeBar
  dsimp only
  split
  · refine grantNext_canonical ?_
    exact put
  · exact put

theorem moveWaiters_canonical {f : Nat → Nat} : (s.moveWaiters f).canonical := hs.withMem hs.mem

theorem dropMonitor_canonical {id : Nat} : (s.dropMonitor id).canonical := by
  unfold State.dropMonitor
  split
  · refine grantNext_canonical ?_
    exact hs
  · exact hs

theorem unwait_canonical {id : Nat} : (s.unwait id).canonical := by
  unfold State.unwait
  split
  · exact hs
  · split
    · exact updCrew_canonical (freeBar_canonical hs)
    · exact updCrew_canonical hs
    · exact updCrew_canonical (dropMonitor_canonical hs)
    · exact hs
    · exact updCrew_canonical hs

-- Fault records.

omit hs in
theorem postRec_stores (s : State) (fdom : Nat) (r : FaultRec) : (s.postRec fdom r).1.stores = s.stores := by
  have written (a b : Nat) (x y : List Byte) : State.stores { s with mem := (s.mem.homeWrite s.clock a x).homeWrite s.clock b y } = s.stores := by
    obtain ⟨pkg, ext, peer, scr⟩ := (MemSys.homeWrite_same s.mem s.clock a x).trans (MemSys.homeWrite_same _ s.clock b y)
    simp only [stores, pkg, ext, peer, scr]
  unfold State.postRec State.notice
  dsimp only
  split
  · rfl
  · split
    · split
      · exact written ..
      · exact written ..
    · exact written ..

theorem post_canonical {fdom key : Nat} {eng : Bool} {r : FaultRec} : (s.post fdom key eng r).1.canonical :=
  canonical_of_stores (post_keep State.stores (fun _ _ => rfl) (fun _ _ => rfl) postRec_stores s fdom key eng r) hs

theorem parkCrew_canonical {id slot : Nat} {r : FaultRec} {late : Bool} : (s.parkCrew id slot r late).canonical := by
  unfold State.parkCrew
  split
  · exact hs
  · exact updCrew_canonical (post_canonical (unwait_canonical hs))

theorem raiseWith_canonical {id slot : Nat} {f : Fail} {lane : Option Nat} {g : FaultRec → FaultRec} :
    (s.raiseWith id slot f lane g).canonical := by
  unfold State.raiseWith
  split
  · exact hs
  · dsimp only
    split
    · exact parkCrew_canonical hs
    · split
      · exact parkCrew_canonical hs
      · exact parkCrew_canonical (setCrew_canonical (updRegion_canonical hs))

theorem raise_canonical {id slot : Nat} {f : Fail} {lane : Option Nat} {nested : Bool} : (s.raise id slot f lane nested).canonical :=
  raiseWith_canonical hs

theorem raiseMet_canonical {id slot : Nat} {p : Pend} {m : Met} : (s.raiseMet id slot p m).canonical := raise_canonical (updCrew_canonical hs)

theorem raiseLate_canonical {id slot : Nat} {f : Fail} {wordpc : DWord} : (s.raiseLate id slot f wordpc).canonical := by
  unfold State.raiseLate
  split
  · exact hs
  · exact parkCrew_canonical hs

theorem trap_canonical {id slot cause code : Nat} {svc : Option (DWord × Nat)} : (s.trap id slot cause code svc).canonical := by
  unfold State.trap
  dsimp only
  repeat' split
  all_goals simp only [setCrew_canonical, parkCrew_canonical, raise_canonical, updRegion_canonical, hs]

theorem devArea_canonical {pa n : Nat} : (s.devArea pa n).canonical := by
  have flushed := MemSys.clearL2_canonical (MemSys.flushRange_canonical hs.mem s.clock pa n) pa n
  exact hs.withMem (m := { (s.mem.flushRange s.clock pa n).clearL2 pa n with
    pkg := _, arranged := _, monitors := _ }) ⟨Memory.wf_filter _ _ flushed.1, flushed.2⟩

-- Accesses.

theorem rmw_canonical {w : Who} {scope cache : Nat} {sp : Space} {a n : Nat} {f : Nat → Nat} : (s.rmw w scope cache sp a n f).1.canonical := by
  cases sp with
  | pkg =>
    exact hs.withMem (MemSys.canonical_of_same (MemSys.wroteBy_same ..)
      (MemSys.markAt_canonical (MemSys.putAt_canonical (MemSys.prepAtomic_canonical hs.mem ..) ..) ..))
  | scr => exact hs.withMem (MemSys.putScratch_canonical hs.mem _)
  | peer => exact hs.withMem (MemSys.putPeer_canonical (MemSys.drainLine_canonical hs.mem _ _) _ _)
  | ext k3 p =>
    cases k3 with
    | true =>
      obtain ⟨pkg, ext, peer, scr⟩ := hs.mem
      exact hs.withMem (m := MemSys.wroteBy { s.mem with ext := _ } _ _) ⟨pkg, Memory.wf_putBytes _ _ _ ext, peer, scr⟩
    | false =>
      exact hs.withMem (MemSys.canonical_of_same (MemSys.wroteBy_same ..) (MemSys.putExt_canonical (MemSys.extFetch_canonical hs.mem ..) ..))
  | reg k => exact hs

theorem performLater_canonical {id : Nat} : (s.performLater id).canonical := by
  unfold State.performLater
  split
  · exact hs
  · refine canonical_foldl (fun _ _ hs => grantNext_canonical hs) _ (canonical_foldl (fun _ _ hs => ?_) _ (setCrew_canonical hs))
    exact canonical_foldl (fun _ _ hs => rmw_canonical hs) _ hs

theorem ownFirst_canonical {w : Who} {ps : List (Space × Nat)} : (s.ownFirst w ps).canonical := by
  unfold State.ownFirst
  split
  · exact hs
  · split
    · exact performLater_canonical hs
    · exact hs

theorem performLaters_canonical : s.performLaters.canonical := canonical_foldl (fun _ _ hs => performLater_canonical hs) _ hs

-- Engine contexts.

theorem engStopped_canonical {k : Nat} : (s.engStopped k).canonical := by
  unfold State.engStopped
  split
  · split
    · exact setFork_canonical (laneMode_canonical hs)
    · exact hs
  · exact hs

theorem stopEng_canonical {k : Nat} {fr : FaultRec} {late : Bool} : (s.stopEng k fr late).canonical := by
  unfold State.stopEng
  split
  · exact hs
  · dsimp only
    split
    · exact post_canonical hs
    · exact engStopped_canonical (setEng_canonical (post_canonical hs))

theorem raiseEng_canonical {k : Nat} {f : Fail} : (s.raiseEng k f).canonical := by
  unfold State.raiseEng
  split
  · exact hs
  · exact stopEng_canonical hs

-- Classes of pages.

theorem classAsk_canonical {die fdom va id : Nat} : (s.classAsk die fdom va id).canonical := by
  unfold State.classAsk
  dsimp only
  split
  · exact hs
  · split
    · exact (claim_canonical hs : (s.claim (resClass die) id).canonical)
    · exact refuseOnce_canonical hs

theorem classDone_canonical {key : Nat} : (s.classDone key).canonical := by
  unfold State.classDone
  dsimp only
  repeat' split
  all_goals simp only [setEng_canonical, updCrew_canonical, hs]

theorem classFail_canonical {key : Nat} {f : Fail} : (s.classFail key f).canonical := by
  unfold State.classFail
  repeat' split
  all_goals simp only [raise_canonical, raiseEng_canonical, hs]

theorem classRun_canonical {die : Nat} : (s.classRun die).canonical := by
  unfold State.classRun
  split
  · exact hs
  · next r q _ =>
    have granted : (State.grantNext { s with mem := { s.mem with classq := Tab.put s.mem.classq die q } } (resClass die)).canonical := by
      refine grantNext_canonical ?_
      exact hs
    dsimp only
    generalize State.grantNext _ _ = s at granted ⊢
    have fixed := classFix_canonical (performLaters_canonical granted) (fdom := r.fdom) (va := r.va) (cls := 0) (owner := 0)
    split
    · exact classDone_canonical (invalTlb_canonical granted)
    · split
      · next made => exact classDone_canonical (canonical_fst fixed made)
      · next made => exact classFail_canonical (classDone_canonical (canonical_fst fixed made))

theorem classServe_canonical {die : Nat} : (s.classServe die).canonical := canonical_foldl (fun _ _ hs => classRun_canonical hs) _ hs

theorem classNow_canonical {w : Who} {va cls owner : Nat} : (s.classNow w va cls owner).1.canonical :=
  classFix_canonical (performLaters_canonical (classServe_canonical hs))

theorem translateNow_canonical {w : Who} {va k : Nat} : (s.translateNow w va k).1.canonical := by
  have translated := translate_canonical hs (w := w) (va := va) (k := k)
  unfold State.translateNow
  split
  · next made =>
    have named := classNow_canonical (canonical_fst translated made) (w := w) (va := va) (cls := 0) (owner := 0)
    split
    · next made => exact canonical_fst named made
    · next made => exact translate_canonical (canonical_fst named made)
  · exact translated

theorem fetchWord_canonical {w : Who} {pc : DWord} : (s.fetchWord w pc).1.canonical := by
  have translated := translateNow_canonical hs (w := w) (va := pc.toNat) (k := aFetch)
  unfold State.fetchWord
  split
  · next made => exact canonical_fst translated made
  · next made => exact canonical_fst translated made
  · next made => exact canonical_fst translated made

theorem checkTarget_canonical {id slot : Nat} {src : DWord} : (s.checkTarget id slot src).canonical := by
  unfold State.checkTarget
  split
  · exact hs
  · next c _ =>
    have fetched := fetchWord_canonical hs (w := s.whoCrew id c) (pc := (c.slot slot).pc)
    dsimp only
    split
    · exact hs
    · split
      · next made => exact updCrew_canonical (raiseLate_canonical (canonical_fst fetched made))
      · next made =>
        split
        · exact canonical_fst fetched made
        · exact updCrew_canonical (raiseLate_canonical (canonical_fst fetched made))

-- The heat store buffer.

theorem buffer_canonical {id : Nat} {o : BufOp} : (s.buffer id o).canonical := updCrew_canonical hs

theorem performStore_canonical {id : Nat} {cells : List MemCell} {mode : BitVec 40} : (s.performStore id cells mode).canonical := by
  -- bytes of registers join the crews that hold them
  have registers (xs : List MemCell) {s : State} (hs : s.canonical) : (xs.foldl (fun s x => match x.sp with
      | .reg k => s.updCrew k (fun c =>
          if c.heat.isSome then { c with inbox := c.inbox ++ [x] } else c.settle.putReg x.a x.b)
      | _ => s) s).canonical := by
    refine canonical_foldl (fun s x hs => ?_) xs hs
    split
    · exact updCrew_canonical hs
    · exact hs
  unfold State.performStore
  split
  · exact hs
  · next c _ =>
    have own := ownFirst_canonical hs (w := s.whoCrew id c) (ps := cells.map (fun x => (x.sp, x.a)))
    have ends {s : State} (hs : s.canonical) (own : Prop) [Decidable own] (o : BufOp) : (if own then s.buffer id o else s).canonical := by
      split
      · exact buffer_canonical hs
      · exact hs
    dsimp only
    refine ends (registers _ (own.withMem (MemSys.canonical_foldl (fun m ln hm => ?_) _ ?_))) _ _
    · have put := MemSys.wcbPut_canonical hm
      split
      · exact MemSys.canonical_of_same (MemSys.delLine_same ..) (put ..)
      · exact put ..
    · exact MemSys.canonical_of_same (MemSys.wroteBy_same ..) (MemSys.storeExts_canonical (MemSys.putScratch_canonical
        (MemSys.storePkg_canonical (MemSys.storePkg_canonical own.mem ..) ..) _) _)

theorem flushLine_canonical {w : Who} {ln : Nat} {home : Bool} : (s.flushLine w ln home).canonical := by
  have given {m : MemSys} (hm : m.canonical) (h : Option Nat) : (match h with
      | some h => m.evictL1 s.clock h ln
      | none => m).canonical := by
    cases h with
    | some h => exact MemSys.evictL1_canonical hm ..
    | none => exact hm
  have both := given (given hs.mem w.port.l1) w.port.cl1
  unfold State.flushLine
  dsimp only
  split
  · exact hs.withMem (MemSys.writeL2_canonical (MemSys.canonical_of_same ((MemSys.quiet_same ..).trans (MemSys.tearRange_same ..)) both) _)
  · exact hs.withMem both

theorem invalLine_canonical {w : Who} {ln : Nat} : (s.invalLine w ln).canonical := by
  have one {m : MemSys} (hm : m.canonical) (h : Option Nat) : (match h with
      | some h =>
        match m.line h ln with
        | some l => if l.tracked then m.dropTracked h ln
          else if l.dirty = 0 then m.delLine h ln else m.setLine h ln { l with valid := l.dirty }
        | none => m
      | none => m).canonical := by
    cases h with
    | none => exact hm
    | some h =>
      dsimp only
      repeat' split
      · exact MemSys.canonical_of_same (MemSys.dropTracked_same ..) hm
      · exact MemSys.canonical_of_same (MemSys.delLine_same ..) hm
      · exact MemSys.canonical_of_same (MemSys.setLine_same ..) hm
      · exact hm
  have both := one (one hs.mem w.port.l1) w.port.cl1
  unfold State.invalLine
  dsimp only
  split
  · exact hs.withMem (MemSys.canonical_of_same (MemSys.delLine_same ..) both)
  · exact hs.withMem both

theorem releaseCrew_canonical {id scope store : Nat} : (s.releaseCrew id scope store).canonical := by
  unfold State.releaseCrew
  split
  · exact hs
  · dsimp only
    split
    · exact hs
    · have performed := performLater_canonical hs (id := id)
      exact performed.withMem (MemSys.release_canonical performed.mem ..)

theorem acquireCrew_canonical {id scope store : Nat} : (s.acquireCrew id scope store).canonical := by
  unfold State.acquireCrew
  split
  · exact hs
  · split
    · exact hs
    · exact hs.withMem (MemSys.acquire_canonical hs.mem ..)

theorem performOp_canonical {id : Nat} {o : BufOp} : (State.performOp id s o).canonical := by
  unfold State.performOp
  dsimp only
  repeat' split
  all_goals simp only [performStore_canonical, releaseCrew_canonical, flushLine_canonical, invalLine_canonical, hs]

theorem performBuf_canonical {id : Nat} : (s.performBuf id).canonical := by
  unfold State.performBuf
  split
  · exact hs
  · split
    · exact hs
    · exact canonical_foldl (fun _ _ hs => performOp_canonical hs) _ (setCrew_canonical hs)

theorem seal_canonical {id : Nat} : (s.seal id).canonical := updCrew_canonical (performBuf_canonical hs)

theorem performTrap_canonical {id : Nat} : (s.performTrap id).canonical := by
  unfold State.performTrap
  split
  · exact hs
  · split
    · exact hs
    · exact canonical_foldl (fun _ _ hs => performOp_canonical hs) _ (setCrew_canonical hs)

theorem markOld_canonical {but : Option Nat} : (s.markOld but).canonical := by
  have performed := canonical_foldl (fun _ id hs => performTrap_canonical hs (id := id)) (s.crews.map Prod.fst) hs
  exact canonical_foldl (fun _ id hs => performBuf_canonical hs (id := id)) _ performed

theorem commit_canonical {id : Nat} {names : Bool} : (s.commit id names).canonical := by
  unfold State.commit
  split
  · exact hs
  · split
    · exact hs
    · exact updRegion_canonical (updCrew_canonical (canonical_foldl (fun _ _ hs => performOp_canonical hs) _ (setCrew_canonical hs)))

end State

end Sys2Proof.Machine
end

section
/-! SUPPORT. What an instruction's effect must keep, and that issuing then keeps every memory in canonical form; fetches, cache
evictions and the order of the caches keep it too. For O59. -/

namespace Sys2Proof.Machine

/-- A stop leaves memories in form: the state it carries, if it carries one. -/
def Stop.canonical : Stop → Prop
  | .held s => s.canonical
  | .after s _ => s.canonical
  | _ => True

/-- An effect's answer leaves memories in form. -/
def Kept {α : Type} (state : α → State) : Except Stop α → Prop
  | .ok a => (state a).canonical
  | .error st => st.canonical

/-- An effect in crews keeps memories in form. -/
def Eff.Keeps (eff : Eff) : Prop := ∀ (s : State) (id : Nat) (c : Crew) (h : Heat), s.canonical → Kept Prod.fst (eff s id c h)

/-- An effect in engine contexts keeps memories in form. -/
def EngEff.Keeps (eff : EngEff) : Prop := ∀ (s : State) (k : Nat) (e : Eng), s.canonical → Kept id (eff s k e)

/-- An outcome's next state has its memories in form. -/
def KeptNext (o : Host.Outcome State Fault Refusal) : Prop := ∀ t, o = .next t → t.canonical

theorem KeptNext.next {s : State} (hs : s.canonical) : KeptNext (.next s) := by
  intro t made
  cases made
  exact hs

theorem KeptNext.fault {f : Fault} : KeptNext (.fault f) := by
  intro t made
  cases made

theorem KeptNext.refused {r : Refusal} : KeptNext (.refused r) := by
  intro t made
  cases made

namespace State

variable {s : State} (hs : s.canonical)

include hs

theorem regHold_canonical {id : Nat} {h : Heat} {st : Stop} (stop : s.regHold id h = some st) : st.canonical := by
  unfold State.regHold at stop
  split at stop
  · cases stop
    exact hs
  · unfold State.regStop at stop
    obtain ⟨x, -, found⟩ := List.exists_of_findSome?_eq_some stop
    repeat' split at found
    all_goals cases found
    all_goals trivial

theorem stopCrew_canonical {id slot : Nat} {st : Stop} (stop : st.canonical) : (s.stopCrew id slot st).canonical := by
  unfold State.stopCrew
  cases st with
  | fault f l => exact raise_canonical hs
  | trap cause code => exact trap_canonical hs
  | wait w => exact updCrew_canonical hs
  | held t => exact stop
  | after t f => exact raise_canonical stop
  | conflict va =>
    dsimp only
    split
    · exact updCrew_canonical (classAsk_canonical hs)
    · exact hs

theorem issueCrew_canonical {id slot : Nat} {c : Crew} {wf : Bool} {eff : Eff} (keeps : eff.Keeps) : (s.issueCrew id slot c wf eff).canonical := by
  unfold State.issueCrew
  split
  · exact raise_canonical hs
  · next h _ =>
    have kept := keeps s id c h hs
    split
    · exact hs
    · split
      · exact raise_canonical hs
      · split
        · exact setCrew_canonical hs
        · split
          · exact raise_canonical hs
          · split
            · next st held =>
              refine stopCrew_canonical hs ?_
              split at held
              · exact regHold_canonical hs held
              · cases held
            · split
              · next made =>
                rw [made] at kept
                exact stopCrew_canonical hs kept
              · next made =>
                rw [made] at kept
                split
                · exact trap_canonical hs
                · split
                  · exact raiseMet_canonical kept
                  · exact updCrew_canonical kept

theorem stopEngAt_canonical {k : Nat} {st : Stop} (stop : st.canonical) : (s.stopEngAt k st).canonical := by
  unfold State.stopEngAt
  cases st with
  | fault f l => exact raiseEng_canonical hs
  | trap cause code => exact raiseEng_canonical hs
  | wait w =>
    dsimp only
    split
    · exact setEng_canonical hs
    · exact hs
  | held t => exact stop
  | after t f => exact raiseEng_canonical stop
  | conflict va =>
    dsimp only
    split
    · exact setEng_canonical (classAsk_canonical hs)
    · exact hs

theorem issueEng_canonical {k : Nat} {e : Eng} {ok : Bool} {eff : EngEff} (keeps : eff.Keeps) : (s.issueEng k e ok eff).canonical := by
  have kept := keeps s k e hs
  unfold State.issueEng
  split
  · exact raiseEng_canonical hs
  · split
    · next made =>
      rw [made] at kept
      exact stopEngAt_canonical hs kept
    · next made =>
      rw [made] at kept
      split
      · exact setEng_canonical kept
      · exact kept

theorem engGo_canonical {k : Nat} {src target : DWord} : (s.engGo k src target).canonical := by
  unfold State.engGo
  split
  · exact hs
  · next e _ =>
    have moved := setEng_canonical hs (k := k) (e := { e with pc := target, entry := none, off := 0, wait := .none })
    dsimp only
    generalize s.setEng k _ = s at moved ⊢
    have fetched := fetchWord_canonical moved (w := s.whoEng k e) (pc := target)
    split
    · next made => exact stopEng_canonical (canonical_fst fetched made)
    · next made =>
      split
      · exact canonical_fst fetched made
      · exact stopEng_canonical (canonical_fst fetched made)

theorem closeEng_canonical {k : Nat} {e : Eng} {ok : Bool} {f : Eng → Except Stop (Eng × DWord)}
    (plain : ∀ e st, f e = .error st → st.canonical) : (s.closeEng k e ok f).canonical := by
  unfold State.closeEng
  split
  · exact raiseEng_canonical hs
  · split
    · next made => exact stopEngAt_canonical hs (plain _ _ made)
    · exact engGo_canonical (setEng_canonical hs)

theorem issuer_canonical {id : Nat} {t : State} {c : Crew} (made : s.issuer id = some (t, c)) : t.canonical := by
  obtain ⟨c', -, same⟩ := Option.map_eq_some_iff.1 made
  cases same
  exact setCrew_canonical hs

theorem crewWord_canonical {wf : Bool} {eff : Eff} (keeps : eff.Keeps) : KeptNext (s.crewWord wf eff) := by
  unfold State.crewWord
  repeat' split
  · next made => exact .next (issueCrew_canonical (issuer_canonical hs made) keeps)
  · exact .fault
  · exact .next (raiseEng_canonical hs)
  · exact .fault

theorem sharedWord_canonical {wf : Bool} {eff : Eff} {kinds : Nat → Bool} {wfE : Bool} {effE : EngEff} (keeps : eff.Keeps) (keepsE : effE.Keeps) :
    KeptNext (s.sharedWord wf eff kinds wfE effE) := by
  unfold State.sharedWord
  repeat' split
  · next made => exact .next (issueCrew_canonical (issuer_canonical hs made) keeps)
  · exact .fault
  · exact .next (issueEng_canonical hs keepsE)
  · exact .fault

omit hs in
theorem noEff_keeps : Eff.Keeps noEff := fun _ _ _ _ _ => trivial

theorem engWord_canonical {kinds : Nat → Bool} {wf : Bool} {eff : EngEff} (keeps : eff.Keeps) : KeptNext (s.engWord kinds wf eff) :=
  sharedWord_canonical hs noEff_keeps keeps

theorem fetchFault_canonical {a : Agent} {f : Fail} : (s.fetchFault a f).canonical := by
  cases a with
  | crew id n => exact raise_canonical hs
  | eng k => exact raiseEng_canonical hs

theorem undecoded_canonical {a : Agent} : (s.undecoded a).canonical := by
  cases a with
  | crew id n =>
    unfold State.undecoded
    dsimp only
    split
    · next made => exact issueCrew_canonical (issuer_canonical hs made) noEff_keeps
    · exact hs
  | eng k => exact raiseEng_canonical hs

theorem run_canonical {ex : Instr → State → Host.Outcome State Fault Refusal} (keeps : ∀ i s, State.canonical s → KeptNext (ex i s)) (a : Agent) :
    KeptNext (s.run ex a) := by
  have fetched := fetchWord_canonical (s := { s with cur := a }) hs (w := State.whoOf { s with cur := a } a) (pc := State.pcOf { s with cur := a } a)
  unfold State.run
  split
  · dsimp only
    split
    · next made => exact .next (fetchFault_canonical (canonical_fst fetched made))
    · next made =>
      split
      · exact keeps _ _ (canonical_fst fetched made)
      · exact .next (undecoded_canonical (canonical_fst fetched made))
  · exact .next hs

-- Caches.

theorem evictLine_canonical {h ln : Nat} : (s.evictLine h ln).canonical := by
  unfold State.evictLine
  repeat' split
  · exact hs
  · exact hs.withMem (MemSys.canonical_of_same (MemSys.delLine_same ..) hs.mem)
  · exact hs.withMem (MemSys.extSnoop_canonical hs.mem ..)
  · exact hs.withMem (MemSys.canonical_of_same ((MemSys.writeHome_same ..).trans (MemSys.delLine_same ..)) hs.mem)
  · exact hs.withMem (MemSys.evictL1_canonical hs.mem ..)

theorem evictTree_canonical {r gran level : Nat} : (s.evictTree r gran level).canonical := by
  unfold State.evictTree
  repeat' split
  · exact hs
  · exact hs
  · exact hs.withMem (MemSys.evictEntry_canonical hs.mem ..)

theorem evictTlb_canonical {h n : Nat} : (s.evictTlb h n).canonical := hs

theorem trimSet_canonical {k : Nat} : (s.trimSet k).canonical := by
  unfold State.trimSet
  dsimp only
  repeat' split
  · exact hs
  · exact evictLine_canonical hs
  · exact hs

theorem deadStores_canonical : s.deadStores.canonical := by
  unfold State.deadStores
  dsimp only
  split
  · exact hs
  · exact hs

theorem tidy_canonical : s.tidy.canonical := by
  have trimmed := canonical_foldl (fun _ k hs => trimSet_canonical hs (k := k)) (s.deadStores.mem.lines.map Prod.fst) (deadStores_canonical hs)
  unfold State.tidy
  dsimp only
  generalize List.foldl State.trimSet _ _ = s at trimmed ⊢
  have trees := MemSys.canonical_foldl (fun m k hm => MemSys.trimTree_canonical hm s.mil.treeCut k) (s.mem.tree.map Prod.fst) trimmed.mem
  generalize List.foldl (MemSys.trimTree s.mil.treeCut) _ _ = m at trees ⊢
  exact trimmed.withMem (m := { (m.l2.map Prod.fst).foldl MemSys.trimL2 m with tlb := _ })
    (MemSys.canonical_foldl (fun m ln hm => MemSys.trimL2_canonical hm ln) (m.l2.map Prod.fst) trees)

end State

theorem tidied_kept {o : Host.Outcome State Fault Refusal} (kept : KeptNext o) : KeptNext (tidied o) := by
  cases o with
  | next s => exact .next (State.tidy_canonical (kept s rfl))
  | _ => intro t made; cases made

end Sys2Proof.Machine
end

section
/-! SUPPORT. Register words, uniform words, predicate words and special values keep every memory in canonical form. For O59. -/

namespace Sys2Proof.Machine

/-- A stop that it gives leaves memories in form. -/
structure Plain {α : Type} (r : Except Stop α) : Prop where
  stop : ∀ st, r = .error st → st.canonical

namespace Plain

variable {α β : Type} {r : Except Stop α}

theorem ok {a : α} : Plain (.ok a) := ⟨fun _ made => by cases made⟩

theorem error {st : Stop} (stop : st.canonical) : Plain (α := α) (.error st) := ⟨fun _ made => by cases made; exact stop⟩

theorem of_error {st : Stop} (plain : Plain r) (made : r = .error st) : Plain (α := β) (.error st) := .error (plain.stop st made)

end Plain

-- Checks.

theorem firstStop_canonical {l : List (Bool × Stop)} (all : ∀ x ∈ l, x.2.canonical) {st : Stop} (found : firstStop l = some st) :
    st.canonical := by
  induction l with
  | nil => cases found
  | cons x r ih =>
    obtain ⟨b, s⟩ := x
    rw [firstStop] at found
    split at found
    · cases found
      exact all _ List.mem_cons_self
    · exact ih (fun y hy => all y (List.mem_cons_of_mem _ hy)) found

theorem check_plain (c : Crew) (h : Heat) (src dst other : List Nat) (legal fmtOk : Bool) : Plain (c.check h src dst other legal fmtOk) := by
  unfold Crew.check
  split
  · next found =>
    refine .error (firstStop_canonical (fun x hx => ?_) found)
    simp only [List.mem_cons, List.not_mem_nil, or_false] at hx
    rcases hx with rfl | rfl | rfl | rfl | rfl | rfl <;> trivial
  · exact .ok

theorem laneCheck_plain (c : Crew) (h : Heat) (src dst other : List Nat) (legal fmtOk : Bool) :
    Plain (c.laneCheck h src dst other legal fmtOk) := by
  unfold Crew.laneCheck
  split
  · exact .error trivial
  · exact check_plain ..

/-- A result that checks allow: what the function of every register word gives. -/
def checkedBy (r : Except Stop Unit) (a : Res) : Except Stop Res :=
  match r with
  | .error e => .error e
  | .ok () => .ok a

theorem checkedBy_plain {r : Except Stop Unit} {a : Res} (plain : Plain r) : Plain (checkedBy r a) := by
  cases r with
  | error e => exact plain.of_error rfl
  | ok u => exact .ok

/-- The checks of a register word stop by themselves. -/
theorem checked_plain {c : Crew} {h : Heat} {src dst other : List Nat} {legal fmtOk : Bool} {a : Res} :
    Plain (checkedBy (c.check h src dst other legal fmtOk) a) := checkedBy_plain (check_plain ..)

-- Effects of register words.

theorem regEff_keeps {la : Nat} {held : Heat → List Nat} {f : Crew → Heat → Except Stop Res} (plain : ∀ c h, Plain (f c h)) :
    Eff.Keeps (regEff la held f) := by
  intro s id c h hs
  have stops := (plain c h).stop
  unfold regEff
  split
  · next made => exact stops _ made
  · exact State.setCrew_canonical hs

theorem ownEff_keeps {f : Eng → Except Stop Eng} (plain : ∀ e, Plain (f e)) : EngEff.Keeps (ownEff f) := by
  intro s k e hs
  have stops := (plain e).stop
  unfold ownEff
  split
  · exact State.setEng_canonical hs
  · next made => exact stops _ made

theorem setS_plain (e : Eng) (n : Nat) (x : DWord) : Plain (e.setS n x) := by
  unfold Eng.setS
  split
  · exact .error trivial
  · exact .ok

theorem setLater_plain (e : Eng) (n la : Nat) (x : DWord) (g : Got) : Plain (e.setLater n la x g) := by
  unfold Eng.setLater
  repeat' split
  · exact setS_plain ..
  · exact .error trivial
  · exact .ok

variable {s : State} (hs : s.canonical)

include hs

/-- A register word, whose function stops by its checks. -/
theorem regWord_kept {wf : Bool} {la : Nat} {held : Heat → List Nat} {f : Crew → Heat → Except Stop Res} (plain : ∀ c h, Plain (f c h)) :
    KeptNext (s.crewWord wf (regEff la held f)) := State.crewWord_canonical hs (regEff_keeps plain)

/-- A register word whose function gives a result where its checks allow it. -/
theorem checkedWord_kept {wf : Bool} {la : Nat} {held : Heat → List Nat} {src dst other : Crew → Heat → List Nat} {legal fmtOk : Crew → Heat → Bool}
    {res : Crew → Heat → Res} : KeptNext (s.crewWord wf (regEff la held (fun c h =>
      checkedBy (c.check h (src c h) (dst c h) (other c h) (legal c h) (fmtOk c h)) (res c h)))) :=
  regWord_kept hs (fun _ _ => checked_plain)

/-- A word of a crew's registers and of an engine context's. -/
theorem bothWord_kept {wf wfE : Bool} {la : Nat} {held : Heat → List Nat} {kinds : Nat → Bool} {f : Crew → Heat → Except Stop Res}
    {g : Eng → Except Stop Eng} (plain : ∀ c h, Plain (f c h)) (plainE : ∀ e, Plain (g e)) :
    KeptNext (s.sharedWord wf (regEff la held f) kinds wfE (ownEff g)) :=
  State.sharedWord_canonical hs (regEff_keeps plain) (ownEff_keeps plainE)

end Sys2Proof.Machine
end

section
/-! SUPPORT. Uniform words, predicate words and special values keep every memory in canonical form. For O59. -/

namespace Sys2Proof.Machine

variable {s : State} (hs : s.canonical)

include hs

-- Uniform and predicate words (R157 to R160, R166).

theorem uniWord_kept {d : BitVec 5} {op : UniOp} : KeptNext (uniWord d op s) :=
  bothWord_kept hs (fun _ _ => checked_plain) (fun _ => setS_plain ..)

theorem execSsel_kept {o : Op3} : KeptNext (execSsel o s) := bothWord_kept hs (fun _ _ => checked_plain) (fun _ => setS_plain ..)

theorem execScmp_kept {cc : Cond} {o : Op3} : KeptNext (execScmp cc o s) := bothWord_kept hs (fun _ _ => checked_plain) (fun _ => .ok)

theorem predWord_kept {i : Instr} {d : BitVec 5} {f : (Nat → Word) → Word} : KeptNext (predWord i d f s) :=
  bothWord_kept hs (fun _ _ => checked_plain) (fun _ => .ok)

theorem execPcnt_kept {o : Op2} : KeptNext (execPcnt o s) := bothWord_kept hs (fun _ _ => checked_plain) (fun _ => setS_plain ..)

-- Special values (R162, R163).

omit hs in
theorem srdEff_keeps (d : BitVec 5) (k : BitVec 2) (sel : BitVec 8) : Eff.Keeps (srdEff d k sel) := by
  intro s id c h hs
  have reg (x : Crew → Heat → Except Stop Res) (plain : ∀ c h, Plain (x c h)) := regEff_keeps (la := 0) (held := heldNone) plain s id c h hs
  unfold srdEff
  dsimp only
  split
  · split
    · trivial
    · exact reg _ (fun _ _ => checked_plain)
  · split
    · exact reg _ (fun _ _ => checked_plain)
    · trivial
  · repeat' split
    iterate 3 · exact hs
    · trivial
  · split
    · split
      · next made => exact (check_plain ..).stop _ made
      · exact hs
    · trivial

theorem execSrd_kept {d : BitVec 5} {k : BitVec 2} {sel : BitVec 8} : KeptNext (execSrd d k sel s) := by
  refine State.sharedWord_canonical hs (srdEff_keeps d k sel) (fun s key e hs => ?_)
  have set := setS_plain e d.toNat
  split
  · trivial
  · split
    · exact hs
    · next made => exact (set _).stop _ made

end Sys2Proof.Machine
end

section
/-! SUPPORT. The Sluice's transfers, and the accesses of crews and engine contexts, keep every memory in canonical form. For O59. -/

namespace Sys2Proof.Machine

theorem Kept.of_ok {α : Type} {state : α → State} {a : α} {r : Except Stop α} (kept : Kept state r) (made : r = .ok a) : (state a).canonical := by
  subst made
  exact kept

/-- What lanes meet stops a word and changes no state. -/
theorem laneOutcome_plain (lv : Bool) (rs : List (Nat × LaneRes)) : Plain (laneOutcome lv rs) := by
  unfold laneOutcome
  dsimp only
  split
  · exact .error trivial
  · split
    · next found =>
      obtain ⟨r, -, met⟩ := List.exists_of_findSome?_eq_some found
      split at met <;> cases met <;> exact .error trivial
    · exact .ok

/-- An error of an answer that keeps memories in form. -/
theorem Kept.stop {α : Type} {state : α → State} {st : Stop} {r : Except Stop α} (kept : Kept state r) (made : r = .error st) : st.canonical := by
  subst made
  exact kept

namespace State

variable {s : State} (hs : s.canonical)

include hs

-- The Sluice (R59, R64, R410).

theorem sluiceXlate_canonical {id place kind : Nat} : (s.sluiceXlate id place kind).1.canonical := by
  unfold State.sluiceXlate
  split
  · exact hs
  · next c _ =>
    have translated := translateNow_canonical hs (w := s.whoCrew id c) (va := s.spillAddr c place) (k := if kind = 4 then aWrite else aRead)
    dsimp only
    split
    · next made => exact canonical_fst translated made
    · next made => exact canonical_fst translated made

theorem spillBytes_canonical {h : Hit} : (s.spillBytes h).canonical := by
  obtain ⟨pkg, ext, peer, scr⟩ := hs.mem
  unfold State.spillBytes
  dsimp only
  generalize List.map _ (List.range 1024) = bs
  split
  · exact devArea_canonical hs
  · exact hs.parts ⟨pkg, ext, Memory.wf_putBytes _ _ _ peer, scr⟩ rfl rfl
  · exact hs.parts ⟨pkg, Memory.wf_putBytes _ _ _ ext, peer, scr⟩ rfl rfl
  · exact hs

theorem dropBlock_canonical {id b : Nat} : (s.dropBlock id b).canonical := updCrew_canonical hs

theorem spillItem_canonical {id item : Nat} : (s.spillItem id item).1.canonical := by
  unfold State.spillItem
  split
  · exact hs
  · split
    · exact hs
    · next p _ =>
      have placed := sluiceXlate_canonical hs (id := id) (place := p) (kind := 4)
      split
      · next made => exact canonical_fst placed made
      · next made => exact updCrew_canonical (spillBytes_canonical (canonical_fst placed made))

theorem sluiceRoom_canonical {id : Nat} {named : List Nat} {slot fuel : Nat} : (State.sluiceRoom id named slot fuel s).1.canonical := by
  induction fuel generalizing s with
  | zero => exact hs
  | succ fuel ih =>
    rw [State.sluiceRoom]
    split
    · exact hs
    · split
      · exact hs
      · split
        · exact ih (dropBlock_canonical hs)
        · next b _ =>
          have spilled := spillItem_canonical hs (id := id) (item := b)
          split
          · next made => exact canonical_fst spilled made
          · next made => exact ih (canonical_fst spilled made)
        · split
          · exact hs
          · exact hs

theorem bring_canonical {id item slot : Nat} {named : List Nat} : (s.bring id item slot named).1.canonical := by
  unfold State.bring
  split
  · exact hs
  · split
    · exact hs
    · have room : (if item < 200 then State.sluiceRoom id (item :: named) slot 140 s else (s, none)).1.canonical := by
        split
        · exact sluiceRoom_canonical hs
        · exact hs
      split
      · next made => exact canonical_fst room made
      · next made =>
        have roomy := canonical_fst room made
        split
        · split
          · exact updCrew_canonical roomy
          · exact roomy
        · next p _ =>
          have placed := sluiceXlate_canonical roomy (id := id) (place := p) (kind := 5)
          split
          · next made => exact canonical_fst placed made
          · next made => exact updCrew_canonical (canonical_fst placed made)

theorem askAgain_canonical {id : Nat} : (s.askAgain id).canonical := updCrew_canonical hs

theorem transfer_canonical {id item slot : Nat} : (s.transfer id item slot).1.canonical := by
  unfold State.transfer
  repeat' split
  all_goals simp only [bring_canonical, spillItem_canonical, hs]

theorem sluiceSpill_canonical {id : Nat} : (s.sluiceSpill id).canonical := by
  unfold State.sluiceSpill
  dsimp only
  repeat' split
  all_goals simp only [updCrew_canonical, raiseLate_canonical, askAgain_canonical, transfer_canonical, hs]

theorem sluiceRefill_canonical {id : Nat} : (s.sluiceRefill id).canonical := by
  unfold State.sluiceRefill
  split
  · exact hs
  · dsimp only
    split
    · exact hs
    · split
      · next slot items _ =>
        have done : (items.foldl (fun (acc : State × Option Stop) b =>
            match acc with
            | (s, none) => s.bring id b slot items
            | r => r) (s, none)).1.canonical := by
          refine List.foldlRecOn (motive := fun acc : State × Option Stop => acc.1.canonical) items _ hs (fun acc ok b _ => ?_)
          obtain ⟨s, _ | e⟩ := acc
          · exact bring_canonical ok
          · exact ok
        split
        · next made => exact updCrew_canonical (canonical_fst done made)
        · next made => exact raise_canonical (canonical_fst done made)
        · next made => exact askAgain_canonical (canonical_fst done made)
      · next k b _ =>
        have done := bring_canonical hs (id := k) (item := b) (slot := 2) (named := [])
        split
        · next made => exact updCrew_canonical (canonical_fst done made)
        · next made => exact raise_canonical (canonical_fst done made)
        · next made => exact askAgain_canonical (canonical_fst done made)
      · exact hs

-- Accesses.

theorem vaPlace_canonical {w : Who} {a : Acc} {watch : Option Fail} {chk : Bool} : (s.vaPlace w a watch chk).1.canonical :=
  canonical_of_same (vaPlace_same ..) hs

theorem resolve_canonical {w : Who} {x : Site} {watch : Option Fail} {a : Acc} : (s.resolve w x watch a).1.canonical := by
  unfold State.resolve
  repeat' split
  all_goals simp only [vaPlace_canonical, hs]

theorem checkLanes_canonical {w : Who} {x : Site} {watch : Acc → Option Fail} {lv : Bool} {as : List (Nat × Acc)} :
    (s.checkLanes w x watch lv as).1.canonical := by
  exact List.foldlRecOn (motive := fun a : State × List (Nat × LaneRes) => a.1.canonical) as _ hs (fun a ok la _ => resolve_canonical ok)

theorem touchHits_canonical {w : Who} {cache : Nat} {xs : List Hit} : (s.touchHits w cache xs).canonical :=
  canonical_of_same (touchHits_same ..) hs

theorem readLanes_canonical {w : Who} {cache : Nat} {h : Option Heat} {ls : List (Nat × List Hit)} : (s.readLanes w cache h ls).1.canonical :=
  touchHits_canonical (ownFirst_canonical hs)

theorem bufferLong_canonical {id : Nat} {h : Heat} {cells : List MemCell} {mode : BitVec 40} : (s.bufferLong id h cells mode).canonical := by
  unfold State.bufferLong
  dsimp only
  refine buffer_canonical ?_
  refine List.foldlRecOn (motive := fun a : State × List MemCell × List (Space × Nat) × BitVec 40 => a.1.canonical) cells _ hs
    (fun a ok x _ => ?_)
  repeat' split
  · exact ok
  · exact ok
  · exact seal_canonical ok
  · exact seal_canonical (buffer_canonical ok)

theorem storeCells_canonical {id : Nat} {h : Heat} {now : Bool} {cells : List MemCell} {mode : BitVec 40} :
    (s.storeCells id h now cells mode).canonical := by
  have performed (o : BufOp) := performOp_canonical (seal_canonical hs (id := id)) (id := id) (o := o)
  unfold State.storeCells
  dsimp only
  repeat' split
  all_goals simp only [buffer_canonical, bufferLong_canonical, performed, hs]

theorem engStore_canonical {w : Who} {scope cache : Nat} {cells : List MemCell} : (s.engStore w scope cache cells).canonical := by
  unfold State.engStore
  dsimp only
  refine hs.withMem (MemSys.canonical_foldl (fun _ _ hm => MemSys.putPeer_canonical hm _ _) _ ?_)
  exact MemSys.canonical_of_same (MemSys.wroteBy_same ..) (MemSys.storeExts_canonical (MemSys.putScratch_canonical
    (MemSys.storePkg_canonical (MemSys.storePkg_canonical hs.mem ..) ..) _) _)

theorem loseEngs_canonical {gone : Space × Nat → Bool} {cause : Nat} : (s.loseEngs gone cause).canonical := by
  refine canonical_foldl (fun s kv hs => canonical_foldl (fun s p hs => ?_) _ (setEng_canonical hs)) _ hs
  split
  · exact stopEng_canonical hs
  · exact hs

theorem loseReads_canonical {gone : Space × Nat → Bool} {cause : Nat} : (s.loseReads gone cause).canonical := by
  refine loseEngs_canonical ?_
  exact hs

theorem loseStores_canonical {mine : Space → Nat → Bool} {cause : Nat} : (s.loseStores mine cause).1.canonical := by
  unfold State.loseStores
  exact List.foldlRecOn (motive := fun a : State × List (Nat × Nat) => a.1.canonical) s.crews _ hs (fun a ok kv _ => setCrew_canonical ok)

theorem emitLoad_kept {id : Nat} {ws : List RegW} {la : Nat} {g : Got} : Kept (fun s => s) (s.emitLoad id ws la g) := by
  unfold State.emitLoad
  dsimp only
  split
  · exact updCrew_canonical hs
  · split
    · exact raise_canonical hs
    · exact updCrew_canonical hs

omit hs in
theorem checkLanes_plain {w : Who} {x : Site} {watch : Acc → Option Fail} {lv : Bool} {as : List (Nat × Acc)} :
    Plain (s.checkLanes w x watch lv as).2 := laneOutcome_plain ..

theorem stopIn_canonical {id : Nat} {st : Stop} (stop : st.canonical) : (s.stopIn id st).canonical := stopCrew_canonical hs stop

/-- Lanes that let a word go on. -/
theorem lanes_go {t : State} {w : Who} {x : Site} {watch : Acc → Option Fail} {lv : Bool} {as : List (Nat × Acc)}
    {r : Except Stop (List (Nat × List Hit))} (made : s.checkLanes w x watch lv as = (t, r)) : t.canonical :=
  canonical_fst (checkLanes_canonical hs) made

/-- Lanes that stop a word. -/
theorem lanes_stop {t : State} {id : Nat} {w : Who} {x : Site} {watch : Acc → Option Fail} {lv : Bool} {as : List (Nat × Acc)}
    {st : Stop} (made : s.checkLanes w x watch lv as = (t, .error st)) : (t.stopIn id st).canonical :=
  stopIn_canonical (lanes_go hs made) (checkLanes_plain.stop _ (congrArg Prod.snd made))

end State

end Sys2Proof.Machine
end

section
/-! SUPPORT. Loads, stores and cache words keep every memory in canonical form. For O59. -/

namespace Sys2Proof.Machine

section

variable {s : State} (hs : s.canonical)

include hs

theorem sealIf_canonical {p : Bool} {id : Nat} : (if p then s.seal id else s).canonical := by
  split
  · exact State.seal_canonical hs
  · exact hs

theorem acquireIf_canonical {p : Prop} [Decidable p] {id scope store : Nat} : (if p then s.acquireCrew id scope store else s).canonical := by
  split
  · exact State.acquireCrew_canonical hs
  · exact hs

theorem State.engRelease_canonical {w : Who} {scope : Nat} : (s.engRelease w scope).canonical := hs.withMem (MemSys.release_canonical hs.mem ..)

theorem State.engAcquire_canonical {w : Who} {scope : Nat} : (s.engAcquire w scope).canonical := hs.withMem (MemSys.acquire_canonical hs.mem ..)

theorem State.engAccess_kept {k : Nat} {e : Eng} {as : List (Nat × Acc)} : Kept Prod.fst (s.engAccess k e as) := by
  unfold State.engAccess
  split
  · next made => exact State.lanes_go hs made
  · next made => exact State.checkLanes_plain.stop _ (congrArg Prod.snd made)
  · next made => exact State.lanes_go hs made

theorem State.emitLoad_go {t : State} {id : Nat} {ws : List RegW} {la : Nat} {g : Got} (made : s.emitLoad id ws la g = .ok t) : t.canonical :=
  (State.emitLoad_kept hs).of_ok made

theorem State.emitLoad_stop {st : Stop} {id : Nat} {ws : List RegW} {la : Nat} {g : Got} (made : s.emitLoad id ws la g = .error st) :
    st.canonical := (State.emitLoad_kept hs).stop made

theorem constFill_canonical {cluster : Nat} {xs : List Hit} : (s.constFill cluster xs).canonical := by
  unfold State.constFill
  dsimp only
  refine hs.withMem (MemSys.canonical_foldl (fun m x hm => ?_) _ hs.mem)
  repeat' split
  · exact MemSys.canonical_of_same (MemSys.fillPeer_same ..) hm
  · exact MemSys.canonical_of_same (MemSys.use_same ..) hm
  · exact MemSys.canonical_of_same (MemSys.setLine_same ..) hm

end

-- Crews' loads and stores (R248 to R250).

theorem loadEff_keeps (m : MemOp) : (loadEff m).Keeps := by
  intro s id c h hs
  unfold loadEff
  dsimp only
  split
  · next made => exact (laneCheck_plain ..).stop _ made
  · split
    · next made => exact State.lanes_stop hs made
    · next made =>
      have placed := State.lanes_go hs made
      split
      · next made => exact State.emitLoad_stop (acquireIf_canonical (State.readLanes_canonical (sealIf_canonical placed))) made
      · next made => exact State.emitLoad_go (acquireIf_canonical (State.readLanes_canonical (sealIf_canonical placed))) made

theorem storeEff_keeps (m : MemOp) : (storeEff m).Keeps := by
  intro s id c h hs
  unfold storeEff
  dsimp only
  split
  · next made => exact (laneCheck_plain ..).stop _ made
  · split
    · next made =>
      obtain ⟨_, -, rfl⟩ := Option.map_eq_some_iff.1 made
      trivial
    · split
      · next made => exact State.lanes_stop hs made
      · next made => exact State.storeCells_canonical (State.lanes_go hs made)

section

variable {s : State} (hs : s.canonical)

include hs

-- Uniform loads and stores (R252).

theorem execSld_kept {o : OpSy} {sx : Bool} {z : BitVec 2} : KeptNext (execSld o sx z s) := by
  refine State.sharedWord_canonical hs (fun s id c h hs => ?_) (fun s k e hs => ?_)
  · dsimp only
    split
    · next made => exact (check_plain ..).stop _ made
    · split
      · next made => exact State.lanes_stop hs made
      · next made =>
        have placed := State.lanes_go hs made
        split
        · next made => exact State.emitLoad_stop (acquireIf_canonical (State.readLanes_canonical (sealIf_canonical placed))) made
        · next made => exact State.emitLoad_go (acquireIf_canonical (State.readLanes_canonical (sealIf_canonical placed))) made
  · have acquired {s : State} (hs : s.canonical) {w : Who} {mode : BitVec 40} :
        (if modeOrd mode = 1 then s.engAcquire w (modeScope mode) else s).canonical := by
      split
      · exact State.engAcquire_canonical hs
      · exact hs
    dsimp only
    split
    · trivial
    · split
      · next made => exact (State.engAccess_kept hs).stop made
      · next made =>
        have placed := (State.engAccess_kept hs).of_ok made
        split
        · exact State.raiseEng_canonical (acquired (State.readLanes_canonical placed))
        · split
          · next made => exact (setLater_plain ..).stop _ made
          · exact State.setEng_canonical (acquired (State.readLanes_canonical placed))

theorem execSst_kept {o : OpS3} {z : BitVec 2} : KeptNext (execSst o z s) := by
  refine State.sharedWord_canonical hs (fun s id c h hs => ?_) (fun s k e hs => ?_)
  · dsimp only
    split
    · next made => exact (check_plain ..).stop _ made
    · split
      · next made => exact State.lanes_stop hs made
      · next made => exact State.storeCells_canonical (State.lanes_go hs made)
  · dsimp only
    split
    · trivial
    · split
      · next made => exact (State.engAccess_kept hs).stop made
      · next made =>
        have placed := (State.engAccess_kept hs).of_ok made
        refine State.engStore_canonical ?_
        split
        · exact State.engRelease_canonical placed
        · exact placed

theorem execLdc_kept {d a o : BitVec 5} {e : BitVec 3} {l : BitVec 4} {t : Bool} : KeptNext (execLdc d a o e l t s) := by
  refine State.crewWord_canonical hs (fun s id c h hs => ?_)
  dsimp only
  generalize (if t then MemForm.t else MemForm.w) = f
  split
  · next made => exact (check_plain ..).stop _ made
  · split
    · trivial
    · split
      · next made => exact State.lanes_stop hs made
      · next made =>
        have read {w : Who} {g cache : Nat} {x y : List Hit} {id : Nat} {p : Bool} :=
          State.touchHits_canonical (constFill_canonical (sealIf_canonical (State.lanes_go hs made) (p := p) (id := id)) (cluster := g) (xs := x))
            (w := w) (cache := cache) (xs := y)
        split
        · next made => exact State.emitLoad_stop (acquireIf_canonical read) made
        · next made => exact State.emitLoad_go (acquireIf_canonical read) made

-- Cache words (R254).

theorem lineHit_canonical {w : Who} {va : Nat} {mode : BitVec 40} : (s.lineHit w va mode).1.canonical :=
  State.canonical_of_same (lineHit_same ..) hs

theorem execPref_kept {o : OpCache} : KeptNext (execPref o s) := by
  refine State.crewWord_canonical hs (fun s id c h hs => ?_)
  split
  · next made => exact (laneCheck_plain ..).stop _ made
  · split
    · exact hs
    · exact State.canonical_foldl (fun _ _ hs => State.canonical_of_same (prefLine_same ..) hs) _ hs

omit hs in
theorem flushEff_keeps (o : OpCache) (watched : Bool) (op : Nat → Bool → BufOp) : (flushEff o watched op).Keeps := by
  intro s id c h hs
  unfold flushEff
  dsimp only
  split
  · next made => exact (laneCheck_plain ..).stop _ made
  · split
    · exact hs
    · split
      · next made => exact (laneOutcome_plain ..).stop _ made
      · refine State.canonical_foldl (fun s l hs => ?_) _ ?_
        · repeat' split
          · exact State.buffer_canonical hs
          · exact State.buffer_canonical hs
          · exact hs
          · exact hs
        · exact List.foldlRecOn (motive := fun a : State × List (Nat × LaneRes) => a.1.canonical) _ _ hs
            (fun a ok la _ => State.vaPlace_canonical ok)

theorem execHint_kept {o : OpCache} : KeptNext (execHint o s) := by
  refine State.crewWord_canonical hs (fun s id c h hs => ?_)
  dsimp only
  split
  · next made => exact (laneCheck_plain ..).stop _ made
  · split
    · exact hs
    · refine State.canonical_foldl (fun s la hs => ?_) _ hs
      split
      · next made =>
        have found := State.canonical_fst (lineHit_canonical hs) made
        exact found
      · next made => exact State.canonical_fst (lineHit_canonical hs) made

end

end Sys2Proof.Machine
end

section
/-! SUPPORT. Matrix operations keep every memory in canonical form. For O59. -/

namespace Sys2Proof.Machine

variable {s : State} (hs : s.canonical)

include hs

namespace State

theorem returnBlock_canonical {k : Nat} {e : Eng} {a : AccD} : (s.returnBlock k e a).canonical := by
  refine canonical_foldl (fun s core hs => ?_) _ hs
  split
  · exact updCrew_canonical hs
  · exact hs

theorem saveBlocks_canonical {a : AccD} {ids : List Nat} {xs : List (List Nat)} : (s.saveBlocks a ids xs).canonical :=
  canonical_foldl (fun _ _ hs => updCrew_canonical hs) _ hs

theorem eachPosition_canonical {k : Nat} {e : Eng} {x : XOp} {ps : List (Nat × Crew)} {f : Nat → Crew → Tab Word → List Nat × Tab Word} :
    (s.eachPosition k e x ps f).canonical := by
  unfold State.eachPosition
  dsimp only
  refine saveBlocks_canonical ?_
  split
  · exact setEng_canonical hs
  · exact hs

theorem engWrite_kept {k : Nat} {e : Eng} {mode : BitVec 40} {as : List (Nat × Acc)} {bs : List (List Byte)} :
    Kept (fun s => s) (s.engWrite k e mode as bs) := by
  unfold State.engWrite
  split
  · next made => exact (engAccess_kept hs).stop made
  · next made =>
    have placed := (engAccess_kept hs).of_ok made
    refine engStore_canonical ?_
    split
    · exact engRelease_canonical placed
    · exact placed

theorem engRead_kept {k : Nat} {e : Eng} {mode : BitVec 40} {as : List (Nat × Acc)} : Kept Prod.fst (s.engRead k e mode as) := by
  have acquired {s : State} (hs : s.canonical) {w : Who} {p : Prop} [Decidable p] {scope : Nat} :
      (if p then s.engAcquire w scope else s).canonical := by
    split
    · exact engAcquire_canonical hs
    · exact hs
  unfold State.engRead
  split
  · next made => exact (engAccess_kept hs).stop made
  · next made =>
    have placed := (engAccess_kept hs).of_ok made
    dsimp only
    split
    · exact acquired (readLanes_canonical placed)
    · exact acquired (readLanes_canonical placed)

theorem readTile_kept {k : Nat} {e : Eng} {mode : BitVec 40} {t : TileD} {ftz : Bool} : Kept Prod.fst (s.readTile k e mode t ftz) := by
  unfold State.readTile
  split
  · next made => exact (engRead_kept hs).stop made
  · next made =>
    have rows := (engRead_kept hs).of_ok made
    split
    · next made => exact (engRead_kept rows).stop made
    · next made => exact (engRead_kept rows).of_ok made

theorem xEffect_kept {k : Nat} {e : Eng} {x : XOp} {ps : List (Nat × Crew)} : Kept (fun s => s) (s.xEffect k e x ps) := by
  unfold State.xEffect
  dsimp only
  split
  · split
    · next made => exact (readTile_kept hs).stop made
    · next made =>
      have first := (readTile_kept hs).of_ok made
      split
      · next made => exact (readTile_kept first).stop made
      · next made => exact eachPosition_canonical ((readTile_kept first).of_ok made)
  · split
    · exact eachPosition_canonical hs
    · split
      · next made => exact (readTile_kept hs).stop made
      · next made => exact eachPosition_canonical ((readTile_kept hs).of_ok made)
  · split
    · next made => exact (engWrite_kept hs).stop made
    · next made =>
      have written := (engWrite_kept hs).of_ok (state := fun s => s) made
      have kept {p : Option Eng} {f : Eng → Eng} {k : Nat} {s : State} (hs : s.canonical) : (match p with
          | some e => s.setEng k (f e)
          | none => s).canonical := by
        cases p with
        | none => exact hs
        | some e => exact setEng_canonical hs
      split
      · exact saveBlocks_canonical (kept written)
      · exact kept written
  · exact saveBlocks_canonical hs

omit hs in
theorem xCheck_canonical {k : Nat} {x : XOp} {st : Stop} (found : s.xCheck k x = some st) : st.canonical := by
  refine firstStop_canonical (fun y hy => ?_) found
  simp only [List.mem_cons, List.not_mem_nil, or_false] at hy
  rcases hy with rfl | rfl | rfl <;> trivial

theorem xRemove_canonical {k id : Nat} : (s.xRemove k id).canonical := by
  unfold State.xRemove
  repeat' split
  · exact hs
  · exact hs
  · exact engStopped_canonical (setEng_canonical hs)

theorem xFault_canonical {k : Nat} {x : XOp} {f : Fail} : (s.xFault k x f).canonical := by
  unfold State.xFault
  split
  · exact hs
  · exact stopEng_canonical (xRemove_canonical hs)

theorem xReturn_canonical {k : Nat} {e : Eng} {x : XOp} : (s.xReturn k e x).canonical := by
  unfold State.xReturn
  split
  · exact returnBlock_canonical (engRelease_canonical hs)
  · exact hs

theorem xFinish_canonical {eng op : Nat} : (s.xFinish eng op).canonical := by
  unfold State.xFinish
  split
  · exact hs
  · split
    · exact hs
    · split
      · exact hs
      · split
        · exact xFault_canonical hs
        · split
          · next made => exact xRemove_canonical (xReturn_canonical ((xEffect_kept hs).of_ok (state := fun s => s) made))
          · exact xFault_canonical hs
          · next made => exact xFault_canonical ((xEffect_kept hs).stop made)
          · exact classAsk_canonical hs
          · exact hs

theorem endEng_canonical {k : Nat} : (s.endEng k).canonical := by
  unfold State.endEng
  split
  · exact hs
  · exact setEng_canonical (laneMode_canonical (setFork_canonical hs))

end State

-- Words of Miller contexts.

omit hs in
theorem xIssue_keeps {op : Instr} {slot : BitVec 3} {w : BitVec 8} : (xIssue op slot w).Keeps := by
  intro s k e hs
  unfold xIssue
  dsimp only
  repeat' split
  · trivial
  · next found => exact State.xCheck_canonical found
  · exact hs

theorem execDwait_kept {w : BitVec 8} : KeptNext (execDwait w s) := by
  refine State.engWord_canonical hs (fun s k e hs => ?_)
  split
  · trivial
  · exact hs

theorem execDwaitArm_kept {n : BitVec 4} {slot : BitVec 3} : KeptNext (execDwaitArm n slot s) := by
  refine State.engWord_canonical hs (ownEff_keeps (fun e => ?_))
  split
  · exact .error trivial
  · exact .ok

theorem execTset_kept {o : Op3} : KeptNext (execTset o s) := by
  refine State.engWord_canonical hs (ownEff_keeps (fun e => ?_))
  dsimp only
  repeat' split
  · exact .error trivial
  · exact .error trivial
  · exact .ok

theorem execAset_kept {o : Op3} : KeptNext (execAset o s) := by
  refine State.engWord_canonical hs (ownEff_keeps (fun e => ?_))
  dsimp only
  repeat' split
  · exact .error trivial
  · exact .error trivial
  · exact .ok
  · exact .ok

theorem execTget_kept {o : Op3} : KeptNext (execTget o s) := State.engWord_canonical hs (ownEff_keeps (fun _ => setS_plain ..))

theorem execGmode_kept {a : BitVec 5} : KeptNext (execGmode a s) := by
  refine State.engWord_canonical hs (fun s k e hs => ?_)
  dsimp only
  repeat' split
  iterate 3 · trivial
  iterate 2 · exact hs

theorem execXOperationStart_kept {eng op : Nat} : KeptNext (execXOperationStart eng op s) := by
  unfold execXOperationStart
  repeat' split
  · exact .next hs
  · exact .next hs
  · exact .next (State.engAcquire_canonical (State.setEng_canonical hs))
  · exact .next hs

theorem execXOperationCompletion_kept {eng op : Nat} : KeptNext (execXOperationCompletion eng op s) := by
  unfold execXOperationCompletion
  split
  · exact .next (State.xFinish_canonical hs)
  · exact .next hs

theorem execTokenWaitTimeout_kept {eng op : Nat} : KeptNext (execTokenWaitTimeout eng op s) := by
  unfold execTokenWaitTimeout
  repeat' split
  · exact .next hs
  · exact .next hs
  · exact .next (State.xFault_canonical hs)
  · exact .next hs

theorem execMexit_kept : KeptNext (execMexit s) := by
  unfold execMexit
  split
  · split
    · next made => exact .next (State.issueCrew_canonical (State.issuer_canonical hs made) State.noEff_keeps)
    · exact .fault
  · split
    · exact .fault
    · split
      · exact .next (State.raiseEng_canonical hs)
      · split
        · exact .next (State.setEng_canonical hs)
        · exact .next (State.endEng_canonical (State.engRelease_canonical
            (State.canonical_foldl (fun _ _ hs => State.returnBlock_canonical hs) _ (State.laneMode_canonical (State.setEng_canonical hs)))))

end Sys2Proof.Machine
end

section
/-! SUPPORT. Fences, barrier words, strikes and monitored waits keep every memory in canonical form. For O59. -/

namespace Sys2Proof.Machine

theorem Kept.ite {α : Type} {state : α → State} {p : Prop} [Decidable p] {r q : Except Stop α} (yes : Kept state r) (no : Kept state q) :
    Kept state (if p then r else q) := by
  split
  · exact yes
  · exact no

/-- An answer without flags. -/
theorem answered {r : Except Stop State} (kept : Kept (fun s => s) r) : Kept Prod.fst (match r with
    | .error e => .error e
    | .ok s => .ok (s, (0 : Flags))) := by
  cases r with
  | error st => exact kept
  | ok s => exact kept

variable {s : State} (hs : s.canonical)

include hs

-- Fences (R260).

theorem execFence_kept : KeptNext (execFence s) := by
  refine State.sharedWord_canonical hs (fun s id c h hs => ?_) (fun s k e hs => ?_)
  · have acquired : (if modeOrd h.wrk.mode = 2 then s
        else (s.performLater id).acquireCrew id (modeScope h.wrk.mode) (modeStore h.wrk.mode)).canonical := by
      split
      · exact hs
      · exact State.acquireCrew_canonical (State.performLater_canonical hs)
    dsimp only
    split
    · next made => exact (check_plain ..).stop _ made
    · show State.canonical (if _ then _ else _)
      split
      · exact acquired
      · exact State.buffer_canonical acquired
  · have acquired {p : Bool} {w : Who} {scope : Nat} : (if p then s.engAcquire w scope else s).canonical := by
      split
      · exact State.engAcquire_canonical hs
      · exact hs
    dsimp only
    split
    · trivial
    · show State.canonical (if _ then _ else _)
      split
      · exact State.engRelease_canonical acquired
      · exact acquired

-- Barrier words (R263 to R267).

namespace State

omit hs in
theorem barPlace_plain {x : Site} {va k : Nat} : Plain (s.barPlace x va k) := by
  unfold State.barPlace
  dsimp only
  repeat' split
  iterate 4 · exact .error trivial
  · exact .ok
  · exact .error trivial

theorem emitS_kept {id : Nat} {d : BitVec 5} {x la : Nat} : Kept Prod.fst (s.emitS id d x la) := by
  unfold State.emitS
  split
  · next made => exact emitLoad_go hs made
  · next made => exact emitLoad_stop hs made

theorem arrival_kept {id : Nat} {c : Crew} {va add : Nat} : Kept Prod.fst (s.arrival id c va add) := by
  unfold State.arrival
  dsimp only
  split
  · exact updCrew_canonical (seal_canonical hs)
  · split
    · next made => exact barPlace_plain.stop _ made
    · split
      · trivial
      · exact barEvent_canonical (releaseCrew_canonical (seal_canonical hs))

theorem wakeAcquire_canonical {id w : Nat} : (s.wakeAcquire id w).canonical := acquireCrew_canonical hs

theorem takeBar_canonical {id : Nat} {c : Crew} {w tok t0 : Nat} {bar : Bool} : (s.takeBar id c w tok t0 bar).canonical := by
  have put {b : BarW} := putBar_canonical hs (w := w) (b := b) (all := false)
  refine updCrew_canonical ?_
  exact put

theorem waitAgain_kept {id : Nat} {c : Crew} {limit : Option Nat} {r : Except Stop (State × Nat)} (made : s.waitAgain id c limit = some r) :
    Kept Prod.fst r := by
  unfold State.waitAgain at made
  split at made
  · repeat' split at made
    all_goals cases made
    · exact wakeAcquire_canonical (freeBar_canonical hs)
    · exact freeBar_canonical hs
    · trivial
  · repeat' split at made
    all_goals cases made
    · exact cancel_canonical hs
    · trivial
  · cases made

theorem waitWord_kept {id : Nat} {c : Crew} {w tok : Nat} {limit : Option Nat} {bar : Bool} {va : Nat} :
    Kept Prod.fst (s.waitWord id c w tok limit bar va) := by
  have claimed (r : Nat) := claim_canonical hs (r := r) (id := id)
  have refused (r : Nat) := refuse_canonical (claimed r) (r := r) (id := id)
  unfold State.waitWord
  dsimp only
  split
  · trivial
  · repeat' split
    all_goals simp only [Kept, Stop.canonical, wakeAcquire_canonical, grantNext_canonical, takeBar_canonical, updCrew_canonical,
      refused, claimed]

theorem waitAt_kept {id : Nat} {c : Crew} {va k tok : Nat} {limit : Option Nat} {bar : Bool} :
    Kept Prod.fst (s.waitAt id c va k tok limit bar) := by
  unfold State.waitAt
  split
  · next made => exact waitAgain_kept hs made
  · split
    · next made => exact barPlace_plain.stop _ made
    · exact waitWord_kept hs

end State

theorem execBinit_kept {o : OpS3} : KeptNext (execBinit o s) := by
  refine State.crewWord_canonical hs (fun s id c h hs => ?_)
  dsimp only
  split
  · next made => exact (check_plain ..).stop _ made
  · split
    · trivial
    · split
      · next made => exact State.barPlace_plain.stop _ made
      · split
        · trivial
        · have sealed := State.seal_canonical hs (id := id)
          refine State.putBar_canonical ?_
          exact sealed

omit hs in
theorem arriveEff_keeps (o : OpSy) (ext : Bool) : (arriveEff o ext).Keeps := by
  intro s id c h hs
  unfold arriveEff
  split
  · next made => exact (check_plain ..).stop _ made
  · split
    · next made => exact (State.arrival_kept hs).stop made
    · next made => exact State.emitS_kept ((State.arrival_kept hs).of_ok made)

theorem execWait_kept {o : OpS3} : KeptNext (execWait o s) := by
  refine State.crewWord_canonical hs (fun s id c h hs => ?_)
  split
  · next made => exact (check_plain ..).stop _ made
  · split
    · next made => exact (State.waitAt_kept hs).stop made
    · next made => exact (State.waitAt_kept hs).of_ok made

theorem execTwait_kept {o : OpSy} : KeptNext (execTwait o s) := by
  refine State.crewWord_canonical hs (fun s id c h hs => ?_)
  dsimp only
  split
  · next made => exact (check_plain ..).stop _ made
  · split
    · next made => exact (State.waitAt_kept hs).stop made
    · next made => exact State.emitS_kept ((State.waitAt_kept hs).of_ok made)

theorem execBar_kept {a o : BitVec 5} : KeptNext (execBar a o s) := by
  refine State.crewWord_canonical hs (fun s id c h hs => ?_)
  dsimp only
  split
  · next made => exact (check_plain ..).stop _ made
  · split
    iterate 3
      · split
        · next made => exact (State.waitAt_kept hs).stop made
        · next made => exact (State.waitAt_kept hs).of_ok made
    · split
      · next made => exact (State.arrival_kept hs).stop made
      · next made =>
        have arrived := (State.arrival_kept hs).of_ok made
        split
        · next made => exact (State.waitWord_kept arrived).stop made
        · next made => exact (State.waitWord_kept arrived).of_ok made

-- Strikes (R268, R269, R348).

namespace State

omit hs in
theorem strikeWrite_canonical {rk gen : Nat} {s : State} {word : Nat} (hs : s.canonical) : (State.strikeWrite rk gen s word).canonical := by
  unfold State.strikeWrite
  split
  · exact wakeWord_canonical (barEvent_canonical hs)
  · exact hs

theorem strikeCheck_canonical {rk : Nat} : (s.strikeCheck rk).canonical := by
  unfold State.strikeCheck
  split
  · exact hs
  · split
    · exact hs
    · refine canonical_foldl (fun s kv hs => ?_) _ hs
      dsimp only
      split
      · exact hs
      · split
        · exact hs
        · have released {f : Region → Region} := updRegion_canonical hs (rk := rk) (f := f)
          exact released

theorem admitOne_canonical : s.admitOne.canonical := by
  unfold State.admitOne
  split
  · exact hs
  · exact canonical_foldl (fun _ _ hs => strikeWrite_canonical hs) _ hs

end State

theorem execStrike_kept {o : Op2} : KeptNext (execStrike o s) := by
  refine State.crewWord_canonical hs (fun s id c h hs => ?_)
  have sealed := State.seal_canonical hs (id := id)
  dsimp only
  split
  · next made => exact (check_plain ..).stop _ made
  · split
    · trivial
    · split
      · next made => exact State.barPlace_plain.stop _ made
      · split
        · refine .ite trivial (.ite trivial (.ite trivial (.ite (State.updCrew_canonical sealed) ?_)))
          have struck {f : Region → Region} {scope : Nat} :=
            State.updRegion_canonical (State.releaseCrew_canonical sealed (id := id) (scope := scope) (store := 3)) (rk := c.rk) (f := f)
          split
          · next made => exact (State.emitS_kept struck).stop made
          · next made => exact State.strikeCheck_canonical ((State.emitS_kept struck).of_ok made)
        · trivial

-- Monitored waits (R270, R271).

theorem monitorRead_canonical {w : Who} {scope : Nat} {x : Hit} {n : Nat} : (s.monitorRead w scope x n).1.canonical := by
  unfold State.monitorRead
  dsimp only
  split
  · exact hs.withMem (MemSys.prepAtomic_canonical hs.mem ..)
  · exact hs.withMem (MemSys.drainLine_canonical hs.mem ..)
  · exact hs

theorem execMwait_kept {o : OpSy} {wd : Bool} : KeptNext (execMwait o wd s) := by
  refine State.crewWord_canonical hs (fun s id c h hs => ?_)
  generalize (if wd then 8 else 4) = n
  dsimp only
  split
  · next made => exact (check_plain ..).stop _ made
  · refine .ite trivial (.ite trivial ?_)
    split
    · next made => exact State.lanes_stop hs made
    · next made =>
      have placed := State.lanes_go hs made
      have finish {t : State} (ht : t.canonical) {ws : List RegW} {la : Nat} {g : Got} :=
        answered (State.emitLoad_kept (acquireIf_canonical ht (p := modeOrd h.wrk.mode = 1) (id := id) (scope := modeScope h.wrk.mode) (store := 3))
          (id := id) (ws := ws) (la := la) (g := g))
      have armed {t : State} (ht : t.canonical) {w : Who} {scope n : Nat} {x : Hit} {xs : List Monitor} {f : Crew → Crew} : State.canonical (State.updCrew
          { (t.monitorRead w scope x n).1 with mem := { (t.monitorRead w scope x n).1.mem with monitors := xs } } id f) := by
        refine State.updCrew_canonical ?_
        exact monitorRead_canonical ht
      have granted {t : State} (ht : t.canonical) {p : Bool} {r : Nat} : (if p then t.grantNext r else t).canonical := by
        split
        · exact State.grantNext_canonical ht
        · exact ht
      have refused {t : State} (ht : t.canonical) {r : Nat} {f : Crew → Crew} : ((t.refuse r id).updCrew id f).canonical :=
        State.updCrew_canonical (State.refuse_canonical ht)
      refine .ite trivial ?_
      split
      · split
        · refine .ite trivial (finish (State.readLanes_canonical (State.dropMonitor_canonical placed)))
        · exact .ite (finish (granted (monitorRead_canonical placed))) (.ite (armed placed) (refused (monitorRead_canonical placed)))
      · have claimed {r : Nat} := State.claim_canonical placed (r := r) (id := id)
        exact .ite (.ite (finish (granted (monitorRead_canonical claimed))) (.ite (armed claimed) (refused (monitorRead_canonical claimed))))
          (.ite trivial (.ite (finish (granted (monitorRead_canonical placed))) (.ite (armed placed) (refused (monitorRead_canonical placed)))))
      · exact .ite (finish (granted (monitorRead_canonical placed))) (.ite (armed placed) (refused (monitorRead_canonical placed)))

end Sys2Proof.Machine
end

section
/-! SUPPORT. Transfer entries of Flume queues and Tailrace contexts keep every memory in canonical form. For O59. -/

namespace Sys2Proof.Machine

/-- A check of an entry stops by itself. -/
def PlainCheck (chk : Entry → Option Stop) : Prop := ∀ n st, chk n = some st → st.canonical

theorem plainCheck_none : PlainCheck (fun _ => none) := fun _ _ made => by cases made

theorem plainCheck_tooLong (f : Entry → Nat) : PlainCheck (fun n => tooLong (f n)) := by
  intro n st made
  dsimp only [tooLong] at made
  split at made <;> cases made
  trivial

theorem plainCheck_pairBad : PlainCheck pairBad := by
  intro n st made
  unfold pairBad at made
  split at made <;> cases made
  trivial

theorem queueEntry_keeps {mk : State → Eng → Entry} {chk : Eng → Entry → Option Stop} (plain : ∀ e, PlainCheck (chk e)) :
    (queueEntry mk chk).Keeps := by
  intro s k e hs
  unfold queueEntry
  dsimp only
  split
  · trivial
  · split
    · next made => exact plain _ _ _ made
    · exact hs

variable {s : State} (hs : s.canonical)

include hs

-- Issue of entries (R302 to R310).

theorem transfer_kept {op : Instr} {o : OpE} {kinds : Nat → Bool} {chk : Entry → Option Stop} (plain : PlainCheck chk) :
    KeptNext (transfer op o kinds chk s) := by
  unfold transfer
  split
  · exact State.engWord_canonical hs (queueEntry_keeps (fun _ => plain))
  · exact State.engWord_canonical hs (fun _ _ _ hs => hs)

theorem execHalo_kept {d a b : BitVec 5} {g : Bool} : KeptNext (execHalo d a b g s) :=
  State.engWord_canonical hs (queueEntry_keeps (fun _ => plainCheck_none))

theorem execEsig_kept {d a : BitVec 5} {kd : BitVec 3} : KeptNext (execEsig d a kd s) := by
  unfold execEsig
  split
  · exact State.engWord_canonical hs (queueEntry_keeps (fun _ => plainCheck_none))
  · exact State.engWord_canonical hs (fun _ _ _ hs => hs)

theorem execQfence_kept {a : BitVec 5} : KeptNext (execQfence a s) :=
  State.engWord_canonical hs (fun _ _ _ hs => .ite trivial (.ite trivial hs))

theorem execColl_kept {d : BitVec 5} : KeptNext (execColl d s) := by
  refine State.engWord_canonical hs (fun s k e hs => .ite trivial (.ite trivial ?_))
  dsimp only
  split
  · next made => exact (State.engRead_kept hs).stop made
  · next made =>
    have block := (State.engRead_kept hs).of_ok made
    refine .ite trivial ?_
    split
    · next made => exact (State.engRead_kept block).stop made
    · next made =>
      have peers := (State.engRead_kept block).of_ok made
      exact peers

-- Closers (R286, R311).

theorem execEloop_kept {d : BitVec 5} {o : BitVec 10} : KeptNext (execEloop d o s) := by
  unfold execEloop
  split
  · split
    · next made => exact .next (State.issueCrew_canonical (State.issuer_canonical hs made) State.noEff_keeps)
    · exact .fault
  · split
    · exact .fault
    · refine .next (State.closeEng_canonical hs (fun e st made => ?_))
      dsimp only at made
      split at made <;> cases made

theorem execEend_kept : KeptNext (execEend s) := by
  unfold execEend
  split
  · split
    · next made => exact .next (State.issueCrew_canonical (State.issuer_canonical hs made) State.noEff_keeps)
    · exact .fault
  · split
    · exact .fault
    · split
      · exact .next (State.raiseEng_canonical hs)
      · split
        · exact .next (State.setEng_canonical hs)
        · exact .next (State.endEng_canonical (State.engRelease_canonical hs))

namespace State

-- Entries performed (R232, R303 to R310).

theorem lowerWord_canonical {k : Nat} {e : Eng} {mode : BitVec 40} {w n gen : Nat} : (s.lowerWord k e mode w n gen).1.canonical := by
  have released := engRelease_canonical hs (w := s.whoEng k e) (scope := modeScope mode)
  unfold State.lowerWord
  dsimp only
  split
  · next made => exact canonical_fst (barLower_canonical (noteScope_canonical released)) made
  · exact released

theorem readIndex_kept {k : Nat} {e : Eng} {n : Entry} : Kept Prod.fst (s.readIndex k e n) := by
  unfold State.readIndex
  dsimp only
  split
  · next made => exact (engRead_kept hs).stop made
  · next made => exact (engRead_kept hs).of_ok made

theorem entryIndex_kept {k : Nat} {e : Eng} {n : Entry} : Kept Prod.fst (s.entryIndex k e n) := by
  unfold State.entryIndex
  split
  · exact readIndex_kept hs
  · exact readIndex_kept hs
  · exact hs

theorem engWrite_go {t : State} {k : Nat} {e : Eng} {mode : BitVec 40} {as : List (Nat × Acc)} {bs : List (List Byte)}
    (made : s.engWrite k e mode as bs = .ok t) : t.canonical := (engWrite_kept hs).of_ok made

theorem doTransfer_kept {k : Nat} {e : Eng} {n : Entry} : Kept Prod.fst (s.doTransfer k e n) := by
  unfold State.doTransfer
  dsimp only
  refine .ite hs (.ite trivial ?_)
  split
  · next made => exact (entryIndex_kept hs).stop made
  · next made =>
    have index := (entryIndex_kept hs).of_ok made
    refine .ite trivial ?_
    split
    · next made => exact (engRead_kept index).stop made
    · next made =>
      have read := (engRead_kept index).of_ok made
      split
      · next made => exact (engWrite_kept read).stop made
      · next made =>
        have written := engWrite_go read made
        split
        · exact lowerWord_canonical written
        · exact written

theorem doHalo_kept {k : Nat} {e : Eng} {n : Entry} : Kept Prod.fst (s.doHalo k e n) := by
  unfold State.doHalo
  dsimp only
  split
  · trivial
  · refine .ite (.ite trivial ?_) ?_
    · split
      · next made => exact (engRead_kept hs).stop made
      · next made =>
        have read := (engRead_kept hs).of_ok made
        exact read
    · split
      · trivial
      · refine .ite trivial (.ite hs ?_)
        split
        · next made => exact (engRead_kept hs).stop made
        · next made =>
          have read := (engRead_kept hs).of_ok made
          have written {cells : List (Nat × Byte)} := read.withMem (MemSys.putScratch_canonical read.mem cells)
          split
          · exact lowerWord_canonical written
          · exact written

theorem doEsig_kept {k : Nat} {e : Eng} {n : Entry} {kd : Nat} : Kept (fun s => s) (s.doEsig k e n kd) := by
  unfold State.doEsig
  dsimp only
  refine .ite (.ite trivial ?_) (.ite (.ite trivial ?_) (.ite trivial (engWrite_kept hs)))
  · split
    · trivial
    · split
      · trivial
      · exact .ite trivial (barEvent_canonical (engRelease_canonical hs))
  · split
    · trivial
    · exact .ite trivial (setEng_canonical hs)

theorem doColl_kept {k : Nat} {e : Eng} {n : Entry} : Kept Prod.fst (s.doColl k e n) := by
  unfold State.doColl
  dsimp only
  refine .ite trivial ?_
  split
  · next made => exact (engRead_kept hs).stop made
  · next made =>
    have read := (engRead_kept hs).of_ok made
    split
    · next made => exact (engWrite_kept read).stop made
    · next made =>
      have written := engWrite_go read made
      split
      · exact lowerWord_canonical written
      · exact written

theorem doEntry_kept {k : Nat} {e : Eng} {n : Entry} : Kept Prod.fst (s.doEntry k e n) := by
  unfold State.doEntry
  split
  · exact doHalo_kept hs
  · exact doColl_kept hs
  · next kd _ =>
    have signalled := doEsig_kept hs (k := k) (e := e) (n := n) (kd := kd.toNat)
    cases made : s.doEsig k e n kd.toNat with
    | error st => exact signalled.stop made
    | ok t => exact signalled.of_ok (state := fun s => s) made
  · exact doTransfer_kept hs

theorem groupLeft_canonical {g : Nat} : (s.groupLeft g).canonical := by
  unfold State.groupLeft
  split
  · exact hs
  · exact hs

theorem popEntry_canonical {k : Nat} : (s.popEntry k).canonical := by
  unfold State.popEntry
  split
  · exact hs
  · dsimp only
    split
    · exact groupLeft_canonical (setEng_canonical hs)
    · exact setEng_canonical hs

theorem entryFault_canonical {k : Nat} {n : Entry} {f : Fail} : (s.entryFault k n f).canonical := by
  unfold State.entryFault
  split
  · exact hs
  · exact stopEng_canonical (popEntry_canonical hs)

end State

theorem execEngineEntryCompletion_kept {eng : Nat} : KeptNext (execEngineEntryCompletion eng s) := by
  -- the entry's draws are used
  have used {s : State} (hs : s.canonical) {n : Nat} : State.canonical { s with freeCount := s.freeCount + n } := hs
  unfold execEngineEntryCompletion
  split
  · exact .next hs
  · split
    · exact .next hs
    · split
      · exact .next hs
      · dsimp only
        split
        · next made => exact .next (State.popEntry_canonical (used ((State.doEntry_kept hs).of_ok made)))
        · next made => exact .next (State.entryFault_canonical (used ((State.doEntry_kept hs).of_ok made)))
        · exact .next (State.entryFault_canonical (used hs))
        · next made => exact .next (State.entryFault_canonical (used ((State.doEntry_kept hs).stop made)))
        · exact .next (State.classAsk_canonical hs)
        · exact .next hs

theorem execQfenceMatch_kept {eng : Nat} : KeptNext (execQfenceMatch eng s) := by
  unfold execQfenceMatch
  dsimp only
  repeat' split
  · exact .next hs
  · exact .next hs
  · exact .next (State.canonical_foldl (fun _ _ hs => State.popEntry_canonical hs) _ hs)
  · exact .next hs

theorem execEngineWaitTimeout_kept {eng : Nat} : KeptNext (execEngineWaitTimeout eng s) := by
  unfold execEngineWaitTimeout
  repeat' split
  · exact .next hs
  · exact .next hs
  · exact .next (State.entryFault_canonical hs)
  · exact .next hs

theorem State.engWaits_canonical : s.engWaits.canonical := hs

end Sys2Proof.Machine
end

section
/-! SUPPORT. Power, and atomics, keep every memory in canonical form. For O59. -/

namespace Sys2Proof.Machine

variable {s : State} (hs : s.canonical)

include hs

namespace State

-- Power (R343 to R352).

theorem setPower_canonical {p : Power} : (s.setPower p).canonical := hs

theorem payMoves_canonical {gs : List Grant} : (s.payMoves gs).canonical := by
  refine canonical_foldl (fun s g hs => ?_) _ hs
  repeat' split
  · exact setEng_canonical hs
  iterate 3 · exact hs

theorem holdSlots_canonical {core : Nat} {l : List (Nat × Nat)} : (s.holdSlots core l).canonical := by
  unfold State.holdSlots
  dsimp only
  split
  · exact hs
  · exact hs

theorem holdAll_canonical {g : Nat} {reqs : List PowerReq} : (s.holdAll g reqs).canonical := by
  refine canonical_foldl (fun s r hs => ?_) _ hs
  repeat' split
  · exact holdSlots_canonical hs
  · exact hs
  · exact hs

theorem clusterClock_canonical {g : Nat} {reqs : List PowerReq} : (s.clusterClock g reqs).canonical := by
  unfold State.clusterClock
  split
  · exact hs
  · exact payMoves_canonical (setPower_canonical (holdAll_canonical hs))

theorem powerTick_canonical : s.powerTick.canonical :=
  setPower_canonical (canonical_foldl (fun _ _ hs => clusterClock_canonical hs) _ (setPower_canonical hs))

theorem useGrant_canonical {a : Agent} : (s.useGrant a).canonical := hs

-- Atomics (R255 to R257).

theorem atomicLanes_canonical {id : Nat} {w : Who} {op : AtOp} {bytes : Nat} {mode : BitVec 40} {ls : List AtLane} :
    (s.atomicLanes id w op bytes mode ls).1.canonical := by
  have released : (if atRelease mode then s.releaseCrew id (modeScope mode) 3 else s).canonical := by
    split
    · exact releaseCrew_canonical hs
    · exact hs
  exact acquireIf_canonical (List.foldlRecOn (motive := fun x : State × List (Nat × Nat) => x.1.canonical) ls _ (ownFirst_canonical released)
    (fun x ok l _ => rmw_canonical ok))

theorem atomicPlaces_canonical {id : Nat} {c : Crew} {h : Heat} {as : List (Nat × Acc)} : (s.atomicPlaces id c h as).1.canonical := by
  unfold State.atomicPlaces
  dsimp only
  refine List.foldlRecOn (motive := fun x : State × List (Nat × LaneRes) => x.1.canonical) as _ hs (fun x ok l _ => ?_)
  dsimp only
  generalize (if l.2.va % l.2.align = 0 then _ else none) = failed
  cases failed with
  | some f => exact ok
  | none => exact resolve_canonical ok

omit hs in
theorem atomicPlaces_plain {id : Nat} {c : Crew} {h : Heat} {as : List (Nat × Acc)} : Plain (s.atomicPlaces id c h as).2 := laneOutcome_plain ..

theorem aopTaken_canonical {id : Nat} {ls : List (Nat × List Hit)} : (s.aopTaken id ls).canonical := by
  unfold State.aopTaken
  split
  · exact updCrew_canonical hs
  · exact hs

theorem performGroup_canonical {id : Nat} : (s.performGroup id).canonical := by
  unfold State.performGroup
  split
  · exact hs
  · split
    · exact hs
    · refine updCrew_canonical (List.foldlRecOn (motive := fun x : State × List Pend => x.1.canonical) _ _ hs (fun x ok q _ => ?_))
      exact atomicLanes_canonical ok

end State

theorem sealUnless_canonical {p : Prop} [Decidable p] {id : Nat} : (if p then s else s.seal id).canonical := by
  split
  · exact hs
  · exact State.seal_canonical hs

omit hs in
theorem atomicEff_keeps (k : AtOpd) (d a o : BitVec 5) (la : Nat) (nr kb : Bool) : (atomicEff k d a o la nr kb).Keeps := by
  intro s id c h hs
  unfold atomicEff
  dsimp only
  split
  · next made => exact (laneCheck_plain ..).stop _ made
  · split
    · next made =>
      exact State.stopIn_canonical (State.canonical_fst (State.atomicPlaces_canonical hs) made)
        (State.atomicPlaces_plain.stop _ (congrArg Prod.snd made))
    · next t ls made =>
      have placed := State.canonical_fst (State.atomicPlaces_canonical hs) made
      have taken := State.aopTaken_canonical placed (id := id) (ls := ls)
      have sealed {p : Prop} [Decidable p] : (if p then t.aopTaken id ls else (t.aopTaken id ls).seal id).canonical := sealUnless_canonical taken
      have claimed {p : Prop} [Decidable p] {xs : List Nat} :=
        State.canonical_foldl (fun _ x hs => State.claim_canonical hs (r := resAtomic x) (id := id)) xs (sealed (p := p))
      refine .ite trivial (.ite (State.updCrew_canonical sealed) ?_)
      split
      · exact State.updCrew_canonical (State.refuseOnce_canonical sealed)
      · refine .ite (State.updCrew_canonical claimed) (.ite ?_ (answered (State.emitLoad_kept (State.atomicLanes_canonical claimed))))
        split
        · exact State.raise_canonical (State.atomicLanes_canonical claimed)
        · exact State.atomicLanes_canonical claimed

theorem atomicWord_kept {i : Instr} {op : AtOp} {k3 : Bool} {o : OpAt} : KeptNext (atomicWord i op k3 o s) :=
  State.crewWord_canonical hs (atomicEff_keeps _ _ _ _ _ _ _)

theorem execAcas2_kept {d a o : BitVec 5} {l : BitVec 4} {n k : Bool} : KeptNext (execAcas2 d a o l n k s) :=
  State.crewWord_canonical hs (atomicEff_keeps _ _ _ _ _ _ _)

end Sys2Proof.Machine
end

section
/-! SUPPORT. Heats, joins, closers, calls, returns and trap words keep every memory in canonical form. For O59. -/

namespace Sys2Proof.Machine

theorem Plain.ite {α : Type} {p : Prop} [Decidable p] {r q : Except Stop α} (yes : Plain r) (no : Plain q) : Plain (if p then r else q) := by
  split
  · exact yes
  · exact no

/-- A plan's answer keeps memories in form, and so does what it does after the commit. -/
structure Planned (r : Except Stop (State × (State → State))) : Prop where
  kept : Kept Prod.fst r
  goes : ∀ t go, r = .ok (t, go) → ∀ u : State, u.canonical → (go u).canonical

/-- A closer's plan keeps memories in form. -/
def Plan.Keeps (plan : Plan) : Prop := ∀ (s : State) (id : Nat) (c : Crew) (h : Heat), s.canonical → Planned (plan s id c h)

namespace Planned

theorem ok {t : State} {go : State → State} (ht : t.canonical) (goes : ∀ u : State, u.canonical → (go u).canonical) : Planned (.ok (t, go)) := by
  refine ⟨ht, fun t' go' made => ?_⟩
  cases made
  exact goes

theorem error {st : Stop} (stop : st.canonical) : Planned (.error st) := ⟨stop, fun _ _ made => by cases made⟩

theorem ite {p : Prop} [Decidable p] {r q : Except Stop (State × (State → State))} (yes : Planned r) (no : Planned q) :
    Planned (if p then r else q) := by
  split
  · exact yes
  · exact no

end Planned

namespace State

variable {s : State} (hs : s.canonical)

include hs

-- Heats and joins (R41, R42, R127).

theorem openHeat_canonical {id n : Nat} {c : Crew} : (s.openHeat id n c).canonical := hs

theorem raiseNamed_canonical {id n : Nat} {c : Crew} {f : FaultRec} : (s.raiseNamed id n c f).canonical :=
  parkCrew_canonical (setCrew_canonical hs)

theorem heatCrew_canonical {id n : Nat} {c : Crew} {f : State → State} (goes : ∀ s : State, s.canonical → (f s).canonical) :
    (s.heatCrew id n c f).canonical := by
  unfold State.heatCrew
  repeat' split
  · exact hs
  · exact setCrew_canonical hs
  · exact raise_canonical hs
  · exact raiseNamed_canonical hs
  · exact goes s hs

theorem heatEng_canonical {k : Nat} {e : Eng} : (s.heatEng k e).canonical := by
  unfold State.heatEng
  split
  · exact raiseEng_canonical hs
  · exact setEng_canonical hs

theorem bothWord_canonical {f : State → Nat → Nat → Crew → State} {g : State → Nat → Eng → State}
    (crews : ∀ (s : State) id n c, s.canonical → (f s id n c).canonical) (engs : ∀ (s : State) k e, s.canonical → (g s k e).canonical) :
    KeptNext (s.bothWord f g) := by
  unfold State.bothWord
  split
  · split
    · next made => exact .next (crews _ _ _ _ (issuer_canonical hs made))
    · exact .fault
  · split
    · exact .next (engs _ _ _ hs)
    · exact .fault

theorem joinHeat_canonical {id n : Nat} {c : Crew} : (s.joinHeat id n c).canonical := by
  unfold State.joinHeat
  dsimp only
  repeat' split
  · exact setCrew_canonical hs
  · exact raise_canonical hs
  · exact checkTarget_canonical (setCrew_canonical hs)
  · exact openHeat_canonical hs
  · exact setCrew_canonical hs

-- Closers (R50, R128).

theorem goto_canonical {id n : Nat} {pc src : DWord} : (s.goto id n pc src).canonical := checkTarget_canonical (updCrew_canonical hs)

theorem finishClose_canonical {id n : Nat} {names : Bool} {go : State → State} (goes : ∀ u : State, u.canonical → (go u).canonical) :
    (s.finishClose id n names go).canonical := by
  have grouped {f : Crew → Crew} := updCrew_canonical (performGroup_canonical hs (id := id)) (id := id) (f := f)
  unfold State.finishClose
  dsimp only
  refine goes _ (commit_canonical ?_)
  have settled {b : Bool} {f : Crew → Crew} :
      (if b then ((s.performGroup id).updCrew id f).updCrew id Crew.settle else (s.performGroup id).updCrew id f).canonical := by
    split
    · exact updCrew_canonical grouped
    · exact grouped
  exact settled

theorem closeCrew_canonical {id n : Nat} {c : Crew} {wf quench names : Bool} {plan : Plan} (keeps : plan.Keeps) :
    (s.closeCrew id n c wf quench names plan).canonical := by
  unfold State.closeCrew
  split
  · exact raise_canonical hs
  · next h _ =>
    obtain ⟨kept, goes⟩ := keeps s id c h.ahead hs
    dsimp only
    split
    · exact hs
    · split
      · split
        · next made => exact stopCrew_canonical hs (regHold_canonical hs made)
        · exact finishClose_canonical hs (fun _ hs => goto_canonical hs)
      · split
        · exact raise_canonical hs
        · split
          · next made => exact stopCrew_canonical hs (kept.stop made)
          · next made =>
            split
            · next held => exact stopCrew_canonical hs (regHold_canonical hs held)
            · split
              · exact setCrew_canonical hs
              · split
                · exact raiseMet_canonical hs
                · exact finishClose_canonical (kept.of_ok made) (goes _ _ made)

theorem closer_canonical {wf quench names : Bool} {plan : Plan} {eng : State → Nat → Eng → State} (keeps : plan.Keeps)
    (engs : ∀ (s : State) k e, s.canonical → (eng s k e).canonical) : KeptNext (s.closer wf quench names plan eng) :=
  bothWord_canonical hs (fun _ _ _ _ hs => closeCrew_canonical hs keeps) engs

theorem trapReturn_canonical {id n : Nat} {src : DWord} : (s.trapReturn id n src).canonical := by
  unfold State.trapReturn
  split
  · exact hs
  · dsimp only
    split
    · exact setCrew_canonical hs
    · exact goto_canonical (setCrew_canonical hs)

-- Splits (R41, R44, R417).

theorem makeSplit_canonical {id : Nat} {sp : Split} : (s.makeSplit id sp).canonical := by
  unfold State.makeSplit
  split
  · exact hs
  · dsimp only
    split
    · exact parkCrew_canonical (setCrew_canonical hs)
    · split
      · exact checkTarget_canonical (checkTarget_canonical (setCrew_canonical hs))
      · exact checkTarget_canonical (setCrew_canonical hs)

theorem branchTo_canonical {id n : Nat} {h : Heat} {src : DWord} {groups : List (DWord × Word)} : (s.branchTo id n h src groups).canonical := by
  unfold State.branchTo
  split
  · exact makeSplit_canonical hs
  · exact hs

-- Exits and returns (R43, R61, R136 to R139).

theorem exitLanes_canonical {id n : Nat} {m : Word} {pc : DWord} : (s.exitLanes id n m pc).canonical := by
  unfold State.exitLanes
  split
  · exact hs
  · dsimp only
    split
    · exact goto_canonical (setCrew_canonical hs)
    · split
      · exact checkTarget_canonical (setCrew_canonical hs)
      · exact setCrew_canonical hs

theorem doReturn_canonical {id n : Nat} {src : DWord} : (s.doReturn id n src).canonical := by
  unfold State.doReturn
  split
  · exact hs
  · split
    · exact hs
    · exact goto_canonical (setCrew_canonical hs)

theorem retAgain_canonical {id n : Nat} {c : Crew} : (s.retAgain id n c).canonical := by
  unfold State.retAgain
  dsimp only
  repeat' split
  · exact doReturn_canonical hs
  · exact setCrew_canonical hs
  · exact hs
  · exact raiseLate_canonical hs

theorem engTrap_canonical {k : Nat} {e : Eng} {cause code : Nat} : (s.engTrap k e cause code).canonical := by
  unfold State.engTrap
  split
  · exact raiseEng_canonical hs
  · exact stopEng_canonical (setEng_canonical hs)

omit hs in
theorem framePlan_plain {c : Crew} {slot base : Nat} {copy : List Nat} {newLinks : Nat} : Plain (s.framePlan c slot base copy newLinks) := by
  refine .ite (.error ?_) (.ite (.error trivial) .ok)
  split
  · trivial
  · trivial

end State

theorem badTarget_canonical {t : DWord} {st : Stop} (bad : badTarget t = some st) : st.canonical := by
  unfold badTarget at bad
  repeat' split at bad
  all_goals cases bad
  all_goals trivial

theorem exitPlan_keeps (lanes : Crew → Heat → Word) : Plan.Keeps (exitPlan lanes) := by
  intro s id c h hs
  unfold exitPlan
  dsimp only
  repeat' split
  · exact Planned.error trivial
  · exact Planned.error trivial
  · exact Planned.ok hs (fun _ hs => State.exitLanes_canonical hs)

theorem retPlan_keeps : Plan.Keeps retPlan := by
  intro s id c h hs
  unfold retPlan
  dsimp only
  repeat' split
  · exact exitPlan_keeps _ s id c h hs
  · exact Planned.error trivial
  · exact Planned.error trivial
  · exact Planned.ok hs (fun _ hs => State.updCrew_canonical hs)
  · exact Planned.error trivial
  · exact Planned.ok hs (fun _ hs => State.doReturn_canonical hs)

theorem callPlan_keeps (k : Nat) (target : Heat → DWord → DWord) (indirect : Bool) : Plan.Keeps (callPlan k target indirect) := by
  intro s id c h hs
  refine .ite (.error trivial) ?_
  split
  · next bad =>
    refine .error ?_
    split at bad
    · exact badTarget_canonical bad
    · cases bad
  · refine .ite (.error trivial) ?_
    split
    · next made => exact .error (State.framePlan_plain.stop _ made)
    · refine .ok hs (fun u hu => State.goto_canonical ?_)
      have called {f : Crew → Crew} := State.updCrew_canonical hu (id := id) (f := f)
      exact called

theorem engCall_plain (k : Nat) (target : Eng → DWord) (indirect : Bool) (e : Eng) : Plain (engCall k target indirect e) := by
  unfold engCall
  split
  · exact .error trivial
  · split
    · next made =>
      refine .error ?_
      split at made
      · exact badTarget_canonical made
      · cases made
    · split
      · exact .error trivial
      · exact .ok

theorem heatEff_keeps {f : Crew → Heat → Except Stop Heat} (plain : ∀ c h, Plain (f c h)) : (heatEff f).Keeps := by
  intro s id c h hs
  unfold heatEff
  split
  · next made => exact (plain c h).stop _ made
  · exact State.setCrew_canonical hs

variable {s : State} (hs : s.canonical)

include hs

theorem execHeat_kept : KeptNext (execHeat s) :=
  State.bothWord_canonical hs (fun _ _ _ _ hs => State.heatCrew_canonical hs (fun _ hs => State.openHeat_canonical hs))
    (fun _ _ _ hs => State.heatEng_canonical hs)

theorem execHeatJ_kept : KeptNext (execHeatJ s) :=
  State.bothWord_canonical hs (fun _ _ _ _ hs => State.heatCrew_canonical hs (fun _ hs => State.joinHeat_canonical hs))
    (fun _ _ _ hs => State.heatEng_canonical hs)

theorem execQuench_kept : KeptNext (execQuench s) := by
  refine State.closer_canonical hs (fun s id c h hs => ?_) (fun _ _ _ hs => State.closeEng_canonical hs (fun _ _ made => by cases made))
  dsimp only
  repeat' split
  · exact Planned.error (State.raise_canonical hs)
  · exact Planned.ok hs (fun _ hs => State.trapReturn_canonical hs)
  · exact Planned.ok hs (fun _ hs => State.goto_canonical hs)

theorem execBr_kept {p : BitVec 3} {i : Bool} {o : BitVec 21} : KeptNext (execBr p i o s) :=
  State.closer_canonical hs (fun _ _ _ _ hs => Planned.ok hs (fun _ hs => State.branchTo_canonical hs))
    (fun _ _ _ hs => State.closeEng_canonical hs (fun _ _ made => by cases made))

theorem execBra_kept {a : BitVec 5} : KeptNext (execBra a s) := by
  refine State.closer_canonical hs (fun s id c h hs => ?_) (fun _ _ _ hs => State.closeEng_canonical hs (fun e st made => ?_))
  · dsimp only
    split
    · next bad => exact Planned.error (badTarget_canonical bad)
    · exact Planned.ok hs (fun _ hs => State.goto_canonical hs)
  · split at made
    · next bad =>
      cases made
      exact badTarget_canonical bad
    · cases made

theorem execBrx_kept {a b : BitVec 5} {hb : Bool} : KeptNext (execBrx a b hb s) := by
  refine State.closer_canonical hs (fun s id c h hs => ?_) (fun _ _ _ hs => State.raiseEng_canonical hs)
  dsimp only
  split
  · next made => exact Planned.error ((check_plain ..).stop _ made)
  · split
    · exact Planned.error trivial
    · exact Planned.error trivial
    · exact Planned.ok (State.setCrew_canonical hs) (fun _ hs => State.branchTo_canonical hs)

theorem execCall_kept {k : BitVec 5} {o : BitVec 20} : KeptNext (execCall k o s) :=
  State.closer_canonical hs (callPlan_keeps _ _ _) (fun _ _ _ hs => State.closeEng_canonical hs (fun _ _ made => (engCall_plain ..).stop _ made))

theorem execCallx_kept {k a : BitVec 5} : KeptNext (execCallx k a s) :=
  State.closer_canonical hs (callPlan_keeps _ _ _) (fun _ _ _ hs => State.closeEng_canonical hs (fun _ _ made => (engCall_plain ..).stop _ made))

theorem execExit_kept : KeptNext (execExit s) :=
  State.closer_canonical hs (exitPlan_keeps _) (fun _ _ _ hs => State.raiseEng_canonical hs)

theorem execRet_kept : KeptNext (execRet s) := by
  refine State.bothWord_canonical hs (fun s id n c hs => ?_) (fun _ _ _ hs => State.closeEng_canonical hs (fun e st made => ?_))
  · split
    · exact State.retAgain_canonical hs
    · exact State.closeCrew_canonical hs retPlan_keeps
  · split at made
    · cases made
      trivial
    · cases made

theorem execSlide_kept {n : BitVec 20} : KeptNext (execSlide n s) := by
  refine State.crewWord_canonical hs (fun s id c h hs => .ite trivial ?_)
  split
  · next made => exact State.framePlan_plain.stop _ made
  · exact State.setCrew_canonical hs

theorem execNop_kept : KeptNext (execNop s) := State.sharedWord_canonical hs (heatEff_keeps (fun _ _ => .ok)) (ownEff_keeps (fun _ => .ok))

theorem execYield_kept : KeptNext (execYield s) := State.sharedWord_canonical hs (heatEff_keeps (fun _ _ => .ok)) (ownEff_keeps (fun _ => .ok))

theorem setMode_kept {low : Bool} {i : BitVec 20} : KeptNext (setMode low i s) := by
  refine State.sharedWord_canonical hs (heatEff_keeps (fun c h => ?_)) (ownEff_keeps (fun e => ?_))
  · split
    · exact .ok
    · exact .error trivial
  · split
    · exact .ok
    · exact .error trivial

theorem execBrk_kept {code : BitVec 20} : KeptNext (execBrk code s) :=
  State.sharedWord_canonical hs (fun _ _ _ _ _ => trivial) (fun _ _ _ _ => trivial)

theorem execSvc_kept {code : BitVec 20} : KeptNext (execSvc code s) :=
  State.closer_canonical hs (fun _ _ _ _ hs => Planned.ok hs (fun _ hs => State.trap_canonical (State.updCrew_canonical hs)))
    (fun _ _ _ hs => State.engTrap_canonical hs)

theorem execTrap_kept {code : BitVec 20} : KeptNext (execTrap code s) :=
  State.closer_canonical hs (fun _ _ _ _ hs => Planned.ok hs (fun _ hs => State.raiseLate_canonical (State.updCrew_canonical hs)))
    (fun _ _ _ hs => State.engTrap_canonical hs)

theorem execTret_kept : KeptNext (execTret s) := by
  refine State.sharedWord_canonical hs (heatEff_keeps (fun c h => ?_)) (fun _ _ _ _ => trivial)
  split
  · exact .error trivial
  · exact .ok

end Sys2Proof.Machine
end

section
/-! SUPPORT. System words, events of crews and memory, tokens and programs keep every memory in canonical form. For O59. -/

namespace Sys2Proof.Machine

variable {s : State} (hs : s.canonical)

include hs

-- System words (R312 to R318).

theorem State.csrPut_canonical {n : Nat} {x : DWord} : (s.csrPut n x).canonical := by
  unfold State.csrPut
  split
  iterate 4 · exact hs

theorem State.askTier_canonical {die fdom va tier : Nat} : (s.askTier die fdom va tier).canonical := by
  unfold State.askTier
  split
  · exact hs
  · split
    · exact hs
    · split
      · exact hs
      · exact hs

theorem execCsrr_kept {d : BitVec 5} {c : BitVec 10} : KeptNext (execCsrr d c s) := by
  refine State.sharedWord_canonical hs (fun s id c h hs => .ite trivial ?_) (fun s k e hs => .ite trivial (.ite trivial ?_))
  · split
    · next made => exact (check_plain ..).stop _ made
    · refine .ite trivial ?_
      dsimp only
      split
      · next made => exact State.emitLoad_stop hs made
      · next made => exact State.emitLoad_go hs made
  · dsimp only
    split
    · next made => exact (setS_plain ..).stop _ made
    · exact hs

theorem execCsrw_kept {d : BitVec 5} {c : BitVec 10} : KeptNext (execCsrw d c s) :=
  State.crewWord_canonical hs (fun _ _ _ _ hs => .ite trivial (.ite (State.setCrew_canonical hs)
    (.ite trivial (State.csrPut_canonical (State.seal_canonical hs)))))

theorem execTlbi_kept {a b : BitVec 5} : KeptNext (execTlbi a b s) := by
  refine State.crewWord_canonical hs (fun s id c h hs => ?_)
  dsimp only
  refine .ite trivial ?_
  split
  · exact .ite trivial hs
  · have dropped {p : Xl → Bool} :=
      State.invalTlb_canonical (p := p) (State.markOld_canonical (State.performLaters_canonical (State.seal_canonical hs (id := id))) (but := some id))
    split
    · exact State.updCrew_canonical dropped
    · exact dropped

theorem execClassPage_kept {a b : BitVec 5} : KeptNext (execClassPage a b s) := by
  refine State.crewWord_canonical hs (fun s id c h hs => ?_)
  have sealed := State.seal_canonical hs (id := id)
  refine .ite trivial (.ite trivial (.ite (State.updCrew_canonical (State.refuseOnce_canonical sealed)) ?_))
  have named {r : Nat} {w : Who} {va cls owner : Nat} :=
    State.classNow_canonical (State.claim_canonical sealed (r := r) (id := id)) (w := w) (va := va) (cls := cls) (owner := owner)
  split
  · next made => exact State.stopIn_canonical (State.canonical_fst named made) trivial
  · next made =>
    have kept := State.canonical_fst named made
    dsimp only [Kept]
    exact State.askTier_canonical kept

theorem execPwrq_kept {o : Op3} : KeptNext (execPwrq o s) := by
  refine State.crewWord_canonical hs (fun s id c h hs => ?_)
  have asked {p : Bool} {x : Power} : (if p then { s.seal id with power := x } else s.seal id).canonical := by
    split
    · exact State.seal_canonical hs
    · exact State.seal_canonical hs
  dsimp only
  split
  · next made => exact (check_plain ..).stop _ made
  · refine .ite trivial ?_
    split
    · next made => exact State.emitLoad_stop asked made
    · next made => exact State.emitLoad_go asked made

theorem execCtxq_kept {o : Op2} : KeptNext (execCtxq o s) := by
  refine State.crewWord_canonical hs (fun s id c h hs => ?_)
  dsimp only
  split
  · next made => exact (check_plain ..).stop _ made
  · split
    · trivial
    · refine .ite trivial ?_
      split
      · next made => exact State.emitLoad_stop hs made
      · next made => exact State.emitLoad_go hs made

-- Events of crews (R59, R129, R266, R271, R273, R275, R348, R387).

theorem State.arrive_canonical {id cause : Nat} {bad : Bool} {line : Option Nat} : (s.arrive id cause bad line).canonical := by
  unfold State.arrive
  split
  · exact hs
  · split
    · exact hs
    · exact State.setCrew_canonical hs

theorem execLongLatencyCompletion_kept {crew : Nat} {bad : Bool} {line : Option Nat} : KeptNext (execLongLatencyCompletion crew bad line s) := by
  refine .next (State.arrive_canonical ?_)
  split
  · split
    · exact hs
    · exact hs
  · exact hs

theorem execAtomicopCompletion_kept {crew : Nat} {failed : Word} : KeptNext (execAtomicopCompletion crew failed s) := by
  refine .next ?_
  split
  · exact State.arrive_canonical hs
  · exact State.updCrew_canonical hs

theorem execSluiceSpill_kept {crew : Nat} : KeptNext (execSluiceSpill crew s) := .next (State.sluiceSpill_canonical hs)

theorem execSluiceRefill_kept {crew : Nat} : KeptNext (execSluiceRefill crew s) := .next (State.sluiceRefill_canonical hs)

theorem State.again_kept {id : Nat} {p : Crew → Bool} : KeptNext (s.again id p) := by
  unfold State.again
  split
  · split
    · split
      · refine State.run_canonical hs (fun i s hs => ?_) _
        unfold waitWordMeaning
        split
        · exact execMwait_kept hs
        · exact execWait_kept hs
        · exact execTwait_kept hs
        · exact execBar_kept hs
        · exact .next hs
      · exact .next hs
    · exact .next hs
  · exact .next hs

theorem execReservationExpiry_kept {res : Nat} : KeptNext (execReservationExpiry res s) := by
  unfold execReservationExpiry
  dsimp only
  generalize List.find? _ _ = gone
  cases gone with
  | none => exact .next hs
  | some x => exact .next (State.grantNext_canonical (State.setTicket_canonical hs))

theorem execStrikeClusterAdmission_kept : KeptNext (execStrikeClusterAdmission s) :=
  .next (State.admitOne_canonical (State.admitOne_canonical (State.admitOne_canonical (State.admitOne_canonical hs))))

-- Memory (R217, R219, R235).

theorem execWcbAgeingExpiry_kept {core line : Nat} : KeptNext (execWcbAgeingExpiry core line s) := by
  unfold execWcbAgeingExpiry
  dsimp only
  split
  · exact .next hs
  · next w _ => exact .next (hs.withMem (m := { s.mem.drainOne w with wcb := _ }) (MemSys.drainOne_canonical hs.mem w))

theorem execSplitLevelDecay_kept {block : Nat} : KeptNext (execSplitLevelDecay block s) := by
  unfold execSplitLevelDecay
  dsimp only
  split
  · exact .next hs
  · exact .next (hs.withMem (m := { s.mem.tearRange (block * 65536) 65536 with split := _ })
      (MemSys.canonical_of_same (n := s.mem.tearRange (block * 65536) 65536) (MemSys.tearRange_same ..) hs.mem))

omit hs in
theorem MemSys.canonical_poison {m : MemSys} (hm : m.canonical) {p : List Nat} : MemSys.canonical { m with poison := p } := hm

omit hs in
theorem MemSys.moveLine_canonical {m : MemSys} (hm : m.canonical) (t : Nat) (mv : Move) : (m.moveLine t mv).canonical := by
  have quiet := MemSys.canonical_of_same (MemSys.quiet_same m (mv.old / 128 + mv.line)) hm
  have torn (base size : Nat) := MemSys.canonical_of_same (MemSys.tearRange_same _ base size) quiet
  have flushed (base size : Nat) := MemSys.canonical_of_same (MemSys.fireAll_same _ (mv.old / 128 + mv.line))
    (MemSys.flushRange_canonical (torn base size) t ((mv.old / 128 + mv.line) * 128) 128)
  unfold MemSys.moveLine
  refine MemSys.canonical_poison ?_
  exact MemSys.canonical_foldl (fun m j hm => MemSys.canonical_of_same (MemSys.putRaw_same ..) hm) byteIdx (flushed _ _)

omit hs in
/-- A line's move as the other parts see it: package memory written, and what crews hold moved. -/
theorem State.canonical_moved {s : State} (hs : s.canonical) {m : MemSys} (hm : m.canonical) {ms : Tab Move} {cs : Tab Crew} :
    State.canonical { s with mem := { m with moves := ms }, crews := cs } := hs.withMem hm

theorem State.switchPage_canonical {key : Nat} {mv : Move} : (s.switchPage key mv).canonical := by
  have written (bs : List Byte) := hs.withMem (MemSys.homeWrite_canonical hs.mem s.clock mv.leafAt bs)
  refine State.invalTlb_canonical ?_
  exact written _

theorem execMigrationStep_kept {die : Nat} : KeptNext (execMigrationStep die s) := by
  unfold execMigrationStep
  split
  · exact .next hs
  · next key mv _ =>
    have performed := State.performLaters_canonical hs
    have moved {ms : Tab Move} {cs : Tab Crew} := State.canonical_moved performed
      (MemSys.moveLine_canonical performed.mem s.performLaters.clock mv) (ms := ms) (cs := cs)
    refine .next ?_
    split
    · exact State.switchPage_canonical moved
    · exact moved

theorem execClassConflict_kept {die : Nat} : KeptNext (execClassConflict die s) := .next (State.classRun_canonical hs)

-- Tokens and programs (R147 to R149, R411 to R413).

theorem execGive_kept {a : BitVec 5} : KeptNext (execGive a s) :=
  State.crewWord_canonical hs (fun _ _ _ _ hs => .ite trivial (State.updCrew_canonical (State.releaseCrew_canonical (State.seal_canonical hs))))

theorem execTake_kept {a : BitVec 5} : KeptNext (execTake a s) := by
  refine State.crewWord_canonical hs (fun s id c h hs => ?_)
  have sealed := State.seal_canonical hs (id := id)
  dsimp only
  split
  · trivial
  · exact .ite (State.acquireCrew_canonical (State.updCrew_canonical sealed)) (State.updCrew_canonical sealed)

theorem State.startProgram_canonical {x : Starter} {k : Nat} {w arg pc : DWord} : (s.startProgram x k w arg pc).1.canonical := by
  unfold State.startProgram
  dsimp only
  split
  · exact hs
  · refine engAcquire_canonical ?_
    split
    · next t found =>
      have scr : Memory.wf t.scr = true := hs.team (k := teamKey x.rk x.team) found
      exact State.canonical.putTeam (s := State.setEng { s with forks := _ } k _) hs _ scr
    · exact hs

omit hs in
theorem forkStop_canonical {w pc : DWord} {st : Stop} (stop : forkStop w pc = some st) : st.canonical := by
  unfold forkStop at stop
  repeat' split at stop
  all_goals cases stop
  all_goals trivial

theorem execFork_kept {o : Op3} : KeptNext (execFork o s) := by
  refine State.sharedWord_canonical hs (fun s id c h hs => ?_) (fun s k e hs => ?_)
  · dsimp only
    split
    · next made => exact (check_plain ..).stop _ made
    · split
      · next stop => exact forkStop_canonical stop
      · split
        · next made => exact State.emitLoad_stop (State.startProgram_canonical (State.releaseCrew_canonical (State.seal_canonical hs))) made
        · next made => exact State.emitLoad_go (State.startProgram_canonical (State.releaseCrew_canonical (State.seal_canonical hs))) made
  · dsimp only
    split
    · next stop => exact forkStop_canonical stop
    · next made => exact (setS_plain ..).stop _ made
    · have started {x : Starter} {key : Nat} {w w' arg pc : DWord} := State.startProgram_canonical
        (State.engRelease_canonical hs (w := s.whoEng k e) (scope := forkScope w')) (x := x) (k := key) (w := w) (arg := arg) (pc := pc)
      split
      · exact State.setEng_canonical started
      · exact started

theorem execRdv_kept {o : Op2} : KeptNext (execRdv o s) := by
  refine State.sharedWord_canonical hs (fun s id c h hs => ?_) (fun s k e hs => .ite trivial ?_)
  · have sealed := State.seal_canonical hs (id := id)
    dsimp only
    split
    · next made => exact (check_plain ..).stop _ made
    · refine .ite trivial ?_
      split
      · exact State.updCrew_canonical sealed
      · split
        · next made => exact State.emitLoad_stop (State.acquireCrew_canonical sealed) made
        · next made => exact State.emitLoad_go (State.acquireCrew_canonical sealed) made
  · dsimp only
    split
    · trivial
    · next made _ => exact (setS_plain ..).stop _ made
    · exact State.setEng_canonical (State.engAcquire_canonical hs)

end Sys2Proof.Machine
end

section
/-! SUPPORT. The Headrace's accesses, admission, completion, and commands on parked agents, keep every memory in canonical form. For O59. -/

namespace Sys2Proof.Machine

namespace State

theorem canonical_ite {p : Prop} [Decidable p] {s t : State} (yes : s.canonical) (no : t.canonical) : (if p then s else t).canonical := by
  split
  · exact yes
  · exact no

variable {s : State} (hs : s.canonical)

include hs

-- Writes of the other parts.

theorem withEngs_canonical {x : Tab Eng} : State.canonical { s with engs := x } := hs

theorem withPort_canonical {x : Port} : State.canonical { s with port := x } := hs

theorem withRegions_canonical {x : Tab Region} : State.canonical { s with regions := x } := hs

theorem withCores_canonical {x : Tab CoreSt} : State.canonical { s with cores := x } := hs

-- Accesses of the control plane (R24).

theorem fixedPlace_canonical {w : Who} {va k : Nat} : (s.fixedPlace w va k).1.canonical := by
  have translated := translateNow_canonical hs (w := w) (va := va) (k := k)
  unfold State.fixedPlace
  split
  · next made => exact canonical_fst translated made
  · next made => exact canonical_fst translated made
  · next made => exact canonical_fst translated made

theorem headPlaces_canonical {fdom va n k : Nat} : (s.headPlaces fdom va n k).1.canonical := by
  refine List.foldlRecOn (motive := fun a : State × Except Fail (List Hit) => a.1.canonical) _ _ hs (fun a ok p _ => ?_)
  obtain ⟨s, _ | hits⟩ := a
  · exact ok
  · have placed := fixedPlace_canonical ok (w := headWho fdom) (va := p.1) (k := k)
    dsimp only
    split
    · next made => exact canonical_fst placed made
    · next made => exact canonical_fst placed made

theorem headRead_canonical {fdom va n : Nat} : (s.headRead fdom va n).1.canonical := by
  have placed := headPlaces_canonical hs (fdom := fdom) (va := va) (n := n) (k := aRead)
  unfold State.headRead
  split
  · next made => exact canonical_fst placed made
  · next made =>
    split
    · exact canonical_fst placed made
    · exact canonical_fst placed made

theorem headPut_canonical {xs : List Hit} {bs : List Byte} : (s.headPut xs bs).canonical := engStore_canonical hs

theorem headWrite_canonical {fdom va : Nat} {bs : List Byte} : (s.headWrite fdom va bs).1.canonical := by
  have placed := headPlaces_canonical hs (fdom := fdom) (va := va) (n := bs.length) (k := aWrite)
  unfold State.headWrite
  split
  · next made => exact canonical_fst placed made
  · next made => exact headPut_canonical (canonical_fst placed made)

theorem headRecord_canonical {fdom va : Nat} {bs : List Byte} : (s.headRecord fdom va bs).1.canonical := by
  have placed := headPlaces_canonical hs (fdom := fdom) (va := va) (n := bs.length) (k := aWrite)
  unfold State.headRecord
  split
  · next made => exact canonical_fst placed made
  · next made =>
    split
    · exact canonical_fst placed made
    · exact headPut_canonical (canonical_fst placed made)

theorem headOr_canonical {fdom va mask : Nat} : (s.headOr fdom va mask).1.canonical := by
  have placed := headPlaces_canonical hs (fdom := fdom) (va := va) (n := 8) (k := aAtomic)
  unfold State.headOr
  split
  · next made => exact canonical_fst placed made
  · next made =>
    repeat' split
    · exact canonical_fst placed made
    · exact canonical_fst placed made
    · exact headPut_canonical (canonical_fst placed made)

theorem headFault_canonical {fdom rcb : Nat} {f : Fail} : (s.headFault fdom rcb f).canonical := post_canonical hs

theorem status_canonical {rcb st err : Nat} : (s.status rcb st err).canonical := headWrite_canonical hs

theorem signalEnd_canonical {fdom rcb done : Nat} {words : List Nat} {n : EndNote} : (s.signalEnd fdom rcb done words n).canonical := by
  have recorded {s : State} (hs : s.canonical) : (if done = 0 then s else match s.headRecord fdom done (words.flatMap (leOf 8)) with
      | (s, some f) => s.headFault fdom rcb { f with addr := done }
      | (s, none) => s).canonical := by
    split
    · exact hs
    · split
      · next made => exact headFault_canonical (canonical_fst (headRecord_canonical hs) made)
      · next made => exact canonical_fst (headRecord_canonical hs) made
  have counted {s : State} (hs : s.canonical) : (if n.caddr = 0 then s else match s.headOr fdom n.caddr (2 ^ n.cbit) with
      | (s, some f) => s.headFault fdom rcb { f with addr := n.caddr }
      | (s, none) => s).canonical := by
    split
    · exact hs
    · split
      · next made => exact headFault_canonical (canonical_fst (headOr_canonical hs) made)
      · next made => exact canonical_fst (headOr_canonical hs) made
  have both := counted (recorded hs)
  unfold State.signalEnd
  dsimp only
  split
  · exact notice_canonical both
  · exact both

-- Completion (R61, R339).

theorem endRegion_canonical {rk st err : Nat} : (s.endRegion rk st err).canonical := by
  unfold State.endRegion
  split
  · exact hs
  · next r _ =>
    have passed {s : State} (hs : s.canonical) : (match r.parent with
        | some p => s.updRegion p (fun g => { g with
            energy := g.energy + r.energy, heats := g.heats + r.heats, discards := g.discards + r.discards
            faults := g.faults + r.faults, preempts := g.preempts + r.preempts })
        | none => s).canonical := by
      split
      · exact updRegion_canonical hs
      · exact hs
    refine signalEnd_canonical (status_canonical (canonical_foldl (fun _ _ hs => groupLeft_canonical hs) _
      (withEngs_canonical (passed (updRegion_canonical hs)))))

theorem publishCore_canonical {core : Nat} {wcb : Bool} : (s.publishCore core wcb).canonical :=
  (performLaters_canonical hs).withMem (MemSys.release_canonical (performLaters_canonical hs).mem ..)

theorem publishRegion_canonical {rk : Nat} : (s.publishRegion rk).canonical := canonical_foldl (fun _ _ hs => publishCore_canonical hs) _ hs

-- Admission (R31 to R33, R325, R326).

theorem ldropped_canonical : s.ldropped.canonical := hs

theorem enqueue_canonical {w : List DWord} : (s.enqueue w).canonical := hs

theorem readMaps_canonical {fdom n va : Nat} {ms : List (List DWord)} : (State.readMaps fdom n va s ms).1.canonical := by
  induction n generalizing s va ms with
  | zero => exact hs
  | succ n ih =>
    have read := headRead_canonical hs (fdom := fdom) (va := va) (n := 64)
    rw [State.readMaps]
    split
    · exact hs
    · split
      · next made => exact canonical_fst read made
      · next made =>
        dsimp only
        split
        · exact canonical_fst read made
        · exact ih (canonical_fst read made)

theorem readOpers_canonical {fdom n va : Nat} {os : List (Bool × Nat × Nat)} : (State.readOpers fdom n va s os).1.canonical := by
  induction n generalizing s va os with
  | zero => exact hs
  | succ n ih =>
    have read := headRead_canonical hs (fdom := fdom) (va := va) (n := 32)
    rw [State.readOpers]
    split
    · next made => exact canonical_fst read made
    · next made =>
      dsimp only
      repeat' split
      · exact canonical_fst read made
      · exact canonical_fst read made
      · exact ih (canonical_fst read made)

theorem rcbCheck_canonical {n : RcbNode} : (s.rcbCheck n).1.canonical := by
  have maps {p : Bool} : (if p then State.readMaps n.fdom 8 (rw n.w 12 0 57) s [] else (s, .ok [])).1.canonical := by
    split
    · exact readMaps_canonical hs
    · exact hs
  have opers {s : State} (hs : s.canonical) {p : Prop} [Decidable p] :
      (if p then State.readOpers n.fdom 8 (rw n.w 13 0 57) s [] else (s, .ok [])).1.canonical := by
    split
    · exact readOpers_canonical hs
    · exact hs
  have parent {s : State} (hs : s.canonical) :
      (if rw n.w 1 0 57 = 0 then (s, .ok []) else s.headRead 0 (rw n.w 1 0 57) 128).1.canonical := by
    split
    · exact hs
    · exact headRead_canonical hs
  unfold State.rcbCheck
  dsimp only
  split
  · exact hs
  · split
    · exact hs
    · split
      · exact hs
      · split
        · exact hs
        · split
          · exact hs
          · split
            · next made =>
              have read := canonical_fst maps made
              split
              · split
                · next made => exact canonical_fst (readOpers_canonical read) made
                · next made => exact canonical_fst (readOpers_canonical read) made
              · exact read
            · next made =>
              have read := canonical_fst maps made
              split
              · next made => exact canonical_fst (opers read) made
              · next made =>
                have operands := canonical_fst (opers read) made
                split
                · next made => exact canonical_fst (parent operands) made
                · next made => exact canonical_fst (parent operands) made

omit hs in
theorem visitTree_cons (root fuel va : Nat) (par : Option Nat) (namer : Nat) (rest : List Visit) (s : State) (ns : List RcbNode) :
    State.visitTree root (fuel + 1) ((va, par, namer) :: rest) s ns =
      if 256 ≤ ns.length then (s, .error (0x0B, root))
      else match s.headRead 0 va 128 with
        | (s, .error _) => (s, .error (0x0A, namer))
        | (s, .ok bs) =>
          let w := wordsOf 16 bs
          match s.rcbCheck (rcbNode va w par (par.bind (fun i => ns[i]?))) with
          | (s, .error e) => (s, .error (e, va))
          | (s, .ok n) =>
            State.visitTree root fuel ((if rw w 0 44 4 % 2 = 0 && rw w 2 0 57 != 0 then [(rw w 2 0 57, some ns.length, va)] else [])
              ++ (if par.isSome && rw w 3 0 57 != 0 then [(rw w 3 0 57, par, va)] else []) ++ rest) s (ns ++ [n]) := (rfl)

theorem visitTree_canonical {root fuel : Nat} {todo : List Visit} {ns : List RcbNode} : (State.visitTree root fuel todo s ns).1.canonical := by
  induction fuel generalizing s todo ns with
  | zero => exact (hs : (s, (.error (0x0B, root) : Except (Nat × Nat) (List RcbNode))).1.canonical)
  | succ fuel ih =>
    cases todo with
    | nil => exact (hs : (s, (.ok ns : Except (Nat × Nat) (List RcbNode))).1.canonical)
    | cons v rest =>
      obtain ⟨va, par, namer⟩ := v
      have read := headRead_canonical hs (fdom := 0) (va := va) (n := 128)
      rw [visitTree_cons]
      split
      · exact hs
      · split
        · next made => exact canonical_fst read made
        · next made =>
          have node := canonical_fst read made
          dsimp only
          split
          · next made => exact canonical_fst (rcbCheck_canonical node) made
          · next made => exact ih (canonical_fst (rcbCheck_canonical node) made)

theorem refuseTree_canonical {msg : List DWord} {err off : Nat} : (s.refuseTree msg err off).canonical := by
  unfold State.refuseTree
  dsimp only
  split
  · split
    · exact notice_canonical (ldropped_canonical hs)
    · exact ldropped_canonical hs
  · refine signalEnd_canonical ?_
    have named {s : State} (hs : s.canonical) : (if off = rw msg 0 0 57 then s else s.status (rw msg 0 0 57) 3 0).canonical := by
      split
      · exact hs
      · exact status_canonical hs
    refine named (status_canonical ?_)
    split
    · next made => exact canonical_fst (headRead_canonical hs) made
    · next made => exact canonical_fst (headRead_canonical hs) made

theorem forget_canonical {rcbs : List Nat} : (s.forget rcbs).canonical := hs.dropTeams (fun _ old => (List.mem_filter.1 old).1)

theorem admitTree_canonical {msg : List DWord} {ns : List RcbNode} : (s.admitTree msg ns).canonical := by
  refine withPort_canonical (canonical_foldl (fun s i hs => ?_) _ (forget_canonical hs))
  split
  · exact status_canonical (withRegions_canonical hs)
  · exact hs

theorem setBit_canonical {rcb t : Nat} {only : Option Nat} : (s.setBit rcb t only).canonical := by
  exact canonical_foldl (fun _ _ hs => canonical_ite hs (canonical_foldl (fun _ _ hs => headOr_canonical hs) _ hs)) _ hs

theorem lateBits_canonical {rk : Nat} : (s.lateBits rk).canonical := by
  unfold State.lateBits
  split
  · exact hs
  · refine canonical_foldl (fun s w hs => ?_) _ hs
    split
    · exact hs
    · exact canonical_foldl (fun _ _ hs => setBit_canonical hs) _ hs

-- Aborts (R336, R365).

theorem dropCrew_canonical {id : Nat} : (s.dropCrew id).canonical := unwait_canonical (performLater_canonical hs)

theorem canonical_fewer {ts : Tab Team} (sub : ∀ kv ∈ ts, kv ∈ s.teams) {q : List StrikeAdm} {cs : Tab CoreSt} {p : Port} :
    State.canonical { s with teams := ts, strikeq := q, cores := cs, port := p } := hs.dropTeams sub

theorem stopRegion_canonical {rk : Nat} : (s.stopRegion rk).canonical := by
  have finished (ks : List Nat) : (ks.foldl (fun s k => match s.eng k with
      | some e => ((e.xops.filter (fun x => x.started)).map (fun x => x.id)).foldl (fun s i => s.xFinish k i) s
      | none => s) s).canonical := by
    refine canonical_foldl (fun s k hs => ?_) _ hs
    split
    · exact canonical_foldl (fun _ _ hs => xFinish_canonical hs) _ hs
    · exact hs
  have marked (ks : List Nat) {s : State} (hs : s.canonical) : (ks.foldl (fun s k => (match s.eng k with
      | some e => s.setFork e 2
      | none => s).laneMode k) s).canonical := by
    refine canonical_foldl (fun s k hs => laneMode_canonical ?_) _ hs
    split
    · exact setFork_canonical hs
    · exact hs
  exact canonical_fewer (canonical_foldl (fun _ _ hs => dropCrew_canonical hs) _ (publishRegion_canonical (marked _ (finished _))))
    (fun _ old => (List.mem_filter.1 old).1)

theorem abortTree_canonical {rk err : Nat} : (s.abortTree rk err).canonical :=
  canonical_foldl (fun _ _ hs => endRegion_canonical hs) _ (canonical_foldl (fun _ _ hs => stopRegion_canonical hs) _ hs)

theorem abortOrphans_canonical {fuel : Nat} : (State.abortOrphans fuel s).canonical := by
  induction fuel generalizing s with
  | zero => exact hs
  | succ fuel ih =>
    rw [State.abortOrphans]
    split
    · exact hs
    · exact ih (abortTree_canonical hs)

theorem abortRegion_canonical {rk err : Nat} : (s.abortRegion rk err).canonical := abortOrphans_canonical (abortTree_canonical hs)

end State

end Sys2Proof.Machine
end

section
/-! SUPPORT. Events of the Headrace, and the host's commands on parked agents, keep every memory in canonical form. For O59. -/

namespace Sys2Proof.Machine

theorem KeptNext.ite {p : Prop} [Decidable p] {a b : Host.Outcome State Fault Refusal} (yes : KeptNext a) (no : KeptNext b) :
    KeptNext (if p then a else b) := by
  split
  · exact yes
  · exact no

/-- A range of a memory, taken out of it. -/
theorem Memory.wf_taken {m : Memory} (h : Memory.wf m = true) {base : Nat} {p : Host.Cell → Bool} (inside : ∀ c, p c = true → base ≤ c.1) :
    Memory.wf ((m.filter p).map (fun c => (c.1 - base, c.2))) = true := Memory.wf_moved h 0 inside

variable {s : State} (hs : s.canonical)

include hs

-- Completion, launch and admission (R61, R146, R322 to R326, R338, R339).

theorem execRegionCompletion_kept {rcb : Nat} : KeptNext (execRegionCompletion rcb s) := by
  unfold execRegionCompletion
  repeat' split
  · exact .next hs
  · exact .next hs
  · exact .next (State.endRegion_canonical (State.publishRegion_canonical hs))

theorem execLaunchMessage_kept {off : Nat} {msg : List DWord} : KeptNext (execLaunchMessage off msg s) := by
  unfold execLaunchMessage
  repeat' split
  iterate 3 · exact .next hs

theorem execLaunch_kept {o : Op2} : KeptNext (execLaunch o s) := by
  refine State.crewWord_canonical hs (fun s id c h hs => ?_)
  dsimp only
  split
  · next made => exact (check_plain ..).stop _ made
  · split
    · next made => exact State.checkLanes_plain.stop _ (congrArg Prod.snd made)
    · next made =>
      have read {w : Who} {cache : Nat} {h : Option Heat} {ls : List (Nat × List Hit)} := State.readLanes_canonical
        (State.releaseCrew_canonical (State.seal_canonical (State.lanes_go hs made) (id := id)) (id := id) (scope := 4) (store := 3))
        (w := w) (cache := cache) (h := h) (ls := ls)
      split
      · exact State.raise_canonical read
      · exact State.emitS_kept (State.canonical_ite read (State.enqueue_canonical read))

theorem execAdmission_kept : KeptNext (execAdmission s) := by
  unfold execAdmission
  split
  · exact .next hs
  · dsimp only
    split
    · exact .next (State.ldropped_canonical (State.withPort_canonical hs))
    · split
      · next made =>
        exact .next (State.refuseTree_canonical (State.withPort_canonical (State.canonical_fst (State.visitTree_canonical hs) made)))
      · next made =>
        have visited := State.canonical_fst (State.visitTree_canonical hs) made
        split
        · exact .next visited
        · exact .next (State.abortOrphans_canonical (State.canonical_foldl (fun _ _ hs => State.lateBits_canonical hs) _
            (State.admitTree_canonical (State.withPort_canonical visited))))

theorem execNodeReady_kept {rcb : Nat} : KeptNext (execNodeReady rcb s) := by
  unfold execNodeReady
  repeat' split
  · exact .next hs
  · exact .next hs
  · exact .next (State.withPort_canonical (State.updRegion_canonical hs))

theorem execCrewRetirement_kept {crew : Nat} : KeptNext (execCrewRetirement crew s) := by
  unfold execCrewRetirement
  split
  · exact .next hs
  · refine KeptNext.ite ?_ (.next hs)
    exact .next (State.strikeCheck_canonical (State.dropCrew_canonical hs))

theorem execTeamRetirement_kept {rcb team : Nat} : KeptNext (execTeamRetirement rcb team s) := by
  unfold execTeamRetirement
  split
  · exact .next hs
  · split
    · exact .next hs
    · refine KeptNext.ite (.next hs) ?_
      have published {core : Nat} := State.publishCore_canonical hs (core := core) (wcb := false)
      refine .next (State.strikeCheck_canonical (State.setBit_canonical (State.updRegion_canonical
        (State.canonical.putTeam (State.moveWaiters_canonical published) _ ?_))))
      exact Memory.wf_taken published.mem.2.2.2 (fun c inside => by
        simp only [Bool.and_eq_true, decide_eq_true_eq] at inside
        exact inside.1)

-- Commands on parked agents (R362 to R365).

namespace State

theorem command_canonical {f : State → State} (goes : ∀ s : State, s.canonical → (f s).canonical) : (s.command f).canonical := by
  unfold State.command
  dsimp only
  repeat' split
  · exact hs
  · exact hs
  · exact goes s hs
  · exact withPort_canonical (goes s hs)

theorem resumeCrew_canonical {id : Nat} {p : Park} : (s.resumeCrew id p).canonical := by
  unfold State.resumeCrew
  split
  · exact hs
  · have gone {c : Crew} := setCrew_canonical hs (id := id) (c := c)
    refine canonical_ite gone ?_
    split
    · exact makeSplit_canonical gone
    · exact canonical_ite (checkTarget_canonical gone) gone

theorem skipCrew_canonical {id : Nat} {p : Park} : (s.skipCrew id p).canonical :=
  resumeCrew_canonical (canonical_ite hs (updCrew_canonical hs))

theorem deliver_canonical {id : Nat} {p : Park} {trape : DWord} : (s.deliver id p trape).canonical := by
  unfold State.deliver
  split
  · exact hs
  · exact setCrew_canonical hs

theorem trapCrew_canonical {id : Nat} {p : Park} : (s.trapCrew id p).canonical := by
  unfold State.trapCrew
  split
  · exact hs
  · refine canonical_ite (resumeCrew_canonical hs) (canonical_ite (updCrew_canonical (post_canonical hs)) ?_)
    split
    · exact deliver_canonical hs
    · next sp _ =>
      have pushed {c : Crew} := makeSplit_canonical (setCrew_canonical hs (id := id) (c := c)) (id := id) (sp := sp)
      dsimp only
      generalize Option.bind _ _ = parked
      cases parked with
      | some _ => exact pushed
      | none => exact deliver_canonical pushed

theorem crewCommand_canonical {id op : Nat} {p : Park} : (s.crewCommand id op p).canonical :=
  canonical_ite (resumeCrew_canonical hs) (canonical_ite (skipCrew_canonical hs) (trapCrew_canonical hs))

theorem resumeEng_canonical {k : Nat} {e : Eng} {p : Park} {skip : Bool} : (s.resumeEng k e p skip).canonical := by
  have fetched {w : Who} {pc : DWord} := fetchWord_canonical hs (w := w) (pc := pc)
  unfold State.resumeEng
  dsimp only
  refine setFork_canonical (setEng_canonical ?_)
  simp only [apply_ite Prod.fst]
  exact canonical_ite hs (canonical_ite hs (canonical_ite fetched fetched))

theorem abortAt_canonical {rk : Nat} : (s.abortAt rk).canonical := by
  unfold State.abortAt
  split
  · exact hs
  · exact canonical_ite hs (canonical_ite (withPort_canonical hs) (abortRegion_canonical hs))

theorem faultCommand_canonical {op : Nat} {fdom : BitVec 12} {seq : Word} : (s.faultCommand op fdom seq).canonical := by
  unfold State.faultCommand
  dsimp only
  split
  · split
    · exact canonical_ite (setCrew_canonical hs) (crewCommand_canonical hs)
    · exact hs
  · split
    · split
      · exact canonical_ite (abortAt_canonical hs) (resumeEng_canonical hs)
      · exact hs
    · exact hs

end State

theorem execResume_kept {fdom : BitVec 12} {seq : Word} : KeptNext (execResume fdom seq s) :=
  .next (State.command_canonical hs (fun _ hs => State.faultCommand_canonical hs))

theorem execSkip_kept {fdom : BitVec 12} {seq : Word} : KeptNext (execSkip fdom seq s) :=
  .next (State.command_canonical hs (fun _ hs => State.faultCommand_canonical hs))

theorem execTrapCommand_kept {fdom : BitVec 12} {seq : Word} : KeptNext (execTrapCommand fdom seq s) :=
  .next (State.command_canonical hs (fun _ hs => State.faultCommand_canonical hs))

end Sys2Proof.Machine
end

section
/-! SUPPORT. Placement, pre-emption, context images and resumption keep every memory in canonical form. For O59. -/

namespace Sys2Proof.Machine

-- Parts of the memory system.

namespace MemSys

variable {m : MemSys} (hm : m.canonical)

include hm

theorem withLowered_canonical {x : Tab Nat} : MemSys.canonical { m with lowered := x } := hm

theorem withMonitors_canonical {x : List Monitor} : MemSys.canonical { m with monitors := x } := hm

theorem withScr_canonical {x : Memory} (hx : Memory.wf x = true) : MemSys.canonical { m with scr := x } := ⟨hm.1, hm.2.1, hm.2.2.1, hx⟩

theorem clearScr_canonical (a n : Nat) : (m.clearScr a n).canonical := ⟨hm.1, hm.2.1, hm.2.2.1, Memory.wf_filter _ _ hm.2.2.2⟩

theorem emptyHolders_canonical (t : Nat) (holders : List Nat) : (m.emptyHolders t holders).canonical := by
  unfold MemSys.emptyHolders
  refine MemSys.canonical_foldl (fun _ _ hm => MemSys.evictL1_canonical hm ..) _ (MemSys.canonical_foldl (fun m x hm => ?_) _ hm)
  split
  · exact MemSys.canonical_of_same (MemSys.delLine_same ..) hm
  · exact MemSys.canonical_of_same (MemSys.dropTracked_same ..) hm

theorem ite_canonical {n : MemSys} (hn : n.canonical) {p : Prop} [Decidable p] : (if p then m else n).canonical := by
  split
  · exact hm
  · exact hn

end MemSys

namespace State

variable {s : State} (hs : s.canonical)

include hs

/-- Teams are written whose allotments are in form. -/
theorem withTeams_canonical {ts : Tab Team} (all : ∀ kv ∈ ts, Memory.wf kv.2.scr = true) : State.canonical { s with teams := ts } := by
  obtain ⟨hm, hd, -⟩ := canonical_iff.1 hs
  exact canonical_iff.2 ⟨hm, hd, all⟩

/-- A team stands, or leaves its core: its record and the memory system are written. -/
theorem teamMoved_canonical {m : MemSys} (hm : m.canonical) {k u : Nat} {x : Team} (hx : Memory.wf x.scr = true) {p : Port} :
    State.canonical { s with mem := m, uid := u, teams := Tab.put s.teams k x, port := p } :=
  (hs.withMem hm).putTeam k hx

/-- The core's caches and scratch are written, and the cores' records. -/
theorem withMemCores_canonical {m : MemSys} (hm : m.canonical) {cs : Tab CoreSt} : State.canonical { s with mem := m, cores := cs } :=
  hs.withMem hm

-- Placement (R197, R327, R330).

theorem markFor_canonical {rk : Nat} {r : Region} {team : Nat} : (s.markFor rk r team).canonical := by
  unfold State.markFor
  refine canonical_ite hs ?_
  dsimp only
  split
  · exact hs
  · exact withCores_canonical hs

theorem apportion_canonical {core : Nat} {r : Region} : (s.apportion core r).canonical :=
  withMemCores_canonical hs (MemSys.canonical_foldl (fun _ _ hm => MemSys.clearScr_canonical hm _ _) _ (MemSys.emptyHolders_canonical hs.mem _ _))

theorem runRegion_canonical {rk : Nat} : (s.runRegion rk).canonical := by
  refine canonical_foldl (fun s a hs => ?_) _ hs
  split
  · exact canonical_ite (status_canonical (updRegion_canonical hs)) hs
  · exact hs

theorem unmark_canonical {rk team : Nat} : (s.unmark rk team).canonical := hs

theorem readyCore_canonical {rk : Nat} {r : Region} {team core : Nat} : (s.readyCore rk r team core).canonical :=
  unmark_canonical (canonical_ite hs (apportion_canonical hs))

theorem listSlots_canonical {core : Nat} {ids : List Nat} : (s.listSlots core ids).canonical := hs

theorem placeNew_canonical {rk : Nat} {r : Region} {team core j : Nat} : (s.placeNew rk r team core j).canonical := by
  have ready := readyCore_canonical hs (rk := rk) (r := r) (team := team) (core := core)
  have cleared {x : Tab Nat} {a n : Nat} := MemSys.withLowered_canonical (MemSys.clearScr_canonical ready.mem a n) (x := x)
  exact runRegion_canonical (listSlots_canonical (canonical_foldl (fun _ _ hs => setCrew_canonical hs) _
    (teamMoved_canonical ready (MemSys.ite_canonical cleared (MemSys.acquire_canonical cleared ..)) rfl)))

-- Pre-emption and images (R331, R368).

theorem askPre_canonical {key : Nat} {t : Team} (ht : Memory.wf t.scr = true) : (s.askPre key t).canonical :=
  canonical_ite hs (updRegion_canonical (hs.putTeam key (x := { t with pre := true, preStep := 0 }) ht))

theorem stoppedCrew_canonical {id : Nat} : (s.stopCrew_ id).canonical := by
  unfold State.stopCrew_
  refine updCrew_canonical (unwait_canonical ?_)
  split
  · dsimp only
    split
    · exact canonical_ite (setCrew_canonical hs) (setCrew_canonical (updRegion_canonical hs))
    · exact setCrew_canonical hs
  · exact hs

theorem devWrite_canonical {pa : Nat} {bs : List Byte} : (s.devWrite pa bs).canonical := hs.withMem (MemSys.homeWrite_canonical hs.mem ..)

/-- A team leaves its core: its allotment is cleared, and kept with its record. -/
theorem teamLeft_canonical {lo hi a n k : Nat} {x : Team} {ms : List Monitor} {p : Port}
    (kept : x.scr = (s.mem.scr.filter (fun c => decide (lo ≤ c.1) && decide (c.1 < hi))).map (fun c => (c.1 - lo, c.2))) :
    State.canonical { s with mem := { s.mem.clearScr a n with monitors := ms }, teams := Tab.put s.teams k x, port := p } := by
  refine teamMoved_canonical hs (MemSys.withMonitors_canonical (MemSys.clearScr_canonical hs.mem a n)) ?_
  rw [kept]
  exact Memory.wf_taken hs.mem.2.2.2 (fun c inside => by
    simp only [Bool.and_eq_true, decide_eq_true_eq] at inside
    exact inside.1)

theorem writeImage_canonical {rk : Nat} {r : Region} {team : Nat} {t : Team} {slot : Nat} : (s.writeImage rk r team t slot).canonical := by
  have written {pa a n : Nat} {bs : List Byte} := devArea_canonical (devWrite_canonical hs (pa := pa) (bs := bs)) (pa := a) (n := n)
  unfold State.writeImage
  extract_lets key lo hi held mill pa u
  have hu : u.canonical := written
  clear_value u
  exact moveWaiters_canonical (canonical_foldl (fun _ _ hs => laneMode_canonical hs) _ (teamLeft_canonical hu rfl))

theorem commandDone_canonical : s.commandDone.canonical := canonical_ite (withPort_canonical hs) hs

theorem runAborts_canonical : s.runAborts.canonical :=
  commandDone_canonical (canonical_foldl (fun _ _ hs => abortRegion_canonical hs) _ (withPort_canonical hs))

-- Resumption (R371).

theorem restoreContext_canonical {k core : Nat} {e : Eng} : (s.restoreContext k core e).canonical :=
  withCores_canonical (setEng_canonical (setEng_canonical hs))

theorem resumeContext_canonical {key core idx k : Nat} : (s.resumeContext key core idx k).canonical := by
  unfold State.resumeContext
  split
  · exact hs
  · exact canonical_ite (restoreContext_canonical hs) (setEng_canonical hs)

theorem runRecorded_canonical {id : Nat} : (s.runRecorded id).canonical := by
  unfold State.runRecorded
  repeat' split
  · exact crewCommand_canonical hs
  · exact hs
  · exact hs

theorem resumeTeam_canonical {rk : Nat} {r : Region} {team : Nat} {t : Team} {core idx : Nat} : (s.resumeTeam rk r team t core idx).canonical := by
  have ready := readyCore_canonical hs (rk := rk) (r := r) (team := team) (core := core)
  have cleared (a n : Nat) := MemSys.clearScr_canonical ready.mem a n
  have filled (cells : Memory) (a : Nat) {m : Memory} (hm : Memory.wf m = true) :
      Memory.wf (cells.foldl (fun g c => Memory.put g (a + c.1) c.2) m) = true :=
    List.foldlRecOn (motive := fun g => Memory.wf g = true) cells _ hm (fun g hg c _ => Memory.wf_put g _ _ hg)
  have stands {k u : Nat} {x : Team} {p : Port} (hx : Memory.wf x.scr = true) := teamMoved_canonical ready
    (MemSys.withScr_canonical (cleared (scrAddr core (idx * r.allotBytes)) r.allotBytes)
      (filled t.scr (scrAddr core (idx * r.allotBytes)) (cleared (scrAddr core (idx * r.allotBytes)) r.allotBytes).2.2.2))
    hx (k := k) (u := u) (p := p)
  exact canonical_foldl (fun _ _ hs => runRecorded_canonical hs) _ (runRegion_canonical (listSlots_canonical
    (canonical_foldl (fun _ _ hs => updCrew_canonical hs) _ (canonical_foldl (fun _ _ hs => resumeContext_canonical hs) _
      (moveWaiters_canonical (stands rfl))))))

theorem placeable_canonical {rk : Nat} {r : Region} {team : Nat} {t : State} (found : s.placeable rk r team = some t) : t.canonical := by
  unfold State.placeable at found
  split at found
  · split at found
    · obtain ⟨c, -, rfl⟩ := Option.map_eq_some_iff.1 found
      exact placeNew_canonical hs
    · cases found
  · split at found
    · obtain ⟨j, -, rfl⟩ := Option.map_eq_some_iff.1 found
      exact resumeTeam_canonical hs
    · cases found

theorem markAll_canonical : s.markAll.canonical := by
  refine canonical_foldl (fun s kv hs => ?_) _ hs
  split
  · exact markFor_canonical hs
  · exact hs

theorem holdTeam_canonical {rk team : Nat} : (s.holdTeam rk team).canonical := by
  unfold State.holdTeam
  split
  · exact hs.putTeam _ rfl
  · next t found =>
    have scr : Memory.wf t.scr = true := hs.team (k := teamKey rk team) found
    split
    · have asked := askPre_canonical hs scr (key := teamKey rk team)
      dsimp only
      split
      · next t found =>
        have scr : Memory.wf t.scr = true := asked.team (k := teamKey rk team) found
        exact withPort_canonical (asked.putTeam _ (x := { t with evicted := true }) scr)
      · exact asked
    · exact hs.putTeam _ scr
    · exact hs

theorem postRec_canonical {fdom : Nat} {r : FaultRec} : (s.postRec fdom r).1.canonical := canonical_of_stores (postRec_stores ..) hs

theorem countWaits_canonical : s.countWaits.canonical := hs

theorem countCycles_canonical : s.countCycles.canonical := hs

theorem sample_canonical : s.sample.canonical := by
  unfold State.sample
  split
  · exact hs
  · exact hs

/-- The clock moves, and what crews count with it. -/
theorem withClock_canonical {n a : Nat} : State.canonical { s with clock := n, admits := a } := hs

theorem withCrews_canonical {cs : Tab Crew} : State.canonical { s with crews := cs } := hs

theorem tick_canonical : s.tick.canonical :=
  runAborts_canonical (engWaits_canonical (countWaits_canonical (countCycles_canonical (withCrews_canonical (withClock_canonical
    (powerTick_canonical (sample_canonical hs)))))))

end State

end Sys2Proof.Machine
end

section
/-! SUPPORT. Events of placement, pre-emption and resumption, and the host's commands, keep every memory in canonical form. For O59. -/

namespace Sys2Proof.Machine

variable {s : State} (hs : s.canonical)

include hs

-- Placement, pre-emption and resumption (R197, R327 to R331, R368, R371).

theorem execApportioningChange_kept {core : Nat} : KeptNext (execApportioningChange core s) := by
  unfold execApportioningChange
  split
  · exact .next hs
  · split
    · exact .next hs
    · exact .ite (.next hs) (.next (State.withCores_canonical (State.apportion_canonical hs)))

theorem execTeamPreemption_kept {rcb team : Nat} : KeptNext (execTeamPreemption rcb team s) := by
  have left (hs_ : List (Nat × Eng)) (f : Nat × Eng → Eng) : (hs_.foldl (fun s kv => s.setEng kv.1 (f kv)) s).canonical :=
    State.canonical_foldl (fun _ _ hs => State.setEng_canonical hs) _ hs
  unfold execTeamPreemption
  split
  · exact .next hs
  · next rk _ _ =>
    split
    · exact .next hs
    · next t found =>
      have scr : Memory.wf t.scr = true := hs.team (k := teamKey rk team) found
      refine .ite (.next hs) (.ite (.next (left _ _)) (.next ?_))
      exact State.canonical.putTeam (State.publishCore_canonical (State.canonical_foldl (fun _ _ hs => State.stoppedCrew_canonical hs) _ (left _ _)))
        _ (x := { t with preStep := 1 }) scr

theorem execContextImageWrite_kept {rcb team : Nat} : KeptNext (execContextImageWrite rcb team s) := by
  unfold execContextImageWrite
  split
  · exact .next hs
  · split
    · exact .ite (.next hs) (.next (State.runAborts_canonical (State.commandDone_canonical (State.writeImage_canonical hs))))
    · exact .next hs

theorem State.firstPlaceable_canonical {k t : Nat} {u : State} (found : s.firstPlaceable = some (k, t, u)) : u.canonical := by
  obtain ⟨kv, -, inside⟩ := List.exists_of_findSome?_eq_some found
  obtain ⟨j, -, placed⟩ := List.exists_of_findSome?_eq_some inside
  obtain ⟨v, made, same⟩ := Option.map_eq_some_iff.1 placed
  cases same
  exact State.placeable_canonical hs made

theorem execTeamPlacement_kept : KeptNext (execTeamPlacement s) := by
  unfold execTeamPlacement
  split
  · next found => exact .next (State.markAll_canonical (State.firstPlaceable_canonical hs found))
  · exact .next (State.markAll_canonical hs)

theorem execTeamResumption_kept {rcb team : Nat} : KeptNext (execTeamResumption rcb team s) := by
  unfold execTeamResumption
  split
  · exact .next hs
  · split
    · next found => exact .ite (.next (State.firstPlaceable_canonical hs found)) (.next hs)
    · exact .next hs

omit hs in
/-- The team that a victim is. -/
theorem State.roomNeed_team {key v : Nat} {t : Team} (found : s.roomNeed = some (key, v, t)) : (v, t) ∈ s.teams := by
  obtain ⟨kv, -, inside⟩ := List.exists_of_findSome?_eq_some found
  obtain ⟨j, -, victim⟩ := List.exists_of_findSome?_eq_some inside
  dsimp only at victim
  split at victim
  · obtain ⟨w, made, same⟩ := Option.map_eq_some_iff.1 victim
    obtain ⟨rfl, rfl⟩ := Prod.mk.inj same
    unfold State.victimFor at made
    dsimp only at made
    split at made
    · cases made
    · next x l candidates =>
      have member : (v, t) ∈ x :: l := by
        rw [← Option.some.inj made]
        refine List.foldlRecOn (motive := fun a => a ∈ x :: l) l _ List.mem_cons_self (fun a ha b hb => ?_)
        split
        · exact List.mem_cons_of_mem _ hb
        · exact ha
      rw [← candidates] at member
      exact (List.mem_filter.1 member).1
  · cases victim

theorem execPriorityPreemption_kept {die : Nat} : KeptNext (execPriorityPreemption die s) := by
  unfold execPriorityPreemption
  refine .ite (.next hs) ?_
  split
  · next key v t found =>
    have scr : Memory.wf t.scr = true := (State.canonical_iff.1 hs).2.2 _ (State.roomNeed_team found)
    exact .ite (.next hs) (.next (State.askPre_canonical (State.withPort_canonical hs) scr))
  · exact .next hs

-- Commands (R362 to R365, R377).

theorem execEvict_kept : KeptNext (execEvict s) :=
  .next (State.command_canonical hs (fun _ hs => State.canonical_foldl (fun _ _ hs =>
    State.canonical_foldl (fun _ _ hs => State.holdTeam_canonical hs) _ (State.updRegion_canonical hs)) _ hs))

theorem execTevict_kept {seq : Word} : KeptNext (execTevict seq s) := by
  refine .next (State.command_canonical hs (fun s hs => ?_))
  split
  · exact hs
  · exact State.canonical_ite hs (State.holdTeam_canonical hs)

theorem execAdmitTeams_kept : KeptNext (execAdmitTeams s) := by
  refine .next (State.command_canonical hs (fun s hs => State.canonical_foldl (fun s kv hs => ?_) _ hs))
  have named {f : Region → Region} := State.updRegion_canonical hs (rk := kv.1) (f := f)
  refine State.withTeams_canonical named (fun t member => ?_)
  obtain ⟨old, kept, rfl⟩ := List.mem_map.1 member
  have scr := (State.canonical_iff.1 named).2.2 old ((List.mem_filter.1 kept).1)
  split
  · exact scr
  · exact scr

theorem execAbort_kept : KeptNext (execAbort s) := by
  refine .next (State.command_canonical hs (fun s hs => ?_))
  split
  · exact hs
  · exact State.abortAt_canonical hs

theorem execShoot_kept {fdom : BitVec 12} {seq : Word} : KeptNext (execShoot fdom seq s) := by
  refine .next (State.command_canonical hs (fun s hs => State.canonical_ite hs ?_))
  have dropped {p : Xl → Bool} := State.invalTlb_canonical (p := p) (State.markOld_canonical (State.performLaters_canonical hs) (but := none))
  exact State.canonical_ite (State.withPort_canonical dropped) dropped

theorem execDeferredFaultPosting_kept {fdom : Nat} : KeptNext (execDeferredFaultPosting fdom s) := by
  have posts := fun fdom r => State.postRec_canonical hs (fdom := fdom) (r := r)
  unfold execDeferredFaultPosting
  revert posts
  -- The kernel must not compute the posting.
  induction State.postRec s using holds_of_all with
  | all posting =>
    intro posts
    split
    · exact .next hs
    · next key eng fr _ =>
      extract_lets c img
      clear_value img
      split
      · next made => exact .next (State.canonical_fst (posts _ _) made)
      · next made =>
        have posted := State.canonical_fst (posts _ _) made
        have noted {x : Port} := State.withPort_canonical posted (x := x)
        refine .ite ?_ ?_
        · split
          · split
            · exact .ite (.next (State.setEng_canonical noted)) (.next noted)
            · exact .next noted
          · exact .next noted
        · split
          · exact .next noted
          · split
            · exact .next noted
            · refine .ite (.next noted) ?_
              cases img with
              | some slot => exact .next (State.devWrite_canonical (State.setCrew_canonical noted))
              | none => exact .next (State.setCrew_canonical noted)

end Sys2Proof.Machine
end

section
section
/-! SUPPORT. Events of power and of pool extents keep every memory in canonical form. For O59. -/

namespace Sys2Proof.Machine

section

variable {s : State} (hs : s.canonical)

include hs

-- Allowances, pace, ratios and energy (R25, R342 to R352).

theorem execPowerAllowanceWrite_kept {cluster : Nat} {pwr : Bool} {v : DWord} : KeptNext (execPowerAllowanceWrite cluster pwr v s) :=
  .ite (.next hs) (.ite (.next (State.setPower_canonical hs)) (.next (State.setPower_canonical hs)))

theorem execPowerFloor_kept {cluster : Nat} : KeptNext (execPowerFloor cluster s) := .ite (.next hs) (.next (State.setPower_canonical hs))

theorem execSlackReport_kept {group : Nat} {peers : List (Nat × Nat)} : KeptNext (execSlackReport group peers s) := by
  unfold execSlackReport
  split
  · exact .next hs
  · exact .next (State.setPower_canonical hs)

theorem execPaceUpdate_kept {group : Nat} : KeptNext (execPaceUpdate group s) := by
  unfold execPaceUpdate
  split
  · exact .next hs
  · exact .ite (.next hs) (.next (State.setPower_canonical hs))

theorem execGroupEnd_kept {group : Nat} : KeptNext (execGroupEnd group s) := by
  unfold execGroupEnd
  split
  · exact .next hs
  · split
    · exact .ite (.next (State.setPower_canonical hs)) (.next hs)
    · exact .next hs

theorem execAllowanceRefill_kept {cluster : Nat} {reqs : List PowerReq} : KeptNext (execAllowanceRefill cluster reqs s) :=
  .next (State.clusterClock_canonical hs)

theorem execSliceRatioChange_kept {cluster slice : Nat} : KeptNext (execSliceRatioChange cluster slice s) :=
  .ite (.next hs) (.next (State.setPower_canonical hs))

theorem execStarvationPromotion_kept {crew slot : Nat} : KeptNext (execStarvationPromotion crew slot s) := by
  unfold execStarvationPromotion
  split
  · exact .next hs
  · exact .ite (.next (State.setCrew_canonical hs)) (.next hs)

omit hs in
theorem State.charge_canonical (fuel rk nj : Nat) (hs : s.canonical) : (State.charge fuel rk nj s).canonical := by
  induction fuel generalizing rk s with
  | zero => exact hs
  | succ fuel ih =>
    unfold State.charge
    split
    · exact hs
    · have charged {f : Region → Region} : (s.updRegion rk f).canonical := State.updRegion_canonical hs
      dsimp only
      split
      · exact ih _ charged
      · exact charged

theorem execEnergyInterval_kept {cluster nj : Nat} : KeptNext (execEnergyInterval cluster nj s) :=
  .ite (.next hs) (.next (State.setPower_canonical (State.canonical_foldl (fun _ _ hs => State.charge_canonical _ _ _ hs) _ hs)))

end

-- Ranges of memories (R388, R392).

section

variable {g bs : Memory}

theorem Memory.wf_shift (hg : Memory.wf g = true) (base size to_ : Nat) : Memory.wf (Memory.shift g base size to_) = true :=
  Memory.wf_moved hg to_ (fun c inside => by
    rw [Bool.and_eq_true, decide_eq_true_eq] at inside
    exact inside.1)

theorem Memory.wf_without (hg : Memory.wf g = true) (base size : Nat) : Memory.wf (Memory.without g base size) = true :=
  Memory.wf_filter _ _ hg

theorem Memory.wf_putAll (hg : Memory.wf g = true) (cs : List (Nat × Byte)) : Memory.wf (Memory.putAll g cs) = true :=
  Memory.wf_foldl _ (fun m c hm => Memory.wf_put m c.1 c.2 hm) cs g hg

end

namespace MemSys

variable {m : MemSys} (hm : m.canonical)

include hm

theorem setPkg_canonical {x : Extent} {g : Memory} (hg : Memory.wf g = true) : (m.setPkg x g).canonical := ⟨hg, hm.2⟩

theorem withExt_canonical {g : Memory} (hg : Memory.wf g = true) : MemSys.canonical { m with ext := g } := ⟨hm.1, hg, hm.2.2⟩

theorem withPeer_canonical {g : Memory} (hg : Memory.wf g = true) : MemSys.canonical { m with peer := g } := ⟨hm.1, hm.2.1, hg, hm.2.2.2⟩

end MemSys

namespace State

variable {s : State} (hs : s.canonical)

include hs

-- Pool extents (R388 to R392).

/-- The pool is written, with devices in form. -/
theorem canonical.withPool {p : Pool} (hd : Memory.wf p.dev = true) : (s.setPool p).canonical := by
  obtain ⟨mem, -, teams⟩ := canonical_iff.1 hs
  exact canonical_iff.2 ⟨mem, hd, teams⟩

theorem setExtent_canonical {e : Nat} {x : Extent} : (s.setExtent e x).canonical := canonical.withPool hs hs.dev

theorem showExtent_canonical {x : Extent} : (s.showExtent x).canonical := by
  have put {g : Memory} (hg : Memory.wf g = true) {cs : List (Nat × Byte)} :
      Memory.wf (Memory.putAll (Memory.without g x.base x.bytes) cs) = true := Memory.wf_putAll (Memory.wf_without hg _ _) _
  unfold showExtent
  exact canonical_ite (hs.withMem (MemSys.withExt_canonical hs.mem (put hs.mem.2.1))) (hs.withMem (MemSys.setPkg_canonical hs.mem (put hs.mem.1)))

theorem hideExtent_canonical {x : Extent} : (s.hideExtent x).canonical := by
  unfold hideExtent
  extract_lets src dev old u
  have hu : u.canonical := canonical.withPool hs (Memory.wf_putAll (Memory.wf_without hs.dev _ _) _)
  clear_value u
  exact canonical_ite (hu.withMem (MemSys.withExt_canonical hu.mem (Memory.wf_without hu.mem.2.1 _ _)))
    (hu.withMem (MemSys.setPkg_canonical hu.mem (Memory.wf_without hu.mem.1 _ _)))

theorem flushExtent_canonical {x : Extent} : (s.flushExtent x).canonical := by
  have performed := performLaters_canonical hs
  unfold flushExtent
  extract_lets u
  have hu : u.canonical := performed
  clear_value u
  exact canonical_ite (hu.withMem (MemSys.flushExt_canonical hu.mem _ _ _))
    (hu.withMem (MemSys.clearL2_canonical (MemSys.flushRange_canonical hu.mem _ _ _) _ _))

theorem dropLines_canonical {x : Extent} : (s.dropLines x).1.canonical := by
  unfold dropLines
  refine hs.withMem ?_
  dsimp only
  split
  · exact hs.mem
  · exact hs.mem

end State

section

variable {s : State} (hs : s.canonical)

include hs

theorem execPoolExtentMap_kept {e : Nat} {v : DWord} : KeptNext (execPoolExtentMap e v s) := by
  have counted {n : Nat} : State.canonical { s with freeCount := n } := hs
  unfold execPoolExtentMap
  exact .ite (.next hs) (.ite (.next hs) (.next (State.showExtent_canonical (State.setExtent_canonical counted))))

theorem execExtentRelease_kept {e : Nat} {v : DWord} : KeptNext (execExtentRelease e v s) :=
  .ite (.next hs) (.ite (.next (State.setExtent_canonical hs)) (.next (State.setExtent_canonical (State.hideExtent_canonical
    (State.canonical_ite (State.flushExtent_canonical hs) hs)))))

theorem execExtentReleaseRequest_kept {e : Nat} : KeptNext (execExtentReleaseRequest e s) := by
  unfold execExtentReleaseRequest
  extract_lets x u
  have hu : u.canonical := State.setExtent_canonical hs
  refine .ite (.next hs) (.next (State.notice_canonical (State.canonical.withPool hu ?_)))
  exact hu.dev

theorem execExtentRemoval_kept {e : Nat} : KeptNext (execExtentRemoval e s) := by
  unfold execExtentRemoval
  extract_lets x u
  have hu : u.canonical := State.setExtent_canonical hs
  clear_value u
  refine .ite (.next hs) ?_
  have lost {mine : Space → Nat → Bool} {cause : Nat} := State.loseStores_canonical (State.dropLines_canonical hu (x := x)) (mine := mine) (cause := cause)
  have done {gone : Space × Nat → Bool} {cause : Nat} {mine : Space → Nat → Bool} {k : Nat} := State.loseReads_canonical (lost (mine := mine) (cause := k)) (gone := gone) (cause := cause)
  exact .next (State.canonical.withPool done (State.canonical.dev done))

theorem execPoolFatalError_kept {port : Bool} : KeptNext (execPoolFatalError port s) := .next (State.canonical.withPool hs hs.dev)

end

end Sys2Proof.Machine
end
end

section
section
/-! SUPPORT. The host's accesses, its registers and its port keep every memory in canonical form. For O59. -/

namespace Sys2Proof.Machine

namespace MemSys

variable (m : MemSys)

theorem hostSees_same (ln : Nat) : m.sameBytes (m.hostSees ln) := (quiet_same m ln).trans (downgrade_same _ _ ln)

theorem hostTake_same (t ln : Nat) (own : Bool) : m.sameBytes (m.hostTake t ln own) := by
  refine MemSys.sameBytes.trans ?_ (setLine_same _ _ _ _)
  cases own
  · exact hostSees_same m ln
  · exact teardown_same m t ln

/-- The lines that a host's read has the package give up. -/
theorem hostSeesAll_same (lns : List Nat) : m.sameBytes (lns.foldl MemSys.hostSees m) := same_foldl hostSees_same lns m

end MemSys

theorem MemSys.snooped_canonical {m : MemSys} (hm : m.canonical) {a : Nat × Byte → Nat} {w : List (Nat × Byte)} :
    MemSys.canonical { m with ext := w.foldl (fun g kv => Memory.put g (a kv) kv.2) m.ext } :=
  MemSys.withExt_canonical hm (Memory.wf_puts _ _ _ hm.2.1)

section

variable {s : State} (hs : s.canonical)

include hs

namespace State

theorem setPort_canonical {p : Port} : (s.setPort p).canonical := hs

theorem setFab_canonical {f : Fab} : (s.setFab f).canonical := hs

theorem setMil_canonical {m : Milden} : (s.setMil m).canonical := hs

theorem freeBytes_canonical {n : Nat} : (s.freeBytes n).1.canonical := hs

-- Package memory through BAR2 (R382 to R386).

theorem hostMemRead_canonical {off len : Nat} {cached : Option Bool} : (s.hostMemRead off len cached).canonical := by
  have seen {lns : List Nat} : (lns.foldl MemSys.hostSees s.mem).canonical := MemSys.canonical_of_same (MemSys.hostSeesAll_same _ _) hs.mem
  have taken {lns : List Nat} {own : Bool} : (lns.foldl (fun m ln => m.hostTake s.clock ln own) s.mem).canonical :=
    MemSys.canonical_foldl (fun m ln => MemSys.canonical_of_same (MemSys.hostTake_same m _ ln _)) _ hs.mem
  unfold hostMemRead
  refine canonical_ite (setPort_canonical hs) ?_
  extract_lets pas lns bs bad m u
  have hu : u.canonical := by
    refine hs.withMem ?_
    unfold m
    split
    · exact MemSys.ite_canonical taken seen
    · exact seen
  clear_value u
  dsimp only
  split
  · exact setPort_canonical (freeBytes_canonical hu)
  · exact setPort_canonical hu

/-- Bytes that the host or a peer stores in package memory. -/
theorem homeStore_canonical {cells ps : List (Nat × Byte)} {sp : Nat × Byte → Space × Nat} :
    State.canonical { s with mem := (s.mem.storePkg s.clock noPort 4 0 true cells).wroteBy 0 (ps.map sp) } :=
  hs.withMem (MemSys.canonical_of_same (MemSys.wroteBy_same _ _ _) (MemSys.storePkg_canonical hs.mem _ _ _ _ _ _))

/-- Bytes that the host writes in lines it holds. -/
theorem hostStore_canonical {cells ps : List (Nat × Byte)} {sp : Nat × Byte → Space × Nat} : State.canonical { s with
    mem := (cells.foldl (fun m c => m.putAt (some hostHolder) (lineOf c.1) [(c.1 % 128, c.2)]) s.mem).wroteBy 0 (ps.map sp) } :=
  hs.withMem (MemSys.canonical_of_same (MemSys.wroteBy_same _ _ _)
    (MemSys.canonical_foldl (fun _ _ hm => MemSys.putAt_canonical hm _ _ _) _ hs.mem))

end State

theorem execHostWrite_kept {off : Nat} {bytes : List Byte} {how : HostWrite} : KeptNext (execHostWrite off bytes how s) :=
  .ite (.next hs) (.ite (.next (State.setPort_canonical hs)) (.ite (.next (State.setPort_canonical hs))
    (.ite (.ite (.next hs) (.next (State.hostStore_canonical hs))) (.next (State.homeStore_canonical hs)))))

theorem execHostRead_kept {bar off len : Nat} {how : HostRead} : KeptNext (execHostRead bar off len how s) := by
  have answer {p : Port} : KeptNext (.next (s.setPort p)) := .next (State.setPort_canonical hs)
  unfold execHostRead
  refine .ite (.next hs) (.ite answer (.ite (.next (State.canonical_ite hs (State.hostMemRead_canonical hs))) (.ite answer (.ite answer
    (.ite ?_ (.ite answer (.ite answer answer)))))))
  exact .next (State.setPort_canonical (State.freeBytes_canonical hs))

-- Registers (R324, R362 to R365, R380, R388, R390).

theorem State.fcmd_kept {v : DWord} : KeptNext (s.fcmd v) := by
  unfold State.fcmd
  dsimp only
  split
  · exact execResume_kept hs
  · exact execSkip_kept hs
  · exact execTrapCommand_kept hs
  · exact execAbort_kept hs
  · exact execEvict_kept hs
  · exact execAdmitTeams_kept hs
  · exact execShoot_kept hs
  · exact execTevict_kept hs
  · exact .next (State.command_canonical hs (fun _ hs => hs))

theorem execLostClear_kept {v : DWord} : KeptNext (execLostClear v s) := .ite (.next (State.setPort_canonical hs)) (.next hs)

theorem State.fillFrames_canonical {k : Nat} {v : DWord} : (s.fillFrames k v).canonical := State.canonical_ite (hs.withMem hs.mem) hs

theorem State.barPut_canonical {off : Nat} {v : DWord} : (s.barPut off v).canonical := by
  have port {p : Port} : (s.setPort p).canonical := State.setPort_canonical hs
  unfold State.barPut
  extract_lets p e
  iterate 7 refine State.canonical_ite port ?_
  refine State.canonical_ite ?_ (State.canonical_ite port (State.canonical_ite (State.fillFrames_canonical hs) (State.canonical_ite port hs)))
  split
  · exact State.setExtent_canonical hs
  · exact State.setExtent_canonical hs
  · exact hs

theorem execRegisterWrite_kept {off width : Nat} {v : DWord} : KeptNext (execRegisterWrite off width v s) :=
  .ite (.next hs) (.ite (.next (State.ldropped_canonical hs)) (.ite (.next hs) (.ite (State.fcmd_kept hs) (.ite (execLostClear_kept hs)
    (.ite (.ite (execPoolExtentMap_kept hs) (execExtentRelease_kept hs)) (.next (State.barPut_canonical hs)))))))

-- The owner of EXTERNAL lines, and the port itself (R386, R393, R400).

theorem execHostSnoop_kept {line : Nat} {w : List (Nat × Byte)} {poison : Bool} : KeptNext (execHostSnoop line w poison s) := by
  unfold execHostSnoop
  extract_lets p m ext m' m''
  have hm : m.canonical := MemSys.extSnoop_canonical (MemSys.extSnoop_canonical hs.mem _ _ _) _ _ _
  exact .next (hs.withMem (MemSys.canonical_poison (MemSys.snooped_canonical hm)))

theorem execHostLinkDown_kept : KeptNext (execHostLinkDown s) := by
  unfold execHostLinkDown
  extract_lets gone far old u
  have hu : u.canonical := State.loseReads_canonical (State.setPort_canonical hs)
  clear_value u
  exact .next (hu.withMem hu.mem)

theorem execHostPortTrained_kept {cxl : Bool} : KeptNext (execHostPortTrained cxl s) := .ite (.next hs) (.next (State.setPort_canonical hs))

end

end Sys2Proof.Machine
end
end

section
section
/-! SUPPORT. The fabric's ports, notices and peers keep every memory in canonical form. For O59. -/

namespace Sys2Proof.Machine

variable {s : State} (hs : s.canonical)

include hs

-- Ports and notices (R395, R399, R401).

theorem execPortFence_kept {p : Nat} : KeptNext (execPortFence p s) := .ite (.next hs) (.next (State.setFab_canonical hs))

theorem execCapabilityWord_kept {p : Nat} {v : DWord} : KeptNext (execCapabilityWord p v s) := .ite (.next hs) (.next (State.setFab_canonical hs))

theorem execSetAsideNotice_kept {rank us : Nat} : KeptNext (execSetAsideNotice rank us s) := .ite (.next hs) (.next (State.setFab_canonical hs))

theorem execSetAsideRelease_kept {rank : Nat} : KeptNext (execSetAsideRelease rank s) := .next (State.setFab_canonical hs)

theorem execSetAsideExpiry_kept {rank : Nat} : KeptNext (execSetAsideExpiry rank s) := by
  unfold execSetAsideExpiry
  split
  · exact .ite (execSetAsideRelease_kept hs) (.next hs)
  · exact .next hs

-- Requests of peers (R306, R396 to R398).

namespace State

theorem answered_canonical {a : Option (List Byte)} : (s.answered a).canonical := setFab_canonical hs

theorem answeredWith_canonical {bad : Bool} {bs : List Byte} : (s.answeredWith bad bs).canonical := setFab_canonical hs

theorem peerRead_canonical {pa len : Nat} : (s.peerRead pa len).canonical := by
  have seen {lns : List Nat} : (lns.foldl MemSys.hostSees s.mem).canonical := MemSys.canonical_of_same (MemSys.hostSeesAll_same s.mem _) hs.mem
  unfold peerRead
  extract_lets pas lns bs m
  have hm : m.canonical := seen
  clear_value m
  refine answeredWith_canonical ?_
  exact hs.withMem hm

theorem peerWrite_canonical {pa : Nat} {bs : List Byte} : (s.peerWrite pa bs).canonical := answered_canonical (homeStore_canonical hs)

theorem peerAtomic_canonical {op bytes pa d d2 : Nat} {mode : BitVec 40} : (s.peerAtomic op bytes mode pa d d2).canonical := by
  unfold peerAtomic
  dsimp only
  exact answeredWith_canonical (rmw_canonical hs)

/-- The bytes of a halo, and the answer when its signal has been lowered. -/
theorem haloSignal_canonical {w n gen : Nat} {u : State} (hu : u.canonical) {yes no : Option (List Byte)} :
    State.canonical (match u.barLower w n gen with
      | (v, true) => v.answered yes
      | (_, false) => s.answered no) := by
  split
  · next made => exact answered_canonical (canonical_fst (barLower_canonical hu) made)
  · exact answered_canonical hs

theorem peerHalo_canonical {key : Word} {team : Nat} {rows : List (Nat × List Byte)} {sig : Option (Nat × Nat)} :
    (s.peerHalo key team rows sig).canonical := by
  unfold peerHalo
  split
  · exact answered_canonical hs
  · refine canonical_ite (answered_canonical hs) ?_
    split
    · exact hs
    · refine canonical_ite (answered_canonical hs) (canonical_ite hs ?_)
      extract_lets beyond home count word cells u
      have hu : u.canonical := hs.withMem (MemSys.putScratch_canonical hs.mem _)
      clear_value beyond word u
      split
      · split
        · exact haloSignal_canonical hs hu
        · exact answered_canonical hu
      · exact answered_canonical hs

end State

theorem execPeerAccessRequest_kept {rank : Nat} {req : PeerReq} : KeptNext (execPeerAccessRequest rank req s) := by
  have refused {a : Option (List Byte)} : (s.answered a).canonical := State.answered_canonical hs
  unfold execPeerAccessRequest
  refine .ite (.next hs) ?_
  cases req with
  | read pa len => exact .next (State.canonical_ite (State.peerRead_canonical hs) refused)
  | write pa bs => exact .next (State.canonical_ite (State.peerWrite_canonical hs) refused)
  | atomic op bytes mode pa d d2 => exact .next (State.canonical_ite (State.peerAtomic_canonical hs) refused)
  | halo key team rows sig => exact .next (State.peerHalo_canonical hs)

-- Lines of peers (R394, R397).

theorem execFabricTeardown_kept {granule : PeerGranule} {w : List (Nat × Byte)} : KeptNext (execFabricTeardown granule w s) := by
  have dropped {ln level : Nat} : (s.mem.dropPeer ln level).canonical := MemSys.canonical_of_same (MemSys.dropPeer_same _ _ _) hs.mem
  exact .next (hs.withMem (MemSys.withPeer_canonical dropped (Memory.wf_puts _ _ _ dropped.2.2.1)))

theorem execPeerUnreachable_kept {rank : Nat} : KeptNext (execPeerUnreachable rank s) := by
  unfold execPeerUnreachable
  extract_lets to_ lost wcb m f u
  have hu : u.canonical := by
    refine State.setFab_canonical ?_
    exact hs.withMem hs.mem
  clear_value u
  dsimp only
  exact .next (State.setFab_canonical (State.loseReads_canonical (State.loseStores_canonical hu)))

end Sys2Proof.Machine
end
end

section
section
/-! SUPPORT. Soft errors, images, reset, bring-up and the SPDM responder keep every memory in canonical form. For O59. -/

namespace Sys2Proof.Machine

variable {s : State} (hs : s.canonical)

include hs

-- The unified store and the tree caches (R11, R15, R203).

theorem State.setCore_canonical {core : Nat} {c : CoreSt} : (s.setCore core c).canonical := State.withCores_canonical hs

theorem execBankFailureMark_kept {core bank : Nat} : KeptNext (execBankFailureMark core bank s) :=
  .ite (.next hs) (.next (State.setCore_canonical hs))

theorem State.storeError_canonical {core : Nat} {p : StorePlace} : (s.storeError core p).canonical := by
  have crew {id : Nat} {c : Crew} : (s.setCrew id c).canonical := State.setCrew_canonical hs
  unfold State.storeError
  cases p with
  | scratch off => exact hs.withMem (MemSys.canonical_poison hs.mem)
  | line ln =>
    dsimp only
    split
    · exact State.canonical_ite (hs.withMem hs.mem) hs
    · exact hs
  | stack id i =>
    dsimp only
    split
    · exact State.canonical_ite hs crew
    · exact hs
  | link id i =>
    dsimp only
    split
    · exact State.canonical_ite hs crew
    · exact hs
  | register id reg =>
    dsimp only
    split
    · exact State.canonical_ite hs crew
    · exact hs

theorem execSoftError_kept {core bank : Nat} {place : StorePlace} : KeptNext (execSoftError core bank place s) :=
  .ite (.next hs) (.ite (.next (State.setCore_canonical hs)) (.next (State.storeError_canonical hs)))

theorem execTreeCacheCut_kept : KeptNext (execTreeCacheCut s) := .ite (.next hs) (.next (State.setMil_canonical hs))

-- Images (R403, R404, R406).

omit hs in
/-- A state that the loads so far have left, if none has failed, is in form. -/
theorem State.loaded_foldl (which : List Nat) {f : State → Nat → Option State}
    (goes : ∀ s k t, s.canonical → f s k = some t → t.canonical) {o : Option State} (ho : ∀ t, o = some t → t.canonical) :
    ∀ t, which.foldl (fun o k => o.bind (fun s => f s k)) o = some t → t.canonical := by
  induction which generalizing o with
  | nil => exact ho
  | cons k ks ih =>
    refine ih (fun t made => ?_)
    obtain ⟨u, hu, made⟩ := Option.bind_eq_some_iff.1 made
    exact goes u k t (ho u hu) made

theorem State.loadImages_canonical {which : List Nat} {t : State} (made : s.loadImages which = some t) : t.canonical := by
  obtain ⟨u, loaded, rfl⟩ := Option.map_eq_some_iff.1 made
  refine State.setMil_canonical (State.loaded_foldl which (fun v k t hv made => ?_) (fun t same => ?_) u loaded)
  · obtain ⟨i, -, rfl⟩ := Option.map_eq_some_iff.1 made
    exact State.setMil_canonical hv
  · cases same
    exact hs

theorem execFirmwareUpdate_kept {which : Nat} {image sig : List Byte} : KeptNext (execFirmwareUpdate which image sig s) :=
  .ite (.next hs) (.ite (.next (State.setMil_canonical hs)) (.next (State.setMil_canonical hs)))

theorem execSecurityVersionRaise_kept {version : Nat} {sig : List Byte} : KeptNext (execSecurityVersionRaise version sig s) :=
  .ite (.next (State.setMil_canonical hs)) (.next hs)

theorem State.toPhase_canonical {n : Nat} : (s.toPhase n).canonical := State.setPort_canonical hs

theorem State.recover_canonical : s.recover.canonical := State.withPort_canonical hs

/-- The images of the flash run, or the device enters recovery. -/
theorem State.booted_kept {which : List Nat} {f : State → State} (goes : ∀ s : State, s.canonical → (f s).canonical) :
    KeptNext (match s.loadImages which with
      | some t => .next (f t)
      | none => .next s.recover) := by
  split
  · next made => exact .next (goes _ (State.loadImages_canonical hs made))
  · exact .next (State.recover_canonical hs)

theorem execMildenReset_kept : KeptNext (execMildenReset s) := State.booted_kept (State.setMil_canonical hs) (fun _ hs => hs)

-- Reset and bring-up (R400).

theorem State.afterReset_canonical : s.afterReset.canonical :=
  State.canonical_iff.2 ⟨⟨rfl, hs.mem.2.1, hs.mem.2.2.1, rfl⟩, hs.dev, fun _ none => nomatch none⟩

theorem State.beforeReset_canonical : s.beforeReset.canonical :=
  State.canonical_foldl (fun _ _ hs => State.hideExtent_canonical (State.flushExtent_canonical hs)) _ hs

theorem execDeviceReset_kept : KeptNext (execDeviceReset s) :=
  State.booted_kept (State.afterReset_canonical (State.beforeReset_canonical hs)) (fun _ hs => hs)

theorem execLinkTrainingTimeout_kept {link : Nat} : KeptNext (execLinkTrainingTimeout link s) := by
  have failed {p : Port} : (s.setPort p).canonical := State.setPort_canonical hs
  exact .ite (.next hs) (.ite (execPortFence_kept failed) (.next failed))

theorem execPhaseAdvance_kept : KeptNext (execPhaseAdvance s) := by
  unfold execPhaseAdvance
  split
  · exact State.booted_kept hs (fun _ hs => State.toPhase_canonical hs)
  · exact State.booted_kept hs (fun _ hs => State.toPhase_canonical hs)
  · have trained {p : Port} : (s.setPort p).canonical := State.setPort_canonical hs
    exact .next (State.canonical_ite (State.toPhase_canonical trained) trained)
  · exact .next (State.canonical_ite (State.toPhase_canonical hs) hs)
  · refine .next (State.toPhase_canonical (State.canonical.withPool hs ?_))
    exact hs.dev
  · have fenced {f : Fab} : (s.setFab f).canonical := State.setFab_canonical hs
    exact .next (State.toPhase_canonical (State.setPort_canonical fenced))
  · exact .next hs

-- SPDM (R402, R405).

theorem State.spdm_canonical {code : Nat} {ops : List Byte} {a : List Byte → SpdmAnswer} : (s.spdm code ops a).canonical :=
  State.canonical_ite hs (State.setMil_canonical hs)

theorem State.spdmNonce_canonical : s.spdmNonce.1.canonical := hs

theorem execGetVersion_kept : KeptNext (execGetVersion s) := .next (State.spdm_canonical (State.setMil_canonical hs))

theorem execGetCapabilities_kept : KeptNext (execGetCapabilities s) := .next (State.spdm_canonical hs)

theorem execNegotiateAlgorithms_kept {eddsa sha3 : Bool} : KeptNext (execNegotiateAlgorithms eddsa sha3 s) := .next (State.spdm_canonical hs)

theorem execGetDigests_kept : KeptNext (execGetDigests s) := .next (State.spdm_canonical hs)

theorem execGetCertificate_kept {slot off len : Nat} : KeptNext (execGetCertificate slot off len s) := .next (State.spdm_canonical hs)

theorem execChallenge_kept {nonce : List Byte} : KeptNext (execChallenge nonce s) :=
  .next (State.spdm_canonical (State.spdmNonce_canonical hs))

theorem execGetMeasurements_kept {index : Nat} {nonce : List Byte} : KeptNext (execGetMeasurements index nonce s) :=
  .next (State.spdm_canonical (State.spdmNonce_canonical hs))

theorem execUnsupportedRequest_kept {code : Nat} : KeptNext (execUnsupportedRequest code s) := .next (State.spdm_canonical hs)

end Sys2Proof.Machine
end
end

section
section
/-! SUPPORT. Every instruction, every turn and every step keeps every memory in canonical form. Settles O59. -/

namespace Sys2Proof.Machine

variable {s : State} (hs : s.canonical)

include hs

/-- Every instruction, event and command, by the lemma of its word or of the family of words it belongs to. -/
theorem exec_kept (i : Instr) : KeptNext (exec i s) := by
  cases i with
  | heat => exact execHeat_kept hs
  | heatJ => exact execHeatJ_kept hs
  | quench => exact execQuench_kept hs
  | br => exact execBr_kept hs
  | bra => exact execBra_kept hs
  | brx => exact execBrx_kept hs
  | call => exact execCall_kept hs
  | callx => exact execCallx_kept hs
  | ret => exact execRet_kept hs
  | exit => exact execExit_kept hs
  | tret => exact execTret_kept hs
  | slide => exact execSlide_kept hs
  | nop => exact execNop_kept hs
  | yield => exact execYield_kept hs
  | mode | modem => exact setMode_kept hs
  | trap => exact execTrap_kept hs
  | brk => exact execBrk_kept hs
  | svc => exact execSvc_kept hs
  | launch => exact execLaunch_kept hs
  | fork => exact execFork_kept hs
  | rdv => exact execRdv_kept hs
  | iadd | iaddc | isub | isubb | imin | imax | iabs | ineg | lea | imul | imulh | imad | imadw | and | or | xor | andn | not | sel | shl
  | shr | sar | rot | popc | clz | brev | bfx | bfi | icmp | mov | movi | movh | fadd | fsub | fmul | fmin | fmax | fabs | fneg | fcpys
  | fscale | frnd | ffma | ffms | fdot2 | fcmp | fclass | frcp | frsq | fsqrt | fdiv | fexp2 | flog2 | fsin | fcos | ftanh | cvt | cvti
  | pack | unpack | tag | retag | qscale | mxscale | vote | elect | matchLanes | shfl | permset | perm | red | scan | bcast | pick =>
    exact checkedWord_kept hs
  | sadd | ssub | smul | smulh | sand | sor | sxor | sshl | sshr | ssar | smov | sbfx | spopc | smovi | smovh =>
    exact bothWord_kept hs (fun _ _ => checked_plain) (fun _ => setS_plain ..)
  | ssel => exact execSsel_kept hs
  | scmp => exact execScmp_kept hs
  | srd => exact execSrd_kept hs
  | pand | por | pxor | pnot | pmov => exact bothWord_kept hs (fun _ _ => checked_plain) (fun _ => .ok)
  | pcnt => exact execPcnt_kept hs
  | ld | ldx => exact State.crewWord_canonical hs (loadEff_keeps _)
  | st | stx => exact State.crewWord_canonical hs (storeEff_keeps _)
  | sld => exact execSld_kept hs
  | sst => exact execSst_kept hs
  | ldc => exact execLdc_kept hs
  | pref => exact execPref_kept hs
  | cflush | cinv => exact State.crewWord_canonical hs (flushEff_keeps _ _ _)
  | hint => exact execHint_kept hs
  | aadd | afadd | amin | amax | aand | aor | axor | aswp | acas => exact atomicWord_kept hs
  | acas2 => exact execAcas2_kept hs
  | fence => exact execFence_kept hs
  | binit => exact execBinit_kept hs
  | arrive | arrivex => exact State.crewWord_canonical hs (arriveEff_keeps _ _)
  | wait => exact execWait_kept hs
  | twait => exact execTwait_kept hs
  | bar => exact execBar_kept hs
  | strike => exact execStrike_kept hs
  | mwait => exact execMwait_kept hs
  | mma | mzero | mscale | msta => exact State.engWord_canonical hs xIssue_keeps
  | dwait => exact execDwait_kept hs
  | dwaitArm => exact execDwaitArm_kept hs
  | mexit => exact execMexit_kept hs
  | gmode => exact execGmode_kept hs
  | tset => exact execTset_kept hs
  | tget => exact execTget_kept hs
  | aset => exact execAset_kept hs
  | take => exact execTake_kept hs
  | give => exact execGive_kept hs
  | cpy | cpy2 | fill => exact transfer_kept hs (plainCheck_tooLong _)
  | gath | scat => exact transfer_kept hs plainCheck_pairBad
  | halo => exact execHalo_kept hs
  | coll => exact execColl_kept hs
  | qfence => exact execQfence_kept hs
  | esig => exact execEsig_kept hs
  | eloop => exact execEloop_kept hs
  | eend => exact execEend_kept hs
  | csrr => exact execCsrr_kept hs
  | csrw => exact execCsrw_kept hs
  | tlbi => exact execTlbi_kept hs
  | classPage => exact execClassPage_kept hs
  | pwrq => exact execPwrq_kept hs
  | ctxq => exact execCtxq_kept hs
  | longLatencyCompletion => exact execLongLatencyCompletion_kept hs
  | sluiceSpill => exact execSluiceSpill_kept hs
  | sluiceRefill => exact execSluiceRefill_kept hs
  | monitorWake | twaitLimitExpiry | grantRetry => exact State.again_kept hs
  | reservationExpiry => exact execReservationExpiry_kept hs
  | strikeClusterAdmission => exact execStrikeClusterAdmission_kept hs
  | wcbAgeingExpiry => exact execWcbAgeingExpiry_kept hs
  | splitLevelDecay => exact execSplitLevelDecay_kept hs
  | migrationStep => exact execMigrationStep_kept hs
  | classConflict => exact execClassConflict_kept hs
  | xOperationStart => exact execXOperationStart_kept hs
  | xOperationCompletion => exact execXOperationCompletion_kept hs
  | engineEntryCompletion => exact execEngineEntryCompletion_kept hs
  | qfenceMatch => exact execQfenceMatch_kept hs
  | tokenWaitTimeout => exact execTokenWaitTimeout_kept hs
  | engineWaitTimeout => exact execEngineWaitTimeout_kept hs
  | crewRetirement => exact execCrewRetirement_kept hs
  | teamRetirement => exact execTeamRetirement_kept hs
  | regionCompletion => exact execRegionCompletion_kept hs
  | launchMessage => exact execLaunchMessage_kept hs
  | admission => exact execAdmission_kept hs
  | nodeReady => exact execNodeReady_kept hs
  | teamPlacement => exact execTeamPlacement_kept hs
  | apportioningChange => exact execApportioningChange_kept hs
  | priorityPreemption => exact execPriorityPreemption_kept hs
  | teamPreemption => exact execTeamPreemption_kept hs
  | contextImageWrite => exact execContextImageWrite_kept hs
  | teamResumption => exact execTeamResumption_kept hs
  | deferredFaultPosting => exact execDeferredFaultPosting_kept hs
  | resume => exact execResume_kept hs
  | skip => exact execSkip_kept hs
  | trapCommand => exact execTrapCommand_kept hs
  | abort => exact execAbort_kept hs
  | evict => exact execEvict_kept hs
  | admitTeams => exact execAdmitTeams_kept hs
  | shoot => exact execShoot_kept hs
  | tevict => exact execTevict_kept hs
  | lostClear => exact execLostClear_kept hs
  | registerWrite => exact execRegisterWrite_kept hs
  | poolExtentMap => exact execPoolExtentMap_kept hs
  | extentRelease => exact execExtentRelease_kept hs
  | extentReleaseRequest => exact execExtentReleaseRequest_kept hs
  | extentRemoval => exact execExtentRemoval_kept hs
  | poolFatalError => exact execPoolFatalError_kept hs
  | hostRead => exact execHostRead_kept hs
  | hostWrite => exact execHostWrite_kept hs
  | hostSnoop => exact execHostSnoop_kept hs
  | atomicopCompletion => exact execAtomicopCompletion_kept hs
  | hostLinkDown => exact execHostLinkDown_kept hs
  | portFence => exact execPortFence_kept hs
  | setAsideNotice => exact execSetAsideNotice_kept hs
  | setAsideRelease => exact execSetAsideRelease_kept hs
  | setAsideExpiry => exact execSetAsideExpiry_kept hs
  | capabilityWord => exact execCapabilityWord_kept hs
  | slackReport => exact execSlackReport_kept hs
  | paceUpdate => exact execPaceUpdate_kept hs
  | groupEnd => exact execGroupEnd_kept hs
  | powerAllowanceWrite => exact execPowerAllowanceWrite_kept hs
  | powerFloor => exact execPowerFloor_kept hs
  | starvationPromotion => exact execStarvationPromotion_kept hs
  | energyInterval => exact execEnergyInterval_kept hs
  | sliceRatioChange => exact execSliceRatioChange_kept hs
  | bankFailureMark => exact execBankFailureMark_kept hs
  | treeCacheCut => exact execTreeCacheCut_kept hs
  | deviceReset => exact execDeviceReset_kept hs
  | phaseAdvance => exact execPhaseAdvance_kept hs
  | linkTrainingTimeout => exact execLinkTrainingTimeout_kept hs
  | firmwareUpdate => exact execFirmwareUpdate_kept hs
  | securityVersionRaise => exact execSecurityVersionRaise_kept hs
  | mildenReset => exact execMildenReset_kept hs
  | getVersion => exact execGetVersion_kept hs
  | getCapabilities => exact execGetCapabilities_kept hs
  | negotiateAlgorithms => exact execNegotiateAlgorithms_kept hs
  | getDigests => exact execGetDigests_kept hs
  | getCertificate => exact execGetCertificate_kept hs
  | challenge => exact execChallenge_kept hs
  | getMeasurements => exact execGetMeasurements_kept hs
  | unsupportedRequest => exact execUnsupportedRequest_kept hs
  | allowanceRefill => exact execAllowanceRefill_kept hs
  | softError => exact execSoftError_kept hs
  | hostPortTrained => exact execHostPortTrained_kept hs
  | peerAccessRequest => exact execPeerAccessRequest_kept hs
  | fabricTeardown => exact execFabricTeardown_kept hs
  | peerUnreachable => exact execPeerUnreachable_kept hs

-- Turns (log 1).

theorem State.pick_canonical {core : Nat} {t : State} {a : Agent} (picked : s.pick core = some (t, a)) : t.canonical := by
  have taken {u : State} (hu : u.canonical) {cs : Tab CoreSt} {id : Nat} {f : Crew → Crew} {v : State} {b : Agent}
      (made : some (State.updCrew { u with cores := cs } id f, b) = some (v, a)) : v.canonical := by
    cases made
    exact State.updCrew_canonical (State.withCores_canonical hu)
  unfold State.pick at picked
  extract_lets cs es ps take top mine marked unmark at picked
  clear_value ps mine marked
  split at picked
  · exact taken hs picked
  · split at picked
    · cases picked
    · split at picked
      · exact taken hs picked
      · exact taken (State.canonical_foldl (fun _ _ hs => State.updCrew_canonical hs) _ hs) picked

theorem State.chosen_canonical {a b : Agent} {t : State} (chosen : s.chosen a = some (t, b)) : t.canonical := by
  unfold State.chosen at chosen
  split at chosen
  · cases chosen
    exact hs
  · split at chosen
    · exact State.pick_canonical hs (Option.filter_eq_some_iff.1 chosen).1
    · cases chosen

/-- An agent's turn, in a state that the core's choice has left in form. -/
theorem State.issueTurn_kept {o : Option (State × Agent)} (left : ∀ t a, o = some (t, a) → t.canonical) : KeptNext (s.issueTurn o) := by
  cases o with
  | none => exact .next hs
  | some p => exact .ite (State.run_canonical (State.useGrant_canonical (left p.1 p.2 rfl)) (fun _ _ hs => exec_kept hs _) _) (.next hs)

theorem State.taken_kept (t : Turn) : KeptNext (s.taken t) := by
  cases t with
  | issue a => exact State.issueTurn_kept hs (fun _ _ => State.chosen_canonical hs)
  | core c => exact State.issueTurn_kept hs (fun _ _ => State.pick_canonical hs)
  | event e => exact .ite (exec_kept hs e) (.next hs)
  | combine c => exact .next (State.performLater_canonical hs)
  | evict h ln => exact .next (State.evictLine_canonical hs)
  | evictTree r gran level => exact .next (State.evictTree_canonical hs)
  | evictTlb h n => exact .next (State.evictTlb_canonical hs)
  | tick => exact .next (State.tick_canonical hs)

theorem step_kept : KeptNext (step s) := by
  cases turns : s.turns with
  | nil =>
    rw [step_idle turns]
    exact .next (State.tidy_canonical (State.tick_canonical hs))
  | cons t rest =>
    rw [step_turn turns]
    have listed : State.canonical { s with turns := rest } := hs
    exact tidied_kept (State.taken_kept listed t)

end Sys2Proof.Machine

namespace Sys2Proof

open Sys2Proof.Machine

/-- Settles O59: every instruction, event and command writes memory through operations that keep the form, and `tidy` after it does too. -/
theorem memoriesStayCanonical : Obligations.MemoriesStayCanonical := by
  unfold Obligations.MemoriesStayCanonical
  intro s t hs stepped
  exact step_kept hs t stepped

end Sys2Proof
end
end
